-- ==== Sys2Proof/Word.lean ====
section
/-! DEFINITION. The word types of the VB-7720 model and the sparse table type; plain data only. -/

namespace Sys2Proof

/-- A 64-bit register, S-register or memory-mapped register (R4, R5, R56). -/
abbrev Word := BitVec 64

/-- An F register: 128 bits (R57). -/
abbrev Quad := BitVec 128

/-- One byte of memory (R4: multi-byte values are big-endian). -/
abbrev Byte := BitVec 8

/-- A sparse table of like things by number: (number, value) pairs with strictly rising numbers and no entry
equal to the value an unlisted number has. The operations stand in Machine/Table.lean. -/
abbrev Tbl (α : Type) := List (Nat × α)

end Sys2Proof
end

