-- ==== Sys2Proof/Syntax.lean ====
section
/-! DEFINITION. The commands of the VB-7720: one constructor of Instr per row of spec/opcode_table.json, with the row's operands. -/

namespace Sys2Proof

/-- Principals of the object dictionary (R493, R496). -/
inductive Principal where
  | F | Z | P
deriving DecidableEq, Repr

/-- Who makes a request, as the request carries it: master ID and thread bit (R11, R12) and the zone tag of
Table 16.7 (none: the tag is not valid). -/
structure Acc where
  master : BitVec 8
  th     : Bool
  zone   : Option (Fin 16)
deriving DecidableEq, Repr

/-- Unit blocks that hold fault registers (Table 17.7). -/
inductive Blk where
  | pu (n : Fin 48)
  | home (q : Fin 4)
  | fab
  | mc (n : Fin 20)
  | drain
  | flash
  | ce (n : Fin 36)
  | lg (g : Fin 8)
  | crypto
  | comp
  | zm
  | spc
  | mgt
  | sns
  | tb
  | dbg
deriving DecidableEq, Repr

/-- Access tables by the target they govern (Table 19.4). -/
inductive TabId where
  | blk (b : Blk)
  | dwin
  | mgmtMem
  | group (g : Fin 4)
deriving DecidableEq, Repr

/-- Enable-able functions (Table 2.5). -/
inductive Fn where
  | zone (z : Fin 16)
  | pu (n : Fin 48)
  | ce (n : Fin 36)
  | link (n : Fin 512)
  | cslice (n : Fin 16)
  | dslice (n : Fin 16)
  | commit
  | rank (mc : Fin 20) (r : Fin 4)
deriving DecidableEq, Repr

/-- Clock islands (Table 1.2). -/
inductive Island where
  | pu (n : Fin 48)
  | home (q : Fin 4)
  | fab
  | mc (n : Fin 20)
  | drain
  | flash
  | ce (n : Fin 36)
  | lg (g : Fin 8)
  | crypto
  | comp
  | zm
  | mgmt (n : Fin 2)
  | sns
  | tb
deriving DecidableEq, Repr

/-- Core, thread and condition field of an instruction command (R65). Cores 0 to 47 are the PUs, core 48 + n is channel
engine n, as the presence bits number them (R232); a channel engine has thread 0 alone (R85, R343). -/
structure Hdr where
  pu   : Fin 84
  th   : Bool
  cond : BitVec 4
deriving DecidableEq, Repr

/-- Format T with the S bit (Table 3.3). -/
structure T3 where
  d : BitVec 5
  a : BitVec 5
  b : BitVec 5
  s : Bool
deriving DecidableEq, Repr

/-- Format T, unary: the b field is reserved (R86). -/
structure T2 where
  d : BitVec 5
  a : BitVec 5
  s : Bool
deriving DecidableEq, Repr

/-- Format I (Table 3.3). -/
structure I12 where
  d   : BitVec 5
  a   : BitVec 5
  imm : BitVec 12
deriving DecidableEq, Repr

/-- Format M (Table 3.3). -/
structure MemD where
  t    : BitVec 5
  a    : BitVec 5
  disp : BitVec 12
deriving DecidableEq, Repr

/-- Format N (Table 3.3). -/
structure MemX where
  t  : BitVec 5
  a  : BitVec 5
  x  : BitVec 5
  am : BitVec 3
  sm : BitVec 2
  sz : BitVec 2
deriving DecidableEq, Repr

/-- Format Q (Table 3.3). -/
structure Q4 where
  d : BitVec 5
  a : BitVec 5
  b : BitVec 5
  c : BitVec 5
deriving DecidableEq, Repr

/-- Format X, long form (Table 3.3). -/
structure X32 where
  d   : BitVec 5
  a   : BitVec 5
  imm : BitVec 32
deriving DecidableEq, Repr

/-- A channel frame as it arrives on a link (Table 13.8), with what the receiver's PCS and CRC checks found, and the RS-FEC
codewords corrected, those uncorrectable and the errored sync headers counted since the frame before it (R392). -/
structure Frame where
  version : BitVec 4
  kind    : BitVec 4
  flags   : BitVec 8
  len     : Nat
  src     : BitVec 16
  dst     : BitVec 16
  key     : Word
  seq     : BitVec 32
  route   : BitVec 16
  code    : BitVec 16
  payload : List Byte
  crcOk   : Bool
  pcsOk   : Bool
  fecCorr : Nat := 0
  fecUncorr : Nat := 0
  badSync : Nat := 0
deriving DecidableEq, Repr

/-- A CAN frame addressed to the module (Tables 18.7 to 18.9). -/
structure CanFrame where
  busB    : Bool
  classic : Bool
  src     : BitVec 7
  dst     : BitVec 7
  tgl     : Bool
  low     : BitVec 5
  data    : List Byte
deriving DecidableEq, Repr

/-- A dictionary request (R493): entry, and for a write its octets. -/
structure DictReq where
  index  : BitVec 16
  sub    : BitVec 8
  offset : Nat
  write  : Bool
  data   : List Byte
deriving DecidableEq, Repr

/-- What the comparator finds in a retire cycle (R264, R131, R267): csParity names the microword, whether the trailing
copy read it, and whether both copies report it; checkpoint and latch name a thread's checkpoint or replay latch of which
the leading or the trailing copy's array has an uncorrectable word (R263, R267). -/
inductive Compare where
  | good
  | lane (n : Fin 128)
  | csParity (addr : BitVec 14) (trail both : Bool)
  | checkpoint (th trail : Bool)
  | latch (th trail : Bool)
deriving DecidableEq, Repr

/-- How one stripe of a line reads (R299). -/
inductive Stripe where
  | good | corrected | bad | mismatch
deriving DecidableEq, Repr

/-- A cache or directory array error that an access meets (Table 8.2); corrected inL2: in an L2 that holds the line, else
in the L3 or directory; cleanUncorrTwice with the access's virtual address and the word or words of its instruction
(Table 3.10). -/
inductive ArrayErr where
  | none
  | corrected (inL2 : Bool)
  | parity
  | cleanUncorr
  | cleanUncorrTwice (va ins : Word)
  | dirtyUncorr
  | l3Clean
  | l3Dirty
  | dirUncorr
deriving DecidableEq, Repr

/-- A control-store image (R124, R125, R129): header, SHA-384 and the microwords from address 0 on. b1: built for
stepping B1. -/
structure CsImage where
  id    : BitVec 32
  ver   : BitVec 16
  b1    : Bool
  hash  : BitVec 384
  words : List (BitVec 200)
deriving DecidableEq, Repr

/-- What the checks of M1 find (R129, R344, R294): which slot's control-store image verifies, the image, whether the CE
firmware verifies and its SHA-384, whether the DIMMs fitted are those of the record, the PU positions with failing lanes in
the injection test (R272), and the units that failed another start-up test (R44, R281). -/
structure Prov where
  csA      : Bool
  csB      : Bool
  ceFw     : Bool
  memMatch : Bool
  image    : CsImage
  ceHash   : BitVec 384
  lanes    : List (Nat × Nat)
  failed   : List Fn
deriving DecidableEq, Repr

/-- Atomic operations (R191). -/
inductive AmoOp where
  | swp | add | and | or | xor | max | min | maxu | minu | cas | cas2
deriving DecidableEq, Repr

/-- Maintenance kinds at a home (Table 8.5). -/
inductive MntOp where
  | clean | inval | cleanInval
deriving DecidableEq, Repr

/-- TLBI scopes (Table 6.10, without the local bit). -/
inductive TlbiOp where
  | addr | addrAll | ctx | all
deriving DecidableEq, Repr

/-- The commands. -/
inductive Instr where
  -- VA4 integer (chapters 3 and 4)
  | add (h : Hdr) (o : T3)
  | sub (h : Hdr) (o : T3)
  | adc (h : Hdr) (o : T3)
  | sbc (h : Hdr) (o : T3)
  | and (h : Hdr) (o : T3)
  | or (h : Hdr) (o : T3)
  | xor (h : Hdr) (o : T3)
  | andn (h : Hdr) (o : T3)
  | shl (h : Hdr) (o : T3)
  | shr (h : Hdr) (o : T3)
  | sar (h : Hdr) (o : T3)
  | rol (h : Hdr) (o : T3)
  | ror (h : Hdr) (o : T3)
  | cmp (h : Hdr) (a b : BitVec 5) (s : Bool)
  | cmpu (h : Hdr) (a b : BitVec 5) (s : Bool)
  | mov (h : Hdr) (o : T2)
  | min (h : Hdr) (o : T3)
  | max (h : Hdr) (o : T3)
  | minu (h : Hdr) (o : T3)
  | maxu (h : Hdr) (o : T3)
  | clz (h : Hdr) (o : T2)
  | ctz (h : Hdr) (o : T2)
  | popc (h : Hdr) (o : T2)
  | bswap (h : Hdr) (o : T2)
  | sextB (h : Hdr) (o : T2)
  | sextH (h : Hdr) (o : T2)
  | sextW (h : Hdr) (o : T2)
  | zextW (h : Hdr) (o : T2)
  | mul (h : Hdr) (o : T3)
  | mulw (h : Hdr) (o : T3)
  | mulwu (h : Hdr) (o : T3)
  | sdiv (h : Hdr) (o : T3)
  | udiv (h : Hdr) (o : T3)
  | srem (h : Hdr) (o : T3)
  | urem (h : Hdr) (o : T3)
  | addi (h : Hdr) (o : I12)
  | andi (h : Hdr) (o : I12)
  | ori (h : Hdr) (o : I12)
  | xori (h : Hdr) (o : I12)
  | cmpi (h : Hdr) (a : BitVec 5) (imm : BitVec 12)
  | cmpui (h : Hdr) (a : BitVec 5) (imm : BitVec 12)
  | shiShl (h : Hdr) (d a : BitVec 5) (n : BitVec 6)
  | shiShr (h : Hdr) (d a : BitVec 5) (n : BitVec 6)
  | shiSar (h : Hdr) (d a : BitVec 5) (n : BitVec 6)
  | shiRol (h : Hdr) (d a : BitVec 5) (n : BitVec 6)
  | movi (h : Hdr) (d : BitVec 5) (imm : BitVec 17)
  -- loads and stores (R67 to R71)
  | ldB (h : Hdr) (o : MemD)
  | ldH (h : Hdr) (o : MemD)
  | ldW (h : Hdr) (o : MemD)
  | ldD (h : Hdr) (o : MemD)
  | ldsB (h : Hdr) (o : MemD)
  | ldsH (h : Hdr) (o : MemD)
  | ldsW (h : Hdr) (o : MemD)
  | stB (h : Hdr) (o : MemD)
  | stH (h : Hdr) (o : MemD)
  | stW (h : Hdr) (o : MemD)
  | stD (h : Hdr) (o : MemD)
  | ldx (h : Hdr) (o : MemX)
  | ldsx (h : Hdr) (o : MemX)
  | stx (h : Hdr) (o : MemX)
  | ldfS (h : Hdr) (o : MemD)
  | ldfD (h : Hdr) (o : MemD)
  | ldfQ (h : Hdr) (o : MemD)
  | stfS (h : Hdr) (o : MemD)
  | stfD (h : Hdr) (o : MemD)
  | stfQ (h : Hdr) (o : MemD)
  | ldfx (h : Hdr) (o : MemX)
  | stfx (h : Hdr) (o : MemX)
  -- branches, frames, system registers (R72 to R75, R58)
  | b (h : Hdr) (disp : BitVec 22)
  | bl (h : Hdr) (disp : BitVec 22)
  | br (h : Hdr) (b : BitVec 5)
  | blr (h : Hdr) (b : BitVec 5)
  | ret (h : Hdr)
  | callm (h : Hdr) (b : BitVec 5) (mask : BitVec 16)
  | retm (h : Hdr) (mask : BitVec 16)
  | mfs (h : Hdr) (g : BitVec 5) (sn : BitVec 12)
  | mts (h : Hdr) (g : BitVec 5) (sn : BitVec 12)
  -- binary floating point (R98 to R104)
  | faddD (h : Hdr) (d a b : BitVec 5)
  | fsubD (h : Hdr) (d a b : BitVec 5)
  | fmulD (h : Hdr) (d a b : BitVec 5)
  | fdivD (h : Hdr) (d a b : BitVec 5)
  | fsqrtD (h : Hdr) (d a : BitVec 5)
  | fcmpD (h : Hdr) (a b : BitVec 5)
  | fminD (h : Hdr) (d a b : BitVec 5)
  | fmaxD (h : Hdr) (d a b : BitVec 5)
  | faddS (h : Hdr) (d a b : BitVec 5)
  | fsubS (h : Hdr) (d a b : BitVec 5)
  | fmulS (h : Hdr) (d a b : BitVec 5)
  | fdivS (h : Hdr) (d a b : BitVec 5)
  | fsqrtS (h : Hdr) (d a : BitVec 5)
  | fcmpS (h : Hdr) (a b : BitVec 5)
  | fminS (h : Hdr) (d a b : BitVec 5)
  | fmaxS (h : Hdr) (d a b : BitVec 5)
  | fcvtSD (h : Hdr) (d a : BitVec 5)
  | fcvtDS (h : Hdr) (d a : BitVec 5)
  | fcvtGD (h : Hdr) (d a : BitVec 5)
  | fcvtDG (h : Hdr) (d a : BitVec 5)
  | fmov (h : Hdr) (d a : BitVec 5)
  | fneg (h : Hdr) (d a : BitVec 5)
  | fabs (h : Hdr) (d a : BitVec 5)
  | fmvGF (h : Hdr) (d a : BitVec 5)
  | fmvFG (h : Hdr) (d a : BitVec 5)
  | fmaddD (h : Hdr) (o : Q4)
  | fmsubD (h : Hdr) (o : Q4)
  | fnmaddD (h : Hdr) (o : Q4)
  | fnmsubD (h : Hdr) (o : Q4)
  -- decimal (R105 to R113)
  | dadd (h : Hdr) (d a b : BitVec 5)
  | dsub (h : Hdr) (d a b : BitVec 5)
  | dmul (h : Hdr) (d a b : BitVec 5)
  | ddiv (h : Hdr) (d a b : BitVec 5)
  | dqua (h : Hdr) (d a b : BitVec 5)
  | dcmp (h : Hdr) (a b : BitVec 5)
  | d2s (h : Hdr) (d a b : BitVec 5)
  | s2d (h : Hdr) (d a b : BitVec 5)
  | dcvt12864 (h : Hdr) (d a : BitVec 5)
  | dcvt64128 (h : Hdr) (d a : BitVec 5)
  | dadd64 (h : Hdr) (d a b : BitVec 5)
  | dsub64 (h : Hdr) (d a b : BitVec 5)
  | dmul64 (h : Hdr) (d a b : BitVec 5)
  | ddiv64 (h : Hdr) (d a b : BitVec 5)
  | dqua64 (h : Hdr) (d a b : BitVec 5)
  | dcmp64 (h : Hdr) (a b : BitVec 5)
  -- reserved loads, conditional stores, atomics (R188 to R193)
  | lresD (h : Hdr) (d a : BitVec 5)
  | scondD (h : Hdr) (d a b : BitVec 5)
  | lresW (h : Hdr) (d a : BitVec 5)
  | scondW (h : Hdr) (d a b : BitVec 5)
  | amoSwp (h : Hdr) (d a b : BitVec 5)
  | amoAdd (h : Hdr) (d a b : BitVec 5)
  | amoAnd (h : Hdr) (d a b : BitVec 5)
  | amoOr (h : Hdr) (d a b : BitVec 5)
  | amoXor (h : Hdr) (d a b : BitVec 5)
  | amoMax (h : Hdr) (d a b : BitVec 5)
  | amoMin (h : Hdr) (d a b : BitVec 5)
  | amoMaxu (h : Hdr) (d a b : BitVec 5)
  | amoMinu (h : Hdr) (d a b : BitVec 5)
  | cas (h : Hdr) (d a b : BitVec 5)
  | cas2 (h : Hdr) (d a b : BitVec 5)
  -- fences, endpoint completion, maintenance, TLBI (R178 to R218, R163)
  | fenceLL (h : Hdr)
  | fenceLS (h : Hdr)
  | fenceSL (h : Hdr)
  | fenceSS (h : Hdr)
  | fenceAll (h : Hdr)
  | syncEp (h : Hdr)
  | syncEpComplete (pu : Fin 84) (th : Bool)
  | clnL (h : Hdr) (a : BitVec 5)
  | invL (h : Hdr) (a : BitVec 5)
  | cliL (h : Hdr) (a : BitVec 5)
  | dzl (h : Hdr) (a : BitVec 5)
  | cmrCln (h : Hdr) (a b : BitVec 5)
  | cmrCli (h : Hdr) (a b : BitVec 5)
  | cmrInv (h : Hdr) (a b : BitVec 5)
  | lockwLock (h : Hdr) (d a b : BitVec 5)
  | lockwUnlock (h : Hdr) (d a b : BitVec 5)
  | lockwUnlockSet (h : Hdr) (d a b : BitVec 5)
  | tlbiAddr (h : Hdr) (loc : Bool) (a b : BitVec 5)
  | tlbiAddrAll (h : Hdr) (loc : Bool) (a b : BitVec 5)
  | tlbiCtx (h : Hdr) (loc : Bool) (a b : BitVec 5)
  | tlbiAll (h : Hdr) (loc : Bool) (a b : BitVec 5)
  | tlbiDelivery (pu : Fin 48)
  | tlbiTimeout (pu : Fin 48)
  -- transactions (chapter 9)
  | txopen (h : Hdr) (d : BitVec 5)
  | txopenB (h : Hdr) (d : BitVec 5)
  | txclose (h : Hdr) (d : BitVec 5)
  | txdrop (h : Hdr) (a : BitVec 5)
  -- system (R76 to R80)
  | eret (h : Hdr)
  | svc (h : Hdr) (a b : BitVec 5)
  | wait (h : Hdr)
  | waitWake (pu : Fin 84) (th : Bool)
  | brk (h : Hdr)
  | nop (h : Hdr)
  -- I/O and accelerators (R372, R397)
  | xstart (h : Hdr) (d a b : BitVec 5)
  | crq (h : Hdr) (d a : BitVec 5)
  | dfq (h : Hdr) (d a : BitVec 5)
  | ioaAcknowledge (pu : Fin 48) (th : Bool)
  | aese (h : Hdr) (d a b : BitVec 5)
  | aesd (h : Hdr) (d a b : BitVec 5)
  | aesmc (h : Hdr) (d a b : BitVec 5)
  | aesimc (h : Hdr) (d a b : BitVec 5)
  | clmul (h : Hdr) (d a b : BitVec 5)
  | clmulh (h : Hdr) (d a b : BitVec 5)
  | sha256r (h : Hdr) (d a b : BitVec 5)
  | sha512r (h : Hdr) (d a b : BitVec 5)
  -- long forms (R64)
  | liL (h : Hdr) (d : BitVec 5) (imm : BitVec 32)
  | liH (h : Hdr) (d : BitVec 5) (imm : BitVec 32)
  | addiW (h : Hdr) (o : X32)
  | andiW (h : Hdr) (o : X32)
  | oriW (h : Hdr) (o : X32)
  | xoriW (h : Hdr) (o : X32)
  | cmpiW (h : Hdr) (a : BitVec 5) (imm : BitVec 32)
  | cmpuiW (h : Hdr) (a : BitVec 5) (imm : BitVec 32)
  | bW (h : Hdr) (imm : BitVec 32)
  | blW (h : Hdr) (imm : BitVec 32)
  -- power, modes and start-up (chapters 2, 12, 18, 20)
  | vauxInTolerance (straps : BitVec 7)
  | vauxLoss
  | bootImageCheck (slotB verifies : Bool) (ver : BitVec 32)
  | bootRecoveryImageWrite (verifies : Bool) (ver : BitVec 32)
  | modeRequestCold (p : Principal)
  | modeRequestProvision (p : Principal)
  | modeRequestRun (p : Principal)
  | modeRequestService (p : Principal)
  | modeRequestQuiesce (p : Principal)
  | railSequenceTimeout
  | mainPgRise (onB : List Island) (keysOk : Bool)
  | mainPowerGoodLost
  | pfwNLow
  | pfwNHigh
  | pfwNCountAsserted
  | drainSnapshot
  | drainFinished
  | busBelowDrainThreshold
  | holdupRepowerHoldExpiry
  | provisioningComplete (p : Prov)
  | m1TimeLimit (unfinished : List Fn) (p : Option Prov)
  | dramInitComplete
  | restoreComplete (badBlocks badIndexes : List Nat)
  | serviceSessionTimeout
  | checkstopLineAsserted (b : Blk) (src : Fin 32) (inst : BitVec 8) (info : BitVec 32)
  | salvageDrainComplete
  | orderlyDrainComplete
  | refclkLoss (b : Bool)
  -- lifecycle (R41)
  | lcEnable (f : Fn) (a : Acc) (w : Word)
  | lcDisable (f : Fn) (a : Acc) (w : Word)
  | lcUnfence (f : Fn) (a : Acc) (w : Word)
  | lcStartComplete (f : Fn) (fail : Nat)
  | lcStopComplete (f : Fn)
  | lcTimeout (f : Fn)
  -- registers, faults and outputs (R5 to R10, chapter 17)
  | registerWrite (a : Acc) (addr : BitVec 52) (size : Nat) (v : Word)
  | rcRead (a : Acc) (addr : BitVec 52) (size : Nat)
  | fstatClear (b : Blk) (a : Acc)
  | fovfClear (b : Blk) (a : Acc)
  | atLockSet (t : TabId) (a : Acc)
  | atLogClear (t : TabId) (a : Acc)
  | aliveRearm (a : Acc) (mask : BitVec 20)
  | aliveRejClear (a : Acc) (mask : BitVec 20)
  | holdupTest (a : Acc)
  | chkstopTest (a : Acc)
  | privPulseEnd (holdup : Bool)
  -- management (chapter 18)
  | wdogKick (n : Fin 2) (a : Acc) (v : BitVec 8)
  | watchdogExpiry
  | standbyTakeover (csHash ceHash : BitVec 384) (csAgain : Option (Bool × CsImage)) (ceAgain : Option (BitVec 384)) (loopOk : Bool)
  | k0Cycle (micros : Nat) (memError : Bool)
  | faultStormUnmask (b : Blk) (src : Fin 32)
  | k1ThermalIteration (hottest : Int)
  | thermalCeilingStep (lower : Bool)
  | valveDeviation
  | adcSample (uv : List Int) (powerW : Nat) (fault : Bool)
  | powerLimitRestore
  | commitBudgetUpdate
  | storeRechargeTest
  | storeRechargeTestEnd
  | storeFltNAssert
  | storeFltNNegate
  | frozenClear (a : Acc)
  | commitGrantRequest (a : Acc) (block : Nat)
  | openRecordWritten
  | blockRecordWritten
  | flashChannelFailure (ch : Fin 16)
  | enckeIntervalClose
  | enckeRecordWrite
  | heartbeat
  | dictRead (loc : Option (Principal × DictReq))
  | dictWrite (loc : Option (Principal × DictReq))
  | dwGoRead (z : Fin 16) (a : Acc) (index : BitVec 16) (sub : BitVec 8) (offset : BitVec 24)
  | dwGoWrite (z : Fin 16) (a : Acc) (index : BitVec 16) (sub : BitVec 8) (len : BitVec 13) (offset : BitVec 24)
  | provingRunPu (p : Principal) (n : BitVec 8)
  | provingRunCe (p : Principal) (n : BitVec 8)
  | provingRunDeimos (p : Principal) (v : BitVec 8)
  | provingRunComplete (ce : Bool) (n : Nat) (failLanes : Nat) (pass : Bool)
  | applyBusRates (p : Principal) (v : BitVec 8)
  | abandonHeldExchanges (p : Principal) (z : BitVec 8)
  | clearInDoubt (p : Principal) (v : BitVec 8)
  | masterKeyEnrolment (p : Principal) (z : BitVec 8) (fused : Bool)
  | zoneCountChange (p : Principal) (v : BitVec 8) (fused : Bool)
  | maxCommitSizeChange (p : Principal) (v : BitVec 8) (fused : Bool)
  | signingRootChange (p : Principal) (root : BitVec 384) (fused : Bool)
  | discover (f : CanFrame)
  | readReq (f : CanFrame)
  | writeReq (f : CanFrame)
  | segReq (f : CanFrame)
  | writeSeg (f : CanFrame)
  | abort (f : CanFrame)
  | transferTimeout (busB : Bool) (client : BitVec 7)
  | time (f : CanFrame)
  | busOffRecovery (busB : Bool)
  | timeRefLoss
  | timeRefReturn
  | debugAttach (pu : Fin 48)
  | debugPortRequest (a : Acc) (addr : BitVec 52)
  | resyncComplete (pu : Fin 48) (failLanes : Nat)
  | tapBypass
  | tapIdcode
  | tapSamplePreload
  | tapExtest
  | tapClamp
  -- lock-step, retry and sparing (chapter 10)
  | compareRetire (pu : Fin 48) (c : Compare)
  | retryRestart (pu : Fin 48)
  | retryTimeout (pu : Fin 48)
  | retryWindowClose (pu : Fin 48)
  | callupDrainDeadline (missing0 missing1 : Bool)
  | callupInjectionTestComplete (failLanes : Nat)
  | controlStoreLoadComplete (ok : Bool)
  | callupStateLoadComplete (ok : Bool)
  | presenceClear (pu : Fin 48)
  | ceWatchdogExpiry (ce : Fin 36)
  | standbyProve (pass : Bool)
  -- events of threads and store buffers (chapters 3 and 7)
  | interruptTaken (pu : Fin 84) (th : Bool)
  | storeBufferDrain (pu : Fin 84) (th : Bool) (i : Nat)
  -- coherence (chapter 8)
  | rd (a : Acc) (line : Nat) (e : ArrayErr)
  | rdn (a : Acc) (line : Nat)
  | rdx (a : Acc) (line : Nat) (stamp : Option Word)
  | upg (a : Acc) (line : Nat) (stamp : Option Word)
  | wb (pu : Fin 84) (line : Nat)
  | evc (a : Acc) (line : Nat)
  | clnw (pu : Fin 84) (line : Nat)
  | amo (a : Acc) (addr : BitVec 52) (op : AmoOp) (x y : Quad)
  | mnt (a : Acc) (line : Nat) (op : MntOp)
  | prefetchRead (pu : Fin 48) (th : Bool) (va : Word)
  | plw (ce : Fin 36) (z : Fin 16) (pu : Fin 48) (th : Bool) (addr : BitVec 52) (bytes : List Byte)
  | ivw (a : Acc) (addr : BitVec 52) (bytes : List Byte)
  | fwd (line : Nat)
  | recall (line : Nat)
  | inv (line : Nat) (holder : Nat)
  | data (line : Nat)
  | ack (line : Nat)
  | fencedCompletion (b : Blk) (a : Acc) (addr : BitVec 52) (posted : Bool)
  | ownershipHoldExpiry (pu : Fin 48) (line : Nat)
  | setRecall (q : Fin 4) (slice : Fin 12) (set : Nat)
  -- zones and interrupts (chapter 16)
  | zoneQuiesce (z : Fin 16)
  | zrstDrainLimit (z : Fin 16)
  | channelQuiesce (z : Fin 16) (le : Fin 32)
  | accelQuiesce (z : Fin 16) (comp : Bool)
  | segAdd (a : Acc) (w : Word)
  | sidtSet (z : Fin 16) (a : Acc) (w : Word)
  | irqSend (z : Fin 16) (a : Acc) (thread : BitVec 7) (vector : BitVec 10) (prio : BitVec 4)
  | interruptArrival (z : Fin 16) (thread : BitVec 7) (vector : BitVec 10) (prio : BitVec 4)
  | reloadEp (ce : Fin 36) (a : Acc) (ep : BitVec 16)
  | reloadDisp (ce : Fin 36) (a : Acc) (z : Fin 16)
  -- channel subsystem and links (chapters 13 and 14)
  | cmdFrame (link : Fin 512) (f : Frame)
  | dataFrame (link : Fin 512) (f : Frame)
  | statusFrame (link : Fin 512) (f : Frame)
  | acceptFrame (link : Fin 512) (f : Frame)
  | redriveFrame (link : Fin 512) (f : Frame)
  | idleFrame (link : Fin 512) (f : Frame)
  | frameForward (link : Fin 512) (f : Frame)
  | ceCommitWriteAck (entry : Nat)
  | xstartCmd (le : Fin 32)
  | xstartResp (le : Fin 32)
  | tAccExpiry (entry : Nat)
  | tStatExpiry (entry : Nat)
  | tLingerExpiry (entry : Nat)
  | tOrphanExpiry (entry : Nat)
  | tLiveExpiry (link : Fin 512)
  | idleIntervalExpiry (link : Fin 512)
  | ringPoll (entry : Nat)
  | signalDetectQualified (link : Fin 512)
  | linkTrainingComplete (link : Fin 512) (pre main post : BitVec 6)
  | trainingTimerExpiry (link : Fin 512)
  | linkLockLoss (link : Fin 512) (am : Bool)
  | hiBerTimeout (link : Fin 512)
  | linkLockRegained (link : Fin 512)
  | sdsclkLoss (g : Fin 8)
  -- crypto and compression (chapter 15)
  | aesGcmEncrypt (slice : Fin 16)
  | aesGcmDecrypt (slice : Fin 16)
  | aesXtsEncrypt (slice : Fin 16)
  | aesXtsDecrypt (slice : Fin 16)
  | aesCmacGenerate (slice : Fin 16)
  | aesCmacVerify (slice : Fin 16)
  | sha256 (slice : Fin 16)
  | sha384 (slice : Fin 16)
  | sha512 (slice : Fin 16)
  | sha3256 (slice : Fin 16)
  | sha3384 (slice : Fin 16)
  | sha3512 (slice : Fin 16)
  | hmacGenerate (slice : Fin 16)
  | hmacVerify (slice : Fin 16)
  | ecdsaSign (slice : Fin 16)
  | ecdsaVerify (slice : Fin 16)
  | mlDsaSign (slice : Fin 16)
  | mlDsaVerify (slice : Fin 16)
  | mlKemKeyGeneration (slice : Fin 16)
  | mlKemEncapsulate (slice : Fin 16)
  | mlKemDecapsulate (slice : Fin 16)
  | ecdsaKeyGeneration (slice : Fin 16)
  | mlDsaKeyGeneration (slice : Fin 16)
  | pinBlockTranslation (slice : Fin 16)
  | generateKey (slice : Fin 16)
  | importClearKey (slice : Fin 16)
  | reWrap (slice : Fin 16)
  | randomBytes (slice : Fin 16)
  | compress (slice : Fin 16)
  | decompress (slice : Fin 16)
  | descriptorComplete (comp : Bool) (slice : Fin 16)
  | chainFailureHold (slice : Fin 16)
  | entropyHealthFail
  | entropyRetest (pass : Bool)
  | drbgReseed (slice : Option (Fin 16))
  -- DRAM (chapter 11)
  | mcReadRequest (a : Acc) (line : Nat) (stripes : List Stripe)
  | mcWriteRequest (a : Acc) (line : Nat) (bytes : List Byte) (retries : Nat)
  | refreshDue (mc : Fin 20) (rank : Fin 4)
  | powerDownEntry (mc : Fin 20) (rank : Fin 4)
  | selfRefreshEntry (mc : Fin 20) (rank : Fin 4)
  | urgencyStep (mc : Fin 20) (i : Nat) (level : Fin 4)
  | trnWriteLevelling (mc : Fin 20) (a : Acc) (rank : Fin 4) (nibble : Fin 32) (start : BitVec 10)
  | trnReceiveEnable (mc : Fin 20) (a : Acc) (rank : Fin 4) (nibble : Fin 32) (start : BitVec 10)
  | trnReadEye (mc : Fin 20) (a : Acc) (rank : Fin 4) (nibble : Fin 32) (start : BitVec 10)
  | trnWriteEye (mc : Fin 20) (a : Acc) (rank : Fin 4) (nibble : Fin 32) (start : BitVec 10)
  | trnDqsOscillator (mc : Fin 20) (a : Acc) (rank : Fin 4) (nibble : Fin 32) (start : BitVec 10)
  | trnCaTraining (mc : Fin 20) (a : Acc) (rank : Fin 4) (nibble : Fin 32) (start : BitVec 10)
  | trnRunComplete (mc : Fin 20) (res : Word) (noResponse fails : Bool)
  | trnApply (mc : Fin 20) (a : Acc)
  | delayUpdate (mc : Fin 20) (rank : Fin 4) (osc : Nat) (centres : List (Option Nat))
  | scrubLine (g : Fin 4) (stripes : List Stripe)
  | rebuildLine (g : Fin 4) (stripes : List Stripe)
  | reservedEncoding (pu : Fin 84) (th : Bool) (w1 w2 : BitVec 32)
  -- clocks and the rest
  | refclkReturn (b : Bool)
  | sdsclkReturn (g : Fin 8)
  | islandFrequencySet (i : Island) (mhz : Nat)
  | clockRelockComplete (i : Island)
  | islandFence (i : Island)
  | islandUnfence (i : Island)
  | islandPowerSwitch (i : Island) (on : Bool)
  | regulatorAcknowledgement (q : Fin 4)
  | dramCommandSlot (mc : Fin 20) (ready : List Nat)
  | ceZoneSlot (ce : Fin 36)
  | signalEnergyChange (link : Fin 512) (present : Bool)
  | k4Period
deriving DecidableEq, Repr

end Sys2Proof
end

