-- ==== Sys2Proof/Decode.lean ====
section
/-! DEFINITION. Instruction words of VA4 and the instructions they spell (Tables 3.3 to 3.5 and 3.12): the decoder, with
the detail code of a word that it does not take (R61, Table 3.10), and the encoder. A field that no rule marks reserved
and no instruction uses is not looked at (assumption 73). -/

namespace Sys2Proof

/-- Format T (Table 3.3). -/
def fmtT (c : BitVec 4) (opc : BitVec 6) (d a b : BitVec 5) (s : Bool) (fn : BitVec 6) : BitVec 32 :=
  c ++ opc ++ d ++ a ++ b ++ BitVec.ofBool s ++ fn

/-- Format Q. -/
def fmtQ (c : BitVec 4) (opc : BitVec 6) (o : Q4) (fn : BitVec 2) : BitVec 32 :=
  c ++ opc ++ o.d ++ o.a ++ o.b ++ o.c ++ fn

/-- Formats I and M: two registers and a 12-bit constant. -/
def fmtI (c : BitVec 4) (opc : BitVec 6) (d a : BitVec 5) (imm : BitVec 12) : BitVec 32 := c ++ opc ++ d ++ a ++ imm

/-- Format J. -/
def fmtJ (c : BitVec 4) (opc : BitVec 6) (d : BitVec 5) (imm : BitVec 17) : BitVec 32 := c ++ opc ++ d ++ imm

/-- Format N. -/
def fmtN (c : BitVec 4) (opc : BitVec 6) (o : MemX) : BitVec 32 :=
  c ++ opc ++ o.t ++ o.a ++ o.x ++ o.am ++ o.sm ++ o.sz

/-- Format B. -/
def fmtB (c : BitVec 4) (opc : BitVec 6) (disp : BitVec 22) : BitVec 32 := c ++ opc ++ disp

/-- Format C. -/
def fmtC (c : BitVec 4) (opc : BitVec 6) (b : BitVec 5) (mask : BitVec 16) : BitVec 32 := c ++ opc ++ b ++ (0 : BitVec 1) ++ mask

/-- Format S. -/
def fmtS (c : BitVec 4) (opc : BitVec 6) (g : BitVec 5) (sn : BitVec 12) : BitVec 32 := c ++ opc ++ g ++ (0 : BitVec 5) ++ sn

/-- Format X, word 1. -/
def fmtX (c : BitVec 4) (xop : BitVec 6) (d a : BitVec 5) : BitVec 32 := c ++ (0x3F : BitVec 6) ++ xop ++ d ++ a ++ (0 : BitVec 6)

/-- Condition field (R61). -/
def wCond (w : BitVec 32) : BitVec 4 := w.extractLsb' 28 4

/-- Major opcode (R61). -/
def wOpc (w : BitVec 32) : BitVec 6 := w.extractLsb' 22 6

/-- Function code of format T. -/
def wFn (w : BitVec 32) : BitVec 6 := w.extractLsb' 0 6

/-- Field d, t, g, or b of format C. -/
def wD (w : BitVec 32) : BitVec 5 := w.extractLsb' 17 5

/-- Field a. -/
def wA (w : BitVec 32) : BitVec 5 := w.extractLsb' 12 5

/-- Field b, or x of format N. -/
def wB (w : BitVec 32) : BitVec 5 := w.extractLsb' 7 5

/-- S bit. -/
def wS (w : BitVec 32) : Bool := w.getLsbD 6

/-- IMM12, DISP12, or SN of format S. -/
def wImm12 (w : BitVec 32) : BitVec 12 := w.extractLsb' 0 12

/-- Format T with the S bit. -/
def wT3 (w : BitVec 32) : T3 := { d := wD w, a := wA w, b := wB w, s := wS w }

/-- Format T, unary. -/
def wT2 (w : BitVec 32) : T2 := { d := wD w, a := wA w, s := wS w }

/-- Format Q. -/
def wQ4 (w : BitVec 32) : Q4 := { d := wD w, a := wA w, b := wB w, c := w.extractLsb' 2 5 }

/-- Format I. -/
def wI12 (w : BitVec 32) : I12 := { d := wD w, a := wA w, imm := wImm12 w }

/-- Format M. -/
def wMemD (w : BitVec 32) : MemD := { t := wD w, a := wA w, disp := wImm12 w }

/-- Format N. -/
def wMemX (w : BitVec 32) : MemX :=
  { t := wD w, a := wA w, x := wB w, am := w.extractLsb' 4 3, sm := w.extractLsb' 2 2, sz := w.extractLsb' 0 2 }

/-- An instruction whose reserved fields must be zero: z says that they are (R61, detail 5). -/
def resv (z : Bool) (i : Instr) : Except Nat Instr := if z then .ok i else .error 5

/-- An instruction with reserved fields (z: they are zero) and a register constraint (k: it holds); detail 5 stands ahead
of detail 4 (assumption 73). -/
def constr (z k : Bool) (i : Instr) : Except Nat Instr := if !z then .error 5 else if k then .ok i else .error 4

/-- The ALU group (Table 3.5). -/
def decAlu (h : Hdr) (w : BitVec 32) : Except Nat Instr :=
  match (wFn w).toNat with
  | 0x00 => .ok (.add h (wT3 w))
  | 0x01 => .ok (.sub h (wT3 w))
  | 0x02 => .ok (.adc h (wT3 w))
  | 0x03 => .ok (.sbc h (wT3 w))
  | 0x04 => .ok (.and h (wT3 w))
  | 0x05 => .ok (.or h (wT3 w))
  | 0x06 => .ok (.xor h (wT3 w))
  | 0x07 => .ok (.andn h (wT3 w))
  | 0x08 => .ok (.shl h (wT3 w))
  | 0x09 => .ok (.shr h (wT3 w))
  | 0x0A => .ok (.sar h (wT3 w))
  | 0x0B => .ok (.rol h (wT3 w))
  | 0x0C => .ok (.ror h (wT3 w))
  | 0x0D => resv (wD w == 0) (.cmp h (wA w) (wB w) (wS w))
  | 0x0E => resv (wD w == 0) (.cmpu h (wA w) (wB w) (wS w))
  | 0x0F => resv (wB w == 0) (.mov h (wT2 w))
  | 0x10 => .ok (.min h (wT3 w))
  | 0x11 => .ok (.max h (wT3 w))
  | 0x12 => .ok (.minu h (wT3 w))
  | 0x13 => .ok (.maxu h (wT3 w))
  | 0x14 => resv (wB w == 0) (.clz h (wT2 w))
  | 0x15 => resv (wB w == 0) (.ctz h (wT2 w))
  | 0x16 => resv (wB w == 0) (.popc h (wT2 w))
  | 0x17 => resv (wB w == 0) (.bswap h (wT2 w))
  | 0x18 => resv (wB w == 0) (.sextB h (wT2 w))
  | 0x19 => resv (wB w == 0) (.sextH h (wT2 w))
  | 0x1A => resv (wB w == 0) (.sextW h (wT2 w))
  | 0x1B => resv (wB w == 0) (.zextW h (wT2 w))
  | _ => .error 2

/-- The MULDIV group; MULW and MULWU take an even d. -/
def decMuldiv (h : Hdr) (w : BitVec 32) : Except Nat Instr :=
  match (wFn w).toNat with
  | 0x00 => .ok (.mul h (wT3 w))
  | 0x01 => constr true (!(wD w).getLsbD 0) (.mulw h (wT3 w))
  | 0x02 => constr true (!(wD w).getLsbD 0) (.mulwu h (wT3 w))
  | 0x04 => .ok (.sdiv h (wT3 w))
  | 0x05 => .ok (.udiv h (wT3 w))
  | 0x06 => .ok (.srem h (wT3 w))
  | 0x07 => .ok (.urem h (wT3 w))
  | _ => .error 2

/-- SHI: kind, reserved bits, count. -/
def decShi (h : Hdr) (w : BitVec 32) : Except Nat Instr :=
  resv (w.extractLsb' 6 4 == 0) (match (w.extractLsb' 10 2).toNat with
  | 0 => .shiShl h (wD w) (wA w) (w.extractLsb' 0 6)
  | 1 => .shiShr h (wD w) (wA w) (w.extractLsb' 0 6)
  | 2 => .shiSar h (wD w) (wA w) (w.extractLsb' 0 6)
  | _ => .shiRol h (wD w) (wA w) (w.extractLsb' 0 6))

/-- The BRG group. -/
def decBrg (h : Hdr) (w : BitVec 32) : Except Nat Instr :=
  match (wFn w).toNat with
  | 0x00 => resv (!wS w) (.br h (wB w))
  | 0x01 => resv (!wS w) (.blr h (wB w))
  | 0x02 => resv (!wS w) (.ret h)
  | _ => .error 2

/-- The FPB group. -/
def decFpb (h : Hdr) (w : BitVec 32) : Except Nat Instr :=
  match (wFn w).toNat with
  | 0x00 => resv (!wS w) (.faddD h (wD w) (wA w) (wB w))
  | 0x01 => resv (!wS w) (.fsubD h (wD w) (wA w) (wB w))
  | 0x02 => resv (!wS w) (.fmulD h (wD w) (wA w) (wB w))
  | 0x03 => resv (!wS w) (.fdivD h (wD w) (wA w) (wB w))
  | 0x04 => resv (!wS w) (.fsqrtD h (wD w) (wA w))
  | 0x05 => resv (!wS w && wD w == 0) (.fcmpD h (wA w) (wB w))
  | 0x06 => resv (!wS w) (.fminD h (wD w) (wA w) (wB w))
  | 0x07 => resv (!wS w) (.fmaxD h (wD w) (wA w) (wB w))
  | 0x08 => resv (!wS w) (.faddS h (wD w) (wA w) (wB w))
  | 0x09 => resv (!wS w) (.fsubS h (wD w) (wA w) (wB w))
  | 0x0A => resv (!wS w) (.fmulS h (wD w) (wA w) (wB w))
  | 0x0B => resv (!wS w) (.fdivS h (wD w) (wA w) (wB w))
  | 0x0C => resv (!wS w) (.fsqrtS h (wD w) (wA w))
  | 0x0D => resv (!wS w && wD w == 0) (.fcmpS h (wA w) (wB w))
  | 0x0E => resv (!wS w) (.fminS h (wD w) (wA w) (wB w))
  | 0x0F => resv (!wS w) (.fmaxS h (wD w) (wA w) (wB w))
  | 0x10 => resv (!wS w) (.fcvtSD h (wD w) (wA w))
  | 0x11 => resv (!wS w) (.fcvtDS h (wD w) (wA w))
  | 0x12 => resv (!wS w) (.fcvtGD h (wD w) (wA w))
  | 0x13 => resv (!wS w) (.fcvtDG h (wD w) (wA w))
  | 0x14 => resv (!wS w) (.fmov h (wD w) (wA w))
  | 0x15 => resv (!wS w) (.fneg h (wD w) (wA w))
  | 0x16 => resv (!wS w) (.fabs h (wD w) (wA w))
  | 0x17 => resv (!wS w) (.fmvGF h (wD w) (wA w))
  | 0x18 => resv (!wS w) (.fmvFG h (wD w) (wA w))
  | _ => .error 2

/-- The FMA group. -/
def decFma (h : Hdr) (w : BitVec 32) : Instr :=
  match (w.extractLsb' 0 2).toNat with
  | 0 => .fmaddD h (wQ4 w)
  | 1 => .fmsubD h (wQ4 w)
  | 2 => .fnmaddD h (wQ4 w)
  | _ => .fnmsubD h (wQ4 w)

/-- The DEC group. -/
def decDec (h : Hdr) (w : BitVec 32) : Except Nat Instr :=
  match (wFn w).toNat with
  | 0x00 => resv (!wS w) (.dadd h (wD w) (wA w) (wB w))
  | 0x01 => resv (!wS w) (.dsub h (wD w) (wA w) (wB w))
  | 0x02 => resv (!wS w) (.dmul h (wD w) (wA w) (wB w))
  | 0x03 => resv (!wS w) (.ddiv h (wD w) (wA w) (wB w))
  | 0x04 => resv (!wS w) (.dqua h (wD w) (wA w) (wB w))
  | 0x05 => resv (!wS w && wD w == 0) (.dcmp h (wA w) (wB w))
  | 0x06 => resv (!wS w) (.d2s h (wD w) (wA w) (wB w))
  | 0x07 => resv (!wS w) (.s2d h (wD w) (wA w) (wB w))
  | 0x08 => resv (!wS w) (.dcvt12864 h (wD w) (wA w))
  | 0x09 => resv (!wS w) (.dcvt64128 h (wD w) (wA w))
  | 0x10 => resv (!wS w) (.dadd64 h (wD w) (wA w) (wB w))
  | 0x11 => resv (!wS w) (.dsub64 h (wD w) (wA w) (wB w))
  | 0x12 => resv (!wS w) (.dmul64 h (wD w) (wA w) (wB w))
  | 0x13 => resv (!wS w) (.ddiv64 h (wD w) (wA w) (wB w))
  | 0x14 => resv (!wS w) (.dqua64 h (wD w) (wA w) (wB w))
  | 0x15 => resv (!wS w && wD w == 0) (.dcmp64 h (wA w) (wB w))
  | _ => .error 2

/-- The ATOM group; CAS2 takes an even d and b. -/
def decAtom (h : Hdr) (w : BitVec 32) : Except Nat Instr :=
  match (wFn w).toNat with
  | 0x00 => resv (!wS w) (.lresD h (wD w) (wA w))
  | 0x01 => resv (!wS w) (.scondD h (wD w) (wA w) (wB w))
  | 0x02 => resv (!wS w) (.lresW h (wD w) (wA w))
  | 0x03 => resv (!wS w) (.scondW h (wD w) (wA w) (wB w))
  | 0x08 => resv (!wS w) (.amoSwp h (wD w) (wA w) (wB w))
  | 0x09 => resv (!wS w) (.amoAdd h (wD w) (wA w) (wB w))
  | 0x0A => resv (!wS w) (.amoAnd h (wD w) (wA w) (wB w))
  | 0x0B => resv (!wS w) (.amoOr h (wD w) (wA w) (wB w))
  | 0x0C => resv (!wS w) (.amoXor h (wD w) (wA w) (wB w))
  | 0x0D => resv (!wS w) (.amoMax h (wD w) (wA w) (wB w))
  | 0x0E => resv (!wS w) (.amoMin h (wD w) (wA w) (wB w))
  | 0x0F => resv (!wS w) (.amoMaxu h (wD w) (wA w) (wB w))
  | 0x10 => resv (!wS w) (.amoMinu h (wD w) (wA w) (wB w))
  | 0x18 => resv (!wS w) (.cas h (wD w) (wA w) (wB w))
  | 0x19 => constr (!wS w) (!(wD w).getLsbD 0 && !(wB w).getLsbD 0) (.cas2 h (wD w) (wA w) (wB w))
  | _ => .error 2

/-- CMR: the d field selects the operation (R215). -/
def decCmr (h : Hdr) (w : BitVec 32) : Except Nat Instr :=
  match (wD w).toNat with
  | 0 => resv (!wS w) (.cmrCln h (wA w) (wB w))
  | 1 => resv (!wS w) (.cmrCli h (wA w) (wB w))
  | 2 => resv (!wS w) (.cmrInv h (wA w) (wB w))
  | _ => .error 5

/-- TLBI: the d field selects operation and scope (Table 6.10). -/
def decTlbi (h : Hdr) (w : BitVec 32) : Except Nat Instr :=
  let loc := (wD w).getLsbD 4
  match (wD w).toNat % 16 with
  | 0 => resv (!wS w) (.tlbiAddr h loc (wA w) (wB w))
  | 1 => resv (!wS w) (.tlbiAddrAll h loc (wA w) (wB w))
  | 2 => resv (!wS w) (.tlbiCtx h loc (wA w) (wB w))
  | 3 => resv (!wS w) (.tlbiAll h loc (wA w) (wB w))
  | _ => .error 5

/-- The MEMCTL group. LOCKW is one instruction, whose operation Gb selects (R212). -/
def decMemctl (h : Hdr) (w : BitVec 32) : Except Nat Instr :=
  match (wFn w).toNat with
  | 0x00 => resv (!wS w && wD w == 0 && wA w == 0 && wB w == 0) (.fenceLL h)
  | 0x01 => resv (!wS w && wD w == 0 && wA w == 0 && wB w == 0) (.fenceLS h)
  | 0x02 => resv (!wS w && wD w == 0 && wA w == 0 && wB w == 0) (.fenceSL h)
  | 0x03 => resv (!wS w && wD w == 0 && wA w == 0 && wB w == 0) (.fenceSS h)
  | 0x04 => resv (!wS w && wD w == 0 && wA w == 0 && wB w == 0) (.fenceAll h)
  | 0x08 => resv (!wS w) (.syncEp h)
  | 0x10 => resv (!wS w && wD w == 0 && wB w == 0) (.clnL h (wA w))
  | 0x11 => resv (!wS w && wD w == 0 && wB w == 0) (.invL h (wA w))
  | 0x12 => resv (!wS w && wD w == 0 && wB w == 0) (.cliL h (wA w))
  | 0x13 => resv (!wS w && wD w == 0 && wB w == 0) (.dzl h (wA w))
  | 0x14 => decCmr h w
  | 0x15 => resv (!wS w) (.lockwLock h (wD w) (wA w) (wB w))
  | 0x18 => decTlbi h w
  | _ => .error 2

/-- The TX group (Table 9.1). -/
def decTx (h : Hdr) (w : BitVec 32) : Except Nat Instr :=
  match (wFn w).toNat with
  | 0x00 => resv (!wS w && wA w == 0 && wB w == 0) (.txopen h (wD w))
  | 0x01 => resv (!wS w && wA w == 0 && wB w == 0) (.txopenB h (wD w))
  | 0x02 => resv (!wS w && wA w == 0 && wB w == 0) (.txclose h (wD w))
  | 0x03 => resv (!wS w && wD w == 0 && wB w == 0) (.txdrop h (wA w))
  | _ => .error 2

/-- The SYS group. -/
def decSys (h : Hdr) (w : BitVec 32) : Except Nat Instr :=
  match (wFn w).toNat with
  | 0x00 => resv (!wS w && wD w == 0 && wA w == 0 && wB w == 0) (.eret h)
  | 0x01 => resv (!wS w && wD w == 0) (.svc h (wA w) (wB w))
  | 0x02 => resv (!wS w && wD w == 0 && wA w == 0 && wB w == 0) (.wait h)
  | 0x03 => resv (!wS w && wD w == 0 && wA w == 0 && wB w == 0) (.brk h)
  | 0x04 => resv (!wS w && wD w == 0 && wA w == 0 && wB w == 0) (.nop h)
  | _ => .error 2

/-- The IOA group. -/
def decIoa (h : Hdr) (w : BitVec 32) : Except Nat Instr :=
  match (wFn w).toNat with
  | 0x00 => resv (!wS w) (.xstart h (wD w) (wA w) (wB w))
  | 0x01 => resv (!wS w && wB w == 0) (.crq h (wD w) (wA w))
  | 0x02 => resv (!wS w && wB w == 0) (.dfq h (wD w) (wA w))
  | _ => .error 2

/-- The CRA group. -/
def decCra (h : Hdr) (w : BitVec 32) : Except Nat Instr :=
  match (wFn w).toNat with
  | 0x00 => resv (!wS w) (.aese h (wD w) (wA w) (wB w))
  | 0x01 => resv (!wS w) (.aesd h (wD w) (wA w) (wB w))
  | 0x02 => resv (!wS w) (.aesmc h (wD w) (wA w) (wB w))
  | 0x03 => resv (!wS w) (.aesimc h (wD w) (wA w) (wB w))
  | 0x04 => resv (!wS w) (.clmul h (wD w) (wA w) (wB w))
  | 0x05 => resv (!wS w) (.clmulh h (wD w) (wA w) (wB w))
  | 0x06 => resv (!wS w) (.sha256r h (wD w) (wA w) (wB w))
  | 0x07 => resv (!wS w) (.sha512r h (wD w) (wA w) (wB w))
  | _ => .error 2

/-- The long forms (Table 3.12): XF is reserved. -/
def decLong (h : Hdr) (w w2 : BitVec 32) : Except Nat Instr :=
  let d : BitVec 5 := w.extractLsb' 11 5
  let a : BitVec 5 := w.extractLsb' 6 5
  let z := w.extractLsb' 0 6 == 0
  match (w.extractLsb' 16 6).toNat with
  | 0x00 => resv z (.liL h d w2)
  | 0x01 => resv z (.liH h d w2)
  | 0x02 => resv z (.addiW h { d := d, a := a, imm := w2 })
  | 0x03 => resv z (.andiW h { d := d, a := a, imm := w2 })
  | 0x04 => resv z (.oriW h { d := d, a := a, imm := w2 })
  | 0x05 => resv z (.xoriW h { d := d, a := a, imm := w2 })
  | 0x06 => resv (z && d == 0) (.cmpiW h a w2)
  | 0x07 => resv (z && d == 0) (.cmpuiW h a w2)
  | 0x08 => resv z (.bW h w2)
  | 0x09 => resv z (.blW h w2)
  | _ => .error 2

/-- Does a format-N word set a reserved field: AM 3, 6 or 7, SM under AM 2, SZ 0 of LDFX and STFX (R67)? -/
def nReserved (fp : Bool) (o : MemX) : Bool :=
  o.am == 3 || o.am == 6 || o.am == 7 || (o.am == 2 && o.sm != 0) || (fp && o.sz == 0)

/-- Does a load write a G register that its addressing mode updates (R70)? -/
def nClash (o : MemX) : Bool := ((o.am == 1 || o.am == 2 || o.am == 4) && o.t == o.a) || (o.am == 5 && o.t == o.x)

/-- The instruction that a word spells on a core and thread (w2: the word after it, for a long form), or the detail of the
emulation exception that it takes (R61 to R64). -/
def decodeIns (pu : Fin 84) (th : Bool) (w w2 : BitVec 32) : Except Nat Instr :=
  let h : Hdr := { pu := pu, th := th, cond := wCond w }
  match (wOpc w).toNat with
  | 0x00 => decAlu h w
  | 0x01 => decMuldiv h w
  | 0x02 => .ok (.addi h (wI12 w))
  | 0x03 => .ok (.andi h (wI12 w))
  | 0x04 => .ok (.ori h (wI12 w))
  | 0x05 => .ok (.xori h (wI12 w))
  | 0x06 => resv (wD w == 0) (.cmpi h (wA w) (wImm12 w))
  | 0x07 => resv (wD w == 0) (.cmpui h (wA w) (wImm12 w))
  | 0x08 => decShi h w
  | 0x09 => .ok (.movi h (wD w) (w.extractLsb' 0 17))
  | 0x10 => .ok (.ldB h (wMemD w))
  | 0x11 => .ok (.ldH h (wMemD w))
  | 0x12 => .ok (.ldW h (wMemD w))
  | 0x13 => .ok (.ldD h (wMemD w))
  | 0x14 => .ok (.ldsB h (wMemD w))
  | 0x15 => .ok (.ldsH h (wMemD w))
  | 0x16 => .ok (.ldsW h (wMemD w))
  | 0x18 => .ok (.stB h (wMemD w))
  | 0x19 => .ok (.stH h (wMemD w))
  | 0x1A => .ok (.stW h (wMemD w))
  | 0x1B => .ok (.stD h (wMemD w))
  | 0x1C => constr (!nReserved false (wMemX w)) (!nClash (wMemX w)) (.ldx h (wMemX w))
  | 0x1D => constr (!nReserved false (wMemX w)) (!nClash (wMemX w)) (.ldsx h (wMemX w))
  | 0x1E => constr (!nReserved false (wMemX w)) true (.stx h (wMemX w))
  | 0x20 => .ok (.ldfS h (wMemD w))
  | 0x21 => .ok (.ldfD h (wMemD w))
  | 0x22 => .ok (.ldfQ h (wMemD w))
  | 0x23 => .ok (.stfS h (wMemD w))
  | 0x24 => .ok (.stfD h (wMemD w))
  | 0x25 => .ok (.stfQ h (wMemD w))
  | 0x26 => constr (!nReserved true (wMemX w)) true (.ldfx h (wMemX w))
  | 0x27 => constr (!nReserved true (wMemX w)) true (.stfx h (wMemX w))
  | 0x28 => .ok (.b h (w.extractLsb' 0 22))
  | 0x29 => .ok (.bl h (w.extractLsb' 0 22))
  | 0x2A => decBrg h w
  | 0x2B => resv (!w.getLsbD 16) (.callm h (wD w) (w.extractLsb' 0 16))
  | 0x2C => resv (!w.getLsbD 16) (.retm h (w.extractLsb' 0 16))
  | 0x2D => resv (wA w == 0) (.mfs h (wD w) (wImm12 w))
  | 0x2E => resv (wA w == 0) (.mts h (wD w) (wImm12 w))
  | 0x30 => decFpb h w
  | 0x31 => .ok (decFma h w)
  | 0x32 => decDec h w
  | 0x33 => decAtom h w
  | 0x34 => decMemctl h w
  | 0x35 => decTx h w
  | 0x36 => decSys h w
  | 0x37 => decIoa h w
  | 0x38 => decCra h w
  | 0x3F => decLong h w w2
  | _ => .error 1

/-- Is a word the first of a long form (R60)? -/
def isLong (w : BitVec 32) : Bool := wOpc w == 0x3F

/-- The words of an instruction; none for another command. -/
inductive Words where
  | other
  | one (w : BitVec 32)
  | two (w w2 : BitVec 32)
deriving DecidableEq, Repr

/-- The encoder: the words of an instruction (Tables 3.3 to 3.5 and 3.12), unused fields zero. -/
def encodeIns (i : Instr) : Words :=
  match i with
  | .add h o => .one (fmtT h.cond 0x00 o.d o.a o.b o.s 0x00)
  | .sub h o => .one (fmtT h.cond 0x00 o.d o.a o.b o.s 0x01)
  | .adc h o => .one (fmtT h.cond 0x00 o.d o.a o.b o.s 0x02)
  | .sbc h o => .one (fmtT h.cond 0x00 o.d o.a o.b o.s 0x03)
  | .and h o => .one (fmtT h.cond 0x00 o.d o.a o.b o.s 0x04)
  | .or h o => .one (fmtT h.cond 0x00 o.d o.a o.b o.s 0x05)
  | .xor h o => .one (fmtT h.cond 0x00 o.d o.a o.b o.s 0x06)
  | .andn h o => .one (fmtT h.cond 0x00 o.d o.a o.b o.s 0x07)
  | .shl h o => .one (fmtT h.cond 0x00 o.d o.a o.b o.s 0x08)
  | .shr h o => .one (fmtT h.cond 0x00 o.d o.a o.b o.s 0x09)
  | .sar h o => .one (fmtT h.cond 0x00 o.d o.a o.b o.s 0x0A)
  | .rol h o => .one (fmtT h.cond 0x00 o.d o.a o.b o.s 0x0B)
  | .ror h o => .one (fmtT h.cond 0x00 o.d o.a o.b o.s 0x0C)
  | .cmp h a b s => .one (fmtT h.cond 0x00 0 a b s 0x0D)
  | .cmpu h a b s => .one (fmtT h.cond 0x00 0 a b s 0x0E)
  | .mov h o => .one (fmtT h.cond 0x00 o.d o.a 0 o.s 0x0F)
  | .min h o => .one (fmtT h.cond 0x00 o.d o.a o.b o.s 0x10)
  | .max h o => .one (fmtT h.cond 0x00 o.d o.a o.b o.s 0x11)
  | .minu h o => .one (fmtT h.cond 0x00 o.d o.a o.b o.s 0x12)
  | .maxu h o => .one (fmtT h.cond 0x00 o.d o.a o.b o.s 0x13)
  | .clz h o => .one (fmtT h.cond 0x00 o.d o.a 0 o.s 0x14)
  | .ctz h o => .one (fmtT h.cond 0x00 o.d o.a 0 o.s 0x15)
  | .popc h o => .one (fmtT h.cond 0x00 o.d o.a 0 o.s 0x16)
  | .bswap h o => .one (fmtT h.cond 0x00 o.d o.a 0 o.s 0x17)
  | .sextB h o => .one (fmtT h.cond 0x00 o.d o.a 0 o.s 0x18)
  | .sextH h o => .one (fmtT h.cond 0x00 o.d o.a 0 o.s 0x19)
  | .sextW h o => .one (fmtT h.cond 0x00 o.d o.a 0 o.s 0x1A)
  | .zextW h o => .one (fmtT h.cond 0x00 o.d o.a 0 o.s 0x1B)
  | .mul h o => .one (fmtT h.cond 0x01 o.d o.a o.b o.s 0x00)
  | .mulw h o => .one (fmtT h.cond 0x01 o.d o.a o.b o.s 0x01)
  | .mulwu h o => .one (fmtT h.cond 0x01 o.d o.a o.b o.s 0x02)
  | .sdiv h o => .one (fmtT h.cond 0x01 o.d o.a o.b o.s 0x04)
  | .udiv h o => .one (fmtT h.cond 0x01 o.d o.a o.b o.s 0x05)
  | .srem h o => .one (fmtT h.cond 0x01 o.d o.a o.b o.s 0x06)
  | .urem h o => .one (fmtT h.cond 0x01 o.d o.a o.b o.s 0x07)
  | .shiShl h d a n => .one (fmtI h.cond 0x08 d a ((0 : BitVec 2) ++ (0 : BitVec 4) ++ n))
  | .shiShr h d a n => .one (fmtI h.cond 0x08 d a ((1 : BitVec 2) ++ (0 : BitVec 4) ++ n))
  | .shiSar h d a n => .one (fmtI h.cond 0x08 d a ((2 : BitVec 2) ++ (0 : BitVec 4) ++ n))
  | .shiRol h d a n => .one (fmtI h.cond 0x08 d a ((3 : BitVec 2) ++ (0 : BitVec 4) ++ n))
  | .br h b => .one (fmtT h.cond 0x2A 0 0 b false 0x00)
  | .blr h b => .one (fmtT h.cond 0x2A 0 0 b false 0x01)
  | .ret h => .one (fmtT h.cond 0x2A 0 0 0 false 0x02)
  | .faddD h d a b => .one (fmtT h.cond 0x30 d a b false 0x00)
  | .fsubD h d a b => .one (fmtT h.cond 0x30 d a b false 0x01)
  | .fmulD h d a b => .one (fmtT h.cond 0x30 d a b false 0x02)
  | .fdivD h d a b => .one (fmtT h.cond 0x30 d a b false 0x03)
  | .fsqrtD h d a => .one (fmtT h.cond 0x30 d a 0 false 0x04)
  | .fcmpD h a b => .one (fmtT h.cond 0x30 0 a b false 0x05)
  | .fminD h d a b => .one (fmtT h.cond 0x30 d a b false 0x06)
  | .fmaxD h d a b => .one (fmtT h.cond 0x30 d a b false 0x07)
  | .faddS h d a b => .one (fmtT h.cond 0x30 d a b false 0x08)
  | .fsubS h d a b => .one (fmtT h.cond 0x30 d a b false 0x09)
  | .fmulS h d a b => .one (fmtT h.cond 0x30 d a b false 0x0A)
  | .fdivS h d a b => .one (fmtT h.cond 0x30 d a b false 0x0B)
  | .fsqrtS h d a => .one (fmtT h.cond 0x30 d a 0 false 0x0C)
  | .fcmpS h a b => .one (fmtT h.cond 0x30 0 a b false 0x0D)
  | .fminS h d a b => .one (fmtT h.cond 0x30 d a b false 0x0E)
  | .fmaxS h d a b => .one (fmtT h.cond 0x30 d a b false 0x0F)
  | .fcvtSD h d a => .one (fmtT h.cond 0x30 d a 0 false 0x10)
  | .fcvtDS h d a => .one (fmtT h.cond 0x30 d a 0 false 0x11)
  | .fcvtGD h d a => .one (fmtT h.cond 0x30 d a 0 false 0x12)
  | .fcvtDG h d a => .one (fmtT h.cond 0x30 d a 0 false 0x13)
  | .fmov h d a => .one (fmtT h.cond 0x30 d a 0 false 0x14)
  | .fneg h d a => .one (fmtT h.cond 0x30 d a 0 false 0x15)
  | .fabs h d a => .one (fmtT h.cond 0x30 d a 0 false 0x16)
  | .fmvGF h d a => .one (fmtT h.cond 0x30 d a 0 false 0x17)
  | .fmvFG h d a => .one (fmtT h.cond 0x30 d a 0 false 0x18)
  | .fmaddD h o => .one (fmtQ h.cond 0x31 o 0)
  | .fmsubD h o => .one (fmtQ h.cond 0x31 o 1)
  | .fnmaddD h o => .one (fmtQ h.cond 0x31 o 2)
  | .fnmsubD h o => .one (fmtQ h.cond 0x31 o 3)
  | .dadd h d a b => .one (fmtT h.cond 0x32 d a b false 0x00)
  | .dsub h d a b => .one (fmtT h.cond 0x32 d a b false 0x01)
  | .dmul h d a b => .one (fmtT h.cond 0x32 d a b false 0x02)
  | .ddiv h d a b => .one (fmtT h.cond 0x32 d a b false 0x03)
  | .dqua h d a b => .one (fmtT h.cond 0x32 d a b false 0x04)
  | .dcmp h a b => .one (fmtT h.cond 0x32 0 a b false 0x05)
  | .d2s h d a b => .one (fmtT h.cond 0x32 d a b false 0x06)
  | .s2d h d a b => .one (fmtT h.cond 0x32 d a b false 0x07)
  | .dcvt12864 h d a => .one (fmtT h.cond 0x32 d a 0 false 0x08)
  | .dcvt64128 h d a => .one (fmtT h.cond 0x32 d a 0 false 0x09)
  | .dadd64 h d a b => .one (fmtT h.cond 0x32 d a b false 0x10)
  | .dsub64 h d a b => .one (fmtT h.cond 0x32 d a b false 0x11)
  | .dmul64 h d a b => .one (fmtT h.cond 0x32 d a b false 0x12)
  | .ddiv64 h d a b => .one (fmtT h.cond 0x32 d a b false 0x13)
  | .dqua64 h d a b => .one (fmtT h.cond 0x32 d a b false 0x14)
  | .dcmp64 h a b => .one (fmtT h.cond 0x32 0 a b false 0x15)
  | .lresD h d a => .one (fmtT h.cond 0x33 d a 0 false 0x00)
  | .lresW h d a => .one (fmtT h.cond 0x33 d a 0 false 0x02)
  | .scondD h d a b => .one (fmtT h.cond 0x33 d a b false 0x01)
  | .scondW h d a b => .one (fmtT h.cond 0x33 d a b false 0x03)
  | .amoSwp h d a b => .one (fmtT h.cond 0x33 d a b false 0x08)
  | .amoAdd h d a b => .one (fmtT h.cond 0x33 d a b false 0x09)
  | .amoAnd h d a b => .one (fmtT h.cond 0x33 d a b false 0x0A)
  | .amoOr h d a b => .one (fmtT h.cond 0x33 d a b false 0x0B)
  | .amoXor h d a b => .one (fmtT h.cond 0x33 d a b false 0x0C)
  | .amoMax h d a b => .one (fmtT h.cond 0x33 d a b false 0x0D)
  | .amoMin h d a b => .one (fmtT h.cond 0x33 d a b false 0x0E)
  | .amoMaxu h d a b => .one (fmtT h.cond 0x33 d a b false 0x0F)
  | .amoMinu h d a b => .one (fmtT h.cond 0x33 d a b false 0x10)
  | .cas h d a b => .one (fmtT h.cond 0x33 d a b false 0x18)
  | .cas2 h d a b => .one (fmtT h.cond 0x33 d a b false 0x19)
  | .fenceLL h => .one (fmtT h.cond 0x34 0 0 0 false 0x00)
  | .fenceLS h => .one (fmtT h.cond 0x34 0 0 0 false 0x01)
  | .fenceSL h => .one (fmtT h.cond 0x34 0 0 0 false 0x02)
  | .fenceSS h => .one (fmtT h.cond 0x34 0 0 0 false 0x03)
  | .fenceAll h => .one (fmtT h.cond 0x34 0 0 0 false 0x04)
  | .syncEp h => .one (fmtT h.cond 0x34 0 0 0 false 0x08)
  | .clnL h a => .one (fmtT h.cond 0x34 0 a 0 false 0x10)
  | .invL h a => .one (fmtT h.cond 0x34 0 a 0 false 0x11)
  | .cliL h a => .one (fmtT h.cond 0x34 0 a 0 false 0x12)
  | .dzl h a => .one (fmtT h.cond 0x34 0 a 0 false 0x13)
  | .cmrCln h a b => .one (fmtT h.cond 0x34 0 a b false 0x14)
  | .cmrCli h a b => .one (fmtT h.cond 0x34 1 a b false 0x14)
  | .cmrInv h a b => .one (fmtT h.cond 0x34 2 a b false 0x14)
  | .lockwLock h d a b => .one (fmtT h.cond 0x34 d a b false 0x15)
  | .lockwUnlock h d a b => .one (fmtT h.cond 0x34 d a b false 0x15)
  | .lockwUnlockSet h d a b => .one (fmtT h.cond 0x34 d a b false 0x15)
  | .tlbiAddr h loc a b => .one (fmtT h.cond 0x34 (BitVec.ofBool loc ++ (0 : BitVec 4)) a b false 0x18)
  | .tlbiAddrAll h loc a b => .one (fmtT h.cond 0x34 (BitVec.ofBool loc ++ (1 : BitVec 4)) a b false 0x18)
  | .tlbiCtx h loc a b => .one (fmtT h.cond 0x34 (BitVec.ofBool loc ++ (2 : BitVec 4)) a b false 0x18)
  | .tlbiAll h loc a b => .one (fmtT h.cond 0x34 (BitVec.ofBool loc ++ (3 : BitVec 4)) a b false 0x18)
  | .txopen h d => .one (fmtT h.cond 0x35 d 0 0 false 0x00)
  | .txopenB h d => .one (fmtT h.cond 0x35 d 0 0 false 0x01)
  | .txclose h d => .one (fmtT h.cond 0x35 d 0 0 false 0x02)
  | .txdrop h a => .one (fmtT h.cond 0x35 0 a 0 false 0x03)
  | .eret h => .one (fmtT h.cond 0x36 0 0 0 false 0x00)
  | .wait h => .one (fmtT h.cond 0x36 0 0 0 false 0x02)
  | .brk h => .one (fmtT h.cond 0x36 0 0 0 false 0x03)
  | .nop h => .one (fmtT h.cond 0x36 0 0 0 false 0x04)
  | .svc h a b => .one (fmtT h.cond 0x36 0 a b false 0x01)
  | .xstart h d a b => .one (fmtT h.cond 0x37 d a b false 0x00)
  | .crq h d a => .one (fmtT h.cond 0x37 d a 0 false 0x01)
  | .dfq h d a => .one (fmtT h.cond 0x37 d a 0 false 0x02)
  | .aese h d a b => .one (fmtT h.cond 0x38 d a b false 0x00)
  | .aesd h d a b => .one (fmtT h.cond 0x38 d a b false 0x01)
  | .aesmc h d a b => .one (fmtT h.cond 0x38 d a b false 0x02)
  | .aesimc h d a b => .one (fmtT h.cond 0x38 d a b false 0x03)
  | .clmul h d a b => .one (fmtT h.cond 0x38 d a b false 0x04)
  | .clmulh h d a b => .one (fmtT h.cond 0x38 d a b false 0x05)
  | .sha256r h d a b => .one (fmtT h.cond 0x38 d a b false 0x06)
  | .sha512r h d a b => .one (fmtT h.cond 0x38 d a b false 0x07)
  | .liL h d imm => .two (fmtX h.cond 0x00 d 0) imm
  | .liH h d imm => .two (fmtX h.cond 0x01 d 0) imm
  | .addiW h o => .two (fmtX h.cond 0x02 o.d o.a) o.imm
  | .andiW h o => .two (fmtX h.cond 0x03 o.d o.a) o.imm
  | .oriW h o => .two (fmtX h.cond 0x04 o.d o.a) o.imm
  | .xoriW h o => .two (fmtX h.cond 0x05 o.d o.a) o.imm
  | .cmpiW h a imm => .two (fmtX h.cond 0x06 0 a) imm
  | .cmpuiW h a imm => .two (fmtX h.cond 0x07 0 a) imm
  | .bW h imm => .two (fmtX h.cond 0x08 0 0) imm
  | .blW h imm => .two (fmtX h.cond 0x09 0 0) imm
  | .addi h o => .one (fmtI h.cond 0x02 o.d o.a o.imm)
  | .andi h o => .one (fmtI h.cond 0x03 o.d o.a o.imm)
  | .ori h o => .one (fmtI h.cond 0x04 o.d o.a o.imm)
  | .xori h o => .one (fmtI h.cond 0x05 o.d o.a o.imm)
  | .cmpi h a imm => .one (fmtI h.cond 0x06 0 a imm)
  | .cmpui h a imm => .one (fmtI h.cond 0x07 0 a imm)
  | .movi h d imm => .one (fmtJ h.cond 0x09 d imm)
  | .ldB h o => .one (fmtI h.cond 0x10 o.t o.a o.disp)
  | .ldH h o => .one (fmtI h.cond 0x11 o.t o.a o.disp)
  | .ldW h o => .one (fmtI h.cond 0x12 o.t o.a o.disp)
  | .ldD h o => .one (fmtI h.cond 0x13 o.t o.a o.disp)
  | .ldsB h o => .one (fmtI h.cond 0x14 o.t o.a o.disp)
  | .ldsH h o => .one (fmtI h.cond 0x15 o.t o.a o.disp)
  | .ldsW h o => .one (fmtI h.cond 0x16 o.t o.a o.disp)
  | .stB h o => .one (fmtI h.cond 0x18 o.t o.a o.disp)
  | .stH h o => .one (fmtI h.cond 0x19 o.t o.a o.disp)
  | .stW h o => .one (fmtI h.cond 0x1A o.t o.a o.disp)
  | .stD h o => .one (fmtI h.cond 0x1B o.t o.a o.disp)
  | .ldfS h o => .one (fmtI h.cond 0x20 o.t o.a o.disp)
  | .ldfD h o => .one (fmtI h.cond 0x21 o.t o.a o.disp)
  | .ldfQ h o => .one (fmtI h.cond 0x22 o.t o.a o.disp)
  | .stfS h o => .one (fmtI h.cond 0x23 o.t o.a o.disp)
  | .stfD h o => .one (fmtI h.cond 0x24 o.t o.a o.disp)
  | .stfQ h o => .one (fmtI h.cond 0x25 o.t o.a o.disp)
  | .ldx h o => .one (fmtN h.cond 0x1C o)
  | .ldsx h o => .one (fmtN h.cond 0x1D o)
  | .stx h o => .one (fmtN h.cond 0x1E o)
  | .ldfx h o => .one (fmtN h.cond 0x26 o)
  | .stfx h o => .one (fmtN h.cond 0x27 o)
  | .b h disp => .one (fmtB h.cond 0x28 disp)
  | .bl h disp => .one (fmtB h.cond 0x29 disp)
  | .callm h b mask => .one (fmtC h.cond 0x2B b mask)
  | .retm h mask => .one (fmtC h.cond 0x2C 0 mask)
  | .mfs h g sn => .one (fmtS h.cond 0x2D g sn)
  | .mts h g sn => .one (fmtS h.cond 0x2E g sn)
  | _ => .other

/-- Core, thread and condition of an instruction command. -/
def Instr.hdr (i : Instr) : Option Hdr :=
  match i with
  | .add h _ => some h
  | .sub h _ => some h
  | .adc h _ => some h
  | .sbc h _ => some h
  | .and h _ => some h
  | .or h _ => some h
  | .xor h _ => some h
  | .andn h _ => some h
  | .shl h _ => some h
  | .shr h _ => some h
  | .sar h _ => some h
  | .rol h _ => some h
  | .ror h _ => some h
  | .cmp h _ _ _ => some h
  | .cmpu h _ _ _ => some h
  | .mov h _ => some h
  | .min h _ => some h
  | .max h _ => some h
  | .minu h _ => some h
  | .maxu h _ => some h
  | .clz h _ => some h
  | .ctz h _ => some h
  | .popc h _ => some h
  | .bswap h _ => some h
  | .sextB h _ => some h
  | .sextH h _ => some h
  | .sextW h _ => some h
  | .zextW h _ => some h
  | .mul h _ => some h
  | .mulw h _ => some h
  | .mulwu h _ => some h
  | .sdiv h _ => some h
  | .udiv h _ => some h
  | .srem h _ => some h
  | .urem h _ => some h
  | .shiShl h _ _ _ => some h
  | .shiShr h _ _ _ => some h
  | .shiSar h _ _ _ => some h
  | .shiRol h _ _ _ => some h
  | .br h _ => some h
  | .blr h _ => some h
  | .ret h => some h
  | .faddD h _ _ _ => some h
  | .fsubD h _ _ _ => some h
  | .fmulD h _ _ _ => some h
  | .fdivD h _ _ _ => some h
  | .fsqrtD h _ _ => some h
  | .fcmpD h _ _ => some h
  | .fminD h _ _ _ => some h
  | .fmaxD h _ _ _ => some h
  | .faddS h _ _ _ => some h
  | .fsubS h _ _ _ => some h
  | .fmulS h _ _ _ => some h
  | .fdivS h _ _ _ => some h
  | .fsqrtS h _ _ => some h
  | .fcmpS h _ _ => some h
  | .fminS h _ _ _ => some h
  | .fmaxS h _ _ _ => some h
  | .fcvtSD h _ _ => some h
  | .fcvtDS h _ _ => some h
  | .fcvtGD h _ _ => some h
  | .fcvtDG h _ _ => some h
  | .fmov h _ _ => some h
  | .fneg h _ _ => some h
  | .fabs h _ _ => some h
  | .fmvGF h _ _ => some h
  | .fmvFG h _ _ => some h
  | .fmaddD h _ => some h
  | .fmsubD h _ => some h
  | .fnmaddD h _ => some h
  | .fnmsubD h _ => some h
  | .dadd h _ _ _ => some h
  | .dsub h _ _ _ => some h
  | .dmul h _ _ _ => some h
  | .ddiv h _ _ _ => some h
  | .dqua h _ _ _ => some h
  | .dcmp h _ _ => some h
  | .d2s h _ _ _ => some h
  | .s2d h _ _ _ => some h
  | .dcvt12864 h _ _ => some h
  | .dcvt64128 h _ _ => some h
  | .dadd64 h _ _ _ => some h
  | .dsub64 h _ _ _ => some h
  | .dmul64 h _ _ _ => some h
  | .ddiv64 h _ _ _ => some h
  | .dqua64 h _ _ _ => some h
  | .dcmp64 h _ _ => some h
  | .lresD h _ _ => some h
  | .lresW h _ _ => some h
  | .scondD h _ _ _ => some h
  | .scondW h _ _ _ => some h
  | .amoSwp h _ _ _ => some h
  | .amoAdd h _ _ _ => some h
  | .amoAnd h _ _ _ => some h
  | .amoOr h _ _ _ => some h
  | .amoXor h _ _ _ => some h
  | .amoMax h _ _ _ => some h
  | .amoMin h _ _ _ => some h
  | .amoMaxu h _ _ _ => some h
  | .amoMinu h _ _ _ => some h
  | .cas h _ _ _ => some h
  | .cas2 h _ _ _ => some h
  | .fenceLL h => some h
  | .fenceLS h => some h
  | .fenceSL h => some h
  | .fenceSS h => some h
  | .fenceAll h => some h
  | .syncEp h => some h
  | .clnL h _ => some h
  | .invL h _ => some h
  | .cliL h _ => some h
  | .dzl h _ => some h
  | .cmrCln h _ _ => some h
  | .cmrCli h _ _ => some h
  | .cmrInv h _ _ => some h
  | .lockwLock h _ _ _ => some h
  | .lockwUnlock h _ _ _ => some h
  | .lockwUnlockSet h _ _ _ => some h
  | .tlbiAddr h _ _ _ => some h
  | .tlbiAddrAll h _ _ _ => some h
  | .tlbiCtx h _ _ _ => some h
  | .tlbiAll h _ _ _ => some h
  | .txopen h _ => some h
  | .txopenB h _ => some h
  | .txclose h _ => some h
  | .txdrop h _ => some h
  | .eret h => some h
  | .wait h => some h
  | .brk h => some h
  | .nop h => some h
  | .svc h _ _ => some h
  | .xstart h _ _ _ => some h
  | .crq h _ _ => some h
  | .dfq h _ _ => some h
  | .aese h _ _ _ => some h
  | .aesd h _ _ _ => some h
  | .aesmc h _ _ _ => some h
  | .aesimc h _ _ _ => some h
  | .clmul h _ _ _ => some h
  | .clmulh h _ _ _ => some h
  | .sha256r h _ _ _ => some h
  | .sha512r h _ _ _ => some h
  | .liL h _ _ => some h
  | .liH h _ _ => some h
  | .addiW h _ => some h
  | .andiW h _ => some h
  | .oriW h _ => some h
  | .xoriW h _ => some h
  | .cmpiW h _ _ => some h
  | .cmpuiW h _ _ => some h
  | .bW h _ => some h
  | .blW h _ => some h
  | .addi h _ => some h
  | .andi h _ => some h
  | .ori h _ => some h
  | .xori h _ => some h
  | .cmpi h _ _ => some h
  | .cmpui h _ _ => some h
  | .movi h _ _ => some h
  | .ldB h _ => some h
  | .ldH h _ => some h
  | .ldW h _ => some h
  | .ldD h _ => some h
  | .ldsB h _ => some h
  | .ldsH h _ => some h
  | .ldsW h _ => some h
  | .stB h _ => some h
  | .stH h _ => some h
  | .stW h _ => some h
  | .stD h _ => some h
  | .ldfS h _ => some h
  | .ldfD h _ => some h
  | .ldfQ h _ => some h
  | .stfS h _ => some h
  | .stfD h _ => some h
  | .stfQ h _ => some h
  | .ldx h _ => some h
  | .ldsx h _ => some h
  | .stx h _ => some h
  | .ldfx h _ => some h
  | .stfx h _ => some h
  | .b h _ => some h
  | .bl h _ => some h
  | .callm h _ _ => some h
  | .retm h _ => some h
  | .mfs h _ _ => some h
  | .mts h _ _ => some h
  | _ => none

/-- A word decodes to its instruction. -/
def Words.decode (pu : Fin 84) (th : Bool) (x : Words) : Option (Except Nat Instr) :=
  match x with
  | .other => none
  | .one w => some (decodeIns pu th w 0)
  | .two w w2 => some (decodeIns pu th w w2)

/-- The command that a word of the opcode table spells: none, since no row of the table carries bits. -/
def decodeTableWord (_nbits _w : Nat) : Option Instr := none

end Sys2Proof
end

