-- ==== Sys2Proof/Config.lean ====
section
/-! DEFINITION. What an implementation fixes and the spec leaves open: free values, as constants without a body. -/

namespace Sys2Proof.Config

/-- The n-th free value that the machine draws, of w bits: random numbers of a DRBG, a replacement victim, a value the
spec leaves open. No proof can see it (assumption 3). -/
opaque freeBits (w : Nat) : Nat → BitVec w

/-- The bytes of the n-th free byte string. -/
opaque freeByte : Nat → Nat → BitVec 8

/-- What one piece of a DEFLATE stream compresses to: compress level, the pieces before, the piece, and whether it is the
last. The spec names RFC 1951 and leaves the choice of blocks and matches open (R411, R412). -/
opaque deflate : Nat → List (List (BitVec 8)) → List (BitVec 8) → Bool → List (BitVec 8)

/-- ML-DSA (FIPS 204) by parameter set: public key of a seed; signature by seed, message and hedging bytes; verification by
public key, signature and message. The spec names the standard and states no result. -/
opaque mlDsaPublic : Nat → List (BitVec 8) → List (BitVec 8)
opaque mlDsaSign : Nat → List (BitVec 8) → List (BitVec 8) → List (BitVec 8) → List (BitVec 8)
opaque mlDsaVerify : Nat → List (BitVec 8) → List (BitVec 8) → List (BitVec 8) → Bool

/-- ML-KEM (FIPS 203) by parameter set: encapsulation key of a seed; ciphertext and shared secret of an encapsulation key
and 32 random bytes; shared secret of a seed and a ciphertext. -/
opaque mlKemPublic : Nat → List (BitVec 8) → List (BitVec 8)
opaque mlKemEncaps : Nat → List (BitVec 8) → List (BitVec 8) → List (BitVec 8) × List (BitVec 8)
opaque mlKemDecaps : Nat → List (BitVec 8) → List (BitVec 8) → List (BitVec 8)

/-- The steps of AES and SHA rounds that the CRA instructions perform, on Fd, Fa and Fb: the spec names them and states no
result (Table 3.5, R83). -/
opaque aese : BitVec 128 → BitVec 128 → BitVec 128 → BitVec 128
opaque aesd : BitVec 128 → BitVec 128 → BitVec 128 → BitVec 128
opaque sha256r : BitVec 128 → BitVec 128 → BitVec 128 → BitVec 128
opaque sha512r : BitVec 128 → BitVec 128 → BitVec 128 → BitVec 128

/-- Serial number (0x1000:02) and CE firmware version (0x1000:04): facts of one module that the spec does not state. -/
opaque serialNumber : BitVec 128
opaque ceFwVersion : BitVec 32

/-- Class number that decode assigns to an encoding, given as 64 × major opcode + function code (R124): the spec gives the
range and no assignment. -/
opaque classOf : Nat → BitVec 10

end Sys2Proof.Config
end

