-- ==== Sys2Proof/Machine/Table.lean ====
section
/-! DEFINITION. Reading and writing a sparse table: rising numbers, and no entry equal to an unlisted number's value. -/

namespace Sys2Proof.Machine

variable {α : Type}

/-- The value at number k; d where k is not listed. -/
def tget (d : α) : Tbl α → Nat → α
  | [], _ => d
  | e :: t, k => if e.1 = k then e.2 else tget d t k

/-- The table without an entry for k. -/
def tdrop : Tbl α → Nat → Tbl α
  | [], _ => []
  | e :: t, k => if e.1 = k then tdrop t k else e :: tdrop t k

/-- The table with (k, v) in its place in rising order. -/
def tins : Tbl α → Nat → α → Tbl α
  | [], k, v => [(k, v)]
  | e :: t, k, v => if k < e.1 then (k, v) :: e :: t else e :: tins t k v

/-- The table with value v at number k, in canonical form for the default d. -/
def tset [DecidableEq α] (d : α) (t : Tbl α) (k : Nat) (v : α) : Tbl α :=
  if v = d then tdrop t k else tins (tdrop t k) k v

/-- The table with the value at k changed by f. -/
def tupd [DecidableEq α] (d : α) (t : Tbl α) (k : Nat) (f : α → α) : Tbl α :=
  tset d t k (f (tget d t k))

/-- The canonical form: numbers strictly rising from lo, no value equal to the default. -/
def twfFrom [DecidableEq α] (d : α) : Nat → Tbl α → Bool
  | _, [] => true
  | lo, e :: t => decide (lo ≤ e.1) && decide (e.2 ≠ d) && twfFrom d (e.1 + 1) t

/-- A table in canonical form for the default d. -/
def twf [DecidableEq α] (d : α) (t : Tbl α) : Bool := twfFrom d 0 t

end Sys2Proof.Machine
end

