-- ==== Sys2Proof/Machine/Bits.lean ====
section
/-! DEFINITION. Bit fields, byte order and checksums, in the spec's numbering (bit 0 the least significant, R4 big-endian). -/

namespace Sys2Proof.Machine

/-- Bits hi to lo of a number. -/
def nbits (hi lo n : Nat) : Nat := n / 2 ^ lo % 2 ^ (hi + 1 - lo)

/-- Field [hi:lo] of a word. -/
def fld (hi lo : Nat) (w : Word) : Nat := nbits hi lo w.toNat

/-- Bit i of a word. -/
def bit (i : Nat) (w : Word) : Bool := w.getLsbD i

/-- A word made of fields: (lowest bit, value) pairs. -/
def mkw (fs : List (Nat × Nat)) : Word :=
  BitVec.ofNat 64 (fs.foldl (fun a f => a + f.2 * 2 ^ f.1) 0)

/-- The word w with field [hi:lo] set to v. -/
def setFld (hi lo : Nat) (w : Word) (v : Nat) : Word :=
  BitVec.ofNat 64 (w.toNat - fld hi lo w * 2 ^ lo + v % 2 ^ (hi + 1 - lo) * 2 ^ lo)

/-- The bits of new where mask is 1, and of old where it is 0. -/
def mix (mask old new : Word) : Word := (old &&& ~~~mask) ||| (new &&& mask)

/-- Counting up, stopping at top. -/
def satAdd (top a b : Nat) : Nat := Nat.min top (a + b)

/-- The n bytes of v, most significant first (R4). -/
def toBe : Nat → Nat → List Byte
  | 0, _ => []
  | n + 1, v => BitVec.ofNat 8 (v / 256 ^ n) :: toBe n v

/-- The number whose bytes are l, most significant first (R4). -/
def ofBe (l : List Byte) : Nat := l.foldl (fun a b => 256 * a + b.toNat) 0

/-- The n bytes of v, least significant first. -/
def toLe : Nat → Nat → List Byte
  | 0, _ => []
  | n + 1, v => BitVec.ofNat 8 v :: toLe n (v / 256)

/-- n bytes of l from offset o, zero beyond its end. -/
def slice (l : List Byte) (o n : Nat) : List Byte :=
  (List.range n).map (fun i => l.getD (o + i) 0)

/-- Big-endian number of n bytes of l at offset o. -/
def beAt (l : List Byte) (o n : Nat) : Nat := ofBe (slice l o n)

/-- l with the bytes v put at offset o. -/
def putAt (l : List Byte) (o : Nat) (v : List Byte) : List Byte :=
  l.take o ++ v ++ l.drop (o + v.length)

/-- l with the n-byte number v put at offset o. -/
def putBe (l : List Byte) (o n v : Nat) : List Byte := putAt l o (toBe n v)

/-- l made exactly n bytes long: cut, or filled with zeros. -/
def fit (n : Nat) (l : List Byte) : List Byte := l.take n ++ List.replicate (n - l.length) 0

/-- Signed value of the low n bits of v. -/
def sgn (n v : Nat) : Int := if v % 2 ^ n < 2 ^ (n - 1) then (v % 2 ^ n : Int) else (v % 2 ^ n : Int) - 2 ^ n

/-- The integer i as an unsigned number of n bits. -/
def usgn (n : Nat) (i : Int) : Nat := (i % (2 ^ n : Int)).toNat

/-- One bit step of a reflected CRC. -/
def crcStep (poly : BitVec 32) (c : BitVec 32) : BitVec 32 :=
  if c.getLsbD 0 then (c >>> 1) ^^^ poly else c >>> 1

/-- One byte of a reflected CRC. -/
def crcByte (poly : BitVec 32) (c : BitVec 32) (b : Byte) : BitVec 32 :=
  let f := crcStep poly
  f (f (f (f (f (f (f (f (c ^^^ b.setWidth 32))))))))

/-- CRC-32C (Castagnoli, reflected, initial and final value all ones). -/
def crc32c (l : List Byte) : Nat := (~~~(l.foldl (crcByte 0x82F63B78) 0xFFFFFFFF)).toNat

/-- Smallest number below n that p accepts. -/
def firstBelow (n : Nat) (p : Nat → Bool) : Option Nat := (List.range n).find? p

/-- Numbers below n that p accepts, rising. -/
def allBelow (n : Nat) (p : Nat → Bool) : List Nat := (List.range n).filter p

/-- The lowest number of the n from k on that has a property. -/
def firstFrom : Nat → Nat → (Nat → Bool) → Option Nat
  | 0, _, _ => none
  | n + 1, k, p => if p k then some k else firstFrom n (k + 1) p

end Sys2Proof.Machine
end

