-- ==== Sys2Proof/Machine/State.lean ====
section
/-! DEFINITION. The state of the VB-7720 as plain data, and State.reset: the module before VAUX is in tolerance. -/

namespace Sys2Proof.Machine

/-- No command of this model faults: every stop of the hardware is an effect on the state (an error answer, an
exception, a fence). Kept as the interface asks for it; nobody raises it (safe). -/
inductive Fault where
  | unused
deriving DecidableEq, Repr

/-- Why a command has no meaning. -/
inductive Refusal where
  /-- A command of the table that the model does not give a meaning: raised by its arm of exec (safe). -/
  | notModelled (mnemonic : String)
deriving DecidableEq, Repr

/-- Memory types (Table 6.11). -/
inductive MemType where
  | normal | normalNA | commit | device
deriving DecidableEq, Repr

/-- Operating modes M0 to M8 (Table 2.1). -/
inductive Mode where
  | cold | provision | restore | run | degraded | service | quiesced | holdup | checkstop
deriving DecidableEq, Repr

/-- Lifecycle states (Table 2.6). -/
inductive LcState where
  | off | starting | on | stopping | stoppingArmed | fenced
deriving DecidableEq, Repr

/-- Events of a lifecycle (Table 2.7). -/
inductive LcEv where
  | enable | disable | startDone | stopDone | fault | unfence
deriving DecidableEq, Repr

/-- What Table 2.7 makes of an event. -/
inductive LcOut where
  | go (dst : LcState) | noEffect | rejected | ignored
deriving DecidableEq, Repr

/-- Kinds of access, as an access table checks them (R450) and AT_LOG.KIND records them. -/
inductive AccKind where
  | read | write | fetch | atomic | mntRead | mntWrite
deriving DecidableEq, Repr

/-- An exception of an instruction: vector, detail, CODE of S.ECAUSE, faulting address, and whether the access was a
store or the write part of an atomic (Tables 3.10 and 3.11). -/
structure Exc where
  vec    : Nat
  detail : Nat := 0
  code   : Nat := 0
  eaddr  : Word := 0
  w      : Bool := false
  words  : Nat := 2
deriving DecidableEq, Repr

/-- A lifecycle register (Table 2.6). -/
structure Lc where
  state      : LcState := .off
  prev       : LcState := .off
  trans      : Bool := false
  ien        : Bool := false
  transCnt   : BitVec 8 := 0
  lastCause  : BitVec 4 := 0
  lastResult : BitVec 2 := 0
deriving DecidableEq, Repr

/-- What the recovery checkpoint holds of a thread (R267): G, F and S registers and the next address. -/
structure Arch where
  g      : Tbl Word := []
  f      : Tbl Quad := []
  pc     : Word := 0
  sw     : Word := 0
  fs     : Word := 0
  ds     : Word := 0
  sid    : Word := 0
  ttb    : Word := 0
  mods   : Tbl Word := []
  brv    : Word := 2
  txd    : Word := 0
  vbar   : Word := 0
  epc    : Word := 0
  esw    : Word := 0
  ecause : Word := 0
  eaddr  : Word := 0
  eins   : Word := 0
  scr0   : Word := 0
  scr1   : Word := 0
deriving DecidableEq, Repr

/-- A TLB entry (R162). -/
structure TlbEntry where
  va    : Nat
  zpa   : Nat
  pa    : Nat
  bits  : Nat
  mt    : MemType
  r     : Bool
  w     : Bool
  x     : Bool
  u     : Bool
  g     : Bool
  ctx   : BitVec 16
deriving DecidableEq, Repr

/-- A store-buffer entry: bytes of one line with their mask as (offset, byte) pairs (R194). barsLoads: a fence keeps
later loads behind it (R178). draining: it has begun to drain (R195). trs: the translations that its stores used (R164,
R198). ipc: address of the instruction that allocated it. -/
structure SbEntry where
  line     : Nat
  mt       : MemType
  bytes    : Tbl (Option Byte)
  size     : Nat
  va       : Word
  ipc      : Word := 0
  released : Bool := false
  tx       : Bool := false
  barsLoads : Bool := false
  draining : Bool := false
  trs      : List TlbEntry := []
deriving DecidableEq, Repr

/-- What stands in a store buffer: entries, and the markers of R180. -/
inductive SbItem where
  | store (e : SbEntry)
  | marker
deriving DecidableEq, Repr

/-- Kinds of non-repeatable results in the replay latch (R263). -/
inductive LatchKind where
  | deviceLoad | atomic | scond | ioa
deriving DecidableEq, Repr

/-- One entry of the replay latch (R263), with the address of its instruction. -/
structure LatchEntry where
  kind : LatchKind
  pc   : Word
  hi   : Word
  lo   : Word
deriving DecidableEq, Repr

/-- A hardware transaction of a thread (chapter 9). data holds the transactionally written bytes; lost: stores that their
target did not take, with whether it was fenced, which count when the transaction commits (R185, R243). -/
structure Tx where
  constrained : Bool
  depth       : Nat
  saved       : Arch
  openPc      : Word
  d           : BitVec 5
  stamp       : Word
  retired     : Nat
  reads       : List Nat
  writes      : List Nat
  data        : Tbl (Option Byte)
  lost        : List (Nat × Bool) := []
deriving DecidableEq, Repr

/-- What a thread waits for. -/
inductive Waiting where
  | none
  | interrupt
  | sync (enc : Word)
  | ioa (d : BitVec 5) (hostReplied : Option Word)
  | tlbi
deriving DecidableEq, Repr

/-- What the instruction in progress has used of the caches, for the replacement state that its retirement updates (R206,
R207): a line of the L1I, of the L1D, or of the L2. -/
inductive Touch where
  | i (l : Nat)
  | d (l : Nat)
  | l2 (l : Nat)
deriving DecidableEq, Repr

/-- One hardware thread of a PU (Table 5.2). -/
structure Thread where
  arch    : Arch := {}
  ckpt    : Arch := {}
  running : Bool := false
  halted  : Bool := false
  wait    : Waiting := .none
  retired : Nat := 0
  resv    : Option Nat := none
  sb      : List SbItem := []
  latch   : List LatchEntry := []
  replay  : List LatchEntry := []
  note    : Option (Nat × Nat) := none
  noteDue : Bool := false
  pend    : Tbl (Option (BitVec 4)) := []
  held    : List (Nat × BitVec 4) := []
  devFail : Option (Word × Nat) := none
  tx      : Option Tx := none
  stamp   : Option Word := none
  gh      : BitVec 14 := 0
  ras     : List Word := []
  /-- The fetch latch: translation enabled, and the page's translation (R162). -/
  fetchLatch : Option (Bool × TlbEntry) := none
  /-- Uncorrectable words in the checkpoint and latch arrays of the leading and the trailing copy (R263, R267). -/
  ckBad   : Bool × Bool := (false, false)
  latBad  : Bool × Bool := (false, false)
  /-- The trailing copy's shadow store queue (R261). -/
  shadow  : List SbEntry := []
  /-- Branch history and return stack at the recovery checkpoint (R138, R267). -/
  ckGh    : BitVec 14 := 0
  ckRas   : List Word := []
  touch   : List Touch := []
deriving DecidableEq, Repr

/-- L2 line states other than I (R202). -/
inductive CohState where
  | m | e | s
deriving DecidableEq, Repr

/-- One way of a set of the L2: no line when empty; lock bit under R211; held: the ownership hold of R222 lasts. -/
structure L2Way where
  line   : Option Nat := none
  st     : CohState := .s
  age    : Nat := 0
  locked : Bool := false
  held   : Bool := false
  noAlloc : Bool := false
deriving DecidableEq, Repr

/-- A walk-cache entry: the next table for an address at a level (R162). -/
structure WalkEntry where
  va    : Nat
  level : Nat
  next  : Nat
  ctx   : BitVec 16
deriving DecidableEq, Repr

/-- A target-buffer entry (R133). -/
structure TbEntry where
  tag    : BitVec 12
  target : Word
  kind   : Nat
deriving DecidableEq, Repr

/-- One core: a PU position, or a channel engine's core (R343), which uses thread 0, store buffer, caches and predictor. -/
structure Pu where
  t0w      : BitVec 4 := 4
  t1w      : BitVec 4 := 4
  t1en     : Bool := true
  t1run    : Bool := true
  imageId  : BitVec 32 := 0
  imageVer : BitVec 16 := 0
  parCnt   : Nat := 0
  slotB    : Bool := false
  verified : Bool := false
  loaded   : Bool := false
  /-- Control stores of the leading and the trailing copy (R125, R128). -/
  cs       : Tbl (BitVec 200) := []
  csB      : Tbl (BitVec 200) := []
  firstLane : BitVec 8 := 0
  laneSet  : Bool := false
  windowCnt : Nat := 0
  windowOpen : Bool := false
  retryCnt : Nat := 0
  injFail  : Nat := 0
  cause    : BitVec 3 := 0
  unchecked : Bool := false
  /-- Time at which the position left lock-step (R286, R481). -/
  uncheckedAt : Word := 0
  injPass  : Bool := false
  failed   : Bool := false
  mismatch : Bool := false
  retrying : Bool := false
  l2       : Tbl L2Way := []
  side     : List Nat := []
  tracker  : List Nat := []
  ldCnt    : Nat := 0
  lockedDirty : Bool := false
  /-- LOCK_CNT and EMPTY_CNT, kept while the island's power switch is open (R541). -/
  lockKeep : Option (Nat × Nat) := none
  l1d      : Tbl L2Way := []
  l1i      : Tbl L2Way := []
  dtlb     : List TlbEntry := []
  tlb      : List TlbEntry := []
  walk     : List WalkEntry := []
  segCache : List Nat := []
  addrTab  : Tbl (BitVec 2) := []
  histTab  : Tbl (BitVec 2) := []
  chooser  : Tbl (BitVec 2) := []
  targets  : Tbl (List TbEntry) := []
  t0       : Thread := {}
  t1       : Thread := {}
deriving DecidableEq, Repr

/-- Fault registers of a block (Tables 17.2 to 17.6); promo holds the P bits of FCLASS. -/
structure FaultRegs where
  valid    : Bool := false
  cls      : Nat := 0
  source   : BitVec 16 := 0
  inst     : BitVec 8 := 0
  info     : BitVec 32 := 0
  ovf      : Bool := false
  higher   : Bool := false
  maxCls   : Nat := 0
  count    : Nat := 0
  mask     : BitVec 32 := 0
  ienC1    : Bool := true
  promo    : BitVec 32 := 0
deriving DecidableEq, Repr

/-- An access table (Tables 16.14 to 16.17): regions and rows as the words they read as. -/
structure AccTab where
  denyCnt : Nat := 0
  lock    : Bool := false
  log     : Word := 0
  regs    : Tbl Word := []
  rows    : Tbl Word := []
deriving DecidableEq, Repr

/-- Kinds of requests that hold their line busy (Table 8.6). -/
inductive ReqKind where
  | rd | rdx | upg
deriving DecidableEq, Repr

/-- A request at a home. -/
structure HomeReq where
  acc   : Acc
  kind  : ReqKind
  line  : Nat
  stamp : Option Word := none
deriving DecidableEq, Repr

/-- A request that waits for its line at a home (R221). -/
inductive HomeCmd where
  | rd (a : Acc) (l : Nat) (e : ArrayErr)
  | rdn (a : Acc) (l : Nat)
  | rdx (a : Acc) (l : Nat) (stamp : Option Word)
  | upg (a : Acc) (l : Nat) (stamp : Option Word)
  | prefetchRead (pu : Nat) (th : Bool) (l : Nat)
  | amo (a : Acc) (pa : Nat) (op : AmoOp) (x y : Quad)
  | mnt (a : Acc) (l : Nat) (op : MntOp)
  /-- A read or write of any master that continues when its command is sent again. -/
  | line (a : Acc) (l : Nat)
  /-- A load or fetch (own false) or a store (own true) of a core, and the age that its fill takes (R206). -/
  | core (n : Nat) (th : Bool) (l : Nat) (own : Bool) (age : Nat)
deriving DecidableEq, Repr

/-- Messages of a busy line that have been sent and not yet arrived (Table 8.6). -/
inductive Msg where
  | fwd (holder : Nat)
  | callBack (holder : Nat)
  | inv (holder : Nat)
  | data (own : Bool) (excl : Bool)
  | ack
deriving DecidableEq, Repr

/-- A line that is busy at its home (R221): the request admitted and the messages still to arrive. -/
structure Busy where
  req   : HomeReq
  todo  : List Msg
  noAlloc : Bool := false
  viaFwd  : Bool := false
deriving DecidableEq, Repr

/-- One way of a directory set (Table 8.7). -/
structure DirWay where
  line  : Option Nat := none
  owned : Bool := false
  age   : Nat := 0
  pres  : BitVec 86 := 0
deriving DecidableEq, Repr

/-- One way of an L3 set (R204, R208). -/
structure L3Way where
  line  : Option Nat := none
  dirty : Bool := false
  age   : Nat := 0
deriving DecidableEq, Repr

/-- A pin record (R251). -/
structure Pin where
  req   : Acc
  stamp : Word
deriving DecidableEq, Repr

/-- A TLBI that the arbiter has ordered, and the PUs that have not yet acknowledged it (R164). -/
structure ArbTlbi where
  pu   : Nat
  th   : Bool
  op   : TlbiOp
  va   : Nat
  ctx  : BitVec 16
  todo : List Nat
deriving DecidableEq, Repr

/-- An operation of the fabric arbiter that goes to the homes (R225). -/
inductive ArbOp where
  | cmr (n : Nat) (th : Bool)
  | ivw (a : Acc) (pa len : Nat)
  | recall (set : Nat)
  | quiesce (z : Nat)
deriving DecidableEq, Repr

/-- What a command waits for: its turn at a line or at the fabric arbiter, or room in a completion ring (R370). -/
inductive Blocked where
  | line (a : Acc) (l : Nat)
  | arb (o : ArbOp)
  | ring
deriving DecidableEq, Repr

/-- Homes, L3, directory and the fabric arbiter (chapter 8). arbHome: operations ordered before the homes and not yet
performed there; blocked: what the command in progress waits for (empty between commands). -/
structure Coh where
  dir   : Tbl DirWay := []
  l3    : Tbl L3Way := []
  busy  : Tbl (Option Busy) := []
  waits : Tbl (List HomeCmd) := []
  pins  : Tbl (Option Pin) := []
  wbuf  : List Nat := []
  arb   : List ArbTlbi := []
  arbHome : List ArbOp := []
  blocked : List Blocked := []
deriving DecidableEq, Repr

/-- A request queued at a memory controller (R305, R306). -/
structure McReq where
  line    : Nat
  write   : Bool
  port    : Nat
  urgency : Nat := 0
deriving DecidableEq, Repr

/-- Power state of a rank (R309). -/
inductive RankPower where
  | up | powerDown | selfRefresh
deriving DecidableEq, Repr

/-- One memory controller (chapter 11). -/
structure Mc where
  tgt      : Tbl (Option (BitVec 16)) := []
  l3cnt    : Tbl Nat := []
  pdIdle   : BitVec 24 := 2000
  srIdle   : BitVec 24 := 500
  trCnt    : Nat := 0
  lfsrOn   : Bool := false
  radius2  : Bool := false
  k        : BitVec 5 := 10
  lfsr     : BitVec 32 := 0
  shadow   : Tbl Word := []
  active   : Tbl Word := []
  applyDue : List Nat := []
  trnBusy  : Bool := false
  trnErr   : Bool := false
  trnMode  : BitVec 3 := 0
  trnRank  : BitVec 2 := 0
  trnNibble : BitVec 5 := 0
  trnStart : BitVec 10 := 0
  trnRes   : Word := 0
  log      : Word := 0
  cnt      : Tbl Nat := []
  power    : Tbl RankPower := []
  queue    : List McReq := []
  openRow  : Tbl (Option Nat) := []
  trDue    : List (Nat × Nat × Nat) := []
  oscRef   : Tbl Nat := []
  wrRef    : Tbl Nat := []
  skips    : Tbl Nat := []
deriving DecidableEq, Repr

/-- A memory group of five channels (R292, R301, R304, R316). failed: the fenced channel; rebuild: the next line. -/
structure Group where
  failed  : Option Nat := none
  rebuild : Option Nat := none
  scrub   : Nat := 0
  lost    : Bool := false
deriving DecidableEq, Repr

/-- Records of the commit log in flash (R337 to R339), in log order, with the time-of-day counter at the write. An index maps
a block to the location of its record: its place in the log, counted from 1, 0 for unwritten. -/
inductive FlashRec where
  | block (b : Nat) (gen : Nat) (tod : Word) (data : List Host.Cell)
  | opened (gen : Nat) (tod : Word)
  | index (gen : Nat) (complete : Bool) (size : Nat) (blocks : Tbl Nat)
deriving DecidableEq, Repr

/-- A request that waits for a commit grant (R325): for a store buffer, or at the home. -/
structure GrantReq where
  acc   : Acc
  block : Nat
  since : Word := 0
deriving DecidableEq, Repr

/-- The commit region, the drain engine and the flash (chapter 12). -/
structure Commit where
  size      : BitVec 7 := 0
  frozen    : Bool := false
  allow     : BitVec 19 := 0
  phase     : BitVec 3 := 0
  incomplete : Bool := false
  cleaning  : Option Nat := none
  cancelled : Bool := false
  done      : Nat := 0
  dirty     : List Nat := []
  queue     : List GrantReq := []
  gen       : Nat := 0
  openDone  : Bool := false
  openDue   : Bool := false
  frozenMap : Option (List Nat) := none
  drained   : Tbl Nat := []
  named     : Tbl Nat := []
  log       : List FlashRec := []
  chanFail  : BitVec 16 := 0
deriving DecidableEq, Repr

/-- Limited-change settings (Table 16.18). -/
structure Limited where
  zc        : Nat := 1
  zcLeft    : Nat := 16
  zcRec     : List Word := []
  maxCommit : Nat := 64
  mcLeft    : Nat := 16
  mcRec     : List Word := []
  enrolLeft : Nat := 64
  root      : BitVec 384 := 0
  rootLeft  : Nat := 4
deriving DecidableEq, Repr

/-- An interrupt on its way to a thread (R436). -/
structure Irq where
  thread : Nat
  vector : Nat
  prio   : BitVec 4
deriving DecidableEq, Repr

/-- One entry of a zone's thread map (R426). -/
structure MapEntry where
  pu    : Nat
  th    : Bool
  valid : Bool
deriving DecidableEq, Repr

/-- One zone in the zone manager (chapter 16). -/
structure Zone where
  cfg      : Word := 0
  pus      : BitVec 48 := 0
  segtBase : Word := 0
  sidtBase : Word := 0
  lost     : Nat := 0
  irqDisc  : Nat := 0
  irqMerged : Nat := 0
  holdOvf  : Bool := false
  resetBusy : Bool := false
  fault    : Bool := false
  hold     : List Irq := []
  segHeld  : Bool := false
  seg      : Tbl Word := []
  sidt     : Tbl (BitVec 16) := []
  tmap     : List MapEntry := []
  salt     : BitVec 16 := 0
  chanTodo : List Nat := []
  accTodo  : List Bool := []
  drainDue : Bool := false
  homeDue  : Bool := false
  faultIrq : Word := 0
  sidtSet  : Word := 0
deriving DecidableEq, Repr

/-- Sparing controller (chapter 10): a failed position whose state waits in the state buffer. -/
structure CallUp where
  failed   : Nat
  zone     : Option Nat
  arch0    : Option Arch
  arch1    : Option Arch
  latch0   : List LatchEntry
  latch1   : List LatchEntry
  run0     : Bool
  run1     : Bool
  txCode0  : Option Tx := none
  txCode1  : Option Tx := none
  drained  : Bool := false
  since    : Word := 0
deriving DecidableEq, Repr

/-- A proving run in progress: the stage it has reached (R281, R282). -/
structure Proving where
  ce    : Bool
  n     : Nat
  stage : Nat
deriving DecidableEq, Repr

/-- The sparing controller (R273 to R284). -/
structure Sparing where
  spareSet : BitVec 48 := 0xC00C00C00C00
  failedSet : BitVec 48 := 0
  goodPu   : BitVec 48 := 0
  goodCe   : BitVec 36 := 0
  failedCe : BitVec 36 := 0
  recorded : Bool := false
  queued   : List CallUp := []
  drains   : List (Nat × Option Nat) := []
  current  : Option CallUp := none
  spare    : Nat := 0
  attempt  : Nat := 0
  step     : Nat := 0
  result   : BitVec 2 := 0
  unit     : Bool := false
  failedPos : Nat := 0
  proving  : List Proving := []
  ceCalls  : List (Nat × Nat) := []
deriving DecidableEq, Repr

/-- An XSTART request at an engine (R372). -/
structure XReq where
  pu   : Nat
  th   : Bool
  zone : Nat
  desc : Nat
  ep   : Nat
deriving DecidableEq, Repr

/-- One channel engine (Tables 13.2 and 13.23). -/
structure Ce where
  ep      : BitVec 16 := 0
  zone    : BitVec 4 := 0
  le      : BitVec 6 := 0x3F
  doubt   : Nat := 0
  busyCnt : Nat := 0
  slot    : Nat := 0
  nodeId  : BitVec 16 := 0
deriving DecidableEq, Repr

/-- A frame that has been sent and not yet answered, with its endpoint and link (R356). -/
structure Sent where
  ep    : Nat
  link  : Nat
  frame : Frame
deriving DecidableEq, Repr

/-- Volatile fields of an exchange-cache entry (R347). -/
structure Vol where
  pendingAck : Option (Nat × Frame) := none
  sent       : List Sent := []
  redrives   : Nat := 0
  waiting    : Bool := false
  ringErr    : Bool := false
  restored   : Bool := false
  unwritten  : Bool := false
  cmdSent    : Bool := false
  cmdAt      : Word := 0
  dataIn     : Nat := 0
  next       : Nat := 0
  usedUse    : Nat := 0
  freeAt     : Nat := 0
deriving DecidableEq, Repr

/-- A logical engine: XSTART queue, sparing gap, and its copies of records (R345 to R349). -/
structure Le where
  xq      : List XReq := []
  gap     : Bool := false
  gapAt   : Word := 0
  epCopy  : Tbl (Option (List Byte)) := []
  node    : Tbl (Option Nat) := []
  disp    : Tbl (Option Word) := []
  epRot   : Tbl Nat := []
  dispRot : Tbl Nat := []
deriving DecidableEq, Repr

/-- The channel subsystem's own state (chapter 13). -/
structure Chan where
  vol     : Tbl Vol := []
  refused : Nat := 0
  discarded : Nat := 0
  redriven : Nat := 0
  dups    : Nat := 0
  unwritten : Nat := 0
  waited  : Nat := 0
  lostCompl : Nat := 0
  applied : Bool := false
  /-- Frames on their way between engines, oldest first: link, home engine, frame (R346). -/
  fwd     : List (Nat × Nat × Frame) := []
deriving DecidableEq, Repr

/-- One link (Tables 14.2 to 14.5). -/
structure Link where
  cfg      : Word := 0
  used     : Word := 0
  peer     : BitVec 16 := 0
  post     : BitVec 6 := 0
  main     : BitVec 6 := 0
  pre      : BitVec 6 := 0
  live     : Bool := false
  idleOnly : Bool := false
  curRate  : Bool := false
  hiBer    : Bool := false
  amLock   : Bool := false
  blockLock : Bool := false
  trained  : Bool := false
  sigDet   : Bool := false
  fecCorr  : Nat := 0
  fecUncorr : Nat := 0
  berCnt   : Nat := 0
  crcErr   : Nat := 0
  gapDisc  : Nat := 0
  lockLoss : Nat := 0
  fallbacks : Nat := 0
  second   : Bool := false
deriving DecidableEq, Repr

/-- How a descriptor of a slice stands (R399, R401). -/
inductive JobStage where
  | queued
  | ran (code : Nat) (detail : Nat) (outLen : Nat) (inl : Quad) (more : Bool)
  | notRun
deriving DecidableEq, Repr

/-- A descriptor in a slice queue (Table 15.1), with its chain. -/
structure Job where
  desc   : List Byte
  zone   : Nat
  job    : Word
  chain  : Nat
  pos    : Nat
  last   : Bool
  stage  : JobStage
  held   : Bool := false
deriving DecidableEq, Repr

/-- One crypto or compression slice (R399). -/
structure Slice where
  jobs  : List Job := []
  seq   : BitVec 16 := 0
  chain : Nat := 0
  drbgReq : Nat := 0
  needSeed : Bool := false
deriving DecidableEq, Repr

/-- Master keys of a zone number (R405). -/
structure KeySlot where
  cur   : Option (BitVec 256) := none
  prev  : Option (BitVec 256) := none
  gen   : BitVec 8 := 0
deriving DecidableEq, Repr

/-- A context block that a unit has written (R404, R411): which free byte string fills the block, and the state of the
computation that it stands for (the model's own field: the spec gives the block no layout). -/
structure CtxRec where
  num    : Nat
  comp   : Bool
  zone   : Nat
  op     : Nat
  param  : Nat
  gen    : BitVec 8
  iv     : List Byte
  aad    : List Byte
  data   : List Byte
  chunks : List (List Byte)
  sent   : Nat
deriving DecidableEq, Repr

/-- The crypto unit's key store and entropy source (R405, R418, R419), and the context blocks written so far. -/
structure Crypto where
  ctxs     : List CtxRec := []
  keys     : Tbl KeySlot := []
  drainKey : Option (BitVec 512) := none
  savedKeys : Tbl KeySlot := []
  savedDrain : Option (BitVec 512) := none
  entropy  : Bool := true
  modSeed  : Bool := false
deriving DecidableEq, Repr

/-- A watchdog register (Table 18.1) and the last kick value. -/
structure Wdog where
  expiries : Nat := 0
  expired  : Bool := false
  lastKick : Option (BitVec 8) := none
deriving DecidableEq, Repr

/-- Where a K3 item came from (R490). -/
inductive K3Src where
  | can (busB : Bool) (client : BitVec 7)
  | window (z : Fin 16)
deriving DecidableEq, Repr

/-- An item of the K3 queue. -/
structure K3Item where
  src : K3Src
  who : Principal
  req : DictReq
  since : Word := 0
deriving DecidableEq, Repr

/-- A mode request that waits behind a transition (R34), and the item that asked for it; none: a local request. -/
structure ModeReq where
  code : Nat
  who  : Principal
  item : Option K3Item
  /-- The client has opened another transfer: no answer is due (R502). -/
  ended : Bool := false
deriving DecidableEq, Repr

/-- A mailbox of the dictionary window (Tables 18.5 and 18.6). -/
structure Mailbox where
  cmd   : Word := 0
  done  : Bool := false
  busy  : Bool := false
  rlen  : BitVec 13 := 0
  abort : BitVec 32 := 0
  data  : Tbl Word := []
deriving DecidableEq, Repr

/-- An open transfer of a client on a bus (R501, R502). -/
structure Transfer where
  busB   : Bool
  client : BitVec 7
  req    : DictReq
  total  : Nat
  data   : List Byte
  next   : Nat
  served : Bool
deriving DecidableEq, Repr

/-- A CAN frame that the module has sent: identifier and payload (R499, Table 18.8). -/
structure CanOut where
  busB : Bool
  id   : BitVec 29
  data : List Byte
  classic : Bool := false
deriving DecidableEq, Repr

/-- Management pair, dictionary and field network (chapter 18). -/
structure Mgmt where
  active    : Bool := false
  wdog0     : Wdog := {}
  wdog1     : Wdog := {}
  bothDown  : Bool := false
  k0Count   : Nat := 0
  k0Ok      : Bool := true
  k0Rest    : List Blk := []
  standbyRun : Bool := false
  k1At      : Word := 0
  /-- Last iteration of the coolant loop while it runs (Table 18.2: missed iterations count). -/
  k1Last    : Option Word := none
  stormCnt  : Tbl Nat := []
  stormAt   : Tbl Word := []
  stormMask : List (Blk × Nat) := []
  failovers : Nat := 0
  standbyBad : Bool := false
  k3        : List K3Item := []
  k3At      : Word := 0
  k3Log     : List (Word × Nat) := []
  boxes     : Tbl Mailbox := []
  transfers : List Transfer := []
  straps    : BitVec 7 := 0
  joinedA   : Bool := false
  joinedB   : Bool := false
  arb       : Nat := 0
  dataRate  : Nat := 2000
  hbSeq     : BitVec 32 := 0
  canOut    : List CanOut := []
  refusals  : Nat := 0
  overruns  : Nat := 0
  missed    : Nat := 0
  dict      : Tbl (Option Nat) := []
  stored    : Tbl (Option Nat) := []
  imgHeld   : Bool := false
  imgId     : BitVec 32 := 0
  imgVer    : BitVec 16 := 0
  imgSlotB  : Bool := false
  /-- SHA-384 that the verifying processor recorded of the held images, and the microwords (R129, R344, R485). -/
  imgHash   : BitVec 384 := 0
  csWords   : Tbl (BitVec 200) := []
  ceFwHeld  : Bool := false
  ceFwHash  : BitVec 384 := 0
  mgmtVer   : BitVec 32 := 0
  /-- Version of the management image that boot recovery has written to slot B (R29). -/
  slotBVer  : Option (BitVec 32) := none
  bootEvent : Nat := 0
  mgmtMem   : List Host.Cell := []
  lcIrq     : List Nat := []
deriving DecidableEq, Repr

/-- Plant control and sensing (R504 to R508, R26, R330, R331). -/
structure Plant where
  integ    : Rat := 0
  u        : Rat := 0
  hottest  : Int := 0
  thermCeil : Tbl Nat := []
  powerCeil : Tbl Nat := []
  pos      : Rat := 0
  deviation : Bool := false
  adc      : Tbl Int := []
  adcSum   : Tbl Int := []
  adcN     : Nat := 0
  limiting : Bool := false
  rtd      : Tbl Int := []
  power    : Nat := 0
  adcBad   : Bool := false
  charge   : Rat := 0
  chargeN  : Nat := 0
  chargeV0 : Rat := 0
  capC     : Rat := 0
  health   : Rat := 0
  eUsable  : Rat := 0
  budget   : Nat := 0
  budgetSet : Bool := false
  budgetHigh : Option (Nat × Word) := none
  recharge : Option Rat := none
  vcoreDue : Tbl Nat := []
  vcore    : Tbl Nat := []
deriving DecidableEq, Repr

/-- An extreme of an Encke interval (Table 17.13). -/
structure Extreme where
  lo   : Int := 0
  hi   : Int := 0
  loAt : Nat := 0
  hiAt : Nat := 0
  seen : Bool := false
deriving DecidableEq, Repr

/-- An Encke interval record (Table 17.13). -/
structure EnckeRec where
  number  : Nat := 0
  fmt     : Nat := 0
  merged  : Nat := 1
  gap     : Bool := false
  undisc  : Bool := false
  len     : Nat := 3600
  start   : Word := 0
  startOp : Word := 0
  stop    : Word := 0
  modes   : Tbl Nat := []
  deferrals : Nat := 0
  busy    : Nat := 0
  puCalls : Nat := 0
  ceCalls : Nat := 0
  hist    : Tbl Nat := []
  ext     : Tbl Extreme := []
  faults  : Tbl Nat := []
deriving DecidableEq, Repr

/-- The Encke recorder (R477 to R483) and the checkstop records (R469). -/
structure Encke where
  acc       : EnckeRec := {}
  waiting   : List EnckeRec := []
  written   : Tbl (Option EnckeRec) := []
  next      : Nat := 0
  deferrals : Nat := 0
  merges    : Nat := 0
  opSecs    : Nat := 0
  cycles    : Nat := 0
  gapNext   : Bool := false
  ecc       : Tbl Nat := []
  fec       : Tbl Nat := []
  retries   : Tbl Nat := []
  /-- Exchanges accepted, of which H9 samples 1 in 1,024 (Table 17.14). -/
  accepts   : Nat := 0
  chkSlots  : Tbl (List Byte) := []
  chkSeq    : Nat := 0
deriving DecidableEq, Repr

/-- Pins and rails: inputs as last driven, outputs as driven (Table 20.5). -/
structure Pins where
  pfwLow    : Bool := false
  pfwCounted : Bool := false
  mainPg    : Bool := false
  storeFlt  : Bool := false
  refA      : Bool := true
  refB      : Bool := true
  sdsLost   : BitVec 8 := 0
  timeRef   : Bool := false
  railEn    : BitVec 8 := 0
  storeChg  : Bool := false
  railsOn   : Bool := false
  seqBusy   : Bool := false
deriving DecidableEq, Repr

/-- Alive gates and privileged outputs (Tables 17.11 and 17.12). -/
structure Outs where
  gate      : BitVec 20 := 0x80000
  rej       : BitVec 20 := 0
  closedAt  : Tbl Word := []
  holdPulse : Bool := false
  chkPulse  : Bool := false
  holdTest  : Bool := false
  chkTest   : Bool := false
  holdLvl   : Bool := true
  chkLvl    : Bool := true
deriving DecidableEq, Repr

/-- Timebase (R521, Table 19.8). -/
structure TimeBase where
  tod      : Word := 0
  disc     : Bool := false
  src      : BitVec 2 := 0
  holdover : Bool := false
deriving DecidableEq, Repr

/-- TAP instructions (R536). -/
inductive TapIns where
  | bypass | idcode | sample | extest | clamp
deriving DecidableEq, Repr

/-- A clock island (R14, R18, R19, R21). mhz 0: the nominal frequency; useB: its reference is REFCLK_B;
offFence: fenced for an open power switch alone (R18, R541). -/
structure IslandSt where
  swFence : Bool := false
  fltFence : Bool := false
  power   : Bool := false
  req     : Nat := 0
  mhz     : Nat := 0
  relock  : Bool := false
  useB    : Bool := false
  offFence : Bool := false
deriving DecidableEq, Repr

/-- The last answer of the module on the interface a command came in by (the model's own observation). -/
inductive Resp where
  | none
  | ok (v : Word)
  | error
  | fenced
  | dict (abort : BitVec 32) (data : List Byte)
  | tap (v : BitVec 32)
deriving DecidableEq, Repr

/-- First C4 source since main power-up (Table 17.9). -/
structure ChkFirst where
  valid  : Bool := false
  source : BitVec 16 := 0
  inst   : Nat := 0
  cnt    : Nat := 0
deriving DecidableEq, Repr

/-- Boot and mode record (chapter 2). -/
structure Modes where
  booting   : Bool := false
  recovery  : Bool := false
  bootA     : Bool := false
  bootRec   : Bool := false
  mode      : Option Mode := none
  prev      : Option Mode := none
  cause     : Nat := 0
  m5From    : Mode := .run
  m6FromM2  : Bool := false
  m6Zones   : List Nat := []
  preM8     : Mode := .run
  requests  : List ModeReq := []
  leaving   : Option Nat := none
  held      : Bool := false
  provisioned : Bool := false
  initDone  : Bool := false
  restored  : Option Nat := none
  lastRestore : Nat := 0
  restoreBad : Nat := 0
  lastIndex : Nat := 0
  awaitRepower : Bool := false
  zonesDue  : List Nat := []
  unchecked : BitVec 48 := 0
  dbgPort   : Bool := false
  /-- VAUX was removed in M8 (cause 0x13). -/
  fromM8    : Bool := false
deriving DecidableEq, Repr

/-- Why PUs translate an address. -/
inductive Use where
  | load | store | rmw | fetch | clean | inval
deriving DecidableEq, Repr

/-- A translated access: physical address, memory type, and the translation it used. -/
structure Phys where
  pa : Nat
  mt : MemType
  tr : Option TlbEntry := none
deriving DecidableEq, Repr

/-- The DIMMs that are fitted (R292 to R296): usable capacity in GiB, log2 of the ranks of
a channel, row and column bits, whether they are those that M1 found before (R294), the fastest speed bin that every one
supports (0 DDR5-6400, 1 DDR5-5600, 2 DDR5-4800), and the bin that the channels run (R292). -/
structure Dimms where
  u     : Nat := 4096
  k     : Nat := 2
  r     : Nat := 17
  c     : Nat := 7
  same  : Bool := true
  best  : Nat := 0
  bin   : Nat := 0
deriving DecidableEq, Repr

/-- The state of the module. -/
structure State where
  /-- Commands that wait, first in, first out. -/
  pending : List Instr := []
  /-- Number of free values drawn so far (the model's own field). -/
  free    : Nat := 0
  resp    : Resp := .none
  vaux    : Bool := false
  md      : Modes := {}
  pins    : Pins := {}
  outs    : Outs := {}
  tb      : TimeBase := {}
  tap     : TapIns := .bypass
  lc      : Tbl Lc := []
  faults  : Tbl FaultRegs := []
  chk     : ChkFirst := {}
  tabs    : Tbl AccTab := []
  islands : Tbl IslandSt := []
  pus     : Tbl Pu := []
  coh     : Coh := {}
  /-- Coherent memory contents: what a load ordered at the home returns; unlisted bytes read zero (R540). -/
  mem     : List Host.Cell := []
  /-- What the memory controllers hold (write queues included). -/
  dram    : List Host.Cell := []
  poison  : List Nat := []
  dimms   : Dimms := {}
  mcs     : Tbl Mc := []
  groups  : Tbl Group := []
  commit  : Commit := {}
  lim     : Limited := {}
  zones   : Tbl Zone := []
  segAdd  : Word := 0
  zrstLost : Nat := 0
  spc     : Sparing := {}
  ces     : Tbl Ce := []
  les     : Tbl Le := []
  chan    : Chan := {}
  links   : Tbl Link := []
  sent    : List (Nat × Frame) := []
  cslices : Tbl Slice := []
  dslices : Tbl Slice := []
  crypto  : Crypto := {}
  mgmt    : Mgmt := {}
  plant   : Plant := {}
  encke   : Encke := {}
deriving DecidableEq, Repr

/-- How the effect of an instruction ends: it retires, takes an exception, or waits (and is sent again). -/
inductive Res where
  | done (s : State)
  | exc (e : Exc) (s : State)
  | wait (s : State)
deriving DecidableEq, Repr

/-- What stands before an instruction's own effect: the command ends in a state, the instruction retires without
effect because its condition is false, or its effect follows. -/
inductive Front where
  | stop (s : State)
  | skip (s : State)
  | go (s : State)
deriving DecidableEq, Repr

/-- The module before VAUX is in tolerance: nothing runs; every register at the reset value the spec gives, and at
the value of the assumption log where it gives none. -/
def State.reset : State := {}

end Sys2Proof.Machine
end

