-- ==== Sys2Proof/Machine/Units.lean ====
section
/-! DEFINITION. Numbers of units, functions and tables, and reading and changing one unit of the state. -/

namespace Sys2Proof.Machine

/-- Register-block number of a unit (Table 19.2). -/
def blkNum : Blk → Nat
  | .pu n => n.val
  | .home q => 0x40 + q.val
  | .fab => 0x48
  | .mc n => 0x50 + n.val
  | .drain => 0x68
  | .flash => 0x69
  | .ce n => 0x80 + n.val
  | .lg g => 0xC0 + g.val
  | .crypto => 0xD0
  | .comp => 0xD1
  | .zm => 0xE0
  | .spc => 0xE1
  | .dbg => 0xE2
  | .mgt => 0x100
  | .sns => 0x101
  | .tb => 0x102

/-- Unit kind of a block (Table 17.7). -/
def blkKind : Blk → Nat
  | .pu _ => 0x01
  | .home _ => 0x02
  | .fab => 0x03
  | .mc _ => 0x04
  | .drain => 0x05
  | .flash => 0x06
  | .ce _ => 0x07
  | .lg _ => 0x08
  | .crypto => 0x09
  | .comp => 0x0A
  | .zm => 0x0B
  | .spc => 0x0C
  | .mgt => 0x0D
  | .sns => 0x0E
  | .tb => 0x0F
  | .dbg => 0x10

/-- Instance number of a block (R466). -/
def blkInst : Blk → Nat
  | .pu n => n.val
  | .home q => q.val
  | .mc n => n.val
  | .ce n => n.val
  | .lg g => g.val
  | _ => 0

/-- Block of a register-block number, where the block has fault registers (Table 19.2). -/
def numBlk (n : Nat) : Option Blk :=
  if h : n < 48 then some (.pu ⟨n, h⟩)
  else if h : 0x40 ≤ n ∧ n < 0x44 then some (.home ⟨n - 0x40, by omega⟩)
  else if n = 0x48 then some .fab
  else if h : 0x50 ≤ n ∧ n < 0x64 then some (.mc ⟨n - 0x50, by omega⟩)
  else if n = 0x68 then some .drain
  else if n = 0x69 then some .flash
  else if h : 0x80 ≤ n ∧ n < 0xA4 then some (.ce ⟨n - 0x80, by omega⟩)
  else if h : 0xC0 ≤ n ∧ n < 0xC8 then some (.lg ⟨n - 0xC0, by omega⟩)
  else if n = 0xD0 then some .crypto
  else if n = 0xD1 then some .comp
  else if n = 0xE0 then some .zm
  else if n = 0xE1 then some .spc
  else if n = 0xE2 then some .dbg
  else if n = 0x100 then some .mgt
  else if n = 0x101 then some .sns
  else if n = 0x102 then some .tb
  else none

/-- Every block with fault registers, in ascending kind and instance (R469, R488). -/
def allBlks : List Blk :=
  (List.finRange 48).map .pu ++ (List.finRange 4).map .home ++ [.fab] ++ (List.finRange 20).map .mc ++
  [.drain, .flash] ++ (List.finRange 36).map .ce ++ (List.finRange 8).map .lg ++
  [.crypto, .comp, .zm, .spc, .mgt, .sns, .tb, .dbg]

/-- Number of an enable-able function in the table of lifecycles. -/
def fnNum : Fn → Nat
  | .pu n => n.val
  | .ce n => 0x80 + n.val
  | .zone z => 0x100 + z.val
  | .cslice n => 0x120 + n.val
  | .dslice n => 0x140 + n.val
  | .commit => 0x160
  | .rank m r => 0x180 + 4 * m.val + r.val
  | .link n => 0x200 + n.val

/-- Number of an access table. -/
def tabNum : TabId → Nat
  | .blk b => blkNum b
  | .dwin => 0x104
  | .mgmtMem => 0x110
  | .group g => 0x120 + g.val

/-- Number of a clock island. -/
def islNum : Island → Nat
  | .pu n => n.val
  | .home q => 0x40 + q.val
  | .fab => 0x48
  | .mc n => 0x50 + n.val
  | .drain => 0x68
  | .flash => 0x69
  | .ce n => 0x80 + n.val
  | .lg g => 0xC0 + g.val
  | .crypto => 0xD0
  | .comp => 0xD1
  | .zm => 0xE0
  | .mgmt n => 0x100 + n.val
  | .sns => 0x102
  | .tb => 0x103

/-- A logical engine or CE number as LE reads after manufacture (R345). -/
def ceDefault (n : Nat) : Ce := { le := if n < 32 then BitVec.ofNat 6 n else 0x3F }

/-- Link registers at main power-up (Table 14.2): TXEQ main 0x3F, lane link mod 4, training and AUTO on. -/
def linkDefault (cfg : Word) : Link := { cfg := cfg }

/-- Reset value of AT_REGk (Table 16.14). -/
def regDefault (k : Nat) : Word := if k = 0 then 0x8034000000000000 else 0

/-- Reset value of AT_ROWmmm (R449): rows 120 and 121, and in the memory-group tables 114 and 115, hold region 0. -/
def rowDefault (t : Nat) (m : Nat) : Word :=
  if m = 120 ∨ m = 121 ∨ (0x120 ≤ t ∧ t < 0x124 ∧ (m = 114 ∨ m = 115)) then 0xC else 0

/-- PU position n. -/
def State.pu (s : State) (n : Nat) : Pu := tget {} s.pus n

/-- The state with PU position n changed. -/
def State.updPu (s : State) (n : Nat) (f : Pu → Pu) : State := { s with pus := tupd {} s.pus n f }

/-- Thread th of PU n. -/
def Pu.thr (p : Pu) (th : Bool) : Thread := if th then p.t1 else p.t0

/-- The PU with thread th replaced. -/
def Pu.setThr (p : Pu) (th : Bool) (t : Thread) : Pu := if th then { p with t1 := t } else { p with t0 := t }

/-- Thread th of PU n. -/
def State.thr (s : State) (n : Nat) (th : Bool) : Thread := (s.pu n).thr th

/-- The state with a thread changed. -/
def State.updThr (s : State) (n : Nat) (th : Bool) (f : Thread → Thread) : State :=
  s.updPu n (fun p => p.setThr th (f (p.thr th)))

/-- The state with a thread replaced. -/
def State.setThr (s : State) (n : Nat) (th : Bool) (t : Thread) : State := s.updPu n (fun p => p.setThr th t)

/-- Zone z. -/
def State.zone (s : State) (z : Nat) : Zone := tget {} s.zones z

/-- The state with zone z changed. -/
def State.updZone (s : State) (z : Nat) (f : Zone → Zone) : State := { s with zones := tupd {} s.zones z f }

/-- Lifecycle register of a function. -/
def State.lcOf (s : State) (f : Fn) : Lc := tget {} s.lc (fnNum f)

/-- The state with a lifecycle register replaced. -/
def State.setLc (s : State) (f : Fn) (l : Lc) : State := { s with lc := tset {} s.lc (fnNum f) l }

/-- Fault registers of a block. -/
def State.flt (s : State) (b : Blk) : FaultRegs := tget {} s.faults (blkNum b)

/-- The state with the fault registers of a block changed. -/
def State.updFlt (s : State) (b : Blk) (f : FaultRegs → FaultRegs) : State :=
  { s with faults := tupd {} s.faults (blkNum b) f }

/-- An access table. -/
def State.tab (s : State) (t : TabId) : AccTab := tget {} s.tabs (tabNum t)

/-- The state with an access table changed. -/
def State.updTab (s : State) (t : TabId) (f : AccTab → AccTab) : State :=
  { s with tabs := tupd {} s.tabs (tabNum t) f }

/-- Memory controller m. -/
def State.mc (s : State) (m : Nat) : Mc := tget {} s.mcs m

/-- The state with memory controller m changed. -/
def State.updMc (s : State) (m : Nat) (f : Mc → Mc) : State := { s with mcs := tupd {} s.mcs m f }

/-- Memory group g. -/
def State.grp (s : State) (g : Nat) : Group := tget {} s.groups g

/-- The state with memory group g changed. -/
def State.updGrp (s : State) (g : Nat) (f : Group → Group) : State := { s with groups := tupd {} s.groups g f }

/-- Channel engine n. -/
def State.ce (s : State) (n : Nat) : Ce := tget (ceDefault n) s.ces n

/-- The state with channel engine n changed. -/
def State.updCe (s : State) (n : Nat) (f : Ce → Ce) : State := { s with ces := tupd (ceDefault n) s.ces n f }

/-- Reset value of LINKnnn.CFG (Table 14.2). -/
def linkCfgReset (n : Nat) : Word := mkw [(28, 0x3F), (14, n % 4), (4, 1), (3, 1)]

/-- Link n. -/
def State.link (s : State) (n : Nat) : Link := tget (linkDefault (linkCfgReset n)) s.links n

/-- The state with link n changed. -/
def State.updLink (s : State) (n : Nat) (f : Link → Link) : State :=
  { s with links := tupd (linkDefault (linkCfgReset n)) s.links n f }

/-- Logical engine n. -/
def State.le (s : State) (n : Nat) : Le := tget {} s.les n

/-- The state with logical engine n changed. -/
def State.updLe (s : State) (n : Nat) (f : Le → Le) : State := { s with les := tupd {} s.les n f }

/-- Clock island i. -/
def State.island (s : State) (i : Island) : IslandSt := tget {} s.islands (islNum i)

/-- The state with a clock island changed. -/
def State.updIsland (s : State) (i : Island) (f : IslandSt → IslandSt) : State :=
  { s with islands := tupd {} s.islands (islNum i) f }

/-- A mailbox. -/
def State.box (s : State) (z : Nat) : Mailbox := tget {} s.mgmt.boxes z

/-- The state with a mailbox changed. -/
def State.updBox (s : State) (z : Nat) (f : Mailbox → Mailbox) : State :=
  { s with mgmt := { s.mgmt with boxes := tupd {} s.mgmt.boxes z f } }

/-- A crypto (comp false) or compression slice. -/
def State.slice (s : State) (comp : Bool) (n : Nat) : Slice :=
  if comp then tget {} s.dslices n else tget {} s.cslices n

/-- The state with a slice changed. -/
def State.updSlice (s : State) (comp : Bool) (n : Nat) (f : Slice → Slice) : State :=
  if comp then { s with dslices := tupd {} s.dslices n f } else { s with cslices := tupd {} s.cslices n f }

/-- Every function whose lifecycle state p accepts, among those listed. -/
def allFns : List Fn :=
  (List.finRange 16).map .zone ++ (List.finRange 48).map .pu ++ (List.finRange 36).map .ce ++
  (List.finRange 512).map .link ++ (List.finRange 16).map .cslice ++ (List.finRange 16).map .dslice ++ [.commit] ++
  (List.finRange 20).flatMap (fun m => (List.finRange 4).map (Fn.rank m))

/-- The next free value of w bits (R540 and the open values of the assumption log): the counter advances. -/
def State.draw (s : State) (w : Nat) : BitVec w × State :=
  (Config.freeBits w s.free, { s with free := s.free + 1 })

/-- The time-of-day counter (R521). -/
def State.now (s : State) : Nat := s.tb.tod.toNat

/-- Milliseconds in units of the time-of-day counter (0.25 ns). -/
def msUnits (n : Nat) : Nat := 4000000 * n

/-- Value of a dictionary entry that is held, or its default. -/
def State.entry (s : State) (idx sub dflt : Nat) : Nat :=
  (tget none s.mgmt.dict (256 * idx + sub)).getD dflt

/-- The state with a dictionary entry set. -/
def State.setEntry (s : State) (idx sub v : Nat) : State :=
  { s with mgmt := { s.mgmt with dict := tset none s.mgmt.dict (256 * idx + sub) (some v) } }

/-- The dictionary values that are stored in flash (R495): the RW entries, not 0x3030:01, which is a measurement. -/
def storable (t : Tbl (Option Nat)) : Tbl (Option Nat) := tset none t 0x303001 none

/-- Is the module in one of the modes? -/
def State.inMode (s : State) (l : List Mode) : Bool :=
  match s.md.mode with
  | some m => l.contains m
  | none => false

/-- Code of a mode (Table 2.1). -/
def modeCode : Mode → Nat
  | .cold => 0 | .provision => 1 | .restore => 2 | .run => 3 | .degraded => 4 | .service => 5
  | .quiesced => 6 | .holdup => 7 | .checkstop => 8

/-- Are the main rails on? -/
def State.mainOn (s : State) : Bool := s.pins.railsOn

/-- Zone count Zc. -/
def State.zc (s : State) : Nat := s.lim.zc

/-- Lifecycle state of a function. -/
def State.lcs (s : State) (f : Fn) : LcState := (s.lcOf f).state

/-- The zone (lowest number, not OFF) whose MASK names PU n: the zone to which the PU is dedicated (Table 16.7). -/
def State.puZone (s : State) (n : Nat) : Option (Fin 16) :=
  (List.finRange 16).find? (fun z => (s.zone z.val).pus.getLsbD n && decide (s.lcs (.zone z) ≠ .off))

/-- Register block of core n: PUnn, or CEnn for core 48 + nn. -/
def coreBlk (n : Nat) : Blk := if h : n < 48 then .pu ⟨n, h⟩ else .ce (Fin.ofNat 36 (n - 48))

/-- Clock island of core n. -/
def coreIsl (n : Nat) : Island := if h : n < 48 then .pu ⟨n, h⟩ else .ce (Fin.ofNat 36 (n - 48))

/-- The function that core n is (Table 2.5). -/
def coreFn (n : Nat) : Fn := if h : n < 48 then .pu ⟨n, h⟩ else .ce (Fin.ofNat 36 (n - 48))

/-- Identity of the requests of an agent that holds copies (R12, Table 0.4, Table 16.7): a PU's master ID is its number and
its tag the zone it is dedicated to; CE n, agent 48 + n, has master ID 64 + n and the zone it works for; agents 84 and 85
are the crypto and the compression unit. -/
def State.puAcc (s : State) (n : Nat) (th : Bool) : Acc :=
  if n < 48 then { master := BitVec.ofNat 8 n, th := th, zone := s.puZone n }
  else if n < 84 then { master := BitVec.ofNat 8 (n + 16), th := false, zone := some (Fin.ofNat 16 (s.ce (n - 48)).zone.toNat) }
  else { master := BitVec.ofNat 8 (n + 28), th := false, zone := none }

/-- The core that a master ID names, if it is a PU or a CE. -/
def masterCore (m : Nat) : Option Nat :=
  if m < 48 then some m else if 64 ≤ m ∧ m < 100 then some (m - 16) else none

/-- The CE that holds logical engine l, if any (R345). -/
def State.ceOf (s : State) (l : Nat) : Option (Fin 36) :=
  (List.finRange 36).find? (fun n => decide ((s.ce n.val).le.toNat = l))

end Sys2Proof.Machine
end

