-- ==== Sys2Proof/Machine/Micro.lean ====
section
/-! DEFINITION. Microwords of the control store (R124 to R132, Table 5.4). -/

namespace Sys2Proof.Machine

/-- A microword: 192 data bits under 8 parity bits (Table 5.4). -/
abbrev Uword := BitVec 200

/-- PAR: one bit per 24 data bits. -/
def uwPar (w : Uword) : BitVec 8 := w.extractLsb' 192 8

/-- DUR: cycles that the word is held for (R126). -/
def uwCycles (w : Uword) : Nat := (w.extractLsb' 190 2).toNat + 1

/-- SEQ, by its code. -/
def uwSeq (w : Uword) : Nat := (w.extractLsb' 186 4).toNat

/-- NEXT: the target microword. -/
def uwNext (w : Uword) : BitVec 14 := w.extractLsb' 172 14

/-- TEST: the condition that SEQ 2 tests. -/
def uwTest (w : Uword) : BitVec 6 := w.extractLsb' 166 6

/-- TXOK: the instruction is permitted inside a hardware transaction. -/
def uwTxok (w : Uword) : Bool := w.getLsbD 165

/-- NOINT: no asynchronous event before the last word. -/
def uwNoint (w : Uword) : Bool := w.getLsbD 164

/-- The three slots, A, B and C. -/
def uwSlots (w : Uword) : BitVec 48 × BitVec 48 × BitVec 48 :=
  (w.extractLsb' 112 48, w.extractLsb' 64 48, w.extractLsb' 16 48)

/-- IMM16. -/
def uwImm (w : Uword) : BitVec 16 := w.extractLsb' 0 16

/-- Is the number of ones among n bits of w from bit lo odd? -/
def oddOnes (w : Uword) (lo n : Nat) : Bool :=
  (List.range n).foldl (fun p i => p != w.getLsbD (lo + i)) false

/-- Even parity: bit 192 + k makes the ones of data bits [24k + 23 : 24k] and itself even (R125). -/
def uwParityOk (w : Uword) : Bool :=
  (List.range 8).all (fun k => oddOnes w (24 * k) 24 == w.getLsbD (192 + k))

/-- The microword at an address of a control store; an image shorter than the store leaves zeros (assumption 75). -/
def uwAt (t : Tbl (BitVec 200)) (addr : Nat) : Uword := tget 0 t addr

/-- The words of an image from address 0 on, at most 16,384. -/
def imageWords (l : List (BitVec 200)) : Tbl (BitVec 200) :=
  ((List.range (Nat.min 16384 l.length)).zip l).foldl (fun (t : Tbl (BitVec 200)) e => tset 0 t e.1 e.2) []

/-- Does the loaded control store of core n leave an instruction out (R124): is SEQ of its dispatch word 7? key: 64 ×
major opcode + function code. -/
def storeOmits (s : State) (n key : Nat) : Bool := uwSeq (uwAt (s.pu n).cs (Config.classOf key).toNat) == 7

/-- The repair write of R128 and R131: the word at an address of one copy's store takes the value w. -/
def repairWord (trail : Bool) (addr : Nat) (w : Uword) (p : Pu) : Pu :=
  if trail then { p with csB := tset 0 p.csB addr w } else { p with cs := tset 0 p.cs addr w }

end Sys2Proof.Machine
end

