-- ==== Sys2Proof/Machine/Stats.lean ====
section
/-! DEFINITION. What blocks measure for the Encke recorder: histograms and extremes of the open interval (R481). -/

namespace Sys2Proof.Machine

/-- Seconds of operating time since the open interval began. -/
def sinceStart (s : State) : Nat := s.encke.opSecs - s.encke.acc.startOp.toNat % 2 ^ 32

/-- Bin of a "log2" histogram. -/
def binLog (v : Nat) : Nat := Nat.min 15 (Nat.log2 v)

/-- n counted in bin b of histogram h; a full bin stays (R481). -/
def histAdd (h b n : Nat) (s : State) : State :=
  { s with encke := { s.encke with acc := { s.encke.acc with
    hist := tupd 0 s.encke.acc.hist (16 * h + b) (fun v => satAdd 0xFFFFFFFF v n) } } }

/-- An extreme takes a value seen at second t. -/
def extPut (v : Int) (t : Nat) (e : Extreme) : Extreme :=
  if !e.seen then { lo := v, hi := v, loAt := t, hiAt := t, seen := true }
  else
    let e := if v < e.lo then { e with lo := v, loAt := t } else e
    if e.hi < v then { e with hi := v, hiAt := t } else e

/-- Extreme k of the open interval takes a value. -/
def extAdd (k : Nat) (v : Int) (s : State) : State :=
  { s with encke := { s.encke with acc := { s.encke.acc with
    ext := tupd {} s.encke.acc.ext k (extPut v (sinceStart s)) } } }

/-- Units of the time-of-day counter since a time. -/
def sinceTod (t : Word) (s : State) : Nat := s.now - t.toNat

/-- Microseconds since a time. -/
def microsSince (t : Word) (s : State) : Nat := sinceTod t s / 4000

/-- H8 and E15: a commit grant request has waited since a time. -/
def grantWait (t : Word) (s : State) : State :=
  extAdd 15 (microsSince t s) (histAdd 8 (binLog (microsSince t s)) 1 s)

/-- H9: an exchange whose CMD came at a time is accepted; of 1,024 the last is sampled (DESIGN CHOICE, assumption 65). -/
def acceptWait (t : Word) (s : State) : State :=
  let n := s.encke.accepts + 1
  let s := { s with encke := { s.encke with accepts := n } }
  if n % 1024 = 0 then histAdd 9 (binLog (microsSince t s)) 1 s else s

/-- H10: an interval out of lock-step ends, which has lasted since a time (R286). -/
def lockstepWait (t : Word) (s : State) : State :=
  histAdd 10 (binLog (microsSince t s / 1000)) (microsSince t s) s

/-- E14: a sparing gap ends, which has lasted since a time. -/
def gapWait (t : Word) (s : State) : State := extAdd 14 (microsSince t s) s

/-- H15: a dictionary item that came at a time is answered. -/
def answerWait (t : Word) (s : State) : State := histAdd 15 (binLog (microsSince t s / 1000)) 1 s

end Sys2Proof.Machine
end

