-- ==== Sys2Proof/Machine/Faults.lean ====
section
/-! DEFINITION. Fault registers, the fault catalogue, alive gates, NOTICE and the entry to checkstop (chapter 17). -/

namespace Sys2Proof.Machine

/-- Highest class of a source of the catalogue (Table 17.8), by unit kind and local index; none where unassigned. -/
def srcClass (kind src : Nat) : Option Nat :=
  if src = 0 then some 1
  else if src = 1 then some 2
  else if src = 2 then some 2
  else if src = 3 then some 1
  else if src = 4 then some 1
  else if src = 5 then some 1
  else match kind, src with
  | 1, 8 => some 1 | 1, 9 => some 2 | 1, 10 => some 1 | 1, 11 => some 2 | 1, 12 => some 2 | 1, 13 => some 1
  | 1, 14 => some 2 | 1, 15 => some 2 | 1, 16 => some 3 | 1, 17 => some 3 | 1, 18 => some 3 | 1, 19 => some 3
  | 1, 20 => some 3
  | 2, 8 => some 3 | 2, 9 => some 1 | 2, 10 => some 4
  | 3, 8 => some 4
  | 4, 8 => some 1 | 4, 9 => some 1 | 4, 10 => some 3 | 4, 11 => some 1 | 4, 12 => some 2 | 4, 13 => some 2
  | 4, 14 => some 4 | 4, 15 => some 1
  | 5, 8 => some 2 | 5, 9 => some 4 | 5, 10 => some 1
  | 6, 8 => some 2 | 6, 9 => some 1 | 6, 10 => some 4
  | 7, 8 => some 2 | 7, 9 => some 2 | 7, 10 => some 2 | 7, 11 => some 2 | 7, 12 => some 1
  | 8, 8 => some 2 | 8, 9 => some 2 | 8, 10 => some 2 | 8, 11 => some 1 | 8, 12 => some 1
  | 9, 8 => some 2 | 9, 9 => some 2 | 9, 10 => some 2 | 9, 11 => some 2 | 9, 12 => some 2
  | 10, 8 => some 2 | 10, 11 => some 2 | 10, 12 => some 2
  | 11, 8 => some 2 | 11, 9 => some 2 | 11, 10 => some 1 | 11, 11 => some 3 | 11, 12 => some 3 | 11, 13 => some 1
  | 11, 14 => some 4 | 11, 15 => some 4
  | 12, 8 => some 4 | 12, 9 => some 3
  | 13, 8 => some 2 | 13, 9 => some 2 | 13, 10 => some 2 | 13, 11 => some 2 | 13, 12 => some 2 | 13, 13 => some 2
  | 14, 8 => some 1 | 14, 9 => some 1 | 14, 10 => some 1 | 14, 11 => some 2 | 14, 12 => some 4
  | 15, 8 => some 1 | 15, 9 => some 2
  | _, _ => none

/-- Sources marked P in the catalogue: ARRAY_CORR, MC ECC_CORR, LG FEC_UNCORR_RATE. -/
def srcPromotable (kind src : Nat) : Bool :=
  src == 4 || (kind == 4 && src == 8) || (kind == 8 && src == 12)

/-- Can source src of a unit kind be masked now: class C1 and not promoted (R463)? -/
def maskable (kind : Nat) (f : FaultRegs) (src : Nat) : Bool :=
  srcClass kind src == some 1 && !f.promo.getLsbD src

/-- Class that a source raised as class cls takes under FCLASS (R463). -/
def effClass (kind : Nat) (f : FaultRegs) (src cls : Nat) : Nat :=
  if srcPromotable kind src && f.promo.getLsbD src && cls == 1 then 2 else cls

/-- SOURCE of a block's local source (Table 17.2). -/
def sourceOf (b : Blk) (src : Nat) : BitVec 16 := BitVec.ofNat 16 (256 * blkKind b + src)

/-- Alive group of a block in this state (Table 17.10): a PU outside its zone's MASK and a CE without a logical
engine belong to none. -/
def aliveGroup (s : State) : Blk → Option Nat
  | .pu n => if (List.range 16).any (fun z => (s.zone z).pus.getLsbD n.val) then some (n.val / 12) else none
  | .home q => some q.val
  | .mc n => some (4 + n.val / 5)
  | .lg g => some (8 + g.val)
  | .ce n => let l := (s.ce n.val).le.toNat; if l < 32 then some (8 + l / 4) else none
  | .crypto => some 16
  | .comp => some 17
  | .drain => some 18
  | .flash => some 18
  | .mgt => some 19
  | .sns => some 19
  | .tb => some 19
  | .zm => none
  | .spc => none
  | .fab => none
  | .dbg => none

/-- Is a whole island fenced, by a fault or by service software (R541)? -/
def islandFenced (s : State) (i : Island) : Bool := (s.island i).swFence || (s.island i).fltFence

/-- Is an island powered and not fenced: does it take requests (R17)? -/
def islandUp (s : State) (i : Island) : Bool := (s.island i).power && !(s.island i).offFence && !islandFenced s i

/-- Number of ranks of group g's channels that are FENCED: a fenced rank takes its channel down (R301). -/
def channelFenced (s : State) (m : Fin 20) : Bool :=
  decide ((s.grp (m.val / 5)).failed = some (m.val % 5)) || (s.grp (m.val / 5)).lost ||
    (List.finRange 4).any (fun r => decide (s.lcs (.rank m r) = .fenced)) || islandFenced s (.mc m)

/-- Flash channels that have failed. -/
def flashFailed (s : State) : Nat := ((List.range 16).filter (fun i => s.commit.chanFail.getLsbD i)).length

/-- Is the management processor that holds the active role Deimos? -/
def activeWdog (s : State) : Wdog := if s.mgmt.active then s.mgmt.wdog1 else s.mgmt.wdog0

/-- Is the core of an alive group present (Table 17.10)? -/
def corePresent (s : State) (g : Nat) : Bool :=
  if h : g < 4 then !islandFenced s (.home ⟨g, h⟩)
  else if g < 8 then
    decide (((List.finRange 20).filter (fun m => m.val / 5 == g - 4 && channelFenced s m)).length ≤ 1)
  else if h : g < 16 then
    !islandFenced s (.lg ⟨g - 8, by omega⟩) && (List.range 4).all (fun j =>
      match s.ceOf (4 * (g - 8) + j) with
      | some n => decide (s.lcs (.ce n) = .on)
      | none => false)
  else if g = 16 then !islandFenced s .crypto
  else if g = 17 then !islandFenced s .comp
  else if g = 18 then !islandFenced s .drain && !islandFenced s .flash && decide (flashFailed s ≤ 1)
  else !(activeWdog s).expired && !s.mgmt.bothDown

/-- Does Table 2.3 let the output toggle in the present mode? -/
def modeToggles (s : State) (g : Nat) : Bool :=
  if g = 19 then s.md.mode.isSome else s.inMode [.run, .degraded, .service]

/-- An open gate closes, and the time is kept (R471, R472). -/
def closeGate (g : Nat) (s : State) : State :=
  if s.outs.gate.getLsbD g then
    { s with outs := { s.outs with gate := s.outs.gate &&& ~~~(BitVec.twoPow 20 g),
                                   closedAt := tset 0 s.outs.closedAt g s.tb.tod } }
  else s

/-- Gates whose core has ceased to be present, or whose mode stops them, close (R471). -/
def closeGates (s : State) : State :=
  (List.range 20).foldl (fun s g => if corePresent s g && modeToggles s g then s else closeGate g s) s

/-- The CAN FD data length that a frame of n bytes is padded to (R500). -/
def fdLength (n : Nat) : Nat := (([12, 16, 20, 24, 32, 48].find? (fun k => n ≤ k)).map (fun k => if n ≤ 8 then n else k)).getD 64

/-- Append frames to what the module has sent on its two buses: nothing with all straps at 0 (R498). -/
def canSend (service prio : Nat) (dst : Nat) (tgl : Bool) (data : List Byte) (busB : Bool) (s : State) : State :=
  let id := 2 ^ 26 * prio + 2 ^ 20 * service + 2 ^ 13 * s.mgmt.straps.toNat + 2 ^ 6 * dst + 2 ^ 5 * tgl.toNat
  if s.mgmt.straps = 0 then s
  else if busB && !s.mgmt.joinedB || !busB && !s.mgmt.joinedA then s
  else { s with mgmt := { s.mgmt with
    canOut := s.mgmt.canOut ++ [{ busB := busB, id := BitVec.ofNat 29 id, data := fit (fdLength data.length) data }] } }

/-- A broadcast on both buses. -/
def canBroadcast (service prio : Nat) (data : List Byte) (s : State) : State :=
  canSend service prio 0 false data true (canSend service prio 0 false data false s)

/-- First bytes of a transfer payload (R501): index, subindex, flags. -/
def xferHead (r : DictReq) (flags : Nat) : List Byte := toBe 2 r.index.toNat ++ toBe 1 r.sub.toNat ++ toBe 1 flags

/-- A client's transfer ends, what of it waits in the K3 queue, and the answer to its mode request that waits (R502). -/
def dropXfer (busB : Bool) (c : BitVec 7) (s : State) : State :=
  { s with
    mgmt := { s.mgmt with
      transfers := s.mgmt.transfers.filter (fun t => t.busB != busB || t.client != c)
      k3 := s.mgmt.k3.filter (fun i => i.src != .can busB c) }
    md := { s.md with requests := s.md.requests.map (fun r =>
      if r.item.map (·.src) = some (.can busB c) then { r with ended := true } else r) } }

/-- WRITE_RSP (Table 18.9). -/
def writeRsp (busB : Bool) (c : BitVec 7) (r : DictReq) (code : Nat) (s : State) : State :=
  canSend 0x07 4 c.toNat false (xferHead r 0 ++ toBe 4 code) busB s

/-- The answer to a write on the transport it came by (R494, R497, R501). -/
def writeAnswer (i : K3Item) (code : Nat) (s : State) : State :=
  let s := answerWait i.since s
  match i.src with
  | .window z => s.updBox z (fun m => { m with done := true, busy := false, rlen := 0, abort := BitVec.ofNat 32 code })
  | .can busB c => writeRsp busB c i.req code (dropXfer busB c s)

/-- The answer to a mode request (R30, R34): to the item that asked, or on the command's own interface. -/
def answerMode (item : Option K3Item) (code : Nat) (s : State) : State :=
  match item with
  | some i => writeAnswer i code s
  | none => { s with resp := .dict (BitVec.ofNat 32 code) [] }

/-- A mode request that has waited is answered, unless no answer is due any more. -/
def answerWaited (r : ModeReq) (code : Nat) (s : State) : State := if r.ended then s else answerMode r.item code s

/-- NOTICE (R503): 16 bytes with the given leading bytes. -/
def notice (l : List Byte) (s : State) : State := canBroadcast 0x12 2 (fit 16 l) s

/-- One more fault in Encke's counts for the block's alive group, index 20 for ungrouped blocks (Table 17.13). -/
def enckeFault (b : Blk) (cls n : Nat) (s : State) : State :=
  let g := (aliveGroup s b).getD 20
  { s with encke := { s.encke with acc := { s.encke.acc with
    faults := tupd 0 s.encke.acc.faults (4 * g + (cls - 1)) (satAdd 0xFFFFFFFF n) } } }

/-- Number of a block's source in the storm tables. -/
def stormKey (b : Blk) (src : Nat) : Nat := blkNum b * 32 + src

/-- One occurrence of a C1 source is counted within its window of 1 s (R488). -/
def stormCount (b : Blk) (src : Nat) (s : State) : State :=
  let k := stormKey b src
  if s.now < msUnits 1000 + (tget 0 s.mgmt.stormAt k).toNat ∧ tget 0 s.mgmt.stormCnt k ≠ 0 then
    { s with mgmt := { s.mgmt with stormCnt := tupd 0 s.mgmt.stormCnt k (· + 1) } }
  else
    { s with mgmt := { s.mgmt with stormCnt := tset 0 s.mgmt.stormCnt k 1,
                                   stormAt := tset 0 s.mgmt.stormAt k s.tb.tod } }

/-- What the fault registers hold after a fault of class cls (R461, R462): latched when VALID is 0, else counted. -/
def latchRegs (b : Blk) (src inst info cls : Nat) (f : FaultRegs) : FaultRegs :=
  if !f.valid then
    { f with valid := true, cls := cls, source := sourceOf b src, inst := BitVec.ofNat 8 inst,
             info := BitVec.ofNat 32 info }
  else
    { f with ovf := true, higher := f.higher || decide (f.cls < cls), maxCls := Nat.max f.maxCls cls,
             count := satAdd 0xFFFFFFFF f.count 1 }

/-- A fault is latched or counted, unless its source is masked; a class of 2 or more closes the group's gate,
but a C4 source leaves ALIVE19 open (R461, R463, R471, R473). -/
def latch (b : Blk) (src inst info cls : Nat) (s : State) : State :=
  let f := s.flt b
  let c := effClass (blkKind b) f src cls
  let s := enckeFault b c 1 s
  let s := if f.mask.getLsbD src && maskable (blkKind b) f src then s
           else (if c = 1 then stormCount b src else id) (s.updFlt b (latchRegs b src inst info c))
  if c < 2 then s
  else match aliveGroup s b with
    | some g => if g = 19 ∧ c = 4 then s else closeGate g s
    | none => s

/-- Is a block's fault interrupt line asserted (R459)? -/
def lineAsserted (s : State) (b : Blk) : Bool :=
  let f := s.flt b
  let en := fun c => if c = 1 then f.ienC1 else true
  (f.valid && en f.cls) || (f.ovf && en f.maxCls)

/-- Change of mode with its cause: previous mode, cause code and NOTICE (R28, R503). -/
def setMode (m : Mode) (cause : Nat) (s : State) : State :=
  let s := { s with md := { s.md with prev := s.md.mode, mode := some m, cause := cause } }
  notice [BitVec.ofNat 8 (modeCode m), BitVec.ofNat 8 cause] (closeGates s)

/-- The debug port is disabled (R54, R55). -/
def debugOff (s : State) : State := { s with md := { s.md with dbgPort := false } }

/-- The transition in progress is not completed, and each waiting mode request ends with 0x0800_0022 (R34). -/
def cancelRequest (s : State) : State :=
  let l := s.md.requests
  l.foldl (fun s r => answerWaited r 0x08000022 s) { s with md := { s.md with requests := [], leaving := none } }

/-- Does a C4 source lie in the drain path (R36)? fab, drain, flash, or a controller that holds commit rank 0. -/
def inDrainPath : Blk → Bool
  | .fab => true
  | .drain => true
  | .flash => true
  | .mc _ => true
  | _ => false

/-- What a checkstop takes from a thread: buffered stores, released or not, the open transaction and the reservation;
it stops (R36, R186, R197). -/
def Thread.lose (t : Thread) : Thread := { t with sb := [], tx := none, resv := none, stamp := none, running := false }

/-- Every thread loses what a checkstop takes (R36). -/
def loseStores (s : State) : State :=
  { s with pus := s.pus.map (fun e => (e.1, { e.2 with t0 := e.2.t0.lose, t1 := e.2.t1.lose })) }

/-- Entry to M8 (R34, R36, R467, R475): the pulse on CHKSTOP_N, its level to 0, and the salvage drain unless the
copy is skipped. Only from M1 to M7. -/
def enterCheckstop (salvage : Bool) (s : State) : State :=
  if s.inMode [.provision, .restore, .run, .degraded, .service, .quiesced, .holdup] then
    let wasHoldup := s.inMode [.holdup]
    let s := debugOff (cancelRequest s)
    let s := { s with md := { s.md with preM8 := s.md.mode.getD .cold, held := false } }
    let s := setMode .checkstop 0x12 s
    let s := { s with outs := { s.outs with chkPulse := true, chkLvl := false } }
    let s := loseStores s
    { s with commit := { s.commit with
      phase := if salvage then (if wasHoldup then s.commit.phase else 1) else 7 } }
  else s

/-- CHK_FIRST after a C4 source (R468). -/
def chkRecord (b : Blk) (src : Nat) (s : State) : State :=
  let c := s.chk
  let c := { c with cnt := satAdd 255 c.cnt 1 }
  { s with chk := if c.valid then c else { c with valid := true, source := sourceOf b src, inst := blkInst b } }

/-- A class C4 fault (R467): latched, recorded, and the checkstop line asserted. -/
def raiseC4 (b : Blk) (src inst info : Nat) (salvage : Bool) (s : State) : State :=
  enterCheckstop (salvage && !inDrainPath b) (chkRecord b src (latch b src inst info 4 s))

end Sys2Proof.Machine
end

