-- ==== Sys2Proof/Machine/Access.lean ====
section
/-! DEFINITION. Access tables (chapter 16), memory contents by byte and line, DRAM geometry and segment translation. -/

namespace Sys2Proof.Machine

/-- AT_REGk of a table. -/
def atReg (t : AccTab) (k : Nat) : Word := tget (regDefault k) t.regs k

/-- AT_ROWmmm of table number n. -/
def atRow (n : Nat) (t : AccTab) (m : Nat) : Word := tget (rowDefault n m) t.rows m

/-- Assigned master IDs (Table 1.1): PUs, CEs, crypto, compression, drain, controllers, arbiter and management. -/
def masterAssigned (m : Nat) : Bool :=
  m < 48 || (64 ≤ m && m < 100) || m == 112 || m == 113 || m == 114 || m == 115 || m == 120 || m == 121 ||
  m == 126 || m == 127

/-- Is region k valid: V at 1, LOG2 from 16 to 52, BASE aligned to the size (R447)? -/
def regionValid (w : Word) : Bool :=
  bit 63 w && decide (16 ≤ fld 53 48 w) && decide (fld 53 48 w ≤ 52) &&
    decide (fld 35 0 w % 2 ^ (fld 53 48 w - 16) = 0)

/-- Does a valid region contain the physical address? -/
def regionHas (w : Word) (a : Nat) : Bool :=
  regionValid w && decide (a / 2 ^ (fld 53 48 w) = 65536 * fld 35 0 w / 2 ^ (fld 53 48 w))

/-- Rights of Table 16.15 that an access needs (R450): read, write, fetch. -/
def needs : AccKind → Bool × Bool × Bool
  | .read => (true, false, false)
  | .write => (false, true, false)
  | .fetch => (false, false, true)
  | .atomic => (true, true, false)
  | .mntRead => (true, false, false)
  | .mntWrite => (false, true, false)

/-- Do the lowest-numbered valid region with the address and the master's row grant the access (R450)? -/
def tableGrants (n : Nat) (t : AccTab) (a : Acc) (addr : Nat) (k : AccKind) : Bool :=
  match firstBelow 16 (fun i => regionHas (atReg t i) addr) with
  | none => false
  | some i =>
    let row := atRow n t a.master.toNat
    let (r, w, x) := needs k
    let zoneOk := !bit (4 * i) row ||
      (match a.zone with
       | some z => decide (z.val = fld 62 59 (atReg t i))
       | none => false)
    masterAssigned a.master.toNat && (!r || bit (4 * i + 3) row) && (!w || bit (4 * i + 2) row) &&
      (!x || bit (4 * i + 1) row) && zoneOk

/-- KIND of AT_LOG (Table 16.17). -/
def kindCode : AccKind → Nat
  | .read => 0 | .write => 1 | .fetch => 2 | .atomic => 3 | .mntRead => 3 | .mntWrite => 3

/-- Requester ID of a request (R11): master ID, thread bit and request class. -/
def requesterId (a : Acc) (cls : Nat) : Nat := a.master.toNat * 16 + a.th.toNat * 8 + cls

/-- The block that records a table's denials. -/
def tabBlk : TabId → Blk
  | .blk b => b
  | .dwin => .sns
  | .mgmtMem => .mgt
  | .group g => .mc ⟨5 * g.val + 4, by omega⟩

/-- A denial (R451): counted, the first one latched in AT_LOG, ATAB_DENY recorded at the target. -/
def deny (t : TabId) (a : Acc) (addr : Nat) (k : AccKind) (cls : Nat) (s : State) : State :=
  let s := s.updTab t (fun x =>
    { x with
      denyCnt := satAdd 0xFFFFFFFF x.denyCnt 1
      log := if bit 63 x.log then x.log else
        mkw [(63, 1), (61, kindCode k), (60, a.zone.isSome.toNat), (56, (a.zone.map (·.val)).getD 0),
             (44, requesterId a cls), (0, addr / 256 % 2 ^ 44)] })
  latch (tabBlk t) 3 0 0 1 s

/-- Is the access granted by the table? -/
def granted (s : State) (t : TabId) (a : Acc) (addr : Nat) (k : AccKind) : Bool :=
  tableGrants (tabNum t) (s.tab t) a addr k

/-- Memory group of a line (R295). -/
def lineGroup (l : Nat) : Fin 4 :=
  ⟨(nbits 9 8 l ^^^ nbits 17 16 l ^^^ nbits 25 24 l) % 4, Nat.mod_lt _ (by decide)⟩

/-- Group-local line index of a line (R295). -/
def lineLI (l : Nat) : Nat := 256 * nbits 33 10 l + nbits 7 0 l

/-- Line with index LI in group g: the inverse of the mapping of R295. -/
def lineOf (g li : Nat) : Nat :=
  let hi := li / 256
  let l0 := 1024 * hi + li % 256
  l0 + 256 * ((g ^^^ nbits 17 16 l0 ^^^ nbits 25 24 l0) % 4)

/-- Rank of a line (Table 11.2), below 4. -/
def lineRank (s : State) (l : Nat) : Nat :=
  lineLI l / 2 ^ (1 + 2 + 3 + (s.dimms.c - 2) + 2 + s.dimms.r) % 2 ^ s.dimms.k

/-- Usable DRAM in bytes. -/
def dramTop (s : State) : Nat := 2 ^ 30 * s.dimms.u

/-- Is the line populated DRAM (Table 19.1)? -/
def isDram (s : State) (l : Nat) : Bool := decide (256 * l < dramTop s)

/-- Size of the commit region in bytes: S GiB while it is configured (R322). -/
def commitTop (s : State) : Nat := 2 ^ 30 * s.commit.size.toNat

/-- Is the line in the commit region? -/
def isCommit (s : State) (l : Nat) : Bool := decide (256 * l < commitTop s)

/-- Commit block of a line (R324). -/
def lineBlock (l : Nat) : Nat := l / 1024

/-- The canonical form of memory: addresses strictly rising, no byte equal to 0, what an unlisted address reads as. -/
def Memory.wf (m : List Host.Cell) : Bool := twf 0 m

/-- n bytes of coherent memory from address a. -/
def State.rd (s : State) (a n : Nat) : List Byte := (List.range n).map (fun i => tget 0 s.mem (a + i))

/-- Memory with the bytes l put at address a. -/
def memPut : List Host.Cell → Nat → List Byte → List Host.Cell
  | m, _, [] => m
  | m, a, b :: l => memPut (tset 0 m a b) (a + 1) l

/-- Memory with (address, byte) pairs put in place. -/
def memPuts (m : List Host.Cell) (l : List (Nat × Byte)) : List Host.Cell :=
  l.foldl (fun m e => tset 0 m e.1 e.2) m

/-- The state with bytes stored in coherent memory. -/
def State.wr (s : State) (a : Nat) (l : List Byte) : State := { s with mem := memPut s.mem a l }

/-- The cells of a memory that lie in a line. -/
def lineCells (m : List Host.Cell) (l : Nat) : List Host.Cell := m.filter (fun c => c.1 / 256 == l)

/-- Memory m with line l as it is in memory src. -/
def copyLine (src m : List Host.Cell) (l : Nat) : List Host.Cell :=
  memPuts (m.filter (fun c => c.1 / 256 != l)) (lineCells src l)

/-- The coherent value of a line reaches the memory controllers. -/
def State.flushLine (s : State) (l : Nat) : State := { s with dram := copyLine s.mem s.dram l }

/-- A cached copy of a line is lost: the value at the controllers counts again. -/
def State.dropLine (s : State) (l : Nat) : State := { s with mem := copyLine s.dram s.mem l }

/-- Bytes stored so that the controllers hold them too. -/
def State.wrThrough (s : State) (a : Nat) (l : List Byte) : State :=
  { s with mem := memPut s.mem a l, dram := memPut s.dram a l }

/-- A line is poisoned (R300). -/
def State.addPoison (s : State) (l : Nat) : State :=
  if s.poison.contains l then s else { s with poison := l :: s.poison }

/-- A line is whole again after a full write. -/
def State.clearPoison (s : State) (l : Nat) : State := { s with poison := s.poison.filter (· != l) }

/-- Is a line poisoned? -/
def State.poisoned (s : State) (l : Nat) : Bool := s.poison.contains l

/-- Kind of a segment entry (Table 6.7). -/
def segKind (w : Word) : Nat := fld 23 22 w

/-- PSEG of a segment entry. -/
def segPseg (w : Word) : Nat := fld 21 0 w

/-- Segment store entry of zone z at index i (R157). -/
def State.segEntry (s : State) (z i : Nat) : Word := tget 0 (s.zone z).seg i

/-- Memory type that a segment kind gives with translation off (Table 6.7). -/
def kindType : Nat → MemType
  | 0 => .normal
  | 1 => .commit
  | _ => .device

/-- Is a memory type permitted in a segment kind (Table 6.7)? -/
def typeInKind (mt : MemType) (kind : Nat) : Bool :=
  match mt with
  | .normal => kind == 0
  | .normalNA => kind == 0
  | .commit => kind == 1
  | .device => kind == 2

/-- Segment translation (R144, R157): physical address and kind; none where the entry has V at 0. -/
def segTrans (s : State) (z zpa : Nat) : Option (Nat × Nat) :=
  let e := s.segEntry z (zpa / 2 ^ 30 % 4096)
  if bit 63 e then some (2 ^ 30 * segPseg e + zpa % 2 ^ 30, segKind e) else none

/-- Do a line's home and controllers answer: home island up, every rank of the line's number ON in every channel that is
not the group's fenced one (R17, R303)? A COMMIT line needs the commit region ON as well (R323). -/
def lineAnswers (s : State) (l : Nat) : Bool :=
  let g := lineGroup l
  let r : Fin 4 := Fin.ofNat 4 (lineRank s l)
  !(s.grp g).lost && islandUp s (.home g) &&
  (List.finRange 20).all (fun m => m.val / 5 != g.val || (s.grp g).failed == some (m.val % 5) ||
    (s.lcs (.rank m r) == .on && islandUp s (.mc m))) &&
  (!isCommit s l || s.lcs .commit == .on)

/-- Does a master's request for a line get through: the home answers, and the fabric does for every master but the PUs of
the home's own quadrant (R17, Table 1.3; assumption 76)? -/
def reachesLine (s : State) (a : Acc) (l : Nat) : Bool :=
  lineAnswers s l &&
    ((decide (a.master.toNat < 48) && decide (a.master.toNat / 12 = (lineGroup l).val)) || islandUp s .fab)

/-- The block of a master ID (Table 0.4). -/
def masterBlk (m : Nat) : Blk :=
  if h : m < 48 then .pu ⟨m, h⟩
  else if h : 64 ≤ m ∧ m < 100 then .ce ⟨m - 64, by omega⟩
  else if m = 0x70 then .crypto
  else if m = 0x71 then .comp
  else if m = 0x72 then .drain
  else if m = 0x7E then .dbg
  else if m = 0x7F then .fab
  else .mgt

/-- The block that sends a master's requests (Table 0.4); the controllers' own accesses to a line are its group's (DESIGN
CHOICE, assumption 53). -/
def senderBlk (a : Acc) (pa : Nat) : Blk :=
  if a.master = 0x73 then .mc ⟨5 * (lineGroup (pa / 256)).val, by have := (lineGroup (pa / 256)).isLt; omega⟩
  else masterBlk a.master.toNat

/-- Does a master report an error of its own as a fault of its unit: neither a PU, nor an engine, nor an accelerator (R451)? -/
def otherMaster (m : Nat) : Bool := m == 0x72 || m == 0x73 || m == 0x78 || m == 0x79 || m == 0x7E || m == 0x7F

/-- The error of such a master is a class C2 fault of its own unit (R451, R512). Table 17.8 names no source for it: index,
INST and INFO are free values, of an index that no mask bit covers (assumption 53). -/
def masterFault (a : Acc) (pa : Nat) (s : State) : State :=
  if otherMaster a.master.toNat then
    let (v, s) := s.draw 48
    latch (senderBlk a pa) (32 + nbits 7 0 v.toNat % 224) (nbits 15 8 v.toNat) (nbits 47 16 v.toNat) 2 s
  else s

/-- How DRAM answers a master's request for an address before any data: unpopulated 2, denied 2 (recorded), FENCED 3. -/
def dramAnswer (a : Acc) (pa : Nat) (k : AccKind) (cls : Nat) (s : State) : Option Nat × State :=
  let l := pa / 256
  if !isDram s l then (some 2, masterFault a pa s)
  else
    let t : TabId := .group (lineGroup l)
    if !granted s t a pa k then (some 2, masterFault a pa (deny t a pa k cls s))
    else if !reachesLine s a l then (some 3, s)
    else (none, s)

/-- A posted write into a fenced channel is recorded at the block that sent it (R17). -/
def fencedSender (a : Acc) (pa : Nat) (s : State) : State :=
  latch (senderBlk a pa) 0 0 (pa / 256 % 2 ^ 32) 1 s

/-- Answer of a home to a request; a posted write that is discarded as FENCED is recorded at its sender (R17, R451). -/
def asked (a : Acc) (pa : Nat) (k : AccKind) (cls : Nat) (s : State) : Option Nat × State :=
  match dramAnswer a pa k cls s with
  | (some 3, s) => (some 3, if k = .write then fencedSender a pa s else s)
  | r => r

end Sys2Proof.Machine
end

