-- ==== Sys2Proof/Machine/Ops.lean ====
section
/-! DEFINITION. The named operations on a thread: registers, status bits, taking an exception and returning from one. -/

namespace Sys2Proof.Machine

/-- Gn: no general register is hard-wired (R56). -/
def Arch.rg (a : Arch) (n : BitVec 5) : Word := tget 0 a.g n.toNat

/-- Gn := v (R56). -/
def Arch.wg (a : Arch) (n : BitVec 5) (v : Word) : Arch := { a with g := tset 0 a.g n.toNat v }

/-- Fn (R57). -/
def Arch.rf (a : Arch) (n : BitVec 5) : Quad := tget 0 a.f n.toNat

/-- Fn := v (R57). -/
def Arch.wf (a : Arch) (n : BitVec 5) (v : Quad) : Arch := { a with f := tset 0 a.f n.toNat v }

/-- Fn := v in its low 64 bits, the high bits zero (R57). -/
def Arch.wfd (a : Arch) (n : BitVec 5) (v : Word) : Arch := a.wf n (v.setWidth 128)

/-- Bits 63:0 of Fn (R57). -/
def Arch.rfd (a : Arch) (n : BitVec 5) : Word := (a.rf n).setWidth 64

/-- LK (R56). -/
def rLK : BitVec 5 := 30

/-- SP (R56). -/
def rSP : BitVec 5 := 31

/-- Set or clear bit i of a word. -/
def putBit (i : Nat) (v : Bool) (w : Word) : Word :=
  if v then w ||| BitVec.twoPow 64 i else w &&& ~~~(BitVec.twoPow 64 i)

/-- Problem state (Table 3.2). -/
def Arch.problem (a : Arch) : Bool := bit 19 a.sw

/-- Condition flags, as a structure of four. -/
def Arch.flags (a : Arch) : Bool × Bool × Bool × Bool := (bit 31 a.sw, bit 30 a.sw, bit 29 a.sw, bit 28 a.sw)

/-- N, Z, C and V set; every other bit of S.SW keeps its value. -/
def Arch.setFlags (a : Arch) (n z c v : Bool) : Arch :=
  { a with sw := putBit 31 n (putBit 30 z (putBit 29 c (putBit 28 v a.sw))) }

/-- S.ECAUSE (Table 3.11). -/
def mkCause (code : Nat) (w len : Bool) (detail vec : Nat) : Word :=
  mkw [(32, code % 1024), (17, w.toNat), (16, len.toNat), (8, detail % 256), (0, vec % 64)]

/-- Address of a vector (R77). -/
def vectorAt (a : Arch) (vec : Nat) : Word := a.vbar + BitVec.ofNat 64 (256 * vec)

/-- TAKING AN EXCEPTION (R78): the status, return address, cause, address and instruction are saved; PS, IE and RN
become 0; the thread continues at its vector. -/
def enterVector (a : Arch) (vec : Nat) (epc cause eaddr eins : Word) : Arch :=
  { a with
    esw := a.sw, epc := epc, ecause := cause, eaddr := eaddr, eins := eins
    sw := putBit 19 false (putBit 18 false (putBit 17 false a.sw))
    pc := vectorAt a vec }

/-- RETURN FROM AN EXCEPTION (R80): S.SW := S.ESW, but T stays as it is, and the thread continues at S.EPC. -/
def returnFrom (a : Arch) : Arch := { a with sw := putBit 23 (bit 23 a.sw) a.esw, pc := a.epc }

/-- Boundary events and exceptions end the reservation (R78, R189) and a start stamp (R253), and empty the fetch latch
(R218). -/
def Thread.enter (t : Thread) (vec : Nat) (epc cause eaddr eins : Word) : Thread :=
  { t with arch := enterVector t.arch vec epc cause eaddr eins, resv := none, stamp := none, fetchLatch := none, wait := .none, touch := [] }

/-- A store-buffer entry that is not released is squashed (R186). -/
def keepReleased : SbItem → Bool
  | .store e => e.released
  | .marker => true

/-- A store of an open transaction. -/
def isTxStore : SbItem → Bool
  | .store e => e.tx
  | .marker => false

/-- A recovered machine-check note arrives (R79, R271): merged with one that is pending; it carries the higher
detail, and CODE counts the merged notes. A note with which none was merged counts as 1 (DESIGN CHOICE, assumption 77). -/
def Thread.addNote (t : Thread) (detail : Nat) : Thread :=
  { t with note := match t.note with
      | none => some (detail, 1)
      | some (d, n) => some (Nat.max d detail, satAdd 1023 n 1) }

/-- Every thread number of a PU that the state lists. -/
def State.threads (s : State) : List (Nat × Bool) := s.pus.flatMap (fun e => [(e.1, false), (e.1, true)])

end Sys2Proof.Machine
end

