-- ==== Sys2Proof/Machine/Encode.lean ====
section
/-! DEFINITION. The words of VA4 instructions (Tables 3.3 to 3.5 and 3.12), as S.EINS holds them. -/

namespace Sys2Proof.Machine

/-- S.EINS of a one-word instruction. -/
def ins1 (cond : BitVec 4) (opc low : Nat) : Word := mkw [(60, cond.toNat), (54, opc), (32, low)]

/-- Format T (Table 3.3). -/
def encT (h : Hdr) (opc fn : Nat) (d a b : BitVec 5) (s : Bool) : Word :=
  ins1 h.cond opc (d.toNat * 131072 + a.toNat * 4096 + b.toNat * 128 + s.toNat * 64 + fn)

/-- Format T of an operand record. -/
def encT3 (h : Hdr) (opc fn : Nat) (o : T3) : Word := encT h opc fn o.d o.a o.b o.s

/-- Format T of a unary operand record. -/
def encT2 (h : Hdr) (opc fn : Nat) (o : T2) : Word := encT h opc fn o.d o.a 0 o.s

/-- Format Q. -/
def encQ (h : Hdr) (opc fn : Nat) (o : Q4) : Word :=
  ins1 h.cond opc (o.d.toNat * 131072 + o.a.toNat * 4096 + o.b.toNat * 128 + o.c.toNat * 4 + fn)

/-- Format I. -/
def encI (h : Hdr) (opc : Nat) (d a : BitVec 5) (imm : BitVec 12) : Word :=
  ins1 h.cond opc (d.toNat * 131072 + a.toNat * 4096 + imm.toNat)

/-- Format J. -/
def encJ (h : Hdr) (opc : Nat) (d : BitVec 5) (imm : BitVec 17) : Word :=
  ins1 h.cond opc (d.toNat * 131072 + imm.toNat)

/-- Format N. -/
def encN (h : Hdr) (opc : Nat) (o : MemX) : Word :=
  ins1 h.cond opc (o.t.toNat * 131072 + o.a.toNat * 4096 + o.x.toNat * 128 + o.am.toNat * 16 + o.sm.toNat * 4 + o.sz.toNat)

/-- Format B. -/
def encB (h : Hdr) (opc : Nat) (disp : BitVec 22) : Word := ins1 h.cond opc disp.toNat

/-- Format C. -/
def encC (h : Hdr) (opc : Nat) (b : BitVec 5) (mask : BitVec 16) : Word :=
  ins1 h.cond opc (b.toNat * 131072 + mask.toNat)

/-- Format S. -/
def encS (h : Hdr) (opc : Nat) (g : BitVec 5) (sn : BitVec 12) : Word := ins1 h.cond opc (g.toNat * 131072 + sn.toNat)

/-- Format X: both words of a long form. -/
def encX (h : Hdr) (xop : Nat) (d a : BitVec 5) (imm : BitVec 32) : Word :=
  ins1 h.cond 0x3F (xop * 65536 + d.toNat * 2048 + a.toNat * 64) ||| imm.setWidth 64

end Sys2Proof.Machine
end

