-- ==== Sys2Proof/Machine/Alg.lean ====
section
/-! DEFINITION. The published algorithms that Table 15.2 and R409 name: AES and its modes, TDEA, the SHA-2 and SHA-3 hashes,
HMAC, ECDSA over P-256 and P-384, CRC-32, Adler-32 (PRESUMED: the spec names the standards and does not reproduce them). -/

namespace Sys2Proof.Machine

/-- Exclusive or of two byte strings, as long as the shorter. -/
def xorBytes (a b : List Byte) : List Byte := List.zipWith (fun (x y : Byte) => x ^^^ y) a b

/-- Pieces of n bytes; the last may be shorter. Fuel bounds their number. -/
def chunks (n : Nat) : Nat → List Byte → List (List Byte)
  | 0, _ => []
  | fuel + 1, l => if l.isEmpty then [] else l.take n :: chunks n fuel (l.drop n)

/-- Pieces of n bytes of a byte string. -/
def pieces (n : Nat) (l : List Byte) : List (List Byte) := chunks n (l.length + 1) l

/- AES (FIPS 197). -/

/-- Multiplication by x in GF(2^8). -/
def xtime (b : Byte) : Byte := if b.getLsbD 7 then (b <<< 1) ^^^ 0x1B else b <<< 1

/-- Multiplication in GF(2^8). -/
def gfMul (a b : Byte) : Byte :=
  ((List.range 8).foldl (fun (r : Byte × Byte) i => (if b.getLsbD i then r.1 ^^^ r.2 else r.1, xtime r.2)) (0, a)).1

/-- Inverse in GF(2^8), 0 for 0: the power 254. -/
def gfInv (a : Byte) : Byte :=
  ((List.range 7).foldl (fun (r : Byte × Byte) _ => let q := gfMul r.2 r.2; (gfMul r.1 q, q)) (1, a)).1

/-- SubBytes on one byte. -/
def subByte (b : Byte) : Byte :=
  let x := gfInv b
  x ^^^ x.rotateLeft 1 ^^^ x.rotateLeft 2 ^^^ x.rotateLeft 3 ^^^ x.rotateLeft 4 ^^^ 0x63

/-- InvSubBytes on one byte. -/
def invSubByte (b : Byte) : Byte := gfInv (b.rotateLeft 1 ^^^ b.rotateLeft 3 ^^^ b.rotateLeft 6 ^^^ 0x05)

/-- ShiftRows, and its inverse with k = 3, on 16 bytes in column order. -/
def shiftRows (k : Nat) (b : List Byte) : List Byte :=
  (List.range 16).map (fun i => b.getD ((i / 4 + k * (i % 4)) % 4 * 4 + i % 4) 0)

/-- Each column times a circulant matrix with first row m. -/
def mixBy (m : List Byte) (b : List Byte) : List Byte :=
  (List.range 16).map (fun i => (List.range 4).foldl (fun (x : Byte) j =>
    x ^^^ gfMul (m.getD ((j + 4 - i % 4) % 4) 0) (b.getD (i / 4 * 4 + j) 0)) 0)

/-- MixColumns. -/
def mixColumns : List Byte → List Byte := mixBy [2, 3, 1, 1]

/-- InvMixColumns. -/
def invMixColumns : List Byte → List Byte := mixBy [14, 11, 13, 9]

/-- The next words of the key schedule; ws holds those before, oldest first. -/
def keyWords (nk : Nat) : Nat → List (List Byte) → List (List Byte)
  | 0, ws => ws
  | n + 1, ws =>
    let i := ws.length
    let t := ws.getD (i - 1) []
    let rcon : Byte := (List.range (i / nk - 1)).foldl (fun b _ => xtime b) 1
    let t := if i % nk = 0 then xorBytes ((t.drop 1 ++ t.take 1).map subByte) [rcon, 0, 0, 0]
      else if nk = 8 ∧ i % nk = 4 then t.map subByte else t
    keyWords nk n (ws ++ [xorBytes (ws.getD (i - nk) []) t])

/-- Round keys of a 16- or 32-byte key. -/
def roundKeys (key : List Byte) : List (List Byte) :=
  let nk := key.length / 4
  let ws := keyWords nk (4 * (nk + 7) - nk) (pieces 4 key)
  (List.range (nk + 7)).map (fun i => (List.range 4).flatMap (fun j => ws.getD (4 * i + j) []))

/-- AES encryption of one block under round keys. -/
def aesEncR (rk : List (List Byte)) (b : List Byte) : List Byte :=
  let n := rk.length - 1
  let b := (List.range (n - 1)).foldl (fun b i =>
    xorBytes (mixColumns (shiftRows 1 (b.map subByte))) (rk.getD (i + 1) [])) (xorBytes b (rk.getD 0 []))
  xorBytes (shiftRows 1 (b.map subByte)) (rk.getD n [])

/-- AES decryption of one block under round keys. -/
def aesDecR (rk : List (List Byte)) (b : List Byte) : List Byte :=
  let n := rk.length - 1
  let b := (List.range (n - 1)).foldl (fun b i =>
    invMixColumns (xorBytes ((shiftRows 3 b).map invSubByte) (rk.getD (n - 1 - i) []))) (xorBytes b (rk.getD n []))
  xorBytes ((shiftRows 3 b).map invSubByte) (rk.getD 0 [])

/-- AES encryption of one block. -/
def aesEnc (key b : List Byte) : List Byte := aesEncR (roundKeys key) b

/-- AES decryption of one block. -/
def aesDec (key b : List Byte) : List Byte := aesDecR (roundKeys key) b

/- GCM (SP 800-38D). -/

/-- Multiplication in GF(2^128), bit 127 the first. -/
def gf128 (x y : Quad) : Quad :=
  ((List.range 128).foldl (fun (r : Quad × Quad) i =>
    (if x.getLsbD (127 - i) then r.1 ^^^ r.2 else r.1,
     if r.2.getLsbD 0 then (r.2 >>> 1) ^^^ (0xE1#128 <<< 120) else r.2 >>> 1)) (0, y)).1

/-- GHASH of whole blocks, from a value. -/
def ghash (h : Quad) (y : Quad) (blocks : List (List Byte)) : Quad :=
  blocks.foldl (fun y b => gf128 (y ^^^ BitVec.ofNat 128 (ofBe (fit 16 b))) h) y

/-- The n bytes of key stream from counter c0 + 1 on. -/
def ctrStream (rk : List (List Byte)) (nonce : List Byte) (c0 n : Nat) : List Byte :=
  ((List.range ((n + 15) / 16)).flatMap (fun i => aesEncR rk (nonce ++ toBe 4 (c0 + 1 + i)))).take n

/-- GCM's encryption and decryption of data under a 12-byte nonce. -/
def gcmCrypt (key nonce data : List Byte) : List Byte :=
  xorBytes data (ctrStream (roundKeys key) nonce 1 data.length)

/-- GCM's tag over associated data and ciphertext. -/
def gcmTag (key nonce aad ct : List Byte) : List Byte :=
  let rk := roundKeys key
  let h := BitVec.ofNat 128 (ofBe (aesEncR rk (List.replicate 16 0)))
  let y := ghash h (ghash h (ghash h 0 (pieces 16 aad)) (pieces 16 ct)) [toBe 8 (8 * aad.length) ++ toBe 8 (8 * ct.length)]
  xorBytes (toBe 16 y.toNat) (aesEncR rk (nonce ++ toBe 4 1))

/- XTS (SP 800-38E). -/

/-- Number of a byte string, least significant byte first. -/
def ofLe (l : List Byte) : Nat := ofBe l.reverse

/-- The tweak times alpha. -/
def xtsNext (t : List Byte) : List Byte :=
  let v := 2 * ofLe t
  toLe 16 (if v < 2 ^ 128 then v else (v % 2 ^ 128) ^^^ 0x87)

/-- The blocks of one data unit. -/
def xtsUnit (enc : Bool) (rk : List (List Byte)) (t : List Byte) (blocks : List (List Byte)) : List Byte :=
  (blocks.foldl (fun (r : List Byte × List Byte) b =>
    let x := xorBytes b r.2
    (r.1 ++ xorBytes (if enc then aesEncR rk x else aesDecR rk x) r.2, xtsNext r.2)) ([], t)).1

/-- XTS over data units of n bytes: key is both AES-256 keys, iv the tweak of the first unit; each further unit's tweak is
one more. -/
def xts (enc : Bool) (key iv : List Byte) (n : Nat) (data : List Byte) : List Byte :=
  let k1 := roundKeys (key.take 32)
  let k2 := roundKeys (key.drop 32)
  ((pieces n data).zipIdx).flatMap (fun u =>
    xtsUnit enc k1 (aesEncR k2 (toLe 16 ((ofLe iv + u.2) % 2 ^ 128))) (pieces 16 u.1))

/- CMAC (SP 800-38B). -/

/-- Doubling in GF(2^128) for the subkeys. -/
def cmacDouble (b : List Byte) : List Byte :=
  let v := 2 * ofBe b
  toBe 16 (if v < 2 ^ 128 then v else (v % 2 ^ 128) ^^^ 0x87)

/-- AES-CMAC. -/
def aesCmac (key data : List Byte) : List Byte :=
  let rk := roundKeys key
  let k1 := cmacDouble (aesEncR rk (List.replicate 16 0))
  let n := Nat.max 1 ((data.length + 15) / 16)
  let last := data.drop (16 * (n - 1))
  let last := if last.length = 16 then xorBytes last k1 else xorBytes (fit 16 (last ++ [0x80])) (cmacDouble k1)
  (pieces 16 (data.take (16 * (n - 1))) ++ [last]).foldl (fun c b => aesEncR rk (xorBytes c b)) (List.replicate 16 0)

/- SHA-2 (FIPS 180-4). -/

/-- The first 80 primes. -/
def primes80 : List Nat :=
  ((List.range 410).filter (fun n => decide (2 ≤ n) && (List.range n).all (fun d => decide (d < 2) || n % d != 0))).take 80

/-- The largest x below 2^bits with p x, bit by bit. -/
def largestBy (p : Nat → Bool) : Nat → Nat → Nat
  | 0, acc => acc
  | b + 1, acc => largestBy p b (if p (acc + 2 ^ b) then acc + 2 ^ b else acc)

/-- w bits of the fraction of the k-th root of a prime (k = 2 or 3). -/
def rootBits (k w p : Nat) : Nat := largestBy (fun x => decide (x ^ k ≤ p * 2 ^ (k * w))) (w + 6) 0 % 2 ^ w

/-- Round constants and initial values. -/
def sha256K : List (BitVec 32) := (primes80.take 64).map (fun p => BitVec.ofNat 32 (rootBits 3 32 p))
/-- Round constants of SHA-512. -/
def sha512K : List Word := primes80.map (fun p => BitVec.ofNat 64 (rootBits 3 64 p))
/-- Initial value of SHA-256. -/
def sha256H : List (BitVec 32) := (primes80.take 8).map (fun p => BitVec.ofNat 32 (rootBits 2 32 p))
/-- Initial value of SHA-512. -/
def sha512H : List Word := (primes80.take 8).map (fun p => BitVec.ofNat 64 (rootBits 2 64 p))
/-- Initial value of SHA-384. -/
def sha384H : List Word := ((primes80.drop 8).take 8).map (fun p => BitVec.ofNat 64 (rootBits 2 64 p))

/-- The message with its padding, to blocks of n bytes with a length field of m bytes. -/
def shaPad (n m : Nat) (d : List Byte) : List Byte :=
  let z := (2 * n - (d.length + 1 + m) % n) % n
  d ++ [0x80] ++ List.replicate z 0 ++ toBe m (8 * d.length)

/-- One round of either width, from the round's word and constant. -/
def shaRound {w : Nat} (r1 r2 : BitVec w → BitVec w) (v : List (BitVec w)) (kw : BitVec w) : List (BitVec w) :=
  match v with
  | [a, b, c, d, e, f, g, h] =>
    let t1 := h + r1 e + ((e &&& f) ^^^ (~~~e &&& g)) + kw
    let t2 := r2 a + ((a &&& b) ^^^ (a &&& c) ^^^ (b &&& c))
    [t1 + t2, a, b, c, d + t1, e, f, g]
  | _ => v

/-- The message schedule, newest word first. -/
def shaSched {w : Nat} (s0 s1 : BitVec w → BitVec w) : Nat → List (BitVec w) → List (BitVec w)
  | 0, l => l
  | n + 1, l => shaSched s0 s1 n ((s1 (l.getD 1 0) + l.getD 6 0 + s0 (l.getD 14 0) + l.getD 15 0) :: l)

/-- SHA-256. -/
def sha256Alg (d : List Byte) : List Byte :=
  let rr := fun (x : BitVec 32) (n : Nat) => x.rotateRight n
  let h := (pieces 64 (shaPad 64 8 d)).foldl (fun (h : List (BitVec 32)) b =>
    let w0 := (pieces 4 b).map (fun x => BitVec.ofNat 32 (ofBe x))
    let ws := (shaSched (fun x => rr x 7 ^^^ rr x 18 ^^^ (x >>> 3)) (fun x => rr x 17 ^^^ rr x 19 ^^^ (x >>> 10)) 48 w0.reverse).reverse
    let v := (List.zipWith (fun (k w : BitVec 32) => k + w) sha256K ws).foldl
      (shaRound (fun x => rr x 6 ^^^ rr x 11 ^^^ rr x 25) (fun x => rr x 2 ^^^ rr x 13 ^^^ rr x 22)) h
    List.zipWith (fun (a b : BitVec 32) => a + b) h v) sha256H
  h.flatMap (fun x => toBe 4 x.toNat)

/-- SHA-512 from an initial value. -/
def sha512From (iv : List Word) (d : List Byte) : List Byte :=
  let rr := fun (x : Word) (n : Nat) => x.rotateRight n
  let h := (pieces 128 (shaPad 128 16 d)).foldl (fun (h : List Word) b =>
    let w0 := (pieces 8 b).map (fun x => BitVec.ofNat 64 (ofBe x))
    let ws := (shaSched (fun x => rr x 1 ^^^ rr x 8 ^^^ (x >>> 7)) (fun x => rr x 19 ^^^ rr x 61 ^^^ (x >>> 6)) 64 w0.reverse).reverse
    let v := (List.zipWith (fun (k w : Word) => k + w) sha512K ws).foldl
      (shaRound (fun x => rr x 14 ^^^ rr x 18 ^^^ rr x 41) (fun x => rr x 28 ^^^ rr x 34 ^^^ rr x 39)) h
    List.zipWith (fun (a b : Word) => a + b) h v) iv
  h.flatMap (fun x => toBe 8 x.toNat)

/- SHA-3 (FIPS 202). -/

/-- Bit t of the round-constant generator. -/
def keccakRc (t : Nat) : Bool :=
  ((List.range (t % 255)).foldl (fun (r : Nat) _ => let x := 2 * r; if x < 256 then x else (x % 256) ^^^ 0x71) 1) % 2 == 1

/-- Round constants. -/
def keccakIota : List Word := (List.range 24).map (fun i =>
  (List.range 7).foldl (fun (w : Word) j => if keccakRc (j + 7 * i) then w ^^^ BitVec.twoPow 64 (2 ^ j - 1) else w) 0)

/-- Rotation of each lane (5 y + x), by the walk of FIPS 202. -/
def keccakRot : List Nat :=
  let walk := ((List.range 24).foldl (fun (r : List (Nat × Nat) × Nat × Nat) t =>
    let (x, y) := r.2
    (r.1 ++ [(5 * y + x, (t + 1) * (t + 2) / 2 % 64)], y, (2 * x + 3 * y) % 5)) ([], 1, 0)).1
  (List.range 25).map (fun i => match walk.find? (fun e => e.1 == i) with | some e => e.2 | none => 0)

/-- One round of Keccak-f[1600]. -/
def keccakRound (a : List Word) (rc : Word) : List Word :=
  let at_ := fun (l : List Word) (x y : Nat) => l.getD (5 * (y % 5) + x % 5) 0
  let c := (List.range 5).map (fun x => (List.range 5).foldl (fun (w : Word) y => w ^^^ at_ a x y) 0)
  let d := (List.range 5).map (fun x => c.getD ((x + 4) % 5) 0 ^^^ (c.getD ((x + 1) % 5) 0).rotateLeft 1)
  let a := (List.range 25).map (fun i => a.getD i 0 ^^^ d.getD (i % 5) 0)
  let r := (List.range 25).map (fun i => (a.getD i 0).rotateLeft (keccakRot.getD i 0))
  let b := (List.range 25).map (fun i => let y := i / 5; let x := i % 5; at_ r (x + 3 * y) x)
  let e := (List.range 25).map (fun i => let y := i / 5; let x := i % 5; at_ b x y ^^^ (~~~(at_ b (x + 1) y) &&& at_ b (x + 2) y))
  match e with
  | w :: l => (w ^^^ rc) :: l
  | [] => []

/-- Keccak-f[1600]. -/
def keccakF (a : List Word) : List Word := keccakIota.foldl keccakRound a

/-- SHA-3 with an output of n bytes. -/
def sha3Alg (n : Nat) (d : List Byte) : List Byte :=
  let rate := 200 - 2 * n
  let z := rate - 1 - d.length % rate
  let p := if z = 0 then d ++ [0x86] else d ++ [0x06] ++ List.replicate (z - 1) 0 ++ [0x80]
  let st := (pieces rate p).foldl (fun (a : List Word) b =>
    keccakF ((List.range 25).map (fun i => a.getD i 0 ^^^ BitVec.ofNat 64 (ofLe (slice (fit 200 b) (8 * i) 8))))) (List.replicate 25 0)
  (st.flatMap (fun w => toLe 8 w.toNat)).take n

/-- The hash numbered as OP − 0x08 of Table 15.2. -/
def hashAlg : Nat → List Byte → List Byte
  | 0, d => sha256Alg d
  | 1, d => (sha512From sha384H d).take 48
  | 2, d => sha512From sha512H d
  | 3, d => sha3Alg 32 d
  | 4, d => sha3Alg 48 d
  | _, d => sha3Alg 64 d

/-- Block size of a hash, for HMAC. -/
def hashBlock : Nat → Nat
  | 0 => 64 | 1 => 128 | 2 => 128 | 3 => 136 | 4 => 104 | _ => 72

/-- HMAC (FIPS 198-1); the key is no longer than a block. -/
def hmacAlg (n : Nat) (key d : List Byte) : List Byte :=
  let k := fit (hashBlock n) key
  hashAlg n (k.map (fun b => b ^^^ 0x5C) ++ hashAlg n (k.map (fun b => b ^^^ 0x36) ++ d))

/- TDEA (SP 800-67). -/

/-- Bits of x (n of them, the first the most significant) picked by 1-based positions. -/
def pickBits (n : Nat) (ps : List Nat) (x : Nat) : Nat := ps.foldl (fun r p => 2 * r + x / 2 ^ (n - p) % 2) 0

/-- Initial permutation. -/
def desIP : List Nat := [58, 60, 62, 64, 57, 59, 61, 63].flatMap (fun a => (List.range 8).map (fun j => a - 8 * j))
/-- Final permutation: the inverse of the initial one. -/
def desFP : List Nat := (List.range 64).map (fun i => (desIP.findIdx (fun p => p == i + 1)) + 1)
/-- Expansion. -/
def desE : List Nat := (List.range 48).map (fun i => (4 * (i / 6) + i % 6 + 31) % 32 + 1)
/-- Permutation P. -/
def desP : List Nat :=
  [16, 7, 20, 21, 29, 12, 28, 17, 1, 15, 23, 26, 5, 18, 31, 10] ++
  [2, 8, 24, 14, 32, 27, 3, 9, 19, 13, 30, 6, 22, 11, 4, 25]
/-- Permuted choice 1. -/
def desPC1 : List Nat :=
  [57, 49, 41, 33, 25, 17, 9, 1, 58, 50, 42, 34, 26, 18, 10, 2, 59, 51, 43, 35, 27, 19, 11, 3, 60, 52, 44, 36] ++
  [63, 55, 47, 39, 31, 23, 15, 7, 62, 54, 46, 38, 30, 22, 14, 6, 61, 53, 45, 37, 29, 21, 13, 5, 28, 20, 12, 4]
/-- Permuted choice 2. -/
def desPC2 : List Nat :=
  [14, 17, 11, 24, 1, 5, 3, 28, 15, 6, 21, 10, 23, 19, 12, 4, 26, 8, 16, 7, 27, 20, 13, 2] ++
  [41, 52, 31, 37, 47, 55, 30, 40, 51, 45, 33, 48, 44, 49, 39, 56, 34, 53, 46, 42, 50, 36, 29, 32]
/-- S-boxes, row after row, a hexadecimal digit an entry, the first the most significant. -/
def desS : List Nat :=
  [0xE4D12FB83A6C59070F74E2D1A6CB953841E8D62BFC973A50FC8249175B3EA06D,
   0xF18E6B34972DC05A3D47F28EC01A69B50E7BA4D158C6932FD8A13F42B67C05E9,
   0xA09E63F51DC7B428D709346A285ECBF1D6498F30B12C5AE71AD069874FE3B52C,
   0x7DE3069A1285BC4FD8B56F03472C1AE9A690CB7DF13E52843F06A1D8945BC72E,
   0x2C417AB6853FD0E9EB2C47D150FA3986421BAD78F9C5630EB8C71E2D6F09A453,
   0xC1AF92680D34E75BAF427C9561DE0B389EF528C3704A1DB6432C95FABE17608D,
   0x4B2EF08D3C975A61D0B7491AE35C2F8614BDC37EAF6805926BD814A7950FE23C,
   0xD2846FB1A93E50C71FD8A374C56B0E927B419CE206ADF35821E74A8DFC90356B]

/-- The round function: half block and 48-bit round key. -/
def desF (r k : Nat) : Nat :=
  let x := pickBits 32 desE r ^^^ k
  let y := (List.range 8).foldl (fun (a : Nat) i =>
    let v := x / 2 ^ (42 - 6 * i) % 64
    let at_ := (v / 32 * 2 + v % 2) * 16 + v / 2 % 16
    16 * a + desS.getD i 0 / 16 ^ (63 - at_) % 16) 0
  pickBits 32 desP y

/-- The 16 round keys of a 64-bit key. -/
def desKeys (key : Nat) : List Nat :=
  let cd := pickBits 64 desPC1 key
  let rot := fun (h n : Nat) => (h * 2 ^ n) % 2 ^ 28 + h / 2 ^ (28 - n)
  (([1, 2, 4, 6, 8, 10, 12, 14, 15, 17, 19, 21, 23, 25, 27, 28] : List Nat)).map (fun n =>
    pickBits 56 desPC2 (rot (cd / 2 ^ 28) n * 2 ^ 28 + rot (cd % 2 ^ 28) n))

/-- One DES pass over a 64-bit block under round keys in order. -/
def desPass (ks : List Nat) (b : Nat) : Nat :=
  let x := pickBits 64 desIP b
  let r := ks.foldl (fun (lr : Nat × Nat) k => (lr.2, lr.1 ^^^ desF lr.2 k)) (x / 2 ^ 32, x % 2 ^ 32)
  pickBits 64 desFP (r.2 * 2 ^ 32 + r.1)

/-- TDEA encryption or decryption of one 8-byte block under three keys. -/
def tdea (enc : Bool) (key b : List Byte) : List Byte :=
  let k1 := desKeys (beAt key 0 8)
  let k2 := desKeys (beAt key 8 8)
  let k3 := desKeys (beAt key 16 8)
  let v := ofBe b
  toBe 8 (if enc then desPass k3 (desPass k2.reverse (desPass k1 v))
    else desPass k1.reverse (desPass k2 (desPass k3.reverse v)))

/- ECDSA (FIPS 186-5). -/

/-- A curve y² = x³ − 3x + b over a prime field, with its base point and order. -/
structure Curve where
  p  : Nat
  b  : Nat
  n  : Nat
  gx : Nat
  gy : Nat
  size : Nat
deriving DecidableEq, Repr

/-- P-256. -/
def p256 : Curve :=
  { p := 0xFFFFFFFF00000001000000000000000000000000FFFFFFFFFFFFFFFFFFFFFFFF
    b := 0x5AC635D8AA3A93E7B3EBBD55769886BC651D06B0CC53B0F63BCE3C3E27D2604B
    n := 0xFFFFFFFF00000000FFFFFFFFFFFFFFFFBCE6FAADA7179E84F3B9CAC2FC632551
    gx := 0x6B17D1F2E12C4247F8BCE6E563A440F277037D812DEB33A0F4A13945D898C296
    gy := 0x4FE342E2FE1A7F9B8EE7EB4A7C0F9E162BCE33576B315ECECBB6406837BF51F5
    size := 32 }

/-- P-384. -/
def p384 : Curve :=
  { p := 0xFFFFFFFFFFFFFFFFFFFFFFFFFFFFFFFFFFFFFFFFFFFFFFFFFFFFFFFFFFFFFFFEFFFFFFFF0000000000000000FFFFFFFF
    b := 0xB3312FA7E23EE7E4988E056BE3F82D19181D9C6EFE8141120314088F5013875AC656398D8A2ED19D2A85C8EDD3EC2AEF
    n := 0xFFFFFFFFFFFFFFFFFFFFFFFFFFFFFFFFFFFFFFFFFFFFFFFFC7634D81F4372DDF581A0DB248B0A77AECEC196ACCC52973
    gx := 0xAA87CA22BE8B05378EB1C71EF320AD746E1D3B628BA79B9859F741E082542A385502F25DBF55296C3A545E3872760AB7
    gy := 0x3617DE4A96262C6F5D9E98BF9292DC29F8F41DBD289A147CE9DA3113B5F0B8C00A60B1CE1D7E819D7A431D7C90EA0E5F
    size := 48 }

/-- Power modulo m, exponents below 2^bits. -/
def powMod (m b e : Nat) : Nat → Nat
  | 0 => 1 % m
  | i + 1 =>
    let r := powMod m b (e / 2) i
    if e % 2 = 1 then r * r % m * b % m else r * r % m

/-- Inverse modulo a prime below 2^384. -/
def invMod (m a : Nat) : Nat := powMod m (a % m) (m - 2) 384

/-- A point: none is the point at infinity. -/
abbrev Pt := Option (Nat × Nat)

/-- The sum of two points. -/
def ptAdd (c : Curve) (a b : Pt) : Pt :=
  match a, b with
  | none, q => q
  | q, none => q
  | some (x1, y1), some (x2, y2) =>
    if x1 = x2 ∧ (y1 + y2) % c.p = 0 then none
    else
      let l := if x1 = x2 then (3 * x1 * x1 + c.p - 3) * invMod c.p (2 * y1) % c.p
        else (y2 + c.p - y1) * invMod c.p (x2 + c.p - x1) % c.p
      let x := (l * l + 2 * c.p - x1 - x2) % c.p
      some (x, (l * (x1 + c.p - x) + c.p - y1) % c.p)

/-- k times a point. -/
def ptMul (c : Curve) (k : Nat) (q : Pt) : Pt :=
  ((List.range (8 * c.size)).foldl (fun (r : Pt × Pt) i =>
    (if k / 2 ^ i % 2 = 1 then ptAdd c r.1 r.2 else r.1, ptAdd c r.2 r.2)) (none, q)).1

/-- Public key of a private key: the uncompressed point. -/
def ecPublic (c : Curve) (d : Nat) : List Byte :=
  match ptMul c d (some (c.gx, c.gy)) with
  | some (x, y) => 0x04 :: (toBe c.size x ++ toBe c.size y)
  | none => List.replicate (2 * c.size + 1) 0

/-- The integer of a digest. -/
def ecDigest (c : Curve) (h : List Byte) : Nat := ofBe (h.take c.size)

/-- Signature r ‖ s under the per-message secret k. -/
def ecSign (c : Curve) (d k : Nat) (h : List Byte) : List Byte :=
  let r := match ptMul c k (some (c.gx, c.gy)) with
    | some (x, _) => x % c.n
    | none => 0
  let s := invMod c.n k * ((ecDigest c h + r * d) % c.n) % c.n
  toBe c.size r ++ toBe c.size s

/-- Is a signature correct for a public key (uncompressed point)? -/
def ecVerify (c : Curve) (pub sig h : List Byte) : Bool :=
  let x := beAt pub 1 c.size
  let y := beAt pub (1 + c.size) c.size
  let r := beAt sig 0 c.size
  let s := beAt sig c.size c.size
  let onCurve := decide (x < c.p) && decide (y < c.p) && (y * y % c.p == (x * x * x + (c.p - 3) * x + c.b) % c.p)
  if pub.take 1 ≠ [0x04] ∨ !onCurve ∨ r = 0 ∨ s = 0 ∨ c.n ≤ r ∨ c.n ≤ s then false
  else
    let w := invMod c.n s
    match ptAdd c (ptMul c (ecDigest c h * w % c.n) (some (c.gx, c.gy))) (ptMul c (r * w % c.n) (some (x, y))) with
    | some (x1, _) => x1 % c.n == r
    | none => false

/- Checksums of RFC 1950 and RFC 1952. -/

/-- CRC-32. -/
def crc32 (l : List Byte) : Nat := (~~~(l.foldl (crcByte 0xEDB88320) 0xFFFFFFFF)).toNat

/-- Adler-32. -/
def adler32 (l : List Byte) : Nat :=
  let r := l.foldl (fun (r : Nat × Nat) b => let a := (r.1 + b.toNat) % 65521; (a, (r.2 + a) % 65521)) (1, 0)
  r.2 * 65536 + r.1

end Sys2Proof.Machine
end

