-- ==== Sys2Proof/Machine/Grants.lean ====
section
/-! DEFINITION. Commit blocks and their grants (chapter 12, R324 to R329, R334). -/

namespace Sys2Proof.Machine

/-- S × 4,096 blocks. -/
def regionBlocks (s : State) : Nat := 4096 * s.commit.size.toNat

/-- The allowance A in force (Table 12.3). -/
def allowance (s : State) : Nat := Nat.min s.commit.allow.toNat (regionBlocks s)

/-- D, the number of dirty blocks (R324). -/
def dirtyCount (s : State) : Nat := s.commit.dirty.length

/-- Is a block dirty and not clean-pending: a write into it needs no grant (R325, R329)? -/
def blockOpen (s : State) (b : Nat) : Bool :=
  s.commit.dirty.contains b && !(s.commit.cleaning == some b && !s.commit.cancelled)

/-- Does the region accept new durable stores: not before M3 or M4 has been entered since start-up (R32)? -/
def takesStores (s : State) : Bool :=
  s.inMode [.run, .degraded] || (s.inMode [.service, .quiesced] && !s.md.m6FromM2)

/-- Is the drain engine able to grant now: new durable stores accepted, its island up, not frozen, D below A, and the open record written
(R32, R325 to R327)? -/
def canGrant (s : State) : Bool :=
  takesStores s && islandUp s .drain && !s.commit.frozen && decide (dirtyCount s < allowance s) && s.commit.openDone

/-- A grant takes effect: the block becomes dirty, or the cleaning of a clean-pending block is cancelled. -/
def giveGrant (b : Nat) (s : State) : State :=
  if s.commit.dirty.contains b then
    if s.commit.cleaning = some b then { s with commit := { s.commit with cancelled := true } } else s
  else { s with commit := { s.commit with dirty := s.commit.dirty ++ [b] } }

/-- Background cleaning starts where the rules call for it (R328): on the block that has been dirty longest, while
A is below the region and requests wait or D exceeds A − M. -/
def startCleaning (s : State) : State :=
  let m := s.entry 0x3108 0 4096
  if s.commit.cleaning.isNone && decide (allowance s < regionBlocks s) &&
      (!s.commit.queue.isEmpty || decide (allowance s < dirtyCount s + m)) && s.inMode [.run, .degraded, .service, .quiesced] &&
      decide (flashFailed s ≤ 14) && !s.commit.openDue && s.commit.openDone then
    match s.commit.dirty with
    | [] => s
    | b :: _ => { s with commit := { s.commit with cleaning := some b, cancelled := false } }
  else s

/-- Requests that wait are served in arrival order while the drain engine can grant (R325). -/
def serveQueue : List GrantReq → State → State
  | [], s => s
  | r :: rest, s =>
    if blockOpen s r.block then serveQueue rest (grantWait r.since { s with commit := { s.commit with queue := rest } })
    else if canGrant s then serveQueue rest (giveGrant r.block (grantWait r.since { s with commit := { s.commit with queue := rest } }))
    else s

/-- Serve what waits, then see whether cleaning starts. -/
def serveGrants (s : State) : State := startCleaning (serveQueue s.commit.queue s)

/-- New durable stores are accepted from now on (R32): requests that wait call for the open record, or are served. -/
def openRegion (s : State) : State :=
  if s.commit.queue.isEmpty then s
  else if s.commit.openDone then serveGrants s
  else { s with commit := { s.commit with openDue := true } }

/-- In M7 every waiting request is granted without the allowance check (R334), once the open record stands (R326). -/
def grantAll (s : State) : State :=
  if s.commit.queue.isEmpty then s
  else if s.commit.openDone then
    s.commit.queue.foldl (fun s r => giveGrant r.block (grantWait r.since s)) { s with commit := { s.commit with queue := [] } }
  else { s with commit := { s.commit with openDue := true } }

/-- A COMMIT write into block b asks for what it needs (R325, R326, R329, R334): true where it may proceed now; a
request that must wait joins the grant queue once. -/
def askGrant (a : Acc) (b : Nat) (s : State) : Bool × State :=
  if blockOpen s b then (true, s)
  else if s.inMode [.holdup] && s.commit.openDone && s.commit.frozenMap.isNone then (true, giveGrant b (grantWait s.tb.tod s))
  else if canGrant s && s.commit.queue.isEmpty then (true, startCleaning (giveGrant b (grantWait s.tb.tod s)))
  else
    let s := if s.commit.openDone || !(takesStores s || s.inMode [.holdup]) then s else { s with commit := { s.commit with openDue := true } }
    let r : GrantReq := { acc := a, block := b, since := s.tb.tod }
    let s := if s.commit.queue.any (fun q => q.acc == a && q.block == b) then s
             else { s with commit := { s.commit with queue := s.commit.queue ++ [r] } }
    (false, startCleaning s)

end Sys2Proof.Machine
end

