-- ==== Sys2Proof/Machine/Caches.lean ====
section
/-! DEFINITION. Where copies of a line stand: the caches of the cores, the directory and the L3 (R200 to R204, R232). -/

namespace Sys2Proof.Machine

/-- Home slice of a line, numbered over the module (R201). -/
def homeSlice (l : Nat) : Nat := (lineGroup l).val * 12 + l % 12

/-- Directory set of a line, numbered over the module (R201). -/
def dirSet (l : Nat) : Nat := 2560 * homeSlice l + l / 4 % 2560

/-- L3 set of a line, numbered over the module (R201). -/
def l3Set (l : Nat) : Nat := 4096 * homeSlice l + nbits 13 2 l

/-- Agent that may hold a copy (Table 8.7): PUs, CEs, crypto, compression. -/
def agentOf (a : Acc) : Option Nat :=
  let m := a.master.toNat
  if (masterCore m).isSome then masterCore m
  else if m = 0x70 then some 84
  else if m = 0x71 then some 85
  else none

/-- The thread that makes a request, where a core makes it. -/
def ownThread (a : Acc) : Option (Nat × Bool) := (masterCore a.master.toNat).map (fun n => (n, a.th))

/-- Way choice of R206 and R233 among candidates (way, age): the lowest-numbered at the highest age; and by how much
every candidate's age rises. -/
def oldest : List (Nat × Nat) → Option (Nat × Nat)
  | [] => none
  | (w, a) :: l =>
    match oldest l with
    | none => some (w, a)
    | some (w', a') => if a' ≤ a then some (w, a) else some (w', a')

/-- A way of the directory by its number over the module. -/
def dirWay (s : State) (i : Nat) : DirWay := tget ({} : DirWay) s.coh.dir i

/-- A way of the L3 by its number over the module. -/
def l3Way (s : State) (i : Nat) : L3Way := tget ({} : L3Way) s.coh.l3 i

/-- A way of a PU's L2 by its number. -/
def l2Way (p : Pu) (i : Nat) : L2Way := tget ({} : L2Way) p.l2 i

/-- The state with a directory way changed. -/
def updDir (i : Nat) (f : DirWay → DirWay) (s : State) : State :=
  { s with coh := { s.coh with dir := tupd {} s.coh.dir i f } }

/-- The state with an L3 way changed. -/
def updL3 (i : Nat) (f : L3Way → L3Way) (s : State) : State :=
  { s with coh := { s.coh with l3 := tupd {} s.coh.l3 i f } }

/-- Directory way of a line. -/
def dirFind (s : State) (l : Nat) : Option Nat :=
  (List.range 16).find? (fun w => decide ((dirWay s (dirSet l * 16 + w)).line = some l))

/-- Agents with a presence bit for the line. -/
def holders (s : State) (l : Nat) : List Nat :=
  match dirFind s l with
  | none => []
  | some w => let p := (dirWay s (dirSet l * 16 + w)).pres; allBelow 86 (fun i => p.getLsbD i)

/-- Is the line in the directory with exactly one copy in E or M (Table 8.7)? -/
def isOwned (s : State) (l : Nat) : Bool :=
  match dirFind s l with
  | none => false
  | some w => (dirWay s (dirSet l * 16 + w)).owned

/-- L2 way of an agent that holds a line. An agent's table of 2,048 sets of 16 ways is its L2; of a CE it is the data
cache (Table 13.1), of an accelerator its line buffers, with the same states (R203). -/
def l2Find (p : Pu) (l : Nat) : Option Nat :=
  (List.range 16).find? (fun w => decide ((l2Way p (l % 2048 * 16 + w)).line = some l))

/-- State of a line in an L2. -/
def l2State (p : Pu) (l : Nat) : Option CohState :=
  (l2Find p l).map (fun w => (l2Way p (l % 2048 * 16 + w)).st)

/-- Is the line in M in a cache of agent n? -/
def heldM (s : State) (n l : Nat) : Bool := l2State (s.pu n) l == some .m

/-- Change the L2 way that holds a line. -/
def l2Upd (l : Nat) (f : L2Way → L2Way) (p : Pu) : Pu :=
  match l2Find p l with
  | none => p
  | some w => { p with l2 := tupd {} p.l2 (l % 2048 * 16 + w) f }

/-- A thread's reservation ends if it lies on a line (R189). -/
def Thread.endResv (l : Nat) (t : Thread) : Thread := if t.resv = some l then { t with resv := none } else t

/-- A line leaves an L2 with its L1 and side-buffer copies (R202), and reservations on it end (R189); a locked way stays
locked, and empty (R211). -/
def l2Remove (l : Nat) (p : Pu) : Pu :=
  let p := l2Upd l (fun w => if w.locked then { locked := true } else {}) p
  { p with
    l1d := p.l1d.filter (fun e => e.2.line != some l)
    l1i := p.l1i.filter (fun e => e.2.line != some l)
    side := p.side.filter (· != l)
    tracker := p.tracker.filter (· != l)
    t0 := p.t0.endResv l, t1 := p.t1.endResv l }

/-- An agent's presence bit for a line clears; the entry is freed with its last copy (R232). -/
def dirClear (agent l : Nat) (s : State) : State :=
  match dirFind s l with
  | none => s
  | some w =>
    let f := fun (d : DirWay) =>
      let p := d.pres &&& ~~~(BitVec.twoPow 86 agent)
      if p = 0 then {} else { d with pres := p, owned := false }
    updDir (dirSet l * 16 + w) f s

/-- Every presence bit of a line clears. -/
def dirFree (l : Nat) (s : State) : State :=
  match dirFind s l with
  | none => s
  | some w => updDir (dirSet l * 16 + w) (fun _ => {}) s

/-- L3 way of a line. -/
def l3Find (s : State) (l : Nat) : Option Nat :=
  (List.range 16).find? (fun w => decide ((l3Way s (l3Set l * 16 + w)).line = some l))

/-- Is the L3 copy of a line dirty? -/
def l3Dirty (s : State) (l : Nat) : Bool :=
  match l3Find s l with
  | none => false
  | some w => (l3Way s (l3Set l * 16 + w)).dirty

/-- A line leaves the L3. -/
def l3Remove (l : Nat) (s : State) : State :=
  match l3Find s l with
  | none => s
  | some w => updL3 (l3Set l * 16 + w) (fun _ => {}) s

/-- A line enters the L3 at an age (R208): its copy there becomes dirty where the data are; a dirty victim is written
to its controllers first. -/
def l3Insert (l : Nat) (dirty : Bool) (age : Nat) (s : State) : State :=
  let base := l3Set l * 16
  match l3Find s l with
  | some w =>
    updL3 (base + w) (fun x => { x with dirty := x.dirty || dirty, age := age }) s
  | none =>
    match (List.range 16).find? (fun w => (l3Way s (base + w)).line.isNone) with
    | some w => updL3 (base + w) (fun _ => { line := some l, dirty := dirty, age := age }) s
    | none =>
      let cands := (List.range 16).map (fun w => (w, (l3Way s (base + w)).age))
      match oldest cands with
      | none => s
      | some (w, a) =>
        let v := l3Way s (base + w)
        let s := match v.line with
          | some vl => if v.dirty then s.flushLine vl else s
          | none => s
        let s := (List.range 16).foldl (fun s i => updL3 (base + i) (fun x => { x with age := x.age + (3 - a) }) s) s
        updL3 (base + w) (fun _ => { line := some l, dirty := dirty, age := age }) s

/-- A read that the home serves itself (R208): a line of the L3 takes age 0, any other is read from DRAM and enters the
L3 at age 0, or at 2 for a NORMAL_NA or prefetch fill. -/
def l3Fill (l age : Nat) (s : State) : State :=
  l3Insert l false (if (l3Find s l).isNone && age == 2 then 2 else 0) s

/-- COMMIT data of a line go to the controllers' power-protected write queue (R183, R329): true where they are
acknowledged; where the block needs a grant that waits, the data stay in the home's writeback buffer. -/
def commitOut (a : Acc) (l : Nat) (s : State) : Bool × State :=
  match askGrant a (lineBlock l) s with
  | (true, s) => (true, s.flushLine l)
  | (false, s) =>
    (false, { s with coh := { s.coh with wbuf := if s.coh.wbuf.contains l then s.coh.wbuf else s.coh.wbuf ++ [l] } })

/-- Data in the writeback buffer whose block has its grant by now reach the controllers. -/
def drainWbuf (s : State) : State :=
  s.coh.wbuf.foldl (fun s l =>
    if blockOpen s (lineBlock l) then
      { s.flushLine l with coh := { s.coh with wbuf := s.coh.wbuf.filter (· != l) } }
    else s) s

/-- Dirty data of a line reach the next level: a COMMIT line the controllers, any other the L3 (R204, R223). -/
def writeBack (a : Acc) (l : Nat) (s : State) : State :=
  if isCommit s l then l3Insert l false 1 (commitOut a l s).2 else l3Insert l true 1 s

/- Requests of cores that wait in a line's list (R221). -/

/-- Is a waiting request one of thread th of core n? -/
def ofThread (n : Nat) (th : Bool) : HomeCmd → Bool
  | .core m t _ _ _ => m == n && t == th
  | .line a _ => masterCore a.master.toNat == some n && a.th == th
  | _ => false

/-- Is it thread th of core n's turn at a line: no list, or its request at the front? -/
def takeTurn (n : Nat) (th : Bool) (l : Nat) (s : State) : Bool :=
  match tget [] s.coh.waits l with
  | [] => true
  | c :: _ => ofThread n th c

/-- A core's request joins the list of its line, once. -/
def waitIn (n : Nat) (th : Bool) (l : Nat) (own : Bool) (age : Nat) (s : State) : State :=
  let q := tget [] s.coh.waits l
  let c := HomeCmd.core n th l own age
  if q.contains c then s else { s with coh := { s.coh with waits := tset [] s.coh.waits l (q ++ [c]) } }

/-- A core's request for a line was served: it leaves the list. -/
def waitOut (n : Nat) (th : Bool) (l : Nat) (s : State) : State :=
  { s with coh := { s.coh with waits := tupd [] s.coh.waits l (fun q => q.filter (fun c => !ofThread n th c)) } }

/-- Is a waiting request an ownership request of a constrained transaction of a thread? -/
def ofConstrained (n : Nat) (th : Bool) : HomeCmd → Bool
  | .rdx a _ st => a.master.toNat == n && a.th == th && st.isSome
  | .upg a _ st => a.master.toNat == n && a.th == th && st.isSome
  | _ => false

/-- Requests that a squashed instruction of a thread left waiting go; p names others that go too. -/
def dropWaits (n : Nat) (th : Bool) (p : HomeCmd → Bool) (s : State) : State :=
  { s with coh := { s.coh with waits := s.coh.waits.filterMap (fun e =>
      let q := e.2.filter (fun c => !ofThread n th c && !p c)
      if q.isEmpty then none else some (e.1, q)) } }

/-- A thread's requests that still wait are withdrawn: its instruction is squashed. A TLBI that the arbiter has ordered goes
on, but no thread waits for it (the number 255 names none). -/
def cancelWaits (n : Nat) (th : Bool) (s : State) : State :=
  let s := dropWaits n th (fun _ => false) s
  { s with coh := { s.coh with
      arbHome := s.coh.arbHome.filter (· != .cmr n th)
      arb := s.coh.arb.map (fun (x : ArbTlbi) => if x.pu = n ∧ x.th = th then { x with pu := 255 } else x) } }

/- Reads and writes that wait as a whole (R221, R225). -/

/-- Is it a master's turn at a line: no list, or its request at the front? -/
def lineTurn (a : Acc) (l : Nat) (s : State) : Bool :=
  match tget [] s.coh.waits l with
  | [] => true
  | .line b _ :: _ => b == a
  | .core m t _ _ _ :: _ => masterCore a.master.toNat == some m && a.th == t
  | _ :: _ => false

/-- The command in progress waits. -/
def block (b : Blocked) (s : State) : State :=
  { s with coh := { s.coh with blocked := if s.coh.blocked.contains b then s.coh.blocked else s.coh.blocked ++ [b] } }

/-- A waiting command's request stands in the list of its line, or in the arbiter's while that holds fewer than 32
operations (R225). -/
def standBy (b : Blocked) (s : State) : State :=
  match b with
  | .line a l =>
    let q := tget [] s.coh.waits l
    if q.contains (.line a l) then s else { s with coh := { s.coh with waits := tset [] s.coh.waits l (q ++ [.line a l]) } }
  | .ring => s
  | .arb o =>
    if s.coh.arbHome.contains o || decide (32 ≤ s.coh.arb.length + s.coh.arbHome.length) then s
    else { s with coh := { s.coh with arbHome := s.coh.arbHome ++ [o] } }

/-- A master's request for a line has been served: it leaves the list. -/
def lineOut (a : Acc) (l : Nat) (s : State) : State :=
  { s with coh := { s.coh with waits := tupd [] s.coh.waits l (fun q => q.filter (· != .line a l)) } }

/-- May an operation of the arbiter go to the homes: it is the oldest that they have not performed, and the arbiter has room
for it (R225)? -/
def arbTurn (o : ArbOp) (s : State) : Bool :=
  match s.coh.arbHome with
  | [] => decide (s.coh.arb.length < 32)
  | x :: _ => x == o

/-- The homes have performed an operation of the arbiter. -/
def arbOut (o : ArbOp) (s : State) : State := { s with coh := { s.coh with arbHome := s.coh.arbHome.filter (· != o) } }

/-- What a command that cannot be served whole leaves of its attempt r: the state s before it, with its requests in the
lists they wait in and its requests for commit grants. -/
def standing (s r : State) : State :=
  r.coh.blocked.foldl (fun s b => standBy b s) { s with commit := r.commit }

/-- A command takes its whole effect, or waits (R221): no read or write of it is refused. -/
def orWait (f : State → State) (s : State) : State :=
  if (f s).coh.blocked.isEmpty then f s else standing s (f s)

end Sys2Proof.Machine
end

