-- ==== Sys2Proof/Machine/Tx.lean ====
section
/-! DEFINITION. Transaction footprints, conflicts, abort and the diagnostic block (chapter 9). -/

namespace Sys2Proof.Machine

/-- Flags of the diagnostic block (Table 9.6). exc is set for code 2 alone: code 3, after which an interrupt or a note is
taken, leaves bit 2 at 0 (DESIGN CHOICE, assumption 78: Table 9.6 says "exception taken after the abort"). -/
def diagFlags (constrained same exc : Bool) (code : Nat) : Nat :=
  constrained.toNat + 2 * same.toNat + 4 * exc.toNat +
    8 * (decide (code ∈ [3, 4, 5, 8, 13, 14, 15])).toNat

/-- Is an abort of a constrained transaction restarted (R250, R253)? -/
def restarts (constrained : Bool) (code : Nat) : Bool :=
  constrained && decide (code ∈ [4, 5, 8, 14, 15, 17])

/-- What caused an abort: code, conflicting line and requester, same-PU flag, instruction and exception registers. -/
def diagBytes (tx : Tx) (code : Nat) (same : Bool) (line : Option Nat) (req : Nat) (insn : Word)
    (exc : Option (Word × Word)) (tod : Word) : List Byte :=
  let b := List.replicate 128 (0 : Byte)
  let b := putBe b 0 1 code
  let b := putBe b 1 1 (diagFlags tx.constrained same exc.isSome code)
  let b := putBe b 2 1 tx.depth
  let b := putBe b 4 4 (Nat.min 0xFFFFFFFF tx.retired)
  let b := putBe b 8 8 tx.openPc.toNat
  let b := putBe b 0x10 8 (if code ∈ [3, 4, 5, 8, 13, 14, 15] then 0 else insn.toNat)
  let b := putBe b 0x18 8 (match exc with | some e => e.1.toNat | none => 0)
  let b := putBe b 0x20 8 (match exc with | some e => e.2.toNat | none => 0)
  let b := putBe b 0x28 8 (match line with | some l => 256 * l | none => 0)
  let b := putBe b 0x30 2 req
  let b := putBe b 0x34 4 tx.reads.length
  let b := putBe b 0x38 4 tx.writes.length
  putBe b 0x40 8 tod.toNat

/-- Fills in flight for a thread's transaction deliver nothing to install (R252, Scenario 3). -/
def dropFills (n : Nat) (th : Bool) (s : State) : State :=
  { s with coh := { s.coh with busy := s.coh.busy.map (fun e => (e.1, e.2.map (fun b =>
      if b.req.stamp.isSome && b.req.acc.master.toNat == n && b.req.acc.th == th then { b with noAlloc := true } else b))) } }

/-- The transactional bytes and marks of a thread are discarded, with its unreleased stores; every line it wrote leaves
the PU's caches and the directory, its pins clear and its waiting requests go (R245, R251, R252). -/
def dropTx (n : Nat) (th : Bool) (s : State) : State :=
  match (s.thr n th).tx with
  | none => s
  | some tx =>
    let s := tx.writes.foldl (fun (s : State) l =>
      if (l2State (s.pu n) l).isSome then dirClear n l (s.updPu n (l2Remove l)) else s) s
    let s := s.updThr n th (fun t => { t with
      tx := none, shadow := [], sb := t.sb.filter (fun i => keepReleased i && !isTxStore i) })
    let s := dropFills n th (dropWaits n th (ofConstrained n th) s)
    { s with coh := { s.coh with pins := s.coh.pins.filter (fun e => match e.2 with
        | some p => !(p.req.master.toNat == n && p.req.th == th)
        | none => true) } }

/-- What becomes of a diagnostic block (R249). -/
inductive DiagAns where
  | at (pa : Nat)
  | invalid (s : State)
  | refused (s : State)

/-- Physical address of the diagnostic block, where its segment is of kind DRAM or COMMIT DRAM and its line answers
(R249); a denied write is recorded by its target alone (R451). -/
def diagAddr (s : State) (n : Nat) (th : Bool) (txd : Word) : DiagAns :=
  match s.puZone n with
  | none => .invalid s
  | some z =>
    match segTrans s z.val (128 * fld 41 7 txd) with
    | none => .invalid s
    | some (pa, kind) =>
      if 1 < kind then .invalid s
      else match dramAnswer (s.puAcc n th) pa .write 1 s with
        | (none, _) => .at pa
        | (some 3, s) => .invalid s
        | (some _, s) => .refused s

/-- The diagnostic block is stored (R249): a write at the home, after which no cache holds the line; a COMMIT line goes
to the controllers. -/
def diagStore (n : Nat) (th : Bool) (pa : Nat) (block : List Byte) (s : State) : State :=
  let l := pa / 256
  let s := (holders s l).foldl (fun (s : State) a => dirClear a l (s.updPu a (l2Remove l))) s
  writeBack (s.puAcc n th) l (s.wr pa block)

/-- Every reservation on a line by another thread than own ends (R189). -/
def endReservations (l : Nat) (own : Option (Nat × Bool)) (s : State) : State :=
  let f := fun (n : Nat) (th : Bool) (t : Thread) =>
    if t.resv = some l ∧ own ≠ some (n, th) then { t with resv := none } else t
  { s with pus := s.pus.map (fun (e : Nat × Pu) =>
      (e.1, { e.2 with t0 := f e.1 false e.2.t0, t1 := f e.1 true e.2.t1 })) }

/-- Abort of the open transaction of a thread (R245 to R249, R253, R255): registers as at the outermost TXOPEN with
its Gd holding the code, or at TXOPEN.B for a restart; a checkpoint taken inside the transaction becomes that state (R255),
an older one stays; the diagnostic block is written where the code is visible,
and that write conflicts with other footprints in its turn. fuel bounds those further aborts by the threads there are. -/
def abortTx : Nat → Nat → Bool → Nat → Option Nat → Nat → Bool → Word → Option (Word × Word) → State → State
  | 0, _, _, _, _, _, _, _, _, s => s
  | fuel + 1, n, th, code, line, req, same, insn, exc, s =>
    match (s.thr n th).tx with
    | none => s
    | some tx =>
      let again := restarts tx.constrained code
      let back := again || (tx.constrained && code == 2)
      let arch := if back then tx.saved else tx.saved.wg tx.d (BitVec.ofNat 64 code)
      let arch := { arch with pc := if back then tx.openPc else tx.openPc + 4, sw := putBit 23 false arch.sw }
      let block := diagBytes tx code same line req insn exc s.tb.tod
      let s := dropTx n th s
      let s := s.updThr n th (fun t => { t with
        arch := arch, ckpt := (if bit 23 t.ckpt.sw then arch else t.ckpt), resv := none, wait := .none
        stamp := if again then some tx.stamp else none })
      if back || !bit 0 tx.saved.txd then s
      else match diagAddr s n th tx.saved.txd with
        | .invalid s => latch (coreBlk n) 13 0 0 1 s
        | .refused s => s
        | .at pa =>
          let l := pa / 256
          let s := s.threads.foldl (fun (s : State) (e : Nat × Bool) =>
            if e.1 = n ∧ e.2 = th then s
            else match (s.thr e.1 e.2).tx with
              | none => s
              | some t =>
                if t.writes.contains l then
                  abortTx fuel e.1 e.2 5 (some l) (requesterId (s.puAcc n th) 1) (e.1 == n) 0 none s
                else if t.reads.contains l then
                  abortTx fuel e.1 e.2 4 (some l) (requesterId (s.puAcc n th) 1) (e.1 == n) 0 none s
                else s) s
          diagStore n th pa block (endReservations l none s)

/-- Abort by a thread's own event. -/
def abortOwn (n : Nat) (th : Bool) (code : Nat) (insn : Word) (s : State) : State :=
  abortTx 97 n th code none 0 false insn none s

/-- A request for a line by another agent meets the footprints (R244): code 5 for a write-set line, code 4 for a
read-set line when the request stores. own: the thread that makes the request, if a thread makes it. -/
def conflicts (l : Nat) (stores : Bool) (code : Option Nat) (req : Nat) (own : Option (Nat × Bool)) (s : State) : State :=
  s.threads.foldl (fun (s : State) (e : Nat × Bool) =>
    if own = some e then s
    else match (s.thr e.1 e.2).tx with
      | none => s
      | some t =>
        let same := match own with | some o => o.1 == e.1 | none => false
        if t.writes.contains l then abortTx 97 e.1 e.2 (code.getD 5) (some l) req same 0 none s
        else if stores && t.reads.contains l then abortTx 97 e.1 e.2 (code.getD 4) (some l) req same 0 none s
        else s) s

end Sys2Proof.Machine
end

