-- ==== Sys2Proof/Machine/Coherence.lean ====
section
/-! DEFINITION. Copies obtained, shared, lost and evicted (chapter 8): the operations that loads, stores and the coherence
messages share. -/

namespace Sys2Proof.Machine

/-- Does the island of an agent that holds copies answer the home (R17)? -/
def agentUp (s : State) (a : Nat) : Bool :=
  islandUp s (if a < 84 then coreIsl a else if a = 84 then .crypto else .comp)

/-- A copy behind a fence: its island answers the home FENCED, without data (R17), so its dirty data count as lost and its
presence bit clears (assumption 82). -/
def fencedCopy (agent l : Nat) (s : State) : State :=
  let s := if heldM s agent l && !l3Dirty s l then s.dropLine l else s
  dirClear agent l (s.updPu agent (l2Remove l))

/-- One holder loses its copy of a line: dirty data are written back first, unless they are discarded (R219, R222);
transactions that hold it in their footprint abort. -/
def loseCopy (agent l : Nat) (discard : Bool) (code : Option Nat) (req : Nat) (own : Option (Nat × Bool)) (s : State) :
    State :=
  let s := conflicts l true code req own s
  if !agentUp s agent then fencedCopy agent l s
  else
    let s := if heldM s agent l && !discard then writeBack (s.puAcc agent false) l s else s
    dirClear agent l (s.updPu agent (l2Remove l))

/-- Every copy of a line but the requester's goes; with it, reservations of other threads on the line end. -/
def loseOthers (me : Option Nat) (l : Nat) (discard : Bool) (code : Option Nat) (req : Nat) (own : Option (Nat × Bool))
    (s : State) : State :=
  let s := (holders s l).foldl (fun s a => if some a = me then s else loseCopy a l discard code req own s) s
  endReservations l own (conflicts l true code req own s)

/-- Dirty COMMIT data of another holder go to the controllers before the home serves anyone (R183, R223): the holder is
recalled, and the data in the home's writeback buffer are taken too. False: they wait for a commit grant. -/
def recallCommit (me : Option Nat) (l : Nat) (s : State) : Bool × State :=
  if !isCommit s l then (true, s)
  else match (holders s l).find? (fun a => some a != me && heldM s a l) with
    | some h =>
      if !agentUp s h then (true, fencedCopy h l s)
      else match askGrant (s.puAcc h false) (lineBlock l) s with
      | (false, s) => (false, s)
      | (true, s) => (true, l3Insert l false 1 (dirClear h l ((s.flushLine l).updPu h (l2Remove l))))
    | none =>
      if !s.coh.wbuf.contains l then (true, s)
      else if blockOpen s (lineBlock l) then
        (true, { s.flushLine l with coh := { s.coh with wbuf := s.coh.wbuf.filter (· != l) } })
      else (false, s)

/-- Other holders of a line keep it in S at most: dirty data of an M copy are written back first (R223). -/
def shareOthers (me : Option Nat) (l : Nat) (s : State) : State :=
  let s := (holders s l).foldl (fun s a =>
    if some a = me then s
    else if !agentUp s a then fencedCopy a l s
    else (if heldM s a l then writeBack (s.puAcc a false) l s else s).updPu a (l2Upd l (fun w => { w with st := .s }))) s
  match dirFind s l with
  | none => s
  | some w => updDir (dirSet l * 16 + w) (fun d => { d with owned := false }) s

/-- A directory entry for an agent's copy: set in the line's entry, or in a new one, whose victim is the candidate of
R233 (not busy, not pinned), every holder of which loses its copy (R234). False: every way is busy or pinned. -/
def dirAlloc (agent l : Nat) (owned : Bool) (s : State) : Bool × State :=
  let base := dirSet l * 16
  let put := fun (w : Nat) (s : State) =>
    updDir (base + w) (fun d =>
      let old := if d.line = some l then d.pres else 0
      { line := some l, owned := owned, age := 0, pres := old ||| BitVec.twoPow 86 agent }) s
  match dirFind s l with
  | some w => (true, put w s)
  | none =>
    match (List.range 16).find? (fun w => (dirWay s (base + w)).line.isNone) with
    | some w => (true, put w s)
    | none =>
      let cands := (List.range 16).filterMap (fun w =>
        let d := dirWay s (base + w)
        match d.line with
        | some v => if (tget none s.coh.busy v).isSome || (tget none s.coh.pins v).isSome then none else some (w, d.age)
        | none => none)
      match oldest cands with
      | none => (false, s)
      | some (w, a) =>
        let s := match (dirWay s (base + w)).line with
          | some v => dirFree v (loseOthers none v false (some 13) 0 none s)
          | none => s
        let s := cands.foldl (fun s c => updDir (base + c.1)
          (fun d => if d.line.isNone then d else { d with age := d.age + (3 - a) }) s) s
        (true, put w s)

/-- A footprint line of the PU's threads? -/
def inFootprint (p : Pu) (l : Nat) : Bool :=
  [p.t0, p.t1].any (fun t => match t.tx with
    | some x => x.reads.contains l || x.writes.contains l
    | none => false)

/-- Transactions of core n whose footprint holds a line that leaves its L2 abort with code 8 (R242). -/
def abortEvicted (n l : Nat) (s : State) : State :=
  [false, true].foldl (fun (s : State) th =>
    match (s.thr n th).tx with
    | some x => if x.reads.contains l || x.writes.contains l then abortTx 97 n th 8 (some l) 0 false 0 none s else s
    | none => s) s

/-- A line leaves a cache by eviction: WB or EVC (R208, R219, R232). -/
def evictLine (n l : Nat) (s : State) : State :=
  let s := abortEvicted n l s
  let a := s.puAcc n false
  let s := if heldM s n l then writeBack a l s else if (l2State (s.pu n) l).isSome then l3Insert l false 1 s else s
  dirClear n l (s.updPu n (l2Remove l))

/-- A line is put into way w of its set; the ownership hold begins where the line comes with ownership (R222). -/
def l2Put (w l : Nat) (st : CohState) (age : Nat) (p : Pu) : Pu :=
  { p with l2 := tupd {} p.l2 (l % 2048 * 16 + w) (fun x =>
      { x with
        line := some l, st := st, age := age
        held := if x.line = some l ∧ x.st ≠ .s then x.held else st != .s }) }

/-- The lowest invalid way of a line's set that a fill may take: unlocked (R206, R211). -/
def freeWay (p : Pu) (l : Nat) : Option Nat :=
  (List.range 16).find? (fun w => let x := l2Way p (l % 2048 * 16 + w); x.line.isNone && !x.locked)

/-- Unlocked ways of a line's set. -/
def unlockedWays (p : Pu) (l : Nat) : List Nat :=
  (List.range 16).filter (fun w => !(l2Way p (l % 2048 * 16 + w)).locked)

/-- Does way w of a line's set hold a line of a footprint? -/
def footWay (p : Pu) (l w : Nat) : Bool :=
  match (l2Way p (l % 2048 * 16 + w)).line with
  | some v => inFootprint p v
  | none => false

/-- Ways that a fill may evict, with their ages: unlocked, outside the footprints, no request in flight (R206, R242). -/
def victims (s : State) (p : Pu) (l : Nat) : List (Nat × Nat) :=
  (unlockedWays p l).filterMap (fun w =>
    let x := l2Way p (l % 2048 * 16 + w)
    match x.line with
    | some v => if footWay p l w || (tget none s.coh.busy v).isSome then none else some (w, x.age)
    | none => none)

/-- Has a fill a way to take? -/
def hasWay (s : State) (p : Pu) (l : Nat) : Bool :=
  (l2Find p l).isSome || (freeWay p l).isSome || !(victims s p l).isEmpty

/-- Room for a fill in an L2 (R242): where every unlocked way lies in a footprint a transaction aborts with code 8, its
line that of the lowest such way (DESIGN CHOICE, assumption 79); where ways outside the footprints have requests in
flight the fill waits. False: no room now, or the filling thread's own transaction aborted. -/
def l2Room (n : Nat) (th : Bool) (l : Nat) (s : State) : Bool × State :=
  let p := s.pu n
  if hasWay s p l then (true, s)
  else if (unlockedWays p l).any (fun w => !footWay p l w) then (false, s)
  else
    let mine := (p.thr th).tx.isSome
    let line := (unlockedWays p l).findSome? (fun w => (l2Way p (l % 2048 * 16 + w)).line)
    let s := abortTx 97 n (if mine then th else !th) 8 line 0 false 0 none s
    (!mine && hasWay s (s.pu n) l, s)

/-- A CE's data cache has 4 ways of 32 sets (Table 13.1): a fill of a full set evicts one of its lines, which one is a free
value (the spec gives no replacement rule for it, assumption 74). -/
def ceRoom (n l : Nat) (s : State) : State :=
  let same := (s.pu n).l2.filterMap (fun e => match e.2.line with
    | some v => if v % 32 = l % 32 ∧ v ≠ l then some v else none
    | none => none)
  if same.length < 4 then s
  else
    let (r, s) := s.draw 2
    evictLine n (same.getD r.toNat 0) s

/-- Install a line in an agent's cache (R206): in place, in an invalid unlocked way, or in the victim's. The ages of the
other unlocked ways rise as far as 3. -/
def l2Install (n : Nat) (l : Nat) (st : CohState) (age : Nat) (s : State) : State :=
  let s := if 48 ≤ n ∧ n < 84 then ceRoom n l s else s
  let p := s.pu n
  let base := l % 2048 * 16
  match l2Find p l with
  | some w => s.updPu n (l2Put w l st age)
  | none =>
    match freeWay p l with
    | some w => s.updPu n (l2Put w l st age)
    | none =>
      match oldest (victims s p l) with
      | none => s
      | some (w, a) =>
        let s := match (l2Way p (base + w)).line with
          | some v => evictLine n v s
          | none => s
        s.updPu n (fun p =>
          let t := (unlockedWays p l).foldl (fun t i => tupd {} t (base + i)
            (fun x => if x.line.isNone then x else { x with age := Nat.min 3 (x.age + (3 - a)) })) p.l2
          l2Put w l st age { p with l2 := t })

/-- Identity and start stamp of a thread's requests: the stamp while a constrained transaction is open (R252). -/
def txStamp (t : Thread) : Option Word :=
  match t.tx with
  | some x => if x.constrained then some x.stamp else none
  | none => none

/-- Does another PU's ownership hold keep the line (R222)? -/
def heldByOther (me : Option Nat) (l : Nat) (s : State) : Bool :=
  (holders s l).any (fun n => some n != me && decide (n < 48) && (match l2Find (s.pu n) l with
    | some w => let x := l2Way (s.pu n) (l % 2048 * 16 + w); x.held && x.st != .s
    | none => false))

/-- May a request for a line proceed past its pin (R251, R252)? An older constrained transaction wounds the holder. -/
def pinsLet (a : Acc) (stamp : Option Word) (l : Nat) (s : State) : Bool × State :=
  match tget none s.coh.pins l with
  | none => (true, s)
  | some p =>
    if p.req.master = a.master ∧ p.req.th = a.th then (true, s)
    else match stamp with
      | none => (false, s)
      | some st =>
        if st.toNat < p.stamp.toNat ∨ (st = p.stamp ∧ requesterId a 1 < requesterId p.req 1) then
          (true, abortTx 97 p.req.master.toNat p.req.th 17 (some l) (requesterId a 1) (p.req.master == a.master) 0 none s)
        else (false, s)

/-- Does a frequency change hold the clock of a line's home, or of the fabric (R19)? Its requests wait. -/
def homeHeld (s : State) (l : Nat) : Bool := (s.island (.home (lineGroup l))).relock || (s.island .fab).relock

/-- May a request for a line proceed past pins, busy lines and a home whose clock is held (R19, R221, R251, R252)? -/
def passPins (a : Acc) (stamp : Option Word) (l : Nat) (s : State) : Bool × State :=
  if homeHeld s l || (tget none s.coh.busy l).isSome then (false, s) else pinsLet a stamp l s

/-- Ways of the line's directory set that are pinned (R235). -/
def pinnedInSet (s : State) (l : Nat) : Nat :=
  (s.coh.pins.filter (fun e => e.2.isSome && decide (dirSet e.1 = dirSet l) && decide (e.1 ≠ l))).length

/-- A constrained transaction's access pins its line (R251). -/
def pinLine (a : Acc) (stamp : Option Word) (l : Nat) (s : State) : State :=
  match stamp with
  | none => s
  | some st => { s with coh := { s.coh with pins := tset none s.coh.pins l (some { req := a, stamp := st }) } }

/-- Presence bits of a line whose agents hold no copy clear on the next request (R209). -/
def dropStale (l : Nat) (s : State) : State :=
  (holders s l).foldl (fun (s : State) a =>
    if (l2State (s.pu a) l).isSome || (s.pu a).side.contains l then s else dirClear a l s) s

/-- A request of a core is not served now: it waits in the line's list, unless its own transaction has just aborted. -/
def waitOrStop (n : Nat) (th : Bool) (l : Nat) (own : Bool) (age : Nat) (before s : State) : State :=
  if (before.thr n th).tx.isSome && (s.thr n th).tx.isNone then s else waitIn n th l own age s

/-- What a request needs before its home serves it, once it is its turn (R183, R221 to R223, R242, R251): past busy lines
and pins, no transaction in the way, COMMIT data at the controllers, and a way for the line. False: it waits. -/
def readyFor (n : Nat) (th : Bool) (l : Nat) (own : Bool) (stamp : Option Word) (s : State) : Bool × State :=
  let a := s.puAcc n th
  match passPins a stamp l s with
  | (false, s) => (false, s)
  | (true, s) =>
    let s := dropStale l (conflicts l own none (requesterId a own.toNat) (some (n, th)) s)
    match recallCommit (some n) l s with
    | (false, s) => (false, s)
    | (true, s) => l2Room n th l s

/-- Where the home takes the data of a fill from, when no other cache forwards them: the L3 or DRAM (R208). -/
def homeFill (n l age : Nat) (s : State) : State :=
  if isOwned s l && (holders s l).any (· != n) then s else l3Fill l age s

/-- Age that a fill takes: 0 where the line hits in the L2 or the side buffer (R206). -/
def fillAge (p : Pu) (l age : Nat) : Nat := if (l2State p l).isSome || p.side.contains l then 0 else age

/-- A thread meets a line in its core's L2: it waits for a pin of the other thread (R251), and conflicts with that thread's
transactional stores (R244), whose abort takes the line away. -/
def meetHeld (n : Nat) (th : Bool) (l age : Nat) (s : State) : Bool × State :=
  let a := s.puAcc n th
  if (l2State (s.pu n) l).isNone then (true, s)
  else match pinsLet a (txStamp (s.thr n th)) l s with
    | (false, s) => (false, waitIn n th l false age s)
    | (true, s) => (true, conflicts l false none (requesterId a 0) (some (n, th)) s)

/-- A thread obtains a line to read: in its L2 already, or granted E or S by the home (R205, R219). False: the
request waits in the line's list (R221). -/
def obtainShared (n : Nat) (th : Bool) (l : Nat) (age : Nat) (s : State) : Bool × State :=
  match meetHeld n th l age s with
  | (false, s) => (false, s)
  | (true, s) =>
  if (l2State (s.pu n) l).isSome then (true, s)
  else if !takeTurn n th l s || heldByOther (some n) l s then (false, waitIn n th l false age s)
  else
    match readyFor n th l false none s with
    | (false, s') => (false, waitOrStop n th l false age s s')
    | (true, s) =>
      let age' := fillAge (s.pu n) l age
      let filled := homeFill n l age s
      let s := shareOthers (some n) l (if (s.pu n).side.contains l then s else filled)
      let others := (holders s l).filter (· != n)
      match dirAlloc n l others.isEmpty s with
      | (false, s) => (false, waitIn n th l false age s)
      | (true, s) =>
        let s := l2Install n l (if others.isEmpty then .e else .s) age' s
        (true, waitOut n th l (s.updPu n (fun p => { p with side := p.side.filter (· != l) })))

/-- A thread obtains a line to write: every other copy goes (R219, R224), a side-buffer copy of its own moves into the
L2 (R203), and a constrained transaction pins the line (R251). False: the request waits in the line's list. -/
def obtainOwned (n : Nat) (th : Bool) (l : Nat) (age : Nat) (s : State) : Bool × State :=
  let a := s.puAcc n th
  let stamp := txStamp (s.thr n th)
  let had := l2State (s.pu n) l
  if (had.isNone || had == some .s) && (!takeTurn n th l s || heldByOther (some n) l s) then (false, waitIn n th l true age s)
  else if stamp.isSome && decide (4 ≤ pinnedInSet s l) then (false, waitIn n th l true age s)
  else
    match readyFor n th l true stamp s with
    | (false, s') => (false, waitOrStop n th l true age s s')
    | (true, s) =>
      let age' := fillAge (s.pu n) l age
      let s := if had.isNone && !(s.pu n).side.contains l then homeFill n l age s else s
      let s := loseOthers (some n) l false none (requesterId a 1) (some (n, th)) s
      match dirAlloc n l true s with
      | (false, s) => (false, waitIn n th l true age s)
      | (true, s) =>
        let s := (l2Install n l .m age' s).updPu n (fun p => { p with side := p.side.filter (· != l) })
        (true, waitOut n th l (pinLine a stamp l s))

/-- The oldest tracked COMMIT line of a PU is cleaned to the controllers (R182): M becomes E. False: it waits for a
grant (R329). -/
def cleanTracked (n : Nat) (th : Bool) (l : Nat) (s : State) : Bool × State :=
  match askGrant (s.puAcc n th) (lineBlock l) s with
  | (false, s) => (false, s)
  | (true, s) =>
    (true, ((s.flushLine l).updPu n (fun p => l2Upd l (fun w => if w.st = .m then { w with st := .e } else w)
      { p with tracker := p.tracker.filter (· != l) })))

/-- A COMMIT line enters the PU's tracker of 64 lines: a full tracker first cleans its oldest line (R182). -/
def trackCommit (n : Nat) (th : Bool) (l : Nat) (s : State) : Bool × State :=
  let p := s.pu n
  if p.tracker.contains l then (true, s)
  else
    let (ok, s) := if p.tracker.length < 64 then (true, s)
      else match p.tracker with
        | [] => (true, s)
        | o :: _ => cleanTracked n th o s
    if ok then (true, s.updPu n (fun p => { p with tracker := p.tracker ++ [l] })) else (false, s)

/-- Every dirty line of a PU is written back and every line leaves its L2 (Table 2.8, Table 10.3 step 2). -/
def flushPu (n : Nat) (s : State) : State :=
  let lines := (s.pu n).l2.filterMap (fun e => e.2.line)
  let s := lines.foldl (fun s l => evictLine n l s) s
  let s := (s.pu n).side.foldl (fun s l => dirClear n l s) s
  s.updPu n (fun p => { p with side := [] })

/-- Lines in M that a core holds. -/
def dirtyLines (s : State) (n : Nat) : List Nat :=
  (s.pu n).l2.filterMap (fun e => if e.2.st = .m then e.2.line else none)

/-- Number of locked ways of an L2, and of those that are empty (Table 8.4). -/
def lockCounts (p : Pu) : Nat × Nat :=
  match p.lockKeep with
  | some k => k
  | none =>
    let locked := p.l2.filter (fun e => e.2.locked)
    (locked.length, (locked.filter (fun e => e.2.line.isNone)).length)

/-- A core's copies are lost with its island: what was dirty returns to the value at the controllers or in L3; its
presence bits and pins clear (Table 10.3 step 3). Its register block keeps the lock counts (R541). -/
def losePu (n : Nat) (s : State) : State :=
  let s := (dirtyLines s n).foldl (fun s l => if l3Dirty s l then s else s.dropLine l) s
  let all := s.coh.dir.filterMap (fun e => if e.2.pres.getLsbD n then e.2.line else none)
  let s := all.foldl (fun s l => dirClear n l s) s
  let s := s.updPu n (fun p => { p with
    lockKeep := some (lockCounts p), l2 := [], l1d := [], l1i := [], side := [], tracker := [] })
  let s := cancelWaits n true (cancelWaits n false s)
  { s with coh := { s.coh with pins := s.coh.pins.filter (fun e => match e.2 with
      | some p => p.req.master.toNat != n
      | none => true) } }

end Sys2Proof.Machine
end

