-- ==== Sys2Proof/Machine/Lifecycle.lean ====
section
/-! DEFINITION. The function lifecycle (R40 to R46), zone start and reset (R425 to R445), interrupts (R436, R437), and
the sparing controller's first steps (R270 to R279): what one event moves in its turn. -/

namespace Sys2Proof.Machine

/-- Table 2.7. -/
def lcTable : LcState → LcEv → LcOut
  | .off, .enable => .go .starting
  | .off, .disable => .noEffect
  | .off, .startDone => .ignored
  | .off, .stopDone => .ignored
  | .off, .fault => .go .fenced
  | .off, .unfence => .rejected
  | .starting, .enable => .noEffect
  | .starting, .disable => .go .stopping
  | .starting, .startDone => .go .on
  | .starting, .stopDone => .ignored
  | .starting, .fault => .go .fenced
  | .starting, .unfence => .rejected
  | .on, .enable => .noEffect
  | .on, .disable => .go .stopping
  | .on, .startDone => .ignored
  | .on, .stopDone => .ignored
  | .on, .fault => .go .fenced
  | .on, .unfence => .rejected
  | .stopping, .enable => .go .stoppingArmed
  | .stopping, .disable => .noEffect
  | .stopping, .startDone => .ignored
  | .stopping, .stopDone => .go .off
  | .stopping, .fault => .go .fenced
  | .stopping, .unfence => .rejected
  | .stoppingArmed, .enable => .noEffect
  | .stoppingArmed, .disable => .go .stopping
  | .stoppingArmed, .startDone => .ignored
  | .stoppingArmed, .stopDone => .go .starting
  | .stoppingArmed, .fault => .go .fenced
  | .stoppingArmed, .unfence => .rejected
  | .fenced, .enable => .rejected
  | .fenced, .disable => .rejected
  | .fenced, .startDone => .ignored
  | .fenced, .stopDone => .ignored
  | .fenced, .fault => .ignored
  | .fenced, .unfence => .go .off

/-- A transition's effect on the lifecycle register (R41). -/
def lcMove (dst : LcState) (cause : Nat) (l : Lc) : Lc :=
  { l with state := dst, prev := l.state, trans := true, transCnt := l.transCnt + 1, lastCause := BitVec.ofNat 4 cause }

/-- A core's island loses power: its control stores lose their words, and LOADED clears (R132); a CE's core stops. -/
def powerOffCore (n : Nat) (p : Pu) : Pu :=
  let p := { p with loaded := false, cs := [], csB := [] }
  if n < 48 then p else { p with t0 := {} }

/-- The power switch of a PU or CE island follows its function: on from STARTING, off in OFF, where the island is fenced
before its switch opens (Table 2.8, R18, R541). A CE's STARTING takes the module node ID (R350, R379). -/
def lcPower (f : Fn) (dst : LcState) (s : State) : State :=
  let go := fun (k : Nat) (s : State) =>
    match dst with
    | .starting => s.updIsland (coreIsl k) (fun x => { x with power := true, offFence := false })
    | .off => (s.updIsland (coreIsl k) (fun x => { x with power := false, offFence := true })).updPu k (powerOffCore k)
    | _ => s
  match f with
  | .pu n => go n s
  | .ce n =>
    go (48 + n) (if dst = .starting then s.updCe n (fun c => { c with nodeId := BitVec.ofNat 16 (s.entry 0x8000 1 0) }) else s)
  | _ => s

/-- One transition: the register, and the interrupt to Phobos where IEN is 1 (R41). -/
def lcGo (f : Fn) (dst : LcState) (cause : Nat) (s : State) : State :=
  let l := s.lcOf f
  let s := lcPower f dst (s.setLc f (lcMove dst cause l))
  if l.ien then { s with mgmt := { s.mgmt with lcIrq := s.mgmt.lcIrq ++ [fnNum f] } } else s

/-- LAST_RESULT of a command. -/
def lcResult (f : Fn) (r : Nat) (s : State) : State :=
  s.setLc f { s.lcOf f with lastResult := BitVec.ofNat 2 r }

/-- The block whose FSTAT records a function's faults (R45). -/
def fnBlk : Fn → Blk
  | .zone _ => .zm
  | .pu n => .pu n
  | .ce n => .ce n
  | .link n => .lg ⟨n.val / 64, by omega⟩
  | .cslice _ => .crypto
  | .dslice _ => .comp
  | .commit => .drain
  | .rank m _ => .mc m

/-- Number of a function within its block: INST of LC_TIMEOUT. -/
def fnInst : Fn → Nat
  | .zone z => z.val
  | .pu _ => 0
  | .ce _ => 0
  | .link n => n.val % 64
  | .cslice n => n.val
  | .dslice n => n.val
  | .commit => 0
  | .rank _ r => r.val

/-- Ranks that are populated (Table 2.5). -/
def rankPresent (s : State) (r : Nat) : Bool := decide (r < 2 ^ s.dimms.k)

/- Interrupts. -/

/-- Entry of a zone's thread map. -/
def mapEntry (s : State) (z t : Nat) : Option MapEntry := (s.zone z).tmap[t]?

/-- Is a call-up open for a position: running or waiting (R275, R278)? -/
def inCallup (s : State) (n : Nat) : Bool :=
  (match s.spc.current with | some c => c.failed == n | none => false) || s.spc.queued.any (fun c => c.failed == n)

/-- One discarded interrupt of a zone (R436). -/
def irqDiscard (z k : Nat) (s : State) : State :=
  s.updZone z (fun x => { x with irqDisc := satAdd 0xFFFF x.irqDisc k })

/-- An interrupt held for a thread during a call-up (R275): merged with the same vector; beyond 256 distinct vectors
discarded. -/
def holdIrq (z n : Nat) (th : Bool) (q : Irq) (s : State) : State :=
  let t := s.thr n th
  if t.held.any (fun e => e.1 == q.vector) then
    let s := s.setThr n th { t with held := t.held.map (fun e =>
      if e.1 = q.vector then (e.1, if e.2.toNat < q.prio.toNat then q.prio else e.2) else e) }
    s.updZone z (fun x => { x with irqMerged := satAdd 0xFFFF x.irqMerged 1 })
  else if t.held.length < 256 then s.setThr n th { t with held := t.held ++ [(q.vector, q.prio)] }
  else irqDiscard z 1 (s.updZone z (fun x => { x with holdOvf := true }))

/-- An interrupt becomes pending in a thread (R437): a vector that is pending already keeps the higher priority. -/
def pendIn (z n : Nat) (th : Bool) (vector : Nat) (prio : BitVec 4) (s : State) : State :=
  match tget none (s.thr n th).pend vector with
  | none => s.updThr n th (fun t => { t with pend := tset none t.pend vector (some prio) })
  | some p =>
    let s := s.updThr n th (fun t => { t with
      pend := tset none t.pend vector (some (if p.toNat < prio.toNat then prio else p)) })
    s.updZone z (fun x => { x with irqMerged := satAdd 0xFFFF x.irqMerged 1 })

/-- Delivery to a zone-local thread through the map (R437): an invalid entry discards, with IRQ_NOTHREAD. -/
def irqToThread (z : Nat) (q : Irq) (s : State) : State :=
  match mapEntry s z q.thread with
  | some e =>
    if e.valid then
      if inCallup s e.pu then holdIrq z e.pu e.th q s else pendIn z e.pu e.th q.vector q.prio s
    else latch .zm 10 z (65536 * q.thread + q.vector) 1 (irqDiscard z 1 s)
  | none => latch .zm 10 z (65536 * q.thread + q.vector) 1 (irqDiscard z 1 s)

/-- The router's treatment of an interrupt by the state of its zone (Table 16.10). -/
def routeIrq (z : Fin 16) (q : Irq) (s : State) : State :=
  match s.lcs (.zone z) with
  | .off => irqDiscard z 1 s
  | .starting =>
    if (s.zone z).hold.length < 256 then s.updZone z (fun x => { x with hold := x.hold ++ [q] })
    else irqDiscard z 1 (s.updZone z (fun x => { x with holdOvf := true }))
  | .on => irqToThread z q s
  | .stopping => irqDiscard z 1 s
  | .stoppingArmed => irqDiscard z 1 s
  | .fenced => irqDiscard z 1 s

/-- Held interrupts become pending in arrival order when the zone enters ON (R441). -/
def releaseHeld (z : Fin 16) (s : State) : State :=
  let l := (s.zone z).hold
  l.foldl (fun s q => irqToThread z q s) (s.updZone z (fun x => { x with hold := [] }))

/- Zone reset. -/

/-- PUs of a zone's MASK. -/
def zonePus (s : State) (z : Nat) : List (Fin 48) := (List.finRange 48).filter (fun n => (s.zone z).pus.getLsbD n.val)

/-- A zone's thread halts at an instruction boundary (Table 16.12 step 2, R257): unretired instructions are squashed,
the reservation is lost, an open transaction is discarded without a code. -/
def haltThread (n : Nat) (th : Bool) (s : State) : State :=
  (cancelWaits n th (dropTx n th s)).updThr n th (fun t => { t with
    running := false, resv := none, wait := .none, sb := t.sb.filter keepReleased, shadow := [], latch := [], replay := [],
    note := none, pend := [], held := [], stamp := none })

/-- Interrupts pending or held in a zone's threads. -/
def pendingOf (s : State) (z : Nat) : Nat :=
  ((zonePus s z).map (fun (n : Fin 48) => (s.thr n false).pend.length + (s.thr n true).pend.length +
    (s.thr n false).held.length + (s.thr n true).held.length)).sum

/-- A zone that stops abandons the call-up for one of its positions (R279): the spare receives DISABLE. -/
def abandonCallup (z : Nat) (s : State) : State :=
  let s := { s with spc := { s.spc with queued := s.spc.queued.filter (fun c => c.zone != some z) } }
  match s.spc.current with
  | some c =>
    if c.zone = some z then
      let sp := s.spc.spare
      let f : Fn := .pu (Fin.ofNat 48 sp)
      let s := if s.spc.step ≠ 0 ∧ s.lcs f = .starting then lcGo f .stopping 6 s else s
      { s with spc := { s.spc with current := none, step := 0, result := 1 } }
    else s
  | none => s

/-- Step 1 and 2 of the zone reset sequence (R443): discarding starts, threads halt, both quiesces go out. A sequence
that runs already goes on. -/
def zoneResetStart (z : Fin 16) (s : State) : State :=
  if (s.zone z).resetBusy then s
  else
    let lost := (s.zone z).hold.length + pendingOf s z
    let pus := zonePus s z
    let s := irqDiscard z lost s
    let s := abandonCallup z s
    let s := pus.foldl (fun (s : State) (n : Fin 48) => haltThread n true (haltThread n false s)) s
    let eng := allBelow 32 (fun l => match s.ceOf l with
      | some c => decide (s.lcs (.ce c) = .on)
      | none => false)
    let acc := [false, true].filter (fun c => !islandFenced s (if c then .comp else .crypto))
    s.updZone z (fun x => { x with
      hold := [], resetBusy := true, chanTodo := eng, accTodo := acc, drainDue := true, homeDue := true })

/-- A zone enters FENCED with a cause and its reset runs (R442). -/
def fenceZone (z : Fin 16) (cause : Nat) (s : State) : State :=
  let s := match lcTable (s.lcs (.zone z)) .fault with
    | .go dst => lcGo (.zone z) dst cause s
    | _ => s
  zoneResetStart z (s.updZone z (fun x => { x with fault := true }))

/-- A class C3 fault of a zone, without what a freed sparing controller does next (R442, R465). -/
def zoneFatalCore (b : Blk) (src inst info : Nat) (z : Fin 16) (s : State) : State :=
  let s := latch b src inst info 3 s
  let s := latch .zm 12 z (65536 * (sourceOf b src).toNat + blkInst b) 3 s
  fenceZone z 3 s

/- Sparing. -/

/-- Order in which spares of quadrant q are taken (R273). -/
def spareOrder (q : Nat) : List Nat :=
  (List.range 4).flatMap (fun i =>
    let b := (q + i) % 4 * 12
    [b + 10, b + 11] ++ (List.range 10).map (fun p => b + p))

/-- The first good cold spare for a failed position (R273). -/
def pickSpare (s : State) (failed : Nat) : Option Nat :=
  (spareOrder (failed / 12)).find? (fun n =>
    s.spc.spareSet.getLsbD n && s.spc.goodPu.getLsbD n &&
    (s.lcs (.pu (Fin.ofNat 48 n)) == .off || s.spc.proving.any (fun p => !p.ce && p.n == n)))

/-- Threads of a failed position are lost (R277): recorded as THREAD_LOST, class C3 for the zone. -/
def threadLost (failed : Nat) (zone : Option Nat) (l0 l1 : Bool) (s : State) : State :=
  match zone with
  | none => s
  | some z => zoneFatalCore .spc 9 failed (l0.toNat + 2 * l1.toNat) (Fin.ofNat 16 z) s

/-- PU state at island power-up: caches, TLBs and predictor empty, lock bits clear, and the counts since the last STARTING
zero (R132, R139, R162, R211, R213, R266). -/
def powerUpPu (p : Pu) : Pu :=
  { p with
    l2 := [], l1d := [], l1i := [], side := [], tracker := [], dtlb := [], tlb := [], walk := [], segCache := []
    addrTab := [], histTab := [], chooser := [], targets := [], ldCnt := 0, retryCnt := 0, parCnt := 0
    retrying := false, lockKeep := none
    t0 := { p.t0 with gh := 0, ras := [], ckGh := 0, ckRas := [], fetchLatch := none }
    t1 := { p.t1 with gh := 0, ras := [], ckGh := 0, ckRas := [], fetchLatch := none }
    t1run := p.t1en }

/-- The spare's part of a call-up begins: OFF to STARTING with LAST_CAUSE 6 (R274). A proving run is taken over (R282). -/
def beginSpare (c : CallUp) (n : Nat) (s : State) : State :=
  let pr := s.spc.proving.find? (fun p => !p.ce && p.n == n)
  let step := match pr with
    | some p => if 2 ≤ p.stage then 6 else if 1 ≤ p.stage then 5 else 4
    | none => 4
  let f : Fn := .pu (Fin.ofNat 48 n)
  let s := if s.lcs f = .off then lcGo f .starting 6 s else s
  let s := if pr.isNone then s.updPu n powerUpPu else s
  { s with spc := { s.spc with
      current := some c, spare := n, step := step, attempt := s.spc.attempt + 1, unit := false,
      failedPos := c.failed, proving := s.spc.proving.filter (fun p => p.ce || p.n != n) } }

/-- The sparing controller takes the next failure (R273, R277, R278), as long as it is free; fuel bounds the failures. -/
def settleSpc : Nat → State → State
  | 0, s => s
  | fuel + 1, s =>
    match s.spc.current, s.spc.queued with
    | none, c :: rest =>
      let s := { s with spc := { s.spc with queued := rest, attempt := 0 } }
      match pickSpare s c.failed with
      | some n => beginSpare c n s
      | none =>
        let s := { s with spc := { s.spc with result := 2, failedPos := c.failed, unit := false, step := 0 } }
        settleSpc fuel (threadLost c.failed c.zone c.run0 c.run1 s)
    | _, _ => s

/-- A class C3 fault of a zone (R465). -/
def raiseC3 (b : Blk) (src inst info : Nat) (z : Fin 16) (s : State) : State :=
  settleSpc 64 (zoneFatalCore b src inst info z s)

/-- A fault that is C3 for the zone that is concerned, if any, and class C2 of the unit otherwise (R210). -/
def raiseZone (b : Blk) (src inst info : Nat) (z : Option (Fin 16)) (s : State) : State :=
  match z with
  | some z => raiseC3 b src inst info z s
  | none => latch b src inst info 2 s

/-- The zone whose segment store maps a line (R210). -/
def zoneOfLine (s : State) (l : Nat) : Option (Fin 16) :=
  (List.finRange 16).find? (fun z => (s.zone z).segHeld &&
    (s.zone z).seg.any (fun e => bit 63 e.2 && segKind e.2 != 2 && segPseg e.2 == l / 2 ^ 22))

/-- What the state buffer keeps of a thread at the stop (R256, R267): its checkpoint, or the abort state of an open
transaction with code 15. -/
def stopState (t : Thread) : Arch × Option Tx :=
  match t.tx with
  | none => (t.ckpt, none)
  | some x =>
    if x.constrained then ({ x.saved with pc := x.openPc, sw := putBit 23 false x.saved.sw }, some x)
    else ({ (x.saved.wg x.d 15) with pc := x.openPc + 4, sw := putBit 23 false x.saved.sw }, some x)

/-- A failed position stops: unretired work is squashed and no thread runs (R274 step 1); a proving run of it ends. -/
def stopPosition (n : Nat) (s : State) : State :=
  let s := { s with spc := { s.spc with proving := s.spc.proving.filter (fun (p : Proving) =>
      (if p.ce then 48 + p.n else p.n) != n) } }
  let f := fun (th : Bool) (s : State) =>
    (cancelWaits n th (dropTx n th s)).updThr n th (fun t => { t with
      running := false, resv := none, sb := t.sb.filter keepReleased, shadow := [] })
  f true (f false s)

/-- A position is declared failed (R270): FAILED, FENCED with LAST_CAUSE 3, its source as class C2; a call-up for a
position of a zone that is not OFF, else the failed set. readable: the checkpoints can be read. -/
def declareFailed (n : Fin 48) (src info : Nat) (readable0 readable1 : Bool) (s : State) : State :=
  let z := s.puZone n
  let p := s.pu n
  let ok := fun (t : Thread) => t.ckBad != (true, true) && t.latBad != (true, true)
  let readable0 := readable0 && ok p.t0
  let readable1 := readable1 && ok p.t1
  let (a0, x0) := stopState p.t0
  let (a1, x1) := stopState p.t1
  let c : CallUp :=
    { failed := n, zone := z.map (·.val), arch0 := if readable0 then some a0 else none,
      arch1 := if readable1 then some a1 else none, latch0 := p.t0.latch, latch1 := p.t1.latch,
      run0 := p.t0.running, run1 := p.t1.running, txCode0 := x0, txCode1 := x1, since := s.tb.tod }
  let s := s.updPu n (fun p => { p with failed := true, retrying := false })
  let s := latch (.pu n) src 0 info 2 s
  let s := match lcTable (s.lcs (.pu n)) .fault with
    | .go dst => lcGo (.pu n) dst 3 s
    | _ => s
  let s := stopPosition n s
  let s := { s with spc := { s.spc with
    failedSet := s.spc.failedSet ||| BitVec.twoPow 48 n, goodPu := s.spc.goodPu &&& ~~~(BitVec.twoPow 48 n)
    spareSet := s.spc.spareSet &&& ~~~(BitVec.twoPow 48 n) } }
  match z with
  | none => s
  | some zn =>
    let s := { s with spc := { s.spc with drains := s.spc.drains ++ [(n.val, some zn.val)] } }
    if readable0 && readable1 then settleSpc 64 { s with spc := { s.spc with queued := s.spc.queued ++ [c] } }
    else
      let s := threadLost n (some zn.val) (!readable0) (!readable1) s
      settleSpc 64 { s with spc := { s.spc with result := 3, failedPos := n } }

/-- A call-up attempt of the present spare fails (R276): FENCED, its good bit cleared, and the next spare starts. -/
def spareFails (cause : Nat) (s : State) : State :=
  match s.spc.current with
  | none => s
  | some c =>
    let n := s.spc.spare
    let f : Fn := .pu (Fin.ofNat 48 n)
    let s := match lcTable (s.lcs f) .fault with
      | .go dst => lcGo f dst cause s
      | _ => s
    let s := { s with spc := { s.spc with
      goodPu := s.spc.goodPu &&& ~~~(BitVec.twoPow 48 n), failedSet := s.spc.failedSet ||| BitVec.twoPow 48 n,
      spareSet := s.spc.spareSet &&& ~~~(BitVec.twoPow 48 n) } }
    match pickSpare s c.failed with
    | some n => beginSpare c n s
    | none =>
      let s := { s with spc := { s.spc with current := none, step := 0, result := 2 } }
      settleSpc 64 (threadLost c.failed c.zone c.run0 c.run1 s)

/- Channel engines. -/

/-- Engines of a pair (R23). -/
def pairEngines (p : Nat) : List Nat := (32 + p) :: (List.range 8).map (fun i => 8 * p + i)

/-- Pair of an engine. -/
def pairOf (n : Nat) : Nat := if n < 32 then n / 8 else n - 32

/-- A good engine of the pair that holds no logical engine (R287). -/
def pickCe (s : State) (p : Nat) : Option Nat :=
  (pairEngines p).find? (fun n => s.spc.goodCe.getLsbD n && (s.ce n).le.toNat == 0x3F &&
    (s.lcs (.ce (Fin.ofNat 36 n)) == .off || s.spc.proving.any (fun q => q.ce && q.n == n)))

/-- Links of a logical engine. -/
def leLinks (l : Nat) : List Nat := (List.range 16).map (fun i => 16 * l + i)

/-- With no spare left, the engine's 16 links stop their IDLE frames (R393). -/
def silenceLinks (l : Nat) (s : State) : State :=
  (leLinks l).foldl (fun s i => s.updLink i (fun k => { k with idleOnly := true })) s

/-- A spare engine takes a failed engine's logical engine and starts (R287); access rows move (R275). -/
def moveRow (src dst : Nat) (s : State) : State :=
  { s with tabs := (s.tabs.map (fun (e : Nat × AccTab) =>
      let v := tget (rowDefault e.1 src) e.2.rows src
      (e.1, { e.2 with rows := tset (rowDefault e.1 src) (tset (rowDefault e.1 dst) e.2.rows dst v) src 0 }))) }

/-- A channel engine is declared failed (R287): its core stops, and a spare of its pair is called up, or its links fall
silent. The access-table rows are copied here, at the declaration (DESIGN CHOICE, assumption 81: R287 says "as in R275",
and a CE's call-up has no step 7). -/
def ceFailed (n : Fin 36) (s : State) : State :=
  let l := (s.ce n).le
  let s := stopPosition (48 + n) s
  let s := { s with spc := { s.spc with
    goodCe := s.spc.goodCe &&& ~~~(BitVec.twoPow 36 n), failedCe := s.spc.failedCe ||| BitVec.twoPow 36 n } }
  if 32 ≤ l.toNat then s
  else
    let s := s.updCe n (fun c => { c with le := 0x3F })
    let s := s.updLe l.toNat (fun x => { x with gap := true, gapAt := s.tb.tod, xq := [], epCopy := [], node := [], disp := [] })
    match pickCe s (pairOf n) with
    | some m =>
      let s := s.updCe m (fun c => { c with le := l })
      let s := if s.lcs (.ce (Fin.ofNat 36 m)) = .off then lcGo (.ce (Fin.ofNat 36 m)) .starting 6 s else s
      let s := moveRow (64 + n) (64 + m) s
      { s with spc := { s.spc with
          proving := s.spc.proving.filter (fun q => !q.ce || q.n != m), ceCalls := s.spc.ceCalls ++ [(n.val, m)] } }
    | none => silenceLinks l.toNat { s with spc := { s.spc with unit := true, result := 2 } }

/- Memory channels. -/

/-- A channel is fenced as a whole, and its group runs degraded or is lost (R301, R302). -/
def fenceChannel (m : Fin 20) (s : State) : State :=
  let g := m.val / 5
  let s := (List.finRange 4).foldl (fun (s : State) (r : Fin 4) =>
    if rankPresent s r then
      match lcTable (s.lcs (.rank m r)) .fault with
      | .go dst => lcGo (.rank m r) dst 3 s
      | _ => s
    else s) s
  match (s.grp g).failed with
  | some c =>
    if c = m.val % 5 then s
    else if (s.grp g).lost then s
    else
      let s := latch (.mc m) 13 0 0 2 (s.updGrp g (fun x => { x with lost := true }))
      if s.inMode [.provision] then latch .mgt 12 (s.mgmt.active.toNat) 0 2 (latch (.mc m) 14 0 0 2 s)
      else raiseC4 (.mc m) 14 0 0 true s
  | none => latch (.mc m) 13 0 0 2 (s.updGrp g (fun x => { x with failed := some (m.val % 5), rebuild := none }))

/- Slices. -/

/-- A slice's queued descriptors and those in progress end with code 11 (R415): the common control writes their completions.
One that has failed keeps its own code. -/
def abandonJobs (comp : Bool) (n : Nat) (s : State) : State :=
  s.updSlice comp n (fun x => { x with jobs := x.jobs.map (fun j =>
    match j.stage with
    | .queued => { j with stage := .ran 11 0 0 0 false, held := false }
    | .ran 0 _ _ _ _ => { j with stage := .ran 11 0 0 0 false, held := false }
    | _ => { j with held := false }) })

/- What a fence does to each kind of function. -/

/-- A function enters FENCED on a fault or timeout (R41, R44, R45), with what that does to its unit. -/
def fenceFn (f : Fn) (cause : Nat) (s : State) : State :=
  match f with
  | .zone z => settleSpc 64 (fenceZone z cause s)
  | .pu n =>
    if s.spc.step ≠ 0 ∧ s.spc.spare = n.val ∧ s.spc.current.isSome then spareFails cause s
    else
      match lcTable (s.lcs f) .fault with
      | .go dst => stopPosition n (lcGo f dst cause s)
      | _ => s
  | .ce n =>
    match lcTable (s.lcs f) .fault with
    | .go dst => ceFailed n (lcGo f dst cause s)
    | _ => s
  | .link n =>
    match lcTable (s.lcs f) .fault with
    | .go dst => (lcGo f dst cause s).updLink n (fun k => { k with live := false, trained := false })
    | _ => s
  | .cslice n =>
    match lcTable (s.lcs f) .fault with
    | .go dst => abandonJobs false n (lcGo f dst cause s)
    | _ => s
  | .dslice n =>
    match lcTable (s.lcs f) .fault with
    | .go dst => abandonJobs true n (lcGo f dst cause s)
    | _ => s
  | .commit =>
    match lcTable (s.lcs f) .fault with
    | .go dst => lcGo f dst cause s
    | _ => s
  | .rank m r =>
    match lcTable (s.lcs f) .fault with
    | .go dst => fenceChannel m (lcGo (.rank m r) dst cause s)
    | _ => s

/-- A fault of a function: latched in the block that records its faults, and the function fenced. -/
def faultFn (f : Fn) (src inst info cause : Nat) (s : State) : State :=
  closeGates (fenceFn f cause (latch (fnBlk f) src inst info 2 s))

/-- A class C1 fault of a promotable source (R463): promoted, it is class C2 and fences the function concerned. -/
def latchP (f : Fn) (src inst info : Nat) (s : State) : State :=
  let b := fnBlk f
  let s1 := latch b src inst info 1 s
  if effClass (blkKind b) (s.flt b) src 1 = 2 then closeGates (fenceFn f 3 s1) else s1

end Sys2Proof.Machine
end

