-- ==== Sys2Proof/Machine/Drain.lean ====
section
/-! DEFINITION. The drain to flash, its records, and Restore (chapter 12, R326 to R342). -/

namespace Sys2Proof.Machine

/-- Insert a number in a rising list without repeats. -/
def insNat (n : Nat) : List Nat → List Nat
  | [] => [n]
  | m :: l => if n < m then n :: m :: l else if n = m then m :: l else m :: insNat n l

/-- A list of numbers in rising order without repeats. -/
def sortNat (l : List Nat) : List Nat := l.foldl (fun a n => insNat n a) []

/-- Content of a commit block at the controllers. -/
def blockCells (s : State) (b : Nat) : List Host.Cell := s.dram.filter (fun c => c.1 / 262144 == b)

/-- The 256 KiB of a block that a record's cells give. -/
def blockBytes (b : Nat) (cells : List Host.Cell) : List Byte :=
  (List.range 262144).map (fun i => tget 0 cells (262144 * b + i))

/-- The data of a block record (R338): AES-256-XTS under the drain key, in 64 data units of 4 KiB; the tweak of unit j is, big-endian,
the generation and b × 64 + j. -/
def encBlock (key : BitVec 512) (b gen : Nat) (data : List Byte) : List Byte :=
  let k := toBe 64 key.toNat
  ((pieces 4096 data).zipIdx).flatMap (fun u => xts true k (toBe 8 gen ++ toBe 8 (b * 64 + u.2)) 4096 u.1)

/-- Bytes 0x00 to 0x17 of a block record's header (Table 12.9a). -/
def blockHead (b gen : Nat) (tod : Word) : List Byte :=
  toBe 4 0x43424C4B ++ toBe 4 b ++ toBe 8 gen ++ toBe 8 tod.toNat

/-- A block record as flash holds it (Table 12.9a): the header with its CRC-32C, and the encrypted data. An open record is
the header of block 0xFFFFFFFF without data. -/
def blockRecord (b gen : Nat) (tod : Word) (enc : List Byte) : List Byte :=
  let head := blockHead b gen tod
  head ++ toBe 4 (crc32c (head ++ enc)) ++ List.replicate 228 0 ++ enc

/-- Can records be written: at least two good flash channels (R339)? -/
def flashUsable (s : State) : Bool := decide (flashFailed s ≤ 14)

/-- The block record of b in the generation in force is written (R338), and its location kept: for the next complete index,
and among those of this generation. -/
def writeBlockRec (b : Nat) (s : State) : State :=
  if flashUsable s then
    let at_ := s.commit.log.length + 1
    { s with commit := { s.commit with
        log := s.commit.log ++ [.block b s.commit.gen s.tb.tod (blockCells s b)]
        named := tset 0 s.commit.named b at_, drained := tset 0 s.commit.drained b at_ } }
  else s

/-- The open record of the next generation is written (R326). -/
def writeOpenRec (s : State) : State :=
  let g := s.commit.gen + 1
  { s with commit := { s.commit with
      gen := g, openDone := true, openDue := false, log := s.commit.log ++ [.opened g s.tb.tod] } }

/-- The drain begins: the dirty map is frozen, blocks ascending (R333 steps 6 and 7). -/
def drainStart (s : State) : State :=
  { s with commit := { s.commit with
      phase := 2, frozenMap := some (sortNat s.commit.dirty), done := 0, incomplete := false,
      cleaning := none, cancelled := false } }

/-- The drain's next block is written. -/
def drainNext (s : State) : State :=
  match s.commit.frozenMap with
  | some (b :: rest) =>
    let s := writeBlockRec b s
    { s with commit := { s.commit with frozenMap := some rest, done := s.commit.done + 1 } }
  | _ => s

/-- Every block that is left is written, ascending; n bounds them. -/
def drainRest : Nat → State → State
  | 0, s => s
  | n + 1, s => drainRest n (drainNext s)

/-- The index of the generation is written (R336, R338): complete, naming every block with a record, or incomplete,
naming the blocks whose records this generation has written, cleaned or drained (DEDUCED, assumption 84). A complete index
leaves no block dirty and the next generation unopened. -/
def writeIndex (complete : Bool) (s : State) : State :=
  if flashUsable s then
    let blocks := if complete then s.commit.named else s.commit.drained
    let r := FlashRec.index s.commit.gen complete s.commit.size.toNat blocks
    { s with commit := { s.commit with
        log := s.commit.log ++ [r], phase := 6, incomplete := !complete
        drained := if complete then [] else s.commit.drained
        dirty := if complete then [] else s.commit.dirty
        openDone := if complete then false else s.commit.openDone
        frozenMap := none } }
  else { s with commit := { s.commit with phase := 7, frozenMap := none } }

/-- The rest of the drain and its complete index, with the generation kept for 0x3111:00. With nothing written since the
last complete index, that index stands. -/
def drainFinish (s : State) : State :=
  let n := match s.commit.frozenMap with | some l => l.length | none => 0
  let s := drainRest n s
  if s.commit.openDone || !s.commit.log.any (fun r => match r with
      | .index _ true _ _ => true
      | _ => false) then
    let s := if s.commit.openDone then s else { s with commit := { s.commit with gen := s.commit.gen + 1 } }
    let s := writeIndex true s
    { s with md := { s.md with lastIndex := if flashUsable s then s.commit.gen else s.md.lastIndex } }
  else { s with commit := { s.commit with phase := 6, frozenMap := none } }

/-- Highest generation with a complete index. -/
def completeGen (log : List FlashRec) : Option Nat :=
  log.foldl (fun a r => match r with
    | .index g true _ _ => some (match a with | some h => Nat.max h g | none => g)
    | _ => a) none

/-- Highest generation number in the log, open records included (R340). -/
def highestGen (log : List FlashRec) : Nat :=
  log.foldl (fun a r => match r with
    | .index g _ _ _ => Nat.max a g
    | .opened g _ => Nat.max a g
    | .block _ g _ _ => Nat.max a g) 0

/-- Does the log hold an index record or an open record (Table 2.2)? -/
def logHasImage (log : List FlashRec) : Bool :=
  log.any (fun r => match r with
    | .index _ _ _ _ => true
    | .opened _ _ => true
    | .block _ _ _ _ => false)

/-- Content of a block whose record stands at a location that an index names. -/
def recordAt (log : List FlashRec) (loc : Nat) : Option (List Host.Cell) :=
  if loc = 0 then none
  else match log[loc - 1]? with
    | some (.block _ _ _ d) => some d
    | _ => none

/-- Indexes that Restore loads (R340): the last complete one, then every newer incomplete one, generations ascending. -/
def restoreChain (log : List FlashRec) : List (Nat × Bool × Nat × Tbl Nat) :=
  let g0 := completeGen log
  let base := log.filterMap (fun r => match r with
    | .index g true z bs => if some g = g0 then some (g, true, z, bs) else none
    | _ => none)
  let newer := log.filterMap (fun r => match r with
    | .index g false z bs => if (match g0 with | some h => decide (h < g) | none => true) then some (g, false, z, bs) else none
    | _ => none)
  base.take 1 ++ newer

/-- Memory and DRAM with the cells of one block replaced. -/
def loadBlock (b : Nat) (cells : List Host.Cell) (s : State) : State :=
  let keep := fun (m : List Host.Cell) => memPuts (m.filter (fun c => c.1 / 262144 != b)) cells
  { s with mem := keep s.mem, dram := keep s.dram }

/-- Does an open record without an index of its generation stand in the log (Table 12.9, result 3)? -/
def openUnanswered (log : List FlashRec) : Bool :=
  log.any (fun r => match r with
    | .opened g _ => !log.any (fun q => match q with
        | .index h _ _ _ => h == g
        | _ => false)
    | _ => false)

/-- A block whose record fails is loaded with zeros and every line of it poisoned (R341). -/
def poisonBlock (b : Nat) (s : State) : State :=
  (List.range 1024).foldl (fun s i => s.addPoison (1024 * b + i)) (loadBlock b [] s)

/-- The blocks that one index of the chain names are loaded, each from the record at its location. -/
def loadIndex (blocks : Tbl Nat) (s : State) : State :=
  blocks.foldl (fun s e => match recordAt s.commit.log e.2 with
    | some d => loadBlock e.1 d s
    | none => s) s

/-- The commit region is empty before its blocks are loaded. -/
def clearRegion (s : State) : State :=
  let region := regionBlocks s
  let zero := fun (m : List Host.Cell) => m.filter (fun c => decide (region ≤ c.1 / 262144))
  { s with mem := zero s.mem, dram := zero s.dram, poison := s.poison.filter (fun l => decide (region ≤ lineBlock l)) }

/-- What a Restore leaves in the commit store's record and in 0x3111 and 0x3112: the result, how many blocks failed,
and the blocks that the restored image names. -/
def restoreDone (result failed : Nat) (named : Tbl Nat) (s : State) : State :=
  { s with
    commit := { s.commit with
      dirty := [], gen := highestGen s.commit.log, openDone := false, openDue := false, phase := 6
      done := named.length, named := named }
    md := { s.md with
      restored := some result, lastRestore := result, restoreBad := failed, lastIndex := (completeGen s.commit.log).getD 0 } }

/-- Restore (R340, R341): the blocks of the chain are loaded, each generation over the one before; blocks in bad, whose
records fail even after their row is rebuilt, are poisoned, and without the drain key every block that the chain names is
(R405); badIx: generations whose index does not verify. The result code of Table 12.9, the highest that applies (DESIGN
CHOICE, assumption 84). -/
def restore (bad badIx : List Nat) (s : State) : State :=
  let log := s.commit.log.filter (fun r => match r with
    | .index g _ _ _ => !badIx.contains g
    | _ => true)
  let chain := restoreChain log
  let tooBig := chain.any (fun e => decide (s.commit.size.toNat < e.2.2.1))
  let isNamed := fun (b : Nat) => chain.any (fun e => e.2.2.2.any (fun x => x.1 == b))
  let named := if tooBig then [] else chain.foldl (fun (t : Tbl Nat) e => e.2.2.2.foldl (fun t x => tset 0 t x.1 x.2) t) []
  let failed := if tooBig then [] else if s.crypto.drainKey.isNone then named.map (·.1) else sortNat (bad.filter isNamed)
  let result := if tooBig then 5 else if failed ≠ [] then 4 else if openUnanswered log then 3
    else if chain.any (fun e => !e.2.1) then 2 else 1
  let s := clearRegion s
  let s := if tooBig then s else chain.foldl (fun s e => loadIndex e.2.2.2 s) s
  restoreDone result failed.length named (failed.foldl (fun s b => poisonBlock b s) s)

end Sys2Proof.Machine
end

