-- ==== Sys2Proof/Machine/LcWork.lean ====
section
/-! DEFINITION. What STARTING and STOPPING do for each kind of function (Table 2.8), and lifecycle commands (R41 to R46). -/

namespace Sys2Proof.Machine

/-- A table of big-endian 8-byte entries as memory holds it from address a, n entries; entries of zero are not listed. -/
def loadWords (m : List Host.Cell) (a n : Nat) : Tbl Word :=
  (m.filter (fun c => decide (a ≤ c.1) && decide (c.1 < a + 8 * n))).foldl
    (fun (t : Tbl Word) c => tupd 0 t ((c.1 - a) / 8) (fun w => w ||| ((c.2.setWidth 64).shiftLeft (8 * (7 - (c.1 - a) % 8))))) []

/-- A table of big-endian 2-byte entries. -/
def loadHalves (m : List Host.Cell) (a n : Nat) : Tbl (BitVec 16) :=
  (m.filter (fun c => decide (a ≤ c.1) && decide (c.1 < a + 2 * n))).foldl
    (fun (t : Tbl (BitVec 16)) c => tupd 0 t ((c.1 - a) / 2) (fun w => w ||| ((c.2.setWidth 16).shiftLeft (8 * (1 - (c.1 - a) % 2))))) []

/-- May a valid segment entry name its physical segment (Table 6.7)? -/
def segAllowed (s : State) (e : Word) : Bool :=
  let p := segPseg e
  match segKind e with
  | 0 => decide (p ≤ 0xFFF) && decide (s.commit.size.toNat ≤ p)
  | 1 => decide (1 ≤ p) && decide (p < s.commit.size.toNat)
  | 2 => p == 0x200000 || p == 0x203C00
  | _ => false

/-- Does a DRAM or COMMIT DRAM entry name a segment that the store of another zone holds (R159)? -/
def segTaken (s : State) (z : Nat) (e : Word) : Bool :=
  segKind e != 2 && (List.range 16).any (fun y => y != z && (s.zone y).segHeld &&
    (s.zone y).seg.any (fun f => bit 63 f.2 && segKind f.2 != 2 && segPseg f.2 == segPseg e))

/-- The checks of R159 on a whole table. -/
def segTableOk (s : State) (z : Nat) (t : Tbl Word) : Bool :=
  let v := t.filter (fun e => bit 63 e.2)
  v.all (fun e => segAllowed s e.2 && !segTaken s z e.2 &&
    (segKind e.2 == 2 || !v.any (fun f => f.1 != e.1 && segKind f.2 != 2 && segPseg f.2 == segPseg e.2)))

/-- Does the zone's ENTRY lie in a valid segment of kind DRAM (R425)? -/
def entryOk (cfg : Word) (t : Tbl Word) : Bool :=
  let e := tget 0 t (fld 41 30 cfg)
  bit 63 e && segKind e == 0

/-- The checks of R425 but for the segment table. -/
def zoneCfgOk (s : State) (z : Fin 16) (t : Tbl Word) : Bool :=
  let m := (s.zone z).pus
  m != 0 && (m &&& (s.spc.spareSet ||| s.spc.failedSet)) == 0 &&
  (zonePus s z).all (fun (n : Fin 48) => s.lcs (.pu n) == .off) &&
  (List.finRange 16).all (fun y => y == z || s.lcs (.zone y) == .off || ((s.zone y).pus &&& m) == 0) &&
  entryOk (s.zone z).cfg t

/-- Thread map of a zone (R426): thread 1 of a PU is valid where T1_EN is 1. -/
def buildMap (s : State) (z : Nat) : List MapEntry :=
  (zonePus s z).flatMap (fun (n : Fin 48) => [{ pu := n, th := false, valid := true }, { pu := n, th := true, valid := (s.pu n).t1en }])

/-- Salts that a new one must differ from: those of every other zone that is ON, rising (R135). -/
def usedSalts (z : Fin 16) (s : State) : List Nat :=
  sortNat (((List.finRange 16).filter (fun y => y != z && s.lcs (.zone y) == .on)).map (fun (y : Fin 16) => (s.zone y.val).salt.toNat))

/-- The k-th number that is not in a rising list. -/
def skipUsed : List Nat → Nat → Nat
  | [], k => k
  | u :: l, k => skipUsed l (if u ≤ k then k + 1 else k)

/-- A salt from the entropy source, drawn again until it differs from that of every other zone that is ON (R135): the
value that the last draw gives is a free value among those that differ. -/
def drawSalt (z : Fin 16) (s : State) : BitVec 16 × State :=
  let used := usedSalts z s
  let (v, s) := s.draw 16
  (BitVec.ofNat 16 (skipUsed used (v.toNat % (65536 - used.length))), s)

/-- A zone's STARTING, steps 1 to 5 (R429); a failed check fences it (R44, R425). Without a verified control-store image
no PU leaves OFF (R129). -/
def zoneStart (z : Fin 16) (s : State) : State :=
  let x := s.zone z
  let t := loadWords s.mem (32768 * fld 51 15 x.segtBase) 4096
  if !zoneCfgOk s z t then faultFn (.zone z) 9 z 0 3 s
  else if !segTableOk s z t then faultFn (.zone z) 8 z 0 3 s
  else
    let sidt := loadHalves s.mem (8192 * fld 51 13 x.sidtBase) 4096
    let (salt, s) := if bit 47 x.cfg then (BitVec.ofNat 16 (fld 63 48 x.cfg), s) else drawSalt z s
    let tmap := buildMap s z
    let s := s.updZone z (fun x => { x with
      seg := t, segHeld := true, sidt := sidt, salt := salt, tmap := tmap
      cfg := setFld 63 48 x.cfg salt.toNat })
    if !s.mgmt.imgHeld then s
    else (zonePus s z).foldl (fun (s : State) (n : Fin 48) => (lcGo (.pu n) .starting 0 s).updPu n powerUpPu) s

/-- Thread state at zone start (Table 16.4). -/
def startArch (k valid zc : Nat) (entry : Word) : Arch :=
  ({ pc := entry } : Arch).wg 1 (BitVec.ofNat 64 k) |>.wg 2 (BitVec.ofNat 64 valid) |>.wg 3 (BitVec.ofNat 64 zc)

/-- A zone enters ON (R429 steps 6 and 7): every PU of MASK is ON or FENCED; threads with a valid entry begin at
ENTRY. With no PU ON the start fails. -/
def zoneOn (z : Fin 16) (s : State) : State :=
  let pus := zonePus s z
  let on := fun (n : Fin 48) => s.lcs (.pu n) == .on
  if pus.any (fun n => s.lcs (.pu n) != .on && s.lcs (.pu n) != .fenced) then s
  else if !pus.any on then faultFn (.zone z) 9 z 0 3 s
  else
    let s := s.updZone z (fun x => { x with
      tmap := x.tmap.map (fun e => { e with valid := e.valid && s.lcs (.pu (Fin.ofNat 48 e.pu)) == .on }) })
    let tmap := (s.zone z).tmap
    let valid := (tmap.filter (fun e => e.valid)).length
    let entry := BitVec.ofNat 64 (4096 * fld 41 12 (s.zone z).cfg)
    let s := lcGo (.zone z) .on 1 s
    let s := (tmap.zipIdx).foldl (fun (s : State) (e : MapEntry × Nat) =>
      if e.1.valid then
        let a := startArch e.2 valid s.zc entry
        s.updThr e.1.pu e.1.th (fun _ => { arch := a, ckpt := a, running := true })
      else s.updThr e.1.pu e.1.th (fun _ => {})) s
    releaseHeld z s

/-- The commit region's STARTING (R323): its checks, the dirty map clean, the allowance from the budget. -/
def commitStart (s : State) : State :=
  let rankOk := (List.finRange 20).all (fun m =>
    s.lcs (.rank m 0) == .on || (s.grp (m.val / 5)).failed == some (m.val % 5))
  let sizeOk := decide (1 ≤ s.commit.size.toNat) && decide (s.commit.size.toNat ≤ s.lim.maxCommit)
  let imageOk := (restoreChain s.commit.log).all (fun e => decide (e.2.2.1 ≤ s.commit.size.toNat)) || s.md.restored.isNone
  if rankOk && sizeOk && imageOk && flashUsable s then
    { s with commit := { s.commit with
        dirty := [], cleaning := none, cancelled := false
        allow := BitVec.ofNat 19 (4096 * Nat.min s.commit.size.toNat s.plant.budget) } }
  else faultFn .commit 8 0 0 3 s

/-- The shadow delays of a rank become active where an APPLY waits for it (R312). -/
def applyDelays (r : Nat) (c : Mc) : Mc :=
  if c.applyDue.contains r then
    { c with
      applyDue := c.applyDue.filter (· != r)
      active := (List.range 20).foldl (fun (t : Tbl Word) k => tset 0 t (20 * r + k) (tget 0 c.shadow (20 * r + k))) c.active }
  else c

/-- A link's STARTING (R383, R385, R386): RATE, MEDIA, LANE, polarity and equaliser fields are read; the LANE of another
link of its quad at work fences it. -/
def linkStart (n : Fin 512) (s : State) : State :=
  let busy := fun (i : Nat) =>
    i != n.val && (match s.lcs (.link (Fin.ofNat 512 i)) with
      | .starting => true | .on => true | .stopping => true | .stoppingArmed => true | _ => false)
  let lane := fld 15 14 (s.link n).cfg
  if (List.range 4).any (fun j => busy (n.val / 4 * 4 + j) && fld 15 14 (s.link (n.val / 4 * 4 + j)).used == lane) then
    faultFn (.link n) 9 (n.val % 64) 0 3 s
  else s.updLink n (fun k => { k with
    used := k.cfg, trained := false, blockLock := false, amLock := false, live := false, second := false, hiBer := false
    curRate := bit 0 k.cfg, pre := BitVec.ofNat 6 (fld 27 22 k.cfg), main := BitVec.ofNat 6 (fld 33 28 k.cfg)
    post := BitVec.ofNat 6 (fld 39 34 k.cfg) })

/-- What entering STARTING does (Table 2.8). -/
def startWork (f : Fn) (s : State) : State :=
  match f with
  | .zone z => zoneStart z s
  | .pu n => s.updPu n powerUpPu
  | .ce n => s.updPu (48 + n) (fun _ => {})
  | .link n => linkStart n s
  | .cslice _ => s
  | .dslice _ => s
  | .commit => commitStart s
  | .rank m r => s.updMc m (applyDelays r)

/-- What entering STOPPING from STARTING or ON does (Table 2.8). -/
def stopWork (f : Fn) (s : State) : State :=
  match f with
  | .zone z => settleSpc 64 (zoneResetStart z s)
  | .pu n => stopPosition n s
  | .ce n => stopPosition (48 + n) s
  | .link n => s.updLink n (fun k => { k with live := false })
  | .cslice n => abandonJobs false n s
  | .dslice n => abandonJobs true n s
  | .commit => drainStart s
  | .rank _ _ => s

/-- Is a function's FSTAT clear for UNFENCE (R45, R442)? -/
def fstatClear (s : State) (f : Fn) : Bool :=
  match f with
  | .zone z => !(s.zone z).fault && !(s.zone z).resetBusy
  | _ => !(s.flt (fnBlk f)).valid

/-- Does an ENABLE or UNFENCE of this function meet a further condition (R423, R129, R344, Table 2.5)? -/
def lcAllowed (s : State) (f : Fn) (ev : LcEv) : Bool :=
  match ev with
  | .enable =>
    match f with
    | .zone z => decide (z.val < s.zc)
    | .rank _ r => rankPresent s r
    | .ce _ => s.mgmt.ceFwHeld
    | .pu _ => s.mgmt.imgHeld
    | _ => true
  | .unfence => fstatClear s f
  | _ => true

/-- A lifecycle command (R41) with its cause: the transition and its work, or LAST_RESULT. -/
def lcCommand (f : Fn) (ev : LcEv) (cause : Nat) (s : State) : State :=
  if !lcAllowed s f ev then lcResult f 2 s
  else match lcTable (s.lcs f) ev with
    | .rejected => lcResult f 2 s
    | .noEffect => lcResult f 1 s
    | .ignored => s
    | .go dst =>
      let busy := s.lcs f == .starting || s.lcs f == .on
      let s := lcGo f dst cause (lcResult f 0 s)
      closeGates (match dst with
        | .starting => startWork f s
        | .stopping => if busy then stopWork f s else s
        | _ => s)

/-- A mode-change command (R46): no LAST_RESULT of a command register is involved but the transition is the same. -/
def modeDisable (f : Fn) (s : State) : State :=
  match s.lcs f with
  | .off => s
  | .fenced => s
  | _ => lcCommand f .disable 5 s

/-- Has a PU finished its STOPPING work: no released store is left (Table 2.8)? -/
def sbEmpty (s : State) (n : Nat) : Bool :=
  ((s.thr n false).sb ++ (s.thr n true).sb).all (fun i => match i with
    | .store e => !e.released
    | .marker => true)

/-- The zone's reset sequence ends (Table 16.12 step 7): stores, salt and map are released, and the final state is
reached. -/
def zoneResetFinish (z : Fin 16) (s : State) : State :=
  let s := s.updZone z (fun x => { x with
    seg := [], segHeld := false, sidt := [], salt := 0, tmap := [], resetBusy := false, homeDue := false })
  match lcTable (s.lcs (.zone z)) .stopDone with
  | .go dst =>
    let s := lcGo (.zone z) dst 2 s
    match dst with
    | .starting => zoneStart z s
    | _ => s
  | _ => s

/-- Are the acknowledgements of steps 4 and 5 in (Table 16.12)? -/
def zoneResetReady (s : State) (z : Fin 16) : Bool :=
  let x := s.zone z
  x.resetBusy && !x.drainDue && x.chanTodo.isEmpty && x.accTodo.isEmpty &&
    (zonePus s z).all (fun (n : Fin 48) => s.lcs (.pu n) == .off || s.lcs (.pu n) == .fenced)

/-- Is the STOPPING work of a function done: has a PU drained its stores? -/
def stopReady (s : State) (f : Fn) : Bool :=
  match f with
  | .pu n => sbEmpty s n
  | .ce n => sbEmpty s (48 + n)
  | _ => true

/-- What a function loses or hands over as it reaches OFF. -/
def stopLoss (f : Fn) (s : State) : State :=
  match f with
  | .pu n => losePu n (flushPu n s)
  | .ce n => losePu (48 + n) (flushPu (48 + n) s)
  | .commit => drainFinish s
  | .link n => s.updLink n (fun k => { k with trained := false, blockLock := false, amLock := false })
  | _ => s

/-- A function whose STOPPING work is done reaches its next state. -/
def stopTo (f : Fn) (dst : LcState) (s : State) : State :=
  let s := lcGo f dst 2 (stopLoss f s)
  closeGates (if dst = .starting then startWork f s else s)

/-- STOPPING work ends (Table 2.7): OFF, or STARTING again where the function is armed. The event counts only once the
work is done. -/
def lcStopDone (f : Fn) (s : State) : State :=
  match f with
  | .zone z => if zoneResetReady s z && !(s.zone z).homeDue then zoneResetFinish z s else s
  | _ =>
    match lcTable (s.lcs f) .stopDone with
    | .go dst => if stopReady s f then stopTo f dst s else s
    | _ => s

end Sys2Proof.Machine
end

