-- ==== Sys2Proof/Machine/Translate.lean ====
section
/-! DEFINITION. Translation of virtual addresses (chapter 6), answers of DRAM targets, and L1 replacement (R207). -/

namespace Sys2Proof.Machine

/-- S.TTB.EN (Table 6.2). -/
def ttbOn (a : Arch) : Bool := bit 0 a.ttb

/-- S.TTB.CTX. -/
def ttbCtx (a : Arch) : BitVec 16 := BitVec.ofNat 16 (fld 63 48 a.ttb)

/-- Is a table entry malformed (R150)? -/
def malformed (e : Word) (level : Nat) : Bool :=
  let leaf := bit 62 e
  fld 11 0 e != 0 || (!leaf && fld 61 54 e != 0) || (leaf && decide (4 ≤ fld 61 59 e)) ||
  (bit 57 e && !bit 58 e && leaf) || (leaf && bit 56 e && fld 61 59 e == 3) ||
  (leaf && level == 4) || (!leaf && level == 1) ||
  (leaf && level == 2 && fld 20 12 e != 0) || (leaf && level == 3 && fld 29 12 e != 0)

/-- Memory type code of a leaf (Table 6.4). -/
def mtOf (e : Word) : MemType :=
  match fld 61 59 e with
  | 0 => .normal
  | 1 => .normalNA
  | 2 => .commit
  | _ => .device

/-- Does a TLB entry map a virtual address for a context (R162)? -/
def tlbHit (e : TlbEntry) (va : Nat) (ctx : BitVec 16) : Bool :=
  e.va / 2 ^ e.bits == va / 2 ^ e.bits && (e.g || e.ctx == ctx)

/-- Rights of a leaf for a use (Table 6.5, R152). -/
def rightsOk (e : TlbEntry) (u : Use) (problem : Bool) : Bool :=
  (!problem || e.u) &&
  (match u with
   | .load => e.r
   | .store => e.w
   | .rmw => e.r && e.w
   | .fetch => e.x
   | .clean => e.r
   | .inval => e.w)

/-- Set of the L2 TLB, by page number (512 sets of 8 ways; DESIGN CHOICE, assumption 9). -/
def tlbSet (e : TlbEntry) : Nat := e.va / 2 ^ e.bits % 512

/-- A walk's entry goes into both TLBs, that of a fetch too, the oldest of a full set or TLB giving way; a hit in the L2 TLB
puts nothing into the L1 DTLB (DESIGN CHOICE, assumption 9: R162 says of neither what fills the L1 DTLB). -/
def tlbInsert (e : TlbEntry) (p : Pu) : Pu :=
  let same := p.tlb.filter (fun x => tlbSet x == tlbSet e)
  let tlb := if same.length < 8 then p.tlb
    else match same with
      | [] => p.tlb
      | o :: _ => p.tlb.erase o
  { p with tlb := tlb ++ [e], dtlb := (if p.dtlb.length < 128 then p.dtlb else p.dtlb.drop 1) ++ [e] }

/-- A non-leaf entry goes into the walk cache of 32 entries. -/
def walkInsert (e : WalkEntry) (p : Pu) : Pu :=
  { p with walk := (if p.walk.length < 32 then p.walk else p.walk.drop 1) ++ [e] }

/-- The zone manager fills the segment cache of 64 entries with an entry that an access used; which entry gives way is open
(DESIGN CHOICE, assumption 9: the oldest). -/
def segFill (i : Nat) (p : Pu) : Pu :=
  if p.segCache.contains i then p
  else { p with segCache := (if p.segCache.length < 64 then p.segCache else p.segCache.drop 1) ++ [i] }

/-- The zone of a PU for translation; PUs that serve none translate in none. -/
def zoneNum (s : State) (n : Nat) : Option Nat := (s.puZone n).map (·.val)

/-- The leaf that an entry e at a level gives for va (R148, R152, R153): kind and type are checked, and the TLB takes
it. -/
def walkLeaf (n : Nat) (th : Bool) (z va bits : Nat) (e : Word) (s : State) : (Except Nat TlbEntry) × State :=
  let zp := 4096 * fld 41 12 e + va % 2 ^ bits
  match segTrans s z zp with
  | none => (.error 0x30, s)
  | some (pa, kind) =>
    if !typeInKind (mtOf e) kind then (.error 0x31, s)
    else
      let page := va / 2 ^ bits * 2 ^ bits
      let t : TlbEntry := {
        va := page, zpa := zp - va % 2 ^ bits, pa := pa - va % 2 ^ bits, bits := bits
        mt := mtOf e, r := bit 58 e, w := bit 57 e, x := bit 56 e, u := bit 55 e, g := bit 54 e
        ctx := ttbCtx (s.thr n th).arch }
      (.ok t, (s.updPu n (tlbInsert t)).updPu n (segFill (zp / 2 ^ 30)))

/-- Answer of the home for a line that the L2 of core n does not hold (R17, R451). -/
def homeAnswer (n : Nat) (th : Bool) (pa : Nat) (k : AccKind) (cls : Nat) (s : State) : Option Nat × State :=
  if (l2State (s.pu n) (pa / 256)).isSome then (none, s) else asked (s.puAcc n th) pa k cls s

/-- Answer of the home to a request for ownership of a line, which the L2 of core n needs unless it holds it in M or E. -/
def ownAnswer (n : Nat) (th : Bool) (pa : Nat) (s : State) : Option Nat × State :=
  match l2State (s.pu n) (pa / 256) with
  | some .m => (none, s)
  | some .e => (none, s)
  | _ => dramAnswer (s.puAcc n th) pa .write 1 s

/-- The answer of a home as the exception of an access (Table 3.10). -/
def answerExc (va : Word) (w : Bool) (r : Option Nat × State) : Option Exc × State :=
  (r.1.map (fun d => { vec := 7, detail := d, eaddr := va, w := w }), r.2)

/-- A read of a table's line through the PU's L2 (R154), as a NORMAL load that conflicts with other threads' transactional
stores (R244). Detail 0: it waits for the line. -/
def walkLine (n : Nat) (th : Bool) (pa : Nat) (s : State) : (Except Nat Word) × State :=
  let l := pa / 256
  match homeAnswer n th pa .read 0 s with
  | (some _, s) => (.error 0x40, s)
  | (none, s) =>
    if s.poisoned l then (.error 0x40, s)
    else match obtainShared n th l 0 s with
      | (false, s) => (.error 0, s)
      | (true, s) =>
        let own := match (s.thr n th).tx with | some x => x.data | none => []
        (.ok (BitVec.ofNat 64 (ofBe ((List.range 8).map (fun i => (tget none own (pa + i)).getD (tget 0 s.mem (pa + i)))))), s)

/-- The entry that a level of the walk reads at a zone address, or the detail code of its fault (Table 6.4). -/
def walkRead (n : Nat) (th : Bool) (z lv at_ : Nat) (s : State) : (Except Nat Word) × State :=
  match segTrans s z at_ with
  | none => (.error 0x30, s)
  | some (pa, kind) =>
    let s := s.updPu n (segFill (at_ / 2 ^ 30))
    if kind ≠ 0 then (.error 0x32, s)
    else match walkLine n th pa s with
      | (.error d, s) => (.error d, s)
      | (.ok e, s) =>
        if !bit 63 e then (.error (0x10 + lv), s)
        else if malformed e lv then (.error (0x20 + lv), s)
        else (.ok e, s)

/-- One level of the walk and those below it (R153). next: zone-physical address of the table. -/
def walkFrom (n : Nat) (th : Bool) (z va : Nat) : Nat → Nat → State → (Except Nat TlbEntry) × State
  | 0, _, s => (.error 0x21, s)
  | level + 1, zpa, s =>
    let bits := 12 + 9 * level
    let r := walkRead n th z (level + 1) (zpa + 8 * (va / 2 ^ bits % 512)) s
    match r.1 with
    | .error d => (.error d, r.2)
    | .ok e =>
      if bit 62 e then walkLeaf n th z va bits e r.2
      else
        let w : WalkEntry := {
          va := va / 2 ^ bits, level := level + 1, next := 4096 * fld 41 12 e, ctx := ttbCtx (r.2.thr n th).arch }
        walkFrom n th z va level (4096 * fld 41 12 e) (r.2.updPu n (walkInsert w))

/-- The lowest level whose non-leaf entry the walk cache holds for the address (R154). -/
def walkHit (p : Pu) (va : Nat) (ctx : BitVec 16) : Option WalkEntry :=
  ([2, 3, 4] : List Nat).findSome? (fun lv =>
    p.walk.find? (fun e => e.level == lv && e.va == va / 2 ^ (12 + 9 * (lv - 1)) && e.ctx == ctx))

/-- The TLB entry that a virtual address hits, in the L1 DTLB for data, then in the L2 TLB (R162). -/
def tlbLookup (p : Pu) (u : Use) (va : Nat) (ctx : BitVec 16) : Option TlbEntry :=
  match p.dtlb.find? (fun e => u != .fetch && tlbHit e va ctx) with
  | some e => some e
  | none => p.tlb.find? (fun e => tlbHit e va ctx)

/-- An address of a channel engine's core is physical: no virtual address reaches it (R145; DEDUCED, assumption 74). -/
def cePhys (va : Word) (s : State) : Phys :=
  let pa := va.toNat % 2 ^ 52
  { pa := pa, mt := if isCommit s (pa / 256) then .commit else if isDram s (pa / 256) then .normal else .device }

/-- Translation of one address (R147, R152 to R155): physical address and memory type, or vector and detail; vector 0: the
access waits for a table's line. -/
def translate (n : Nat) (th : Bool) (va : Word) (u : Use) (s : State) : (Except (Nat × Nat) Phys) × State :=
  let a := (s.thr n th).arch
  let tv := if u = .fetch then 0x04 else 0x05
  let av := if u = .fetch then 0x06 else 0x07
  let v := va.toNat
  if 48 ≤ n then (.ok (cePhys va s), s)
  else match zoneNum s n with
  | none => (.error (av, 2), s)
  | some z =>
    if !ttbOn a then
      if 2 ^ 42 ≤ v then (.error (tv, 0x01), s)
      else match segTrans s z v with
        | none => (.error (tv, 0x30), s)
        | some (pa, kind) =>
          if u = .fetch ∧ kind = 2 then (.error (av, 1), s) else (.ok { pa := pa, mt := kindType kind }, s.updPu n (segFill (v / 2 ^ 30)))
    else if 2 ^ 48 ≤ v then (.error (tv, 0x01), s)
    else
      let p := s.pu n
      let ctx := ttbCtx a
      let (r, s) := match tlbLookup p u v ctx with
        | some e => (Except.ok e, s)
        | none =>
          match walkHit p v ctx with
          | some w => walkFrom n th z v (w.level - 1) w.next s
          | none => walkFrom n th z v 4 (4096 * fld 41 12 a.ttb) s
      match r with
      | .error d => (.error (if d = 0 then 0 else tv, d), s)
      | .ok e =>
        if !rightsOk e u a.problem then (.error (av, 1), s)
        else (.ok { pa := e.pa + v % 2 ^ e.bits, mt := e.mt, tr := some e }, s)

/-- The way that a 7-bit tree names (R207): bit 0 the root, bits 1 and 2 the next level, bits 3 to 6 the leaves. -/
def plruWay (t : Nat) : Nat :=
  let b := fun i => t / 2 ^ i % 2
  let x := b 0
  let y := b (1 + x)
  let z := b (3 + 2 * x + y)
  4 * x + 2 * y + z

/-- The tree after an access to a way: every node on its path points away from it. -/
def plruTouch (t w : Nat) : Nat :=
  let x := w / 4 % 2
  let y := w / 2 % 2
  let z := w % 2
  let put := fun (t i v : Nat) => t - t / 2 ^ i % 2 * 2 ^ i + v * 2 ^ i
  put (put (put t 0 (1 - x)) (1 + x) (1 - y)) (3 + 2 * x + y) (1 - z)

/-- Number under which the tree of an L1 set is kept. -/
def plruKey (set : Nat) : Nat := 1000 + set

/-- Tree of a line's set in an L1. -/
def l1Tree (l : Nat) (t : Tbl L2Way) : Nat := (tget ({} : L2Way) t (plruKey (l % 64))).age

/-- Way of an L1 that holds a line, or else the way that the tree names. -/
def l1Way (l : Nat) (t : Tbl L2Way) : Nat :=
  match (List.range 8).find? (fun w => (tget ({} : L2Way) t (l % 64 * 8 + w)).line == some l) with
  | some w => w
  | none => plruWay (l1Tree l t)

/-- A fill of an L1: the way that the tree names takes the line; the tree stays (R207). -/
def l1Fill (l : Nat) (t : Tbl L2Way) : Tbl L2Way := tset ({} : L2Way) t (l % 64 * 8 + l1Way l t) { line := some l }

/-- An L1 access that retires: the line is there, and the set's tree is updated (R207). -/
def l1Access (l : Nat) (t : Tbl L2Way) : Tbl L2Way :=
  tset ({} : L2Way) (l1Fill l t) (plruKey (l % 64)) { age := plruTouch (l1Tree l t) (l1Way l t) }

/-- Is a line in an L1? -/
def l1Has (t : Tbl L2Way) (l : Nat) : Bool := t.any (fun e => e.2.line == some l)

/-- What one use does at retirement: the tree of the L1, or age 0 in the L2; a line that has left the L2 is in no L1. -/
def touchOne (p : Pu) : Touch → Pu
  | .i l => if (l2State p l).isSome then { p with l1i := l1Access l p.l1i } else p
  | .d l => if (l2State p l).isSome then { p with l1d := l1Access l p.l1d } else p
  | .l2 l => l2Upd l (fun w => { w with age := 0 }) p

/-- A thread's instruction retires: its uses of the caches take effect (R206, R207). -/
def touched (th : Bool) (p : Pu) : Pu :=
  let p := (p.thr th).touch.foldl touchOne p
  p.setThr th { (p.thr th) with touch := [] }

/-- The instruction in progress uses a line of a cache. -/
def useLine (n : Nat) (th : Bool) (u : Touch) (s : State) : State :=
  s.updThr n th (fun t => { t with touch := t.touch ++ [u] })

end Sys2Proof.Machine
end

