-- ==== Sys2Proof/Machine/Maint.lean ====
section
/-! DEFINITION. What homes do for atomics, maintenance, placement and invalidating writes (R191 to R193, R214 to R217,
R230, R231): shared by instructions and by the coherence messages. -/

namespace Sys2Proof.Machine

/-- Is a line busy with messages that keep its home busy? A line whose data a holder has forwarded is free there (R226). -/
def homeBusy (s : State) (l : Nat) : Bool :=
  homeHeld s l || match tget none s.coh.busy l with
  | some b => !b.viaFwd
  | none => false

/-- An outstanding forwarded fill of a line is not to allocate (R226, Scenario 3). -/
def markNoAlloc (l : Nat) (s : State) : State :=
  match tget none s.coh.busy l with
  | some b => { s with coh := { s.coh with busy := tset none s.coh.busy l (some { b with noAlloc := true }) } }
  | none => s

/-- Is a dirty copy of a line anywhere? -/
def anyDirty (s : State) (l : Nat) : Bool :=
  l3Dirty s l || s.coh.wbuf.contains l || (List.range 86).any (fun n => heldM s n l)

/-- Copies of a line after its data were written: M becomes E, the L3 copy is clean, nothing waits in the buffer. -/
def copiesClean (l : Nat) (s : State) : State :=
  let s := (holders s l).foldl (fun (s : State) n =>
    s.updPu n (fun p => l2Upd l (fun w => if w.st = .m then { w with st := .e } else w)
      { p with tracker := p.tracker.filter (· != l) })) s
  let s := match l3Find s l with
    | some w => updL3 (l3Set l * 16 + w) (fun x => { x with dirty := false }) s
    | none => s
  { s with coh := { s.coh with wbuf := s.coh.wbuf.filter (· != l) } }

/-- CLN on one line: every dirty copy is written (Table 8.5). False: a COMMIT line waits for its grant. -/
def mntClean (a : Acc) (l : Nat) (own : Option (Nat × Bool)) (s : State) : Bool × State :=
  let s := conflicts l false none (requesterId a 5) own s
  if !anyDirty s l then (true, s)
  else
    match (if isCommit s l then askGrant a (lineBlock l) s else (true, s)) with
    | (false, s) => (false, s)
    | (true, s) => (true, copiesClean l (s.flushLine l))

/-- Way of PU n's L2 that holds a line, where it is locked. -/
def lockedWay (s : State) (n l : Nat) : Bool :=
  match l2Find (s.pu n) l with
  | some w => (l2Way (s.pu n) (l % 2048 * 16 + w)).locked
  | none => false

/-- Every copy of a line goes, with the copy in L3 and in the home's writeback buffer. -/
def dropCopies (a : Acc) (l : Nat) (own : Option (Nat × Bool)) (s : State) : State :=
  let s := l3Remove l (markNoAlloc l (loseOthers none l true none (requesterId a 5) own s))
  { s with coh := { s.coh with wbuf := s.coh.wbuf.filter (· != l) } }

/-- INV on one line: dirty data are discarded, but those of a locked way are written first, with LOCKED_DIRTY (R216).
False: such data wait for their grant. -/
def mntInval (a : Acc) (l : Nat) (own : Option (Nat × Bool)) (s : State) : Bool × State :=
  match (List.range 86).find? (fun n => heldM s n l && lockedWay s n l) with
  | some n =>
    match mntClean a l own s with
    | (false, s) => (false, s)
    | (true, s) =>
      let s := s.updPu n (fun p => { p with lockedDirty := true, ldCnt := satAdd 255 p.ldCnt 1 })
      (true, dropCopies a l own s)
  | none =>
    let dirty := anyDirty s l
    let s := dropCopies a l own s
    (true, if dirty then s.dropLine l else s)

/-- One maintenance operation on one line (Table 8.5). -/
def mntLine (op : MntOp) (a : Acc) (l : Nat) (own : Option (Nat × Bool)) (s : State) : Bool × State :=
  match op with
  | .clean => mntClean a l own s
  | .inval => mntInval a l own s
  | .cleanInval =>
    match mntClean a l own s with
    | (false, s) => (false, s)
    | (true, s) => (true, dropCopies a l own s)

/-- Right that a maintenance operation needs (R450, Table 8.5). -/
def mntKind : MntOp → AccKind
  | .inval => .mntWrite
  | _ => .mntRead

/-- New doubleword of an atomic; none: nothing is written (R191). -/
def amo8 (op : AmoOp) (old x y : Word) : Option Word :=
  match op with
  | .swp => some x
  | .add => some (old + x)
  | .and => some (old &&& x)
  | .or => some (old ||| x)
  | .xor => some (old ^^^ x)
  | .max => some (if old.toInt < x.toInt then x else old)
  | .min => some (if x.toInt < old.toInt then x else old)
  | .maxu => some (if old.toNat < x.toNat then x else old)
  | .minu => some (if x.toNat < old.toNat then x else old)
  | .cas => if old = x then some y else none
  | .cas2 => none

/-- Bytes that an atomic acts on. -/
def amoSize : AmoOp → Nat
  | .cas2 => 16
  | _ => 8

/-- New block of an atomic: x is the operand or the expected value, y what a comparison stores. -/
def amoVal (op : AmoOp) (old : Nat) (x y : Quad) : Option Nat :=
  match op with
  | .cas2 => if old = x.toNat then some y.toNat else none
  | _ => (amo8 op (BitVec.ofNat 64 old) (x.setWidth 64) (y.setWidth 64)).map (·.toNat)

/-- An atomic at the home or, for COMMIT, at the controllers (Table 7.6): every cached copy goes first. The old value;
false: it waits for an ownership hold or a commit grant. -/
def amoHome (a : Acc) (pa : Nat) (op : AmoOp) (x y : Quad) (own : Option (Nat × Bool)) (s : State) : Bool × Nat × State :=
  let l := pa / 256
  let n := amoSize op
  let old := ofBe (s.rd pa n)
  let new := amoVal op old x y
  if heldByOther (own.map (·.1)) l s then (false, old, s)
  else match recallCommit none l s with
  | (false, s) => (false, old, s)
  | (true, s) =>
    match (if isCommit s l && new.isSome then askGrant a (lineBlock l) s else (true, s)) with
    | (false, s) => (false, old, s)
    | (true, s) =>
      let s := loseOthers none l false none (requesterId a 4) own s
      let s := match new with
        | some v => s.wr pa (toBe n v)
        | none => s
      if isCommit s l then (true, old, l3Remove l (if new.isSome then s.flushLine l else s))
      else (true, old, l3Insert l new.isSome 1 s)

/-- How a line write at a home ends. -/
inductive LineAns where
  | done | denied | fenced | waits
deriving DecidableEq, Repr

/-- The command in progress waits for a line. -/
def lineWaits (a : Acc) (l : Nat) (s : State) : LineAns × State := (.waits, block (.line a l) s)

/-- Answer of a line's home to a write by a master, before anything is done: it waits for its turn, a busy line, a pin
(R221, R251) or a commit grant (R325). A FENCED answer is recorded at the sender (R17). -/
def lineCheck (a : Acc) (pa : Nat) (s : State) : LineAns × State :=
  let l := pa / 256
  match asked a pa .write 1 s with
  | (some 3, s) => (.fenced, s)
  | (some _, s) => (.denied, s)
  | (none, s) =>
    if !lineTurn a l s || homeBusy s l then lineWaits a l s
    else match pinsLet a none l s with
      | (false, s) => lineWaits a l s
      | (true, s) =>
        if isCommit s l then
          match askGrant a (lineBlock l) s with
          | (true, s) => (.done, lineOut a l s)
          | (false, s) => lineWaits a l s
        else (.done, lineOut a l s)

/-- Bytes put into a line at a home once no copy is left: whole lines lift poison. -/
def putLine (pa : Nat) (bytes : List Byte) (s : State) : State :=
  let s := s.wr pa bytes
  if pa % 256 = 0 ∧ bytes.length = 256 then s.clearPoison (pa / 256) else s

/-- IVW of bytes that lie in one line (R231). -/
def ivwLine (a : Acc) (pa : Nat) (bytes : List Byte) (s : State) : LineAns × State :=
  let l := pa / 256
  match lineCheck a pa s with
  | (.done, s) =>
    let inL3 := (l3Find s l).isSome
    let s := putLine pa bytes (markNoAlloc l (loseOthers none l true none (requesterId a 1) none s))
    if isCommit s l then (.done, copiesClean l (s.flushLine l))
    else if inL3 then (.done, l3Insert l true 1 s)
    else (.done, s.flushLine l)
  | r => r

/-- Can the directory take an entry for a line: it has one, or a way of its set is free or evictable (R233, R235)? -/
def dirRoom (l : Nat) (s : State) : Bool :=
  (dirFind s l).isSome || (List.range 16).any (fun w => match (dirWay s (dirSet l * 16 + w)).line with
    | some v => (tget none s.coh.busy v).isNone && (tget none s.coh.pins v).isNone
    | none => true)

/-- PLW of bytes that lie in one line, for a thread of PU pu of zone z (R230). The target declines the push where its set
has no way for it; while the directory set has none the write waits (R235). -/
def plwLine (a : Acc) (z : Nat) (pu : Nat) (pa : Nat) (bytes : List Byte) (s : State) : LineAns × State :=
  let l := pa / 256
  let good := s.lcs (.pu (Fin.ofNat 48 pu)) == .on && (s.puZone pu).map (·.val) == some z
  if !good then ivwLine a pa bytes s
  else if !dirRoom l s then lineWaits a l s
  else
    match lineCheck a pa s with
    | (.done, s) =>
      let s := putLine pa bytes (markNoAlloc l (loseOthers none l true none (requesterId a 1) none s))
      let s := if isCommit s l then l3Insert l false 1 (copiesClean l (s.flushLine l)) else l3Insert l true 1 s
      if hasWay s (s.pu pu) l then
        match dirAlloc pu l true s with
        | (true, s) => (.done, l2Install pu l .e 0 s)
        | (false, s) => (.done, s)
      else (.done, s)
    | r => r

/-- Pieces of a byte string that lie in one line each, rising: address and bytes. -/
def linePieces (pa : Nat) (bytes : List Byte) : List (Nat × List Byte) :=
  let first := pa / 256
  let last := (pa + bytes.length - 1) / 256
  if bytes.isEmpty then []
  else (List.range (last - first + 1)).map (fun i =>
    let lo := Nat.max pa (256 * (first + i))
    let hi := Nat.min (pa + bytes.length) (256 * (first + i + 1))
    (lo, slice bytes (lo - pa) (hi - lo)))

/-- Every line of a write in turn, as long as each is done. -/
def eachLine (f : Nat → List Byte → State → LineAns × State) : List (Nat × List Byte) → State → LineAns × State
  | [], s => (.done, s)
  | p :: l, s =>
    match f p.1 p.2 s with
    | (.done, s) => eachLine f l s
    | r => r

/-- Do the lines of a write have homes in more than one quadrant (R231)? -/
def crossQuad (pieces : List (Nat × List Byte)) : Bool :=
  match pieces with
  | [] => false
  | p :: l => l.any (fun q => lineGroup (q.1 / 256) != lineGroup (p.1 / 256))

/-- IVW of a byte string (R231): one whose homes lie in several quadrants is ordered by the fabric arbiter (R225). -/
def ivw (a : Acc) (pa : Nat) (bytes : List Byte) (s : State) : LineAns × State :=
  let pieces := linePieces pa bytes
  let o : ArbOp := .ivw a pa bytes.length
  if !crossQuad pieces then eachLine (ivwLine a) pieces s
  else if !arbTurn o s then (.waits, block (.arb o) s)
  else match eachLine (ivwLine a) pieces s with
    | (.waits, s) => (.waits, block (.arb o) s)
    | (r, s) => (r, arbOut o s)

/-- PLW of a byte string (R230). -/
def plw (a : Acc) (z pu pa : Nat) (bytes : List Byte) (s : State) : LineAns × State :=
  eachLine (plwLine a z pu) (linePieces pa bytes) s

/-- A master's non-allocating read of one line: its turn, a busy line, a pin and dirty COMMIT data come first (R183, R205,
R221, R251). False: denied, FENCED, poisoned, or waiting. -/
def readLine (a : Acc) (cls pa : Nat) (s : State) : Bool × State :=
  let l := pa / 256
  match asked a pa .read cls s with
  | (some _, s) => (false, s)
  | (none, s) =>
    if !lineTurn a l s || homeBusy s l then (false, block (.line a l) s)
    else match pinsLet a none l s with
      | (false, s) => (false, block (.line a l) s)
      | (true, s) =>
        let s := conflicts l false none (requesterId a cls) none s
        match recallCommit none l s with
        | (false, s) => (false, block (.line a l) s)
        | (true, s) => (!s.poisoned l, lineOut a l s)

/-- Bytes that a CE, an accelerator or another master reads from DRAM in a request class (Table 7.1): granted, populated
and answering lines; none where an access is denied, fenced or poisoned. The coherent value is returned. A command that
meets a line it has to wait for is performed later as a whole (orWait). -/
def readBytes (a : Acc) (cls pa n : Nat) (s : State) : Option (List Byte) × State :=
  let lines := (List.range ((pa + n + 255) / 256 - pa / 256)).map (fun i => pa / 256 + i)
  let (ok, s) := lines.foldl (fun (r : Bool × State) l =>
    if !r.1 then r else readLine a cls (Nat.max pa (256 * l)) r.2) (true, s)
  (if ok then some (s.rd pa n) else none, s)

end Sys2Proof.Machine
end

