-- ==== Sys2Proof/Machine/Chan.lean ====
section
/-! DEFINITION. The channel subsystem's records, paths, rings and completions (chapter 13): what its commands share. -/

namespace Sys2Proof.Machine

/-- An exchange-table entry (Table 13.5). -/
structure Xe where
  key     : Nat := 0
  state   : Nat := 0
  flags   : Nat := 0
  ep      : Nat := 0
  use     : Nat := 0
  sid     : Nat := 0
  sendSeq : Nat := 0
  recvSeq : Nat := 0
  plen    : Nat := 0
  status  : Nat := 0
  pcrc    : Nat := 0
  desc    : Nat := 0
  rcb     : Nat := 0
  tag     : Nat := 0
  tAcc    : Nat := 0
  tChg    : Nat := 0
  tStat   : Nat := 0
deriving DecidableEq, Repr

/-- "No frame received yet" in the field of the highest sequence number (DESIGN CHOICE, assumption 21). -/
def noSeq : Nat := 0xFFFFFFFF

/-- The entry that 128 bytes hold. -/
def xeOf (b : List Byte) : Xe :=
  { key := beAt b 0 8, state := beAt b 8 1, flags := beAt b 9 1, ep := beAt b 0xA 2, use := beAt b 0xC 2, sid := beAt b 0xE 2
    sendSeq := beAt b 0x10 4, recvSeq := beAt b 0x14 4, plen := beAt b 0x18 2, status := beAt b 0x1A 2
    pcrc := beAt b 0x1C 4, desc := beAt b 0x20 8, rcb := beAt b 0x28 8, tag := beAt b 0x30 8, tAcc := beAt b 0x38 8
    tChg := beAt b 0x40 8, tStat := beAt b 0x48 4 }

/-- The 128 bytes of an entry, with its CRC. -/
def xeBytes (x : Xe) : List Byte :=
  let b := toBe 8 x.key ++ toBe 1 x.state ++ toBe 1 x.flags ++ toBe 2 x.ep ++ toBe 2 x.use ++ toBe 2 x.sid ++
    toBe 4 x.sendSeq ++ toBe 4 x.recvSeq ++ toBe 2 x.plen ++ toBe 2 x.status ++ toBe 4 x.pcrc ++ toBe 8 x.desc ++
    toBe 8 x.rcb ++ toBe 8 x.tag ++ toBe 8 x.tAcc ++ toBe 8 x.tChg ++ toBe 4 x.tStat ++ List.replicate 48 0
  b ++ toBe 4 (crc32c b)

/-- Physical address of the slot of an entry (Table 13.3). -/
def slotPa (i : Nat) : Nat := 0x04000000 + 2048 * i

/-- A channel engine's identity for the accesses it makes for a zone (Table 16.7). -/
def ceAcc (n : Nat) (z : Nat) : Acc := { master := BitVec.ofNat 8 (64 + n), th := false, zone := some (Fin.ofNat 16 z) }

/-- A CE's acknowledged write (R184): false where it waits for a grant, is denied or answered FENCED. -/
def ceWr (n z pa : Nat) (bytes : List Byte) (s : State) : Bool × State :=
  match ivw (ceAcc n z) pa bytes s with
  | (.done, s) => (true, s)
  | (_, s) => (false, s)

/-- Volatile fields of an entry. -/
def State.vol (s : State) (i : Nat) : Vol := tget {} s.chan.vol i

/-- The state with the volatile fields of an entry changed. -/
def State.updVol (s : State) (i : Nat) (f : Vol → Vol) : State :=
  { s with chan := { s.chan with vol := tupd {} s.chan.vol i f } }

/-- Logical engine whose partition holds an entry (R351). -/
def entryLe (i : Nat) : Nat := i / 8192

/-- Number of an in-doubt mark: address of its byte and its mask there (R369). -/
def doubtBit (i : Nat) : Nat × Nat :=
  let e := i / 8192
  let j := i % 8192
  let (base, k) := if j < 6144 then (0x30A0400, 768 * e + j / 8) else (0x30A1000, 2048 * e + j % 2048)
  (base + k / 8, 128 / 2 ^ (k % 8))

/-- Is the bucket or index of an entry marked in doubt? -/
def inDoubt (s : State) (i : Nat) : Bool :=
  let (a, m) := doubtBit i
  (tget 0 s.mem a).toNat / m % 2 == 1

/-- An entry is in doubt (R369): marked, the mark counted where it is new, and the entry written as zero. -/
def markDoubt (n i : Nat) (s : State) : State :=
  let (a, m) := doubtBit i
  let s := if inDoubt s i then s else s.updCe n (fun c => { c with doubt := satAdd 255 c.doubt 1 })
  let s := (ceWr n 0 a [(tget 0 s.mem a) ||| BitVec.ofNat 8 m] s).2
  (ceWr n 0 (128 * i) (List.replicate 128 0) s).2

/-- The entry with index i, read by engine n; none where it is FREE or in doubt (R352, R369). -/
def readEntry (n i : Nat) (s : State) : Option Xe × State :=
  if s.poisoned (i / 2) then
    let j := i / 2 * 2
    let s := markDoubt n (j + 1) (markDoubt n j s)
    (none, latch (.ce (Fin.ofNat 36 n)) 10 0 i 2 ((ceWr n 0 (128 * j) (List.replicate 256 0) s).2.clearPoison (i / 2)))
  else
    let b := s.rd (128 * i) 128
    if b.all (· == 0) then (none, s)
    else if crc32c (b.take 124) ≠ beAt b 124 4 then (none, latch (.ce (Fin.ofNat 36 n)) 10 0 i 2 (markDoubt n i s))
    else (some (xeOf b), s)

/-- Record of an endpoint (Table 13.7). -/
structure Ep where
  en    : Bool
  zone  : Nat
  home  : Nat
  node  : Nat
  paths : List (Bool × Nat)
  es    : Nat
  mask  : Nat
  base  : Nat
  maxP  : Nat
  rcb   : Nat
deriving DecidableEq, Repr

/-- A usable endpoint record (R354). -/
def epOf (s : State) (b : List Byte) : Option Ep :=
  let paths := beAt b 4 1
  let es := beAt b 5 1
  let home := beAt b 1 1 % 32
  let zone := beAt b 0 1 % 16
  let maxP := beAt b 0xA 2
  if b.all (· == 0) || paths == 0 || decide (8 < paths) || decide (es < 8) || decide (11 < es) || decide (31 < beAt b 1 1) ||
      decide (s.zc ≤ zone) || decide (1984 < maxP) || decide (2 ^ es - 64 < maxP) then none
  else some {
    en := decide (128 ≤ beAt b 0 1), zone := zone, home := home, node := beAt b 2 2
    paths := (List.range paths).map (fun k => let w := beAt b (0x20 + 8 * k) 8; (decide (2 ^ 63 ≤ w), w % 512))
    es := es, mask := beAt b 6 2 % 4096, base := beAt b 8 2 % 4096, maxP := maxP, rcb := beAt b 0x10 8 }

/-- Logical engine e's copy of an endpoint record, read where it has none. A poisoned line counts as all zero. -/
def epBytes (e n : Nat) (s : State) : List Byte × State :=
  match tget none (s.le e).epCopy n with
  | some b => (b, s)
  | none =>
    let pa := 0x2000000 + 256 * n
    let b := if s.poisoned (pa / 256) then List.replicate 256 0 else s.rd pa 256
    (b, s.updLe e (fun x => { x with epCopy := tset none x.epCopy n (some b) }))

/-- The endpoint n as engine e knows it; none: not assigned. -/
def endpoint (e n : Nat) (s : State) : Option Ep × State :=
  let (b, s) := epBytes e n s
  (epOf s b, s)

/-- Endpoint number of a peer node as engine e knows it; none: the node map has none. -/
def nodeEp (e node : Nat) (s : State) : Option Nat × State :=
  match tget none (s.le e).node node with
  | some n => (some n, s)
  | none =>
    let pa := 0x3000000 + 2 * node
    let n := if s.poisoned (pa / 256) then 0xFFFF else beAt (s.rd pa 2) 0 2
    if n = 0xFFFF then (none, s) else (some n, s.updLe e (fun x => { x with node := tset none x.node node (some n) }))

/-- Dispatch record of a zone and SID as engine e knows it (R368). -/
def dispatch (e z sid : Nat) (s : State) : Word × State :=
  let k := 4096 * z + sid
  match tget none (s.le e).disp k with
  | some w => (w, s)
  | none =>
    let pa := 0x3020000 + 8 * k
    let w := if s.poisoned (pa / 256) then 0 else BitVec.ofNat 64 (ofBe (s.rd pa 8))
    (w, s.updLe e (fun x => { x with disp := tset none x.disp k (some w) }))

/-- The engine that holds logical engine e, when it is ON and in no sparing gap; in M8 none works (R37). -/
def engineOf (s : State) (e : Nat) : Option Nat :=
  match s.ceOf e with
  | some n => if s.lcs (.ce n) = .on ∧ !(s.le e).gap ∧ !s.inMode [.checkstop] then some n.val else none
  | none => none

/-- Does a frequency change hold the clock of the engine that holds logical engine e (R19)? Its channels apply back-pressure: a
command for it comes again. -/
def engHeld (s : State) (e : Nat) : Bool :=
  match s.ceOf e with
  | some n => (s.island (.ce n)).relock
  | none => false

/-- The work of the engine that holds logical engine e: whole, or it waits (R19, R221). -/
def engRun (e : Nat) (f : State → State) (s : State) : State := if engHeld s e then s else orWait f s

/-- Do the channel engines hold: in M6 and M7 (R38), and in M5 entered from M6 (R52)? -/
def chanHolds (s : State) : Bool :=
  s.inMode [.quiesced, .holdup] || (s.inMode [.service] && s.md.m5From == .quiesced)

/-- Do the channel engines do work of their own: in M3 and M4, and in M5 entered from them (R37, R52)? -/
def chanWorks (s : State) : Bool := s.inMode [.run, .degraded, .service] && !chanHolds s

/-- Counters of 0x8010. -/
def discardFrame (s : State) : State := { s with chan := { s.chan with discarded := s.chan.discarded + 1 } }

/- Paths and sending. -/

/-- Can the link carry frames: ON and connected, and not in M8, where links are off (R37)? -/
def linkUp (s : State) (l : Nat) : Bool :=
  let k := s.link l
  !s.inMode [.checkstop] && s.lcs (.link (Fin.ofNat 512 l)) == .on && k.blockLock && (k.amLock || k.curRate) && !k.hiBer

/-- Is a path of an endpoint UP (R355)? -/
def pathUp (s : State) (ep : Ep) (p : Bool × Nat) : Bool :=
  p.1 && linkUp s p.2 && (s.link p.2).live && (s.link p.2).peer.toNat == ep.node && !(s.link p.2).idleOnly

/-- Frames of an endpoint outstanding on a link. -/
def outstanding (s : State) (n l : Nat) : Nat :=
  (s.chan.vol.map (fun (e : Nat × Vol) => (e.2.sent.filter (fun f => f.ep == n && f.link == l)).length)).sum

/-- The UP path with the fewest outstanding frames, the first at or after the rotation pointer among equals (R356). -/
def choosePath (s : State) (n : Nat) (ep : Ep) : Option (Nat × Nat) :=
  let c := ep.paths.length
  let rot := tget 0 (s.le ep.home).epRot n
  let order := (List.range c).map (fun i => (rot + i) % c)
  order.foldl (fun (b : Option (Nat × Nat)) k =>
    let p := ep.paths.getD k (false, 0)
    if !pathUp s ep p then b
    else match b with
      | none => some (k, p.2)
      | some (_, l) => if outstanding s n p.2 < outstanding s n l then some (k, p.2) else b) none

/-- A frame leaves on a link. -/
def emit (l : Nat) (f : Frame) (s : State) : State := { s with sent := s.sent ++ [(l, f)] }

/-- A frame of the module. -/
def mkFrame (s : State) (n : Nat) (dst : Nat) (kind flags key seq route code : Nat) (payload : List Byte) : Frame :=
  { version := 1, kind := BitVec.ofNat 4 kind, flags := BitVec.ofNat 8 flags, len := payload.length
    src := (s.ce n).nodeId, dst := BitVec.ofNat 16 dst, key := BitVec.ofNat 64 key, seq := BitVec.ofNat 32 seq
    route := BitVec.ofNat 16 route, code := BitVec.ofNat 16 code, payload := payload, crcOk := true, pcsOk := true }

/-- The endpoint's rotation pointer moves one past path k (R356). -/
def rotate (epN : Nat) (ep : Ep) (k : Nat) (s : State) : State :=
  s.updLe ep.home (fun x => { x with epRot := tset 0 x.epRot epN ((k + 1) % ep.paths.length) })

/-- A frame that starts or continues exchange i goes out on the path of R356 and awaits its answer; with no path UP it
waits. -/
def sendTracked (i epN : Nat) (ep : Ep) (f : Frame) (s : State) : State :=
  match choosePath s epN ep with
  | none => s.updVol i (fun v => { v with sent := v.sent ++ [{ ep := epN, link := 512, frame := f }] })
  | some (k, l) =>
    let s := rotate epN ep k s
    emit l f (s.updVol i (fun v => { v with
      sent := v.sent ++ [{ ep := epN, link := l, frame := f }], cmdSent := v.cmdSent || f.kind == 1 }))

/-- An answer leaves on the link that the frame came in on, or on a path that R356 chooses. fixed: a REDRIVE's answer keeps
its link. -/
def sendAnswer (n epN : Nat) (ep : Ep) (link : Nat) (fixed : Bool) (f : Frame) (code kind : Nat) (s : State) : State :=
  let o := if f.flags.getLsbD 0 then 0 else 1
  let a := mkFrame s n f.src.toNat 4 o f.key.toNat f.seq.toNat kind code []
  if fixed || ep.paths.any (fun p => p.2 == link && pathUp s ep p) then emit link a s
  else match choosePath s epN ep with
    | some (k, l) => emit l a (rotate epN ep k s)
    | none => s

/-- The oldest unanswered frame of an exchange is asked for with REDRIVE on the next path, and counted (R364). -/
def redrive (n i epN : Nat) (ep : Ep) (s : State) : State :=
  match (s.vol i).sent with
  | [] => s
  | o :: rest =>
    match choosePath s epN ep with
    | none => s
    | some (k, l) =>
      let q := mkFrame s n ep.node 5 ((o.frame.flags.toNat % 2) + 2) o.frame.key.toNat o.frame.seq.toNat o.frame.kind.toNat 0 []
      let s := rotate epN ep k s
      let s := s.updVol i (fun v => { v with sent := { o with link := l } :: rest, redrives := v.redrives + 1 })
      emit l q { s with chan := { s.chan with redriven := s.chan.redriven + 1 } }

/-- A frame is sent again with R set (answer 2). -/
def resend (i epN : Nat) (ep : Ep) (kind seq : Nat) (s : State) : State :=
  match (s.vol i).sent.find? (fun o => o.frame.kind.toNat == kind && o.frame.seq.toNat == seq) with
  | none => s
  | some o =>
    let s := s.updVol i (fun v => { v with sent := v.sent.filter (· != o), redrives := 0 })
    sendTracked i epN ep { o.frame with flags := o.frame.flags ||| 2 } s

/-- The answered frame leaves the unanswered ones. -/
def answered (i kind seq : Nat) (s : State) : State :=
  s.updVol i (fun v => { v with
    sent := v.sent.filter (fun o => !(o.frame.kind.toNat == kind && o.frame.seq.toNat == seq)), redrives := 0 })

/- Zone memory. -/

/-- Physical address of zone-physical bytes that lie in one valid DRAM or COMMIT DRAM segment of a zone. -/
def zoneMem (s : State) (z zpa n : Nat) : Option (Nat × Nat) :=
  if zpa / 2 ^ 42 ≠ 0 ∨ (zpa + n - 1) / 2 ^ 30 ≠ zpa / 2 ^ 30 then none
  else match segTrans s z zpa with
    | some (pa, kind) => if kind ≤ 1 then some (pa, kind) else none
    | none => none

/-- Do the n bytes at a zone-physical address lie in valid segments? Both ends and every segment between. -/
def zoneSpan (s : State) (z zpa n : Nat) : Bool :=
  n == 0 || (decide ((zpa + n - 1) / 2 ^ 42 = 0) &&
    (List.range ((zpa + n - 1) / 2 ^ 30 - zpa / 2 ^ 30 + 1)).all (fun i =>
      (zoneMem s z (2 ^ 30 * (zpa / 2 ^ 30 + i)) 1).isSome))

/-- A CE reads zone memory (at most one segment) in a request class (Table 7.1: 7 descriptors, 0 the rest); none on an error, a denial, a FENCED answer or poison. -/
def zoneRead (cls n z zpa len : Nat) (s : State) : Option (List Byte) × State :=
  match zoneMem s z zpa len with
  | some (pa, _) => readBytes (ceAcc n z) cls pa len s
  | none => (none, s)

/-- A CE reads zone memory that may cross a segment. -/
def zoneReadN (cls n z zpa len : Nat) (s : State) : Option (List Byte) × State :=
  let cut := 2 ^ 30 - zpa % 2 ^ 30
  if len = 0 then (some [], s)
  else if len ≤ cut then zoneRead cls n z zpa len s
  else match zoneRead cls n z zpa cut s with
    | (some a, s) =>
      match zoneRead cls n z (zpa + cut) (len - cut) s with
      | (some b, s) => (some (a ++ b), s)
      | (none, s) => (none, s)
    | (none, s) => (none, s)

/-- A CE writes zone memory as an IVW, within one segment; denied where no segment takes it. -/
def zoneWrite (n z zpa : Nat) (bytes : List Byte) (s : State) : LineAns × State :=
  match zoneMem s z zpa bytes.length with
  | some (pa, _) => ivw (ceAcc n z) pa bytes s
  | none => (.denied, s)

/-- A CE writes zone memory that may cross a segment. -/
def zoneWriteN (n z zpa : Nat) (bytes : List Byte) (s : State) : LineAns × State :=
  let cut := 2 ^ 30 - zpa % 2 ^ 30
  if bytes.isEmpty then (.done, s)
  else if bytes.length ≤ cut then zoneWrite n z zpa bytes s
  else match zoneWrite n z zpa (bytes.take cut) s with
    | (.done, s) => zoneWrite n z (zpa + cut) (bytes.drop cut) s
    | r => r

/-- A ring as its control block describes it (Table 13.15). -/
structure Ring where
  pa   : Nat
  prod : Nat
  cons : Nat
  base : Nat
  es   : Nat
  n    : Nat
  irq  : Nat
  prio : Nat
  th   : Nat
deriving DecidableEq, Repr

/-- A ring that the engine can use (R370); lo and hi bound ES. -/
def ringAt (n z rcb lo hi : Nat) (s : State) : Option Ring × State :=
  if rcb % 64 ≠ 0 then (none, s)
  else match zoneRead 0 n z rcb 64 s with
    | (none, s) => (none, s)
    | (some b, s) =>
      let es := beAt b 0x18 1
      let k := beAt b 0x19 1
      let base := beAt b 0x10 8
      match zoneMem s z rcb 64 with
      | some (pa, _) =>
        if es < lo ∨ hi < es ∨ k < 4 ∨ 16 < k ∨ base % 2 ^ (es + k) ≠ 0 then (none, s)
        else
          let r : Ring := {
            pa := pa, prod := beAt b 0 8, cons := beAt b 8 8, base := base, es := es, n := k
            irq := beAt b 0x1A 2, prio := beAt b 0x1C 1 % 16, th := beAt b 0x1D 1 }
          if (zoneMem s z (base + r.prod % 2 ^ k * 2 ^ es) (2 ^ es)).isSome then (some r, s) else (none, s)
      | none => (none, s)

/-- Has the ring room (R370)? -/
def ringRoom (r : Ring) : Bool := decide ((2 ^ 64 + r.prod - r.cons) % 2 ^ 64 < 2 ^ r.n)

/-- Do the targets let an engine advance PROD and write the lines of a slot (R370)? -/
def ringAsked (n z pa : Nat) (pieces : List (Nat × List Byte)) (s : State) : Bool × State :=
  match asked (ceAcc n z) pa .atomic 4 s with
  | (some _, s) => (false, s)
  | (none, s) => pieces.foldl (fun (r : Bool × State) p =>
      if !r.1 then r else match asked (ceAcc n z) p.1 .write 1 r.2 with
        | (none, s) => (true, s)
        | (some _, s) => (false, s)) (true, s)

/-- The AMO.ADD on PROD (R370), in the turn of its line (R221). -/
def ringClaim (n z pa : Nat) (s : State) : Bool × State :=
  let a := ceAcc n z
  let l := pa / 256
  if !lineTurn a l s || homeBusy s l then (false, block (.line a l) s)
  else match pinsLet a none l s with
    | (false, s) => (false, block (.line a l) s)
    | (true, s) =>
      match amoHome a pa .add 1 0 none s with
      | (false, _, s) => (false, block (.line a l) s)
      | (true, _, s) => (true, lineOut a l s)

/-- An entry is written to slot PROD, its first line last, PROD advancing by AMO.ADD first; toPu: the target of the
placement writes. -/
def ringPut (n z : Nat) (r : Ring) (entry : List Byte) (toPu : Option Nat) (s : State) : Bool × State :=
  let phase := (r.prod / 2 ^ r.n + 1) % 2
  let entry := putBe entry 0 1 (beAt entry 0 1 % 128 + 128 * phase)
  match zoneMem s z (r.base + r.prod % 2 ^ r.n * 2 ^ r.es) (2 ^ r.es) with
  | none => (false, s)
  | some (pa, _) =>
    match ringAsked n z r.pa (linePieces pa entry) s with
    | (false, s) => (false, s)
    | (true, s) =>
    match ringClaim n z r.pa s with
    | (false, s) => (false, s)
    | (true, s) =>
      let wr := fun (pa : Nat) (b : List Byte) (s : State) => match toPu with
        | some p => plwLine (ceAcc n z) z p pa b s
        | none => ivwLine (ceAcc n z) pa b s
      match eachLine wr (linePieces pa entry).reverse s with
      | (.done, s) => (true, s)
      | (_, s) => (false, s)

/-- PU that a zone-local thread names, where its map entry is valid. -/
def threadPu (s : State) (z t : Nat) : Option Nat :=
  match mapEntry s z t with
  | some e => if e.valid then some e.pu else none
  | none => none

/-- RING_ERR, once per exchange (R370). -/
def ringErr (n i epN : Nat) (s : State) : State :=
  if (s.vol i).ringErr then s
  else (latch (.ce (Fin.ofNat 36 n)) 12 0 epN 1 s).updVol i (fun v => { v with ringErr := true })

/-- An exchange is completed without writing after Restore (R367): counted once. -/
def countUnwritten (i : Nat) (s : State) : State :=
  if (s.vol i).unwritten then s
  else
    let s := s.updVol i (fun v => { v with unwritten := true })
    { s with chan := { s.chan with unwritten := s.chan.unwritten + 1 } }

/-- A completion entry (R374); without an RCB, or where the ring cannot be used, none is written, and where it has no room the
engine waits (R370). -/
def complete (n i z : Nat) (x : Xe) (kind code status plen : Nat) (s : State) : State :=
  if x.rcb = 0 then s
  else
    let v := s.vol i
    let code := if v.restored then 4 else code
    let lost := fun (s : State) => let s := ringErr n i x.ep s
      { s with chan := { s.chan with lostCompl := s.chan.lostCompl + 1 } }
    let inCommit := match zoneMem s z x.rcb 64 with
      | some (_, k) => k == 1
      | none => false
    if v.restored && !inCommit then countUnwritten i s
    else match (if s.lcs (.zone (Fin.ofNat 16 z)) = .on then ringAt n z x.rcb 6 6 s else (none, s)) with
      | (none, s) => lost s
      | (some r, s) =>
        if !ringRoom r then block .ring s
        else
          let b := fit 64 (toBe 1 0 ++ toBe 1 kind ++ toBe 2 code ++ toBe 2 x.ep ++ toBe 2 status ++ toBe 8 x.key ++
            toBe 8 x.tag ++ toBe 4 v.dataIn ++ toBe 4 plen ++ toBe 8 s.now)
          match ringPut n z r b (threadPu s z r.th) s with
          | (false, s) => lost s
          | (true, s) =>
            if 2 ^ 15 ≤ r.irq then
              routeIrq (Fin.ofNat 16 z) { thread := r.th, vector := r.irq % 1024, prio := BitVec.ofNat 4 r.prio } s
            else s

/- Entries. -/

/-- An entry is written with its new state (R347); false: the write waits for a grant. -/
def putEntry (n i z : Nat) (x : Xe) (s : State) : Bool × State := ceWr n z (128 * i) (xeBytes { x with tChg := s.now }) s

/-- An entry becomes FREE: all zero (R352); its volatile fields go but for the use count and the time of its last use. -/
def freeEntry (n i z last : Nat) (s : State) : State :=
  let s := (ceWr n z (128 * i) (List.replicate 128 0) s).2
  s.updVol i (fun v => { usedUse := v.usedUse, freeAt := last })

/-- Entries of partition e that are not FREE. -/
def openEntries (s : State) (e : Nat) : List Nat :=
  (s.mem.filter (fun c => decide (1048576 * e ≤ c.1) && decide (c.1 < 1048576 * (e + 1)))).foldl
    (fun (l : List Nat) c => if l.contains (c.1 / 128) then l else l ++ [c.1 / 128]) []

/-- STATUS of an inbound exchange: responder's last frame, from the slot. -/
def statusFrame (s : State) (n i : Nat) (x : Xe) (ep : Ep) (r : Nat) : Frame :=
  mkFrame s n ep.node 3 (1 + 2 * r + 4 * (x.flags / 16 % 2)) x.key x.sendSeq 0 x.status (s.rd (slotPa i) x.plen)

/-- Delivery of an inbound exchange in IN_ACCEPTED (R368, R370, R371): to the inbound ring of its endpoint, with its
interrupt; without room or a usable ring it waits. -/
def deliver (n i : Nat) (x : Xe) (ep : Ep) (s : State) : State :=
  let z := ep.zone
  if s.lcs (.zone (Fin.ofNat 16 z)) ≠ .on then s
  else
    let wait := fun (s : State) =>
      if (s.vol i).waiting then s
      else { s.updVol i (fun v => { v with waiting := true }) with
        chan := { (s.updVol i (fun v => { v with waiting := true })).chan with waited := s.chan.waited + 1 } }
    match ringAt n z ep.rcb 8 11 s with
    | (none, s) => wait (ringErr n i x.ep s)
    | (some r, s) =>
      if !ringRoom r || decide (2 ^ r.es < x.plen + 64) then wait s
      else
        let (w, s) := dispatch ep.home z x.sid s
        let (w, key, s) := if bit 63 w then (w, 4096 * z + x.sid, s)
          else let (w2, s) := dispatch ep.home z ep.base s; (w2, 4096 * z + ep.base, s)
        let rot := tget 0 (s.le ep.home).dispRot key
        let t := fld 54 48 w + rot % 2 ^ fld 61 60 w
        let red := x.flags / 4 % 2
        let b := fit (64 + x.plen) (fit 64 (toBe 1 (64 * red) ++ toBe 1 1 ++ toBe 2 x.plen ++ toBe 2 x.ep ++ toBe 2 x.sid ++
          toBe 8 x.key ++ toBe 8 x.tAcc) ++ s.rd (slotPa i) x.plen)
        let toPu := if bit 63 w && !bit 62 w then threadPu s z t else none
        match ringPut n z r b toPu s with
        | (false, s) => wait (ringErr n i x.ep s)
        | (true, s) =>
          let s := s.updLe ep.home (fun l => { l with dispRot := tset 0 l.dispRot key (rot + 1) })
          let s := (putEntry n i z { x with state := 2, flags := x.flags - 4 * red } s).2
          let s := s.updVol i (fun v => { v with waiting := false })
          if bit 63 w && bit 0 w then
            routeIrq (Fin.ofNat 16 z) { thread := t, vector := fld 41 32 w, prio := BitVec.ofNat 4 (fld 31 28 w) } s
          else s

end Sys2Proof.Machine
end

