-- ==== Sys2Proof/Machine/Accel.lean ====
section
/-! DEFINITION. The slices of the crypto and compression units: accesses to zone memory, descriptors, acceptance of a chain,
completions (chapter 15). -/

namespace Sys2Proof.Machine

/- Zone memory. -/

/-- A unit's identity for the accesses it makes for a zone (R396). -/
def accAcc (comp : Bool) (z : Nat) : Acc := { master := if comp then 0x71 else 0x70, th := false, zone := some (Fin.ofNat 16 z) }

/-- Do n bytes at a zone-physical address lie where R400 lets a descriptor point: valid DRAM or COMMIT DRAM segments, but
not in commit unit 0? -/
def accSpan (s : State) (z zpa n : Nat) : Bool :=
  zoneSpan s z zpa n && (n == 0 || (List.range ((zpa + n - 1) / 2 ^ 30 - zpa / 2 ^ 30 + 1)).all (fun i =>
    match zoneMem s z (2 ^ 30 * (zpa / 2 ^ 30 + i)) 1 with
    | some (pa, kind) => kind != 1 || decide (2 ^ 30 ≤ pa)
    | none => false))

/-- Does a line of a byte string read as poisoned? -/
def anyPoison (s : State) (pa n : Nat) : Bool :=
  s.poison.any (fun l => decide (pa / 256 ≤ l) && decide (256 * l < pa + n))

/-- Pieces of a byte string that lie in one segment each: zone-physical address, offset, length. -/
def segPieces (zpa n : Nat) : List (Nat × Nat × Nat) :=
  if n = 0 then []
  else (List.range ((zpa + n - 1) / 2 ^ 30 - zpa / 2 ^ 30 + 1)).map (fun i =>
    let lo := Nat.max zpa (2 ^ 30 * (zpa / 2 ^ 30 + i))
    let hi := Nat.min (zpa + n) (2 ^ 30 * (zpa / 2 ^ 30 + i + 1))
    (lo, lo - zpa, hi - lo))

/-- A unit reads zone memory in a request class (Table 7.1): the bytes, or completion code 7 or 8 (Table 15.6). -/
def accRead (comp : Bool) (cls z zpa n : Nat) (s : State) : (Except Nat (List Byte)) × State :=
  if !accSpan s z zpa n then (.error 7, s)
  else (segPieces zpa n).foldl (fun (r : (Except Nat (List Byte)) × State) p =>
    match r with
    | (.error c, s) => (.error c, s)
    | (.ok acc, s) =>
      match zoneMem s z p.1 p.2.2 with
      | none => (.error 7, s)
      | some (pa, _) =>
        let bad := anyPoison s pa p.2.2
        match readBytes (accAcc comp z) cls pa p.2.2 s with
        | (some b, s) => (.ok (acc ++ b), s)
        | (none, s) => (.error (if bad then 8 else 7), s)) (.ok [], s)

/-- A unit writes zone memory (R230, R400): done; an error; or it waits for a commit grant or a busy line. -/
def accWrite (comp : Bool) (z zpa : Nat) (bytes : List Byte) (s : State) : LineAns × State :=
  if !accSpan s z zpa bytes.length then (.denied, s)
  else (segPieces zpa bytes.length).foldl (fun (r : LineAns × State) p =>
    match r with
    | (.done, s) =>
      match zoneMem s z p.1 p.2.2 with
      | none => (.denied, s)
      | some (pa, _) => ivw (accAcc comp z) pa (slice bytes p.2.1 p.2.2) s
    | r => r) (.done, s)

/- Descriptors. -/

/-- A descriptor (Table 15.1). -/
structure Desc where
  op     : Nat
  flags  : Nat
  param  : Nat
  len1   : Nat
  inp    : Nat
  out    : Nat
  outCap : Nat
  len2   : Nat
  aux    : Nat
  key1   : Nat
  key2   : Nat
  ctx    : Nat
  iv     : List Byte
  next   : Nat
  compl  : Nat
  tag    : Nat
  vector : Nat
  prio   : Nat
  thread : Nat
  zero   : Bool
deriving DecidableEq, Repr

/-- The descriptor that 128 bytes hold; zero: its last 20 bytes are zero. -/
def descOf (b : List Byte) : Desc :=
  { op := beAt b 0 1, flags := beAt b 1 1, param := beAt b 2 2, len1 := beAt b 4 4, inp := beAt b 8 8
    out := beAt b 0x10 8, outCap := beAt b 0x18 4, len2 := beAt b 0x1C 4, aux := beAt b 0x20 8
    key1 := beAt b 0x28 8, key2 := beAt b 0x30 8, ctx := beAt b 0x38 8, iv := slice b 0x40 16, next := beAt b 0x50 8
    compl := beAt b 0x58 8, tag := beAt b 0x60 8, vector := beAt b 0x68 2, prio := beAt b 0x6A 1
    thread := beAt b 0x6B 1, zero := beAt b 0x6C 20 == 0 }

/-- CHAIN. -/
def Desc.chain (d : Desc) : Bool := d.flags % 2 == 1
/-- IEN. -/
def Desc.ien (d : Desc) : Bool := d.flags / 2 % 2 == 1
/-- FIRST. -/
def Desc.first (d : Desc) : Bool := d.flags / 4 % 2 == 1
/-- FINAL. -/
def Desc.final (d : Desc) : Bool := d.flags / 8 % 2 == 1

/-- Operations of the crypto unit (Table 15.2). -/
def cryptoOps : List Nat :=
  [0x01, 0x02, 0x03, 0x04, 0x05, 0x06, 0x08, 0x09, 0x0A, 0x0B, 0x0C, 0x0D, 0x0E, 0x0F, 0x10, 0x11, 0x12, 0x13, 0x14, 0x15,
   0x16, 0x17, 0x18, 0x20, 0x28, 0x29, 0x2A, 0x30]

/-- Operations that use a CTX block (R404). -/
def multiOps : List Nat := [0x01, 0x02, 0x05, 0x06, 0x08, 0x09, 0x0A, 0x0B, 0x0C, 0x0D, 0x0E, 0x0F]

/-- Bytes of a hash by number: OP − 0x08 (Table 15.2). -/
def hashSize : Nat → Nat
  | 0 => 32 | 1 => 48 | 2 => 64 | 3 => 32 | 4 => 48 | 5 => 64 | _ => 0

/-- Bytes of an ECDSA coordinate by curve. -/
def curveSize : Nat → Nat
  | 1 => 32 | 2 => 48 | _ => 0

/-- Public key, signature of ML-DSA by parameter set (FIPS 204). -/
def dsaSizes : Nat → Nat × Nat
  | 1 => (1312, 2420) | 2 => (1952, 3309) | 3 => (2592, 4627) | _ => (0, 0)

/-- Encapsulation key and ciphertext of ML-KEM by parameter set (FIPS 203). -/
def kemSizes : Nat → Nat × Nat
  | 1 => (1184, 1088) | 2 => (1568, 1568) | _ => (0, 0)

/-- Fixed size of what an operation writes to OUT; 0 where its size is not fixed (Table 15.4 code 0x04). -/
def fixedOut (comp : Bool) (d : Desc) : Nat :=
  if comp then 0
  else match d.op with
    | 0x08 => if d.final then 32 else 0
    | 0x09 => if d.final then 48 else 0
    | 0x0A => if d.final then 64 else 0
    | 0x0B => if d.final then 32 else 0
    | 0x0C => if d.final then 48 else 0
    | 0x0D => if d.final then 64 else 0
    | 0x0E => if d.final then hashSize (d.param % 16) else 0
    | 0x10 => 2 * curveSize (d.param % 16)
    | 0x12 => (dsaSizes (d.param % 16)).2
    | 0x14 => (kemSizes (d.param % 16)).1
    | 0x15 => (kemSizes (d.param % 16)).2
    | 0x17 => if curveSize (d.param % 16) = 0 then 0 else 2 * curveSize (d.param % 16) + 1
    | 0x18 => (dsaSizes (d.param % 16)).1
    | 0x20 => if d.param / 16 % 16 = 4 then 16 else 8
    | _ => 0

/-- Bytes of a context block (R404, R411). -/
def ctxSize (comp : Bool) : Nat := if comp then 36864 else 256

/-- Does an operation take a token at KEY1? -/
def usesKey1 (op : Nat) : Bool :=
  [0x01, 0x02, 0x03, 0x04, 0x05, 0x06, 0x0E, 0x0F, 0x10, 0x12, 0x16, 0x20, 0x2A].contains op

/-- Does an operation write a token at KEY2? -/
def makesToken (op : Nat) : Bool := [0x14, 0x15, 0x16, 0x17, 0x18, 0x28, 0x29, 0x2A].contains op

/-- Is a descriptor malformed, whatever memory holds (Table 15.4 code 0x04)? -/
def descBad (comp : Bool) (d : Desc) : Bool :=
  let opOk := if comp then d.op == 1 || d.op == 2 else cryptoOps.contains d.op
  !opOk || decide (16 ≤ d.flags) || !d.zero || decide (1024 ≤ d.vector) || decide (16 ≤ d.prio) || decide (80 ≤ d.thread) ||
    (d.chain && d.next % 128 != 0) || (!d.chain && d.compl == 0) || d.compl % 64 != 0 ||
    (comp && (d.key1 != 0 || d.key2 != 0 || d.iv.any (· != 0) || d.ctx % 256 != 0)) || decide (d.outCap < fixedOut comp d)

/-- Do the addresses of a descriptor that its operation uses lie where R400 lets them? -/
def descAddrs (comp : Bool) (s : State) (z : Nat) (d : Desc) : Bool :=
  accSpan s z d.inp d.len1 && accSpan s z d.out d.outCap && accSpan s z d.aux d.len2 &&
    (comp || !usesKey1 d.op || accSpan s z d.key1 128) && (comp || !(makesToken d.op || d.op == 0x20) || accSpan s z d.key2 128) &&
    (d.ctx == 0 || accSpan s z d.ctx (ctxSize comp)) && (d.compl == 0 || accSpan s z d.compl 64)

/-- Refusal of a chain, or its descriptors in order (R397, R401, Table 15.4): fuel bounds its length. -/
def readChain (comp : Bool) (z : Nat) : Nat → Nat → State → (Except Nat (List (List Byte))) × State
  | 0, _, s => (.error 4, s)
  | fuel + 1, zpa, s =>
    if !accSpan s z zpa 128 then (.error 5, s)
    else match accRead comp 7 z zpa 128 s with
      | (.error _, s) => (.error 7, s)
      | (.ok b, s) =>
        let d := descOf b
        if descBad comp d then (.error 4, s)
        else if !descAddrs comp s z d then (.error 5, s)
        else if !d.chain then (.ok [b], s)
        else match readChain comp z fuel d.next s with
          | (.ok l, s) => (.ok (b :: l), s)
          | r => r

/-- Slice that a SID-to-slice entry names for a unit; none where it is not valid or outside the zone's share (R394, R395). -/
def sidSlice (comp : Bool) (s : State) (z : Nat) (e : BitVec 16) : Option Nat :=
  let v := e.getLsbD (if comp then 7 else 15)
  let k := if comp then e.toNat % 16 else e.toNat / 256 % 16
  let share := 16 / s.zc
  if v && decide (z * share ≤ k) && decide (k < (z + 1) * share) then some k else none

/-- Lifecycle of a slice. -/
def sliceFn (comp : Bool) (k : Nat) : Fn := if comp then .dslice (Fin.ofNat 16 k) else .cslice (Fin.ofNat 16 k)

/-- Island of a unit. -/
def unitIsland (comp : Bool) : Island := if comp then .comp else .crypto

/-- Does a unit work: its island is up, and the module is not in M7 or M8, where its jobs are abandoned (R37)? -/
def unitWorks (s : State) (comp : Bool) : Bool := islandUp s (unitIsland comp) && !s.inMode [.holdup, .checkstop]

/-- Does a frequency change hold a unit's clock (R19)? Its work comes again. -/
def unitHeld (s : State) (comp : Bool) : Bool := (s.island (unitIsland comp)).relock

/-- A chain enters a slice's queue: its job identifier (R397, R399). -/
def acceptChain (comp : Bool) (k z : Nat) (l : List (List Byte)) (s : State) : Nat × State :=
  let x := s.slice comp k
  let job := 65536 * k + x.seq.toNat
  let jobs := l.zipIdx.map (fun (e : List Byte × Nat) =>
    ({ desc := e.1, zone := z, job := BitVec.ofNat 64 job, chain := x.chain, pos := e.2, last := e.2 + 1 == l.length
       stage := .queued } : Job))
  (job, s.updSlice comp k (fun x => { x with jobs := x.jobs ++ jobs, seq := x.seq + 1, chain := x.chain + 1 }))

/-- What Gd receives on a refusal (R397). -/
def accRefusal (rr : Nat) : Word := 0xFFFF000000000000 ||| BitVec.ofNat 64 rr

/-- CRQ or DFQ at the unit (R395 to R399): the value for Gd. -/
def request (comp : Bool) (z : Nat) (sid : Word) (zpa : Nat) (s : State) : Word × State :=
  match sidSlice comp s z (tget 0 (s.zone z).sidt (sid.toNat % 4096)) with
  | none => (accRefusal 1, s)
  | some k =>
    if s.lcs (sliceFn comp k) ≠ .on ∨ !unitWorks s comp then (accRefusal 2, s)
    else if s.lcs (.zone (Fin.ofNat 16 z)) ≠ .on then (accRefusal 8, s)
    else match readChain comp z 8 zpa s with
      | (.error c, s) => (accRefusal c, s)
      | (.ok l, s) =>
        if 64 < (s.slice comp k).jobs.length + l.length then (accRefusal 3, s)
        else
          let (job, s) := acceptChain comp k z l s
          (BitVec.ofNat 64 job, s)

/- Completions. -/

/-- A completion (Table 15.5). -/
def complEntry (j : Job) (code detail outLen : Nat) (inl : Quad) (more : Bool) (now : Nat) : List Byte :=
  let d := descOf j.desc
  toBe 1 (128 + more.toNat) ++ toBe 1 code ++ toBe 2 (4096 * (j.pos % 16) + detail % 4096) ++ toBe 4 outLen ++ toBe 8 d.tag ++
    toBe 8 j.job.toNat ++ toBe 8 0 ++ toBe 16 inl.toNat ++ toBe 8 now ++ toBe 8 0

/-- Later descriptors of a job's chain in its slice. -/
def chainAfter (j : Job) (l : List Job) : List Job := l.filter (fun i => i.chain == j.chain && decide (j.pos < i.pos))

/-- COMPL of a job's descriptor. -/
def Job.compl (j : Job) : Nat := (descOf j.desc).compl

/-- Area that takes a job's completion, if one does (R401): an area takes one completion of a chain, and the failing
descriptor's goes to the last one's area where its own is 0. -/
def complArea (j : Job) (after : List Job) : Option Nat :=
  let shared := after.any (fun i => i.compl == j.compl)
  match j.stage with
  | .queued => none
  | .notRun => if j.compl = 0 ∨ shared then none else some j.compl
  | .ran code _ _ _ _ =>
    if code = 0 ∨ code = 11 then (if j.compl = 0 ∨ shared then none else some j.compl)
    else if j.compl ≠ 0 then some j.compl
    else match (after.filter (fun i => i.last)).head? with
      | some i => some i.compl
      | none => none

/-- The interrupt that follows the write to the last descriptor's area (R401, R414). -/
def jobIrq (j : Job) (s : State) : State :=
  let d := descOf j.desc
  if d.ien then routeIrq (Fin.ofNat 16 j.zone) { thread := d.thread, vector := d.vector, prio := BitVec.ofNat 4 d.prio } s else s

/-- The first job of a slice whose completion may be written. -/
def readyJob (l : List Job) : Option Job := l.find? (fun j => j.stage != .queued && !j.held)

/-- A job leaves its slice. Where it failed, later descriptors of its chain whose area its completion took leave with it
(R401). -/
def dropJob (j : Job) (area : Option Nat) (comp : Bool) (k : Nat) (s : State) : State :=
  let failed := match j.stage with | .ran c _ _ _ _ => c != 0 && c != 11 | _ => false
  s.updSlice comp k (fun x => { x with jobs := (x.jobs.erase j).filter (fun i =>
    !(failed && i.chain == j.chain && i.stage == .notRun && area == some i.compl)) })

/-- The next completion of a slice (R414, R401): one write of 64 B, then the interrupt. A write that waits for a commit
grant leaves the job where it is; jobs of a unit whose island is fenced, or in M7 and M8, end without one (R37, R398). -/
def completeNext (comp : Bool) (k : Nat) (s : State) : State :=
  let jobs := (s.slice comp k).jobs
  if !unitWorks s comp then s.updSlice comp k (fun x => { x with jobs := [] })
  else match readyJob jobs with
    | none => s
    | some j =>
      let after := chainAfter j jobs
      let area := complArea j after
      let lasts := (if j.last then some j else none).toList ++ after.filter (fun i => i.last && area == some i.compl && j.stage != .notRun)
      match area with
      | none => dropJob j none comp k s
      | some a =>
        let e := match j.stage with
          | .ran code detail outLen inl more => complEntry j code detail outLen inl more s.now
          | _ => complEntry j 15 0 0 0 false s.now
        match accWrite comp j.zone a e s with
        | (.waits, s) => s
        | (.done, s) => lasts.foldl (fun s i => jobIrq i s) (dropJob j area comp k s)
        | (_, s) => dropJob j area comp k s

/-- DESCRIPTOR_COMPLETE (R414). -/
def execDescriptorComplete (comp : Bool) (slice : Fin 16) (s : State) : Host.Outcome State Fault Refusal :=
  .next (if unitHeld s comp then s else orWait (completeNext comp slice) s)

end Sys2Proof.Machine
end

