-- ==== Sys2Proof/Machine/Exec.lean ====
section
/-! DEFINITION. What every VA4 instruction passes through: asynchronous events, fetch, decode-time exceptions, the
condition, its own effect, an exception or its retirement (chapters 3, 5, 7 and 9). -/

namespace Sys2Proof.Machine

/-- Has a core power, and a clock that no frequency change holds (R19)? -/
def clocked (s : State) (n : Nat) : Bool := (s.island (coreIsl n)).power && !(s.island (coreIsl n)).relock

/-- Can thread th of core n take an instruction now: its island has power and clock, it runs, is not halted, waits for
nothing, and its PU does not roll back? A command for a thread that cannot leaves the state unchanged (assumption 4). -/
def canRun (s : State) (n : Nat) (th : Bool) : Bool :=
  let t := s.thr n th
  t.running && !t.halted && t.wait == .none && !(s.pu n).retrying && clocked s n

/-- Does a core run without comparison: a PU out of lock-step (R286), or a channel engine? -/
def noLockstep (s : State) (n : Nat) : Bool := (s.pu n).unchecked || decide (48 ≤ n)

/-- Has all that a thread has retired compared good (R262)? -/
def comparedAll (s : State) (n : Nat) (th : Bool) : Bool :=
  noLockstep s n || (s.thr n th).ckpt == (s.thr n th).arch

/-- Table 3.6: the condition code against S.SW and S.DS. -/
def condTrue (c : BitVec 4) (a : Arch) : Bool :=
  let n := bit 31 a.sw
  let z := bit 30 a.sw
  let cf := bit 29 a.sw
  let v := bit 28 a.sw
  match c.toNat with
  | 0 => true
  | 1 => z
  | 2 => !z
  | 3 => n != v
  | 4 => n == v
  | 5 => !z && n == v
  | 6 => z || n != v
  | 7 => !cf
  | 8 => cf
  | 9 => cf && !z
  | 10 => !cf || z
  | 11 => v
  | 12 => !v
  | 13 => n
  | 14 => bit 0 a.ds
  | _ => bit 23 a.sw

/-- Bytes of a younger store over those of an older one. -/
def overlay (old new : Tbl (Option Byte)) : Tbl (Option Byte) :=
  new.foldl (fun (t : Tbl (Option Byte)) e => tset none t e.1 e.2) old

/-- Merge of a released store into an older entry that has not begun to drain (R194, R195): search from the youngest entry
back to the last marker. -/
def mergeBack (e : SbEntry) : List SbItem → Option (List SbItem)
  | [] => none
  | .marker :: _ => none
  | .store o :: r =>
    if o.line = e.line ∧ o.mt = e.mt ∧ o.released ∧ !o.draining ∧ o.tx = e.tx ∧ e.mt ≠ .device then
      some (.store { o with
        bytes := overlay o.bytes e.bytes, barsLoads := o.barsLoads || e.barsLoads, trs := o.trs ++ e.trs } :: r)
    else (mergeBack e r).map (fun r => .store o :: r)

/-- Release of every unreleased store, in program order; done holds the items before, youngest first (R194). A channel
engine's stores never merge (R199). -/
def releaseFrom (merge : Bool) : List SbItem → List SbItem → List SbItem
  | done, [] => done.reverse
  | done, .marker :: l => releaseFrom merge (.marker :: done) l
  | done, .store e :: l =>
    if e.released then releaseFrom merge (.store e :: done) l
    else
      let e := { e with released := true }
      match (if merge then mergeBack e done else none) with
      | some d => releaseFrom merge d l
      | none => releaseFrom merge (.store e :: done) l

/-- A thread's retired work has compared good: stores are released, shadow entries dropped, the checkpoint is written in
both copies, latch entries are freed (R261, R263, R265, R267). -/
def Thread.compared (merge : Bool) (t : Thread) : Thread :=
  { t with
    sb := releaseFrom merge [] t.sb, ckpt := t.arch, latch := [], shadow := [], ckGh := t.gh, ckRas := t.ras
    ckBad := (false, false), latBad := (false, false) }

/-- An instruction retires: its uses of the caches take effect, and it is counted, for the thread and for an open
transaction; without comparison its stores are released at once (R117, R199, R286). -/
def retire (n : Nat) (th : Bool) (s : State) : State :=
  let un := noLockstep s n
  (s.updPu n (touched th)).updThr n th (fun t =>
    let t := { t with retired := t.retired + 1, tx := t.tx.map (fun (x : Tx) => { x with retired := x.retired + 1 }) }
    if un then t.compared (decide (n < 48)) else t)

/-- The thread continues len bytes further on. -/
def advance (n : Nat) (th : Bool) (len : Nat) (s : State) : State :=
  s.updThr n th (fun t => { t with arch := { t.arch with pc := t.arch.pc + BitVec.ofNat 64 len } })

/-- FENCED_TARGET at the issuing core, for a posted write (R17). -/
def fencedTarget (n pa : Nat) (s : State) : State := latch (coreBlk n) 0 0 (pa / 256 % 2 ^ 32) 1 s

/-- The highest priority at or above IPL among pending vectors, and the lowest vector of that priority (R79). -/
def bestIrq (ipl : Nat) (l : Tbl (Option (BitVec 4))) : Option (Nat × BitVec 4) :=
  l.foldl (fun (b : Option (Nat × BitVec 4)) e =>
    match e.2 with
    | none => b
    | some p =>
      if p.toNat < ipl then b
      else match b with
        | none => some (e.1, p)
        | some x => if x.2.toNat < p.toNat then some (e.1, p) else b) none

/-- An event is taken: an open transaction aborts with code 3 first (Table 9.4), and the vector is entered with the
next instruction's address. -/
def enterEvent (n : Nat) (th : Bool) (vec code detail : Nat) (s : State) : State :=
  let s := cancelWaits n th (if (s.thr n th).tx.isSome then abortOwn n th 3 0 s else s)
  s.updThr n th (fun t => t.enter vec t.arch.pc (mkCause code false false detail vec) 0 0)

/-- An asynchronous event of a thread: a machine-check note (detail, cause code), or an interrupt (vector, priority). -/
inductive Event where
  | note (d c : Nat)
  | irq (v : Nat) (p : BitVec 4)
deriving DecidableEq, Repr

/-- The event that thread th of core n takes at this boundary, if one is deliverable (R79): none while a constrained
transaction is open or restarts (R253). -/
def dueEvent (s : State) (n : Nat) (th : Bool) : Option Event :=
  let t := s.thr n th
  if t.stamp.isSome || (match t.tx with | some x => x.constrained | none => false) then none
  else match t.note, bit 17 t.arch.sw with
    | some (d, c), true => some (.note d c)
    | _, _ => if bit 18 t.arch.sw then (bestIrq (fld 15 12 t.arch.sw) t.pend).map (fun q => .irq q.1 q.2) else none

/-- An event is taken: it is no longer pending. -/
def enterDue (n : Nat) (th : Bool) (e : Event) (s : State) : State :=
  match e with
  | .note d c => enterEvent n th 1 c d (s.updThr n th (fun t => { t with note := none }))
  | .irq v p => enterEvent n th (0x20 + p.toNat) v 0 (s.updThr n th (fun t => { t with pend := tset none t.pend v none }))

/-- An exception is taken (R78, R247): an open transaction aborts with code 2 first, and S.EPC is as Tables 3.10 and
9.4 give it. An emulated instruction and a supervisor call count as retired (R82). -/
def takeExc (n : Nat) (th : Bool) (enc : Word) (long : Bool) (e : Exc) (s : State) : State :=
  let s := cancelWaits n th s
  let t := s.thr n th
  let cause := mkCause e.code e.w (long && e.words != 0) e.detail e.vec
  let eins := if e.words = 0 then 0 else if e.words = 1 then enc &&& 0xFFFFFFFF00000000 else enc
  let epc := if e.vec = 0x0B then t.arch.pc + 4 else t.arch.pc
  let s := if e.vec = 0x0B ∨ e.vec = 0x0C then s.updThr n th (fun t => { t with retired := t.retired + 1 }) else s
  if t.tx.isSome then
    let s := abortTx 97 n th 2 none 0 false t.arch.pc (some (cause, e.eaddr)) s
    s.updThr n th (fun t => t.enter e.vec t.arch.pc cause e.eaddr eins)
  else s.updThr n th (fun t => t.enter e.vec epc cause e.eaddr eins)

/-- What the fetch latch holds of a page: its translation, or with translation off the 4 KiB page of the address. -/
def latchEntry (va : Word) (p : Phys) : TlbEntry :=
  p.tr.getD { va := va.toNat / 4096 * 4096, zpa := va.toNat / 4096 * 4096, pa := p.pa / 4096 * 4096, bits := 12, mt := p.mt,
              r := true, w := true, x := true, u := true, g := true, ctx := 0 }

/-- Physical address of an instruction word: the fetch latch's page, or a translation (R147, R152, R162). -/
def fetchPhys (n : Nat) (th : Bool) (va : Word) (s : State) : (Except (Nat × Nat) Phys) × State :=
  let a := (s.thr n th).arch
  match (s.thr n th).fetchLatch with
  | some (en, e) =>
    if en != ttbOn a || !tlbHit e va.toNat (ttbCtx a) then translate n th va .fetch s
    else if !rightsOk e .fetch a.problem then (.error (6, 1), s)
    else (.ok { pa := e.pa + va.toNat % 2 ^ e.bits, mt := e.mt, tr := if en then some e else none }, s)
  | none => translate n th va .fetch s

/-- Fetch of an instruction word whose address is known: from the L1I, or from the L2 or the home (R162, R451). A line that
another thread of the PU has written in its transaction conflicts (R244). -/
def fetchLine (n : Nat) (th : Bool) (va : Word) (words : Nat) (p : Phys) (s : State) : Res :=
  let l := p.pa / 256
  if l1Has (s.pu n).l1i l then .done (useLine n th (.i l) s)
  else match homeAnswer n th p.pa .fetch 0 s with
    | (some d, s) => .exc { vec := 6, detail := d, eaddr := va, words := words } s
    | (none, s) =>
      if s.poisoned l then .exc { vec := 2, detail := 2, eaddr := va, words := words } s
      else match obtainShared n th l (if p.mt = .normalNA then 2 else 0) s with
        | (false, s) => .wait s
        | (true, s') =>
          let t := useLine n th (.i l) (s'.updPu n (fun p => { p with l1i := l1Fill l p.l1i }))
          .done (if (l2State (s.pu n) l).isSome then useLine n th (.l2 l) t else t)

/-- Fetch of one instruction word through the fetch latch, the L1I and the L2. words: how many words of the instruction
came before. -/
def fetchWord (n : Nat) (th : Bool) (va : Word) (words : Nat) (s : State) : Res :=
  let r := fetchPhys n th va s
  match r.1 with
  | .error e => if e.1 = 0 then .wait r.2 else .exc { vec := e.1, detail := e.2, eaddr := va, words := words } r.2
  | .ok p =>
    fetchLine n th va words p
      (r.2.updThr n th (fun t => { t with fetchLatch := some (ttbOn t.arch, latchEntry va p) }))

/-- Fetch of a whole instruction (R60). A channel engine takes its firmware from its instruction store (R344). -/
def fetchIns (n : Nat) (th : Bool) (long : Bool) (s : State) : Res :=
  let pc := (s.thr n th).arch.pc
  let s := s.updThr n th (fun t => { t with touch := [] })
  if 48 ≤ n then .done s
  else match fetchWord n th pc 0 s with
  | .done s => if long then fetchWord n th (pc + 4) 1 s else .done s
  | r => r

/-- Does a fetch exception of this PU's thread meet the vector area (R81)? -/
def inVectorArea (a : Arch) (va : Word) : Bool :=
  decide (a.vbar.toNat ≤ va.toNat) && decide (va.toNat < 0x4000 + a.vbar.toNat)

/-- A fetch ended with an exception: vectors 0x04 and 0x06 in the vector area are a class C3 fault of the zone (R81). -/
def fetchFault (n : Nat) (th : Bool) (enc : Word) (long : Bool) (e : Exc) (s : State) : State :=
  if (e.vec = 4 ∨ e.vec = 6) ∧ inVectorArea (s.thr n th).arch e.eaddr then
    raiseZone (coreBlk n) 20 th.toNat 0 (s.puZone n) s
  else takeExc n th enc long e s

/-- Decode-time checks of an instruction: vector and detail of the exception it takes in this state (R61, R76). -/
abbrev Dec := Arch → Option (Nat × Nat)

/-- No check fails. -/
def decOk : Dec := fun _ => none

/-- Register constraint or reserved field, broken where b is true (R61). -/
def decIf (b : Bool) (detail : Nat) : Dec := fun _ => if b then some (0x0C, detail) else none

/-- Privileged instruction (R76). -/
def decPriv : Dec := fun a => if a.problem then some (0x0A, 1) else none

/-- The first of two checks that fails. -/
def Dec.and (p q : Dec) : Dec := fun a => match p a with | some e => some e | none => q a

/-- Is an instruction word of a group that a channel engine does not execute (R85): MULDIV, FPB, FMA, DEC, TX, IOA, CRA, and
MEMCTL codes other than the fences and SYNC.EP? -/
def ceLacks (enc : Word) : Bool :=
  let opc := fld 59 54 enc
  opc == 0x01 || opc == 0x30 || opc == 0x31 || opc == 0x32 || opc == 0x35 || opc == 0x37 || opc == 0x38 ||
    (opc == 0x34 && decide (0x10 ≤ fld 37 32 enc))

/-- An instruction that core n does not provide: a group that channel engines lack (R85), or a microcoded instruction that
the loaded control store leaves out (R124), key as (major opcode × 64 + code). -/
def storeLacks (s : State) (n : Nat) (enc : Word) (micro : Option Nat) : Bool :=
  if 48 ≤ n then ceLacks enc
  else match micro with
    | some k => storeOmits s n k
    | none => false

/-- The decode-time exception of an instruction whose own checks give d: vector 0x0C comes before 0x0A (R79), so a missing
instruction (detail 3) before its privilege. -/
def decOrLack (s : State) (n : Nat) (enc : Word) (micro : Option Nat) (d : Option (Nat × Nat)) : Option (Nat × Nat) :=
  match d with
  | some (0x0C, k) => some (0x0C, k)
  | other => if storeLacks s n enc micro then some (0x0C, 3) else other

/-- What comes before the effect of a fetched instruction (R61, R65, R76, R124, R241, R250): decode-time checks, the
length of a constrained transaction, the condition, the instructions a transaction does not take. -/
def frontChecks (h : Hdr) (enc : Word) (long : Bool) (micro : Option Nat) (restricted : Bool) (dec : Dec) (s : State) :
    Front :=
  let n := h.pu.val
  let a := (s.thr n h.th).arch
  let tx := (s.thr n h.th).tx
  match decOrLack s n enc micro (dec a) with
  | some d => .stop (takeExc n h.th enc long { vec := d.1, detail := d.2 } s)
  | none =>
    if (match tx with | some x => x.constrained && decide (32 ≤ x.retired) | none => false) then
      .stop (abortOwn n h.th 10 a.pc s)
    else if !condTrue h.cond a then .skip s
    else match tx, restricted with
      | some x, true => .stop (abortOwn n h.th (if x.constrained then 12 else 6) a.pc s)
      | _, _ => .go s

/-- What comes before the effect of an instruction, in the order of R79: an event, the fetch, the checks. -/
def front (h : Hdr) (enc : Word) (long : Bool) (micro : Option Nat) (restricted : Bool) (dec : Dec) (s : State) : Front :=
  let n := h.pu.val
  if !canRun s n h.th then .stop s
  else match dueEvent s n h.th with
    | some e => .stop (enterDue n h.th e s)
    | none =>
      match fetchIns n h.th long s with
      | .exc e s => .stop (fetchFault n h.th enc long e s)
      | .wait s => .stop s
      | .done s => frontChecks h enc long micro restricted dec s

/-- An instruction ends with an exception; vector 0 stands for a wait in a table walk. -/
def endExc (n : Nat) (th : Bool) (enc : Word) (long : Bool) (e : Exc) (s : State) : State :=
  if e.vec = 0 then s else takeExc n th enc long e s

/-- An instruction from boundary to boundary. jump: its effect sets the next address itself. -/
def runIns (h : Hdr) (enc : Word) (long jump : Bool) (micro : Option Nat) (restricted : Bool) (dec : Dec)
    (body : State → Res) (s : State) : State :=
  let n := h.pu.val
  let len := if long then 8 else 4
  match front h enc long micro restricted dec s with
  | .stop s => s
  | .skip s => retire n h.th (advance n h.th len s)
  | .go s =>
    match body s with
    | .wait s => s
    | .exc e s => endExc n h.th enc long e s
    | .done s => retire n h.th (if jump then s else advance n h.th len s)

/-- A hardwired one-word instruction whose effect is on registers alone. -/
def runReg (h : Hdr) (enc : Word) (dec : Dec) (f : Arch → Arch) (s : State) : State :=
  runIns h enc false false none false dec
    (fun s => .done (s.updThr h.pu h.th (fun t => { t with arch := f t.arch }))) s

/-- A long form whose effect is on registers alone. -/
def runLong (h : Hdr) (enc : Word) (f : Arch → Arch) (s : State) : State :=
  runIns h enc true false none false decOk
    (fun s => .done (s.updThr h.pu h.th (fun t => { t with arch := f t.arch }))) s

/-- A one-word instruction on registers that may take an exception of its own. -/
def runTrap (h : Hdr) (enc : Word) (dec : Dec) (f : Arch → Except Exc Arch) (s : State) : State :=
  runIns h enc false false none false dec
    (fun s => match f (s.thr h.pu h.th).arch with
      | .error e => .exc e s
      | .ok a => .done (s.updThr h.pu h.th (fun t => { t with arch := a }))) s

end Sys2Proof.Machine
end

