-- ==== Sys2Proof/Machine/CohRows.lean ====
section
/-! DEFINITION. Coherence messages (Table 8.6): requests admitted at a home, and the messages that serve them. -/

namespace Sys2Proof.Machine

/-- One line of a set recall (Table 8.2): every copy goes, dirty data written back; poisoned dirty data are the L2's C3. -/
def recallLine (l : Nat) (s : State) : State :=
  let bad := (List.range 48).find? (fun n => heldM s n l && s.poisoned l)
  let s := dirFree l (markNoAlloc l (loseOthers none l false (some 13) 0 none s))
  match bad with
  | some n => raiseZone (coreBlk n) 16 0 (l % 2 ^ 32) (zoneOfLine s l) s
  | none => s

/-- Set recall (Table 8.2): every line of one directory set is written back and invalidated. -/
def setRecall (i : Nat) (s : State) : State :=
  (List.range 16).foldl (fun (s : State) w =>
    match (dirWay s (i * 16 + w)).line with
    | some l => recallLine l s
    | none => s) s

/-- A set recall in its turn at the fabric arbiter (R225); before, it waits there. True: performed. -/
def recallTurn (i : Nat) (s : State) : Bool × State :=
  let o : ArbOp := .recall i
  if arbTurn o s then (true, latch (.home (Fin.ofNat 4 (i / 30720))) 9 0 0 1 (setRecall i (arbOut o s)))
  else (false, standBy (.arb o) s)

/-- An uncorrectable error in a footprint line of core n aborts the transactions that hold it with code 16 (R260). -/
def abortBad (n l : Nat) (s : State) : State :=
  [false, true].foldl (fun (s : State) th =>
    match (s.thr n th).tx with
    | some x =>
      if x.reads.contains l || x.writes.contains l then
        abortTx 97 n th 16 (some l) 0 false (s.thr n th).arch.pc none s
      else s
    | none => s) s

/-- Has a thread of core n written a line in its open transaction? -/
def txWritten (s : State) (n l : Nat) : Bool :=
  [false, true].any (fun th => match (s.thr n th).tx with
    | some x => x.writes.contains l
    | none => false)

/-- The dirty L2 copy of a line is found uncorrectable (Table 8.2, R260): a transactionally written copy goes with its
transaction, as class C1; any other is written back poisoned. -/
def l2Poison (l : Nat) (s : State) : State :=
  match (List.range 48).find? (fun n => heldM s n l) with
  | some n =>
    let wrote := txWritten s n l
    let s := abortBad n l s
    if wrote then latch (coreBlk n) 16 0 0 1 s
    else raiseZone (coreBlk n) 16 0 (l % 2 ^ 32) (zoneOfLine s l) (evictLine n l (s.addPoison l))
  | none => s

/-- A clean line of core n's L2 is found uncorrectable: it is invalidated, and the home will give it again (Table 8.2). -/
def l2Drop (n l : Nat) (s : State) : State :=
  latch (coreBlk n) 16 0 0 1 (dirClear n l ((abortBad n l s).updPu n (l2Remove l)))

/-- An array's single-bit error is corrected in place (Table 8.2); promoted, it fences the core (R463). -/
def corrected (me l : Nat) (inL2 : Bool) (s : State) : State :=
  if inL2 then
    match (me :: List.range 48).find? (fun n => decide (n < 84) && (l2State (s.pu n) l).isSome) with
    | some n => latchP (coreFn n) 4 0 0 s
    | none => s
  else latch (.home (lineGroup l)) 4 0 0 1 s

/-- How a request goes on after an array error that it meets: it is served, waits for a set recall, or takes vector 0x02
detail 1. -/
inductive ErrGo where
  | serve
  | waits
  | trap (va ins : Word)
deriving DecidableEq, Repr

/-- An array error that a read meets (Table 8.2). -/
def arrayError (a : Acc) (l : Nat) (e : ArrayErr) (s : State) : ErrGo × State :=
  let home : Blk := .home (lineGroup l)
  let me := (masterCore a.master.toNat).getD 255
  let clean := decide (me < 84) && !heldM s me l
  match e with
  | .none => (.serve, s)
  | .corrected inL2 => (.serve, corrected me l inL2 s)
  | .parity =>
    if me < 84 then
      (.serve, latch (coreBlk me) 5 0 0 1 (s.updPu me (fun p => { p with
        l1d := p.l1d.filter (fun x => x.2.line != some l), l1i := p.l1i.filter (fun x => x.2.line != some l)
        side := p.side.filter (· != l) })))
    else (.serve, s)
  | .cleanUncorr => (.serve, if clean then l2Drop me l s else s)
  | .cleanUncorrTwice va ins =>
    if clean then
      let s' := l2Drop me l s
      (if (s.thr me a.th).tx.isSome && (s'.thr me a.th).tx.isNone then .serve else .trap va ins, s')
    else (.serve, s)
  | .dirtyUncorr => (.serve, l2Poison l s)
  | .l3Clean => if l3Dirty s l then (.serve, s) else (.serve, latch home 8 0 0 1 (l3Remove l s))
  | .l3Dirty =>
    if l3Dirty s l then
      (.serve, raiseZone home 8 0 (l % 2 ^ 32) (zoneOfLine s l) ((l3Remove l ((s.flushLine l).addPoison l))))
    else (.serve, s)
  | .dirUncorr =>
    match recallTurn (dirSet l) s with
    | (true, s) => (.serve, s)
    | (false, s) => (.waits, s)

/-- The line becomes busy for a request with the messages that serve it (R221). -/
def setBusy (r : HomeReq) (todo : List Msg) (s : State) : State :=
  { s with coh := { s.coh with busy := tset none s.coh.busy r.line (some { req := r, todo := todo }) } }

/-- Messages that take a line from its other holders for a request (R219, R223): a sole owner forwards, or is recalled
where its data are dirty COMMIT data; sharers are invalidated for an ownership request. -/
def takeMsgs (me l : Nat) (own : Bool) (s : State) : List Msg :=
  let others := (holders s l).filter (· != me)
  if isOwned s l then
    others.map (fun h => if isCommit s l && heldM s h l then .callBack h else .fwd h)
  else if own then others.map .inv else []

/-- RD is admitted: E without another copy, else S. False: it waits. -/
def admitRd (a : Acc) (l : Nat) (s : State) : Bool × State :=
  match agentOf a with
  | none => (true, { s with resp := .error })
  | some me =>
    match passPins a none l s with
    | (false, s) => (false, s)
    | (true, s) =>
      let todo := takeMsgs me l false s
      let excl := (holders s l).all (· == me)
      let fwd := isOwned s l && !excl
      match dirAlloc me l false s with
      | (false, s) => (false, s)
      | (true, s) =>
        let s := if fwd then s else l3Fill l 0 s
        (true, setBusy { acc := a, kind := .rd, line := l } (todo ++ [.data false excl, .ack]) s)

/-- RDX is admitted: M; an older constrained transaction goes ahead, a fifth pin of a set waits (R235, R252). -/
def admitRdx (a : Acc) (l : Nat) (stamp : Option Word) (kind : ReqKind) (s : State) : Bool × State :=
  match agentOf a with
  | none => (true, { s with resp := .error })
  | some me =>
    match passPins a stamp l s with
    | (false, s) => (false, s)
    | (true, s) =>
      if stamp.isSome && decide (4 ≤ pinnedInSet s l) then (false, s)
      else
        let hasCopy := (l2State (s.pu me) l).isSome || (s.pu me).side.contains l
        let s := if hasCopy || (isOwned s l && (holders s l).any (· != me)) then s else l3Fill l 0 s
        let todo := takeMsgs me l true s
        let todo := todo ++ (if kind = .upg ∧ hasCopy then [.ack] else [.data true true, .ack])
        match dirAlloc me l false s with
        | (false, s) => (false, s)
        | (true, s) => (true, setBusy { acc := a, kind := kind, line := l, stamp := stamp } todo (pinLine a stamp l s))

/-- Prefetch read (R209): dropped where another cache owns the line, else S into the side buffer of 64 lines. False: it
waits for a pin or for a way of the directory set (R235, R251). -/
def admitPrefetch (pu : Nat) (th : Bool) (l : Nat) (s : State) : Bool × State :=
  match pinsLet (s.puAcc pu th) none l s with
  | (false, s) => (false, s)
  | (true, s) =>
    let s := dropStale l s
    let others := (holders s l).filter (· != pu)
    if (isOwned s l && !others.isEmpty) || (l2State (s.pu pu) l).isSome || (s.pu pu).side.contains l then (true, s)
    else match dirAlloc pu l false s with
      | (false, s) => (false, s)
      | (true, s) =>
        (true, (l3Fill l 2 s).updPu pu (fun p => { p with side := (if p.side.length < 64 then p.side else p.side.drop 1) ++ [l] }))

/-- Rights of a request, or the error that answers it (R450, R17). -/
def atHome (a : Acc) (pa : Nat) (k : AccKind) (cls : Nat) (s : State) : Bool × State :=
  match dramAnswer a pa k cls s with
  | (none, s) => (true, s)
  | (some 3, s) => (false, { s with resp := .fenced })
  | (some _, s) => (false, { s with resp := .error })

/-- Admission of a request at its home (R220, R221). False: it waits in the line's list. -/
def homeAdmit (c : HomeCmd) (s : State) : Bool × State :=
  match c with
  | .rd a l e =>
    match atHome a (256 * l) .read 0 s with
    | (false, s) => (true, s)
    | (true, s) =>
      if homeBusy s l then (false, s)
      else
        match arrayError a l e s with
        | (.serve, s) => admitRd a l s
        | (.waits, s) => (false, s)
        | (.trap va ins, s) =>
          (true, takeExc ((masterCore a.master.toNat).getD 0) a.th ins (fld 59 54 ins == 0x3F) { vec := 2, detail := 1, eaddr := va } s)
  | .rdn a l =>
    match atHome a (256 * l) .read 0 s with
    | (false, s) => (true, s)
    | (true, s) =>
      if homeBusy s l then (false, s)
      else
        match pinsLet a none l s with
        | (false, s) => (false, s)
        | (true, s) =>
          let s := conflicts l false none (requesterId a 0) (ownThread a) s
          match recallCommit none l s with
          | (false, s) => (false, s)
          | (true, s) => (true, { s with resp := if s.poisoned l then .error else .dict 0 (s.rd (256 * l) 256) })
  | .rdx a l st =>
    match atHome a (256 * l) .write 1 s with
    | (false, s) => (true, s)
    | (true, s) => if homeBusy s l then (false, s) else admitRdx a l st .rdx s
  | .upg a l st =>
    match atHome a (256 * l) .write 1 s with
    | (false, s) => (true, s)
    | (true, s) => if homeBusy s l then (false, s) else admitRdx a l st .upg s
  | .prefetchRead pu th l =>
    match dramAnswer (s.puAcc pu th) (256 * l) .read 6 s with
    | (some _, s) => (true, s)
    | (none, s) => if homeBusy s l then (false, s) else admitPrefetch pu th l s
  | .amo a pa op x y =>
    let l := pa / 256
    match atHome a pa .atomic 4 s with
    | (false, s) => (true, s)
    | (true, s) =>
      if homeBusy s l then (false, s)
      else match passPins a none l s with
        | (false, s) => (false, s)
        | (true, s) =>
          match amoHome a pa op x y (ownThread a) s with
          | (false, _, s) => (false, s)
          | (true, old, s) => (true, { s with resp := .dict 0 (toBe (amoSize op) old) })
  | .mnt a l op =>
    match atHome a (256 * l) (mntKind op) 5 s with
    | (false, s) => (true, s)
    | (true, s) =>
      if homeBusy s l then (false, s)
      else match pinsLet a none l s with
        | (false, s) => (false, s)
        | (true, s) =>
          match mntLine op a l (ownThread a) s with
          | (false, s) => (false, s)
          | (true, s) => (true, { s with resp := .ok 0 })
  | .core n th l own age => if own then obtainOwned n th l age s else obtainShared n th l age s
  | .line _ _ => (false, s)

/-- Line of a request that may wait at a home. -/
def homeLine : HomeCmd → Nat
  | .rd _ l _ => l
  | .rdn _ l => l
  | .rdx _ l _ => l
  | .upg _ l _ => l
  | .prefetchRead _ _ l => l
  | .amo _ pa _ _ _ => pa / 256
  | .mnt _ l _ => l
  | .core _ _ l _ _ => l
  | .line _ l => l

/-- The request at the front of a line's list, where it can be served now: the line, the request and the state after
it. A read or write that its command takes up again is not served here (assumption 67). -/
def serveFront (s : State) (e : Nat × List HomeCmd) : Option (Nat × HomeCmd × State) :=
  match e.2 with
  | c :: _ => if (homeAdmit c s).1 then some (e.1, c, (homeAdmit c s).2) else none
  | [] => none

/-- Waiting requests are admitted in list order as their lines become free (R221); the number bounds them. -/
def settleWaits : Nat → State → State
  | 0, s => s
  | n + 1, s =>
    match s.coh.waits.findSome? (serveFront s) with
    | some q => settleWaits n { q.2.2 with coh := { q.2.2.coh with waits := tupd [] q.2.2.coh.waits q.1 (fun l => l.erase q.2.1) } }
    | none => s

/-- Number of requests that wait. -/
def waiters (s : State) : Nat := (s.coh.waits.map (fun (e : Nat × List HomeCmd) => e.2.length)).sum

/-- Waiting requests follow a change at the homes. -/
def settled (s : State) : State := let s := drainWbuf s; settleWaits (waiters s) s

/-- A request reaches its home: behind those that wait for its line, else admitted (R221). -/
def homeEnter (c : HomeCmd) (s : State) : State :=
  let l := homeLine c
  let q := tget [] s.coh.waits l
  let join := fun (s : State) => { s with coh := { s.coh with waits := tupd [] s.coh.waits l (· ++ [c]) } }
  if !q.isEmpty then join s
  else match homeAdmit c s with
    | (true, s) => settled s
    | (false, s) => join s

/-- RD (R219). -/
def execRd (a : Acc) (line : Nat) (e : ArrayErr) (s : State) : Host.Outcome State Fault Refusal :=
  .next (homeEnter (.rd a line e) s)

/-- RDN (R205). -/
def execRdn (a : Acc) (line : Nat) (s : State) : Host.Outcome State Fault Refusal := .next (homeEnter (.rdn a line) s)

/-- RDX (R219). -/
def execRdx (a : Acc) (line : Nat) (stamp : Option Word) (s : State) : Host.Outcome State Fault Refusal :=
  .next (homeEnter (.rdx a line stamp) s)

/-- UPG (R219, R224). -/
def execUpg (a : Acc) (line : Nat) (stamp : Option Word) (s : State) : Host.Outcome State Fault Refusal :=
  .next (homeEnter (.upg a line stamp) s)

/-- Line of a prefetch for a virtual address (R152, R209): translated without a walk, with the R right, never DEVICE. -/
def prefetchLine (n : Nat) (th : Bool) (va : Word) (s : State) : Option Nat :=
  let a := (s.thr n th).arch
  let v := va.toNat
  let r :=
    if ttbOn a then
      match tlbLookup (s.pu n) .load v (ttbCtx a) with
      | some e => if rightsOk e .load a.problem then some (e.pa + v % 2 ^ e.bits, e.mt) else none
      | none => none
    else match zoneNum s n with
      | some z => if 2 ^ 42 ≤ v then none else (segTrans s z v).map (fun r => (r.1, kindType r.2))
      | none => none
  match r with
  | some (pa, mt) => if mt = .device then none else some (pa / 256)
  | none => none

/-- PREFETCH_READ (R152, R209). -/
def execPrefetchRead (pu : Fin 48) (th : Bool) (va : Word) (s : State) : Host.Outcome State Fault Refusal :=
  .next (match prefetchLine pu th va s with
    | some l => homeEnter (.prefetchRead pu th l) s
    | none => s)

/-- AMO (R192, R193). -/
def execAmo (a : Acc) (addr : BitVec 52) (op : AmoOp) (x y : Quad) (s : State) : Host.Outcome State Fault Refusal :=
  .next (homeEnter (.amo a addr.toNat op x y) s)

/-- MNT (R214, R217). -/
def execMnt (a : Acc) (line : Nat) (op : MntOp) (s : State) : Host.Outcome State Fault Refusal :=
  .next (homeEnter (.mnt a line op) s)

/-- WB (R219, R220): the dirty line leaves its L2. -/
def execWb (pu : Fin 84) (line : Nat) (s : State) : Host.Outcome State Fault Refusal :=
  .next (if heldM s pu line then settled (evictLine pu line s) else s)

/-- EVC (R219, R232). -/
def execEvc (a : Acc) (line : Nat) (s : State) : Host.Outcome State Fault Refusal :=
  .next (match agentOf a with
    | none => s
    | some n => if heldM s n line || !(holders s line).contains n then s else settled (evictLine n line s))

/-- CLNW (R182, R183). -/
def execClnw (pu : Fin 84) (line : Nat) (s : State) : Host.Outcome State Fault Refusal :=
  .next (if isCommit s line && (heldM s pu line || (s.pu pu).tracker.contains line) then (cleanTracked pu false line s).2
    else s)

/-- Bytes of a line write reach their home: done, refused, or not yet taken (R221). -/
def answerWrite (r : LineAns × State) : State :=
  match r with
  | (.done, s) => settled { s with resp := .ok 0 }
  | (.denied, s) => { s with resp := .error }
  | (.fenced, s) => { s with resp := .fenced }
  | (.waits, s) => s

/-- PLW (R230); a write that meets a line it has to wait for waits as a whole (R221). -/
def execPlw (ce : Fin 36) (z : Fin 16) (pu : Fin 48) (_th : Bool) (addr : BitVec 52) (bytes : List Byte) (s : State) :
    Host.Outcome State Fault Refusal :=
  .next (orWait (fun s =>
    answerWrite (plw { master := BitVec.ofNat 8 (64 + ce.val), th := false, zone := some z } z pu addr.toNat bytes s)) s)

/-- IVW (R231). -/
def execIvw (a : Acc) (addr : BitVec 52) (bytes : List Byte) (s : State) : Host.Outcome State Fault Refusal :=
  .next (orWait (fun s => answerWrite (ivw a addr.toNat bytes s)) s)

/-- A line's busy entry. -/
def busyOf (s : State) (l : Nat) : Option Busy := tget none s.coh.busy l

/-- The busy entry is replaced, or the line is free. -/
def putBusy (l : Nat) (b : Option Busy) (s : State) : State :=
  { s with coh := { s.coh with busy := tset none s.coh.busy l b } }

/-- Does the ownership hold of PU n keep it from answering for a line (R222)? -/
def keepsHold (s : State) (n l : Nat) : Bool :=
  decide (n < 48) && (match l2Find (s.pu n) l with
    | some w => let x := l2Way (s.pu n) (l % 2048 * 16 + w); x.held && x.st != .s
    | none => false)

/-- Request class of a kind of request (Tables 7.1 and 8.6). -/
def reqClass : ReqKind → Nat
  | .rd => 0
  | _ => 1

/-- FWD (R219, R223, R228): the holder sends the data and keeps S for a read, or becomes I; its ACK frees the home. A
holder that no longer has the line answers with no data. -/
def execFwd (line : Nat) (s : State) : Host.Outcome State Fault Refusal :=
  .next (match busyOf s line with
    | none => s
    | some b =>
      match b.todo.findSome? (fun m => match m with | .fwd h => some h | _ => none) with
      | none => s
      | some h =>
        if keepsHold s h line then s
        else
          let rest := b.todo.filter (· != .fwd h)
          let req := requesterId b.req.acc (reqClass b.req.kind)
          let own := ownThread b.req.acc
          if !agentUp s h then putBusy line (some { b with todo := rest }) (fencedCopy h line s)
          else if (l2State (s.pu h) line).isNone then putBusy line (some { b with todo := rest }) (dirClear h line s)
          else
            let s := match b.req.kind with
              | .rd =>
                let s := conflicts line false none req own s
                let s := if heldM s h line then writeBack (s.puAcc h false) line s else s
                s.updPu h (l2Upd line (fun w => { w with st := .s }))
              | _ => endReservations line own (loseCopy h line true none req own s)
            settled (putBusy line (some { b with todo := rest.filter (· != .ack), viaFwd := true }) s))

/-- The holder of dirty COMMIT data is recalled for a request (R223): a read conflicts only with footprints that the line
was written in (R244). -/
def recallHolder (r : HomeReq) (h : Nat) (s : State) : State :=
  let own := ownThread r.acc
  match r.kind with
  | .rd =>
    let s := conflicts r.line false none (requesterId r.acc 0) own s
    if !agentUp s h then fencedCopy h r.line s
    else
      let s := if heldM s h r.line then writeBack (s.puAcc h false) r.line s else s
      dirClear h r.line (s.updPu h (l2Remove r.line))
  | k => endReservations r.line own (loseCopy h r.line false none (requesterId r.acc (reqClass k)) own s)

/-- RECALL (R219, R223): dirty data go to the home, for COMMIT to the controllers, and the holder becomes I. -/
def execRecall (line : Nat) (s : State) : Host.Outcome State Fault Refusal :=
  .next (match busyOf s line with
    | none => s
    | some b =>
      match b.todo.findSome? (fun m => match m with | .callBack h => some h | _ => none) with
      | none => s
      | some h =>
        if keepsHold s h line then s
        else
          let s := recallHolder b.req h s
          putBusy line (some { b with todo := b.todo.filter (· != .callBack h) }) s)

/-- INV (R219): the holder becomes I at once. -/
def execInv (line : Nat) (holder : Nat) (s : State) : Host.Outcome State Fault Refusal :=
  .next (match busyOf s line with
    | none => s
    | some b =>
      if !b.todo.contains (.inv holder) then s
      else
        let s := loseCopy holder line false none (requesterId b.req.acc 1) (ownThread b.req.acc) s
        endReservations line (ownThread b.req.acc) (putBusy line (some { b with todo := b.todo.filter (· != .inv holder) }) s))

/-- Is a message one that must come before the data? -/
def beforeData : Msg → Bool
  | .fwd _ => true
  | .callBack _ => true
  | .inv _ => true
  | _ => false

/-- The line of a request is installed at its requester in the state granted, unless it is not to allocate (R226): a copy
of its own side buffer moves into the L2 (R203), and the directory records ownership. False: every way that the fill could
take has a request in flight (R242). -/
def fillLine (b : Busy) (l : Nat) (st : CohState) (s : State) : Bool × State :=
  match agentOf b.req.acc with
  | none => (true, s)
  | some me =>
    if b.noAlloc || !agentUp s me then (true, s)
    else match l2Room me b.req.acc.th l s with
      | (false, s') =>
        if (s.thr me b.req.acc.th).tx.isSome && (s'.thr me b.req.acc.th).tx.isNone then (true, dirClear me l s') else (false, s')
      | (true, s) =>
        let s := (l2Install me l st (fillAge (s.pu me) l 0) s).updPu me (fun p => { p with side := p.side.filter (· != l) })
        match dirFind s l with
        | some w => (true, updDir (dirSet l * 16 + w) (fun d => { d with owned := st != .s }) s)
        | none => (true, s)

/-- DATA (R219, R223, R226): the line arrives with its granted state, once other copies have gone and COMMIT data are
acknowledged; a fill marked not to allocate only delivers. -/
def execData (line : Nat) (s : State) : Host.Outcome State Fault Refusal :=
  .next (match busyOf s line with
    | none => s
    | some b =>
      match b.todo.findSome? (fun m => match m with | .data own excl => some (own, excl) | _ => none) with
      | none => s
      | some (own, excl) =>
        if b.todo.any beforeData || s.coh.wbuf.contains line then s
        else
          let rest := b.todo.filter (· != .data own excl)
          match fillLine b line (if own then .m else if excl then .e else .s) s with
          | (false, s) => s
          | (true, s) =>
            let s := { s with resp := if s.poisoned line then .error else .dict 0 (s.rd (256 * line) 256) }
            settled (putBusy line (if rest.isEmpty then none else some { b with todo := rest }) s))

/-- ACK (R219, R221): the request's last message; an upgrade without data is granted M here. -/
def execAck (line : Nat) (s : State) : Host.Outcome State Fault Refusal :=
  .next (match busyOf s line with
    | none => s
    | some b =>
      if b.todo ≠ [.ack] then s
      else if b.req.kind = .upg then
        match fillLine b line .m s with
        | (false, s) => s
        | (true, s) => settled (putBusy line none s)
      else settled (putBusy line none s))

/-- FENCED_COMPLETION (R17): a posted write is recorded at its sender; any other request is answered FENCED. -/
def execFencedCompletion (b : Blk) (_a : Acc) (addr : BitVec 52) (posted : Bool) (s : State) :
    Host.Outcome State Fault Refusal :=
  .next (if posted then latch b 0 0 (addr.toNat / 256 % 2 ^ 32) 1 s else { s with resp := .fenced })

/-- OWNERSHIP_HOLD_EXPIRY (R222). -/
def execOwnershipHoldExpiry (pu : Fin 48) (line : Nat) (s : State) : Host.Outcome State Fault Refusal :=
  .next (s.updPu pu (l2Upd line (fun w => { w with held := false })))

/-- SET_RECALL (R210, Table 8.2). -/
def execSetRecall (q : Fin 4) (slice : Fin 12) (set : Nat) (s : State) : Host.Outcome State Fault Refusal :=
  .next (if set < 2560 then settled (recallTurn (2560 * (q.val * 12 + slice.val) + set) s).2 else s)

end Sys2Proof.Machine
end

