-- ==== Sys2Proof/Machine/Predict.lean ====
section
/-! DEFINITION. The branch predictors of PUs and channel engines, and branches from fetch to retire (R133 to R142). -/

namespace Sys2Proof.Machine

/-- Salt of the zone that owns PU n (R135); 0 where it serves none. -/
def puSalt (s : State) (n : Nat) : Nat :=
  match s.puZone n with
  | some z => (s.zone z.val).salt.toNat
  | none => 0

/-- Index of the address table (R134). -/
def atIndex (pc salt : Nat) : Nat := nbits 17 2 pc ^^^ salt

/-- Index of the history table. -/
def htIndex (pc gh salt : Nat) : Nat := nbits 15 2 pc ^^^ gh ^^^ nbits 13 0 salt

/-- Index of the chooser. -/
def chIndex (pc salt : Nat) : Nat := nbits 13 2 pc ^^^ nbits 15 4 salt

/-- Set of the target buffer. -/
def tbSet (pc salt : Nat) : Nat := nbits 12 2 pc ^^^ nbits 10 0 salt

/-- A two-bit counter one step towards an outcome. -/
def countTo (up : Bool) (c : BitVec 2) : BitVec 2 :=
  if up then (if c = 3 then 3 else c + 1) else (if c = 0 then 0 else c - 1)

/-- A two-bit counter of a table; 1 after island power-up (R139). -/
def counter (t : Tbl (BitVec 2)) (i : Nat) : BitVec 2 := tget 1 t i

/-- What a retiring conditional branch does to the counters and the chooser (R136). -/
def trainCond (pc gh salt : Nat) (taken : Bool) (p : Pu) : Pu :=
  let a := atIndex pc salt
  let h := htIndex pc gh salt
  let c := chIndex pc salt
  let pa := decide (2 ≤ (counter p.addrTab a).toNat)
  let ph := decide (2 ≤ (counter p.histTab h).toNat)
  { p with
    addrTab := tupd 1 p.addrTab a (countTo taken)
    histTab := tupd 1 p.histTab h (countTo taken)
    chooser := if pa == ph then p.chooser else tupd 1 p.chooser c (countTo (ph == taken)) }

/-- A taken branch that missed in the target buffer, or found a wrong target, writes its entry over the oldest way of
its set (R136). -/
def trainTarget (pc salt : Nat) (target : Word) (kind : Nat) (p : Pu) : Pu :=
  let i := tbSet pc salt
  let tag := BitVec.ofNat 12 (nbits 24 13 pc)
  let ways := tget [] p.targets i
  if ((ways.reverse.find? (fun e => e.tag == tag)).map (·.target)) == some target then p
  else
    let rest := if ways.length < 6 then ways else ways.drop 1
    { p with targets := tset [] p.targets i (rest ++ [{ tag := tag, target := target, kind := kind }]) }

/-- A channel engine's counter of a branch (R142). -/
def ceIndex (pc : Nat) : Nat := nbits 11 2 pc

/-- What a branch does to a channel engine's counters and target buffer when it resolves (R142). The buffer's 256 entries
are one to an index, pc[9:2], under the tag pc[21:10] (DESIGN CHOICE, assumption 74: the spec gives their number alone). -/
def trainCe (pc : Nat) (cond taken : Bool) (target : Word) (kind : Nat) (p : Pu) : Pu :=
  let p := if cond then { p with addrTab := tupd 1 p.addrTab (ceIndex pc) (countTo taken) } else p
  if taken then
    { p with targets := tset [] p.targets (nbits 9 2 pc) [{ tag := BitVec.ofNat 12 (nbits 21 10 pc), target := target, kind := kind }] }
  else p

/-- A push onto a return stack, of 32 entries in a PU (R137) and of 8 in a channel engine (R142): a full one loses its
oldest entry. -/
def pushRas (depth : Nat) (v : Word) (l : List Word) : List Word := (if l.length < depth then l else l.drop 1) ++ [v]

/-- Direction predicted for a branch of core n (R134, R142): an unconditional one is taken; of a PU's two tables the chooser
selects one. -/
def predictTaken (s : State) (n : Nat) (pc gh : Nat) (cond : Bool) : Bool :=
  let p := s.pu n
  let salt := puSalt s n
  let c := if 48 ≤ n then counter p.addrTab (ceIndex pc)
    else if 2 ≤ (counter p.chooser (chIndex pc salt)).toNat then counter p.histTab (htIndex pc gh salt)
    else counter p.addrTab (atIndex pc salt)
  !cond || decide (2 ≤ c.toNat)

/-- What a branch does besides its target: kinds of the target buffer (R133), and the return stack (R137). -/
inductive BrKind where
  | plain | register | call (ret : Word) | ret
deriving DecidableEq, Repr

/-- Target-buffer kind: 0 conditional, 1 unconditional, 2 register branch, 3 call. -/
def BrKind.code (conditional : Bool) : BrKind → Nat
  | .plain => if conditional then 0 else 1
  | .register => if conditional then 0 else 2
  | .call _ => if conditional then 0 else 3
  | .ret => if conditional then 0 else 2

/-- What a prediction does at once (R134, R137): the history of the thread shifts in the predicted direction of a
conditional branch, and a branch predicted taken pushes or pops the return stack. What a misprediction, an exception or a
retry restores is the state before the branches younger than the one that retires (R138), of which none has begun. -/
def speculate (n : Nat) (cond pred : Bool) (k : BrKind) (t : Thread) : Thread :=
  { t with
    gh := if cond then (t.gh <<< 1) ||| BitVec.ofNat 14 pred.toNat else t.gh
    ras := if !pred then t.ras else match k with
      | .call r => pushRas (if 48 ≤ n then 8 else 32) r t.ras
      | .ret => t.ras.dropLast
      | .plain => t.ras
      | .register => t.ras }

/-- The predictor after a branch at pc has been predicted and has retired: counters, chooser and target buffer change at
retire (R136), history and return stack at prediction. -/
def trainBranch (h : Hdr) (pc : Word) (taken : Bool) (target : Word) (k : BrKind) (s : State) : State :=
  let n := h.pu.val
  let salt := puSalt s n
  let gh := (s.thr n h.th).gh.toNat
  let cond := h.cond != 0
  let pred := predictTaken s n pc.toNat gh cond
  let learn := fun (p : Pu) =>
    if 48 ≤ n then trainCe pc.toNat cond taken target (k.code cond) p
    else
      let p := if cond then trainCond pc.toNat gh salt taken p else p
      if taken then trainTarget pc.toNat salt target (k.code cond) p else p
  (s.updPu n learn).updThr n h.th (speculate n cond pred k)

/-- A branch instruction: its effect, where its condition is true, sets the next address; a false condition is a
branch not taken. -/
def runBranch (h : Hdr) (enc : Word) (long : Bool) (micro : Option Nat) (dec : Dec) (kind : Word → BrKind)
    (body : State → Res) (s : State) : State :=
  let n := h.pu.val
  let len := if long then 8 else 4
  let pc := (s.thr n h.th).arch.pc
  match front h enc long micro false dec s with
  | .stop s => s
  | .skip s => retire n h.th (advance n h.th len (trainBranch h pc false 0 (kind pc) s))
  | .go s =>
    match body s with
    | .wait s => s
    | .exc e s => endExc n h.th enc long e s
    | .done s => retire n h.th (trainBranch h pc true (s.thr n h.th).arch.pc (kind pc) s)

end Sys2Proof.Machine
end

