-- ==== Sys2Proof/Machine/Modes.lean ====
section
/-! DEFINITION. Operating modes and their transitions, power and start-up (chapter 2, R21, R333, R472, R509, R533). -/

namespace Sys2Proof.Machine

/-- Quadrant q has a good cold PU spare. -/
def quadrantSpare (s : State) (q : Nat) : Bool :=
  (List.range 12).any (fun i => s.spc.spareSet.getLsbD (12 * q + i) && s.spc.goodPu.getLsbD (12 * q + i))

/-- Pair p has a good cold CE spare. -/
def pairSpare (s : State) (p : Nat) : Bool :=
  (pairEngines p).any (fun n => s.spc.goodCe.getLsbD n && (s.ce n).le.toNat == 0x3F)

/-- A condition of Table 2.4 holds. -/
def degradedNow (s : State) : Bool :=
  !(List.range 4).all (quadrantSpare s) || !(List.range 4).all (pairSpare s) ||
  (List.range 4).any (fun g => (s.grp g).failed.isSome || (s.grp g).lost) ||
  s.mgmt.standbyBad || s.mgmt.active || (s.pins.refA != s.pins.refB) ||
  decide (s.plant.budget < s.commit.size.toNat)

/-- M3 and M4 follow Table 2.4 (causes 0x07 and 0x08). -/
def checkDegraded (s : State) : State :=
  if s.inMode [.run] && degradedNow s then setMode .degraded 0x07 s
  else if s.inMode [.degraded] && !degradedNow s then setMode .run 0x08 s
  else s

/-- Rearm of one output (R472): it opens a closed gate where every condition holds, else REJ is set; no effect on an
open gate. -/
def rearmOne (g : Nat) (s : State) : State :=
  if s.outs.gate.getLsbD g then s
  else
    let clean := allBlks.all (fun b =>
      if aliveGroup s b == some g then
        let f := s.flt b
        !(f.valid && decide (2 ≤ f.cls)) && !(f.ovf && decide (2 ≤ f.maxCls))
      else true)
    let ok := decide (msUnits 20 + (tget 0 s.outs.closedAt g).toNat ≤ s.now) && modeToggles s g && clean && corePresent s g
    if ok then { s with outs := { s.outs with gate := s.outs.gate ||| BitVec.twoPow 20 g } }
    else { s with outs := { s.outs with rej := s.outs.rej ||| BitVec.twoPow 20 g } }

/-- A write of REARM. -/
def rearm (mask : BitVec 20) (s : State) : State :=
  (List.range 20).foldl (fun s g => if mask.getLsbD g then rearmOne g s else s) s

/-- Zones that the start mask names below Zc (R50). -/
def maskZones (s : State) : List Nat :=
  allBelow 16 (fun z => decide (z < s.zc) && (BitVec.ofNat 16 (s.entry 0x2004 3 1)).getLsbD z)

/-- ENABLE to zones in rising order. -/
def enableZones (l : List Nat) (s : State) : State :=
  l.foldl (fun s z => lcCommand (.zone (Fin.ofNat 16 z)) .enable 5 s) s

/-- Zones of the start mask: Z0 first, the others once Z0 is ON or has failed its start (R46). -/
def startMaskZones (s : State) : State :=
  let l := maskZones s
  if l.contains 0 then
    let s := lcCommand (.zone 0) .enable 5 s
    let rest := l.filter (· != 0)
    if s.lcs (.zone 0) = .starting then { s with md := { s.md with zonesDue := rest } } else enableZones rest s
  else enableZones l s

/-- Zones that wait for Z0 receive ENABLE once it is ON or has failed (R46). -/
def zonesAfterZ0 (s : State) : State :=
  if s.md.zonesDue.isEmpty then s
  else if s.lcs (.zone 0) = .starting then s
  else
    let l := s.md.zonesDue
    enableZones l { s with md := { s.md with zonesDue := [] } }

/-- The epoch of the unit-0 header counts every entry to M3 or M4 from M1 or M2, and is durable (R350): its block is
granted, after the open record (R326). -/
def bumpEpoch (s : State) : State :=
  let e := beAt (s.rd 0x30A0000 2) 0 2
  let s := if s.commit.openDone || !flashUsable s then s else writeOpenRec s
  { (giveGrant (0x30A0000 / 262144) s).wrThrough 0x30A0000 (toBe 2 (e + 1)) with chan := { s.chan with applied := false } }

/-- Entry to M3, or M4 where a condition of Table 2.4 holds (R31), with the rearm of R472 from M1, M2 or M6. -/
def enterRun (cause : Nat) (s : State) : State :=
  let rearms := s.inMode [.provision, .restore, .quiesced]
  let s := if s.inMode [.provision, .restore] then bumpEpoch s else s
  let s := setMode (if degradedNow s then .degraded else .run) cause s
  let s := openRegion { s with md := { s.md with m6FromM2 := s.md.m6FromM2 && cause == 0x0D } }
  if rearms then rearm 0x7FFFF s else s

/-- Entry to M6 (R46): DISABLE to every zone, those that were ON noted. -/
def enterQuiesced (cause : Nat) (fromM2 : Bool) (s : State) : State :=
  let on := allBelow 16 (fun z => s.lcs (.zone (Fin.ofNat 16 z)) == .on || s.lcs (.zone (Fin.ofNat 16 z)) == .starting)
  let s := setMode .quiesced cause s
  let s := { s with md := { s.md with m6FromM2 := fromM2, m6Zones := on, zonesDue := [] } }
  (List.finRange 16).foldl (fun s z => lcCommand (.zone z) .disable 5 s) s

/-- Every register of the main domain and every function is reset: main power-up, and nothing of it holds without the
rails (R45, R459, R513, R541). The role record of R284 and what lies in flash or fuses stays. -/
def mainReset (s : State) : State :=
  let vauxTabs := s.tabs.filter (fun e => e.1 == 0x101 || e.1 == 0x104 || e.1 == 0x102 || e.1 == 0x110)
  { s with
    lc := [], faults := [], chk := {}, tabs := vauxTabs, pus := [], coh := {}, mem := [], dram := [], poison := []
    islands := s.islands.filter (fun e => decide (0x100 ≤ e.1))
    mcs := [], groups := [], zones := [], segAdd := 0, zrstLost := 0
    ces := s.ces.map (fun (e : Nat × Ce) => (e.1, { le := e.2.le }))
    les := [], chan := { refused := s.chan.refused, discarded := s.chan.discarded, redriven := s.chan.redriven,
                         dups := s.chan.dups, unwritten := s.chan.unwritten, waited := s.chan.waited,
                         lostCompl := s.chan.lostCompl }
    links := [], cslices := [], dslices := []
    commit := { log := s.commit.log, gen := s.commit.gen, named := s.commit.named, chanFail := s.commit.chanFail }
    spc := { spareSet := s.spc.spareSet, failedSet := s.spc.failedSet, goodPu := s.spc.goodPu, goodCe := s.spc.goodCe,
             failedCe := s.spc.failedCe, recorded := s.spc.recorded }
    crypto := { savedKeys := s.crypto.savedKeys, savedDrain := s.crypto.savedDrain, ctxs := s.crypto.ctxs } }

/-- The valve stands at its idle position (R504, Table 20.5). -/
def idleValve (s : State) : State := { s with plant := { s.plant with u := (s.entry 0x3000 5 2000 : Nat) / 100 } }

/-- Intervals out of lock-step end with the power of the main domain (R286, R481). -/
def endIntervals (s : State) : State :=
  (List.range 48).foldl (fun (s : State) n => if (s.pu n).unchecked then lockstepWait (s.pu n).uncheckedAt s else s) s

/-- RAIL_EN7 to RAIL_EN1 fall; RAIL_EN0 stays (R509, R534). -/
def railsOff (s : State) : State :=
  let s := idleValve (mainReset (endIntervals s))
  { s with pins := { s.pins with railEn := 1, railsOn := false, mainPg := false, seqBusy := false },
           plant := { s.plant with vcore := [], vcoreDue := [] }
           mgmt := { s.mgmt with imgHeld := false, imgId := 0, imgVer := 0, ceFwHeld := false } }

/-- The rail-enable sequence starts (R509, Table 20.6): RAIL_EN1 to RAIL_EN7 rise; with PFW_N asserted the attempt ends
at once (R535). -/
def startRails (s : State) : State :=
  if s.pins.seqBusy || s.pins.railsOn then s
  else if s.pins.pfwCounted then cancelRequest (s.setEntry 0x3030 1 1)
  else { s with pins := { s.pins with railEn := 0xFF, seqBusy := true } }

/-- In M0 the rails start at once under auto start, or for a mode request 1 or 3 that waits (R50, Table 2.2); a waiting
request of another kind is refused (R30). -/
def leaveCold (s : State) : State :=
  let keep := s.md.requests.filter (fun r => r.code == 1 || r.code == 3)
  let gone := s.md.requests.filter (fun r => r.code != 1 && r.code != 3)
  let s := gone.foldl (fun s r => answerWaited r 0x08000022 s) { s with md := { s.md with requests := keep } }
  if !keep.isEmpty || s.entry 0x2004 1 1 == 1 then startRails s else s

/-- Entry to M0 with a cause: the rails off, the levels of R476, and the next start-up unless M7 calls for 1 s of rest
first (R35). -/
def enterCold (cause : Nat) (s : State) : State :=
  let fromM7 := s.inMode [.holdup]
  let fromM8 := s.inMode [.checkstop]
  let s := setMode .cold cause (railsOff (debugOff s))
  let s := if fromM7 then { s with outs := { s.outs with holdLvl := true } } else s
  let s := if fromM8 then { s with outs := { s.outs with chkLvl := true } } else s
  let s := { s with md := { s.md with
      provisioned := false, initDone := false, restored := none, held := false, zonesDue := [],
      unchecked := 0, dbgPort := false, leaving := none } }
  if fromM7 then { s with md := { s.md with awaitRepower := true } } else leaveCold s

/-- Islands that main power-up switches on: all of the main domain but the PU and CE positions, whose functions are OFF. -/
def mainIslandsUp (s : State) : State :=
  let up := fun (s : State) (i : Island) => s.updIsland i (fun x => { x with power := true })
  let l := (List.finRange 4).map Island.home ++ [.fab] ++ (List.finRange 20).map Island.mc ++ [.drain, .flash] ++
    (List.finRange 8).map Island.lg ++ [.crypto, .comp, .zm]
  l.foldl up s

/-- Entry to M1 (cause 0x02): the main domain is reset, the VAUX tables lose their locks (R9), stored dictionary writes
are in flash (R495), and the mode requests that asked for it end with success. -/
def enterProvision (s : State) : State :=
  let asked := s.md.requests
  let s := mainReset s
  let s := { s with
    tabs := s.tabs.map (fun (e : Nat × AccTab) => (e.1, { e.2 with lock := false }))
    pins := { s.pins with railsOn := true, mainPg := true, seqBusy := false }
    mgmt := { s.mgmt with stored := storable s.mgmt.dict, k1Last := none }
    dimms := { s.dimms with bin := Nat.max s.dimms.best (s.entry 0x7001 0 0) }
    md := { s.md with provisioned := false, initDone := false, restored := none, held := false,
                      requests := [], awaitRepower := false } }
  let s := setMode .provision 0x02 (mainIslandsUp (s.setEntry 0x3030 1 0))
  asked.foldl (fun s r => answerWaited r 0 s) s

/-- An arm is cancelled (R46): the function goes on stopping. -/
def cancelArm (f : Fn) (s : State) : State :=
  if s.lcs f = .stoppingArmed then lcGo f .stopping 5 s else s

/-- Entry to M7 (R46, R333): the pulse on HOLDUP_N, transactions abort, DISABLE to every function but the commit
region and the ranks, and every arm is cancelled. -/
def enterHoldup (s : State) : State :=
  let s := debugOff (cancelRequest s)
  let s := setMode .holdup 0x10 s
  let s := { s with outs := { s.outs with holdPulse := true, holdLvl := false }, md := { s.md with zonesDue := [] } }
  let s := s.threads.foldl (fun (s : State) (e : Nat × Bool) => dropTx e.1 e.2 s) s
  let fs := (List.finRange 16).map Fn.zone ++ (List.finRange 48).map Fn.pu ++ (List.finRange 36).map Fn.ce ++
    (List.finRange 16).map Fn.cslice ++ (List.finRange 16).map Fn.dslice ++
    (s.lc.filterMap (fun e => if h : 0x200 ≤ e.1 ∧ e.1 < 0x400 then some (Fn.link ⟨e.1 - 0x200, by omega⟩) else none))
  let s := fs.foldl (fun s f => modeDisable f s) s
  let s := (Fn.commit :: (List.finRange 20).flatMap (fun m => (List.finRange 4).map (Fn.rank m))).foldl
    (fun s f => cancelArm f s) s
  grantAll { s with commit := { s.commit with phase := if s.commit.frozenMap.isSome then s.commit.phase else 1 } }

/-- The modes that a power failure takes to M7 (cause 0x10). -/
def holdupModes : List Mode := [.run, .degraded, .service, .quiesced]

/-- Power fails: M7 from M3 to M6, M0 from M1 and M2 (causes 0x10 and 0x0F); during the rail sequence the attempt ends
(R535). -/
def powerFails (s : State) : State :=
  if s.inMode holdupModes then enterHoldup s
  else if s.inMode [.provision, .restore] then enterCold 0x0F (cancelRequest s)
  else if s.inMode [.cold] && s.pins.seqBusy then
    let s := { s with pins := { s.pins with railEn := 1, seqBusy := false } }
    cancelRequest (s.setEntry 0x3030 1 1)
  else s

/-- Service software writes the region's size from 0x310B:00 while the region is OFF (R322). -/
def writeSize (s : State) : State :=
  let v := s.entry 0x310B 0 1
  if s.lcs .commit = .off ∧ 1 ≤ v ∧ v ≤ s.lim.maxCommit then
    { s with commit := { s.commit with size := BitVec.ofNat 7 v } }
  else s

/-- The size is written and the region receives ENABLE (R322). -/
def enableCommit (s : State) : State :=
  if s.lcs .commit = .off then lcCommand .commit .enable 5 (writeSize s) else s

/-- Is EXTEST or CLAMP in force: in M1, with service permitted (R537)? -/
def tapHolds (s : State) : Bool :=
  (s.tap == .extest || s.tap == .clamp) && s.inMode [.provision] && s.entry 0x2030 0 0 == 1

/-- Is M1 kept from advancing: unverified control store, differing DIMMs, a lost group, or EXTEST or CLAMP in force
(R129, R294, R302, R537)? -/
def m1Blocked (s : State) : Bool :=
  !s.mgmt.imgHeld || !s.dimms.same || (List.range 4).any (fun g => (s.grp g).lost) || tapHolds s

/-- M1 ends under cause 0x03 or 0x04 once its conditions hold (Table 2.2); go: mode request 3 has released provision
hold, which is read at each use (R50). The region starts after the reload (DEDUCED, assumption 18). -/
def leaveProvision (go : Bool) (s : State) : State :=
  let go := go || s.md.held
  if !s.inMode [.provision] || !s.md.provisioned || m1Blocked s then s
  else if s.entry 0x2004 2 0 = 1 ∧ !go then s
  else if logHasImage s.commit.log then
    writeSize (setMode .restore 0x03 { s with md := { s.md with held := false }, commit := { s.commit with phase := 4, done := 0 } })
  else if s.md.initDone then
    let s := enableCommit s
    let s := enterRun 0x04 { s with md := { s.md with restored := some 0, lastRestore := 0, held := false } }
    startMaskZones s
  else { s with md := { s.md with held := go } }

/-- M2 ends once Restore and the initialisation have (causes 0x05 and 0x06). -/
def leaveRestore (s : State) : State :=
  if !s.inMode [.restore] || !s.md.initDone then s
  else match s.md.restored with
    | none => s
    | some 1 => startMaskZones (enterRun 0x05 s)
    | some _ => enterQuiesced 0x06 true s

/-- A mode request is refused (R30). -/
def refuseRequest (i : Option K3Item) (s : State) : State := answerMode i 0x08000022 s

/-- A mode request is accepted. -/
def acceptRequest (i : Option K3Item) (s : State) : State := answerMode i 0 s

/-- Service ends towards its target (R54): the debug port off, halts released; the target is entered once no PU is
unchecked. -/
def finishService (s : State) : State :=
  match s.md.leaving with
  | none => s
  | some target =>
    if s.md.unchecked ≠ 0 || !s.inMode [.service] then s
    else
      let s := { s with md := { s.md with leaving := none } }
      if target = 3 then enterRun 0x0A s
      else (setMode .quiesced 0x0B s)

/-- M5 starts to end (R54). -/
def leaveService (target : Nat) (s : State) : State :=
  let s := debugOff s
  let s := { s with pus := s.pus.map (fun (e : Nat × Pu) =>
    (e.1, { e.2 with t0 := { e.2.t0 with halted := false }, t1 := { e.2.t1 with halted := false } })) }
  finishService { s with md := { s.md with leaving := some target } }

/-- An orderly power-down starts (cause 0x0E): the drain on main power (R342). -/
def orderlyStart (s : State) : State :=
  let s := drainStart s
  { s with md := { s.md with leaving := some 0 } }

/-- Every state of the VAUX domain is lost with it (R533); flash, fuses and what the DIMMs are stay. That VAUX was removed
in M8 is remembered: its return is a trigger of cause 0x13 (Table 2.2). -/
def vauxReset (s : State) : State :=
  { ({} : State) with
    free := s.free, pending := s.pending, dimms := s.dimms, lim := s.lim
    commit := { log := s.commit.log, gen := s.commit.gen, named := s.commit.named, chanFail := s.commit.chanFail }
    md := { lastIndex := s.md.lastIndex, fromM8 := s.inMode [.checkstop] || (s.md.fromM8 && s.md.mode.isNone) }
    mgmt := { dict := s.mgmt.stored, stored := s.mgmt.stored, failovers := s.mgmt.failovers, active := s.mgmt.active,
              slotBVer := s.mgmt.slotBVer }
    crypto := { savedKeys := s.crypto.savedKeys, savedDrain := s.crypto.savedDrain, ctxs := s.crypto.ctxs }
    spc := { spareSet := s.spc.spareSet, failedSet := s.spc.failedSet, failedCe := s.spc.failedCe, recorded := s.spc.recorded }
    ces := s.ces.map (fun (e : Nat × Ce) => (e.1, { le := e.2.le }))
    encke := { written := s.encke.written, next := s.encke.next, chkSlots := s.encke.chkSlots,
               chkSeq := s.encke.chkSeq, cycles := s.encke.cycles + 1, opSecs := s.encke.opSecs, gapNext := true
               acc := { len := (tget none s.mgmt.stored 0x500000).getD 3600
                        startOp := BitVec.ofNat 64 (2 ^ 32 * (s.encke.cycles + 1) + s.encke.opSecs) } }
    plant := { capC := s.plant.capC, health := s.plant.health }
    chan := {} }

end Sys2Proof.Machine
end

