-- ==== Sys2Proof/Machine/Dram.lean ====
section
/-! DEFINITION. The memory controllers (chapter 11): device locations, requests, errors, training, scrub and rebuild. -/

namespace Sys2Proof.Machine

/-- Device location of a line within its channel (Table 11.2). -/
structure DevLoc where
  sc   : Nat
  bank : Nat
  row  : Nat
  rank : Nat
deriving DecidableEq, Repr

/-- Table 11.2: bank holds bank group × 4 + bank. -/
def devLoc (d : Dimms) (li : Nat) : DevLoc :=
  let bgRaw := li / 8 % 8
  let rest := li / 64 / 2 ^ (d.c - 2)
  let bankRaw := rest % 4
  let row := rest / 4 % 2 ^ d.r
  { sc := li % 2
    bank := (bgRaw ^^^ row % 8) * 4 + (bankRaw ^^^ row / 8 % 4)
    row := row
    rank := rest / 4 / 2 ^ d.r % 2 ^ d.k }

/-- Number of a bank of a channel, over its ranks and subchannels. -/
def DevLoc.key (l : DevLoc) : Nat := l.rank * 64 + l.sc * 32 + l.bank

/-- Port of a master's requests (Table 11.3). -/
def qosPort (m : Nat) : Nat :=
  if m < 48 then m / 12
  else if 64 ≤ m ∧ m < 100 then 4
  else if m = 0x70 ∨ m = 0x71 then 5
  else if m = 0x72 then 6
  else 7

/-- Latency target after reset (Table 11.4). -/
def tgtReset (p : Nat) : Nat := if p < 4 then 400 else if p = 4 then 600 else if p = 5 then 1000 else if p = 6 then 250 else 20000

/-- TGT of port p. -/
def qosTgt (c : Mc) (p : Nat) : Nat :=
  match tget none c.tgt p with
  | some v => v.toNat
  | none => tgtReset p

/-- Controller i of group g. -/
def groupMc (g : Nat) (i : Nat) : Fin 20 := Fin.ofNat 20 (5 * g + i)

/-- Usable channels of a group: all but the fenced one. -/
def liveChannels (s : State) (g : Nat) : List Nat := (List.range 5).filter (fun i => (s.grp g).failed != some i)

/-- One event in ECC_LOG and ECC_CNT (R318); the device position is a free value (assumption 3). -/
def eccLog (m : Fin 20) (kind : Nat) (l : Nat) (master : Nat) (s : State) : State :=
  let li := lineLI l
  let r := lineRank s l
  let (dev, s) := s.draw 5
  s.updMc m (fun c => { c with
    log := if bit 63 c.log then c.log
      else mkw [(63, 1), (60, kind), (58, r), (57, li % 2), (52, dev.toNat), (40, master), (0, li % 2 ^ 32)]
    cnt := if kind ≤ 1 then tupd 0 c.cnt r (satAdd 0xFFFF 1) else c.cnt })

/-- A request wakes its rank in every channel of the group: power-down and self-refresh end, and delays that wait for
the exit from self-refresh apply (R309, R312). -/
def wakeRank (g r : Nat) (s : State) : State :=
  (List.range 5).foldl (fun (s : State) i => s.updMc (groupMc g i) (fun c =>
    let p := tget RankPower.up c.power r
    let c := if p = .selfRefresh then applyDelays r c else c
    { c with power := tset RankPower.up c.power r .up })) s

/-- Channels whose stripes a write of the group reaches: all that work, and one that is being rebuilt, so that what a
rebuild has written stays as new as the line (DEDUCED, assumption 15). -/
def writeChannels (s : State) (g : Nat) : List Nat :=
  if (s.grp g).rebuild.isSome then List.range 5 else liveChannels s g

/-- Requests for a line join the queues of the controllers that hold its stripes (R297, R305). -/
def queueLine (l : Nat) (write : Bool) (master : Nat) (s : State) : State :=
  let g := (lineGroup l).val
  (if write then writeChannels s g else liveChannels s g).foldl (fun (s : State) i =>
    s.updMc (groupMc g i) (fun c => { c with queue := c.queue ++ [{ line := l, write := write, port := qosPort master }] }))
    (wakeRank g (lineRank s l) s)

/-- A line's content is lost: it is written poisoned (R300, R317), as class C3 of the zone that maps it. -/
def eccLost (m : Fin 20) (l : Nat) (master : Nat) (s : State) : State :=
  let s := eccLog m 2 l master (s.addPoison l)
  raiseZone (.mc m) 10 0 0 (zoneOfLine s l) s

/-- Does a line wait in a write queue, from which a read is served (R297)? -/
def inWriteQueue (s : State) (l : Nat) : Bool :=
  (liveChannels s (lineGroup l).val).any (fun i =>
    (s.mc (groupMc (lineGroup l).val i)).queue.any (fun q => q.write && q.line == l))

/-- What a read of a line finds in the stripes it fetches (Table 11.10): corrections, one reconstruction, or loss; what was
found wrong is written back on the MG port, and a channel that a promoted fault fences degrades the module (R30, R463). -/
def readStripes (l : Nat) (master : Nat) (st : List Stripe) (all : Bool) (s : State) : State :=
  let g := (lineGroup l).val
  let live := liveChannels s g
  let at_ := fun (i : Nat) => st.getD i .good
  let down := decide (live.length < 5) && (s.grp g).failed != some 4
  let dataBad := live.filter (fun i => i < 4 && at_ i == .bad)
  let needRed := all || down || !dataBad.isEmpty
  let fetched := live.filter (fun i => i < 4 || needRed)
  let s := fetched.foldl (fun (s : State) i =>
    if at_ i == .corrected then
      eccLog (groupMc g i) 0 l master (latchP (.rank (groupMc g i) (Fin.ofNat 4 (lineRank s l))) 8 (lineRank s l) (lineLI l % 2 ^ 32) s)
    else s) s
  let bad := fetched.filter (fun i => at_ i == .bad)
  let missing := bad.length + (5 - live.length)
  let s := match bad with
    | [] => s
    | b :: _ =>
      let m := groupMc g b
      if missing ≤ 1 then eccLog m 1 l master (latch (.mc m) 9 0 0 1 s) else eccLost m l master s
  let s := if bad.isEmpty && fetched.all (fun i => at_ i != .corrected) then s else queueLine l true 0x73 s
  checkDegraded s

/-- MC_READ_REQUEST (R297, R298, R303, R317). -/
def execMcReadRequest (a : Acc) (line : Nat) (stripes : List Stripe) (s : State) : Host.Outcome State Fault Refusal :=
  .next (if !isDram s line then { s with resp := .error }
    else if !lineAnswers s line then { s with resp := .fenced }
    else
      let m := a.master.toNat
      let s := if inWriteQueue s line then s else readStripes line m stripes false (queueLine line false m s)
      { s with resp := if s.poisoned line then .error
          else .dict 0 ((List.range 256).map (fun i => tget 0 s.dram (256 * line + i))) })

/-- A line reaches the memory controllers; it is what a load returns unless a cache holds a newer one. -/
def putDram (line : Nat) (bytes : List Byte) (dirty : Bool) (s : State) : State :=
  let d := memPut s.dram (256 * line) (fit 256 bytes)
  { s with dram := d, mem := if dirty then s.mem else copyLine d s.mem line }

/-- Have the write queues of the line's controllers room for a stripe (R319)? -/
def queueRoom (s : State) (l : Nat) : Bool :=
  let g := (lineGroup l).val
  (writeChannels s g).all (fun i => decide (((s.mc (groupMc g i)).queue.filter (fun q => q.write)).length < 256))

/-- MC_WRITE_REQUEST (R297, R317, R319): a full line reaches the write queues, once they have room; after three failed commands the rank is
fenced. The controller that meets the errors is the first of the group that works (DESIGN CHOICE, assumption 15). -/
def execMcWriteRequest (a : Acc) (line : Nat) (bytes : List Byte) (retries : Nat) (s : State) :
    Host.Outcome State Fault Refusal :=
  .next (if !isDram s line then { s with resp := .error }
    else if !lineAnswers s line then { s with resp := .fenced }
    else if !queueRoom s line then s
    else
      let g := (lineGroup line).val
      let dirty := l3Dirty s line || (List.range 84).any (fun n => heldM s n line)
      let s := putDram line bytes dirty s
      let s := { (queueLine line true a.master.toNat (s.clearPoison line)) with resp := .ok 0 }
      match liveChannels s g with
      | [] => s
      | i :: _ =>
        let m := groupMc g i
        let s := (List.range (Nat.min retries 3)).foldl (fun (s : State) _ =>
          eccLog m 4 line a.master.toNat (latch (.mc m) 11 0 0 1 s)) s
        if retries < 3 then s else checkDegraded (fenceFn (.rank m (Fin.ofNat 4 (lineRank s line))) 3 s))

/-- REFRESH_DUE: an all-bank refresh closes the rank's rows, and delays that wait for it apply (R307, R312). -/
def execRefreshDue (mc : Fin 20) (rank : Fin 4) (s : State) : Host.Outcome State Fault Refusal :=
  .next (if s.lcs (.rank mc rank) = .on ∧ tget RankPower.up (s.mc mc).power rank ≠ .selfRefresh then
      s.updMc mc (fun c => { applyDelays rank c with
        openRow := c.openRow.filter (fun e => e.1 / 64 != rank.val) })
    else s)

/-- Has the controller no request queued for a rank? -/
def rankIdle (s : State) (mc : Fin 20) (r : Nat) : Bool := (s.mc mc).queue.all (fun q => lineRank s q.line != r)

/-- POWER_DOWN_ENTRY (R309): a PD_IDLE of 0 disables it. -/
def execPowerDownEntry (mc : Fin 20) (rank : Fin 4) (s : State) : Host.Outcome State Fault Refusal :=
  .next (if (s.mc mc).pdIdle ≠ 0 ∧ rankIdle s mc rank ∧ tget RankPower.up (s.mc mc).power rank = .up
      ∧ s.lcs (.rank mc rank) = .on then
      s.updMc mc (fun c => { c with
        power := tset RankPower.up c.power rank .powerDown, openRow := c.openRow.filter (fun e => e.1 / 64 != rank.val) })
    else s)

/-- URGENCY_STEP (R306, R308): a queued request reaches a higher urgency; level 3 is counted for its port. -/
def execUrgencyStep (mc : Fin 20) (i : Nat) (level : Fin 4) (s : State) : Host.Outcome State Fault Refusal :=
  .next (s.updMc mc (fun c =>
    match c.queue[i]? with
    | none => c
    | some q =>
      if level.val ≤ q.urgency then c
      else { c with
        queue := c.queue.set i { q with urgency := level.val }
        l3cnt := if level.val = 3 then tupd 0 c.l3cnt q.port (satAdd 0xFFFFFFFF 1) else c.l3cnt }))

/-- An ACTIVATE opens a row; the draw of R310 marks its neighbours. With the entropy source at fault the controller
draws from its LFSR, whose sequence is left open: a free value too (R311). -/
def activate (mc : Fin 20) (loc : DevLoc) (s : State) : State :=
  let bad := !s.crypto.entropy
  let c := s.mc mc
  let s := if bad && !c.lfsrOn then latch (.mc mc) 15 0 0 1 s else s
  let (v, s) := s.draw 16
  let (w, s) := if bad then s.draw 32 else (c.lfsr, s)
  let hit := decide (v.toNat % 2 ^ c.k.toNat = 0)
  let rows := (if c.radius2 then [-2, -1, 1, 2] else [-1, 1]).filterMap (fun (d : Int) =>
    let r := (loc.row : Int) + d
    if 0 ≤ r ∧ r < 2 ^ s.dimms.r then some (loc.rank, loc.sc * 32 + loc.bank, r.toNat) else none)
  s.updMc mc (fun c => { c with
    openRow := tset none c.openRow loc.key (some loc.row), lfsrOn := bad, lfsr := w
    trDue := if hit then c.trDue ++ rows else c.trDue })

/-- A targeted refresh of a marked row (R310, Table 11.7): an ACTIVATE, with its own draw, and a PRECHARGE, which leaves the
bank closed. -/
def targetedRefresh (mc : Fin 20) (e : Nat × Nat × Nat) (s : State) : State :=
  let s := s.updMc mc (fun c => { c with trDue := c.trDue.erase e, trCnt := satAdd 0xFFFFFFFF c.trCnt 1 })
  let loc : DevLoc := { sc := e.2.1 / 32, bank := e.2.1 % 32, row := e.2.2, rank := e.1 }
  (activate mc loc s).updMc mc (fun c => { c with openRow := tset none c.openRow loc.key none })

/-- Marked rows of a rank. -/
def rankDue (s : State) (mc : Fin 20) (r : Nat) : List (Nat × Nat × Nat) := (s.mc mc).trDue.filter (fun e => e.1 == r)

/-- SELF_REFRESH_ENTRY (R309): every due targeted refresh of the rank completes first; where their own ACTIVATEs have marked
further rows of the rank, those come before the entry too. -/
def execSelfRefreshEntry (mc : Fin 20) (rank : Fin 4) (s : State) : Host.Outcome State Fault Refusal :=
  .next (if (s.mc mc).srIdle ≠ 0 ∧ rankIdle s mc rank ∧ tget RankPower.up (s.mc mc).power rank ≠ .selfRefresh
      ∧ s.lcs (.rank mc rank) = .on then
      let s := (rankDue s mc rank).foldl (fun (s : State) e => targetedRefresh mc e s) s
      if !(rankDue s mc rank).isEmpty then s
      else s.updMc mc (fun c => { c with
        power := tset RankPower.up c.power rank .selfRefresh
        openRow := c.openRow.filter (fun e => e.1 / 64 != rank.val) })
    else s)

/-- The request that a command slot serves among those whose next command the DDR5 timing allows (R307): highest urgency,
then a row hit, then the oldest. Numbers are places in the queue. -/
def pickCommand (s : State) (c : Mc) (ready : List Nat) : Option Nat :=
  let rank := fun (i : Nat) => match c.queue[i]? with
    | none => none
    | some q =>
      let loc := devLoc s.dimms (lineLI q.line)
      some (q.urgency * 2 + (decide (tget none c.openRow loc.key = some loc.row)).toNat)
  (ready.foldl (fun (b : Option (Nat × Nat)) i =>
    match rank i, b with
    | none, b => b
    | some v, none => some (i, v)
    | some v, some (j, w) => if w < v ∨ (w = v ∧ i < j) then some (i, v) else some (j, w)) none).map (·.1)

/-- DRAM_COMMAND_SLOT (R307): a due targeted refresh first, else the chosen request's next command: PRE where another row
is open, ACT where none is, else its READ or WRITE, with which it leaves the queue. -/
def execDramCommandSlot (mc : Fin 20) (ready : List Nat) (s : State) : Host.Outcome State Fault Refusal :=
  .next (let c := s.mc mc
    match c.trDue with
    | e :: _ => targetedRefresh mc e s
    | [] =>
      match pickCommand s c ready with
      | none => s
      | some i =>
        match c.queue[i]? with
        | none => s
        | some q =>
          let loc := devLoc s.dimms (lineLI q.line)
          match tget none c.openRow loc.key with
          | none => activate mc loc s
          | some r =>
            if r = loc.row then s.updMc mc (fun c => { c with queue := c.queue.eraseIdx i })
            else s.updMc mc (fun c => { c with openRow := tset none c.openRow loc.key none }))

/-- Does a run of this mode start (R313)? In M3 to M6 modes 3 and 5 need a rank that is OFF in a fenced or rebuilding
channel. Reserved modes and nibbles above 19 are rejected (DESIGN CHOICE, assumption 16). -/
def trnAllowed (s : State) (mc : Fin 20) (mode rank nibble : Nat) : Bool :=
  decide (mode ≤ 5) && decide (nibble ≤ 19) &&
  (!(s.inMode [.run, .degraded, .service, .quiesced]) || !(mode == 3 || mode == 5) ||
    ((s.grp (mc.val / 5)).failed == some (mc.val % 5) && s.lcs (.rank mc (Fin.ofNat 4 rank)) == .off))

/-- A write of TRN_CTL (Table 11.9): its fields, then APPLY, then GO. -/
def trnWrite (mc : Fin 20) (w : Word) (s : State) : State :=
  let mode := fld 58 56 w
  let rank := fld 55 54 w
  let nib := fld 53 49 w
  let s := s.updMc mc (fun c => { c with
    trnMode := BitVec.ofNat 3 mode, trnRank := BitVec.ofNat 2 rank, trnNibble := BitVec.ofNat 5 nib
    trnStart := BitVec.ofNat 10 (fld 41 32 w)
    applyDue := if bit 60 w then allBelow 4 (rankPresent s) else c.applyDue })
  if bit 59 w && !(s.mc mc).trnBusy then
    if trnAllowed s mc mode rank nib then s.updMc mc (fun c => { c with trnBusy := true, trnErr := false })
    else s.updMc mc (fun c => { c with trnErr := true })
  else s

/-- TRN_CTL as it reads. -/
def trnRead (c : Mc) : Word :=
  mkw [(63, c.trnBusy.toNat), (62, c.trnErr.toNat), (61, (!c.applyDue.isEmpty).toNat), (56, c.trnMode.toNat),
       (54, c.trnRank.toNat), (49, c.trnNibble.toNat), (32, c.trnStart.toNat)]

/-- WR of a delay register. -/
def dlyWr (w : Word) : Nat := fld 9 0 w

/-- A rank whose training or update fails is fenced, with TRAIN_FAIL (R301, R317). -/
def trainFails (mc : Fin 20) (r : Fin 4) (s : State) : State :=
  checkDegraded (fenceFn (.rank mc r) 3 (latch (.mc mc) 12 r 0 2 s))

/-- TRN_RUN_COMPLETE (R313, R314): the result bits, and the oscillator references after mode 4, in M1 or on a
fenced channel that is trained again (R304). -/
def execTrnRunComplete (mc : Fin 20) (res : Word) (noResponse fails : Bool) (s : State) : Host.Outcome State Fault Refusal :=
  .next (let c := s.mc mc
    if !c.trnBusy then s
    else
      let r := c.trnRank.toNat
      let s := s.updMc mc (fun c => { c with
        trnBusy := false, trnErr := noResponse
        trnRes := if noResponse then c.trnRes else if c.trnMode = 4 then res &&& 0xFFFF else res })
      let s := if c.trnMode = 4 ∧ !noResponse ∧ (s.inMode [.provision] ∨
          ((s.grp (mc.val / 5)).failed = some (mc.val % 5) ∧ s.lcs (.rank mc (Fin.ofNat 4 r)) ≠ .on)) then
          s.updMc mc (fun c => { c with
            oscRef := tset 0 c.oscRef r (fld 15 0 res)
            wrRef := (List.range 20).foldl (fun (t : Tbl Nat) k => tset 0 t (20 * r + k) (dlyWr (tget 0 c.shadow (20 * r + k)))) c.wrRef })
        else s
      if fails then trainFails mc (Fin.ofNat 4 r) s else s)

/-- New values of one delay register in the update of R315; none where the nibble is out of bounds. div rounds down
(DEDUCED, assumption 17). A write delay below 0 is out of bounds, and a skip at a later nibble leaves the shadow copies of
earlier nibbles as they were (DESIGN CHOICE, assumption 17). -/
def delayStep (c : Mc) (g : Nat) (osc r k : Nat) (centre : Option Nat) : Option Word :=
  let d := tget 0 c.shadow (20 * r + k)
  let w : Int := ((tget 0 c.wrRef (20 * r + k) : Nat) : Int) + ((((osc : Int) - ((tget 0 c.oscRef r : Nat) : Int)) * (g : Int)) / 256)
  match centre with
  | none => none
  | some ct =>
    let rd := fld 25 16 d
    if 16 < ((ct : Int) - (rd : Int)).natAbs ∨ 16 < (w - (dlyWr d : Int)).natAbs ∨ w < 0 then none
    else some (setFld 25 16 (setFld 9 0 d w.toNat) ct)

/-- DELAY_UPDATE (R315): the rank's delays follow, or the period is skipped; the third skip in a row fences it. -/
def execDelayUpdate (mc : Fin 20) (rank : Fin 4) (osc : Nat) (centres : List (Option Nat)) (s : State) :
    Host.Outcome State Fault Refusal :=
  .next (if s.lcs (.rank mc rank) ≠ .on then s
    else
      let c := s.mc mc
      let g := s.entry 0x7011 0 0
      let new := (List.range 20).map (fun k => delayStep c g osc rank k (centres.getD k none))
      if new.all Option.isSome then
        s.updMc mc (fun c => { c with
          skips := tset 0 c.skips rank 0
          shadow := (List.range 20).foldl (fun (t : Tbl Word) k =>
            tset 0 t (20 * rank + k) ((new.getD k none).getD 0)) c.shadow
          applyDue := allBelow 4 (rankPresent s) })
      else
        let n := tget 0 c.skips rank + 1
        let s := s.updMc mc (fun c => { c with skips := tset 0 c.skips rank n })
        if 3 ≤ n then trainFails mc rank s else s)

/-- Lines of a group. -/
def groupLines (s : State) : Nat := 2 ^ 30 * s.dimms.u / 1024

/-- SCRUB_LINE (R316): the next line of the group is read with all five stripes and mended. -/
def execScrubLine (g : Fin 4) (stripes : List Stripe) (s : State) : Host.Outcome State Fault Refusal :=
  .next (if s.entry 0x7020 0 24 = 0 ∨ !s.md.initDone ∨ (s.grp g).lost then s
    else
      let li := (s.grp g).scrub
      let l := lineOf g li
      let s := s.updGrp g (fun x => { x with scrub := (li + 1) % groupLines s })
      if !lineAnswers s l then s
      else
        let s := readStripes l 0x73 stripes true (queueLine l false 0x73 s)
        if stripes.getD 4 .good == .mismatch ∧ (s.grp g).failed.isNone then
          let m := groupMc g 4
          eccLog m 3 l 0x73 (latch (.mc m) 9 0 0 1 (queueLine l true 0x73 s))
        else s)

/-- REBUILD_LINE (R304): one more line is read from the four channels and written with all five stripes; after the last
the channel counts again. -/
def execRebuildLine (g : Fin 4) (stripes : List Stripe) (s : State) : Host.Outcome State Fault Refusal :=
  .next (match (s.grp g).rebuild with
    | none => s
    | some n =>
      let l := lineOf g n
      let s := queueLine l true 0x73 (readStripes l 0x73 stripes false (queueLine l false 0x73 s))
      if n + 1 < groupLines s then s.updGrp g (fun x => { x with rebuild := some (n + 1) })
      else checkDegraded (s.updGrp g (fun x => { x with rebuild := none, failed := none })))

/-- A rebuild begins once every rank of the group's fenced channel is ON again (R304). -/
def startRebuild (m : Fin 20) (s : State) : State :=
  let g := m.val / 5
  if (s.grp g).failed = some (m.val % 5) ∧ (s.grp g).rebuild = none ∧
      (List.finRange 4).all (fun (r : Fin 4) => !rankPresent s r || s.lcs (.rank m r) == .on) then
    s.updGrp g (fun x => { x with rebuild := some 0 })
  else s

/-- A register of a controller as it reads, and the state after the read (Tables 11.4 to 11.12): counters of type RC
clear. -/
def mcRead (m : Fin 20) (off : Nat) (s : State) : Word × State :=
  let c := s.mc m
  if 0x240 ≤ off ∧ off < 0x280 then
    let p := off / 8 - 72
    (mkw [(32, tget 0 c.l3cnt p), (0, qosTgt c p)], s.updMc m (fun c => { c with l3cnt := tset 0 c.l3cnt p 0 }))
  else if off = 0x280 then (c.pdIdle.setWidth 64, s)
  else if off = 0x288 then (c.srIdle.setWidth 64, s)
  else if off = 0x290 then
    (mkw [(32, c.trCnt), (8, c.lfsrOn.toNat), (5, c.radius2.toNat), (0, c.k.toNat)], s.updMc m (fun c => { c with trCnt := 0 }))
  else if off = 0x2A0 then (trnRead c, s)
  else if off = 0x2A8 then (c.trnRes, s)
  else if off = 0x2C0 then (c.log, s)
  else if off = 0x2C8 then
    (mkw [(48, tget 0 c.cnt 3), (32, tget 0 c.cnt 2), (16, tget 0 c.cnt 1), (0, tget 0 c.cnt 0)],
     s.updMc m (fun c => { c with cnt := [] }))
  else if 0x400 ≤ off ∧ off < 0x680 then (tget 0 c.shadow (off / 8 - 128), s)
  else (0, s)

/-- Writable bits of a delay register (Table 11.8). -/
def dlyMask : Word := 0xFFC3FFFF03FF03FF

/-- A write to a controller's own register. -/
def mcWrite (m : Fin 20) (off : Nat) (w : Word) (s : State) : State :=
  if 0x240 ≤ off ∧ off < 0x280 then
    s.updMc m (fun c => { c with tgt := tset none c.tgt (off / 8 - 72) (some (BitVec.ofNat 16 (fld 15 0 w))) })
  else if off = 0x280 then s.updMc m (fun c => { c with pdIdle := BitVec.ofNat 24 (fld 23 0 w) })
  else if off = 0x288 then s.updMc m (fun c => { c with srIdle := BitVec.ofNat 24 (fld 23 0 w) })
  else if off = 0x290 then
    s.updMc m (fun c => { c with
      radius2 := bit 5 w, k := if 6 ≤ fld 4 0 w ∧ fld 4 0 w ≤ 16 then BitVec.ofNat 5 (fld 4 0 w) else c.k })
  else if off = 0x2A0 then trnWrite m w s
  else if off = 0x2C0 then s.updMc m (fun c => if bit 63 w then { c with log := c.log &&& 0x7FFFFFFFFFFFFFFF } else c)
  else if 0x400 ≤ off ∧ off < 0x680 then
    s.updMc m (fun c => { c with shadow := tset 0 c.shadow (off / 8 - 128) (w &&& dlyMask) })
  else s

end Sys2Proof.Machine
end

