-- ==== Sys2Proof/Machine/Words.lean ====
section
/-! DEFINITION. Registers as the words they read as, and the checkstop record (chapters 2, 12, 16, 17 and 19). -/

namespace Sys2Proof.Machine

/-- Code of a lifecycle state (Table 2.6). -/
def lcCode : LcState → Nat
  | .off => 0 | .starting => 1 | .on => 2 | .stopping => 3 | .stoppingArmed => 4 | .fenced => 5

/-- unit.LC (Table 2.6). -/
def lcWord (l : Lc) : Word :=
  mkw [(24, l.transCnt.toNat), (20, l.lastCause.toNat), (18, l.lastResult.toNat), (16, l.ien.toNat), (15, l.trans.toNat),
       (12, lcCode l.prev), (8, lcCode l.state)]

/-- unit.FSTAT (Table 17.2). -/
def fstatWord (f : FaultRegs) : Word :=
  mkw [(63, f.valid.toNat), (60, f.cls), (40, f.source.toNat), (32, f.inst.toNat), (0, f.info.toNat)]

/-- unit.FOVF (Table 17.3). -/
def fovfWord (f : FaultRegs) : Word :=
  mkw [(63, f.ovf.toNat), (62, f.higher.toNat), (56, f.maxCls), (0, f.count)]

/-- unit.FCLASS (Table 17.6): the class of each assigned source, minus 1. -/
def fclassWord (kind : Nat) (f : FaultRegs) : Word :=
  mkw ((List.range 32).map (fun i => (2 * i, match srcClass kind i with
    | some c => if srcPromotable kind i && f.promo.getLsbD i then 1 else c - 1
    | none => 0)))

/-- ZM.CHK_FIRST (Table 17.9). -/
def chkWord (c : ChkFirst) : Word :=
  mkw [(63, c.valid.toNat), (32, c.source.toNat), (16, c.inst), (0, c.cnt)]

/-- ZM.ZONE_STATzz (Table 16.11). -/
def zoneStatWord (z : Zone) : Word :=
  mkw [(48, z.lost), (32, z.irqDisc), (16, z.irqMerged), (7, z.hold.length), (6, z.holdOvf.toNat),
       (5, z.resetBusy.toNat), (4, z.fault.toNat)]

/-- DRAIN.STAT (Table 12.4). -/
def drainStatWord (s : State) : Word :=
  let c := s.commit
  mkw [(61, c.phase.toNat), (60, c.incomplete.toNat), (59, c.cleaning.isSome.toNat), (32, c.dirty.length), (0, c.done)]

/-- DRAIN.ALLOW (Table 12.3). -/
def allowWord (c : Commit) : Word := mkw [(63, c.frozen.toNat), (0, c.allow.toNat)]

/-- SNS.ALIVE_CTL (Table 17.11). -/
def aliveWord (o : Outs) : Word := mkw [(20, o.rej.toNat), (0, o.gate.toNat)]

/-- SNS.PRIV_OUT (Table 17.12). -/
def privWord (o : Outs) : Word :=
  mkw [(7, o.holdPulse.toNat), (6, o.chkPulse.toNat), (5, o.holdLvl.toNat), (4, o.chkLvl.toNat)]

/-- TB.STAT (Table 19.8). -/
def tbWord (t : TimeBase) : Word := mkw [(3, t.disc.toNat), (1, t.src.toNat), (0, t.holdover.toNat)]

/-- unit.ID (Table 19.6). -/
def idWord (kind inst : Nat) : Word := mkw [(48, kind), (32, inst), (0, 0x4231)]

/-- unit.AT_CTL (Table 16.16). -/
def atCtlWord (t : AccTab) : Word := mkw [(32, t.denyCnt), (0, t.lock.toNat)]

/-- Blocks in the order of the checkstop record, with a fault latched or counted (R469). -/
def recordedBlks (s : State) : List Blk := allBlks.filter (fun b => (s.flt b).valid || (s.flt b).ovf)

/-- Entry of a checkstop record (Table 17.17). -/
def chkEntry (s : State) (b : Blk) : List Byte :=
  toBe 1 (blkKind b) ++ toBe 2 (blkInst b) ++ List.replicate 5 0 ++ toBe 8 (fstatWord (s.flt b)).toNat ++
    toBe 8 (fovfWord (s.flt b)).toNat

/-- The checkstop record (R469, Table 17.16). -/
def chkRecordBytes (s : State) : List Byte :=
  let es := (recordedBlks s).flatMap (chkEntry s)
  let head := toBe 4 0x4353544F ++ toBe 4 s.encke.chkSeq ++ toBe 8 s.now ++ toBe 1 (modeCode s.md.preM8) ++
    toBe 1 (recordedBlks s).length ++ List.replicate 6 0 ++ toBe 8 (chkWord s.chk).toNat ++ List.replicate 28 0
  fit 4096 (head ++ toBe 4 (crc32c (head ++ es)) ++ es)

/-- The checkstop record is written to the next of its 8 slots (R469). -/
def writeChkRecord (s : State) : State :=
  { s with encke := { s.encke with
      chkSlots := tset [] s.encke.chkSlots (s.encke.chkSeq % 8) (chkRecordBytes s), chkSeq := s.encke.chkSeq + 1 } }

end Sys2Proof.Machine
end

