-- ==== Sys2Proof/Machine/Power.lean ====
section
/-! DEFINITION. Power, boot, mode requests, hold-up and checkstop commands (chapters 2, 12 and 20). -/

namespace Sys2Proof.Machine

/-- What follows a change that may alter redundancy or Z0 (R31, R46). -/
def after (s : State) : State := checkDegraded (zonesAfterZ0 s)

/-- VAUX_IN_TOLERANCE (R533, R29, R498): the VAUX islands leave reset, the straps are read, RAIL_EN0 rises and the boot
state begins. -/
def execVauxInTolerance (straps : BitVec 7) (s : State) : Host.Outcome State Fault Refusal :=
  .next (if s.vaux then s
    else
      let up := fun (s : State) (i : Island) => s.updIsland i (fun x => { x with power := true })
      let s := idleValve (([.mgmt 0, .sns, .tb] : List Island).foldl up s)
      { s with
        vaux := true, md := { s.md with booting := true }, pins := { s.pins with railEn := 1 }
        mgmt := { s.mgmt with straps := straps } })

/-- VAUX_LOSS (R533). -/
def execVauxLoss (s : State) : Host.Outcome State Fault Refusal := .next (vauxReset s)

/-- Both controllers join their buses (Table 2.9 step 4, R29). -/
def joinBuses (s : State) : State := { s with mgmt := { s.mgmt with joinedA := true, joinedB := true } }

/-- A verified management image runs: M0 with cause 0x01, or 0x13 where VAUX was removed in M8 (R28, R29), STORE_CHG_EN (R508) and auto start. event is
0x1000:07. -/
def bootDone (event : Nat) (ver : BitVec 32) (s : State) : State :=
  let s := joinBuses { s with
    md := { s.md with booting := false, recovery := false }
    mgmt := { s.mgmt with
      mgmtVer := ver, bootEvent := event, arb := s.entry 0x1001 1 0, dataRate := s.entry 0x1001 2 2000 }
    pins := { s.pins with storeChg := !s.pins.storeFlt } }
  let m8 := s.md.fromM8
  let s := setMode .cold (if m8 then 0x13 else 0x01) s
  leaveCold (if m8 then { s with md := { s.md with prev := some .checkstop, fromM8 := false } } else s)

/-- BOOT_IMAGE_CHECK (R29): slot A, then slot B, then boot recovery on both buses. The image that boot recovery has
written is the one in slot B. -/
def execBootImageCheck (slotB verifies : Bool) (ver : BitVec 32) (s : State) : Host.Outcome State Fault Refusal :=
  .next (if !s.md.booting || s.md.recovery || slotB != s.md.bootA then s
    else if verifies then
      bootDone (if s.md.bootRec then 2 else slotB.toNat) (if slotB then s.mgmt.slotBVer.getD ver else ver) s
    else if !slotB then { s with md := { s.md with bootA := true } }
    else joinBuses { s with md := { s.md with recovery := true } })

/-- The answer to a client whose segmented write of an image is complete (R29, R501). -/
def recoveryAnswer (code : Nat) (s : State) : State :=
  (s.mgmt.transfers.filter (fun t => t.req.index == 0x1F00 && t.next == 0)).foldl (fun (s : State) t =>
    canSend 0x07 4 t.client.toNat false (toBe 2 0x1F00 ++ [0, 0] ++ toBe 4 code) t.busB s) s

/-- The write to 0x1F00:00 in boot recovery, once all its segments have arrived (R29): an image that verifies goes to slot
B and the boot state starts again; any other is discarded. -/
def recoveryWrite (verifies : Bool) (ver : BitVec 32) (s : State) : State :=
  if !s.md.recovery || !s.mgmt.transfers.any (fun t => t.req.index == 0x1F00 && t.next == 0) then s
  else if verifies then
    let s := recoveryAnswer 0 s
    { s with
      md := { s.md with recovery := false, bootA := false, bootRec := true }
      mgmt := { s.mgmt with joinedA := false, joinedB := false, transfers := [], slotBVer := some ver }
      resp := .dict 0 [] }
  else
    let s := recoveryAnswer 0x06090030 s
    { s with mgmt := { s.mgmt with transfers := [] }, resp := .dict 0x06090030 [] }

/-- BOOT_RECOVERY_IMAGE_WRITE (R29). -/
def execBootRecoveryImageWrite (verifies : Bool) (ver : BitVec 32) (s : State) : Host.Outcome State Fault Refusal :=
  .next (recoveryWrite verifies ver s)

/-- A request waits behind a transition (R34): its answer is still to come. -/
def waitRequest (code : Nat) (p : Principal) (i : Option K3Item) (s : State) : State :=
  { s with
    md := { s.md with requests := s.md.requests ++ [{ code := code, who := p, item := i }] }
    resp := if i.isNone then .none else s.resp }

/-- Mode request 0 (causes 0x0E and 0x13). -/
def modeCold (p : Principal) (i : Option K3Item) (s : State) : State :=
  if s.inMode [.quiesced] then
    if s.md.leaving.isSome then waitRequest 0 p i s else acceptRequest i (orderlyStart s)
  else if s.inMode [.checkstop] ∧ p = .F then
    if s.pins.railsOn then waitRequest 0 p i s else acceptRequest i (enterCold 0x13 s)
  else refuseRequest i s

/-- Mode request 1 or 3 in M0: the rail-enable sequence (cause 0x02); within 1 s of an M7 it waits (R35). -/
def startRequest (code : Nat) (p : Principal) (i : Option K3Item) (s : State) : State :=
  let s := waitRequest code p i s
  if s.md.awaitRepower then s else startRails s

/-- Mode request 1. -/
def modeProvision (p : Principal) (i : Option K3Item) (s : State) : State :=
  if s.inMode [.cold] then startRequest 1 p i s else refuseRequest i s

/-- Zones that were ON when M6 was entered start again, or those of the start mask (R46). -/
def restartZones (s : State) : State :=
  let s' := if s.md.m6FromM2 then startMaskZones s else enableZones s.md.m6Zones s
  { s' with md := { s'.md with m6FromM2 := false } }

/-- Mode request 3 (causes 0x02 to 0x04, 0x0A and 0x0D). -/
def modeRun (p : Principal) (i : Option K3Item) (s : State) : State :=
  match s.md.mode with
  | some .cold => startRequest 3 p i s
  | some .provision =>
    if s.md.provisioned ∧ !s.md.held then
      acceptRequest i (leaveProvision true { s with md := { s.md with held := true } })
    else refuseRequest i s
  | some .service =>
    if s.md.m5From = .quiesced then refuseRequest i s
    else if s.md.leaving.isSome then waitRequest 3 p i s
    else leaveService 3 (acceptRequest i s)
  | some .quiesced =>
    if s.md.leaving.isSome then waitRequest 3 p i s
    else acceptRequest i (restartZones (enterRun 0x0D s))
  | _ => refuseRequest i s

/-- Mode request 5 (cause 0x09). -/
def modeService (p : Principal) (i : Option K3Item) (s : State) : State :=
  if p = .P ∨ s.entry 0x2030 0 0 ≠ 1 ∨ !s.inMode [.run, .degraded, .quiesced] then refuseRequest i s
  else if s.md.leaving.isSome then waitRequest 5 p i s
  else
    let s := { s with md := { s.md with m5From := s.md.mode.getD .run } }
    let s := setMode .service 0x09 s
    acceptRequest i { s with md := { s.md with dbgPort := true } }

/-- Mode request 6 (causes 0x0B and 0x0C). -/
def modeQuiesce (p : Principal) (i : Option K3Item) (s : State) : State :=
  match s.md.mode with
  | some .run => acceptRequest i (enterQuiesced 0x0C false s)
  | some .degraded => acceptRequest i (enterQuiesced 0x0C false s)
  | some .service =>
    if s.md.m5From ≠ .quiesced then refuseRequest i s
    else if s.md.leaving.isSome then waitRequest 6 p i s
    else leaveService 6 (acceptRequest i s)
  | _ => refuseRequest i s

/-- A write of a mode code to 0x2001:00 (R31); other codes are no mode request. -/
def modeRequest (p : Principal) (code : Nat) (i : Option K3Item) (s : State) : State :=
  match code with
  | 0 => modeCold p i s
  | 1 => modeProvision p i s
  | 3 => modeRun p i s
  | 5 => modeService p i s
  | 6 => modeQuiesce p i s
  | _ => refuseRequest i s

/-- Requests that waited behind a transition are taken up in order once none is in progress; n bounds them. -/
def takeRequests : Nat → State → State
  | 0, s => s
  | n + 1, s =>
    match s.md.requests with
    | [] => s
    | r :: rest =>
      if s.md.leaving.isSome || s.inMode [.cold] || (s.inMode [.checkstop] && s.pins.railsOn) then s
      else
        let s := { s with md := { s.md with requests := rest } }
        let keep := s.resp
        let s' := modeRequest r.who r.code r.item s
        takeRequests n (if r.ended then { s' with resp := keep } else s')

/-- What waited behind a transition is taken up. -/
def takeRequest (s : State) : State := takeRequests s.md.requests.length s

/-- MODE_REQUEST_COLD. -/
def execModeRequestCold (p : Principal) (s : State) : Host.Outcome State Fault Refusal := .next (modeCold p none s)

/-- MODE_REQUEST_PROVISION. -/
def execModeRequestProvision (p : Principal) (s : State) : Host.Outcome State Fault Refusal := .next (modeProvision p none s)

/-- MODE_REQUEST_RUN. -/
def execModeRequestRun (p : Principal) (s : State) : Host.Outcome State Fault Refusal := .next (takeRequest (modeRun p none s))

/-- MODE_REQUEST_SERVICE. -/
def execModeRequestService (p : Principal) (s : State) : Host.Outcome State Fault Refusal := .next (modeService p none s)

/-- MODE_REQUEST_QUIESCE. -/
def execModeRequestQuiesce (p : Principal) (s : State) : Host.Outcome State Fault Refusal :=
  .next (takeRequest (modeQuiesce p none s))

/-- RAIL_SEQUENCE_TIMEOUT (R509): the rails fall, 0x3030:01 reads 1 and a pending request ends. -/
def execRailSequenceTimeout (s : State) : Host.Outcome State Fault Refusal :=
  .next (if s.inMode [.cold] && s.pins.seqBusy then
      cancelRequest ({ s with pins := { s.pins with railEn := 1, seqBusy := false } }.setEntry 0x3030 1 1)
    else s)

/-- Every island of the main domain. -/
def mainIslands : List Island :=
  (List.finRange 48).map Island.pu ++ (List.finRange 4).map Island.home ++ [.fab] ++ (List.finRange 20).map Island.mc ++
  [.drain, .flash] ++ (List.finRange 36).map Island.ce ++ (List.finRange 8).map Island.lg ++ [.crypto, .comp, .zm]

/-- Every main-domain island is fenced (R21, R36). -/
def fenceMain (s : State) : State :=
  mainIslands.foldl (fun (s : State) (i : Island) => s.updIsland i (fun x => { x with fltFence := true })) s

/-- Service software chooses each island's reference (R21): REFCLK_B for those of onB; a generator whose chosen reference
is absent runs from the other. -/
def chooseRefs (onB : List Island) (s : State) : State :=
  mainIslands.foldl (fun (s : State) (i : Island) =>
    let b := if onB.contains i then s.pins.refB else !s.pins.refA
    if b then s.updIsland i (fun x => { x with useB := true }) else s) s

/-- The key store is reloaded from flash as the crypto island starts in M1 (R405); the drain key is generated in the first
M1. Where the reload fails every slot is empty: KEYSTORE, class C2. -/
def reloadKeys (ok : Bool) (s : State) : State :=
  if !ok then latch .crypto 9 0 0 2 s
  else
    let (k, s) := match s.crypto.savedDrain with
      | some k => (k, s)
      | none => s.draw 512
    { s with crypto := { s.crypto with keys := s.crypto.savedKeys, drainKey := some k, savedDrain := some k } }

/-- MAIN_PG_RISE (R21, R405, R529, cause 0x02): M1 begins, and the islands take their references; with neither present they are
fenced and M8 begins. -/
def execMainPgRise (onB : List Island) (keysOk : Bool) (s : State) : Host.Outcome State Fault Refusal :=
  .next (let s := { s with pins := { s.pins with mainPg := true } }
    if s.inMode [.cold] && s.pins.seqBusy && !s.pins.pfwCounted then
      let s := reloadKeys keysOk (chooseRefs onB (enterProvision s))
      if s.pins.refA || s.pins.refB then s else raiseC4 .zm 14 0 0 false (fenceMain s)
    else s)

/-- MAIN_POWER_GOOD_LOST (R529). -/
def execMainPowerGoodLost (s : State) : Host.Outcome State Fault Refusal :=
  .next (powerFails { s with pins := { s.pins with mainPg := false } })

/-- PFW_N_LOW (R33). -/
def execPfwNLow (s : State) : Host.Outcome State Fault Refusal :=
  .next { s with pins := { s.pins with pfwLow := true } }

/-- PFW_N_HIGH (R33): a pulse that had not counted is a C1 fault of the sensing unit, while PFW_N is monitored. -/
def execPfwNHigh (s : State) : Host.Outcome State Fault Refusal :=
  .next (let glitch := s.pins.pfwLow && !s.pins.pfwCounted && s.md.mode.isSome && (!s.inMode [.cold] || s.pins.seqBusy)
    let s := { s with pins := { s.pins with pfwLow := false, pfwCounted := false } }
    if glitch then latch .sns 8 0 0 1 s else s)

/-- PFW_N_COUNT_ASSERTED (R33, R333, R535). -/
def execPfwNCountAsserted (s : State) : Host.Outcome State Fault Refusal :=
  .next (if s.pins.pfwLow && !s.pins.pfwCounted then
      powerFails { s with pins := { s.pins with pfwCounted := true } }
    else s)

/-- Is the stop phase of M7 over: no PU at work, nothing left in a writeback buffer (Table 12.6 steps 3 to 6)? -/
def stopPhaseDone (s : State) : Bool :=
  (List.finRange 48).all (fun n => s.lcs (.pu n) == .off || s.lcs (.pu n) == .fenced) &&
    (s.coh.wbuf.isEmpty || !flashUsable s)

/-- DRAIN_SNAPSHOT (R333 steps 6 and 7): the map freezes, other ranks enter self-refresh without a transition. -/
def execDrainSnapshot (s : State) : Host.Outcome State Fault Refusal :=
  .next (let s := drainWbuf s
    if s.inMode [.holdup] && s.commit.phase == 1 && stopPhaseDone s then
      let s := drainStart s
      (List.range 20).foldl (fun (s : State) m => s.updMc m (fun c => { c with
        power := (allBelow 4 (fun r => decide (0 < r) && rankPresent s r)).foldl
          (fun (t : Tbl RankPower) r => tset RankPower.up t r .selfRefresh) c.power })) s
    else s)

/-- DRAIN_FINISHED (R333, cause 0x11): the rest of the drain and the index, unless an incomplete one stands. -/
def execDrainFinished (s : State) : Host.Outcome State Fault Refusal :=
  .next (if s.inMode [.holdup] then
      if s.commit.frozenMap.isSome then enterCold 0x11 (drainFinish s)
      else if s.commit.phase = 6 ∨ s.commit.phase = 7 then enterCold 0x11 s
      else s
    else s)

/-- BUS_BELOW_DRAIN_THRESHOLD (R336). -/
def execBusBelowDrainThreshold (s : State) : Host.Outcome State Fault Refusal :=
  .next (match s.commit.frozenMap with
    | some (_ :: _) => writeIndex false s
    | _ => s)

/-- HOLDUP_REPOWER_HOLD_EXPIRY (R35). -/
def execHoldupRepowerHoldExpiry (s : State) : Host.Outcome State Fault Refusal :=
  .next (if s.inMode [.cold] && s.md.awaitRepower then
      leaveCold { s with md := { s.md with awaitRepower := false } }
    else s)

/-- The spare of the quadrant that takes an active position's place in M1 (R48). -/
def replaceInM1 (n : Fin 48) (s : State) : State :=
  let b := BitVec.twoPow 48 n
  let q := n.val / 12
  let spc := s.spc
  let spc := { spc with failedSet := spc.failedSet ||| b, goodPu := spc.goodPu &&& ~~~b }
  if spc.spareSet.getLsbD n then { s with spc := { spc with spareSet := spc.spareSet &&& ~~~b } }
  else match ((spareOrder q).take 12).find? (fun m => spc.spareSet.getLsbD m) with
    | some m => { s with spc := { spc with spareSet := spc.spareSet &&& ~~~(BitVec.twoPow 48 m) } }
    | none => { s with spc := spc }

/-- What the spare controller does about a unit that failed in M1 (R48): a PU position is replaced in the active set, a
CE counts as failed. -/
def dropInM1 (f : Fn) (s : State) : State :=
  match f with
  | .pu n => replaceInM1 n s
  | .ce n => { s with spc := { s.spc with
      goodCe := s.spc.goodCe &&& ~~~(BitVec.twoPow 36 n), failedCe := s.spc.failedCe ||| BitVec.twoPow 36 n } }
  | _ => s

/-- A unit fails a step of M1 (R44, R48): fenced, its source recorded (1 LC_TIMEOUT), and a PU position replaced in the
active set. -/
def failInM1 (src : Nat) (f : Fn) (s : State) : State :=
  dropInM1 f (faultFn f src (fnInst f) 0 (if src = 1 then 4 else 3) s)

/-- Is a function a cold spare, whose test in M1 is a proving run (R281)? -/
def coldSpare (s : State) (f : Fn) : Bool :=
  match f with
  | .pu n => s.spc.spareSet.getLsbD n
  | .ce n => (s.ce n).le == 0x3F
  | _ => false

/-- A start-up test of M1 fails: a cold spare's proving run is recorded and the spare is not good (R281); any other unit
is fenced (R44, R48). -/
def failTest (f : Fn) (s : State) : State :=
  if coldSpare s f then latch (fnBlk f) (match f with | .pu _ => 15 | _ => 2) 0 0 2 s else failInM1 2 f s

/-- The injection test of a position in M1 fails on k lanes (R272). -/
def failLanes (n k : Nat) (s : State) : State :=
  if n < 48 ∧ k ≠ 0 then
    (failInM1 14 (.pu (Fin.ofNat 48 n)) s).updPu n (fun p => { p with injFail := Nat.min 255 k, injPass := false })
  else s

/-- The tests of M1 (R272, R281): positions that pass count as good, and units that fail are fenced or not good. -/
def proveInM1 (lanes : List (Nat × Nat)) (failed : List Fn) (s : State) : State :=
  let s := lanes.foldl (fun s e => failLanes e.1 e.2 s) s
  let s := failed.foldl (fun s f => failTest f s) s
  let passes := fun (n : Fin 48) => s.lcs (.pu n) != .fenced && !s.spc.failedSet.getLsbD n
  let puOk := (List.finRange 48).foldl (fun (w : BitVec 48) n =>
    if passes n && !failed.contains (.pu n) then w ||| BitVec.twoPow 48 n else w) 0
  let ceOk := (List.finRange 36).foldl (fun (w : BitVec 36) n =>
    if s.lcs (.ce n) = .fenced ∨ s.spc.failedCe.getLsbD n ∨ failed.contains (.ce n) then w else w ||| BitVec.twoPow 36 n) 0
  let s := { s with spc := { s.spc with goodPu := puOk, goodCe := ceOk } }
  (List.finRange 48).foldl (fun (s : State) (n : Fin 48) =>
    if puOk.getLsbD n then s.updPu n (fun p => { p with injPass := true, injFail := 0 }) else s) s

/-- The control-store image that verifies, and its slot, is kept in management memory with its hash (R129, R485); none: none
is held. -/
def holdImage (o : Option (Bool × CsImage)) (m : Mgmt) : Mgmt :=
  match o with
  | some (b, i) => { m with
      imgHeld := true, imgId := i.id, imgVer := i.ver, imgSlotB := b, imgHash := i.hash, csWords := imageWords i.words }
  | none => { m with imgHeld := false, imgId := 0, imgVer := 0, imgSlotB := false, imgHash := 0, csWords := [] }

/-- The CE firmware that verifies is kept, with its hash (R344, R485). -/
def holdFirmware (o : Option (BitVec 384)) (m : Mgmt) : Mgmt := { m with ceFwHeld := o.isSome, ceFwHash := o.getD 0 }

/-- What M1 finds (R129, R294, R344): the image of slot A, or of slot B, that verifies and is of this stepping (R125) is
held, as is the CE firmware; what does not verify is recorded. The tests of the units follow. -/
def provision (p : Prov) (s : State) : State :=
  let inst := s.mgmt.active.toNat
  let held := (p.csA || p.csB) && p.image.b1
  let s := if held then s else latch .mgt 9 inst 0 2 s
  let s := if p.ceFw then s else latch .mgt 10 inst 0 2 s
  let s := if p.memMatch then s else latch .mgt 11 inst 0 2 s
  let s := { s with
    mgmt := holdFirmware (if p.ceFw then some p.ceHash else none)
      (holdImage (if held then some (!p.csA, p.image) else none) s.mgmt)
    dimms := { s.dimms with same := p.memMatch } }
  proveInM1 p.lanes p.failed { s with md := { s.md with provisioned := true } }

/-- PROVISIONING_COMPLETE (R31, R48, R128, R129, R272, R281, R294, R344): the work of M1 ends. -/
def execProvisioningComplete (p : Prov) (s : State) : Host.Outcome State Fault Refusal :=
  .next (if !s.inMode [.provision] || tapHolds s then s else takeRequest (leaveProvision false (provision p s)))

/-- What M1 finds where its checks have not finished: no image. -/
def nothingFound (s : State) : Prov :=
  { csA := false, csB := false, ceFw := false, memMatch := s.dimms.same
    image := { id := 0, ver := 0, b1 := false, hash := 0, words := [] }, ceHash := 0, lanes := [], failed := [] }

/-- M1_TIME_LIMIT (R48, R537): every unit with an unfinished step has failed; p: what the finished checks have found, where
PROVISIONING_COMPLETE has not given it. -/
def execM1TimeLimit (unfinished : List Fn) (p : Option Prov) (s : State) : Host.Outcome State Fault Refusal :=
  .next (if !s.inMode [.provision] || tapHolds s then s
    else
      let s := unfinished.foldl (fun (s : State) f => failInM1 1 f s) s
      let s := if s.md.provisioned then s else provision (p.getD (nothingFound s)) s
      takeRequest (leaveProvision false s))

/-- DRAM_INIT_COMPLETE (R540). -/
def execDramInitComplete (s : State) : Host.Outcome State Fault Refusal :=
  .next (if s.inMode [.provision, .restore] then
      leaveRestore (leaveProvision false { s with md := { s.md with initDone := true } })
    else s)

/-- RESTORE_COMPLETE (R340, R341). -/
def execRestoreComplete (badBlocks badIndexes : List Nat) (s : State) : Host.Outcome State Fault Refusal :=
  .next (if s.inMode [.restore] && s.md.restored.isNone then
      leaveRestore (enableCommit (restore badBlocks badIndexes s))
    else s)

/-- SERVICE_SESSION_TIMEOUT (R51, causes 0x0A and 0x0B). -/
def execServiceSessionTimeout (s : State) : Host.Outcome State Fault Refusal :=
  .next (if s.inMode [.service] && s.md.leaving.isNone then
      takeRequest (leaveService (if s.md.m5From = .quiesced then 6 else 3) s)
    else s)

/-- CHECKSTOP_LINE_ASSERTED (R467): only a source that can be of class C4 asserts the line. -/
def execCheckstopLineAsserted (b : Blk) (src : Fin 32) (inst : BitVec 8) (info : BitVec 32) (s : State) :
    Host.Outcome State Fault Refusal :=
  .next (if srcClass (blkKind b) src = some 4 then
      raiseC4 b src inst.toNat info.toNat (!(b == .zm && src.val == 14)) s
    else s)

/-- Every main-domain function and island is fenced once the salvage drain has ended (R36, R46, Table 2.3). -/
def fenceAll (s : State) : State :=
  let fs := allFns.filter (fun f => match f with | .rank _ r => rankPresent s r | _ => true)
  fenceMain (fs.foldl (fun (s : State) f => s.setLc f { s.lcOf f with state := .fenced }) s)

/-- SALVAGE_DRAIN_COMPLETE (R36, R46, R469): the copy ends, or was skipped; the checkstop record is written, the main
domain is fenced and the rails go off. -/
def execSalvageDrainComplete (s : State) : Host.Outcome State Fault Refusal :=
  .next (if s.inMode [.checkstop] && s.pins.railsOn then
      let s := if s.commit.phase = 6 ∨ s.commit.phase = 7 then s
        else drainFinish (if s.commit.frozenMap.isSome then s else drainStart s)
      takeRequest (fenceAll (railsOff (writeChkRecord s)))
    else s)

/-- ORDERLY_DRAIN_COMPLETE (R342, cause 0x0E). -/
def execOrderlyDrainComplete (s : State) : Host.Outcome State Fault Refusal :=
  .next (if s.inMode [.quiesced] && s.md.leaving.isSome then
      enterCold 0x0E (if s.commit.frozenMap.isSome then drainFinish s else s)
    else s)

/-- Islands that run from the lost reference switch to the other (R21). -/
def switchRefs (b : Bool) (s : State) : State :=
  mainIslands.foldl (fun (s : State) (i : Island) =>
    if (s.island i).useB = b then s.updIsland i (fun x => { x with useB := !b }) else s) s

/-- REFCLK_LOSS (R21, R36): the islands that use it switch to the other reference; without one all are fenced and M8
begins. -/
def execRefclkLoss (b : Bool) (s : State) : Host.Outcome State Fault Refusal :=
  .next (let s := { s with pins := if b then { s.pins with refB := false } else { s.pins with refA := false } }
    if !s.mainOn then s
    else if !s.pins.refA && !s.pins.refB then raiseC4 .zm 14 0 0 false (fenceMain s)
    else if mainIslands.any (fun i => (s.island i).useB == b) then checkDegraded (latch .zm 13 0 0 1 (switchRefs b s))
    else checkDegraded s)

/-- REFCLK_RETURN (Table 2.4). -/
def execRefclkReturn (b : Bool) (s : State) : Host.Outcome State Fault Refusal :=
  .next (checkDegraded { s with pins := if b then { s.pins with refB := true } else { s.pins with refA := true } })

end Sys2Proof.Machine
end

