-- ==== Sys2Proof/Machine/ChanRows.lean ====
section
/-! DEFINITION. The commands of the channel subsystem (chapter 13): frames, channel programs, timers and quiesce. -/

namespace Sys2Proof.Machine

/- Programs. -/

/-- A channel-program descriptor (Table 13.17). -/
structure Cpd where
  kind   : Nat
  chain  : Bool
  tc     : Bool
  route  : Nat
  len    : Nat
  key    : Nat
  buf    : Nat
  next   : Nat
  rcb    : Nat
  status : Nat
  tag    : Nat
  tStat  : Nat
deriving DecidableEq, Repr

/-- The descriptor that 64 bytes hold. -/
def cpdOf (b : List Byte) : Cpd :=
  { kind := beAt b 0 1, chain := beAt b 1 1 % 2 == 1, tc := beAt b 1 1 / 2 % 2 == 1, route := beAt b 2 2
    len := beAt b 4 4, key := beAt b 8 8, buf := beAt b 0x10 8, next := beAt b 0x18 8, rcb := beAt b 0x20 8
    status := beAt b 0x28 8, tag := beAt b 0x30 8, tStat := beAt b 0x38 4 }

/-- A descriptor that the engine reads with class 7 (R372); none where it is not 64 B aligned or cannot be read. -/
def readCpd (n z zpa : Nat) (s : State) : Option Cpd × State :=
  if zpa % 64 ≠ 0 then (none, s)
  else match zoneRead 7 n z zpa 64 s with
    | (some b, s) => (some (cpdOf b), s)
    | (none, s) => (none, s)

/-- The descriptors that follow a first one, in order; fuel bounds them (R373: at most 63). None: a descriptor cannot
be read, has the wrong KIND, or names too much or too far. -/
def chainOf (n z : Nat) : Nat → Cpd → State → Option (List Cpd) × State
  | 0, d, s => if d.chain then (none, s) else (some [], s)
  | fuel + 1, d, s =>
    if !d.chain then (some [], s)
    else match readCpd n z d.next s with
      | (none, s) => (none, s)
      | (some e, s) =>
        if !(e.kind == 3 || e.kind == 4) || decide (2 ^ 24 < e.len) || !zoneSpan s z e.buf e.len then (none, s)
        else match chainOf n z fuel e s with
          | (some l, s) => (some (e :: l), s)
          | (none, s) => (none, s)

/-- A whole program, checked (R373): its first descriptor and those that follow. -/
def program (n z zpa : Nat) (s : State) : Option (Cpd × List Cpd) × State :=
  match readCpd n z zpa s with
  | (none, s) => (none, s)
  | (some d, s) =>
    if decide (1984 < d.len) || !zoneSpan s z d.buf d.len || (d.rcb != 0 && !zoneSpan s z d.rcb 64) then (none, s)
    else if d.kind = 2 then if d.chain then (none, s) else (some (d, []), s)
    else if d.kind = 1 ∧ d.rcb ≠ 0 ∧ zoneSpan s z d.status 1984 then
      match chainOf n z 63 d s with
      | (some l, s) => (some (d, l), s)
      | (none, s) => (none, s)
    else (none, s)

/-- DATA_OUT frames of a program in sending order: address and length, 4,096 B each but for a buffer's last. -/
def outFrames (l : List Cpd) : List (Nat × Nat) :=
  (l.filter (fun d => d.kind == 3)).flatMap (fun d =>
    (List.range ((4095 + d.len) / 4096)).map (fun i => (d.buf + 4096 * i, Nat.min 4096 (d.len - 4096 * i))))

/-- Where len bytes of the DATA_IN stream from offset off lie: pieces (address, first byte, length). -/
def inPieces : List Cpd → Nat → Nat → Nat → List (Nat × Nat × Nat)
  | [], _, _, _ => []
  | d :: l, off, first, len =>
    if d.kind ≠ 4 then inPieces l off first len
    else if d.len ≤ off then inPieces l (off - d.len) first len
    else
      let k := Nat.min len (d.len - off)
      (d.buf + off, first, k) :: inPieces l 0 (first + k) (len - k)

/- Entries by key. -/

/-- Bucket of an inbound exchange (R351). -/
def bucketOf (epN key : Nat) : Nat := crc32c (toBe 2 epN ++ toBe 8 key) % 768

/-- Entries of the bucket of a key in partition e: with 768 buckets of 8, the 6,144 inbound exchanges that Table 13.21 sets as
an engine's limit (R351, R378). -/
def waysOf (e epN key : Nat) : List Nat := (List.range 8).map (fun w => 8192 * e + 8 * bucketOf epN key + w)

/-- The inbound exchange with a key, and the lowest free way of its bucket (R351). -/
def findIn (n e epN key : Nat) (s : State) : Option (Nat × Xe) × Option Nat × State :=
  (waysOf e epN key).foldl (fun (r : Option (Nat × Xe) × Option Nat × State) i =>
    let (f, w, s) := r
    match readEntry n i s with
    | (some x, s) =>
      if x.key == key && x.ep == epN && x.flags % 2 == 0 && f.isNone then (some (i, x), w, s) else (f, w, s)
    | (none, s) =>
      match (s.vol i).pendingAck with
      | some (_, p) => if p.key.toNat == key && f.isNone then (some (i, { key := key, ep := epN, state := 1 }), w, s) else (f, w, s)
      | none => (f, if w.isNone && !inDoubt s i then some i else w, s)) (none, none, s)

/-- The outbound exchange with a key in partition e (R351): NODE, EPOCH and USE are checked with the whole key. -/
def findOut (n e key : Nat) (s : State) : Option (Nat × Xe) × State :=
  let i := key % 2 ^ 18
  if entryLe i ≠ e ∨ i % 8192 < 6144 then (none, s)
  else match readEntry n i s with
    | (some x, s) => if x.key = key then (some (i, x), s) else (none, s)
    | (none, s) => (none, s)

/-- Has an outbound exchange been abandoned? Its RCB and descriptor are taken out of the entry. -/
def abandoned (x : Xe) : Bool := x.flags % 2 == 1 && x.rcb == 0

/-- CMD of an outbound exchange, from entry and slot. -/
def cmdOf (s : State) (n i : Nat) (x : Xe) (ep : Ep) : Frame :=
  mkFrame s n ep.node 1 0 x.key 0 x.sid 0 (s.rd (slotPa i) x.plen)

/-- STATUS from the originator that abandons an outbound exchange (Table 13.9). -/
def abandonOf (s : State) (n i : Nat) (x : Xe) (ep : Ep) : Frame :=
  mkFrame s n ep.node 3 4 x.key (Nat.max 1 (s.vol i).next) 0 0xFFFF []

/-- Does the block of an entry take a write now (R325, R332)? The request joins the queue where not. -/
def entryOpen (n i z : Nat) (s : State) : Bool × State := askGrant (ceAcc n z) (lineBlock (i / 2)) s

/-- An exchange is abandoned: no RCB and no descriptor any more, and STATUS E 0xFFFF goes to the peer. -/
def abandonOut (n i : Nat) (x : Xe) (ep : Ep) (s : State) : State :=
  let x := { x with rcb := 0, desc := 0 }
  let s := (putEntry n i ep.zone x s).2
  let s := s.updVol i (fun v => { v with sent := [] })
  sendTracked i x.ep ep (abandonOf s n i x ep) s

/-- An exchange ends on an error found after its acknowledgement (R373): completion and abandonment. -/
def failOut (n i : Nat) (x : Xe) (ep : Ep) (code : Nat) (s : State) : State :=
  abandonOut n i x ep (complete n i ep.zone x 1 code 0 0 s)

/-- The DATA_OUT frame with sequence number k ≥ 1 of a program: its bytes, and L on the last. -/
def dataFrame (n : Nat) (x : Xe) (ep : Ep) (fs : List (Nat × Nat)) (k : Nat) (s : State) : Option Frame × State :=
  match fs[k - 1]? with
  | none => (none, s)
  | some (zpa, len) =>
    match zoneReadN 0 n ep.zone zpa len s with
    | (some b, s) => (some (mkFrame s n ep.node 2 (if k = fs.length then 8 else 0) x.key k 0 0 b), s)
    | (none, s) => (none, s)

/-- DATA_OUT frames leave as long as fewer than 16 are unanswered (R359), each once the entry with the next sequence number is
written (R347); fuel bounds those that leave at once. -/
def pumpOut (n i : Nat) (x : Xe) (ep : Ep) (fs : List (Nat × Nat)) : Nat → State → State
  | 0, s => s
  | fuel + 1, s =>
    let v := s.vol i
    let k := Nat.max 1 v.next
    if fs.length < k ∨ 16 ≤ v.sent.length then s
    else match dataFrame n x ep fs k s with
      | (none, s) => failOut n i x ep 7 s
      | (some f, s) =>
        match entryOpen n i ep.zone s with
        | (false, s) => s
        | (true, s) =>
          let x := { x with sendSeq := k + 1 }
          let s := (putEntry n i ep.zone x s).2
          pumpOut n i x ep fs fuel (sendTracked i x.ep ep f (s.updVol i (fun v => { v with next := k + 1 })))

/-- The DATA_OUT part of an accepted exchange goes on. -/
def pump (n i : Nat) (x : Xe) (ep : Ep) (s : State) : State :=
  if x.state ≠ 9 ∨ abandoned x then s
  else match program n ep.zone x.desc s with
    | (some (_, l), s) => pumpOut n i x ep (outFrames l) 17 s
    | (none, s) => failOut n i x ep 6 s

/-- The oldest unanswered frame of an exchange: asked for with REDRIVE, or sent where it has waited for a path (R364). -/
def nudge (n i epN : Nat) (ep : Ep) (s : State) : State :=
  match (s.vol i).sent with
  | o :: rest =>
    if o.link = 512 then
      if (choosePath s epN ep).isNone then s
      else
        let s := sendTracked i epN ep o.frame (s.updVol i (fun v => { v with sent := rest }))
        s.updVol i (fun v => { v with sent := v.sent.getLast?.toList ++ v.sent.dropLast })
    else redrive n i epN ep s
  | [] => s

/- After a failure of an engine, and after Restore. -/

/-- Frames that were sent before, on paths that are no longer known, await their answers: REDRIVE asks for the oldest. -/
def askFor (n i epN : Nat) (ep : Ep) (fs : List Frame) (s : State) : State :=
  redrive n i epN ep (s.updVol i (fun v => { v with
    sent := fs.map (fun f => { ep := epN, link := 513, frame := f }), cmdSent := true }))

/-- The DATA frames of an accepted exchange that can be unanswered: the last 16 that its entry says were sent (R359, R366). -/
def lastData (n : Nat) (x : Xe) (ep : Ep) (fs : List (Nat × Nat)) (s : State) : List Frame × State :=
  let k0 := Nat.max 1 (x.sendSeq - 16)
  (List.range (x.sendSeq - k0)).foldl (fun (r : List Frame × State) j =>
    match dataFrame n x ep fs (k0 + j) r.2 with
    | (some f, s) => (r.1 ++ [f], s)
    | (none, s) => (r.1, s)) ([], s)

/-- One entry as R366 and, after Restore, R367 treat it. -/
def rebuildEntry (restored : Bool) (n i : Nat) (s : State) : State :=
  match readEntry n i s with
  | (none, s) => s
  | (some x, s) =>
    match endpoint (entryLe i) x.ep s with
    | (none, s) => s
    | (some ep, s) =>
      let s := s.updVol i (fun v => {
        usedUse := v.usedUse, freeAt := v.freeAt, restored := restored || v.restored, cmdSent := true, next := Nat.max 1 x.sendSeq
        dataIn := if x.recvSeq = noSeq then 0 else 4096 * (x.recvSeq + 1) })
      let red := x.flags - 4 * (x.flags / 4 % 2) + 4
      match x.state with
      | 1 => (putEntry n i ep.zone { x with flags := red } s).2
      | 2 => (putEntry n i ep.zone { x with flags := red, state := if restored then 1 else 2 } s).2
      | 3 => askFor n i x.ep ep [statusFrame s n i x ep 0] s
      | 8 => askFor n i x.ep ep [if abandoned x then abandonOf s n i x ep else cmdOf s n i x ep] s
      | 9 =>
        if abandoned x then askFor n i x.ep ep [abandonOf s n i x ep] s
        else match program n ep.zone x.desc s with
          | (some (_, l), s) =>
            match lastData n x ep (outFrames l) s with
            | ([], s) => s
            | (fs, s) => askFor n i x.ep ep fs s
          | (none, s) => s
      | _ => s

/-- R366 on partition e, by engine n. -/
def rebuildLe (restored : Bool) (n e : Nat) (s : State) : State :=
  (openEntries s e).foldl (fun s i => rebuildEntry restored n i s) s

/-- The engines apply R366 and R367 once they may answer frames in M3 or M4 (R367, R377). -/
def applyOnce (s : State) : State :=
  if s.chan.applied || !s.inMode [.run, .degraded, .service, .quiesced] then s
  else
    let restored := match s.md.restored with
      | some r => decide (1 ≤ r)
      | none => false
    let s := { s with chan := { s.chan with applied := true, vol := [] } }
    (List.range 32).foldl (fun s e => match engineOf s e with
      | some n => rebuildLe restored n e s
      | none => s) s

/- Frames. -/

/-- Payload limit of a kind (Table 13.9). -/
def kindLimit : Nat → Nat
  | 1 => 1984
  | 2 => 4096
  | 3 => 1984
  | _ => 0

/-- Module node ID as the engine that holds a link's logical engine knows it; the configured one without an engine. -/
def nodeIdAt (s : State) (e : Nat) : Nat :=
  match s.ceOf e with
  | some n => if s.lcs (.ce n) = .off then s.entry 0x8000 1 0 else (s.ce n).nodeId.toNat
  | none => s.entry 0x8000 1 0

/-- The checks of R358. -/
def frameOk (s : State) (l kind : Nat) (f : Frame) : Bool :=
  f.crcOk && f.version == 1 && f.kind.toNat == kind && decide (f.len ≤ kindLimit kind) &&
    f.dst.toNat == nodeIdAt s (l / 16)

/-- STATUS goes out again in IN_RESPONDED. -/
def statusAgain (n i : Nat) (x : Xe) (ep : Ep) (s : State) : State :=
  sendTracked i x.ep ep (statusFrame s n i x ep 1) (s.updVol i (fun v => { v with sent := [] }))

/-- Answer to a CMD, or to a REDRIVE for a CMD, whose exchange is open (Table 13.11). -/
def knownCmd (n i : Nat) (x : Xe) (ep : Ep) (l : Nat) (fixed : Bool) (f : Frame) (s : State) : State :=
  let s := sendAnswer n x.ep ep l fixed f (if (s.vol i).pendingAck.isSome then 1 else 0) 1 s
  if x.state = 3 then statusAgain n i x ep s else s

/-- Why a CMD is refused (R360), in the order of the rule. -/
def cmdRefusal (s : State) (ep : Ep) (free : Option Nat) (f : Frame) : Option Nat :=
  if free.isNone || s.commit.frozen || s.plant.budget == 0 then some 3
  else if s.lcs (.zone (Fin.ofNat 16 ep.zone)) ≠ .on then some 4
  else if ep.maxP < f.len ∨ 2 ^ ep.es < f.len + 64 then some 5
  else if !ep.en then some 6
  else none

/-- Do the blocks of an entry and of its slot take a write now (R325, R332)? What waits joins the queue. -/
def cmdOpen (n i z : Nat) (s : State) : Bool × State :=
  match entryOpen n i z s with
  | (ok, s) =>
    match askGrant (ceAcc n z) (lineBlock (slotPa i / 256)) s with
    | (ok', s) => (ok && ok', s)

/-- Slot and entry of an accepted CMD are written (R347, R360): false while a write waits. -/
def writeCmd (n i epN : Nat) (ep : Ep) (f : Frame) (s : State) : Bool × State :=
  match cmdOpen n i ep.zone s with
  | (false, s) => (false, s)
  | (true, s) =>
    let put := if f.payload.isEmpty then (true, s) else ceWr n ep.zone (slotPa i) f.payload s
    match put with
    | (false, s) => (false, s)
    | (true, s) =>
      putEntry n i ep.zone {
        key := f.key.toNat, state := 1, ep := epN, sid := ep.base ||| (f.route.toNat &&& ep.mask), plen := f.len
        pcrc := crc32c f.payload, tAcc := s.now } s

/-- A CMD at its home engine (R360). -/
def rxCmd (n : Nat) (epN : Nat) (ep : Ep) (l : Nat) (f : Frame) (s : State) : State :=
  if chanHolds s then discardFrame s
  else
    let (found, free, s) := findIn n ep.home epN f.key.toNat s
    if inDoubt s (8192 * ep.home + 8 * bucketOf epN f.key.toNat) then sendAnswer n epN ep l false f 7 1 s
    else match found with
      | some (i, x) => knownCmd n i x ep l false f { s with chan := { s.chan with dups := s.chan.dups + 1 } }
      | none =>
        match cmdRefusal s ep free f, free with
        | none, some i =>
          let s := (writeCmd n i epN ep f s).2
          s.updVol i (fun v => { usedUse := v.usedUse, pendingAck := some (l, f), cmdAt := s.tb.tod })
        | c, _ =>
          let c := c.getD 3
          let s := if c = 3 then s.updCe n (fun e => { e with busyCnt := satAdd 255 e.busyCnt 1 }) else s
          sendAnswer n epN ep l false f c 1 { s with chan := { s.chan with refused := s.chan.refused + 1 } }

/-- Is a sequence number a duplicate (R359)? -/
def seqSeen (x : Xe) (q : Nat) : Bool := x.recvSeq != noSeq && decide (q ≤ x.recvSeq)

/-- Sequence number that comes next in order. -/
def seqNext (x : Xe) : Nat := if x.recvSeq = noSeq then 0 else x.recvSeq + 1

/-- May the engine write into a buffer: always, but after Restore only into COMMIT memory (R367)? -/
def mayWrite (s : State) (i z zpa len : Nat) : Bool :=
  let inCommit := fun (a : Nat) => match zoneMem s z a 1 with
    | some (_, k) => k == 1
    | none => false
  !(s.vol i).restored || len == 0 || (inCommit zpa && inCommit (zpa + len - 1))

/-- Pieces of a DATA frame are written in turn (R359). -/
def putPieces (n z : Nat) (b : List Byte) : List (Nat × Nat × Nat) → State → LineAns × State
  | [], s => (.done, s)
  | (zpa, first, len) :: l, s =>
    match zoneWriteN n z zpa (slice b first len) s with
    | (.done, s) => putPieces n z b l s
    | r => r

/-- A DATA frame of an outbound exchange (R359, R361). -/
def rxData (n epN : Nat) (ep : Ep) (l : Nat) (f : Frame) (s : State) : State :=
  if !f.flags.getLsbD 0 then
    match findIn n ep.home epN f.key.toNat s with
    | (none, _, s) =>
      if inDoubt s (8192 * ep.home + 8 * bucketOf epN f.key.toNat) then sendAnswer n epN ep l false f 7 2 s
      else sendAnswer n epN ep l false f 8 2 s
    | (some _, _, s) => discardFrame s
  else
    let (r, s) := findOut n ep.home f.key.toNat s
    if inDoubt s (f.key.toNat % 2 ^ 18) then sendAnswer n epN ep l false f 7 2 s
    else match r with
      | none => sendAnswer n epN ep l false f 8 2 s
      | some (i, x) =>
        if x.state = 10 ∨ x.state = 14 ∨ abandoned x then sendAnswer n epN ep l false f 0 2 s
        else if x.state ≠ 9 then discardFrame s
        else if seqSeen x f.seq.toNat then
          sendAnswer n epN ep l false f 0 2 { s with chan := { s.chan with dups := s.chan.dups + 1 } }
        else if f.seq.toNat ≠ seqNext x then discardFrame s
        else match program n ep.zone x.desc s with
          | (none, s) => failOut n i x ep 6 s
          | (some (_, d), s) =>
            let ps := inPieces d (s.vol i).dataIn 0 f.len
            let skip := ps.any (fun p => !mayWrite s i ep.zone p.1 p.2.2)
            let (ans, s) := if skip then (LineAns.done, countUnwritten i s) else putPieces n ep.zone f.payload ps s
            match ans with
            | .waits => s
            | .denied => failOut n i x ep 7 s
            | .fenced => failOut n i x ep 7 s
            | .done =>
              match entryOpen n i ep.zone s with
              | (false, s) => s
              | (true, s) =>
                let s := (putEntry n i ep.zone { x with recvSeq := f.seq.toNat } s).2
                let k := (ps.map (fun p => p.2.2)).sum
                let s := s.updVol i (fun v => { v with dataIn := v.dataIn + (if skip then 0 else k) })
                sendAnswer n epN ep l false f 0 2 s

/-- STATUS of an accepted outbound exchange: payload, completion, entry, then ACCEPT 0 (Table 13.12). -/
def closeOut (n i : Nat) (x : Xe) (ep : Ep) (l : Nat) (f : Frame) (s : State) : State :=
  match entryOpen n i ep.zone s with
  | (false, s) => s
  | (true, s) =>
    match readCpd n ep.zone x.desc s with
    | (none, s) => failOut n i x ep 6 s
    | (some d, s) =>
      let skip := !mayWrite s i ep.zone d.status f.len
      let (ans, s) := if skip then (LineAns.done, countUnwritten i s) else zoneWriteN n ep.zone d.status f.payload s
      if ans = .waits then s
      else
        let code := if ans ≠ .done then 7 else if f.flags.getLsbD 2 then 1 else 0
        let s := complete n i ep.zone x 1 code f.code.toNat f.len s
        let s := (putEntry n i ep.zone { x with state := 14, status := f.code.toNat, recvSeq := f.seq.toNat } s).2
        sendAnswer n x.ep ep l false f 0 3 (s.updVol i (fun v => { v with sent := [] }))

/-- A STATUS frame (R361), or the originator's STATUS that abandons an inbound exchange (Table 13.9). -/
def rxStatus (n epN : Nat) (ep : Ep) (l : Nat) (f : Frame) (s : State) : State :=
  if !f.flags.getLsbD 0 then
    let (found, _, s) := findIn n ep.home epN f.key.toNat s
    if inDoubt s (8192 * ep.home + 8 * bucketOf epN f.key.toNat) then sendAnswer n epN ep l false f 7 3 s
    else match found with
      | none => sendAnswer n epN ep l false f 8 3 s
      | some (i, x) =>
        if !f.flags.getLsbD 2 || f.code != 0xFFFF || (s.vol i).pendingAck.isSome then discardFrame s
        else if x.state = 14 then sendAnswer n epN ep l false f 0 3 s
        else match entryOpen n i ep.zone s with
          | (false, s) => s
          | (true, s) =>
            let s := (putEntry n i ep.zone { x with state := 14 } s).2
            sendAnswer n epN ep l false f 0 3 (s.updVol i (fun v => { v with sent := [], waiting := false }))
  else
    let (r, s) := findOut n ep.home f.key.toNat s
    if inDoubt s (f.key.toNat % 2 ^ 18) then sendAnswer n epN ep l false f 7 3 s
    else match r with
      | none => sendAnswer n epN ep l false f 8 3 s
      | some (i, x) =>
        if x.state = 10 ∨ x.state = 14 then sendAnswer n epN ep l false f 0 3 s
        else if abandoned x then
          match entryOpen n i ep.zone s with
          | (false, s) => s
          | (true, s) =>
            let s := (putEntry n i ep.zone { x with state := 14, status := f.code.toNat } s).2
            sendAnswer n epN ep l false f 0 3 (s.updVol i (fun v => { v with sent := [] }))
        else if x.state ≠ 9 then discardFrame s
        else if seqSeen x f.seq.toNat then sendAnswer n epN ep l false f 0 3 s
        else if f.seq.toNat ≠ seqNext x then discardFrame s
        else closeOut n i x ep l f s

/-- An inbound exchange is answered for its STATUS: completion where one is requested, then LINGER (Table 13.11). -/
def closeIn (n i : Nat) (x : Xe) (ep : Ep) (s : State) : State :=
  match entryOpen n i ep.zone s with
  | (false, s) => s
  | (true, s) =>
    let s := complete n i ep.zone x 2 0 x.status x.plen s
    ((putEntry n i ep.zone { x with state := 14 } s).2).updVol i (fun v => { v with sent := [] })

/-- An outbound exchange leaves its open states with a completion. -/
def endOut (n i : Nat) (x : Xe) (ep : Ep) (state code status : Nat) (s : State) : State :=
  match entryOpen n i ep.zone s with
  | (false, s) => s
  | (true, s) =>
    let s := complete n i ep.zone x 1 code status 0 s
    ((putEntry n i ep.zone { x with state := state, status := status } s).2).updVol i (fun v => { v with sent := [] })

/-- Is a frame of an exchange unanswered? -/
def awaits (s : State) (i kind seq : Nat) : Bool :=
  (s.vol i).sent.any (fun o => o.frame.kind.toNat == kind && o.frame.seq.toNat == seq)

/-- An ACCEPT (R360, R361): one that answers nothing is ignored, and none is ever answered (DEDUCED). -/
def rxAccept (n epN : Nat) (ep : Ep) (f : Frame) (s : State) : State :=
  let kind := f.route.toNat % 16
  let seq := f.seq.toNat
  let code := f.code.toNat
  let fresh := fun (i : Nat) (s : State) => s.updVol i (fun v => { v with redrives := 0 })
  if !f.flags.getLsbD 0 then
    match findIn n ep.home epN f.key.toNat s with
    | (none, _, s) => s
    | (some (i, x), _, s) =>
      if x.state ≠ 3 ∨ kind ≠ 3 ∨ !awaits s i kind seq ∨ inDoubt s i then s
      else
        let s := fresh i s
        if code = 0 ∨ code = 8 then closeIn n i x ep s
        else if code = 2 then resend i x.ep ep kind seq s
        else s
  else
    match findOut n ep.home f.key.toNat s with
    | (none, s) => s
    | (some (i, x), s) =>
      if !awaits s i kind seq ∨ inDoubt s i then s
      else
        let s := fresh i s
        if code = 2 then resend i x.ep ep kind seq s
        else if code = 7 then endOut n i x ep 10 2 0 s
        else if kind = 3 then if code = 0 ∨ code = 8 then endOut n i x ep 14 5 0 s else s
        else if kind = 1 ∧ x.state = 8 then
          if code = 0 then
            match entryOpen n i ep.zone s with
            | (false, s) => s
            | (true, s) =>
              let x := { x with state := 9 }
              pump n i x ep (answered i kind seq (putEntry n i ep.zone x s).2)
          else if 3 ≤ code ∧ code ≤ 6 then endOut n i x ep 14 3 code s
          else s
        else if code = 0 then pump n i x ep (answered i kind seq s)
        else s

/-- A REDRIVE (R360 to R364, R376): answered on the path it came in on. -/
def rxRedrive (n epN : Nat) (ep : Ep) (l : Nat) (f : Frame) (s : State) : State :=
  let kind := f.route.toNat % 16
  let ans := fun (code : Nat) (s : State) => sendAnswer n epN ep l true f code kind s
  if s.inMode [.holdup] then discardFrame s
  else if !f.flags.getLsbD 0 then
    let (found, _, s) := findIn n ep.home epN f.key.toNat s
    if inDoubt s (8192 * ep.home + 8 * bucketOf epN f.key.toNat) then ans 7 s
    else match found with
      | none => ans (if kind = 1 then 2 else 8) s
      | some (i, x) =>
        if kind = 1 then knownCmd n i x ep l true f s
        else if x.state = 14 then ans 0 s
        else ans 2 s
  else
    let (r, s) := findOut n ep.home f.key.toNat s
    if inDoubt s (f.key.toNat % 2 ^ 18) then ans 7 s
    else match r with
      | none => ans (if kind = 1 then 2 else 8) s
      | some (_, x) =>
        if x.state = 10 ∨ x.state = 14 ∨ abandoned x ∨ seqSeen x f.seq.toNat then ans 0 s else ans 2 s

/-- A frame at its home engine n of endpoint epN. -/
def homeFrame (n epN : Nat) (ep : Ep) (l : Nat) (f : Frame) (s : State) : State :=
  let s := applyOnce s
  match f.kind.toNat with
  | 1 => rxCmd n epN ep l f s
  | 2 => rxData n epN ep l f s
  | 3 => rxStatus n epN ep l f s
  | 4 => rxAccept n epN ep f s
  | 5 => rxRedrive n epN ep l f s
  | _ => s

/-- Endpoint of a frame that came in on link l, as the link's own logical engine finds it (R346, R354, R355). -/
def frameEp (l : Nat) (f : Frame) (s : State) : Option (Nat × Ep) × State :=
  match nodeEp (l / 16) f.src.toNat s with
  | (none, s) => (none, s)
  | (some k, s) =>
    match endpoint (l / 16) k s with
    | (none, s) => (none, s)
    | (some ep, s) => if ep.paths.any (fun p => p.2 == l) then (some (k, ep), s) else (none, s)

/-- What the PCS and the RS-FEC of a link counted up to a frame (R392, Table 14.4). -/
def countFec (l : Nat) (f : Frame) (s : State) : State :=
  s.updLink l (fun k => { k with
    fecCorr := satAdd 0xFFFFFFFF k.fecCorr f.fecCorr, fecUncorr := satAdd 0xFFFF k.fecUncorr f.fecUncorr
    berCnt := satAdd 0xFFFF k.berCnt f.badSync })

/-- A frame of the given kind arrives on a link (R348, R358, R376, R377, R381, R382, R393). -/
def receive (kind : Nat) (link : Fin 512) (f : Frame) (s : State) : State :=
  let l := link.val
  let e := l / 16
  let s := if linkUp s l then countFec l f s else s
  if !linkUp s l then s
  else if !f.pcsOk ∨ f.len ≠ f.payload.length then s.updLink l (fun k => { k with crcErr := satAdd 0xFFFFFFFF k.crcErr 1 })
  else if s.inMode [.provision] then discardFrame s
  else if (s.le e).gap ∧ f.kind ≠ 6 then discardFrame (s.updLink l (fun k => { k with gapDisc := satAdd 0xFFFF k.gapDisc 1 }))
  else if !frameOk s l kind f then discardFrame s
  else
    let s := s.updLink l (fun k => { k with peer := f.src, live := true })
    if kind = 6 then s
    else if s.inMode [.restore] then discardFrame s
    else match engineOf s e with
      | none => discardFrame s
      | some n =>
        match frameEp l f s with
        | (none, s) => discardFrame s
        | (some (epN, ep), s) =>
          if ep.home ≠ e then { s with chan := { s.chan with fwd := s.chan.fwd ++ [(l, ep.home, f)] } }
          else homeFrame n epN ep l f s

/-- CMD_FRAME (R360). -/
def execCmdFrame (link : Fin 512) (f : Frame) (s : State) : Host.Outcome State Fault Refusal := .next (engRun (link.val / 16) (receive 1 link f) s)

/-- DATA_FRAME (R361). -/
def execDataFrame (link : Fin 512) (f : Frame) (s : State) : Host.Outcome State Fault Refusal := .next (engRun (link.val / 16) (receive 2 link f) s)

/-- STATUS_FRAME (R361). -/
def execStatusFrame (link : Fin 512) (f : Frame) (s : State) : Host.Outcome State Fault Refusal := .next (engRun (link.val / 16) (receive 3 link f) s)

/-- ACCEPT_FRAME (R360, R361). -/
def execAcceptFrame (link : Fin 512) (f : Frame) (s : State) : Host.Outcome State Fault Refusal := .next (engRun (link.val / 16) (receive 4 link f) s)

/-- REDRIVE_FRAME (R364). -/
def execRedriveFrame (link : Fin 512) (f : Frame) (s : State) : Host.Outcome State Fault Refusal := .next (engRun (link.val / 16) (receive 5 link f) s)

/-- IDLE_FRAME (R382): the link group takes the peer's node and restarts liveness; the frame goes no further. -/
def execIdleFrame (link : Fin 512) (f : Frame) (s : State) : Host.Outcome State Fault Refusal := .next (engRun (link.val / 16) (receive 6 link f) s)

/-- The home engine to which a forwarded frame is on its way, when no earlier frame of its channel, from the same engine to
the same home, is still on the way (R16). -/
def fwdTurn (l : Nat) (f : Frame) (s : State) : Option Nat :=
  match s.chan.fwd.find? (fun e => e.1 == l && e.2.2 == f) with
  | none => none
  | some x =>
    if (s.chan.fwd.find? (fun e => e.1 / 16 == l / 16 && e.2.1 == x.2.1)) = some x then some x.2.1 else none

/-- A forwarded frame reaches the home engine of its endpoint (R346, R348). -/
def forward (l home : Nat) (f : Frame) (s : State) : State :=
  let s := { s with chan := { s.chan with fwd := s.chan.fwd.erase (l, home, f) } }
  match frameEp l f s with
  | (none, s) => discardFrame s
  | (some (epN, ep), s) =>
    match engineOf s ep.home with
    | none => discardFrame s
    | some n =>
      match endpoint ep.home epN s with
      | (none, s) => discardFrame s
      | (some ep, s) => homeFrame n epN ep l f s

/-- FRAME_FORWARD (R16, R346, R348): a frame on its way between engines reaches the home engine of its endpoint, in the order
of its channel. -/
def execFrameForward (link : Fin 512) (f : Frame) (s : State) : Host.Outcome State Fault Refusal :=
  .next (match fwdTurn link f s with
    | none => s
    | some home => engRun home (forward link home f) s)

/-- Entry i with its endpoint, as the engine that holds its partition reads it. -/
def openEntry (i : Nat) (s : State) : Option (Nat × Xe × Ep) × State :=
  match engineOf s (entryLe i) with
  | none => (none, s)
  | some n =>
    match readEntry n i s with
    | (none, s) => (none, s)
    | (some x, s) =>
      match endpoint (entryLe i) x.ep s with
      | (none, s) => (none, s)
      | (some ep, s) => (some (n, x, ep), s)

/-- CE_COMMIT_WRITE_ACK (R332): the writes of a CMD are acknowledged, those that waited for a grant being tried again,
and ACCEPT 0 leaves. -/
def execCeCommitWriteAck (entry : Nat) (s : State) : Host.Outcome State Fault Refusal :=
  .next (engRun (entryLe entry) (fun s => match (s.vol entry).pendingAck, engineOf s (entryLe entry) with
    | some (l, f), some n =>
      match nodeEp (entryLe entry) f.src.toNat s with
      | (none, s) => s
      | (some epN, s) =>
        match endpoint (entryLe entry) epN s with
        | (none, s) => s
        | (some ep, s) =>
          let r := readEntry n entry s
          let q := if r.1.isSome then (true, r.2) else writeCmd n entry epN ep f r.2
          if q.1 then
            sendAnswer n epN ep l false f 0 1
              (acceptWait (s.vol entry).cmdAt (q.2.updVol entry (fun v => { v with pendingAck := none })))
          else q.2
    | _, _ => s) s)

/- Channel programs. -/

/-- An IOA instruction's target acknowledges with the value for Gd (R397). -/
def ioaReply (pu : Nat) (th : Bool) (v : Word) (s : State) : State :=
  s.updThr pu th (fun t => match t.wait with
    | .ioa d none => { t with wait := .ioa d (some v) }
    | _ => t)

/-- The value that Gd receives on a refusal of XSTART (R372). -/
def xRefusal (rr : Nat) : Word := 0xFFFF000000000000 ||| BitVec.ofNat 64 rr

/-- The request at the front of an engine's XSTART queue leaves it, answered. -/
def xAnswer (e : Nat) (r : XReq) (v : Word) (s : State) : State :=
  ioaReply r.pu r.th v (s.updLe e (fun x => { x with xq := x.xq.drop 1 }))

/-- A free outbound entry of partition e: not in doubt, and not used within T_linger (R350). There are 2,048, the limit of
Table 13.21 (R378). -/
def freeOut (s : State) (e : Nat) : Option Nat :=
  let used := openEntries s e
  firstFrom 2048 (6144 + 8192 * e) (fun i =>
    !used.contains i && !inDoubt s i &&
      ((s.vol i).freeAt == 0 || decide (msUnits (s.entry 0x8001 3 1) + (s.vol i).freeAt ≤ s.now)))

/-- The entry of a CMD program whose payload b stands in slot i: its key and its fields (R361, R372). -/
def cmdXe (n i : Nat) (r : XReq) (d : Cpd) (b : List Byte) (s : State) : Xe :=
  let use := ((s.vol i).usedUse + 1) % 16384
  let key := 2 ^ 48 * (s.ce n).nodeId.toNat + 2 ^ 32 * beAt (s.rd 0x30A0000 2) 0 2 + 2 ^ 18 * use + i
  { key := key, state := 8, flags := 3 + 8 * d.tc.toNat, ep := r.ep, use := use, sid := d.route % 4096, sendSeq := 1
    recvSeq := noSeq, plen := d.len, pcrc := crc32c b, desc := r.desc, rcb := d.rcb, tag := d.tag, tAcc := s.now
    tStat := if d.tStat = 0 then 1000 else d.tStat }

/-- The payload and the entry of a CMD program are written, the request acknowledged with the key, and CMD sent. -/
def cmdStart (n e i : Nat) (r : XReq) (ep : Ep) (d : Cpd) (b : List Byte) (s : State) : State :=
  let put := if b.isEmpty then (true, s) else ceWr n r.zone (slotPa i) b s
  if !put.1 then put.2
  else
    let x := cmdXe n i r d b put.2
    let s := (putEntry n i r.zone x put.2).2
    let s := xAnswer e r (BitVec.ofNat 64 x.key) (s.updVol i (fun _ => { usedUse := x.use, next := 1 }))
    sendTracked i r.ep ep (cmdOf s n i x ep) s

/-- A CMD program (R361, R372): allocation, payload, entry, acknowledgement with the key, CMD. -/
def xCmd (n e : Nat) (r : XReq) (ep : Ep) (d : Cpd) (s : State) : State :=
  match freeOut s e with
  | none => xAnswer e r (xRefusal 3) s
  | some i =>
    match zoneReadN 0 n r.zone d.buf d.len s with
    | (none, s) => xAnswer e r (xRefusal 4) s
    | (some b, s) =>
      match entryOpen n i r.zone s with
      | (false, s) => s
      | (true, s) => cmdStart n e i r ep d b s

/-- A RESP program (R360, R365, R372). -/
def xResp (n e : Nat) (r : XReq) (ep : Ep) (d : Cpd) (s : State) : State :=
  let (found, _, s) := findIn n e r.ep d.key s
  match found with
  | none => xAnswer e r (xRefusal 5) s
  | some (i, x) =>
    if (s.vol i).pendingAck.isSome then xAnswer e r (xRefusal 5) s
    else if x.state = 3 ∨ x.state = 14 then xAnswer e r (xRefusal 6) s
    else match zoneReadN 0 n r.zone d.buf d.len s with
      | (none, s) => xAnswer e r (xRefusal 4) s
      | (some b, s) =>
        match entryOpen n i r.zone s with
        | (false, s) => s
        | (true, s) =>
          let put := if b.isEmpty then (true, s) else ceWr n r.zone (slotPa i) b s
          match put with
          | (false, s) => s
          | (true, s) =>
            let x := { x with
              state := 3, flags := (if d.rcb = 0 then 0 else 2) + 8 * d.tc.toNat, plen := d.len, pcrc := crc32c b
              status := d.route, rcb := d.rcb, tag := d.tag }
            let s := (putEntry n i r.zone x s).2
            let s := xAnswer e r (BitVec.ofNat 64 x.key) (s.updVol i (fun v => { v with waiting := false }))
            sendTracked i r.ep ep (statusFrame s n i x ep 0) s

/-- The engine takes the XSTART request at the front of its queue (R372, Table 13.18), where its program is of the
wanted kind or is refused. -/
def serveXq (want : Nat) (e : Nat) (s : State) : State :=
  match engineOf s e, (s.le e).xq with
  | some n, r :: _ =>
    let s := applyOnce s
    match endpoint e r.ep s with
    | (none, s) => xAnswer e r (xRefusal 1) s
    | (some ep, s) =>
      if ep.zone ≠ r.zone ∨ ep.home ≠ e then xAnswer e r (xRefusal 1) s
      else if !ep.en then xAnswer e r (xRefusal 2) s
      else if s.lcs (.zone (Fin.ofNat 16 r.zone)) ≠ .on then xAnswer e r (xRefusal 8) s
      else match program n r.zone r.desc s with
        | (none, s) => xAnswer e r (xRefusal 4) s
        | (some (d, _), s) =>
          if d.kind ≠ want then s
          else if d.kind = 1 then xCmd n e r ep d s
          else xResp n e r ep d s
  | _, _ => s

/-- XSTART_CMD (R361). -/
def execXstartCmd (le : Fin 32) (s : State) : Host.Outcome State Fault Refusal := .next (engRun le (serveXq 1 le) s)

/-- XSTART_RESP (R360). -/
def execXstartResp (le : Fin 32) (s : State) : Host.Outcome State Fault Refusal := .next (engRun le (serveXq 2 le) s)

/- Timers. -/

/-- T_ACC_EXPIRY (R360, R361, R364): REDRIVE for the oldest unanswered frame; not in M6 and M7 (R38). -/
def execTAccExpiry (entry : Nat) (s : State) : Host.Outcome State Fault Refusal :=
  .next (if !chanWorks s then s
    else engRun (entryLe entry) (fun s => match openEntry entry (applyOnce s) with
      | (some (n, x, ep), s) =>
        if (s.vol entry).sent.isEmpty then pump n entry x ep s else nudge n entry x.ep ep s
      | (none, s) => s) s)

/-- T_STAT_EXPIRY (R361): three re-drives without an answer, and the exchange is in doubt. -/
def execTStatExpiry (entry : Nat) (s : State) : Host.Outcome State Fault Refusal :=
  .next (engRun (entryLe entry) (fun s => match openEntry entry s with
    | (some (n, x, ep), s) =>
      if (x.state = 8 ∨ x.state = 9) ∧ 3 ≤ (s.vol entry).redrives then endOut n entry x ep 10 2 0 s else s
    | (none, s) => s) s)

/-- T_LINGER_EXPIRY (R353). -/
def execTLingerExpiry (entry : Nat) (s : State) : Host.Outcome State Fault Refusal :=
  .next (engRun (entryLe entry) (fun s => match openEntry entry s with
    | (some (n, x, ep), s) => if x.state = 14 then freeEntry n entry ep.zone x.tChg s else s
    | (none, s) => s) s)

/-- T_ORPHAN_EXPIRY (R353). -/
def execTOrphanExpiry (entry : Nat) (s : State) : Host.Outcome State Fault Refusal :=
  .next (engRun (entryLe entry) (fun s => match openEntry entry s with
    | (some (n, x, ep), s) => if x.state = 10 then freeEntry n entry ep.zone x.tChg s else s
    | (none, s) => s) s)

/-- Frames that went out on a link whose path is DOWN are asked for on another path (R360, R361). -/
def pathDown (l : Nat) (s : State) : State :=
  if !chanWorks s then s
  else (s.chan.vol.filter (fun e => e.2.sent.any (fun f => f.link == l))).foldl (fun s e =>
    engRun (entryLe e.1) (fun s => match openEntry e.1 s with
      | (some (n, x, ep), s) => redrive n e.1 x.ep ep s
      | (none, s) => s) s) s

/-- T_LIVE_EXPIRY (R355). -/
def execTLiveExpiry (link : Fin 512) (s : State) : Host.Outcome State Fault Refusal :=
  .next (if (s.link link).live then pathDown link (s.updLink link (fun k => { k with live := false })) else s)

/-- IDLE_INTERVAL_EXPIRY (R382, R377, R393): an IDLE frame on an ON link, with its connection, in M2 to M7. -/
def execIdleIntervalExpiry (link : Fin 512) (s : State) : Host.Outcome State Fault Refusal :=
  .next (if linkUp s link && !(s.link link).idleOnly &&
      s.inMode [.restore, .run, .degraded, .service, .quiesced, .holdup] then
      emit link {
        version := 1, kind := 6, flags := 0, len := 0, src := BitVec.ofNat 16 (nodeIdAt s (link / 16))
        dst := (s.link link).peer, key := 0, seq := 0, route := 0, code := 0, payload := [], crcOk := true, pcsOk := true } s
    else s)

/-- Delivery of an entry that has been accepted. -/
def deliverEntry (i : Nat) (s : State) : State :=
  match openEntry i s with
  | (some (n, x, ep), s) => if x.state = 1 ∧ (s.vol i).pendingAck.isNone then deliver n i x ep s else s
  | (none, s) => s

/-- RING_POLL (R370): the engine reads CONS or the RCB again for an entry that waits. -/
def execRingPoll (entry : Nat) (s : State) : Host.Outcome State Fault Refusal :=
  .next (if (s.vol entry).waiting && chanWorks s then engRun (entryLe entry) (deliverEntry entry) s else s)

/-- Delivery of an entry in its zone's slot, unless it waits for its ring. -/
def slotEntry (z i : Nat) (s : State) : State :=
  match openEntry i s with
  | (some (_, x, ep), s) => if ep.zone = z ∧ x.state = 1 ∧ !(s.vol i).waiting then deliverEntry i s else s
  | (none, s) => s

/-- CE_ZONE_SLOT (R432): the next zone's slot; its deliveries that do not wait for a ring are made. -/
def execCeZoneSlot (ce : Fin 36) (s : State) : Host.Outcome State Fault Refusal :=
  .next (let e := (s.ce ce).le.toNat
    if 32 ≤ e ∨ engineOf s e ≠ some ce.val then s
    else
      let z := ((s.ce ce).slot + 1) % s.zc
      let s := orWait applyOnce (s.updCe ce (fun c => { c with slot := z }))
      if !chanWorks s || !s.chan.applied then s
      else (openEntries s e).foldl (fun s i => engRun (entryLe i) (slotEntry z i) s) s)

/- Zone reset and service. -/

/-- One open exchange of a zone that stops (Table 13.20). -/
def quiesceEntry (z i : Nat) (s : State) : State :=
  match openEntry i s with
  | (none, s) => s
  | (some (n, x, ep), s) =>
    if ep.zone ≠ z ∨ (s.vol i).pendingAck.isSome then s
    else
      let again := fun (s : State) =>
        ((putEntry n i z { x with state := 1, flags := x.flags - 4 * (x.flags / 4 % 2) + 4 } s).2).updVol i
          (fun v => { v with waiting := false })
      match x.state with
      | 1 => again s
      | 2 => again s
      | 8 => if (s.vol i).cmdSent then abandonOut n i x ep s else freeEntry n i z s.now s
      | 9 => abandonOut n i x ep s
      | _ => s

/-- CHANNEL_QUIESCE (R375): the engine's part of the zone reset sequence, and its acknowledgement. -/
def execChannelQuiesce (z : Fin 16) (le : Fin 32) (s : State) : Host.Outcome State Fault Refusal :=
  .next (engRun le (fun s => if !(s.zone z).chanTodo.contains le.val then s
    else
      let mine := (s.le le).xq.filter (fun r => r.zone == z.val)
      let s := mine.foldl (fun (s : State) r => ioaReply r.pu r.th (xRefusal 8) s)
        (s.updLe le (fun x => { x with xq := x.xq.filter (fun r => r.zone != z.val) }))
      let s := (openEntries s le).foldl (fun s i => quiesceEntry z i s) s
      s.updZone z (fun x => { x with chanTodo := x.chanTodo.filter (· != le.val) })) s)

/-- The held inbound exchanges of a zone end with STATUS E 0xFFFE (Table 13.20). -/
def abandonHeld (z : Nat) (s : State) : State :=
  (List.range 32).foldl (fun s e => (openEntries s e).foldl (fun s i =>
    match openEntry i s with
    | (none, s) => s
    | (some (n, x, ep), s) =>
      if ep.zone ≠ z ∨ 2 < x.state ∨ (s.vol i).pendingAck.isSome then s
      else
        let x := { x with state := 3, flags := 16, plen := 0, status := 0xFFFE, pcrc := crc32c [], rcb := 0 }
        let s := (putEntry n i z x s).2
        sendTracked i x.ep ep (statusFrame s n i x ep 0) (s.updVol i (fun v => { v with waiting := false }))) s) s

/-- Every in-doubt mark is cleared in the header (R369). -/
def clearDoubt (s : State) : State :=
  let l := s.mem.filter (fun c => decide (0x30A0400 ≤ c.1) && decide (c.1 < 0x30A3000))
  l.foldl (fun s c => (giveGrant (c.1 / 262144) s).wrThrough c.1 [0]) s

end Sys2Proof.Machine
end

