-- ==== Sys2Proof/Machine/Links.lean ====
section
/-! DEFINITION. Channel links (chapter 14): training, lock, connection and clock events. -/

namespace Sys2Proof.Machine

/-- Has link n its reference clock (R384)? -/
def linkClock (s : State) (n : Nat) : Bool := !s.pins.sdsLost.getLsbD (n / 64)

/-- LINK_TRAINING_COMPLETE (R386, R387): training ends with success, or is skipped with TRAIN at 0; lock follows and the
link enters ON, in the second window at 10.3125 Gbit/s. -/
def execLinkTrainingComplete (link : Fin 512) (pre main post : BitVec 6) (s : State) : Host.Outcome State Fault Refusal :=
  .next (if s.lcs (.link link) ≠ .starting ∨ !linkClock s link ∨ s.inMode [.checkstop] then s
    else
      let k := s.link link
      let train := bit 4 k.used
      let second := k.second
      let rate := k.curRate || second
      let s := s.updLink link (fun k => { k with
        trained := train, blockLock := true, amLock := !rate, curRate := rate, hiBer := false
        pre := if train then pre else k.pre, main := if train then main else k.main
        post := if train then post else k.post
        fallbacks := if second then satAdd 255 k.fallbacks 1 else k.fallbacks })
      let s := if second then latch (.lg ⟨link.val / 64, by omega⟩) 11 (link.val % 64) 0 1 s else s
      after (lcGo (.link link) .on 1 s))

/-- A link's training ends without success: FENCED with TRAIN_FAIL (R386). -/
def linkTrainFail (link : Fin 512) (s : State) : State := after (faultFn (.link link) 10 (link.val % 64) 0 3 s)

/-- TRAINING_TIMER_EXPIRY (R386, R387): the first window with FB at 1 and RATE at 0 is followed by the second. -/
def execTrainingTimerExpiry (link : Fin 512) (s : State) : Host.Outcome State Fault Refusal :=
  .next (let k := s.link link
    if s.lcs (.link link) ≠ .starting ∨ !bit 4 k.used ∨ s.inMode [.checkstop] then s
    else if bit 2 k.used ∧ !bit 0 k.used ∧ !k.second then s.updLink link (fun k => { k with second := true })
    else linkTrainFail link s)

/-- Is the link connected: ON with its locks and without hi_ber (R390), and not in M8, where links are off (R37)? -/
def linkConnected (s : State) (n : Fin 512) : Bool :=
  let k := s.link n
  !s.inMode [.checkstop] && s.lcs (.link n) == .on && k.blockLock && (k.amLock || k.curRate) && !k.hiBer

/-- Loss of connection (R390): counted, the path is DOWN (R355, R360), and with AUTO at 1 the link group issues DISABLE
(R391). -/
def linkLost (n : Fin 512) (f : Link → Link) (s : State) : State :=
  let was := linkConnected s n
  let s := s.updLink n f
  if !was then s
  else
    let s := s.updLink n (fun k => { k with lockLoss := satAdd 255 k.lockLoss 1 })
    pathDown n (if bit 3 (s.link n).cfg then lcCommand (.link n) .disable 0 s else s)

/-- LINK_LOCK_LOSS (R390): block lock or alignment-marker lock. -/
def execLinkLockLoss (link : Fin 512) (am : Bool) (s : State) : Host.Outcome State Fault Refusal :=
  .next (linkLost link (fun k => if am then { k with amLock := false } else { k with blockLock := false, amLock := false }) s)

/-- HI_BER_TIMEOUT (R390). -/
def execHiBerTimeout (link : Fin 512) (s : State) : Host.Outcome State Fault Refusal :=
  .next (linkLost link (fun k => { k with hiBer := true }) s)

/-- LINK_LOCK_REGAINED (R390): an ON link resumes with the coefficients it has. -/
def execLinkLockRegained (link : Fin 512) (s : State) : Host.Outcome State Fault Refusal :=
  .next (if s.lcs (.link link) = .on ∧ linkClock s link ∧ !s.inMode [.checkstop] then
      s.updLink link (fun k => { k with blockLock := true, amLock := !k.curRate, hiBer := false })
    else s)

/-- SIGNAL_ENERGY_CHANGE (Table 14.3): SIG_DET. -/
def execSignalEnergyChange (link : Fin 512) (present : Bool) (s : State) : Host.Outcome State Fault Refusal :=
  .next (s.updLink link (fun k => { k with sigDet := present }))

/-- SIGNAL_DETECT_QUALIFIED (R388, R391): with AUTO at 1 an OFF link receives ENABLE, not in M7 or M8. -/
def execSignalDetectQualified (link : Fin 512) (s : State) : Host.Outcome State Fault Refusal :=
  .next (if s.mainOn ∧ s.lcs (.link link) = .off ∧ bit 3 (s.link link).cfg ∧ (s.link link).sigDet ∧ linkClock s link
      ∧ !s.inMode [.holdup, .checkstop] then lcCommand (.link link) .enable 0 s
    else s)

/-- SDSCLK_LOSS (R384): every link of the group loses block lock, and the link group records it. -/
def execSdsclkLoss (g : Fin 8) (s : State) : Host.Outcome State Fault Refusal :=
  .next (if s.pins.sdsLost.getLsbD g then s
    else
      let s := { s with pins := { s.pins with sdsLost := s.pins.sdsLost ||| BitVec.twoPow 8 g } }
      if !s.mainOn then s
      else
        let s := s.updIsland (.lg g) (fun x => { x with fltFence := true })
        let s := (List.range 64).foldl (fun (s : State) i =>
          linkLost (Fin.ofNat 512 (64 * g.val + i)) (fun k => { k with blockLock := false, amLock := false }) s) s
        closeGates (latch (.lg g) 8 0 0 2 s))

/-- SDSCLK_RETURN (R384): links of the group may start again; the group's island has its clock. -/
def execSdsclkReturn (g : Fin 8) (s : State) : Host.Outcome State Fault Refusal :=
  .next ({ s with pins := { s.pins with sdsLost := s.pins.sdsLost &&& ~~~(BitVec.twoPow 8 g) } }.updIsland (.lg g)
    (fun x => { x with fltFence := false }))

/-- Writable bits of LINKnnn.CFG (Table 14.2). -/
def linkCfgMask : Word := 0xFFFFC0FC1F

/-- LINKnnn.STAT (Table 14.3). -/
def linkStat (k : Link) : Word :=
  mkw [(48, k.peer.toNat), (24, k.post.toNat), (18, k.main.toNat), (12, k.pre.toNat), (8, k.live.toNat),
       (7, k.idleOnly.toNat), (6, k.curRate.toNat), (5, k.hiBer.toNat), (4, k.amLock.toNat), (3, k.blockLock.toNat),
       (2, k.trained.toNat), (1, k.sigDet.toNat)]

/-- LINKnnn.ERR0 (Table 14.4). -/
def linkErr0 (k : Link) : Word := mkw [(32, k.fecCorr), (16, k.fecUncorr), (0, k.berCnt)]

/-- LINKnnn.ERR1 (Table 14.5). -/
def linkErr1 (k : Link) : Word := mkw [(32, k.crcErr), (16, k.gapDisc), (8, k.lockLoss), (0, k.fallbacks)]

end Sys2Proof.Machine
end

