-- ==== Sys2Proof/Machine/Registers.lean ====
section
/-! DEFINITION. The memory-mapped registers (R5 to R10, chapter 19): decoding an address, the checks that a request
meets, and what a read or a write of each register does. -/

namespace Sys2Proof.Machine

/-- Register blocks (Table 19.2). -/
inductive RegBlk where
  | unit (b : Blk)
  | zmz (z : Fin 16)
  | dwin
  | link (n : Fin 512)
deriving DecidableEq, Repr

/-- Block of a number; none: unassigned. -/
def regBlk (n : Nat) : Option RegBlk :=
  match numBlk n with
  | some b => some (.unit b)
  | none =>
    if 0xF0 ≤ n ∧ n < 0x100 then some (.zmz (Fin.ofNat 16 n))
    else if n = 0x104 then some .dwin
    else if 0x200 ≤ n ∧ n < 0x400 then some (.link (Fin.ofNat 512 n))
    else none

/-- KIND and INST of unit.ID (Tables 19.2 and 19.6). -/
def regKind : RegBlk → Nat × Nat
  | .unit b => (blkKind b, blkInst b)
  | .zmz z => (0x12, z.val)
  | .dwin => (0x13, 0)
  | .link n => (0x11, n.val)

/-- Island of a block (Table 19.2). -/
def regIsland : RegBlk → Island
  | .unit (.pu n) => .pu n
  | .unit (.home q) => .home q
  | .unit .fab => .fab
  | .unit (.mc n) => .mc n
  | .unit .drain => .drain
  | .unit .flash => .flash
  | .unit (.ce n) => .ce n
  | .unit (.lg g) => .lg g
  | .unit .crypto => .crypto
  | .unit .comp => .comp
  | .unit .zm => .zm
  | .unit .spc => .zm
  | .unit .dbg => .zm
  | .unit .mgt => .sns
  | .unit .sns => .sns
  | .unit .tb => .tb
  | .zmz _ => .zm
  | .dwin => .sns
  | .link n => .lg ⟨n.val / 64, by omega⟩

/-- Does the block lie in a VAUX island? -/
def regVaux (b : RegBlk) : Bool :=
  match regIsland b with
  | .sns => true
  | .tb => true
  | _ => false

/-- Access table that governs a block (Table 19.4). -/
def regTable : RegBlk → TabId
  | .unit .spc => .blk .zm
  | .unit .dbg => .blk .zm
  | .unit .mgt => .blk .sns
  | .unit b => .blk b
  | .zmz _ => .blk .zm
  | .dwin => .blk .sns
  | .link n => .blk (.lg ⟨n.val / 64, by omega⟩)

/-- Table whose registers lie at offset 0x8000 of a block (Table 19.4). -/
def atTable : RegBlk → Option TabId
  | .unit .spc => none
  | .unit .dbg => none
  | .unit .mgt => some .mgmtMem
  | .unit b => some (.blk b)
  | .dwin => some .dwin
  | _ => none

/-- Table whose registers lie at offset 0xA000: the memory-group table of MC(5g + 4). -/
def gatTable : RegBlk → Option TabId
  | .unit (.mc n) => if n.val % 5 = 4 then some (.group ⟨n.val / 5, by omega⟩) else none
  | _ => none

/-- Functions whose lifecycle register lies in a block (Table 2.5): the offset decides. -/
def regFn (b : RegBlk) (off : Nat) : Option Fn :=
  match b with
  | .unit (.pu n) => if off = 8 then some (.pu n) else none
  | .unit (.ce n) => if off = 8 then some (.ce n) else none
  | .unit .drain => if off = 8 then some .commit else none
  | .unit (.mc n) => if 0x200 ≤ off ∧ off < 0x220 then some (.rank n (Fin.ofNat 4 (off / 8))) else none
  | .unit .crypto => if 0x200 ≤ off ∧ off < 0x280 then some (.cslice (Fin.ofNat 16 (off / 8))) else none
  | .unit .comp => if 0x200 ≤ off ∧ off < 0x280 then some (.dslice (Fin.ofNat 16 (off / 8))) else none
  | .unit .zm => if 0x200 ≤ off ∧ off < 0x280 then some (.zone (Fin.ofNat 16 (off / 8))) else none
  | .link n => if off = 8 then some (.link n) else none
  | _ => none

/-- Is a block fenced so that only unit.ID, lifecycle and fault registers answer, and only the management pair (R541)? -/
def regFenced (s : State) (b : RegBlk) : Bool :=
  islandFenced s (regIsland b) || (match b with
    | .unit (.pu n) => s.lcs (.pu n) == .fenced
    | .unit (.ce n) => s.lcs (.ce n) == .fenced
    | _ => false)

/-- unit.ID, a lifecycle register or a fault register. -/
def isPlain (b : RegBlk) (off : Nat) : Bool :=
  off == 0 || (regFn b off).isSome ||
  (match b with
   | .unit _ => decide (0x100 ≤ off) && decide (off ≤ 0x120)
   | _ => false)

/-- A management processor (Table 0.4). -/
def isMgmt (a : Acc) : Bool := a.master == 0x78 || a.master == 0x79

/- Reads. -/

/-- Bits of the sources of a kind that can be masked now (Table 17.4). -/
def maskBits (kind : Nat) (f : FaultRegs) : Nat := ((List.range 32).map (fun i => if maskable kind f i then 2 ^ i else 0)).sum

/-- A table's register by its offset from the table's base, and the state after the read. -/
def atRead (t : TabId) (off : Nat) (s : State) : Word × State :=
  let x := s.tab t
  if off = 0 then (atCtlWord x, s.updTab t (fun x => { x with denyCnt := 0 }))
  else if off = 8 then (x.log, s)
  else if 0x100 ≤ off ∧ off < 0x180 then (atReg x (off / 8 % 16), s)
  else if 0x400 ≤ off ∧ off < 0x800 then
    let m := off / 8 % 128
    (if masterAssigned m then atRow (tabNum t) x m else 0, s)
  else (0, s)

/-- A PU's own registers. -/
def puRead (p : Pu) (off : Nat) : Word :=
  if off = 0x200 then mkw [(8, p.t1w.toNat), (4, p.t0w.toNat), (1, p.t1en.toNat)]
  else if off = 0x208 then
    mkw [(32, p.imageId.toNat), (16, p.imageVer.toNat), (8, p.parCnt), (3, p.slotB.toNat), (2, p.verified.toNat),
         (1, p.loaded.toNat)]
  else if off = 0x210 then
    mkw [(48, p.firstLane.toNat), (44, p.windowCnt), (32, p.retryCnt), (24, p.injFail), (16, p.cause.toNat),
         (3, p.unchecked.toNat), (2, p.injPass.toNat), (1, p.failed.toNat), (0, p.mismatch.toNat)]
  else if off = 0x218 then
    let (locked, empty) := lockCounts p
    mkw [(32, locked), (16, p.ldCnt), (8, Nat.min 255 empty), (1, (empty != 0).toNat), (0, p.lockedDirty.toNat)]
  else 0

/-- DRAIN's own registers (Tables 12.2 to 12.4). -/
def drainRead (s : State) (off : Nat) : Word :=
  if off = 0x200 then s.commit.size.setWidth 64
  else if off = 0x208 then allowWord s.commit
  else if off = 0x210 then drainStatWord s
  else 0

/-- A channel engine's own registers (Tables 13.2 and 13.23). -/
def ceRead (n : Nat) (off : Nat) (s : State) : Word × State :=
  let c := s.ce n
  if off = 0x200 then (mkw [(48, c.ep.toNat), (40, c.zone.toNat), (0, c.le.toNat)], s)
  else if off = 0x208 then
    let e := c.le.toNat
    let l := if e < 32 then openEntries s e else []
    let i := (l.filter (fun i => decide (i % 8192 < 6144))).length
    (mkw [(48, i), (32, l.length - i), (16, if e < 32 then (s.le e).xq.length else 0), (8, c.doubt), (0, c.busyCnt)],
     s.updCe n (fun c => { c with busyCnt := 0 }))
  else (0, s)

/-- A link's own registers (Tables 14.2 to 14.5); with AUTO at 0 an OFF link is powered down and detects no signal (R388). -/
def linkRead (n : Nat) (off : Nat) (s : State) : Word × State :=
  let k := s.link n
  let dark := s.lcs (.link (Fin.ofNat 512 n)) == .off && !bit 3 k.cfg
  if off = 0x200 then (k.cfg, s)
  else if off = 0x208 then (linkStat { k with sigDet := k.sigDet && !dark }, s)
  else if off = 0x210 then (linkErr0 k, s.updLink n (fun k => { k with fecCorr := 0, fecUncorr := 0, berCnt := 0 }))
  else if off = 0x218 then
    (linkErr1 k, s.updLink n (fun k => { k with crcErr := 0, gapDisc := 0, lockLoss := 0, fallbacks := 0 }))
  else (0, s)

/-- The zone manager's own registers. -/
def zmRead (off : Nat) (s : State) : Word × State :=
  let z := off % 0x80 / 8
  if 0x280 ≤ off ∧ off < 0x300 then ((s.zone z).cfg, s)
  else if 0x300 ≤ off ∧ off < 0x380 then ((s.zone z).pus.setWidth 64, s)
  else if 0x380 ≤ off ∧ off < 0x400 then ((s.zone z).segtBase, s)
  else if 0x400 ≤ off ∧ off < 0x480 then ((s.zone z).sidtBase, s)
  else if 0x480 ≤ off ∧ off < 0x500 then
    (zoneStatWord (s.zone z), s.updZone z (fun x => { x with lost := 0, irqDisc := 0, irqMerged := 0 }))
  else if off = 0x500 then (s.segAdd, s)
  else if off = 0x508 then (s.spc.spareSet.setWidth 64, s)
  else if off = 0x510 then
    (chkWord s.chk, s)
  else if off = 0x518 then (BitVec.ofNat 64 s.zrstLost, { s with zrstLost := 0 })
  else (0, s)

/-- SPC.STAT (Table 10.4). -/
def spcRead (s : State) (off : Nat) : Word :=
  let c := s.spc
  if off = 0x200 then
    mkw [(40, c.queued.length), (32, c.attempt), (24, c.failedPos), (16, c.spare),
         (12, if c.drains.any (fun d => d.1 == c.failedPos) then 2 else c.step), (10, c.result.toNat),
         (1, c.unit.toNat), (0, c.current.isSome.toNat)]
  else 0

/-- MGT.WDOGn (Table 18.1). -/
def wdogRead (s : State) (n : Nat) : Word :=
  let w := if n = 0 then s.mgmt.wdog0 else s.mgmt.wdog1
  let active := s.mgmt.active == (n == 1)
  mkw [(16, w.expiries), (2, (!active).toNat), (1, active.toNat), (0, w.expired.toNat)]

/-- SNS's own registers (Tables 17.11 and 17.12). -/
def snsRead (s : State) (off : Nat) : Word :=
  let o := s.outs
  if off = 0x200 then aliveWord o
  else if off = 0x208 then privWord o
  else 0

/-- TB's own registers (Table 19.8). -/
def tbRead (s : State) (off : Nat) : Word :=
  if off = 0x200 then s.tb.tod
  else if off = 0x208 then tbWord s.tb
  else 0

/-- The registers of Table 19.5 of a block; an unassigned offset reads zero (R7). -/
def ownRead (b : RegBlk) (off : Nat) (s : State) : Word × State :=
  match b with
  | .unit (.pu n) => (puRead (s.pu n) off, s)
  | .unit (.mc n) => mcRead n off s
  | .unit .drain => (drainRead s off, s)
  | .unit (.ce n) => ceRead n off s
  | .unit .zm => zmRead off s
  | .unit .spc => (spcRead s off, s)
  | .unit .mgt => (if off = 0x200 then wdogRead s 0 else if off = 0x208 then wdogRead s 1 else 0, s)
  | .unit .sns => (snsRead s off, s)
  | .unit .tb => (tbRead s off, s)
  | .unit _ => (0, s)
  | .zmz z =>
    (if off = 0x200 then (s.zone z).sidtSet else if off = 0x210 then (s.zone z).faultIrq
     else if off = 0x218 then zoneStatWord (s.zone z) else 0, s)
  | .dwin => (0, s)
  | .link n => linkRead n off s

/-- Offset within an access table of a register offset of 0x8000 or more. -/
def tabOff (off : Nat) : Nat := if 0xA000 ≤ off then 0x2000 * (off / 0x2000 - 5) + off % 0x2000 else off % 0x2000

/-- A read of a register by its block and offset (R7, R515, R519). -/
def regRead (b : RegBlk) (off : Nat) (s : State) : Word × State :=
  if off = 0 then (idWord (regKind b).1 (regKind b).2, s)
  else match regFn b off with
    | some f => (lcWord (s.lcOf f), s)
    | none =>
      if 0x8000 ≤ off then
        match (if 0xA000 ≤ off then gatTable b else atTable b) with
        | some t => atRead t (tabOff off) s
        | none => (0, s)
      else match b with
        | .unit u =>
          let f := s.flt u
          if off = 0x100 then (fstatWord f, s)
          else if off = 0x108 then (fovfWord f, s)
          else if off = 0x110 then (f.mask.setWidth 64 &&& BitVec.ofNat 64 (maskBits (blkKind u) f), s)
          else if off = 0x118 then (mkw [(1, 7), (0, f.ienC1.toNat)], s)
          else if off = 0x120 then (fclassWord (blkKind u) f, s)
          else ownRead b off s
        | _ => ownRead b off s

/- Writes. -/

/-- Paths on a link that has left ON are DOWN (R355, R360). -/
def linkGone (f : Fn) (s : State) : State :=
  match f with
  | .link n => if s.lcs f = .on then s else pathDown n s
  | _ => s

/-- A write of a lifecycle register (R41, R42, R428): IEN and TRANS first, then the command. -/
def lcWrite (f : Fn) (w : Word) (s : State) : State :=
  let k := (bit 2 w).toNat + (bit 1 w).toNat + (bit 0 w).toNat
  let ours := match f with
    | .pu n => (s.puZone n).isSome && k == 1
    | _ => false
  if decide (1 < k) || ours then lcResult f 2 s
  else
    let l := s.lcOf f
    let s := s.setLc f { l with ien := bit 16 w, trans := l.trans && !bit 15 w }
    if bit 2 w then after (lcCommand f .enable 0 s)
    else if bit 1 w then after (linkGone f (lcCommand f .disable 0 s))
    else if bit 0 w then after (lcCommand f .unfence 0 s)
    else s

/-- A write of a fault register (R460 to R463). -/
def faultWrite (b : Blk) (off : Nat) (w : Word) (s : State) : State :=
  let kind := blkKind b
  s.updFlt b (fun f =>
    if off = 0x100 then
      if bit 63 w then { f with valid := false, cls := 0, source := 0, inst := 0, info := 0 } else f
    else if off = 0x108 then
      if bit 63 w then { f with ovf := false, higher := false, maxCls := 0, count := 0 } else f
    else if off = 0x110 then { f with mask := BitVec.ofNat 32 (fld 31 0 w) &&& BitVec.ofNat 32 (maskBits kind f) }
    else if off = 0x118 then { f with ienC1 := bit 0 w }
    else if off = 0x120 then
      { f with promo := (List.range 32).foldl (fun (p : BitVec 32) i =>
          if srcPromotable kind i && (srcClass kind i).isSome then
            match nbits (2 * i + 1) (2 * i) w.toNat with
            | 0 => p &&& ~~~(BitVec.twoPow 32 i)
            | 1 => p ||| BitVec.twoPow 32 i
            | _ => p
          else p) f.promo }
    else f)

/-- Writable bits of AT_REGk (Table 16.14). -/
def atRegMask : Word := 0xF83F000FFFFFFFFF

/-- A write of a table's register: RWL fields take it while LOCK is 0 (R9, R10, R452). -/
def atWrite (t : TabId) (off : Nat) (w : Word) (s : State) : State :=
  s.updTab t (fun x =>
    if off = 0 then { x with lock := x.lock || bit 0 w }
    else if off = 8 then if bit 63 w then { x with log := putBit 63 false x.log } else x
    else if x.lock then x
    else if 0x100 ≤ off ∧ off < 0x180 then
      let k := off / 8 % 16
      { x with regs := tset (regDefault k) x.regs k (w &&& atRegMask) }
    else if 0x400 ≤ off ∧ off < 0x800 then
      let m := off / 8 % 128
      if masterAssigned m then { x with rows := tset (rowDefault (tabNum t) m) x.rows m w } else x
    else x)

/-- A write of a PU's own register. -/
def puWrite (n : Nat) (off : Nat) (w : Word) (s : State) : State :=
  s.updPu n (fun p =>
    if off = 0x200 then
      { p with t1w := BitVec.ofNat 4 (fld 11 8 w), t0w := BitVec.ofNat 4 (fld 7 4 w), t1en := bit 1 w }
    else if off = 0x210 then if bit 0 w then { p with mismatch := false, laneSet := false } else p
    else if off = 0x218 then if bit 0 w then { p with lockedDirty := false } else p
    else p)

/-- A write of DRAIN's own register (Tables 12.2 and 12.3): what waits for a grant is looked at again. -/
def drainWrite (off : Nat) (w : Word) (s : State) : State :=
  if off = 0x200 then
    let v := fld 6 0 w
    if s.lcs .commit = .off ∧ 1 ≤ v ∧ v ≤ s.lim.maxCommit then { s with commit := { s.commit with size := BitVec.ofNat 7 v } } else s
  else if off = 0x208 then
    settled (serveGrants { s with commit := { s.commit with
      frozen := s.commit.frozen && !bit 63 w, allow := BitVec.ofNat 19 (fld 18 0 w) } })
  else s

/-- A write of CEnn.CTL (Table 13.2): the copies that RELOAD_EP and RELOAD_DISP name are discarded. -/
def ceWrite (n : Nat) (off : Nat) (w : Word) (s : State) : State :=
  if off ≠ 0x200 then s
  else
    let ep := fld 63 48 w
    let z := fld 43 40 w
    let e := (s.ce n).le.toNat
    let s := s.updCe n (fun c => { c with ep := BitVec.ofNat 16 ep, zone := BitVec.ofNat 4 z })
    if 32 ≤ e then s
    else
      let s := if bit 47 w then s.updLe e (fun x => { x with
            epCopy := tset none x.epCopy ep none, node := x.node.filter (fun k => k.2 != some ep) })
        else s
      if bit 46 w then s.updLe e (fun x => { x with disp := x.disp.filter (fun k => k.1 / 4096 != z) }) else s

/-- The word of ZM.SEG_ADD that takes a write: its RW fields. -/
def segAddMask : Word := 0xFFFF000000FFFFFF

/-- The result field of ZM.SEG_ADD after a command (R161). -/
def segAddDone (r : Nat) (s : State) : State := { s with segAdd := setFld 47 46 s.segAdd r }

/-- The segment entry that ZM.SEG_ADD names. -/
def segAddEntry (w : Word) : Word := mkw [(63, 1), (22, fld 23 22 w), (0, fld 21 0 w)]

/-- Address of the memory copy of entry i of a zone's segment store. -/
def segCopy (x : Zone) (i : Nat) : Nat := 32768 * fld 51 15 x.segtBase + 8 * i

/-- RESULT of an addition (R161): the checks against the store, or against the memory copy of a zone that holds none. -/
def segAddResult (w : Word) (s : State) : Nat :=
  let x := s.zone (fld 63 60 w)
  let t := if x.segHeld then x.seg else loadWords s.mem (segCopy x 0) 4096
  let e := segAddEntry w
  let dup := segKind e != 2 && t.any (fun f => bit 63 f.2 && segKind f.2 != 2 && segPseg f.2 == segPseg e)
  if s.zc ≤ fld 63 60 w then 2
  else if bit 63 (tget 0 t (fld 59 48 w)) then 1
  else if !segAllowed s e || segTaken s (fld 63 60 w) e || dup then 2 else 0

/-- An added entry is written to memory, and to the store of a zone that holds one. The write acts on other agents'
transactions as requester ID 0, for Table 0.4 gives the zone manager no master ID (DESIGN CHOICE, assumption 51). -/
def segAddPut (z i : Nat) (e : Word) (s : State) : State :=
  let x := s.zone z
  let a := segCopy x i
  let s := (loseOthers none (a / 256) true none 0 none s).wrThrough a (toBe 8 e.toNat)
  if x.segHeld then s.updZone z (fun x => { x with seg := tset 0 x.seg i e }) else s

/-- GO in ZM.SEG_ADD (R161): the checks, the entry where they pass, and RESULT. -/
def segAddGo (w : Word) (s : State) : State :=
  let r := segAddResult w s
  segAddDone r (if r = 0 then segAddPut (fld 63 60 w) (fld 59 48 w) (segAddEntry w) s else s)

/-- A write of ZM.SEG_ADD. -/
def segAddWrite (w : Word) (s : State) : State :=
  let s := { s with segAdd := mix segAddMask s.segAdd w }
  if bit 45 w then segAddGo w s else s

/-- A write of the zone manager's own register: the configuration of a zone that is not OFF takes none (R424). -/
def zmWrite (off : Nat) (w : Word) (s : State) : State :=
  let z := off % 0x80 / 8
  let off' := s.lcs (.zone (Fin.ofNat 16 z)) == .off
  let cfg := fun (f : Zone → Zone) => if off' then s.updZone z f else s
  if 0x280 ≤ off ∧ off < 0x300 then cfg (fun x => { x with cfg := w &&& 0xFFFF83FFFFFFF000 })
  else if 0x300 ≤ off ∧ off < 0x380 then cfg (fun x => { x with pus := w.setWidth 48 })
  else if 0x380 ≤ off ∧ off < 0x400 then cfg (fun x => { x with segtBase := w &&& 0x000FFFFFFFFF8000 })
  else if 0x400 ≤ off ∧ off < 0x480 then cfg (fun x => { x with sidtBase := w &&& 0x000FFFFFFFFFE000 })
  else if 0x480 ≤ off ∧ off < 0x500 then
    s.updZone z (fun x => { x with
      holdOvf := x.holdOvf && !bit 6 w, fault := if x.resetBusy then x.fault else x.fault && !bit 4 w })
  else if off = 0x500 then segAddWrite w s
  else s

/-- Does a slice belong to a zone's share (R394)? -/
def ownsSlice (s : State) (z k : Nat) : Bool := decide (z < s.zc) && decide (k / (16 / s.zc) = z)

/-- GO in ZMZzz.SIDT_SET (R435): a valid slice outside the share is rejected; else store and memory copy take it. It
acts while the zone is ON. The write of the memory copy acts on other agents' transactions as requester ID 0, for Table 0.4
gives the zone manager no master ID (DESIGN CHOICE, assumption 51). -/
def sidtGo (z : Nat) (w : Word) (s : State) : State :=
  if s.lcs (.zone (Fin.ofNat 16 z)) ≠ .on then s
  else
    let e := fld 15 0 w
    let i := fld 59 48 w
    let bad := (bit 15 w && !ownsSlice s z (fld 11 8 w)) || (bit 7 w && !ownsSlice s z (fld 3 0 w))
    if bad then s.updZone z (fun x => { x with sidtSet := setFld 47 46 x.sidtSet 1 })
    else
      let a := 8192 * fld 51 13 (s.zone z).sidtBase + 2 * i
      let s := (loseOthers none (a / 256) true none 0 none s).wrThrough a (toBe 2 e)
      s.updZone z (fun x => { x with
        sidt := tset 0 x.sidt i (BitVec.ofNat 16 e), sidtSet := setFld 47 46 x.sidtSet 0 })

/-- A write into a zone-facing block (R435, R438, R439, R440). -/
def zmzWrite (z : Fin 16) (off : Nat) (w : Word) (s : State) : State :=
  if off = 0x200 then
    let s := s.updZone z (fun x => { x with sidtSet := mix 0x0FFF00000000FFFF x.sidtSet w })
    if bit 45 w then sidtGo z w s else s
  else if off = 0x208 then
    routeIrq z { thread := fld 54 48 w, vector := fld 41 32 w, prio := BitVec.ofNat 4 (fld 31 28 w) } s
  else if off = 0x210 then s.updZone z (fun x => { x with faultIrq := w &&& 0x007F03FFF0000001 })
  else s

/-- A watchdog expires (R289): counted, its processor's island fenced and held in reset, class C2 in MGT, ALIVE19 closed;
neither processor runs until the standby has taken over. -/
def wdogExpire (n : Nat) (s : State) : State :=
  let f := fun (w : Wdog) => { w with expired := true, expiries := satAdd 0xFFFF w.expiries 1 }
  let s := if n = 0 then { s with mgmt := { s.mgmt with wdog0 := f s.mgmt.wdog0, bothDown := true } }
    else { s with mgmt := { s.mgmt with wdog1 := f s.mgmt.wdog1, bothDown := true } }
  let s := s.updIsland (.mgmt (Fin.ofNat 2 n)) (fun x => { x with fltFence := true })
  closeGates (latch .mgt 8 n 0 2 s)

/-- The kick value that comes next (R486). -/
def nextKick (w : Wdog) : BitVec 8 :=
  match w.lastKick with
  | some v => if v = 0x5A then 0xA5 else 0x5A
  | none => 0x5A

/-- A kick of watchdog n (R486): the wrong value expires it at once; only its owner writes it. -/
def wdogWrite (n : Nat) (a : Acc) (v : BitVec 8) (s : State) : State :=
  let w := if n = 0 then s.mgmt.wdog0 else s.mgmt.wdog1
  if a.master.toNat ≠ 0x78 + n ∨ w.expired then s
  else if v = nextKick w then
    if n = 0 then { s with mgmt := { s.mgmt with wdog0 := { w with lastKick := some v } } }
    else { s with mgmt := { s.mgmt with wdog1 := { w with lastKick := some v } } }
  else wdogExpire n s

/-- A write of SNS's own register (R472, R474 to R476). -/
def snsWrite (off : Nat) (w : Word) (s : State) : State :=
  if off = 0x200 then
    let s := { s with outs := { s.outs with rej := s.outs.rej &&& ~~~(BitVec.ofNat 20 (fld 39 20 w)) } }
    rearm (BitVec.ofNat 20 (fld 59 40 w)) s
  else if off = 0x208 then
    let m1 := s.inMode [.provision]
    { s with outs := { s.outs with
      holdLvl := bit 5 w, chkLvl := bit 4 w
      holdPulse := s.outs.holdPulse || (m1 && bit 1 w), holdTest := s.outs.holdTest || (m1 && bit 1 w)
      chkPulse := s.outs.chkPulse || (m1 && bit 0 w), chkTest := s.outs.chkTest || (m1 && bit 0 w) } }
  else s

/-- A write of a register of Table 19.5; an unassigned offset ignores it (R7). -/
def ownWrite (a : Acc) (b : RegBlk) (off : Nat) (w : Word) (s : State) : State :=
  match b with
  | .unit (.pu n) => puWrite n off w s
  | .unit (.mc n) => mcWrite n off w s
  | .unit .drain => drainWrite off w s
  | .unit (.ce n) => ceWrite n off w s
  | .unit .zm => zmWrite off w s
  | .unit .mgt =>
    if off = 0x200 then wdogWrite 0 a (BitVec.ofNat 8 (fld 15 8 w)) s
    else if off = 0x208 then wdogWrite 1 a (BitVec.ofNat 8 (fld 15 8 w)) s
    else s
  | .unit .sns => snsWrite off w s
  | .unit _ => s
  | .zmz z => zmzWrite z off w s
  | .dwin => s
  | .link n => if off = 0x200 then s.updLink n (fun k => { k with cfg := w &&& linkCfgMask }) else s

/-- A write of a register by its block and offset (R7, R515, R519). -/
def regWrite (a : Acc) (b : RegBlk) (off : Nat) (w : Word) (s : State) : State :=
  if off = 0 then s
  else match regFn b off with
    | some f => lcWrite f w s
    | none =>
      if 0x8000 ≤ off then
        match (if 0xA000 ≤ off then gatTable b else atTable b) with
        | some t => atWrite t (tabOff off) w s
        | none => s
      else match b with
        | .unit u => if 0x100 ≤ off ∧ off ≤ 0x120 then faultWrite u off w s else ownWrite a b off w s
        | _ => ownWrite a b off w s

/- The dictionary window and management memory. -/

/-- A register of a mailbox as it reads (Tables 18.5 and 18.6). -/
def boxRead (m : Mailbox) (off : Nat) : Word :=
  if off = 0 then m.cmd
  else if off = 8 then mkw [(63, m.done.toNat), (62, m.busy.toNat), (32, m.rlen.toNat), (0, m.abort.toNat)]
  else if 0x1000 ≤ off ∧ off < 0x2000 then tget 0 m.data (off / 8 % 512)
  else 0

/-- The first n bytes of DATA. -/
def boxBytes (m : Mailbox) (n : Nat) : List Byte :=
  ((List.range ((n + 7) / 8)).flatMap (fun i => toBe 8 (tget 0 m.data i).toNat)).take n

/-- Times at which the items of the last 10 s ended, with their service times (R490). -/
def k3Recent (s : State) : List (Word × Nat) := s.mgmt.k3Log.filter (fun e => decide (s.now ≤ e.1.toNat + msUnits 10000))

/-- Is an opening item refused at arrival (R490): 64 items wait, or the projected response time, one item more than wait
times the mean service time of the last 10 s, exceeds 50 ms? -/
def k3Full (s : State) : Bool :=
  decide (64 ≤ s.mgmt.k3.length) ||
    decide (msUnits 50 * (k3Recent s).length < (s.mgmt.k3.length + 1) * ((k3Recent s).map (·.2)).sum)

/-- An item joins the K3 queue; in an empty queue its service begins (R490). -/
def k3Join (i : K3Item) (s : State) : State :=
  { s with mgmt := { s.mgmt with k3 := s.mgmt.k3 ++ [{ i with since := s.tb.tod }], k3At := if s.mgmt.k3.isEmpty then s.tb.tod else s.mgmt.k3At } }

/-- A K3 item is refused at arrival, counted (R490). -/
def countRefusal (s : State) : State :=
  { s with
    mgmt := { s.mgmt with refusals := s.mgmt.refusals + 1 }
    encke := { s.encke with acc := { s.encke.acc with busy := s.encke.acc.busy + 1 } } }

/-- A request of a window command (R496, R497). -/
def boxReq (m : Mailbox) (w : Word) : DictReq :=
  { index := BitVec.ofNat 16 (fld 63 48 w), sub := BitVec.ofNat 8 (fld 47 40 w), offset := fld 23 0 w, write := bit 38 w
    data := if bit 38 w then boxBytes m (fld 36 24 w) else [] }

/-- A write of a mailbox register: GO queues the request unless BUSY (R490, R497) or refused. -/
def boxWrite (z : Fin 16) (off : Nat) (w : Word) (s : State) : State :=
  if off = 0 then
    let busy := (s.box z).busy
    let s := s.updBox z (fun m => { m with cmd := w &&& 0xFFFFFF5FFFFFFFFF })
    if !bit 39 w || busy then s
    else if k3Full s then
      countRefusal (s.updBox z (fun m => { m with done := true, busy := false, rlen := 0, abort := 0x08000021 }))
    else
      let r := boxReq (s.box z) w
      let s := s.updBox z (fun m => { m with done := false, busy := true })
      k3Join { src := .window z, who := .Z, req := r } s
  else if 0x1000 ≤ off ∧ off < 0x2000 then
    s.updBox z (fun m => { m with data := tset 0 m.data (off / 8 % 512) w })
  else s

/- Requests. -/

/-- What an address outside DRAM names (Table 19.1). -/
inductive Target where
  | reg (b : RegBlk) (off : Nat)
  | box (z : Fin 16) (off : Nat)
  | mgmt (off : Nat)
  | nowhere
deriving DecidableEq, Repr

/-- Target of a physical address (R511, R512, R514). -/
def target (pa : Nat) : Target :=
  if 0x8000000000000 ≤ pa ∧ pa < 0x8000010000000 then
    match regBlk (pa / 65536 % 4096) with
    | some b => .reg b (pa % 65536)
    | none => .nowhere
  else if 0x80E0000000000 ≤ pa ∧ pa < 0x80E0004000000 then .mgmt (pa % 0x4000000)
  else if 0x80F0000000000 ≤ pa ∧ pa < 0x80F0000100000 then .box (Fin.ofNat 16 (pa / 65536)) (pa % 65536)
  else .nowhere

/-- Size and alignment that a target takes (R5, R484). -/
def sizeOk (t : Target) (pa size : Nat) : Bool :=
  match t with
  | .mgmt _ => (size == 1 || size == 2 || size == 4 || size == 8) && pa % size == 0
  | _ => size == 8 && pa % 8 == 0

/-- Access table that governs a target. -/
def targetTable : Target → TabId
  | .reg b _ => regTable b
  | .box _ _ => .dwin
  | .mgmt _ => .mgmtMem
  | .nowhere => .dwin

/-- Does the zone tag of a request suit the target (R496, R517)? -/
def tagOk (a : Acc) (t : Target) : Bool :=
  match t with
  | .reg (.zmz z) _ => a.zone == some z || (a.zone.isNone && isMgmt a)
  | .box z _ => a.zone == some z
  | _ => true

/-- A request to a target outside DRAM, up to its effect (R5, R39, R450, R476, R496, R512, R517, R541): none where it may
go on, else its answer. -/
def reach (a : Acc) (pa size : Nat) (write : Bool) (s : State) : Option Resp × State :=
  let t := target pa
  let k := if write then AccKind.write else AccKind.read
  if a.master = 0x7E ∧ !(s.inMode [.service] && s.md.dbgPort) then (some .error, s)
  else if t = .nowhere ∨ !tagOk a t then (some .error, masterFault a pa s)
  else if !sizeOk t pa size then (some .error, s)
  else
    let (off, plain, fenced, sns) := match t with
      | .reg b o => (!regVaux b && !s.mainOn, isPlain b o, regFenced s b, decide (regTable b = TabId.blk .sns))
      | .box _ _ => (false, false, islandFenced s .sns, false)
      | .mgmt _ => (false, false, islandFenced s .sns, false)
      | .nowhere => (false, false, false, false)
    if !s.vaux ∨ off then (some .fenced, s)
    else if fenced then if plain && isMgmt a then (none, s) else (some .fenced, s)
    else if !granted s (targetTable t) a pa k || (sns && write && !isMgmt a) then
      (some .error, masterFault a pa (deny (targetTable t) a pa k 3 s))
    else (none, s)

/-- A read of a target outside DRAM: the answer, and the state after it. -/
def devRead (a : Acc) (pa size : Nat) (s : State) : Resp × State :=
  match reach a pa size false s with
  | (some r, s) => (r, s)
  | (none, s) =>
    match target pa with
    | .reg b off => let (v, s) := regRead b off s; (.ok v, s)
    | .box z off => (.ok (boxRead (s.box z) off), s)
    | .mgmt off => (.ok (BitVec.ofNat 64 (ofBe ((List.range size).map (fun i => tget 0 s.mgmt.mgmtMem (off + i))))), s)
    | .nowhere => (.error, s)

/-- A write of a target outside DRAM. -/
def devWrite (a : Acc) (pa size : Nat) (v : Word) (s : State) : Resp × State :=
  match reach a pa size true s with
  | (some r, s) => (r, s)
  | (none, s) =>
    match target pa with
    | .reg b off => (.ok 0, regWrite a b off v s)
    | .box z off => (.ok 0, boxWrite z off v s)
    | .mgmt off => (.ok 0, { s with mgmt := { s.mgmt with mgmtMem := memPut s.mgmt.mgmtMem off (toBe size v.toNat) } })
    | .nowhere => (.error, s)

/-- A write that was discarded as FENCED is recorded at its sender (R17). -/
def devSent (a : Acc) (pa : Nat) (r : Resp × State) : Resp × State :=
  if r.1 = .fenced then (r.1, fencedSender a pa r.2) else r

/-- A command's write, with its answer kept. -/
def doWrite (a : Acc) (pa : Nat) (v : Word) (s : State) : State :=
  let (r, s) := devSent a pa (devWrite a pa 8 v s)
  { s with resp := r }

/-- Physical address of a register. -/
def regAddr (n off : Nat) : Nat := 0x8000000000000 + 65536 * n + off

/-- Physical address of a function's lifecycle register (Table 2.5, Table 19.5). -/
def lcAddr : Fn → Nat
  | .pu n => regAddr n 8
  | .ce n => regAddr (0x80 + n.val) 8
  | .link n => regAddr (0x200 + n.val) 8
  | .commit => regAddr 0x68 8
  | .rank m r => regAddr (0x50 + m.val) (0x200 + 8 * r.val)
  | .cslice n => regAddr 0xD0 (0x200 + 8 * n.val)
  | .dslice n => regAddr 0xD1 (0x200 + 8 * n.val)
  | .zone z => regAddr 0xE0 (0x200 + 8 * z.val)

/-- Physical address of a table's first register (Table 19.4). -/
def tabAddr : TabId → Nat
  | .blk b => regAddr (blkNum b) 0x8000
  | .dwin => regAddr 0x104 0x8000
  | .mgmtMem => regAddr 0x100 0x8000
  | .group g => regAddr (0x50 + 5 * g.val + 4) 0xA000

/-- Physical address of TRN_CTL, of ALIVE_CTL, and of PRIV_OUT. -/
def trnAddr (m : Fin 20) : Nat := regAddr (0x50 + m.val) 0x2A0

end Sys2Proof.Machine
end

