-- ==== Sys2Proof/Machine/Mem.lean ====
section
/-! DEFINITION. Data accesses of threads: addressing modes (R67 to R70), translation of an access that may cross a line
(R71), loads, stores into the store buffer, and the performing of stores (chapters 3, 6, 7 and 9). -/

namespace Sys2Proof.Machine

/- Addressing. -/

/-- An effective address, and the register that its mode updates. -/
abbrev Ea := Word × Option (BitVec 5 × Word)

/-- Format M (R67). -/
def eaM (a : Arch) (o : MemD) : Ea := (a.rg o.a + o.disp.signExtend 64, none)

/-- Length of a modulo descriptor; none where it is not valid (R68). -/
def modLen (w : Word) : Option Nat :=
  let n := fld 62 48 w
  if fld 5 0 w ≠ 0 then none
  else if bit 63 w then (if 6 ≤ n ∧ n ≤ 47 then some (2 ^ n) else none)
  else if n = 0 then none else some (n * 64)

/-- The low nb bits of v in reverse order. -/
def bitrev : Nat → Nat → Nat
  | 0, _ => 0
  | n + 1, v => v % 2 * 2 ^ n + bitrev n (v / 2)

/-- Modulo mode (R67), its sums modulo 2^64: an exception of vector 0x09 reports BASE + offset. -/
def eaMod (a : Arch) (o : MemX) (size : Nat) : Except Exc Ea :=
  let d := tget 0 a.mods o.sm.toNat
  let off := a.rg o.a
  let inc := a.rg o.x
  let ea := BitVec.ofNat 64 (fld 47 0 d) + off
  match modLen d with
  | none => .error { vec := 9, detail := 2, eaddr := ea }
  | some len =>
    if len ≤ inc.toNat then .error { vec := 9, detail := 3, eaddr := ea }
    else if len < (off + BitVec.ofNat 64 size).toNat then .error { vec := 9, detail := 1, eaddr := ea }
    else
      let n := off + inc
      .ok (ea, some (o.a, if len ≤ n.toNat then n - BitVec.ofNat 64 len else n))

/-- Format N (R67). -/
def eaN (a : Arch) (o : MemX) (size : Nat) : Except Exc Ea :=
  let base := a.rg o.a
  let scaled := a.rg o.x <<< o.sm.toNat
  match o.am.toNat with
  | 0 => .ok (base + scaled, none)
  | 1 => .ok (base, some (o.a, base + scaled))
  | 2 => .ok (base, some (o.a, base + o.x.signExtend 64 * BitVec.ofNat 64 size))
  | 4 => eaMod a o size
  | _ =>
    let nb := fld 4 0 a.brv
    let x := (a.rg o.x).toNat % 2 ^ nb
    .ok (base + (BitVec.ofNat 64 (bitrev nb x) <<< o.sm.toNat), some (o.x, BitVec.ofNat 64 ((x + 1) % 2 ^ nb)))

/-- Reserved fields of format N (R67) and the register constraint of integer loads (R70). -/
def decN (fp load : Bool) (o : MemX) : Dec :=
  let m := o.am.toNat
  (decIf (m == 3 || m == 6 || m == 7 || (m == 2 && o.sm != 0) || (fp && o.sz == 0)) 5).and
    (decIf (load && !fp && (((m == 1 || m == 2 || m == 4) && o.t == o.a) || (m == 5 && o.t == o.x))) 4)

/-- Size of an access of format N, integer or floating (R67). -/
def sizeN (fp : Bool) (o : MemX) : Nat := if fp then 2 * 2 ^ o.sz.toNat else 2 ^ o.sz.toNat

/-- The register that a mode updates takes its value. -/
def putEa (e : Ea) (a : Arch) : Arch :=
  match e.2 with
  | some (r, v) => a.wg r v
  | none => a

/- Translation. -/

/-- How an access ends: with its bytes, with an exception, or with the instruction ended or waiting. -/
inductive Got where
  | bytes (l : List Byte) (s : State)
  | exc (e : Exc) (s : State)
  | stop (s : State)
deriving DecidableEq, Repr

/-- The parts of an access, one to a line (R71): address and length. -/
def parts (va : Word) (n : Nat) : List (Word × Nat) :=
  let k := 256 - va.toNat % 256
  if n ≤ k then [(va, n)] else [(va, k), (va + BitVec.ofNat 64 k, n - k)]

/-- A translated part: physical address and type, virtual address, length. -/
abbrev Part := Phys × Word × Nat

/-- Place of a vector in the order of exceptions (R79), of those that a data access meets; 0, a wait, comes before all. -/
def excRank (v : Nat) : Nat :=
  match v with
  | 0 => 0 | 8 => 1 | 9 => 2 | 5 => 3 | 7 => 4 | _ => 5

/-- The exception that an instruction takes of two (R79): the first of its order; of one vector, the earlier. -/
def firstExc (e e' : Exc) : Exc := if excRank e'.vec < excRank e.vec then e' else e

/-- Translation of the parts of an instruction's accesses, in order (R155); of their exceptions the first of R79. -/
def transParts (n : Nat) (th : Bool) (u : Use) (w : Bool) : List (Word × Nat) → State → (Except Exc (List Part)) × State
  | [], s => (.ok [], s)
  | (va, k) :: rest, s =>
    match translate n th va u s with
    | (.ok p, s) =>
      match transParts n th u w rest s with
      | (.ok l, s) => (.ok ((p, va, k) :: l), s)
      | r => r
    | (.error (v, d), s) =>
      let e : Exc := { vec := v, detail := d, eaddr := va, w := w }
      if v = 0 ∨ v = 5 then (.error e, s)
      else match transParts n th u w rest s with
        | (.error e', s) => (.error (firstExc e e'), s)
        | (.ok _, s) => (.error e, s)

/-- Is a part of an access in DEVICE memory? -/
def anyDevice (l : List Part) : Bool := l.any (fun p => p.1.mt == .device)

/-- DEVICE accesses are naturally aligned 8-byte accesses (R5, R71). -/
def deviceOk (l : List (Word × Nat)) : Bool := l.all (fun x => x.2 == 8 && x.1.toNat % 8 == 0)

/-- The parts of the accesses of one instruction, translated. In a transaction one to DEVICE memory aborts with code 7 before
its size and alignment are looked at (R5, R241): an error without an exception. -/
def access (n : Nat) (th : Bool) (u : Use) (w : Bool) (l : List (Word × Nat)) (s : State) :
    (Except (Option Exc) (List Part)) × State :=
  match transParts n th u w (l.flatMap (fun x => parts x.1 x.2)) s with
  | (.error e, s) => (.error (some e), s)
  | (.ok ps, s) =>
    if !anyDevice ps then (.ok ps, s)
    else if (s.thr n th).tx.isSome then (.error none, abortOwn n th 7 (s.thr n th).arch.pc s)
    else if !deviceOk l then (.error (some { vec := 7, detail := 5, eaddr := (l.headD (0, 0)).1, w := w }), s)
    else (.ok ps, s)

/- What the store buffer holds. -/

/-- Bytes of a line that a thread's store buffer holds, the youngest store of each byte (R174). -/
def buffered (t : Thread) (l : Nat) : Tbl (Option Byte) :=
  t.sb.foldl (fun (b : Tbl (Option Byte)) i => match i with
    | .store e => if e.line = l ∧ e.mt ≠ .device then overlay b e.bytes else b
    | .marker => b) []

/-- Is there a store of a kind in a store buffer? -/
def anyStore (t : Thread) (p : SbEntry → Bool) : Bool :=
  t.sb.any (fun i => match i with | .store e => p e | .marker => false)

/-- Does a fence keep later loads behind a store that is still buffered (R178)? -/
def loadsWait (t : Thread) : Bool := anyStore t (fun e => e.barsLoads)

/-- Lines that a transaction has touched, buffered stores included. -/
def txLines (t : Thread) : List Nat :=
  match t.tx with
  | none => []
  | some x => (x.reads ++ x.writes ++ t.sb.filterMap (fun i => match i with
      | .store e => if e.tx then some e.line else none
      | .marker => none)).eraseDups

/-- Would an access to a line be one to a fifth line of a constrained transaction (R250)? -/
def fifthLine (t : Thread) (l : Nat) : Bool :=
  match t.tx with
  | some x => x.constrained && !(txLines t).contains l && decide (4 ≤ (txLines t).length)
  | none => false

/-- Is a constrained transaction open? -/
def inConstrained (t : Thread) : Bool := match t.tx with | some x => x.constrained | none => false

/-- A line enters the read set (R239). -/
def addRead (l : Nat) (t : Thread) : Thread :=
  { t with tx := t.tx.map (fun (x : Tx) => if x.reads.contains l then x else { x with reads := x.reads ++ [l] }) }

/-- Is a poisoned line in the open transaction's footprint (R260)? -/
def inOwnFootprint (t : Thread) (l : Nat) : Bool :=
  match t.tx with | some x => x.reads.contains l || x.writes.contains l | none => false

/-- Does a fence in the store buffer hold back an access that counts as both a load and a store (R178, R180)? -/
def fencesHold (t : Thread) : Bool := loadsWait t || t.sb.contains .marker

/- Loads. -/

/-- How many of a part's bytes the thread's own buffered stores supply (R174). -/
def covered (t : Thread) (p : Part) : Nat :=
  let buf := buffered t (p.1.pa / 256)
  ((List.range p.2.2).filter (fun i => (tget none buf (p.1.pa % 256 + i)).isSome)).length

/-- Answer of the home to a load of a NORMAL or COMMIT part (R17, R251, R451): none is due where the buffer forwards it, where
it waits, or where it is the fifth line of a constrained transaction. -/
def loadAnswer (n : Nat) (th : Bool) (p : Part) (s : State) : Option Exc × State :=
  let t := s.thr n th
  if p.1.mt = .device || loadsWait t || fifthLine t (p.1.pa / 256) || (covered t p != 0 && t.tx.isNone) then (none, s)
  else answerExc p.2.1 false (if inConstrained t then ownAnswer n th p.1.pa s else homeAnswer n th p.1.pa .read 0 s)

/-- The first error that a home answers to the parts of a load. -/
def loadAnswers (n : Nat) (th : Bool) : List Part → State → Option Exc × State
  | [], s => (none, s)
  | p :: l, s =>
    match loadAnswer n th p s with
    | (none, s) => loadAnswers n th l s
    | r => r

/-- The uses of the caches by a data access to a line (R206, R207): the L1D, and on a miss there the L2, where a hit renews
the line's age. -/
def useData (n : Nat) (th : Bool) (l : Nat) (hit : Bool) (s : State) : State :=
  let inL1 := l1Has (s.pu n).l1d l
  let s := useLine n th (.d l) (s.updPu n (fun p => { p with l1d := l1Fill l p.l1d }))
  if hit && !inL1 then useLine n th (.l2 l) s else s

/-- A load of bytes of a line from the L2, once the home lets the core have it (R205, R239, R251, R260). A constrained
transaction asks for ownership. -/
def loadHeld (n : Nat) (th : Bool) (ph : Phys) (va : Word) (k : Nat) (s : State) : Got :=
  let l := ph.pa / 256
  let t := s.thr n th
  let buf := buffered t l
  let age := if ph.mt = .normalNA then 2 else 0
  let hit := (l2State (s.pu n) l).isSome
  let q := if inConstrained t then obtainOwned n th l age s else obtainShared n th l age s
  if !q.1 || ((q.2.thr n th).tx.isNone && t.tx.isSome) then .stop q.2
  else if q.2.poisoned l then
    if inOwnFootprint t l then .stop (abortOwn n th 16 t.arch.pc q.2)
    else .exc { vec := 2, detail := 2, eaddr := va } q.2
  else
    let s := (useData n th l hit q.2).updThr n th (addRead l)
    let own := match (s.thr n th).tx with | some x => x.data | none => []
    .bytes ((List.range k).map (fun i => match tget none buf (ph.pa % 256 + i) with
      | some b => b
      | none => (tget none own (ph.pa + i)).getD (tget 0 s.mem (ph.pa + i)))) s

/-- A load of bytes of one NORMAL or COMMIT line (R174, R178, R250): forwarded from the store buffer, or read from the
line once the L2 has it. Loads of a thread are performed at their commands, in program order: of the orders that Table 7.2
leaves open this is one (R173), and the outcomes L8, L9 and L13 that R187 allows do not appear (DESIGN CHOICE,
assumption 35). -/
def loadLine (n : Nat) (th : Bool) (p : Part) (s : State) : Got :=
  let l := p.1.pa / 256
  let t := s.thr n th
  let cov := covered t p
  if fifthLine t l then .stop (abortOwn n th 11 t.arch.pc s)
  else if loadsWait t ∨ (0 < cov ∧ cov < p.2.2) then .stop s
  else if cov = p.2.2 ∧ t.tx.isNone then
    .bytes ((List.range p.2.2).map (fun i => (tget none (buffered t l) (p.1.pa % 256 + i)).getD 0)) s
  else loadHeld n th p.1 p.2.1 p.2.2 s

/-- The value that an answer carries. -/
def respWord : Resp → Option Word
  | .ok v => some v
  | .none => none
  | .error => none
  | .fenced => none
  | .dict _ _ => none
  | .tap _ => none

/-- The replay latch's entry for a request of the instruction in progress: made by the same instruction, of the same kind
(R263). -/
def replayOf (t : Thread) (k : LatchKind) : Option LatchEntry :=
  t.replay.find? (fun e => e.kind == k && e.pc == t.arch.pc)

/-- The instruction takes its result from the latch and sends no second request. -/
def takeReplay (e : LatchEntry) (t : Thread) : Thread := { t with replay := t.replay.erase e, latch := t.latch ++ [e] }

/-- Has the replay latch of 16 entries room beside those of other instructions? -/
def latchRoom (t : Thread) : Bool :=
  decide ((t.latch.filter (fun e => e.pc != t.arch.pc)).length + t.replay.length < 16)

/-- A result of a request that must not be sent twice is taken from the latch after a retry, or its request is sent: once the
comparator has passed all that came before it (R262), and while the latch has room (R263). -/
def latched (n : Nat) (th : Bool) (k : LatchKind) (put : Word → Word → State → State) (send : State → Res) (s : State) :
    Res :=
  let t := s.thr n th
  match replayOf t k with
  | some e => .done (put e.hi e.lo (s.setThr n th (takeReplay e t)))
  | none => if !comparedAll s n th || !latchRoom t then .wait s else send s

/-- A result enters the latch. -/
def addLatch (n : Nat) (th : Bool) (k : LatchKind) (hi lo : Word) (s : State) : State :=
  s.updThr n th (fun t => { t with latch := t.latch ++ [{ kind := k, pc := t.arch.pc, hi := hi, lo := lo }] })

/-- A request to a DEVICE target (R173, R185): it waits for the thread's DEVICE stores, and reports one that failed. -/
def sendDevice (n : Nat) (th : Bool) (p : Part) (s : State) : Got :=
  let t := s.thr n th
  if anyStore t (fun e => e.mt == .device) || loadsWait t || !comparedAll s n th || !latchRoom t then .stop s
  else match t.devFail with
    | some (fa, d) => .exc { vec := 7, detail := d, eaddr := fa, w := true } (s.setThr n th { t with devFail := none })
    | none =>
      let r := devRead (s.puAcc n th) p.1.pa 8 s
      match respWord r.1 with
      | some v => .bytes (toBe 8 v.toNat) (addLatch n th .deviceLoad 0 v r.2)
      | none =>
        if r.1 = .fenced then .exc { vec := 7, detail := 3, eaddr := p.2.1 } r.2
        else .exc { vec := 7, detail := 2, eaddr := p.2.1 } r.2

/-- A load from DEVICE memory (R173, R263): its result comes from the replay latch after a retry. -/
def loadDevice (n : Nat) (th : Bool) (p : Part) (s : State) : Got :=
  let t := s.thr n th
  match replayOf t .deviceLoad with
  | some e => .bytes (toBe 8 e.lo.toNat) (s.setThr n th (takeReplay e t))
  | none => sendDevice n th p s

/-- The parts of a load in order. -/
def loadParts (n : Nat) (th : Bool) : List Part → List Byte → State → Got
  | [], acc, s => .bytes acc s
  | p :: rest, acc, s =>
    match (if p.1.mt = .device then loadDevice n th p s else loadLine n th p s) with
    | .bytes l s => loadParts n th rest (acc ++ l) s
    | r => r

/-- Device loads of an instruction that waits in its course have been performed: their results return to the replay latch,
of which k entries were made before it (R263). -/
def keepRead (k : Nat) (t : Thread) : Thread := { t with replay := t.latch.drop k ++ t.replay, latch := t.latch.take k }

/-- Loads of one instruction: translation of all their parts, then the homes' answers, then the data (R79). -/
def loadAll (n : Nat) (th : Bool) (l : List (Word × Nat)) (s : State) : Got :=
  match access n th .load false l s with
  | (.error (some e), s) => .exc e s
  | (.error none, s) => .stop s
  | (.ok ps, s) =>
    match loadAnswers n th ps s with
    | (some e, s) => .exc e s
    | (none, s) =>
      match loadParts n th ps [] s with
      | .stop s' => .stop (if anyDevice ps then s'.updThr n th (keepRead (s.thr n th).latch.length) else s')
      | g => g

/-- A load of k bytes at a virtual address. -/
def load (n : Nat) (th : Bool) (va : Word) (k : Nat) (s : State) : Got := loadAll n th [(va, k)] s

/- Stores. -/

/-- Entries that a store buffer may still take: of 64 in a PU (R194), of 16 in a channel engine (R199). -/
def sbRoom (n : Nat) (t : Thread) : Nat := (if 48 ≤ n then 16 else 64) - (t.sb.filter (· != .marker)).length

/-- The store-buffer entry of a part, with its bytes. -/
def sbEntry (t : Thread) (p : Part) (bytes : List Byte) : SbEntry :=
  { line := p.1.pa / 256, mt := p.1.mt, size := p.2.2, va := p.2.1, ipc := t.arch.pc, tx := t.tx.isSome, trs := p.1.tr.toList
    bytes := (bytes.zipIdx).foldl (fun (b : Tbl (Option Byte)) x => tset none b (p.1.pa % 256 + x.2) (some x.1)) [] }

/-- Parts with the bytes that belong to each. -/
def withBytes : List Part → List Byte → List (Part × List Byte)
  | [], _ => []
  | p :: l, b => (p, b.take p.2.2) :: withBytes l (b.drop p.2.2)

/-- A store of one part goes into the store buffer, and into the trailing copy's shadow queue until it is compared (R261). -/
def pushStore (n : Nat) (th : Bool) (x : Part × List Byte) (s : State) : State :=
  s.updThr n th (fun t =>
    let e := sbEntry t x.1 x.2
    { t with sb := t.sb ++ [.store e], shadow := if noLockstep s n then t.shadow else t.shadow ++ [e] })

/-- Parts enter the store buffer in order; true where one ended the instruction with an abort (R250). -/
def pushAll (n : Nat) (th : Bool) (pc : Word) : List (Part × List Byte) → State → Bool × State
  | [], s => (false, s)
  | x :: l, s =>
    if fifthLine (s.thr n th) (x.1.1.pa / 256) then (true, abortOwn n th 11 pc s)
    else pushAll n th pc l (pushStore n th x s)

/-- Several stores of one instruction (R71, R75): every part is translated before any enters the buffer. -/
def storeAll (n : Nat) (th : Bool) (l : List (Word × List Byte)) (s : State) : Got :=
  match access n th .store true (l.map (fun x => (x.1, x.2.length))) s with
  | (.error (some e), s) => .exc e s
  | (.error none, s) => .stop s
  | (.ok ps, s) =>
    if sbRoom n (s.thr n th) < ps.length then .stop s
    else
      let q := pushAll n th (s.thr n th).arch.pc (withBytes ps (l.flatMap (·.2))) s
      if q.1 then .stop q.2 else .bytes [] q.2

/- Instructions that load or store. -/

/-- The effect of a load instruction: dst puts the value into the target register. -/
def loadBody (h : Hdr) (ea : Arch → Except Exc Ea) (size : Nat) (dst : Nat → Arch → Arch) (s : State) : Res :=
  match ea (s.thr h.pu h.th).arch with
  | .error e => .exc e s
  | .ok e =>
    match load h.pu h.th e.1 size s with
    | .exc e s => .exc e s
    | .stop s => .wait s
    | .bytes l s => .done (s.updThr h.pu h.th (fun t => { t with arch := putEa e (dst (ofBe l) t.arch) }))

/-- A load instruction. -/
def runLoad (h : Hdr) (enc : Word) (dec : Dec) (ea : Arch → Except Exc Ea) (size : Nat) (dst : Nat → Arch → Arch)
    (s : State) : State :=
  runIns h enc false false none false dec (loadBody h ea size dst) s

/-- The effect of a store instruction: src is the value, before any register update (R70). -/
def storeBody (h : Hdr) (ea : Arch → Except Exc Ea) (size : Nat) (src : Arch → Nat) (s : State) : Res :=
  match ea (s.thr h.pu h.th).arch with
  | .error e => .exc { e with w := true } s
  | .ok e =>
    match storeAll h.pu h.th [(e.1, toBe size (src (s.thr h.pu h.th).arch))] s with
    | .exc e s => .exc e s
    | .stop s => .wait s
    | .bytes _ s => .done (s.updThr h.pu h.th (fun t => { t with arch := putEa e t.arch }))

/-- A store instruction. -/
def runStore (h : Hdr) (enc : Word) (dec : Dec) (ea : Arch → Except Exc Ea) (size : Nat) (src : Arch → Nat) (s : State) :
    State :=
  runIns h enc false false none false dec (storeBody h ea size src) s

/-- A loaded value, zero-extended. -/
def putZ (d : BitVec 5) (v : Nat) (a : Arch) : Arch := a.wg d (BitVec.ofNat 64 v)

/-- A loaded value of n bytes, sign-extended. -/
def putS (n : Nat) (d : BitVec 5) (v : Nat) (a : Arch) : Arch := a.wg d (BitVec.ofInt 64 (sgn (8 * n) v))

/-- A loaded value into an F register, the high bits zero (R57). -/
def putF (d : BitVec 5) (v : Nat) (a : Arch) : Arch := a.wf d (BitVec.ofNat 128 v)

/-- Format M as an integer instruction. -/
def encM (h : Hdr) (opc : Nat) (o : MemD) : Word := encI h opc o.t o.a o.disp

/-- LD.B. -/
def execLdB (h : Hdr) (o : MemD) (s : State) : Host.Outcome State Fault Refusal :=
  .next (runLoad h (encM h 0x10 o) decOk (fun a => .ok (eaM a o)) 1 (putZ o.t) s)

/-- LD.H. -/
def execLdH (h : Hdr) (o : MemD) (s : State) : Host.Outcome State Fault Refusal :=
  .next (runLoad h (encM h 0x11 o) decOk (fun a => .ok (eaM a o)) 2 (putZ o.t) s)

/-- LD.W. -/
def execLdW (h : Hdr) (o : MemD) (s : State) : Host.Outcome State Fault Refusal :=
  .next (runLoad h (encM h 0x12 o) decOk (fun a => .ok (eaM a o)) 4 (putZ o.t) s)

/-- LD.D. -/
def execLdD (h : Hdr) (o : MemD) (s : State) : Host.Outcome State Fault Refusal :=
  .next (runLoad h (encM h 0x13 o) decOk (fun a => .ok (eaM a o)) 8 (putZ o.t) s)

/-- LDS.B. -/
def execLdsB (h : Hdr) (o : MemD) (s : State) : Host.Outcome State Fault Refusal :=
  .next (runLoad h (encM h 0x14 o) decOk (fun a => .ok (eaM a o)) 1 (putS 1 o.t) s)

/-- LDS.H. -/
def execLdsH (h : Hdr) (o : MemD) (s : State) : Host.Outcome State Fault Refusal :=
  .next (runLoad h (encM h 0x15 o) decOk (fun a => .ok (eaM a o)) 2 (putS 2 o.t) s)

/-- LDS.W. -/
def execLdsW (h : Hdr) (o : MemD) (s : State) : Host.Outcome State Fault Refusal :=
  .next (runLoad h (encM h 0x16 o) decOk (fun a => .ok (eaM a o)) 4 (putS 4 o.t) s)

/-- ST.B. -/
def execStB (h : Hdr) (o : MemD) (s : State) : Host.Outcome State Fault Refusal :=
  .next (runStore h (encM h 0x18 o) decOk (fun a => .ok (eaM a o)) 1 (fun a => (a.rg o.t).toNat) s)

/-- ST.H. -/
def execStH (h : Hdr) (o : MemD) (s : State) : Host.Outcome State Fault Refusal :=
  .next (runStore h (encM h 0x19 o) decOk (fun a => .ok (eaM a o)) 2 (fun a => (a.rg o.t).toNat) s)

/-- ST.W. -/
def execStW (h : Hdr) (o : MemD) (s : State) : Host.Outcome State Fault Refusal :=
  .next (runStore h (encM h 0x1A o) decOk (fun a => .ok (eaM a o)) 4 (fun a => (a.rg o.t).toNat) s)

/-- ST.D. -/
def execStD (h : Hdr) (o : MemD) (s : State) : Host.Outcome State Fault Refusal :=
  .next (runStore h (encM h 0x1B o) decOk (fun a => .ok (eaM a o)) 8 (fun a => (a.rg o.t).toNat) s)

/-- LDX: zero-extending, every mode and size. -/
def execLdx (h : Hdr) (o : MemX) (s : State) : Host.Outcome State Fault Refusal :=
  .next (runLoad h (encN h 0x1C o) (decN false true o) (fun a => eaN a o (sizeN false o)) (sizeN false o) (putZ o.t) s)

/-- LDSX: sign-extending. -/
def execLdsx (h : Hdr) (o : MemX) (s : State) : Host.Outcome State Fault Refusal :=
  .next (runLoad h (encN h 0x1D o) (decN false true o) (fun a => eaN a o (sizeN false o)) (sizeN false o)
    (putS (sizeN false o) o.t) s)

/-- STX. -/
def execStx (h : Hdr) (o : MemX) (s : State) : Host.Outcome State Fault Refusal :=
  .next (runStore h (encN h 0x1E o) (decN false false o) (fun a => eaN a o (sizeN false o)) (sizeN false o)
    (fun a => (a.rg o.t).toNat) s)

/-- LDF.S. -/
def execLdfS (h : Hdr) (o : MemD) (s : State) : Host.Outcome State Fault Refusal :=
  .next (runLoad h (encM h 0x20 o) decOk (fun a => .ok (eaM a o)) 4 (putF o.t) s)

/-- LDF.D. -/
def execLdfD (h : Hdr) (o : MemD) (s : State) : Host.Outcome State Fault Refusal :=
  .next (runLoad h (encM h 0x21 o) decOk (fun a => .ok (eaM a o)) 8 (putF o.t) s)

/-- LDF.Q. -/
def execLdfQ (h : Hdr) (o : MemD) (s : State) : Host.Outcome State Fault Refusal :=
  .next (runLoad h (encM h 0x22 o) decOk (fun a => .ok (eaM a o)) 16 (putF o.t) s)

/-- STF.S. -/
def execStfS (h : Hdr) (o : MemD) (s : State) : Host.Outcome State Fault Refusal :=
  .next (runStore h (encM h 0x23 o) decOk (fun a => .ok (eaM a o)) 4 (fun a => (a.rf o.t).toNat) s)

/-- STF.D. -/
def execStfD (h : Hdr) (o : MemD) (s : State) : Host.Outcome State Fault Refusal :=
  .next (runStore h (encM h 0x24 o) decOk (fun a => .ok (eaM a o)) 8 (fun a => (a.rf o.t).toNat) s)

/-- STF.Q. -/
def execStfQ (h : Hdr) (o : MemD) (s : State) : Host.Outcome State Fault Refusal :=
  .next (runStore h (encM h 0x25 o) decOk (fun a => .ok (eaM a o)) 16 (fun a => (a.rf o.t).toNat) s)

/-- LDFX. -/
def execLdfx (h : Hdr) (o : MemX) (s : State) : Host.Outcome State Fault Refusal :=
  .next (runLoad h (encN h 0x26 o) (decN true true o) (fun a => eaN a o (sizeN true o)) (sizeN true o) (putF o.t) s)

/-- STFX. -/
def execStfx (h : Hdr) (o : MemX) (s : State) : Host.Outcome State Fault Refusal :=
  .next (runStore h (encN h 0x27 o) (decN true false o) (fun a => eaN a o (sizeN true o)) (sizeN true o)
    (fun a => (a.rf o.t).toNat) s)

/- Call frames. -/

/-- Registers that a mask names, in frame order (R73). -/
def maskRegs (mask : BitVec 16) : List (BitVec 5) :=
  (allBelow 16 (fun i => mask.getLsbD i)).map (fun i => BitVec.ofNat 5 (14 + i))

/-- Size of the frame (R73). -/
def frameSize (mask : BitVec 16) : Nat := (16 + 8 * (maskRegs mask).length + 15) / 16 * 16

/-- Words of a frame in order (R73): header, LK, the named registers, and a zero where their number is odd. -/
def frameWords (mask : BitVec 16) (a : Arch) : List Word :=
  mask.setWidth 64 :: a.rg rLK :: (maskRegs mask).map a.rg ++ (if (maskRegs mask).length % 2 = 1 then [0] else [])

/-- The effect of CALLM (R73, R75): the frame is stored below SP; nothing changes unless every store completes. A target that
is not word-aligned takes the exception of R72. -/
def callmBody (h : Hdr) (b : BitVec 5) (mask : BitVec 16) (s : State) : Res :=
  let a := (s.thr h.pu h.th).arch
  let sp := a.rg rSP
  let base := sp - BitVec.ofNat 64 (frameSize mask)
  if sp.toNat % 16 ≠ 0 then .exc { vec := 8, detail := 2, eaddr := sp, w := true } s
  else if (a.rg b).toNat % 4 ≠ 0 then .exc { vec := 8, detail := 3, eaddr := a.rg b } s
  else match storeAll h.pu h.th
      (((frameWords mask a).zipIdx).map (fun (x : Word × Nat) => (base + BitVec.ofNat 64 (8 * x.2), toBe 8 x.1.toNat))) s with
    | .exc e s => .exc e s
    | .stop s => .wait s
    | .bytes _ s => .done (s.updThr h.pu h.th (fun t => { t with
        arch := { ((t.arch.wg rSP base).wg rLK (a.pc + 4)) with pc := a.rg b } }))

/-- CALLM (R73, R75). -/
def execCallm (h : Hdr) (b : BitVec 5) (mask : BitVec 16) (s : State) : Host.Outcome State Fault Refusal :=
  .next (runBranch h (encC h 0x2B b mask) false (some (0x2B * 64)) decOk (fun pc => .call (pc + 4)) (callmBody h b mask) s)

/-- The words of eight bytes each that a byte string holds. -/
def wordsOf : Nat → List Byte → List Word
  | 0, _ => []
  | n + 1, l => BitVec.ofNat 64 (ofBe (l.take 8)) :: wordsOf n (l.drop 8)

/-- The registers that a frame gives back (R74). -/
def unframe (mask : BitVec 16) (sp target : Word) (ws : List Word) (a : Arch) : Arch :=
  let b := ((maskRegs mask).zip (ws.drop 1)).foldl (fun (b : Arch) x => b.wg x.1 x.2) a
  { ((b.wg rLK (ws.headD 0)).wg rSP (sp + BitVec.ofNat 64 (frameSize mask))) with pc := target }

/-- The effect of RETM (R74, R75): the header, then every other word of the frame, then the registers. Where the header cannot
be read, an exception of a later word's translation may still come first (R79). -/
def retmBody (h : Hdr) (mask : BitVec 16) (s : State) : Res :=
  let a := (s.thr h.pu h.th).arch
  let sp := a.rg rSP
  let target := a.rg rLK
  let k := (maskRegs mask).length + 1
  let rest := (List.range k).map (fun i => (sp + BitVec.ofNat 64 (8 + 8 * i), 8))
  if sp.toNat % 16 ≠ 0 then .exc { vec := 8, detail := 2, eaddr := sp } s
  else if target.toNat % 4 ≠ 0 then .exc { vec := 8, detail := 3, eaddr := target } s
  else match load h.pu h.th sp 8 s with
    | .stop s => .wait s
    | .exc e s =>
      match transParts h.pu h.th .load false rest s with
      | (.error e', s) => .exc (firstExc e e') s
      | (.ok _, s) => .exc e s
    | .bytes head s =>
      if wordsOf 1 head ≠ [mask.setWidth 64] then .exc { vec := 9, detail := 4, eaddr := sp } s
      else match loadAll h.pu h.th rest s with
        | .exc e s => .exc e s
        | .stop s => .wait s
        | .bytes l s => .done (s.updThr h.pu h.th (fun t => { t with arch := unframe mask sp target (wordsOf k l) t.arch }))

/-- RETM (R74, R75): the frame's header must hold the mask. -/
def execRetm (h : Hdr) (mask : BitVec 16) (s : State) : Host.Outcome State Fault Refusal :=
  .next (runBranch h (encC h 0x2C 0 mask) false (some (0x2C * 64)) decOk (fun _ => .ret) (retmBody h mask) s)

/- The performing of stores. -/

/-- Bytes, each with its address, are put in coherent memory. -/
def putBytes (bytes : List (Nat × Byte)) (s : State) : State := { s with mem := memPuts s.mem bytes }

/-- Bytes are written into a line that PU n owns (R239, R222): a dirty L3 copy reaches the controllers first, so that
what lies below the L2 is the value before; the line is in M and its ownership hold has ended. -/
def writeOwned (n l : Nat) (bytes : List (Nat × Byte)) (s : State) : State :=
  let s := match l3Find s l with
    | some w => if l3Dirty s l then updL3 (l3Set l * 16 + w) (fun x => { x with dirty := false }) (s.flushLine l) else s
    | none => s
  let s := if bytes.length = 256 then s.clearPoison l else s
  (putBytes bytes s).updPu n (l2Upd l (fun w => { w with st := .m, held := false }))

/-- A COMMIT line may be written by thread th of PU n: its block has a grant, and it is tracked (R182, R325). -/
def commitReady (n : Nat) (th : Bool) (l : Nat) (s : State) : Bool × State :=
  if !isCommit s l then (true, s)
  else match askGrant (s.puAcc n th) (lineBlock l) s with
    | (false, s) => (false, s)
    | (true, s) => trackCommit n th l s

/-- The bytes of an entry with their physical addresses. -/
def entryBytes (e : SbEntry) : List (Nat × Byte) := e.bytes.map (fun x => (256 * e.line + x.1, x.2.getD 0))

/-- An item leaves a store buffer, and markers that have nothing before them with it (R180). -/
def sbDrop (i : Nat) (t : Thread) : Thread := { t with sb := (t.sb.eraseIdx i).dropWhile (· == .marker) }

/-- k stores of a zone are discarded by its reset (R443 step 3): LOST, ZM.ZRST_LOST, and ZRST_LOSS as class C3. -/
def zrstLoss (z : Fin 16) (k : Nat) (s : State) : State :=
  if k = 0 then s
  else raiseC3 .zm 11 z 0 z
    { s.updZone z (fun x => { x with lost := satAdd 0xFFFF x.lost k }) with zrstLost := satAdd 0xFFFFFFFF s.zrstLost k }

/-- The zone of a PU while its reset drains stores (Table 16.12 step 3). -/
def drainingZone (s : State) (n : Nat) : Option (Fin 16) :=
  (s.puZone n).filter (fun z => (s.zone z).resetBusy && (s.zone z).drainDue)

/-- A store that its target has not taken is lost (R185); at a fenced target during its zone's reset as R443 step 3 gives. Of
a channel engine Table 17.8 names no such source. -/
def storeGone (n : Nat) (th : Bool) (pa : Nat) (fenced : Bool) (s : State) : State :=
  match if fenced then drainingZone s n else none with
  | some z => zrstLoss z 1 s
  | none => if 48 ≤ n then s else raiseZone (coreBlk n) 19 th.toNat (pa / 256 % 2 ^ 32) (s.puZone n) s

/-- Before the first transactional store to a line, its dirty data leave the L2 (R240). False: a grant is waited for. -/
def cleanBefore (n : Nat) (th : Bool) (l : Nat) (s : State) : Bool × State :=
  if !heldM s n l || inOwnFootprint { (s.thr n th) with tx := (s.thr n th).tx.map (fun (x : Tx) => { x with reads := [] }) } l then
    (true, s)
  else if isCommit s l then cleanTracked n th l s
  else (true, (l3Insert l true 1 s).updPu n (l2Upd l (fun w => { w with st := .e })))

/-- A transactional store drains into the L2 (R239, R240, R243): the line enters the write set, and its bytes stay in
the thread's transaction. -/
def drainTx (n : Nat) (th : Bool) (i : Nat) (e : SbEntry) (s : State) : State :=
  match (s.thr n th).tx with
  | none => s.updThr n th (sbDrop i)
  | some x =>
    let isNew := !x.writes.contains e.line
    if isNew && isCommit s e.line && decide (64 ≤ (x.writes.filter (isCommit s)).length) then abortOwn n th 9 e.ipc s
    else
      let (ok, s) := if isCommit s e.line then askGrant (s.puAcc n th) (lineBlock e.line) s else (true, s)
      if !ok then s
      else match cleanBefore n th e.line s with
        | (false, s) => s
        | (true, s) =>
          match obtainOwned n th e.line (if e.mt = .normalNA then 2 else 0) s with
          | (false, s) => s
          | (true, s) =>
            (s.updPu n (l2Upd e.line (fun w => { w with held := false }))).updThr n th (fun t => sbDrop i { t with
              tx := t.tx.map (fun (x : Tx) => { x with
                writes := if isNew then x.writes ++ [e.line] else x.writes
                data := (entryBytes e).foldl (fun (d : Tbl (Option Byte)) b => tset none d b.1 (some b.2)) x.data }) })

/-- A transactional store whose target does not take it counts as lost when the transaction commits (R185, R243). -/
def addLost (pa : Nat) (fenced : Bool) (t : Thread) : Thread :=
  { t with tx := t.tx.map (fun (x : Tx) => { x with lost := x.lost ++ [(pa, fenced)] }) }

/-- The bytes of a line's entry are performed in the L2; COMMIT data of a channel engine go on to the controllers (R184). -/
def storeLine (n : Nat) (th : Bool) (i : Nat) (e : SbEntry) (s : State) : State :=
  let s := writeOwned n e.line (entryBytes e) (s.updThr n th (sbDrop i))
  if decide (48 ≤ n) && isCommit s e.line then copiesClean e.line (s.flushLine e.line) else s

/-- A NORMAL or COMMIT store is performed (R169, R182, R185). -/
def drainLine (n : Nat) (th : Bool) (i : Nat) (e : SbEntry) (s : State) : State :=
  let pa := 256 * e.line + (e.bytes.headD (0, none)).1
  match ownAnswer n th pa s with
  | (some d, s) =>
    let s := s.updThr n th (sbDrop i)
    if e.tx then s.updThr n th (addLost pa (d == 3)) else storeGone n th pa (d == 3) s
  | (none, s) =>
    if e.tx then drainTx n th i e s
    else match commitReady n th e.line s with
      | (false, s) => s
      | (true, s) =>
        match obtainOwned n th e.line (if e.mt = .normalNA then 2 else 0) s with
        | (false, s) => s
        | (true, s) => storeLine n th i e s

/-- A DEVICE store reaches its target (R173, R185): the first failure is kept for the next SYNC.EP or DEVICE load. -/
def drainDevice (n : Nat) (th : Bool) (i : Nat) (e : SbEntry) (s : State) : State :=
  let pa := 256 * e.line + (e.bytes.headD (0, none)).1
  let v := BitVec.ofNat 64 (ofBe (e.bytes.map (fun x => x.2.getD 0)))
  let (r, s) := devWrite (s.puAcc n th) pa 8 v s
  let s := s.updThr n th (sbDrop i)
  let fail := fun (d : Nat) (s : State) => s.updThr n th (fun t => { t with devFail := match t.devFail with
    | some f => some f
    | none => some (e.va, d) })
  match r with
  | .fenced =>
    match drainingZone s n with
    | some z => zrstLoss z 1 (fencedTarget n pa s)
    | none => fail 3 (fencedTarget n pa s)
  | .error => fail 2 s
  | _ => s

/-- The DEVICE target of an entry: what one access table governs, so a whole island's register blocks (R446, Table 19.4). -/
def entryTarget (e : SbEntry) : Nat := tabNum (targetTable (target (256 * e.line)))

/-- May item i of a store buffer be performed now (R180, R195)? It is released, no store before a marker before it is
left, it is among the 8 oldest (so that no more than 8, and never 16 DEVICE stores, are on their way), and no older entry of
its line, or of its DEVICE target, is left. A channel engine performs its stores in allocation order (R199). -/
def mayDrain (n : Nat) (sb : List SbItem) (i : Nat) (e : SbEntry) : Bool :=
  let before := sb.take i
  let older := before.filterMap (fun x => match x with | .store o => some o | .marker => none)
  let fenced := (before.reverse.dropWhile (· != .marker)).any (· != .marker)
  e.released && !fenced && decide (older.length < 8) && (decide (n < 48) || older.isEmpty) &&
    older.all (fun o => o.line != e.line && !(o.mt == .device && e.mt == .device && entryTarget o == entryTarget e))

/-- Entries begin to drain in allocation order: item i, and with it those before it (R195). -/
def beginDrain (i : Nat) (t : Thread) : Thread :=
  { t with sb := (t.sb.take (i + 1)).map (fun x => match x with
      | .store e => .store { e with draining := true }
      | .marker => .marker) ++ t.sb.drop (i + 1) }

/-- STORE_BUFFER_DRAIN (R195): item i of the thread's store buffer. One that has to wait accepts no merge any more. -/
def execStoreBufferDrain (pu : Fin 84) (th : Bool) (i : Nat) (s : State) : Host.Outcome State Fault Refusal :=
  .next (match (s.thr pu th).sb[i]? with
    | some (.store e) =>
      if !mayDrain pu (s.thr pu th).sb i e || !clocked s pu then s
      else
        let s := s.updThr pu th (beginDrain i)
        after (settled (if e.mt = .device then drainDevice pu th i e s else drainLine pu th i e s))
    | _ => s)

end Sys2Proof.Machine
end

