-- ==== Sys2Proof/Machine/Atom.lean ====
section
/-! DEFINITION. Reserved loads, conditional stores and atomics (R188 to R193), fences and SYNC.EP (R178 to R182), and
transactions (R236 to R243). -/

namespace Sys2Proof.Machine

/-- Operand check and translation of the ATOM group (R191, Table 3.10): natural alignment, and no DEVICE memory. -/
def atomAccess (n : Nat) (th : Bool) (u : Use) (w : Bool) (va : Word) (k : Nat) (s : State) : (Except Exc Part) × State :=
  if va.toNat % k ≠ 0 then (.error { vec := 8, detail := 1, eaddr := va, w := w }, s)
  else match transParts n th u w [(va, k)] s with
    | (.ok (p :: _), s) =>
      if p.1.mt = .device then (.error { vec := 7, detail := 4, eaddr := va, w := w }, s) else (.ok p, s)
    | (.ok [], s) => (.error { vec := 5, detail := 1, eaddr := va, w := w }, s)
    | (.error e, s) => (.error e, s)

/-- Does the thread's store buffer hold a store to a line? -/
def buffersLine (t : Thread) (l : Nat) : Bool := anyStore t (fun e => e.line == l && e.mt != .device)

/-- LRES has the line to itself: in M, or in E, obtained where the core holds it in neither state (R188). -/
def ownForLres (n : Nat) (th : Bool) (l : Nat) (s : State) : Bool × State :=
  match l2State (s.pu n) l with
  | some .m => (true, s)
  | some .e => (true, s)
  | _ =>
    match obtainOwned n th l 0 s with
    | (false, s) => (false, s)
    | (true, s) => (true, s.updPu n (l2Upd l (fun w => { w with st := .e })))

/-- LRES of k bytes (R188): the line in E or M, and the reservation. -/
def runLres (h : Hdr) (enc : Word) (k : Nat) (d a : BitVec 5) (s : State) : State :=
  runIns h enc false false none true decOk (fun s =>
    let n := h.pu.val
    let va := (s.thr n h.th).arch.rg a
    match atomAccess n h.th .load false va k s with
    | (.error e, s) => .exc e s
    | (.ok p, s) =>
      let l := p.1.pa / 256
      if fencesHold (s.thr n h.th) then .wait s
      else match answerExc va false (homeAnswer n h.th p.1.pa .read 0 s) with
        | (some e, s) => .exc e s
        | (none, s) =>
          match loadLine n h.th p s with
          | .exc e s => .exc e s
          | .stop s => .wait s
          | .bytes b s =>
            match ownForLres n h.th l s with
            | (false, s) => .wait s
            | (true, s) =>
              .done (s.updThr n h.th (fun t => { t with arch := t.arch.wg d (BitVec.ofNat 64 (ofBe b)), resv := some l }))) s

/-- The store of an SCOND whose reservation covers the line (R188): performed before Gd is written. -/
def scondStore (n : Nat) (th : Bool) (pa : Nat) (bytes : List Byte) (put : Word → State → State) (s : State) : Res :=
  let l := pa / 256
  match commitReady n th l s with
  | (false, s) => .wait s
  | (true, s) =>
    match obtainOwned n th l 0 s with
    | (false, s) => .wait s
    | (true, s) =>
      if (s.thr n th).resv ≠ some l then .wait s
      else .done (put 0 (addLatch n th .scond 0 0 (writeOwned n l (bytes.zipIdx.map (fun (x : Byte × Nat) => (pa + x.2, x.1))) s)))

/-- SCOND of k bytes (R188): stored only under the reservation. -/
def runScond (h : Hdr) (enc : Word) (k : Nat) (d a b : BitVec 5) (s : State) : State :=
  runIns h enc false false none true decOk (fun s =>
    let n := h.pu.val
    let arch := (s.thr n h.th).arch
    let va := arch.rg a
    match atomAccess n h.th .store true va k s with
    | (.error e, s) => .exc e s
    | (.ok p, s) =>
      let l := p.1.pa / 256
      let put := fun (lo : Word) (s : State) => s.updThr n h.th (fun t => { t with arch := t.arch.wg d lo, resv := none })
      latched n h.th .scond (fun _ lo s => put lo s) (fun s =>
        let t := s.thr n h.th
        if t.resv ≠ some l then .done (put 1 (addLatch n h.th .scond 0 1 s))
        else if buffersLine t l || fencesHold t then .wait s
        else scondStore n h.th p.1.pa (toBe k (arch.rg b).toNat) put s) s) s

/-- LRES.D. -/
def execLresD (h : Hdr) (d a : BitVec 5) (s : State) : Host.Outcome State Fault Refusal :=
  .next (runLres h (encT h 0x33 0x00 d a 0 false) 8 d a s)

/-- SCOND.D. -/
def execScondD (h : Hdr) (d a b : BitVec 5) (s : State) : Host.Outcome State Fault Refusal :=
  .next (runScond h (encT h 0x33 0x01 d a b false) 8 d a b s)

/-- LRES.W: zero-extended. -/
def execLresW (h : Hdr) (d a : BitVec 5) (s : State) : Host.Outcome State Fault Refusal :=
  .next (runLres h (encT h 0x33 0x02 d a 0 false) 4 d a s)

/-- SCOND.W: stores Gb[31:0]. -/
def execScondW (h : Hdr) (d a b : BitVec 5) (s : State) : Host.Outcome State Fault Refusal :=
  .next (runScond h (encT h 0x33 0x03 d a b false) 4 d a b s)

/-- An atomic in the requester's L2 (Table 7.6): the line is in M there. -/
def amoLocal (n : Nat) (pa : Nat) (op : AmoOp) (x y : Quad) (own : Option (Nat × Bool)) (s : State) : Nat × State :=
  let k := amoSize op
  let l := pa / 256
  let old := ofBe (s.rd pa k)
  let s := match own with
    | some o => endReservations l own (conflicts l true none (requesterId (s.puAcc n o.2) 4) own s)
    | none => s
  match amoVal op old x y with
  | none => (old, s)
  | some v => (old, writeOwned n l ((toBe k v).zipIdx.map (fun (b : Byte × Nat) => (pa + b.2, b.1))) s)

/-- A request that has to wait stands in the list of its line (R221). -/
def waitLine (n : Nat) (th : Bool) (l : Nat) (s : State) : Res := .wait (standBy (.line (s.puAcc n th) l) s)

/-- The place of an atomic and its execution there (Table 7.6): the requester's L2 for a NORMAL line in M, else the home or
the controllers; fin ends the instruction with the old value. -/
def amoPlace (n : Nat) (th : Bool) (pa : Nat) (va : Word) (op : AmoOp) (x y : Quad) (fin : Nat → State → State) (s : State) :
    Res :=
  let l := pa / 256
  let a := s.puAcc n th
  let loc := heldM s n l && !isCommit s l
  match (if loc then (none, s) else answerExc va true (asked a pa .atomic 4 s)) with
  | (some e, s) => .exc e s
  | (none, s) =>
    if s.poisoned l then .exc { vec := 2, detail := 2, eaddr := va, w := true } s
    else if !lineTurn a l s || homeBusy s l then waitLine n th l s
    else match pinsLet a none l s with
      | (false, s) => waitLine n th l s
      | (true, s) =>
        if loc then
          let r := amoLocal n pa op x y (some (n, th)) s
          .done (fin r.1 (lineOut a l r.2))
        else match amoHome a pa op x y (some (n, th)) s with
          | (false, _, s) => waitLine n th l s
          | (true, old, s) => .done (fin old (lineOut a l s))

/-- An atomic (R191 to R193): x the operand or the expected value, y what a comparison stores; dst puts the old value
(high and low doubleword) into its registers. -/
def runAmo (h : Hdr) (enc : Word) (micro : Option Nat) (dec : Dec) (op : AmoOp) (a : BitVec 5) (x y : Arch → Quad)
    (dst : Word → Word → Arch → Arch) (s : State) : State :=
  runIns h enc false false micro true dec (fun s =>
    let n := h.pu.val
    let arch := (s.thr n h.th).arch
    let va := arch.rg a
    match atomAccess n h.th .rmw true va (amoSize op) s with
    | (.error e, s) => .exc e s
    | (.ok p, s) =>
      let put := fun (hi lo : Word) (s : State) => s.updThr n h.th (fun t => { t with arch := dst hi lo t.arch })
      let fin := fun (old : Nat) (s : State) =>
        let hi := BitVec.ofNat 64 (old / 2 ^ 64)
        let lo := BitVec.ofNat 64 old
        put hi lo (addLatch n h.th .atomic hi lo s)
      latched n h.th .atomic put (fun s =>
        if buffersLine (s.thr n h.th) (p.1.pa / 256) || fencesHold (s.thr n h.th) then .wait s
        else amoPlace n h.th p.1.pa va op (x arch) (y arch) fin s) s) s

/-- AMO.op (R191). -/
def runAmo8 (h : Hdr) (fn : Nat) (op : AmoOp) (d a b : BitVec 5) (s : State) : State :=
  runAmo h (encT h 0x33 fn d a b false) none decOk op a (fun r => (r.rg b).setWidth 128) (fun _ => 0)
    (fun _ lo r => r.wg d lo) s

/-- AMO.SWP. -/
def execAmoSwp (h : Hdr) (d a b : BitVec 5) (s : State) : Host.Outcome State Fault Refusal := .next (runAmo8 h 0x08 .swp d a b s)

/-- AMO.ADD. -/
def execAmoAdd (h : Hdr) (d a b : BitVec 5) (s : State) : Host.Outcome State Fault Refusal := .next (runAmo8 h 0x09 .add d a b s)

/-- AMO.AND. -/
def execAmoAnd (h : Hdr) (d a b : BitVec 5) (s : State) : Host.Outcome State Fault Refusal := .next (runAmo8 h 0x0A .and d a b s)

/-- AMO.OR. -/
def execAmoOr (h : Hdr) (d a b : BitVec 5) (s : State) : Host.Outcome State Fault Refusal := .next (runAmo8 h 0x0B .or d a b s)

/-- AMO.XOR. -/
def execAmoXor (h : Hdr) (d a b : BitVec 5) (s : State) : Host.Outcome State Fault Refusal := .next (runAmo8 h 0x0C .xor d a b s)

/-- AMO.MAX, signed. -/
def execAmoMax (h : Hdr) (d a b : BitVec 5) (s : State) : Host.Outcome State Fault Refusal := .next (runAmo8 h 0x0D .max d a b s)

/-- AMO.MIN, signed. -/
def execAmoMin (h : Hdr) (d a b : BitVec 5) (s : State) : Host.Outcome State Fault Refusal := .next (runAmo8 h 0x0E .min d a b s)

/-- AMO.MAXU. -/
def execAmoMaxu (h : Hdr) (d a b : BitVec 5) (s : State) : Host.Outcome State Fault Refusal := .next (runAmo8 h 0x0F .maxu d a b s)

/-- AMO.MINU. -/
def execAmoMinu (h : Hdr) (d a b : BitVec 5) (s : State) : Host.Outcome State Fault Refusal := .next (runAmo8 h 0x10 .minu d a b s)

/-- CAS: the expected value in Gd. -/
def execCas (h : Hdr) (d a b : BitVec 5) (s : State) : Host.Outcome State Fault Refusal :=
  .next (runAmo h (encT h 0x33 0x18 d a b false) none decOk .cas a (fun r => (r.rg d).setWidth 128)
    (fun r => (r.rg b).setWidth 128) (fun _ lo r => r.wg d lo) s)

/-- CAS2: the pairs Gd, G(d+1) and Gb, G(b+1), both even (R63). -/
def execCas2 (h : Hdr) (d a b : BitVec 5) (s : State) : Host.Outcome State Fault Refusal :=
  .next (runAmo h (encT h 0x33 0x19 d a b false) (some (0x33 * 64 + 0x19))
    (decIf (d.toNat % 2 == 1 || b.toNat % 2 == 1) 4) .cas2 a (fun r => r.rg d ++ r.rg (d + 1)) (fun r => r.rg b ++ r.rg (b + 1))
    (fun hi lo r => (r.wg d hi).wg (d + 1) lo) s)

/- Fences. -/

/-- A fence in the store buffer (R178, R180): earlier stores keep later loads behind them, or a marker keeps later
stores behind them. Inside a transaction the fences have no effect (R241). -/
def fence (sl ss : Bool) (t : Thread) : Thread :=
  if t.tx.isSome || !t.sb.any (· != .marker) then t
  else
    let sb := if sl then t.sb.map (fun i => match i with
      | .store e => .store { e with barsLoads := true }
      | .marker => .marker) else t.sb
    { t with sb := if ss then sb ++ [.marker] else sb }

/-- A FENCE instruction. -/
def runFence (h : Hdr) (fn : Nat) (sl ss : Bool) (s : State) : State :=
  runIns h (encT h 0x34 fn 0 0 0 false) false false none false decOk
    (fun s => .done (s.updThr h.pu h.th (fence sl ss))) s

/-- FENCE.LL: loads of a thread are performed in program order here. -/
def execFenceLL (h : Hdr) (s : State) : Host.Outcome State Fault Refusal := .next (runFence h 0x00 false false s)

/-- FENCE.LS. -/
def execFenceLS (h : Hdr) (s : State) : Host.Outcome State Fault Refusal := .next (runFence h 0x01 false false s)

/-- FENCE.SL. -/
def execFenceSL (h : Hdr) (s : State) : Host.Outcome State Fault Refusal := .next (runFence h 0x02 true false s)

/-- FENCE.SS. -/
def execFenceSS (h : Hdr) (s : State) : Host.Outcome State Fault Refusal := .next (runFence h 0x03 false true s)

/-- FENCE.ALL. -/
def execFenceAll (h : Hdr) (s : State) : Host.Outcome State Fault Refusal := .next (runFence h 0x04 true true s)

/-- SYNC.EP (R181): its probes leave once what came before it has compared (R262); then the thread waits, and nothing later
issues before it completes. -/
def execSyncEp (h : Hdr) (s : State) : Host.Outcome State Fault Refusal :=
  let enc := encT h 0x34 0x08 0 0 0 false
  .next (runIns h enc false false (some (0x34 * 64 + 0x08)) true decOk
    (fun s => .wait (if !comparedAll s h.pu h.th then s
      else s.updThr h.pu h.th (fun t => { fence true true t with wait := .sync enc }))) s)

/-- Every tracked line of a PU is cleaned (R182). False: one waits for a grant. -/
def cleanAll (n : Nat) (th : Bool) : List Nat → State → Bool × State
  | [], s => (true, s)
  | l :: r, s =>
    match cleanTracked n th l s with
    | (false, s) => (false, s)
    | (true, s) => cleanAll n th r s

/-- SYNC_EP_COMPLETE (R181, R185): with every store of the thread at its endpoint and the tracker clean, SYNC.EP retires,
or reports a DEVICE store that failed. Data in the homes' writeback buffers have left them. -/
def execSyncEpComplete (pu : Fin 84) (th : Bool) (s : State) : Host.Outcome State Fault Refusal :=
  let t := s.thr pu th
  .next (match t.wait with
    | .sync enc =>
      if t.sb.any (· != .marker) ∨ !t.running ∨ (s.pu pu).retrying ∨ !clocked s pu then s
      else (match t.devFail with
        | some (fa, d) =>
          takeExc pu th enc false { vec := 7, detail := d, eaddr := fa, w := true }
            (s.setThr pu th { t with wait := .none, devFail := none })
        | none =>
          match cleanAll pu th (s.pu pu).tracker s with
          | (false, s) => s
          | (true, s) =>
            let s := drainWbuf s
            if !s.coh.wbuf.isEmpty then s
            else retire pu th (advance pu th 4 (s.updThr pu th (fun t => { t with wait := .none }))))
    | _ => s)

/- Transactions. -/

/-- A transaction opens (R236 to R238, R252): only when no store of the thread is left; Gd := 0, T := 1, and the
reservation is lost. A restart keeps the stamp. -/
def txBegin (n : Nat) (th constrained : Bool) (d : BitVec 5) (s : State) : Res :=
  let t := s.thr n th
  if t.sb.any (· != .marker) then .wait s
  else
    let stamp := if constrained then t.stamp.getD s.tb.tod else 0
    let x : Tx := {
      constrained := constrained, depth := 1, saved := t.arch, openPc := t.arch.pc, d := d, stamp := stamp, retired := 0
      reads := [], writes := [], data := [] }
    .done (s.setThr n th { t with
      arch := { t.arch.wg d 0 with sw := putBit 23 true t.arch.sw }, tx := some x, resv := none
      stamp := if constrained then some stamp else none })

/-- TXOPEN and TXOPEN.B: inside an unconstrained transaction the depth rises, at 32 it aborts with code 1; inside a
constrained one it aborts with code 12 (R237, R250; TXOPEN.B inside an unconstrained transaction nests: PRESUMED,
assumption 22). -/
def txOpen (h : Hdr) (fn : Nat) (constrained : Bool) (d : BitVec 5) (s : State) : State :=
  runIns h (encT h 0x35 fn d 0 0 false) false false (some (0x35 * 64 + fn)) false decOk (fun s =>
    let n := h.pu.val
    let t := s.thr n h.th
    match t.tx with
    | none => txBegin n h.th constrained d s
    | some x =>
      if x.constrained then .wait (abortOwn n h.th 12 t.arch.pc s)
      else if x.depth = 31 then .wait (abortOwn n h.th 1 t.arch.pc s)
      else .done (s.setThr n h.th { t with
        arch := t.arch.wg d 0, tx := some { x with depth := x.depth + 1 }, resv := none })) s

/-- TXOPEN. -/
def execTxopen (h : Hdr) (d : BitVec 5) (s : State) : Host.Outcome State Fault Refusal := .next (txOpen h 0x00 false d s)

/-- TXOPEN.B. -/
def execTxopenB (h : Hdr) (d : BitVec 5) (s : State) : Host.Outcome State Fault Refusal := .next (txOpen h 0x01 true d s)

/-- Written COMMIT lines have their grants and enter the tracker (R243). False: the commit waits. -/
def trackAll (n : Nat) (th : Bool) : List Nat → State → Bool × State
  | [], s => (true, s)
  | l :: r, s =>
    match commitReady n th l s with
    | (false, s) => (false, s)
    | (true, s) => trackAll n th r s

/-- The commit (R238, R243): every transactional byte becomes visible at once; marks and pins clear. Stores that their target
did not take are lost now, when they count as retired (R185). -/
def txCommit (n : Nat) (th : Bool) (d : BitVec 5) (x : Tx) (s : State) : Res :=
  let t := s.thr n th
  if t.sb.any (· != .marker) ∨ !comparedAll s n th then .wait s
  else match trackAll n th x.writes s with
    | (false, s) => .wait s
    | (true, s) =>
      let s := x.writes.foldl (fun (s : State) l =>
        writeOwned n l ((x.data.filter (fun b => b.1 / 256 == l)).map (fun b => (b.1, b.2.getD 0))) (endReservations l (some (n, th)) s)) s
      let s := { s with coh := { s.coh with pins := s.coh.pins.filter (fun e => match e.2 with
        | some p => !(p.req.master.toNat == n && p.req.th == th)
        | none => true) } }
      let s := x.lost.foldl (fun (s : State) e => storeGone n th e.1 e.2 s) s
      .done (settled (s.updThr n th (fun t =>
        let a := { t.arch.wg d 0 with sw := putBit 23 false t.arch.sw }
        { t with
          arch := a, ckpt := { a with pc := a.pc + 4 }, ckGh := t.gh, ckRas := t.ras, latch := [], shadow := []
          tx := none, resv := none, stamp := none })))

/-- TXCLOSE (R236, R237). The committing one retires after comparison (R238): the work before it has been compared, and
it is compared with it. -/
def execTxclose (h : Hdr) (d : BitVec 5) (s : State) : Host.Outcome State Fault Refusal :=
  .next (runIns h (encT h 0x35 0x02 d 0 0 false) false false (some (0x35 * 64 + 0x02)) false decOk (fun s =>
    let n := h.pu.val
    let t := s.thr n h.th
    match t.tx with
    | none => .done (s.setThr n h.th { t with arch := t.arch.wg d 0xFFFFFFFFFFFFFFFF })
    | some x =>
      if 1 < x.depth then
        .done (s.setThr n h.th { t with
          arch := t.arch.wg d (BitVec.ofNat 64 (x.depth - 1)), tx := some { x with depth := x.depth - 1 }, resv := none })
      else txCommit n h.th d x s) s)

/-- TXDROP (R236): code 0x80 + Ga[6:0]; no effect outside a transaction. -/
def execTxdrop (h : Hdr) (a : BitVec 5) (s : State) : Host.Outcome State Fault Refusal :=
  .next (runIns h (encT h 0x35 0x03 0 a 0 false) false false (some (0x35 * 64 + 0x03)) false decOk (fun s =>
    let n := h.pu.val
    let t := s.thr n h.th
    if t.tx.isSome then .wait (abortOwn n h.th (0x80 + (t.arch.rg a).toNat % 128) t.arch.pc s) else .done s) s)

end Sys2Proof.Machine
end

