-- ==== Sys2Proof/Machine/Flags.lean ====
section
/-! DEFINITION. Results and flags of the integer instructions (Table 4.1) and of the comparisons (Tables 4.1 and 4.5). -/

namespace Sys2Proof.Machine

/-- A 64-bit result with the flags N, Z, C and V that its instruction gives. -/
structure Alu where
  r : Word
  n : Bool
  z : Bool
  c : Bool
  v : Bool
deriving DecidableEq, Repr

/-- C and V as a thread holds them. -/
def Arch.c (a : Arch) : Bool := bit 29 a.sw

/-- V of S.SW. -/
def Arch.v (a : Arch) : Bool := bit 28 a.sw

/-- Result r with N and Z from it, C and V unchanged (the logical row of Table 4.1). -/
def aluNZ (a : Arch) (r : Word) : Alu := { r := r, n := r.msb, z := r == 0, c := a.c, v := a.v }

/-- x + y + carry in: ADD and ADC, and SUB and SBC with y inverted (C is then "no borrow"). -/
def aluAdd (x y : Word) (cin : Bool) : Alu :=
  let r := x + y + BitVec.ofNat 64 cin.toNat
  { r := r, n := r.msb, z := r == 0, c := decide (2 ^ 64 ≤ x.toNat + y.toNat + cin.toNat)
    v := x.msb == y.msb && r.msb != x.msb }

/-- x − y − (1 − carry). -/
def aluSub (x y : Word) (cin : Bool) : Alu := aluAdd x (~~~y) cin

/-- CMPU: N below, Z equal, C at or above, V 0. -/
def aluCmpu (x y : Word) : Alu :=
  { r := 0, n := decide (x.toNat < y.toNat), z := x == y, c := decide (y.toNat ≤ x.toNat), v := false }

/-- Kinds of shifts and rotates. -/
inductive Shift where
  | shl | shr | sar | rol | ror
deriving DecidableEq, Repr

/-- Shift or rotate by 0 to 63; C is the last bit shifted out or carried round, unchanged for a count of 0 (R86). -/
def aluShift (k : Shift) (a : Arch) (x : Word) (cnt : Nat) : Alu :=
  let r := match k with
    | .shl => x <<< cnt
    | .shr => x >>> cnt
    | .sar => x.sshiftRight cnt
    | .rol => x.rotateLeft cnt
    | .ror => x.rotateRight cnt
  let out := match k with
    | .shl => x.getLsbD (64 - cnt)
    | .shr => x.getLsbD (cnt - 1)
    | .sar => x.getLsbD (cnt - 1)
    | .rol => r.getLsbD 0
    | .ror => r.msb
  { r := r, n := r.msb, z := r == 0, c := if cnt = 0 then a.c else out, v := a.v }

/-- Leading zeros of a word; 64 for 0. -/
def clzOf (w : Word) : Nat := ((List.range 64).find? (fun i => w.getLsbD (63 - i))).getD 64

/-- Trailing zeros of a word; 64 for 0. -/
def ctzOf (w : Word) : Nat := ((List.range 64).find? (fun i => w.getLsbD i)).getD 64

/-- Number of ones. -/
def popOf (w : Word) : Nat := ((List.range 64).filter (fun i => w.getLsbD i)).length

/-- MUL (Table 4.1). -/
def aluMul (x y : Word) : Alu :=
  let r := x * y
  let p := x.toInt * y.toInt
  { r := r, n := r.msb, z := r == 0, c := decide (2 ^ 64 ≤ x.toNat * y.toNat), v := decide (p < -2 ^ 63 ∨ 2 ^ 63 ≤ p) }

/-- 128-bit signed product, as a number below 2^128. -/
def wideS (x y : Word) : Nat := usgn 128 (x.toInt * y.toInt)

/-- 128-bit unsigned product. -/
def wideU (x y : Word) : Nat := x.toNat * y.toNat

/-- Quotient and remainder of a division whose divisor is not 0 (R91, Table 4.2): C 0, V for SDIV's overflow. -/
def aluQuot (r : Word) (v : Bool) : Alu := { r := r, n := r.msb, z := r == 0, c := false, v := v }

/-- SDIV. -/
def aluSdiv (x y : Word) : Alu :=
  aluQuot (BitVec.ofInt 64 (Int.tdiv x.toInt y.toInt)) (x == 0x8000000000000000 && y == 0xFFFFFFFFFFFFFFFF)

/-- UDIV. -/
def aluUdiv (x y : Word) : Alu := aluQuot (BitVec.ofNat 64 (x.toNat / y.toNat)) false

/-- SREM. -/
def aluSrem (x y : Word) : Alu := aluQuot (BitVec.ofInt 64 (Int.tmod x.toInt y.toInt)) false

/-- UREM. -/
def aluUrem (x y : Word) : Alu := aluQuot (BitVec.ofNat 64 (x.toNat % y.toNat)) false

/-- Flags of a result into S.SW. -/
def Arch.putFlags (a : Arch) (x : Alu) : Arch := a.setFlags x.n x.z x.c x.v

/-- Gd := r, and the flags where S is 1 (R87). -/
def Arch.putAlu (a : Arch) (d : BitVec 5) (s : Bool) (x : Alu) : Arch :=
  let b := a.wg d x.r
  if s then b.putFlags x else b

/-- Relations of Table 4.5. -/
inductive Rel where
  | less | equal | greater | unordered
deriving DecidableEq, Repr

/-- Flags of a floating-point comparison (Table 4.5). -/
def Arch.putRel (a : Arch) : Rel → Arch
  | .less => a.setFlags true false false false
  | .equal => a.setFlags false true true false
  | .greater => a.setFlags false false true false
  | .unordered => a.setFlags false false true true

end Sys2Proof.Machine
end

