-- ==== Sys2Proof/Machine/Num.lean ====
section
/-! DEFINITION. Exact floating-point arithmetic in radix 2 or 10 and its rounding (R94, R98 to R110). -/

namespace Sys2Proof.Machine

/-- A floating-point datum: NaN with sign, signalling mark and payload; infinity; m × radix^q. -/
inductive Num where
  | nan (neg sig : Bool) (pay : Nat)
  | inf (neg : Bool)
  | fin (neg : Bool) (m : Nat) (q : Int)
deriving DecidableEq, Repr

/-- A format: radix, digits, and the range of the quantum exponent. -/
structure Fmt where
  b    : Nat
  p    : Nat
  qmin : Int
  qmax : Int
deriving DecidableEq, Repr

/-- The exceptions an operation raises: invalid, division by zero, overflow, tiny, inexact. -/
structure Exn where
  v : Bool := false
  z : Bool := false
  o : Bool := false
  t : Bool := false
  x : Bool := false
deriving DecidableEq, Repr

/-- A result and the exceptions it raises. -/
abbrev NumRes := Num × Exn

/-- The invalid exception alone. -/
def exInvalid : Exn := { v := true }

/-- The canonical quiet NaN (R104, R105), as an invalid operation returns it. -/
def invalidNaN : NumRes := (.nan false false 0, exInvalid)

/-- Is a datum a NaN? -/
def Num.isNan : Num → Bool
  | .nan _ _ _ => true
  | _ => false

/-- Is a datum a signalling NaN? -/
def Num.isSig : Num → Bool
  | .nan _ s _ => s
  | _ => false

/-- The first NaN among operands, made quiet (R104). -/
def firstNan : List Num → Option Num
  | [] => none
  | .nan n _ p :: _ => some (.nan n false p)
  | _ :: l => firstNan l

/-- The NaN result of an operation with these operands, if one is a NaN; a signalling one raises invalid. -/
def nanRes (l : List Num) : Option NumRes :=
  (firstNan l).map (fun r => (r, { v := l.any Num.isSig }))

/-- Sign of a datum. -/
def Num.neg : Num → Bool
  | .nan n _ _ => n
  | .inf n => n
  | .fin n _ _ => n

/-- A datum with its sign inverted; NaNs are left alone (R99). -/
def Num.negate : Num → Num
  | .nan n s p => .nan n s p
  | .inf n => .inf (!n)
  | .fin n m q => .fin (!n) m q

/-- b^e ≤ num / den. -/
def powLe (b : Nat) (e : Int) (num den : Nat) : Bool :=
  if 0 ≤ e then decide (b ^ e.toNat * den ≤ num) else decide (den ≤ num * b ^ (-e).toNat)

/-- Step an exponent up while radix^(e+1) does not exceed the value; fuel bounds the steps. -/
def logUp (b num den : Nat) : Nat → Int → Int
  | 0, e => e
  | k + 1, e => if powLe b (e + 1) num den then logUp b num den k (e + 1) else e

/-- The e with b^e ≤ num / den < b^(e+1), for a positive value and b of 2 or 10. -/
def ilog (b num den : Nat) : Int :=
  let d : Int := (num.log2 : Int) - (den.log2 : Int)
  if b = 2 then logUp 2 num den 4 (d - 2) else logUp 10 num den 6 ((d - 1) * 30103 / 100000 - 2)

/-- The value num / den over radix^q, as a fraction. -/
def overQ (b : Nat) (q : Int) (num den : Nat) : Nat × Nat :=
  if 0 ≤ q then (num, den * b ^ q.toNat) else (num * b ^ (-q).toNat, den)

/-- Does rounding mode rm raise a magnitude whose fraction is r / d (Table 4.4)? -/
def roundsUp (rm : Nat) (neg odd : Bool) (r d : Nat) : Bool :=
  if r = 0 then false
  else match rm with
    | 0 => decide (d < 2 * r) || (2 * r == d && odd)
    | 1 => false
    | 2 => !neg
    | 3 => neg
    | _ => decide (d ≤ 2 * r)

/-- Rounding of num / den to a multiple of radix^q: the multiple, and whether it is inexact. -/
def roundAt (b : Nat) (rm : Nat) (neg : Bool) (q : Int) (num den : Nat) : Nat × Bool :=
  let (n, d) := overQ b q num den
  let m := n / d
  let r := n % d
  (m + (roundsUp rm neg (m % 2 == 1) r d).toNat, r != 0)

/-- Strip up to k trailing zeros in radix b. -/
def strip (b : Nat) : Nat → Nat → Int → Nat × Int
  | 0, m, q => (m, q)
  | k + 1, m, q => if m % b = 0 then strip b k (m / b) (q + 1) else (m, q)

/-- Result of an overflow by rounding mode: infinity or the largest finite value. -/
def overflowed (f : Fmt) (rm : Nat) (neg : Bool) : NumRes :=
  let inf := match rm with
    | 0 => true
    | 1 => false
    | 2 => !neg
    | 3 => neg
    | _ => true
  (if inf then .inf neg else .fin neg (f.b ^ f.p - 1) f.qmax, { o := true, x := true })

/-- Clamp of an exponent to a format's range. -/
def Fmt.clamp (f : Fmt) (q : Int) : Int := max f.qmin (min f.qmax q)

/-- The exact value num / den rounded into a format (R98, R106, R107); pref: the preferred exponent of an exact
decimal result. Tininess is detected after rounding. -/
def roundTo (f : Fmt) (rm : Nat) (neg : Bool) (num den : Nat) (pref : Int) : NumRes :=
  if num = 0 then (.fin neg 0 (f.clamp pref), {})
  else
    let q0 := ilog f.b num den - (f.p : Int) + 1
    let m0 := (roundAt f.b rm neg q0 num den).1
    let tiny := decide (q0 < f.qmin) && !(q0 + 1 == f.qmin && m0 == f.b ^ f.p)
    let q := max q0 f.qmin
    let (m, inexact) := roundAt f.b rm neg q num den
    let (m, q) := if m = f.b ^ f.p then (f.b ^ (f.p - 1), q + 1) else (m, q)
    if f.qmax < q then overflowed f rm neg
    else
      let (m, q) :=
        if inexact || f.b == 2 || decide (pref ≤ q) then (m, q)
        else strip f.b (min f.qmax pref - q).toNat m q
      (.fin neg m (if m = 0 then f.qmin else q), { t := tiny, x := inexact })

/-- A finite datum as a fraction. -/
def fracOf (b m : Nat) (q : Int) : Nat × Nat := if 0 ≤ q then (m * b ^ q.toNat, 1) else (m, b ^ (-q).toNat)

/-- Sum of two finite data, exact: sign, magnitude over radix^q. A zero sum of unlike signs is +0, or −0 under RDN. -/
def addFin (b rm : Nat) (s1 : Bool) (m1 : Nat) (q1 : Int) (s2 : Bool) (m2 : Nat) (q2 : Int) : Bool × Nat × Int :=
  let q := min q1 q2
  let a : Int := (m1 * b ^ (q1 - q).toNat : Nat)
  let c : Int := (m2 * b ^ (q2 - q).toNat : Nat)
  let r := (if s1 then -a else a) + (if s2 then -c else c)
  (if r = 0 then (if s1 == s2 then s1 else rm == 3) else decide (r < 0), r.natAbs, q)

/-- Addition. -/
def addNum (f : Fmt) (rm : Nat) (x y : Num) : NumRes :=
  match nanRes [x, y] with
  | some r => r
  | none =>
    match x, y with
    | .inf a, .inf b => if a == b then (.inf a, {}) else invalidNaN
    | .inf a, _ => (.inf a, {})
    | _, .inf b => (.inf b, {})
    | .fin s1 m1 q1, .fin s2 m2 q2 =>
      let (s, m, q) := addFin f.b rm s1 m1 q1 s2 m2 q2
      let (n, d) := fracOf f.b m q
      roundTo f rm s n d q
    | _, _ => invalidNaN

/-- Subtraction: a NaN operand keeps its sign. -/
def subNum (f : Fmt) (rm : Nat) (x y : Num) : NumRes := addNum f rm x y.negate

/-- Multiplication. -/
def mulNum (f : Fmt) (rm : Nat) (x y : Num) : NumRes :=
  match nanRes [x, y] with
  | some r => r
  | none =>
    match x, y with
    | .inf a, .inf b => (.inf (a != b), {})
    | .inf a, .fin s m _ => if m = 0 then invalidNaN else (.inf (a != s), {})
    | .fin s m _, .inf b => if m = 0 then invalidNaN else (.inf (s != b), {})
    | .fin s1 m1 q1, .fin s2 m2 q2 =>
      let (n, d) := fracOf f.b (m1 * m2) (q1 + q2)
      roundTo f rm (s1 != s2) n d (q1 + q2)
    | _, _ => invalidNaN

/-- Division. -/
def divNum (f : Fmt) (rm : Nat) (x y : Num) : NumRes :=
  match nanRes [x, y] with
  | some r => r
  | none =>
    match x, y with
    | .inf _, .inf _ => invalidNaN
    | .inf a, .fin s _ _ => (.inf (a != s), {})
    | .fin s _ _, .inf b => (.fin (s != b) 0 f.qmin, {})
    | .fin s1 m1 q1, .fin s2 m2 q2 =>
      if m2 = 0 then (if m1 = 0 then invalidNaN else (.inf (s1 != s2), { z := true }))
      else
        let (n1, d1) := fracOf f.b m1 q1
        let (n2, d2) := fracOf f.b m2 q2
        roundTo f rm (s1 != s2) (n1 * d2) (d1 * n2) (q1 - q2)
    | _, _ => invalidNaN

/-- Fused multiply-add x × y + z (R99). -/
def fmaNum (f : Fmt) (rm : Nat) (x y z : Num) : NumRes :=
  let infZero := match x, y with
    | .inf _, .fin _ 0 _ => true
    | .fin _ 0 _, .inf _ => true
    | _, _ => false
  match firstNan [x, y, z] with
  | some r => (r, { v := infZero || [x, y, z].any Num.isSig })
  | none =>
    if infZero then invalidNaN
    else match x, y, z with
      | .fin s1 m1 q1, .fin s2 m2 q2, .fin s3 m3 q3 =>
        let (s, m, q) := addFin f.b rm (s1 != s2) (m1 * m2) (q1 + q2) s3 m3 q3
        let (n, d) := fracOf f.b m q
        roundTo f rm s n d q
      | .fin _ _ _, .fin _ _ _, z => (z, {})
      | x, y, .inf c => if (x.neg != y.neg) == c then (.inf c, {}) else invalidNaN
      | x, y, _ => (.inf (x.neg != y.neg), {})

/-- Integer square root, bit by bit from bit k down. -/
def isqrtFrom (n : Nat) : Nat → Nat → Nat
  | 0, r => if (r + 1) * (r + 1) ≤ n then r + 1 else r
  | k + 1, r =>
    let t := r + 2 ^ (k + 1)
    isqrtFrom n k (if t * t ≤ n then t else r)

/-- Binary square root: exact root, or a root with two bits more than the format and a mark for the rest. -/
def sqrtNum (f : Fmt) (rm : Nat) (x : Num) : NumRes :=
  match nanRes [x] with
  | some r => r
  | none =>
    match x with
    | .inf false => (.inf false, {})
    | .fin s 0 q => (.fin s 0 q, {})
    | .fin false m q =>
      let k : Nat := 2 * (f.p + 2) + (q % 2).toNat
      let n := m * 2 ^ k
      let e := (q - (k : Int)) / 2
      let r := isqrtFrom n 127 0
      let (a, d) := fracOf 2 (2 * r + (r * r != n).toNat) (e - 1)
      roundTo f rm false a d 0
    | _ => invalidNaN

/-- Relation of two data (Table 4.5). -/
def relNum (b : Nat) (x y : Num) : Rel :=
  match x, y with
  | .nan _ _ _, _ => .unordered
  | _, .nan _ _ _ => .unordered
  | .inf a, .inf c => if a == c then .equal else if a then .less else .greater
  | .inf a, _ => if a then .less else .greater
  | _, .inf c => if c then .greater else .less
  | .fin s1 m1 q1, .fin s2 m2 q2 =>
    let q := min q1 q2
    let a : Int := (m1 * b ^ (q1 - q).toNat : Nat)
    let c : Int := (m2 * b ^ (q2 - q).toNat : Nat)
    let a := if s1 then -a else a
    let c := if s2 then -c else c
    if a < c then .less else if a = c then .equal else .greater

/-- minimumNumber and maximumNumber (R101): −0 is less than +0. -/
def minMax (isMax : Bool) (b : Nat) (x y : Num) : NumRes :=
  let e : Exn := { v := x.isSig || y.isSig }
  if x.isNan && y.isNan then ((firstNan [x, y]).getD x, e)
  else if x.isNan then (y, e)
  else if y.isNan then (x, e)
  else
    let xLess := match relNum b x y with
      | .less => true
      | .equal => x.neg
      | _ => false
    (if xLess != isMax then x else y, e)

/-- A finite value rounded to exponent q: coefficient, and whether digits other than 0 were discarded. -/
def quantum (b rm : Nat) (s : Bool) (m : Nat) (q0 q : Int) : Nat × Bool :=
  let (n, d) := fracOf b m q0
  roundAt b rm s q n d

/-- Quantize (R108). -/
def quaNum (f : Fmt) (rm : Nat) (x y : Num) : NumRes :=
  match nanRes [x, y] with
  | some r => r
  | none =>
    match x, y with
    | .inf a, .inf _ => (.inf a, {})
    | .fin s m q, .fin _ _ q' =>
      let (c, x) := quantum f.b rm s m q q'
      if f.b ^ f.p ≤ c then invalidNaN else (.fin s c q', { x := x })
    | _, _ => invalidNaN

/-- A status register after the exceptions e, or the detail of the trap that an enabled one takes (R95, R96). -/
def statusOf (fs : Word) (e : Exn) : Except Nat Word :=
  if e.v && bit 12 fs then .error 1
  else if e.z && bit 11 fs then .error 2
  else if e.o && bit 10 fs then .error 3
  else if e.t && bit 9 fs then .error 4
  else if e.x && bit 8 fs then .error 5
  else
    .ok (fs ||| mkw [(4, e.v.toNat), (3, e.z.toNat), (2, e.o.toNat), (1, (e.t && e.x).toNat), (0, e.x.toNat)])

/-- RM of a status register. -/
def rmOf (fs : Word) : Nat := fld 18 16 fs

end Sys2Proof.Machine
end

