-- ==== Sys2Proof/Machine/Binary.lean ====
section
/-! DEFINITION. Binary floating point: the FPB and FMA groups (R98 to R104). -/

namespace Sys2Proof.Machine

/-- binary64. -/
def f64 : Fmt := { b := 2, p := 53, qmin := -1074, qmax := 971 }

/-- binary32. -/
def f32 : Fmt := { b := 2, p := 24, qmin := -149, qmax := 104 }

/-- Datum of an interchange encoding with eb exponent bits and fb fraction bits. -/
def binDec (eb fb : Nat) (qmin : Int) (v : Nat) : Num :=
  let s := decide (v / 2 ^ (eb + fb) % 2 = 1)
  let e := v / 2 ^ fb % 2 ^ eb
  let f := v % 2 ^ fb
  if e = 2 ^ eb - 1 then
    if f = 0 then .inf s else .nan s (f / 2 ^ (fb - 1) == 0) (f % 2 ^ (fb - 1))
  else if e = 0 then .fin s f qmin
  else .fin s (2 ^ fb + f) (qmin + (e : Int) - 1)

/-- Encoding of a datum whose coefficient is normalised or at the smallest exponent. -/
def binEnc (eb fb : Nat) (qmin : Int) : Num → Nat
  | .nan s g p => s.toNat * 2 ^ (eb + fb) + (2 ^ eb - 1) * 2 ^ fb + (!g).toNat * 2 ^ (fb - 1) + p
  | .inf s => s.toNat * 2 ^ (eb + fb) + (2 ^ eb - 1) * 2 ^ fb
  | .fin s m q =>
    s.toNat * 2 ^ (eb + fb) + (if m < 2 ^ fb then m else (q - qmin + 1).toNat * 2 ^ fb + (m - 2 ^ fb))

/-- binary64 datum in Fn. -/
def Arch.f64 (a : Arch) (n : BitVec 5) : Num := binDec 11 52 (-1074) (a.rfd n).toNat

/-- binary32 datum in Fn (R57). -/
def Arch.f32 (a : Arch) (n : BitVec 5) : Num := binDec 8 23 (-149) ((a.rfd n).toNat % 2 ^ 32)

/-- Fd := a binary64 datum. -/
def Arch.put64 (a : Arch) (d : BitVec 5) (x : Num) : Arch := a.wfd d (BitVec.ofNat 64 (binEnc 11 52 (-1074) x))

/-- Fd := a binary32 datum, the high bits zero. -/
def Arch.put32 (a : Arch) (d : BitVec 5) (x : Num) : Arch := a.wfd d (BitVec.ofNat 64 (binEnc 8 23 (-149) x))

/-- Exceptions into S.FS, or vector 0x0E (R95, R96); put writes the result. -/
def endBinary (a : Arch) (e : Exn) (put : Arch → Arch) : Except Exc Arch :=
  match statusOf a.fs e with
  | .error d => .error { vec := 0x0E, detail := d }
  | .ok fs => .ok (put { a with fs := fs })

/-- A binary64 operation with two sources. -/
def runD (h : Hdr) (fn : Nat) (d a b : BitVec 5) (f : Nat → Num → Num → NumRes) (s : State) : State :=
  runTrap h (encT h 0x30 fn d a b false) decOk (fun r =>
    let (x, e) := f (rmOf r.fs) (r.f64 a) (r.f64 b)
    endBinary r e (fun r => r.put64 d x)) s

/-- A binary32 operation with two sources. -/
def runS (h : Hdr) (fn : Nat) (d a b : BitVec 5) (f : Nat → Num → Num → NumRes) (s : State) : State :=
  runTrap h (encT h 0x30 fn d a b false) decOk (fun r =>
    let (x, e) := f (rmOf r.fs) (r.f32 a) (r.f32 b)
    endBinary r e (fun r => r.put32 d x)) s

/-- FADD.D. -/
def execFaddD (h : Hdr) (d a b : BitVec 5) (s : State) : Host.Outcome State Fault Refusal :=
  .next (runD h 0x00 d a b (addNum f64) s)

/-- FSUB.D. -/
def execFsubD (h : Hdr) (d a b : BitVec 5) (s : State) : Host.Outcome State Fault Refusal :=
  .next (runD h 0x01 d a b (subNum f64) s)

/-- FMUL.D. -/
def execFmulD (h : Hdr) (d a b : BitVec 5) (s : State) : Host.Outcome State Fault Refusal :=
  .next (runD h 0x02 d a b (mulNum f64) s)

/-- FDIV.D. -/
def execFdivD (h : Hdr) (d a b : BitVec 5) (s : State) : Host.Outcome State Fault Refusal :=
  .next (runD h 0x03 d a b (divNum f64) s)

/-- FSQRT.D. -/
def execFsqrtD (h : Hdr) (d a : BitVec 5) (s : State) : Host.Outcome State Fault Refusal :=
  .next (runD h 0x04 d a 0 (fun rm x _ => sqrtNum f64 rm x) s)

/-- FCMP.D (R100). -/
def execFcmpD (h : Hdr) (a b : BitVec 5) (s : State) : Host.Outcome State Fault Refusal :=
  .next (runTrap h (encT h 0x30 0x05 0 a b false) decOk (fun r =>
    let x := r.f64 a
    let y := r.f64 b
    endBinary r { v := x.isSig || y.isSig } (fun r => r.putRel (relNum 2 x y))) s)

/-- FMIN.D (R101). -/
def execFminD (h : Hdr) (d a b : BitVec 5) (s : State) : Host.Outcome State Fault Refusal :=
  .next (runD h 0x06 d a b (fun _ x y => minMax false 2 x y) s)

/-- FMAX.D (R101). -/
def execFmaxD (h : Hdr) (d a b : BitVec 5) (s : State) : Host.Outcome State Fault Refusal :=
  .next (runD h 0x07 d a b (fun _ x y => minMax true 2 x y) s)

/-- FADD.S. -/
def execFaddS (h : Hdr) (d a b : BitVec 5) (s : State) : Host.Outcome State Fault Refusal :=
  .next (runS h 0x08 d a b (addNum f32) s)

/-- FSUB.S. -/
def execFsubS (h : Hdr) (d a b : BitVec 5) (s : State) : Host.Outcome State Fault Refusal :=
  .next (runS h 0x09 d a b (subNum f32) s)

/-- FMUL.S. -/
def execFmulS (h : Hdr) (d a b : BitVec 5) (s : State) : Host.Outcome State Fault Refusal :=
  .next (runS h 0x0A d a b (mulNum f32) s)

/-- FDIV.S. -/
def execFdivS (h : Hdr) (d a b : BitVec 5) (s : State) : Host.Outcome State Fault Refusal :=
  .next (runS h 0x0B d a b (divNum f32) s)

/-- FSQRT.S. -/
def execFsqrtS (h : Hdr) (d a : BitVec 5) (s : State) : Host.Outcome State Fault Refusal :=
  .next (runS h 0x0C d a 0 (fun rm x _ => sqrtNum f32 rm x) s)

/-- FCMP.S (R100). -/
def execFcmpS (h : Hdr) (a b : BitVec 5) (s : State) : Host.Outcome State Fault Refusal :=
  .next (runTrap h (encT h 0x30 0x0D 0 a b false) decOk (fun r =>
    let x := r.f32 a
    let y := r.f32 b
    endBinary r { v := x.isSig || y.isSig } (fun r => r.putRel (relNum 2 x y))) s)

/-- FMIN.S. -/
def execFminS (h : Hdr) (d a b : BitVec 5) (s : State) : Host.Outcome State Fault Refusal :=
  .next (runS h 0x0E d a b (fun _ x y => minMax false 2 x y) s)

/-- FMAX.S. -/
def execFmaxS (h : Hdr) (d a b : BitVec 5) (s : State) : Host.Outcome State Fault Refusal :=
  .next (runS h 0x0F d a b (fun _ x y => minMax true 2 x y) s)

/-- A datum moved to another binary format: a NaN's payload through g (R104), any other value rounded. -/
def convNum (f : Fmt) (rm : Nat) (g : Nat → Nat) : Num → NumRes
  | .nan s sig p => (.nan s false (g p), { v := sig })
  | .inf s => (.inf s, {})
  | .fin s m q => let (n, d) := fracOf f.b m q; roundTo f rm s n d q

/-- FCVT.S.D: binary64 to binary32. -/
def execFcvtSD (h : Hdr) (d a : BitVec 5) (s : State) : Host.Outcome State Fault Refusal :=
  .next (runTrap h (encT h 0x30 0x10 d a 0 false) decOk (fun r =>
    let (x, e) := convNum f32 (rmOf r.fs) (fun p => p / 2 ^ 29) (r.f64 a)
    endBinary r e (fun r => r.put32 d x)) s)

/-- FCVT.D.S: binary32 to binary64. -/
def execFcvtDS (h : Hdr) (d a : BitVec 5) (s : State) : Host.Outcome State Fault Refusal :=
  .next (runTrap h (encT h 0x30 0x11 d a 0 false) decOk (fun r =>
    let (x, e) := convNum f64 (rmOf r.fs) (fun p => p * 2 ^ 29) (r.f32 a)
    endBinary r e (fun r => r.put64 d x)) s)

/-- FCVT.G.D (Table 4.6): a binary64 datum as a signed 64-bit integer, with its exceptions. -/
def toInt64 (rm : Nat) : Num → Word × Exn
  | .nan _ _ _ => (0, exInvalid)
  | .inf s => (if s then 0x8000000000000000 else 0x7FFFFFFFFFFFFFFF, exInvalid)
  | .fin s m q =>
    let (c, x) := quantum 2 rm s m q 0
    let i : Int := if s then -(c : Int) else c
    if i < -2 ^ 63 then (0x8000000000000000, exInvalid)
    else if 2 ^ 63 ≤ i then (0x7FFFFFFFFFFFFFFF, exInvalid)
    else (BitVec.ofInt 64 i, { x := x })

/-- FCVT.G.D: d names a G register. -/
def execFcvtGD (h : Hdr) (d a : BitVec 5) (s : State) : Host.Outcome State Fault Refusal :=
  .next (runTrap h (encT h 0x30 0x12 d a 0 false) decOk (fun r =>
    let (x, e) := toInt64 (rmOf r.fs) (r.f64 a)
    endBinary r e (fun r => r.wg d x)) s)

/-- FCVT.D.G: a names a G register. -/
def execFcvtDG (h : Hdr) (d a : BitVec 5) (s : State) : Host.Outcome State Fault Refusal :=
  .next (runTrap h (encT h 0x30 0x13 d a 0 false) decOk (fun r =>
    let i := (r.rg a).toInt
    let (x, e) := roundTo f64 (rmOf r.fs) (decide (i < 0)) i.natAbs 1 0
    endBinary r e (fun r => r.put64 d x)) s)

/-- FMOV: all 128 bits (R103). -/
def execFmov (h : Hdr) (d a : BitVec 5) (s : State) : Host.Outcome State Fault Refusal :=
  .next (runReg h (encT h 0x30 0x14 d a 0 false) decOk (fun r => r.wf d (r.rf a)) s)

/-- FNEG (R103). -/
def execFneg (h : Hdr) (d a : BitVec 5) (s : State) : Host.Outcome State Fault Refusal :=
  .next (runReg h (encT h 0x30 0x15 d a 0 false) decOk (fun r => r.wfd d (r.rfd a ^^^ 0x8000000000000000)) s)

/-- FABS (R103). -/
def execFabs (h : Hdr) (d a : BitVec 5) (s : State) : Host.Outcome State Fault Refusal :=
  .next (runReg h (encT h 0x30 0x16 d a 0 false) decOk (fun r => r.wfd d (r.rfd a &&& 0x7FFFFFFFFFFFFFFF)) s)

/-- FMV.G.F: Gd := Fa[63:0]. -/
def execFmvGF (h : Hdr) (d a : BitVec 5) (s : State) : Host.Outcome State Fault Refusal :=
  .next (runReg h (encT h 0x30 0x17 d a 0 false) decOk (fun r => r.wg d (r.rfd a)) s)

/-- FMV.F.G: Fd[63:0] := Ga, the high bits zero. -/
def execFmvFG (h : Hdr) (d a : BitVec 5) (s : State) : Host.Outcome State Fault Refusal :=
  .next (runReg h (encT h 0x30 0x18 d a 0 false) decOk (fun r => r.wfd d (r.rg a)) s)

/-- A fused multiply-add: subC negates Fc, negR the rounded result (R99; DEDUCED, assumption 13). -/
def runFma (h : Hdr) (fn : Nat) (o : Q4) (subC negR : Bool) (s : State) : State :=
  runTrap h (encQ h 0x31 fn o) decOk (fun r =>
    let c := r.f64 o.c
    let (x, e) := fmaNum f64 (rmOf r.fs) (r.f64 o.a) (r.f64 o.b) (if subC then c.negate else c)
    endBinary r e (fun r => r.put64 o.d (if negR then x.negate else x))) s

/-- FMADD.D. -/
def execFmaddD (h : Hdr) (o : Q4) (s : State) : Host.Outcome State Fault Refusal := .next (runFma h 0 o false false s)

/-- FMSUB.D. -/
def execFmsubD (h : Hdr) (o : Q4) (s : State) : Host.Outcome State Fault Refusal := .next (runFma h 1 o true false s)

/-- FNMADD.D. -/
def execFnmaddD (h : Hdr) (o : Q4) (s : State) : Host.Outcome State Fault Refusal := .next (runFma h 2 o false true s)

/-- FNMSUB.D. -/
def execFnmsubD (h : Hdr) (o : Q4) (s : State) : Host.Outcome State Fault Refusal := .next (runFma h 3 o true true s)

end Sys2Proof.Machine
end

