-- ==== Sys2Proof/Machine/Branch.lean ====
section
/-! DEFINITION. Branches (R72), system registers (R58, R59, R68, R69, R94) and the SYS group (R76 to R82). -/

namespace Sys2Proof.Machine

/-- The state with the registers of h's thread changed. -/
def updArch (h : Hdr) (f : Arch → Arch) (s : State) : State :=
  s.updThr h.pu h.th (fun t => { t with arch := f t.arch })

/-- A PC-relative branch by disp words, with LK written where link is given. -/
def runRel (h : Hdr) (enc : Word) (long link : Bool) (disp : Word) (s : State) : State :=
  let len := if long then 8 else 4
  runBranch h enc long none decOk (fun pc => if link then .call (pc + BitVec.ofNat 64 len) else .plain)
    (fun s => .done (updArch h (fun a =>
      let b := if link then a.wg rLK (a.pc + BitVec.ofNat 64 len) else a
      { b with pc := a.pc + disp * 4 }) s)) s

/-- B: own address + sext(DISP22) × 4. -/
def execB (h : Hdr) (disp : BitVec 22) (s : State) : Host.Outcome State Fault Refusal :=
  .next (runRel h (encB h 0x28 disp) false false (disp.signExtend 64) s)

/-- BL: as B, LK := own address + 4. -/
def execBl (h : Hdr) (disp : BitVec 22) (s : State) : Host.Outcome State Fault Refusal :=
  .next (runRel h (encB h 0x29 disp) false true (disp.signExtend 64) s)

/-- B.W: own address + sext(IMM32) × 4. -/
def execBW (h : Hdr) (imm : BitVec 32) (s : State) : Host.Outcome State Fault Refusal :=
  .next (runRel h (encX h 0x08 0 0 imm) true false (imm.signExtend 64) s)

/-- BL.W: as B.W, LK := own address + 8. -/
def execBlW (h : Hdr) (imm : BitVec 32) (s : State) : Host.Outcome State Fault Refusal :=
  .next (runRel h (encX h 0x09 0 0 imm) true true (imm.signExtend 64) s)

/-- A register branch to the value of register b, read before LK is written; a target that is not word-aligned takes
vector 0x08 detail 3 (R72). -/
def runToReg (h : Hdr) (enc : Word) (b : BitVec 5) (link : Bool) (k : Word → BrKind) (s : State) : State :=
  runBranch h enc false none decOk k (fun s =>
    let a := (s.thr h.pu h.th).arch
    let t := a.rg b
    if t.toNat % 4 ≠ 0 then .exc { vec := 8, detail := 3, eaddr := t } s
    else .done (updArch h (fun a => { (if link then a.wg rLK (a.pc + 4) else a) with pc := t }) s)) s

/-- BR. -/
def execBr (h : Hdr) (b : BitVec 5) (s : State) : Host.Outcome State Fault Refusal :=
  .next (runToReg h (encT h 0x2A 0x00 0 0 b false) b false (fun _ => .register) s)

/-- BLR: LK := own address + 4. -/
def execBlr (h : Hdr) (b : BitVec 5) (s : State) : Host.Outcome State Fault Refusal :=
  .next (runToReg h (encT h 0x2A 0x01 0 0 b false) b true (fun pc => .call (pc + 4)) s)

/-- RET: to G30, with the return stack. -/
def execRet (h : Hdr) (s : State) : Host.Outcome State Fault Refusal :=
  .next (runToReg h (encT h 0x2A 0x02 0 0 0 false) rLK false (fun _ => .ret) s)

/-- Is an S-register number listed in Table 3.1? -/
def sregKnown (n : Nat) : Bool :=
  n < 3 || n == 0x10 || n == 0x11 || (0x20 ≤ n && n < 0x25) || n == 0x30 || (0x40 ≤ n && n < 0x48) || n == 0x50 || n == 0x51

/-- Is an S-register open to problem state (Table 3.1)? -/
def sregProblem (n : Nat) : Bool := n < 3 || (0x20 ≤ n && n < 0x25) || n == 0x50 || n == 0x51

/-- S-registers that a channel engine does not have (R85): S.SID, S.TTB, S.TXD. -/
def ceNoSreg (n : Nat) : Bool := n == 0x10 || n == 0x11 || n == 0x30

/-- Checks of MFS and MTS of core c at decode (R58, R61, R76, R85). -/
def decSreg (c n : Nat) : Dec := fun a =>
  if !sregKnown n || (decide (48 ≤ c) && ceNoSreg n) then some (0x0C, 6)
  else if a.problem && !sregProblem n then some (0x0A, 2)
  else none

/-- Bits of S.SW that an MTS in supervisor state writes (Table 3.2). -/
def swMask : Word := 0xF04EF000

/-- Bits N, Z, C and V. -/
def swFlags : Word := 0xF0000000

/-- Value of an S-register (Table 3.1). -/
def readSreg (s : State) (n : Nat) (th : Bool) (k : Nat) : Word :=
  let a := (s.thr n th).arch
  match k with
  | 0x00 => a.sw
  | 0x01 => a.fs
  | 0x02 => a.ds
  | 0x10 => a.sid
  | 0x11 => a.ttb
  | 0x24 => a.brv
  | 0x30 => a.txd
  | 0x40 => a.vbar
  | 0x41 => a.epc
  | 0x42 => a.esw
  | 0x43 => a.ecause
  | 0x44 => a.eaddr
  | 0x45 => a.eins
  | 0x46 => a.scr0
  | 0x47 => a.scr1
  | 0x50 => mkw [(0, n), (8, th.toNat), (16, (match s.puZone n with | some z => z.val | none => 0))]
  | 0x51 => s.tb.tod
  | k => if 0x20 ≤ k ∧ k < 0x24 then tget 0 a.mods (k - 0x20) else 0

/-- S.FS or S.DS after an MTS: RM keeps its value where 5, 6 or 7 is written (R94). -/
def writeFs (old v : Word) : Word :=
  let mask := if 5 ≤ fld 18 16 v then 0x1F1F else 0x71F1F
  mix mask old v

/-- An S-register after an MTS (Table 3.1 and the field maps): read-only ones keep their value. Of S.ESW, for which the spec
gives no field map, the bits take it that are RW in S.SW (DESIGN CHOICE, assumption 14). -/
def writeSreg (k : Nat) (v : Word) (a : Arch) : Arch :=
  match k with
  | 0x00 => { a with sw := mix (if a.problem then swFlags else swMask) a.sw v }
  | 0x01 => { a with fs := writeFs a.fs v }
  | 0x02 => { a with ds := writeFs a.ds v }
  | 0x10 => { a with sid := v &&& 0xFFF }
  | 0x11 => { a with ttb := v &&& 0xFFFF03FFFFFFF001 }
  | 0x24 => if 2 ≤ fld 4 0 v ∧ fld 4 0 v ≤ 20 then { a with brv := v &&& 0x1F } else a
  | 0x30 => { a with txd := v &&& 0x3FFFFFFFF81 }
  | 0x40 => { a with vbar := v &&& 0xFFFFFFFFC000 }
  | 0x41 => { a with epc := v }
  | 0x42 => { a with esw := v &&& swMask }
  | 0x46 => { a with scr0 := v }
  | 0x47 => { a with scr1 := v }
  | k => if 0x20 ≤ k ∧ k < 0x24 then { a with mods := tset 0 a.mods (k - 0x20) v } else a

/-- MFS Gg, SN. -/
def execMfs (h : Hdr) (g : BitVec 5) (sn : BitVec 12) (s : State) : Host.Outcome State Fault Refusal :=
  .next (runIns h (encS h 0x2D g sn) false false none false (decSreg h.pu sn.toNat)
    (fun s => let v := readSreg s h.pu h.th sn.toNat; .done (updArch h (fun a => a.wg g v) s)) s)

/-- Is an MTS restricted inside a transaction (Table 9.2)? S.SW only where it would change more than N, Z, C and V
(DEDUCED, assumption 14). -/
def mtsRestricted (a : Arch) (k : Nat) (v : Word) : Bool :=
  if k = 0 then (writeSreg 0 v a).sw &&& ~~~swFlags != a.sw &&& ~~~swFlags
  else !(k == 1 || k == 2 || (0x20 ≤ k && k < 0x25))

/-- The microcoded writes of Table 5.5. -/
def mtsMicro (k : Nat) : Option Nat :=
  if k = 0x10 ∨ k = 0x11 ∨ k = 0x40 then some (0x2E * 64 + k % 64) else none

/-- MTS Gg, SN; after S.SID, S.TTB and S.VBAR the PU refetches (Table 5.5). -/
def execMts (h : Hdr) (g : BitVec 5) (sn : BitVec 12) (s : State) : Host.Outcome State Fault Refusal :=
  let k := sn.toNat
  let a := (s.thr h.pu h.th).arch
  .next (runIns h (encS h 0x2E g sn) false false (mtsMicro k) (mtsRestricted a k (a.rg g)) (decSreg h.pu k)
    (fun s => .done (s.updThr h.pu h.th (fun t => { t with
      arch := writeSreg k (t.arch.rg g) t.arch
      fetchLatch := if (mtsMicro k).isSome then none else t.fetchLatch }))) s)

/-- ERET (R80): privileged; a misaligned S.EPC takes vector 0x08 detail 3; the reservation is lost (R189), and the
fetch latch is empty (R218). -/
def execEret (h : Hdr) (s : State) : Host.Outcome State Fault Refusal :=
  .next (runIns h (encT h 0x36 0x00 0 0 0 false) false true (some (0x36 * 64)) true decPriv
    (fun s =>
      let a := (s.thr h.pu h.th).arch
      if a.epc.toNat % 4 ≠ 0 then .exc { vec := 8, detail := 3, eaddr := a.epc } s
      else .done (s.updThr h.pu h.th (fun t => { t with arch := returnFrom t.arch, resv := none, fetchLatch := none }))) s)

/-- SVC: vector 0x0B with CODE a × 32 + b (R78). -/
def execSvc (h : Hdr) (a b : BitVec 5) (s : State) : Host.Outcome State Fault Refusal :=
  .next (runIns h (encT h 0x36 0x01 0 a b false) false true none false decOk
    (fun s => .exc { vec := 0x0B, code := a.toNat * 32 + b.toNat } s) s)

/-- BRK: vector 0x10. -/
def execBrk (h : Hdr) (s : State) : Host.Outcome State Fault Refusal :=
  .next (runIns h (encT h 0x36 0x03 0 0 0 false) false true none false decOk (fun s => .exc { vec := 0x10 } s) s)

/-- NOP. -/
def execNop (h : Hdr) (s : State) : Host.Outcome State Fault Refusal :=
  .next (runReg h (encT h 0x36 0x04 0 0 0 false) decOk id s)

/-- Is an interrupt pending whose priority is not below IPL (R76)? -/
def wakes (t : Thread) : Bool := (bestIrq (fld 15 12 t.arch.sw) t.pend).isSome

/-- WAIT (R76): privileged; the thread stands after the WAIT until such an interrupt is pending. -/
def execWait (h : Hdr) (s : State) : Host.Outcome State Fault Refusal :=
  .next (runIns h (encT h 0x36 0x02 0 0 0 false) false false none true decPriv
    (fun s => .done (s.updThr h.pu h.th (fun t => if wakes t then t else { t with wait := .interrupt }))) s)

/-- WAIT_WAKE (R76): with IE 1 the interrupt is taken; with IE 0 execution continues and it stays pending. -/
def execWaitWake (pu : Fin 84) (th : Bool) (s : State) : Host.Outcome State Fault Refusal :=
  let t := s.thr pu th
  .next (if t.wait = .interrupt ∧ t.running ∧ !t.halted ∧ !(s.pu pu).retrying ∧ wakes t then
      (match dueEvent s pu th with | some e => enterDue pu th e s | none => s.updThr pu th (fun t => { t with wait := .none }))
    else s)

/-- INTERRUPT_TAKEN (R79): the event that is deliverable at this boundary is taken. -/
def execInterruptTaken (pu : Fin 84) (th : Bool) (s : State) : Host.Outcome State Fault Refusal :=
  let t := s.thr pu th
  .next (if t.running ∧ !t.halted ∧ !(s.pu pu).retrying ∧ (t.wait = .none ∨ t.wait = .interrupt) then
      (match dueEvent s pu th with | some e => enterDue pu th e s | none => s)
    else s)

/-- The microcoded instruction that a word spells, if it spells one (Table 5.5), by its key: 64 × major opcode + code. -/
def microKey (w : BitVec 32) : Option Nat :=
  let opc := (wOpc w).toNat
  let fn := (wFn w).toNat
  let micro := opc = 0x2B ∨ opc = 0x2C ∨ opc = 0x35 ∨ opc = 0x37 ∨ (opc = 0x33 ∧ fn = 0x19) ∨ (opc = 0x36 ∧ fn = 0) ∨
    (opc = 0x34 ∧ (fn = 0x08 ∨ fn = 0x14 ∨ fn = 0x15 ∨ fn = 0x18))
  if opc = 0x2E then mtsMicro (wImm12 w).toNat
  else if opc = 0x2B ∨ opc = 0x2C then some (opc * 64)
  else if micro then some (opc * 64 + fn)
  else none

/-- Detail of the emulation exception that words take (R61, R124): what decoding gives, or 3 where the core lacks the
instruction that they spell. -/
def wordDetail (s : State) (pu : Fin 84) (th : Bool) (w1 w2 : BitVec 32) : Option Nat :=
  match decodeIns pu th w1 w2 with
  | .error d => some d
  | .ok _ => if storeLacks s pu (w1 ++ w2) (microKey w1) then some 3 else none

/-- RESERVED_ENCODING (R61 to R64, R82, R124): words that spell no instruction that the core provides take the emulation
exception, whatever the condition; w2 counts in the long form alone. Words that spell another are that instruction's own
command, and nothing happens here. -/
def execReservedEncoding (pu : Fin 84) (th : Bool) (w1 w2 : BitVec 32) (s : State) : Host.Outcome State Fault Refusal :=
  .next (match wordDetail s pu th w1 w2 with
    | none => s
    | some d =>
      let long := isLong w1
      runIns { pu := pu, th := th, cond := wCond w1 } (w1 ++ (if long then w2 else 0)) long false none false (decIf true d)
        (fun s => .done s) s)

end Sys2Proof.Machine
end

