-- ==== Sys2Proof/Machine/CacheIns.lean ====
section
/-! DEFINITION. Maintenance instructions, way locking and TLB invalidation (R163 to R165, R211 to R217). -/

namespace Sys2Proof.Machine

/- Maintenance of one line. -/

/-- Does a maintenance operation wait: for the comparison of what came before it (R262), for a marker in the store buffer
behind which it counts as a store (R178), or for the thread's own stores to its lines (R174)? -/
def mntWaits (s : State) (n : Nat) (th : Bool) (lines : List Nat) : Bool :=
  !comparedAll s n th || (s.thr n th).sb.contains .marker || lines.any (buffersLine (s.thr n th))

/-- CLN.L, INV.L and CLI.L (R214): no effect on DEVICE memory. -/
def runMnt (h : Hdr) (fn : Nat) (op : MntOp) (dec : Dec) (a : BitVec 5) (s : State) : State :=
  let inval := op == .inval
  runIns h (encT h 0x34 fn 0 a 0 false) false false none true dec (fun s =>
    let n := h.pu.val
    let va := (s.thr n h.th).arch.rg a
    match transParts n h.th (if inval then .inval else .clean) inval [(va, 1)] s with
    | (.error e, s) => .exc e s
    | (.ok [], s) => .done s
    | (.ok (p :: _), s) =>
      let l := p.1.pa / 256
      let acc := s.puAcc n h.th
      if p.1.mt = .device then .done s
      else if mntWaits s n h.th [l] then .wait s
      else match answerExc va inval (asked acc p.1.pa (mntKind op) 5 s) with
        | (some e, s) => .exc e s
        | (none, s) =>
          if !lineTurn acc l s || homeBusy s l then waitLine n h.th l s
          else match pinsLet acc none l s with
            | (false, s) => waitLine n h.th l s
            | (true, s) =>
              match mntLine op acc l (some (n, h.th)) s with
              | (false, s) => waitLine n h.th l s
              | (true, s) => .done (lineOut acc l s)) s

/-- CLN.L. -/
def execClnL (h : Hdr) (a : BitVec 5) (s : State) : Host.Outcome State Fault Refusal :=
  .next (runMnt h 0x10 .clean decOk a s)

/-- INV.L: privileged. -/
def execInvL (h : Hdr) (a : BitVec 5) (s : State) : Host.Outcome State Fault Refusal :=
  .next (runMnt h 0x11 .inval decPriv a s)

/-- CLI.L. -/
def execCliL (h : Hdr) (a : BitVec 5) (s : State) : Host.Outcome State Fault Refusal :=
  .next (runMnt h 0x12 .cleanInval decOk a s)

/-- The line of a DZL in the requester's L2, filled with zeros: no other copy is left, nor one in the L3 or the PU's L1I. -/
def zeroLine (n l : Nat) (s : State) : State :=
  l3Remove l ((writeOwned n l ((List.range 256).map (fun i => (256 * l + i, (0 : Byte)))) s).updPu n
    (fun p => { p with l1i := p.l1i.filter (fun e => e.2.line != some l) }))

/-- DZL (R214): the line in M, filled with zeros, without being read; it counts as a store of 256 bytes. -/
def execDzl (h : Hdr) (a : BitVec 5) (s : State) : Host.Outcome State Fault Refusal :=
  .next (runIns h (encT h 0x34 0x13 0 a 0 false) false false none true decOk (fun s =>
    let n := h.pu.val
    let va := (s.thr n h.th).arch.rg a
    match transParts n h.th .store true [(va, 1)] s with
    | (.error e, s) => .exc e s
    | (.ok [], s) => .done s
    | (.ok (p :: _), s) =>
      let l := p.1.pa / 256
      if p.1.mt = .device then .exc { vec := 7, detail := 4, eaddr := va, w := true } s
      else if mntWaits s n h.th [l] then .wait s
      else match answerExc va true (ownAnswer n h.th p.1.pa s) with
        | (some e, s) => .exc e s
        | (none, s) =>
          match commitReady n h.th l s with
          | (false, s) => .wait s
          | (true, s) =>
            match obtainOwned n h.th l (if p.1.mt = .normalNA then 2 else 0) s with
            | (false, s) => .wait s
            | (true, s) => .done (zeroLine n l s)) s)

/- Maintenance of a range. -/

/-- Segments of a zone-physical range: index, and the part of the range within it as offsets. -/
def rangeSegs (start len : Nat) : List (Nat × Nat × Nat) :=
  let last := start + len - 1
  (List.range (last / 2 ^ 30 - start / 2 ^ 30 + 1)).map (fun k =>
    let i := start / 2 ^ 30 + k
    (i, Nat.max start (2 ^ 30 * i) - 2 ^ 30 * i, Nat.min (last + 1) (2 ^ 30 * (i + 1)) - 2 ^ 30 * i))

/-- The first segment of a range that CMR refuses: detail, and its first zone-physical address (R215). -/
def cmrRefused (s : State) (z : Nat) (segs : List (Nat × Nat × Nat)) : Option (Nat × Nat) :=
  segs.findSome? (fun g =>
    let e := s.segEntry z g.1
    if !bit 63 e then some (0x30, 2 ^ 30 * g.1) else if segKind e = 2 then some (0x31, 2 ^ 30 * g.1) else none)

/-- Every line that a cache, the directory or a writeback buffer holds. -/
def cachedLines (s : State) : List Nat :=
  (s.coh.dir.filterMap (fun e => e.2.line) ++ s.coh.l3.filterMap (fun e => e.2.line) ++ s.coh.wbuf ++
    s.pus.flatMap (fun e => e.2.l2.filterMap (fun w => w.2.line) ++ e.2.side)).eraseDups

/-- Addresses of a part of a segment at which its groups' tables are asked: its start and the next 64 KiB boundaries. -/
def groupProbes (lo hi : Nat) : List Nat :=
  (lo :: (List.range 4).map (fun k => 65536 * (lo / 65536 + 1 + k))).filter (fun a => decide (a < hi))

/-- Answers of the groups to a range operation (R450): the first error, with the zone-physical address asked at. -/
def cmrAnswer (a : Acc) (z : Nat) (k : AccKind) (segs : List (Nat × Nat × Nat)) (s : State) : Option (Nat × Nat) × State :=
  let probes := segs.flatMap (fun g => (groupProbes g.2.1 g.2.2).map (fun o => (2 ^ 30 * g.1 + o, 2 ^ 30 * segPseg (s.segEntry z g.1) + o)))
  probes.foldl (fun (r : Option (Nat × Nat) × State) p =>
    match r with
    | (some d, s) => (some d, s)
    | (none, s) =>
      match dramAnswer a p.2 k 5 s with
      | (some d, s) => (some (d, p.1), s)
      | (none, s) => (none, s)) (none, s)

/-- One maintenance operation on each line of a list. False: one waits for a busy line, a pin or a grant. -/
def mntLines (op : MntOp) (a : Acc) (own : Option (Nat × Bool)) : List Nat → State → Bool × State
  | [], s => (true, s)
  | l :: r, s =>
    if homeBusy s l then (false, s)
    else match pinsLet a none l s with
      | (false, s) => (false, s)
      | (true, s) =>
        match mntLine op a l own s with
        | (false, s) => (false, s)
        | (true, s) => mntLines op a own r s

/-- CMR (R215): in its turn at the fabric arbiter (R225) it acts on every line of the range at once. -/
def runCmr (h : Hdr) (d : BitVec 5) (op : MntOp) (a b : BitVec 5) (s : State) : State :=
  runIns h (encT h 0x34 0x14 d a b false) false false (some (0x34 * 64 + 0x14)) true decPriv (fun s =>
    let n := h.pu.val
    let arch := (s.thr n h.th).arch
    let start := 256 * ((arch.rg a).toNat / 256)
    let len := 256 * ((arch.rg b).toNat / 256)
    let w := op == .inval
    if len = 0 then .done s
    else if 2 ^ 42 < start + len then .exc { vec := 5, detail := 1, eaddr := arch.rg a, w := w } s
    else match s.puZone n with
      | none => .exc { vec := 7, detail := 2, eaddr := arch.rg a, w := w } s
      | some z =>
        let segs := rangeSegs start len
        match cmrRefused s z segs with
        | some (dt, ea) => .exc { vec := 5, detail := dt, eaddr := BitVec.ofNat 64 ea, w := w } s
        | none =>
          match cmrAnswer (s.puAcc n h.th) z (mntKind op) segs s with
          | (some (dt, ea), s) => .exc { vec := 7, detail := dt, eaddr := BitVec.ofNat 64 ea, w := w } s
          | (none, s) =>
            let inRange := fun (l : Nat) => segs.any (fun g =>
              let base := 2 ^ 30 * segPseg (s.segEntry z g.1)
              decide (base + g.2.1 ≤ 256 * l) && decide (256 * l < base + g.2.2))
            let lines := (cachedLines s).filter inRange
            let o : ArbOp := .cmr n h.th
            if mntWaits s n h.th lines then .wait s
            else if !arbTurn o s then .wait (standBy (.arb o) s)
            else match mntLines op (s.puAcc n h.th) (some (n, h.th)) lines s with
              | (false, s') => .wait (standBy (.arb o) { s with commit := s'.commit })
              | (true, s) => .done (arbOut o s)) s

/-- CMR, d = 0. -/
def execCmrCln (h : Hdr) (a b : BitVec 5) (s : State) : Host.Outcome State Fault Refusal := .next (runCmr h 0 .clean a b s)

/-- CMR, d = 1. -/
def execCmrCli (h : Hdr) (a b : BitVec 5) (s : State) : Host.Outcome State Fault Refusal :=
  .next (runCmr h 1 .cleanInval a b s)

/-- CMR, d = 2. -/
def execCmrInv (h : Hdr) (a b : BitVec 5) (s : State) : Host.Outcome State Fault Refusal := .next (runCmr h 2 .inval a b s)

/- Way locking. -/

/-- A way of line l's set is changed. -/
def updWay (l w : Nat) (f : L2Way → L2Way) (p : Pu) : Pu := { p with l2 := tupd {} p.l2 (l % 2048 * 16 + w) f }

/-- Ways of a line's set that q accepts. -/
def setWays (p : Pu) (l : Nat) (q : L2Way → Bool) : List Nat :=
  (List.range 16).filter (fun w => q (l2Way p (l % 2048 * 16 + w)))

/-- The line in way v moves into the locked empty way w; v is left empty and unlocked. -/
def moveLocked (l v w : Nat) (p : Pu) : Pu :=
  let x := l2Way p (l % 2048 * 16 + v)
  if v = w then updWay l w (fun x => { x with locked := true }) p
  else updWay l v (fun _ => {}) (updWay l w (fun _ => { x with locked := true }) p)

/-- Lock (R211, R212): the result of Table 8.3; none where the fill waits. -/
def lockWay (n : Nat) (th : Bool) (p : Part) (s : State) : (Except Exc (Option Nat)) × State :=
  let l := p.1.pa / 256
  let pu := s.pu n
  let full := decide (4 ≤ (setWays pu l (fun x => x.locked)).length)
  let empty := (setWays pu l (fun x => x.locked && x.line.isNone)).head?
  match l2Find pu l with
  | some v =>
    if (l2Way pu (l % 2048 * 16 + v)).locked then (.ok (some 1), s)
    else if full then
      match empty with
      | some w => (.ok (some 0), s.updPu n (moveLocked l v w))
      | none => (.ok (some 2), s)
    else (.ok (some 0), s.updPu n (updWay l v (fun x => { x with locked := true })))
  | none =>
    if full && empty.isNone then (.ok (some 2), s)
    else match answerExc p.2.1 false (homeAnswer n th p.1.pa .read 0 s) with
      | (some e, s) => (.error e, s)
      | (none, s) =>
        if s.poisoned l then (.error { vec := 2, detail := 2, eaddr := p.2.1 }, s)
        else
          let free := fun (b : Bool) (s : State) => match empty with
            | some w => s.updPu n (updWay l w (fun x => { x with locked := b }))
            | none => s
          match obtainShared n th l (if p.1.mt = .normalNA then 2 else 0) (free false s) with
          | (false, s) => (.ok none, free true s)
          | (true, s) =>
            match l2Find (s.pu n) l with
            | none => (.ok none, free true s)
            | some v => (.ok (some 0), s.updPu n (moveLocked l v (empty.getD v)))

/-- Unlock (R212). -/
def unlockWay (n l : Nat) (s : State) : Nat × State :=
  match l2Find (s.pu n) l with
  | some v =>
    if (l2Way (s.pu n) (l % 2048 * 16 + v)).locked then
      (0, s.updPu n (updWay l v (fun x => { x with locked := false, age := 3 })))
    else (1, s)
  | none => (1, s)

/-- Unlock set (R212). -/
def unlockSet (n l : Nat) (s : State) : Nat × State :=
  match setWays (s.pu n) l (fun x => x.locked) with
  | [] => (1, s)
  | ws => (0, ws.foldl (fun (s : State) w => s.updPu n (updWay l w (fun x => { x with locked := false }))) s)

/-- LOCKW (R212): Gb[1:0] selects; the three commands of the table are one instruction. Where both results 3 and 4 of
Table 8.3 apply, DEVICE memory and Gb[1:0] = 3, it gives 3 (DESIGN CHOICE, assumption 70: the table ranks neither first). -/
def runLockw (h : Hdr) (d a b : BitVec 5) (s : State) : State :=
  runIns h (encT h 0x34 0x15 d a b false) false false (some (0x34 * 64 + 0x15)) true decPriv (fun s =>
    let n := h.pu.val
    let arch := (s.thr n h.th).arch
    let put := fun (v : Nat) (s : State) => Res.done (s.updThr n h.th (fun t => { t with arch := t.arch.wg d (BitVec.ofNat 64 v) }))
    match transParts n h.th .clean false [(arch.rg a, 1)] s with
    | (.error e, s) => .exc e s
    | (.ok [], s) => .done s
    | (.ok (p :: _), s) =>
      let l := p.1.pa / 256
      if mntWaits s n h.th [] then .wait s
      else if p.1.mt = .device then put 3 s
      else match (arch.rg b).toNat % 4 with
        | 0 => let (r, s) := unlockWay n l s; put r s
        | 1 =>
          match lockWay n h.th p s with
          | (.error e, s) => .exc e s
          | (.ok none, s) => .wait s
          | (.ok (some r), s) => put r s
        | 2 => let (r, s) := unlockSet n l s; put r s
        | _ => put 4 s) s

/-- LOCKW, lock. -/
def execLockwLock (h : Hdr) (d a b : BitVec 5) (s : State) : Host.Outcome State Fault Refusal := .next (runLockw h d a b s)

/-- LOCKW, unlock. -/
def execLockwUnlock (h : Hdr) (d a b : BitVec 5) (s : State) : Host.Outcome State Fault Refusal :=
  .next (runLockw h d a b s)

/-- LOCKW, unlock set. -/
def execLockwUnlockSet (h : Hdr) (d a b : BitVec 5) (s : State) : Host.Outcome State Fault Refusal :=
  .next (runLockw h d a b s)

/- TLB invalidation. -/

/-- Does a TLBI remove a TLB entry (Table 6.10)? -/
def tlbiHits (op : TlbiOp) (va : Nat) (ctx : BitVec 16) (e : TlbEntry) : Bool :=
  let maps := e.va / 2 ^ e.bits == va / 2 ^ e.bits
  match op with
  | .addr => maps && !e.g && e.ctx == ctx
  | .addrAll => maps
  | .ctx => !e.g && e.ctx == ctx
  | .all => true

/-- Does a TLBI remove a walk-cache entry: one on the address's path, or of the context (R163)? -/
def tlbiWalk (op : TlbiOp) (va : Nat) (ctx : BitVec 16) (e : WalkEntry) : Bool :=
  let path := e.va == va / 2 ^ (12 + 9 * (e.level - 1))
  match op with
  | .addr => path && e.ctx == ctx
  | .addrAll => path
  | .ctx => e.ctx == ctx
  | .all => true

/-- A thread's fetch latch loses its page where the TLBI removes the page's translation (R163); a page held with translation
off goes with the TLBI of all. -/
def tlbiLatch (op : TlbiOp) (va : Nat) (ctx : BitVec 16) (t : Thread) : Thread :=
  { t with fetchLatch := t.fetchLatch.filter (fun x => !(tlbiHits op va ctx x.2 && (x.1 || op == .all))) }

/-- Matching entries leave the TLBs, the walk cache and the fetch latches of a PU (R163). -/
def tlbiRemove (op : TlbiOp) (va : Nat) (ctx : BitVec 16) (p : Pu) : Pu :=
  { p with
    dtlb := p.dtlb.filter (fun e => !tlbiHits op va ctx e)
    tlb := p.tlb.filter (fun e => !tlbiHits op va ctx e)
    walk := p.walk.filter (fun e => !tlbiWalk op va ctx e)
    t0 := tlbiLatch op va ctx p.t0, t1 := tlbiLatch op va ctx p.t1 }

/-- Does a PU still buffer a store that used a translation the TLBI removes (R164 step 4, R198)? -/
def tlbiHeld (op : TlbiOp) (va : Nat) (ctx : BitVec 16) (p : Pu) : Bool :=
  [p.t0, p.t1].any (fun t => anyStore t (fun e => e.trs.any (tlbiHits op va ctx)))

/-- TLBI (R163, R164): the issuing thread's stores come first; a local one acts on its own PU, a zone-scoped one goes to
the fabric arbiter, which holds 32 operations. -/
def runTlbi (h : Hdr) (op : TlbiOp) (code : Nat) (loc : Bool) (a b : BitVec 5) (s : State) : State :=
  let enc := encT h 0x34 0x18 (BitVec.ofNat 5 (code + 16 * loc.toNat)) a b false
  runIns h enc false false (some (0x34 * 64 + 0x18)) true decPriv (fun s =>
    let n := h.pu.val
    let t := s.thr n h.th
    let va := (t.arch.rg a).toNat
    let ctx := BitVec.ofNat 16 (t.arch.rg b).toNat
    if t.sb.any (· != .marker) || !comparedAll s n h.th then .wait s
    else if loc then
      if tlbiHeld op va ctx (s.pu n) then .wait s else .done (s.updPu n (tlbiRemove op va ctx))
    else if 32 ≤ s.coh.arb.length + s.coh.arbHome.length then .wait s
    else
      let todo := match s.puZone n with
        | some z => ((zonePus s z).filter (fun (k : Fin 48) => s.lcs (.pu k) == .on)).map (fun (k : Fin 48) => k.val)
        | none => [n]
      let x : ArbTlbi := { pu := n, th := h.th, op := op, va := va, ctx := ctx, todo := todo }
      .wait (({ s with coh := { s.coh with arb := s.coh.arb ++ [x] } }).updThr n h.th (fun t => { t with wait := .tlbi }))) s

/-- TLBI, d = 0. -/
def execTlbiAddr (h : Hdr) (loc : Bool) (a b : BitVec 5) (s : State) : Host.Outcome State Fault Refusal :=
  .next (runTlbi h .addr 0 loc a b s)

/-- TLBI, d = 1. -/
def execTlbiAddrAll (h : Hdr) (loc : Bool) (a b : BitVec 5) (s : State) : Host.Outcome State Fault Refusal :=
  .next (runTlbi h .addrAll 1 loc a b s)

/-- TLBI, d = 2. -/
def execTlbiCtx (h : Hdr) (loc : Bool) (a b : BitVec 5) (s : State) : Host.Outcome State Fault Refusal :=
  .next (runTlbi h .ctx 2 loc a b s)

/-- TLBI, d = 3. -/
def execTlbiAll (h : Hdr) (loc : Bool) (a b : BitVec 5) (s : State) : Host.Outcome State Fault Refusal :=
  .next (runTlbi h .all 3 loc a b s)

/-- TLBIs that every PU has acknowledged retire (R164 step 5). -/
def tlbiFinish (s : State) : State :=
  let (fin, rest) := s.coh.arb.partition (fun x => x.todo.isEmpty)
  fin.foldl (fun (s : State) x =>
    match (s.thr x.pu x.th).wait with
    | .tlbi => retire x.pu x.th (advance x.pu x.th 4 (s.updThr x.pu x.th (fun t => { t with wait := .none })))
    | _ => s) { s with coh := { s.coh with arb := rest } }

/-- TLBI_DELIVERY (R164, R165): the oldest TLBI that the PU has not acknowledged removes its entries there, once no
access that used one is left. -/
def execTlbiDelivery (pu : Fin 48) (s : State) : Host.Outcome State Fault Refusal :=
  .next (match s.coh.arb.findIdx? (fun x => x.todo.contains pu.val) with
    | none => s
    | some i =>
      match s.coh.arb[i]? with
      | none => s
      | some x =>
        if tlbiHeld x.op x.va x.ctx (s.pu pu) || !clocked s pu then s
        else
          let s := s.updPu pu (tlbiRemove x.op x.va x.ctx)
          tlbiFinish { s with coh := { s.coh with
            arb := s.coh.arb.set i { x with todo := x.todo.filter (· != pu.val) } } })

/-- TLBI_TIMEOUT (R165): the PU is declared failed, and what it has not acknowledged completes without it. -/
def execTlbiTimeout (pu : Fin 48) (s : State) : Host.Outcome State Fault Refusal :=
  .next (if !s.coh.arb.any (fun x => x.todo.contains pu.val) then s
    else
      let s := { s with coh := { s.coh with arb := s.coh.arb.map (fun (x : ArbTlbi) => { x with todo := x.todo.filter (· != pu.val) }) } }
      let s := if s.lcs (.pu pu) = .on then declareFailed pu 12 0 true true s else s
      after (tlbiFinish s))

end Sys2Proof.Machine
end

