-- ==== Sys2Proof/Machine/Inflate.lean ====
section
/-! DEFINITION. DEFLATE decompression and the zlib and gzip wrappers (R411 to R413; RFC 1950 to 1952 as the spec names
them, PRESUMED). -/

namespace Sys2Proof.Machine

/-- Bits of a byte string, each byte's least significant first. -/
def bitsOf (l : List Byte) : List Bool := l.flatMap (fun b => (List.range 8).map (fun i => b.getLsbD i))

/-- How a stream stands when its input has been read: more is needed, it is invalid, or it has ended, with the bits left. -/
inductive InfEnd where
  | more | bad | done (rest : List Bool)
deriving DecidableEq, Repr

/-- What reading from a bit stream gives. -/
inductive Bits (α : Type) where
  | got (v : α) (rest : List Bool)
  | more
  | bad

/-- n bits, the first the least significant. -/
def takeBits (n : Nat) (l : List Bool) : Bits Nat :=
  if l.length < n then .more
  else .got ((l.take n).foldr (fun b a => 2 * a + b.toNat) 0) (l.drop n)

/-- A Huffman code: symbols counted by length, and in code order. -/
structure Huff where
  count : List Nat
  syms  : List Nat
deriving DecidableEq, Repr

/-- The canonical code of a list of lengths. -/
def huffOf (lens : List Nat) : Huff :=
  { count := (List.range 16).map (fun n => if n = 0 then 0 else (lens.filter (· == n)).length)
    syms := (List.range 15).flatMap (fun n => (lens.zipIdx.filter (fun e => e.1 == n + 1)).map (·.2)) }

/-- How far a code is from complete: positive unused, negative oversubscribed. -/
def huffLeft (h : Huff) : Int :=
  (List.range 15).foldl (fun (x : Int) n => 2 * x - (h.count.getD (n + 1) 0 : Int)) 1

/-- Complete, or a single code of one bit. -/
def huffOk (h : Huff) : Bool := huffLeft h == 0 || (decide (0 < huffLeft h) && decide (h.syms.length ≤ 1))

/-- The next symbol: fuel is the lengths left. -/
def huffSym (h : Huff) : Nat → Nat → Nat → Nat → List Bool → Bits Nat
  | 0, _, _, _, _ => .bad
  | _ + 1, _, _, _, [] => .more
  | fuel + 1, code, first, index, b :: l =>
    let code := 2 * code + b.toNat
    let n := h.count.getD (15 - fuel) 0
    if code < first + n then .got (h.syms.getD (index + (code - first)) 0) l
    else huffSym h fuel code (2 * (first + n)) (index + n) l

/-- Base and extra bits of a length symbol. -/
def lenOf (s : Nat) : Nat × Nat :=
  if s = 285 then (258, 0)
  else if s < 265 then (s - 254, 0)
  else let e := (s - 261) / 4; (3 + (4 + (s - 261) % 4) * 2 ^ e, e)

/-- Base and extra bits of a distance symbol. -/
def distOf (s : Nat) : Nat × Nat :=
  if s < 4 then (s + 1, 0)
  else let e := s / 2 - 1; (1 + (2 + s % 2) * 2 ^ e, e)

/-- n bytes copied from distance d; out is newest first. -/
def copyBack : Nat → Nat → List Byte → List Byte
  | 0, _, out => out
  | n + 1, d, out => copyBack n d (out.getD (d - 1) 0 :: out)

/-- The symbols of a compressed block. -/
def infBlock (lit dist : Huff) : Nat → List Byte → List Bool → List Byte × InfEnd
  | 0, out, _ => (out, .bad)
  | fuel + 1, out, l =>
    match huffSym lit 15 0 0 0 l with
    | .more => (out, .more)
    | .bad => (out, .bad)
    | .got s l =>
      if s < 256 then infBlock lit dist fuel (BitVec.ofNat 8 s :: out) l
      else if s = 256 then (out, .done l)
      else if 285 < s then (out, .bad)
      else match takeBits (lenOf s).2 l with
        | .got x l =>
          match huffSym dist 15 0 0 0 l with
          | .more => (out, .more)
          | .bad => (out, .bad)
          | .got ds l =>
            if 29 < ds then (out, .bad)
            else match takeBits (distOf ds).2 l with
              | .got y l =>
                let d := (distOf ds).1 + y
                if out.length < d ∨ 32768 < d then (out, .bad)
                else infBlock lit dist fuel (copyBack ((lenOf s).1 + x) d out) l
              | _ => (out, .more)
        | _ => (out, .more)

/-- Order of the code-length codes. -/
def clOrder : List Nat := [16, 17, 18, 0, 8, 7, 9, 6, 10, 5, 11, 4, 12, 3, 13, 2, 14, 1, 15]

/-- n code lengths under a code of code lengths; acc is newest first. -/
def readLens (h : Huff) (n : Nat) : Nat → List Nat → List Bool → Bits (List Nat)
  | 0, _, _ => .bad
  | fuel + 1, acc, l =>
    if n = acc.length then .got acc.reverse l
    else if n < acc.length then .bad
    else match huffSym h 15 0 0 0 l with
      | .more => .more
      | .bad => .bad
      | .got s l =>
        if s < 16 then readLens h n fuel (s :: acc) l
        else
          let (nb, base) := if s = 16 then (2, 3) else if s = 17 then (3, 3) else (7, 11)
          match takeBits nb l with
          | .got x l =>
            if s = 16 ∧ acc.isEmpty then .bad
            else readLens h n fuel (List.replicate (base + x) (if s = 16 then acc.headD 0 else 0) ++ acc) l
          | _ => .more

/-- n values of 3 bits each. -/
def read3 : Nat → List Nat → List Bool → Bits (List Nat)
  | 0, acc, l => .got acc.reverse l
  | n + 1, acc, l =>
    match takeBits 3 l with
    | .got v l => read3 n (v :: acc) l
    | _ => .more

/-- The codes of a dynamic block. -/
def dynCodes (l : List Bool) : Bits (Huff × Huff) :=
  match takeBits 14 l with
  | .got v l =>
    let nlit := v % 32 + 257
    let nd := v / 32 % 32 + 1
    let nc := v / 1024 + 4
    if 286 < nlit ∨ 30 < nd then .bad
    else match read3 nc [] l with
      | .got cl l =>
        let cll := (List.range 19).map (fun i => match (clOrder.take nc).findIdx? (· == i) with
          | some j => cl.getD j 0
          | none => 0)
        let h := huffOf cll
        if huffLeft h ≠ 0 then .bad
        else match readLens h (nlit + nd) (nlit + nd + 1) [] l with
          | .got lens l =>
            let a := huffOf (lens.take nlit)
            let b := huffOf (lens.drop nlit)
            if lens.getD 256 0 = 0 ∨ !huffOk a ∨ !huffOk b then .bad else .got (a, b) l
          | .more => .more
          | .bad => .bad
      | _ => .more
  | _ => .more

/-- The fixed codes. -/
def fixedLit : Huff :=
  huffOf (List.replicate 144 8 ++ List.replicate 112 9 ++ List.replicate 24 7 ++ List.replicate 8 8)
/-- The fixed distance code. -/
def fixedDist : Huff := huffOf (List.replicate 30 5)

/-- Bits of a stored block as bytes. -/
def storedBytes (n : Nat) (l : List Bool) : List Byte :=
  (List.range n).map (fun i => BitVec.ofNat 8 (((l.drop (8 * i)).take 8).foldr (fun b a => 2 * a + b.toNat) 0))

/-- The blocks of a stream: total is the number of bits of the whole stream, for byte alignment; out is newest first. -/
def infBlocks (total : Nat) : Nat → List Byte → List Bool → List Byte × InfEnd
  | 0, out, _ => (out, .bad)
  | fuel + 1, out, l =>
    match takeBits 3 l with
    | .got v l =>
      let (out, e) := match v / 2 with
        | 0 =>
          let l := l.drop ((8 - (total - l.length) % 8) % 8)
          match takeBits 32 l with
          | .got w l =>
            let n := w % 65536
            if n + w / 65536 ≠ 65535 then (out, InfEnd.bad)
            else if l.length < 8 * n then ((storedBytes (l.length / 8) l).reverse ++ out, .more)
            else ((storedBytes n l).reverse ++ out, .done (l.drop (8 * n)))
          | _ => (out, .more)
        | 1 => infBlock fixedLit fixedDist (l.length + 1) out l
        | 2 =>
          match dynCodes l with
          | .got (a, b) l => infBlock a b (l.length + 1) out l
          | .more => (out, .more)
          | .bad => (out, .bad)
        | _ => (out, .bad)
      match e with
      | .done l => if v % 2 = 1 then (out, .done l) else infBlocks total fuel out l
      | _ => (out, e)
    | _ => (out, .more)

/-- RFC 1951: the output, and how the stream stands; where it has ended, the number of whole bytes that follow. -/
def inflate (d : List Byte) : List Byte × InfEnd × Nat :=
  let l := bitsOf d
  let (out, e) := infBlocks l.length (l.length + 1) [] l
  (out.reverse, e, match e with | .done r => r.length / 8 | _ => 0)

/-- How a wrapped stream stands. -/
inductive StreamEnd where
  | more | bad | sum | unsupported | done (used : Nat)
deriving DecidableEq, Repr

/-- A zero-terminated field from offset o: the offset after it, where it is complete. -/
def zField (d : List Byte) (o : Nat) : Option Nat :=
  ((d.drop o).findIdx? (· == 0)).map (fun i => o + i + 1)

/-- Length of a gzip header (R412): none where more input is needed; an error where it is invalid. -/
def gzipHead (d : List Byte) : Except StreamEnd Nat :=
  if d.length < 10 then .error .more
  else if beAt d 0 2 ≠ 0x1F8B ∨ beAt d 2 1 ≠ 8 ∨ 32 ≤ beAt d 3 1 then .error .bad
  else
    let f := beAt d 3 1
    let o : Option Nat := some 10
    let o := if f / 4 % 2 = 1 then o.bind (fun o => if d.length < o + 2 then none
        else let n := ofLe (slice d o 2); if d.length < o + 2 + n then none else some (o + 2 + n)) else o
    let o := if f / 8 % 2 = 1 then o.bind (zField d) else o
    let o := if f / 16 % 2 = 1 then o.bind (zField d) else o
    match o with
    | none => .error .more
    | some o =>
      if f / 2 % 2 = 0 then .ok o
      else if d.length < o + 2 then .error .more
      else if ofLe (slice d o 2) ≠ crc32 (d.take o) % 65536 then .error .sum
      else .ok (o + 2)

/-- A zlib header (R412). -/
def zlibHead (d : List Byte) : Except StreamEnd Nat :=
  if d.length < 2 then .error .more
  else if beAt d 0 1 % 16 ≠ 8 ∨ 7 < beAt d 0 1 / 16 ∨ beAt d 0 2 % 31 ≠ 0 then .error .bad
  else if beAt d 1 1 / 32 % 2 = 1 then .error .unsupported
  else .ok 2

/-- Decompression of everything that a stream has been given so far: w 0 raw, 1 zlib, 2 gzip. -/
def unwrap (w : Nat) (d : List Byte) : List Byte × StreamEnd :=
  match (match w with | 0 => Except.ok 0 | 1 => zlibHead d | _ => gzipHead d) with
  | .error e => ([], e)
  | .ok o =>
    let (out, e, left) := inflate (d.drop o)
    match e with
    | .more => (out, .more)
    | .bad => (out, .bad)
    | .done _ =>
      let t := d.length - left
      match w with
      | 0 => (out, .done t)
      | 1 =>
        if left < 4 then (out, .more)
        else if beAt d t 4 = adler32 out then (out, .done (t + 4)) else (out, .sum)
      | _ =>
        if left < 8 then (out, .more)
        else if ofLe (slice d t 4) = crc32 out ∧ ofLe (slice d (t + 4) 4) = out.length % 2 ^ 32 then (out, .done (t + 8))
        else (out, .sum)

end Sys2Proof.Machine
end

