-- ==== Sys2Proof/Machine/Crypto.lean ====
section
/-! DEFINITION. Running a descriptor on a crypto slice (R402 to R410): parameters, key tokens, contexts, random data. -/

namespace Sys2Proof.Machine

/-- How a descriptor ends without success: with a completion code of Table 15.6, or it waits for a commit grant. -/
inductive OpEnd where
  | fail (code detail outLen : Nat) (inl : Quad)
  | waits
deriving DecidableEq, Repr

/-- What a descriptor that succeeds reports. -/
structure OpOut where
  outLen : Nat := 0
  inl    : Quad := 0
  more   : Bool := false
deriving DecidableEq, Repr

/-- A step of an operation. -/
abbrev OpM (α : Type) := ExceptT OpEnd (StateM State) α

/-- The descriptor ends with a code. -/
def opFail {α : Type} (code : Nat) : OpM α := throw (OpEnd.fail code 0 0 0)

/-- The descriptor ends with a code where b does not hold. -/
def opNeed (b : Bool) (code : Nat) : OpM Unit := if b then pure () else opFail code

/-- Input bytes (codes 7 and 8). -/
def opRead (comp : Bool) (z zpa n : Nat) : OpM (List Byte) := do
  match ← modifyGet (accRead comp 0 z zpa n) with
  | .ok b => pure b
  | .error c => opFail c

/-- Output bytes (code 7). -/
def opWrite (comp : Bool) (z zpa : Nat) (b : List Byte) : OpM Unit := do
  match ← modifyGet (accWrite comp z zpa b) with
  | .done => pure ()
  | .waits => throw OpEnd.waits
  | _ => opFail 7

/-- A request to the slice's DRBG: n free bytes; it reseeds where it has to (R419). -/
def drbgBytes (k : Nat) (predict : Bool) (n : Nat) (s : State) : List Byte × State :=
  let x := s.slice false k
  let fresh := predict || x.needSeed || decide (2 ^ 20 ≤ x.drbgReq)
  ((List.range n).map (Config.freeByte s.free), { s with free := s.free + 1 }.updSlice false k (fun x => { x with
    needSeed := false, drbgReq := if fresh then 1 else x.drbgReq + 1 }))

/-- n random bytes of the slice's DRBG (R419): none while the source has stopped. -/
def opRandom (k : Nat) (predict : Bool) (n : Nat) : OpM (List Byte) := do
  opNeed (← get).crypto.entropy 10
  modifyGet (drbgBytes k predict n)

/- Key tokens. -/

/-- The master key of a zone and generation, and where it is none code 4 (R405, R407). -/
def masterKey (s : State) (z : Nat) (gen : Nat) : Option (List Byte) :=
  let k := tget {} s.crypto.keys z
  let key := fun (v : Option (BitVec 256)) => v.map (fun v => toBe 32 v.toNat)
  if gen = k.gen.toNat then key k.cur
  else if gen = (255 + k.gen.toNat) % 256 then key k.prev
  else none

/-- Bytes of a token's material by kind (PRESUMED from the standards named), none where a kind allows several. -/
def kindSize : Nat → Option Nat
  | 1 => some 16 | 2 => some 32 | 3 => some 64 | 4 => some 24 | 6 => some 32 | 7 => some 48
  | 8 => some 32 | 9 => some 32 | 10 => some 32 | 11 => some 64 | 12 => some 64 | _ => none

/-- What a token holds once it has been checked. -/
structure Token where
  kind  : Nat
  usage : Nat
  mat   : List Byte
deriving DecidableEq, Repr

/-- A token at an address after the first four checks of R407. -/
def openToken (z zpa : Nat) : OpM Token := do
  opNeed (tget {} (← get).crypto.keys z).cur.isSome 4
  let b ← opRead false z zpa 128
  opNeed (beAt b 0 2 == 0x4B54) 2
  opNeed (beAt b 8 1 % 16 == z) 2
  match masterKey (← get) z (beAt b 9 1) with
  | none => opFail 4
  | some key =>
    let ct := slice b 0x20 64
    opNeed (gcmTag key (slice b 0x10 12) (b.take 32) ct == slice b 0x60 16) 2
    pure { kind := beAt b 2 1, usage := beAt b 4 4, mat := (gcmCrypt key (slice b 0x10 12) ct).take (beAt b 3 1) }

/-- A token whose kind fits and whose usage bits are set (R407). -/
def useToken (z zpa : Nat) (kinds bits : List Nat) : OpM Token := do
  let t ← openToken z zpa
  opNeed (kinds.contains t.kind && bits.all (fun i => t.usage / 2 ^ i % 2 == 1)) 3
  pure t

/-- The token of key material under the zone's current master key (Table 15.3). -/
def tokenBytes (key nonce : List Byte) (kind usage z gen : Nat) (mat : List Byte) : List Byte :=
  let aad := toBe 2 0x4B54 ++ toBe 1 kind ++ toBe 1 mat.length ++ toBe 4 usage ++ toBe 1 z ++ toBe 1 gen ++
    List.replicate 6 0 ++ nonce ++ List.replicate 4 0
  let ct := gcmCrypt key nonce (fit 64 mat)
  aad ++ ct ++ gcmTag key nonce aad ct ++ List.replicate 16 0

/-- A new token is written at KEY2. -/
def makeToken (k z zpa kind usage : Nat) (mat : List Byte) : OpM Unit := do
  let slot := tget {} (← get).crypto.keys z
  match slot.cur with
  | none => opFail 4
  | some key =>
    let nonce ← opRandom k false 12
    opWrite false z zpa (tokenBytes (toBe 32 key.toNat) nonce kind usage z slot.gen.toNat mat)

/-- Usage bits that the spec leaves open for a key that the unit generates with its operation: a free value of the bits
0 to 8 (assumption 23). -/
def freeUsage : OpM Nat := do
  let v ← modifyGet (fun s => s.draw 9)
  pure v.toNat

/-- May a new token of a kind have a usage (R407, Table 15.3)? IMPORTED and the bits above it are not for the request. -/
def usageOk (kind usage : Nat) : Bool :=
  decide (usage < 512) && (kind != 4 || (usage % 64 == 0))

/- Contexts. -/

/-- The state of a computation that a context block holds; none: the block is not one that a unit wrote for this zone and
operation under the current master key (R404). -/
def findCtx (s : State) (comp : Bool) (z op : Nat) (b : List Byte) : Option CtxRec :=
  s.crypto.ctxs.find? (fun r =>
    r.comp == comp && r.zone == z && r.op == op && (comp || r.gen == (tget {} s.crypto.keys z).gen) &&
      (b.zipIdx).all (fun e => Config.freeByte r.num e.2 == e.1))

/-- A context block is written: its bytes are free, and stand for a state of the computation, or for none any more. -/
def writeCtx (comp : Bool) (z zpa : Nat) (r : Option CtxRec) : OpM Unit := do
  let n ← modifyGet (fun s => (s.free, { s with free := s.free + 1 }))
  opWrite comp z zpa ((List.range (ctxSize comp)).map (Config.freeByte n))
  match r with
  | some r => modify (fun s => { s with crypto := { s.crypto with ctxs := { r with num := n } :: s.crypto.ctxs } })
  | none => pure ()

/-- The state that a multi-part operation starts from (R404): a single-part descriptor has FIRST, FINAL and no CTX. -/
def startCtx (z : Nat) (d : Desc) : OpM CtxRec := do
  let s ← get
  opNeed (if d.first && d.final then d.ctx == 0 else d.ctx != 0) 5
  opNeed (d.final || d.len1 % 256 == 0) 5
  if d.first then
    pure { num := 0, comp := false, zone := z, op := d.op, param := d.param, gen := (tget {} s.crypto.keys z).gen
           iv := d.iv, aad := [], data := [], chunks := [], sent := 0 }
  else
    let b ← opRead false z d.ctx 256
    match findCtx (← get) false z d.op b with
    | some r => pure r
    | none => opFail 2

/-- The context block after a descriptor of a multi-part operation. -/
def endCtx (z : Nat) (d : Desc) (r : CtxRec) : OpM Unit :=
  if d.ctx = 0 then pure ()
  else do
    opNeed (tget {} (← get).crypto.keys z).cur.isSome 4
    writeCtx false z d.ctx (if d.final then none else some r)

/- Running a descriptor. -/

/-- Number of descriptors that a slice has in progress (R399). -/
def inProgress (x : Slice) : Nat := (x.jobs.filter (fun j => match j.stage with | .ran _ _ _ _ _ => true | _ => false)).length

/-- The stage of a job is set. A failure leaves the rest of its chain not run (R401); with code 1 or 6 the chain's
completions are held back for the time the rest would have taken (R420). -/
def setStage (comp : Bool) (k : Nat) (j : Job) (st : JobStage) (s : State) : State :=
  let failed : Bool := match st with | .ran c _ _ _ _ => c != 0 | _ => false
  let hides : Bool := match st with | .ran c _ _ _ _ => !comp && (c == 1 || c == 6) && !j.last | _ => false
  s.updSlice comp k (fun x => { x with jobs := x.jobs.map (fun i =>
    let i := if i.chain = j.chain ∧ i.pos = j.pos then { i with stage := st }
      else if failed ∧ i.chain = j.chain ∧ j.pos < i.pos then { i with stage := .notRun } else i
    if hides && i.chain == j.chain then { i with held := true } else i) })

/-- A slice's next descriptor, where it has the wanted operation: it is in progress, or has failed, from then on. No new
work starts in M2 and M6, nor in M7 and M8 (R37). -/
def startJob (comp : Bool) (k op : Nat) (f : Nat → Desc → OpM OpOut) (s : State) : State :=
  let x := s.slice comp k
  match x.jobs.find? (fun j => j.stage == .queued) with
  | none => s
  | some j =>
    let d := descOf j.desc
    if s.lcs (sliceFn comp k) ≠ .on ∨ !unitWorks s comp ∨ chanHolds s ∨ s.lcs (.zone (Fin.ofNat 16 j.zone)) ≠ .on ∨ d.op ≠ op ∨
        8 ≤ inProgress x then s
    else match (f j.zone d).run s with
      | (.ok o, s) => setStage comp k j (.ran 0 0 o.outLen o.inl o.more) s
      | (.error .waits, s) => s
      | (.error (.fail c dt n inl), s) => setStage comp k j (.ran c dt n inl false) s

/-- A slice starts its next descriptor (R399): whole, or it waits (R221). -/
def runJob (comp : Bool) (k op : Nat) (f : Nat → Desc → OpM OpOut) (s : State) : State :=
  if unitHeld s comp then s else orWait (startJob comp k op f) s

/-- A crypto operation of slice k as a command. -/
def crypto (k : Fin 16) (op : Nat) (f : Nat → Desc → OpM OpOut) (s : State) : Host.Outcome State Fault Refusal :=
  .next (runJob false k op f s)

/-- A tag or digest left-aligned in 16 bytes (Table 15.5). -/
def inline16 (b : List Byte) : Quad := BitVec.ofNat 128 (ofBe (fit 16 b))

/- AES-GCM. -/

/-- AES-GCM of one descriptor (R402 to R404). -/
def runGcm (enc : Bool) (z : Nat) (d : Desc) : OpM OpOut := do
  opNeed (decide (12 ≤ d.param) && decide (d.param ≤ 16)) 5
  opNeed (enc || !d.final || d.compl != 0) 5
  let t ← useToken z d.key1 [1, 2] [if enc then 0 else 1]
  let r ← startCtx z d
  opNeed (decide (d.len1 ≤ d.outCap)) 9
  let aad ← if d.first then opRead false z d.aux d.len2 else pure r.aad
  let inp ← opRead false z d.inp d.len1
  let nonce := r.iv.take 12
  let out := (gcmCrypt t.mat nonce (List.replicate r.data.length 0 ++ inp)).drop r.data.length
  opWrite false z d.out out
  let ct := r.data ++ (if enc then out else inp)
  let tag := (gcmTag t.mat nonce aad ct).take d.param
  if d.final && !enc then
    let want ← opRead false z (d.compl + 0x20) d.param
    if want ≠ tag then
      opWrite false z d.out (List.replicate out.length 0)
      endCtx z d r
      opFail 1
  endCtx z d { r with aad := aad, data := ct }
  pure { outLen := out.length, inl := if d.final && enc then inline16 tag else 0 }

/-- AES_GCM_ENCRYPT (R402). -/
def execAesGcmEncrypt (slice : Fin 16) (s : State) : Host.Outcome State Fault Refusal := crypto slice 0x01 (runGcm true) s

/-- AES_GCM_DECRYPT (R403). -/
def execAesGcmDecrypt (slice : Fin 16) (s : State) : Host.Outcome State Fault Refusal := crypto slice 0x02 (runGcm false) s

/- AES-XTS. -/

/-- AES-XTS of one descriptor. -/
def runXts (enc : Bool) (z : Nat) (d : Desc) : OpM OpOut := do
  opNeed (decide (1 ≤ d.param) && decide (d.param ≤ 4096) && d.len1 % 16 == 0) 5
  let t ← useToken z d.key1 [3] [if enc then 0 else 1]
  opNeed (decide (d.len1 ≤ d.outCap)) 9
  let inp ← opRead false z d.inp d.len1
  opWrite false z d.out (xts enc t.mat d.iv (16 * d.param) inp)
  pure { outLen := d.len1 }

/-- AES_XTS_ENCRYPT (R402). -/
def execAesXtsEncrypt (slice : Fin 16) (s : State) : Host.Outcome State Fault Refusal := crypto slice 0x03 (runXts true) s

/-- AES_XTS_DECRYPT (R402). -/
def execAesXtsDecrypt (slice : Fin 16) (s : State) : Host.Outcome State Fault Refusal := crypto slice 0x04 (runXts false) s

/- AES-CMAC. -/

/-- AES-CMAC of one descriptor. -/
def runCmac (gen : Bool) (z : Nat) (d : Desc) : OpM OpOut := do
  opNeed (decide (4 ≤ d.param) && decide (d.param ≤ 16) && (gen || !d.final || d.len2 == d.param)) 5
  let t ← useToken z d.key1 [1, 2] [if gen then 2 else 3]
  let r ← startCtx z d
  let inp ← opRead false z d.inp d.len1
  let data := r.data ++ inp
  let tag := (aesCmac t.mat data).take d.param
  let want ← if d.final && !gen then opRead false z d.aux d.len2 else pure tag
  endCtx z d { r with data := data }
  opNeed (want == tag) 1
  pure { inl := if d.final && gen then inline16 tag else 0 }

/-- AES_CMAC_GENERATE (R402). -/
def execAesCmacGenerate (slice : Fin 16) (s : State) : Host.Outcome State Fault Refusal := crypto slice 0x05 (runCmac true) s

/-- AES_CMAC_VERIFY (R403). -/
def execAesCmacVerify (slice : Fin 16) (s : State) : Host.Outcome State Fault Refusal := crypto slice 0x06 (runCmac false) s

/- Hashes. -/

/-- A hash of one descriptor: n as OP − 0x08. -/
def runHash (n : Nat) (z : Nat) (d : Desc) : OpM OpOut := do
  opNeed (d.param == 0) 5
  let r ← startCtx z d
  let inp ← opRead false z d.inp d.len1
  let data := r.data ++ inp
  if d.final then opWrite false z d.out (hashAlg n data)
  endCtx z d { r with data := data }
  pure { outLen := if d.final then hashSize n else 0 }

/-- SHA_256 (R402). -/
def execSha256 (slice : Fin 16) (s : State) : Host.Outcome State Fault Refusal := crypto slice 0x08 (runHash 0) s

/-- SHA_384 (R402). -/
def execSha384 (slice : Fin 16) (s : State) : Host.Outcome State Fault Refusal := crypto slice 0x09 (runHash 1) s

/-- SHA_512 (R402). -/
def execSha512 (slice : Fin 16) (s : State) : Host.Outcome State Fault Refusal := crypto slice 0x0A (runHash 2) s

/-- SHA3_256 (R402). -/
def execSha3256 (slice : Fin 16) (s : State) : Host.Outcome State Fault Refusal := crypto slice 0x0B (runHash 3) s

/-- SHA3_384 (R402). -/
def execSha3384 (slice : Fin 16) (s : State) : Host.Outcome State Fault Refusal := crypto slice 0x0C (runHash 4) s

/-- SHA3_512 (R402). -/
def execSha3512 (slice : Fin 16) (s : State) : Host.Outcome State Fault Refusal := crypto slice 0x0D (runHash 5) s

/- HMAC. -/

/-- HMAC of one descriptor. A continuation names the hash of its start. -/
def runHmac (gen : Bool) (z : Nat) (d : Desc) : OpM OpOut := do
  opNeed (decide (d.param < 6) && (gen || !d.final || d.len2 == hashSize d.param)) 5
  let t ← useToken z d.key1 [5] [if gen then 2 else 3]
  let r ← startCtx z d
  opNeed (r.param == d.param) 2
  let inp ← opRead false z d.inp d.len1
  let data := r.data ++ inp
  let mac := hmacAlg d.param t.mat data
  let want ← if d.final && !gen then opRead false z d.aux d.len2 else pure mac
  if d.final && gen then opWrite false z d.out mac
  endCtx z d { r with data := data }
  opNeed (want == mac) 1
  pure { outLen := if d.final && gen then hashSize d.param else 0 }

/-- HMAC_GENERATE (R402): the code goes to OUT. -/
def execHmacGenerate (slice : Fin 16) (s : State) : Host.Outcome State Fault Refusal := crypto slice 0x0E (runHmac true) s

/-- HMAC_VERIFY (R403). -/
def execHmacVerify (slice : Fin 16) (s : State) : Host.Outcome State Fault Refusal := crypto slice 0x0F (runHmac false) s

/- Signatures and keys. -/

/-- Curve of PARAM. -/
def curveOf (n : Nat) : Curve := if n = 1 then p256 else p384

/-- A random number from 1 to n − 1. -/
def opScalar (k n : Nat) : OpM Nat := do
  let b ← opRandom k false 64
  pure (1 + ofBe b % (n - 1))

/-- Are the fields of an ECDSA PARAM in range? -/
def ecParamOk (p : Nat) : Bool := (p % 16 == 1 || p % 16 == 2) && decide (p / 16 % 16 < 6) && decide (p < 512)

/-- The digest that ECDSA signs: that of the input, or the input. -/
def ecInput (z : Nat) (d : Desc) : OpM (List Byte) := do
  let h := d.param / 16 % 16
  opNeed (d.param < 256 || d.len1 == hashSize h) 5
  let inp ← opRead false z d.inp d.len1
  pure (if d.param < 256 then hashAlg h inp else inp)

/-- ECDSA_SIGN (R402). -/
def opEcdsaSign (slice : Fin 16) (z : Nat) (d : Desc) : OpM OpOut := do
  opNeed (ecParamOk d.param) 5
  let c := curveOf (d.param % 16)
  let t ← useToken z d.key1 [if d.param % 16 = 1 then 6 else 7] [4]
  let kk ← opScalar slice c.n
  let h ← ecInput z d
  opWrite false z d.out (ecSign c (ofBe t.mat) kk h)
  pure { outLen := 2 * c.size }

/-- ECDSA_SIGN as a command. -/
def execEcdsaSign (slice : Fin 16) (s : State) : Host.Outcome State Fault Refusal :=
  crypto slice 0x10 (opEcdsaSign slice) s

/-- ECDSA_VERIFY (R403): AUX holds the uncompressed point, then r ‖ s. -/
def opEcdsaVerify (z : Nat) (d : Desc) : OpM OpOut := do
  opNeed (ecParamOk d.param) 5
  let c := curveOf (d.param % 16)
  opNeed (d.len2 == 4 * c.size + 1) 5
  let aux ← opRead false z d.aux d.len2
  let h ← ecInput z d
  opNeed (ecVerify c (aux.take (2 * c.size + 1)) (aux.drop (2 * c.size + 1)) h) 1
  pure {}

/-- ECDSA_VERIFY as a command. -/
def execEcdsaVerify (slice : Fin 16) (s : State) : Host.Outcome State Fault Refusal :=
  crypto slice 0x11 opEcdsaVerify s

/-- ML_DSA_SIGN (R402): hedged with 32 random bytes. -/
def opMlDsaSign (slice : Fin 16) (z : Nat) (d : Desc) : OpM OpOut := do
  opNeed (decide (1 ≤ d.param) && decide (d.param ≤ 3)) 5
  let t ← useToken z d.key1 [7 + d.param] [4]
  let rnd ← opRandom slice false 32
  let inp ← opRead false z d.inp d.len1
  let n := (dsaSizes d.param).2
  opWrite false z d.out (fit n (Config.mlDsaSign d.param t.mat inp rnd))
  pure { outLen := n }

/-- ML_DSA_SIGN as a command. -/
def execMlDsaSign (slice : Fin 16) (s : State) : Host.Outcome State Fault Refusal :=
  crypto slice 0x12 (opMlDsaSign slice) s

/-- ML_DSA_VERIFY (R403): AUX holds the public key, then the signature. -/
def opMlDsaVerify (z : Nat) (d : Desc) : OpM OpOut := do
  opNeed (decide (1 ≤ d.param) && decide (d.param ≤ 3)) 5
  let (pk, sg) := dsaSizes d.param
  opNeed (d.len2 == pk + sg) 5
  let aux ← opRead false z d.aux d.len2
  let inp ← opRead false z d.inp d.len1
  opNeed (Config.mlDsaVerify d.param (aux.take pk) (aux.drop pk) inp) 1
  pure {}

/-- ML_DSA_VERIFY as a command. -/
def execMlDsaVerify (slice : Fin 16) (s : State) : Host.Outcome State Fault Refusal :=
  crypto slice 0x13 opMlDsaVerify s

/-- ML_KEM_KEY_GENERATION (R402): the encapsulation key to OUT, the seed token at KEY2. -/
def opMlKemKeyGeneration (slice : Fin 16) (z : Nat) (d : Desc) : OpM OpOut := do
  opNeed (d.param == 1 || d.param == 2) 5
  let seed ← opRandom slice false 64
  let n := (kemSizes d.param).1
  opWrite false z d.out (fit n (Config.mlKemPublic d.param seed))
  makeToken slice z d.key2 (10 + d.param) (← freeUsage) seed
  pure { outLen := n }

/-- ML_KEM_KEY_GENERATION as a command. -/
def execMlKemKeyGeneration (slice : Fin 16) (s : State) : Host.Outcome State Fault Refusal :=
  crypto slice 0x14 (opMlKemKeyGeneration slice) s

/-- ML_KEM_ENCAPSULATE (R402): the ciphertext to OUT, the shared secret as an AES-256 token at KEY2. -/
def opMlKemEncapsulate (slice : Fin 16) (z : Nat) (d : Desc) : OpM OpOut := do
  opNeed (d.param == 1 || d.param == 2) 5
  opNeed (d.len2 == (kemSizes d.param).1) 5
  let rnd ← opRandom slice false 32
  let ek ← opRead false z d.aux d.len2
  let n := (kemSizes d.param).2
  let (ct, ss) := Config.mlKemEncaps d.param ek rnd
  opWrite false z d.out (fit n ct)
  makeToken slice z d.key2 2 (← freeUsage) (fit 32 ss)
  pure { outLen := n }

/-- ML_KEM_ENCAPSULATE as a command. -/
def execMlKemEncapsulate (slice : Fin 16) (s : State) : Host.Outcome State Fault Refusal :=
  crypto slice 0x15 (opMlKemEncapsulate slice) s

/-- ML_KEM_DECAPSULATE (R402): the shared secret as an AES-256 token at KEY2. -/
def opMlKemDecapsulate (slice : Fin 16) (z : Nat) (d : Desc) : OpM OpOut := do
  opNeed (d.param == 1 || d.param == 2) 5
  opNeed (d.len2 == (kemSizes d.param).2) 5
  let t ← useToken z d.key1 [10 + d.param] [5]
  let ct ← opRead false z d.aux d.len2
  makeToken slice z d.key2 2 (← freeUsage) (fit 32 (Config.mlKemDecaps d.param t.mat ct))
  pure {}

/-- ML_KEM_DECAPSULATE as a command. -/
def execMlKemDecapsulate (slice : Fin 16) (s : State) : Host.Outcome State Fault Refusal :=
  crypto slice 0x16 (opMlKemDecapsulate slice) s

/-- ECDSA_KEY_GENERATION (R402): the public key to OUT, the private key token at KEY2. -/
def opEcdsaKeyGeneration (slice : Fin 16) (z : Nat) (d : Desc) : OpM OpOut := do
  opNeed (ecParamOk d.param) 5
  let c := curveOf (d.param % 16)
  let x ← opScalar slice c.n
  opWrite false z d.out (ecPublic c x)
  makeToken slice z d.key2 (if d.param % 16 = 1 then 6 else 7) (← freeUsage) (toBe c.size x)
  pure { outLen := 2 * c.size + 1 }

/-- ECDSA_KEY_GENERATION as a command. -/
def execEcdsaKeyGeneration (slice : Fin 16) (s : State) : Host.Outcome State Fault Refusal :=
  crypto slice 0x17 (opEcdsaKeyGeneration slice) s

/-- ML_DSA_KEY_GENERATION (R402). -/
def opMlDsaKeyGeneration (slice : Fin 16) (z : Nat) (d : Desc) : OpM OpOut := do
  opNeed (decide (1 ≤ d.param) && decide (d.param ≤ 3)) 5
  let seed ← opRandom slice false 32
  let n := (dsaSizes d.param).1
  opWrite false z d.out (fit n (Config.mlDsaPublic d.param seed))
  makeToken slice z d.key2 (7 + d.param) (← freeUsage) seed
  pure { outLen := n }

/-- ML_DSA_KEY_GENERATION as a command. -/
def execMlDsaKeyGeneration (slice : Fin 16) (s : State) : Host.Outcome State Fault Refusal :=
  crypto slice 0x18 (opMlDsaKeyGeneration slice) s

/- PIN blocks. -/

/-- Hexadecimal digits of a byte string. -/
def nibbles (b : List Byte) : List Nat := b.flatMap (fun x => [x.toNat / 16, x.toNat % 16])

/-- The bytes of an even number of hexadecimal digits. -/
def ofNibbles : List Nat → List Byte
  | a :: b :: l => BitVec.ofNat 8 (a % 16 * 16 + b % 16) :: ofNibbles l
  | _ => []

/-- The plaintext PAN field of formats 0 and 3 (R409): the 12 rightmost digits but for the check digit. -/
def panShort (pan : List Nat) : List Byte :=
  let l := pan.take (pan.length - 1)
  ofNibbles ([0, 0, 0, 0] ++ l.drop (l.length - 12))

/-- The plaintext PAN field of format 4: the number of digits above 12, then the digits. -/
def panLong (pan : List Nat) : List Byte :=
  let l := (pan.length - 12) :: pan
  ofNibbles (l ++ List.replicate (32 - l.length) 0)

/-- A deciphered block in a format: its PIN field's digits. -/
def pinField (fmt : Nat) (key pan block : List Byte) (digits : List Nat) : List Nat :=
  if fmt = 4 then nibbles (aesDec key (xorBytes (aesDec key block) pan))
  else
    let b := tdea false key block
    nibbles (if fmt = 1 then b else xorBytes b (panShort digits))

/-- The checks of R410: the PIN, where the field passes. -/
def pinOf (fmt : Nat) (f : List Nat) : Option (List Nat) :=
  let n := f.getD 1 0
  let pin := (f.drop 2).take n
  let fill := (f.take 16).drop (2 + n)
  let fillOk : Bool := match fmt with
    | 0 => fill.all (· == 15)
    | 1 => true
    | 3 => fill.all (fun x => decide (10 ≤ x))
    | _ => fill.all (· == 10)
  if f.getD 0 16 = fmt ∧ 4 ≤ n ∧ n ≤ 12 ∧ (pin.all (fun x => decide (x < 10)) && fillOk) = true then some pin else none

/-- The enciphered block of a PIN in a format, with random bytes for its fill. -/
def pinBlock (fmt : Nat) (key : List Byte) (pan : List Nat) (pin : List Nat) (rnd : List Byte) : List Byte :=
  let head := [fmt, pin.length] ++ pin
  let fill := (List.range (16 - head.length)).map (fun i =>
    let x := (rnd.getD i 0).toNat
    match fmt with
    | 0 => 15
    | 1 => x % 16
    | 3 => 10 + x % 6
    | _ => 10)
  let b := ofNibbles (head ++ fill)
  match fmt with
  | 4 => aesEnc key (xorBytes (aesEnc key (b ++ (rnd.drop 16).take 8)) (panLong pan))
  | 1 => tdea true key b
  | _ => tdea true key (xorBytes b (panShort pan))

/-- PIN_BLOCK_TRANSLATION (R409, R410). -/
def opPinBlockTranslation (slice : Fin 16) (z : Nat) (d : Desc) : OpM OpOut := do
  let a := d.param % 16
  let b := d.param / 16
  let known := fun (f : Nat) => f == 0 || f == 1 || f == 3 || f == 4
  let size := fun (f : Nat) => if f = 4 then 16 else 8
  let kinds := fun (f : Nat) => if f = 4 then [1, 2] else [4]
  opNeed (known a && known b && d.len1 == size a) 5
  opNeed ((decide (12 ≤ d.len2) && decide (d.len2 ≤ 19)) || (a == 1 && b == 1 && d.len2 == 0)) 5
  let t1 ← useToken z d.key1 (kinds a) [6]
  let t2 ← useToken z d.key2 (kinds b) (if b = 4 then [7] else [7, 8])
  let rnd ← if b = 0 then pure [] else opRandom slice false 24
  let pan ← opRead false z d.aux d.len2
  opNeed (pan.all (fun x => decide (0x30 ≤ x.toNat) && decide (x.toNat ≤ 0x39))) 5
  let digits := pan.map (fun x => x.toNat % 16)
  let inp ← opRead false z d.inp d.len1
  match pinOf a (pinField a t1.mat (panLong digits) inp digits) with
  | none => opFail 6
  | some pin =>
    opWrite false z d.out (pinBlock b t2.mat digits pin rnd)
    pure { outLen := size b }

/-- PIN_BLOCK_TRANSLATION as a command. -/
def execPinBlockTranslation (slice : Fin 16) (s : State) : Host.Outcome State Fault Refusal :=
  crypto slice 0x20 (opPinBlockTranslation slice) s

/- Keys and random data. -/

/-- Length of the material of a generated key: that of its kind; an HMAC key's is left open within 32 to 64 bytes
(assumption 23). -/
def genSize (kind : Nat) : OpM Nat :=
  match kindSize kind with
  | some n => pure n
  | none => do
    let v ← modifyGet (fun s => s.draw 16)
    pure (32 + v.toNat % 33)

/-- GENERATE_KEY (R402, R407). -/
def opGenerateKey (slice : Fin 16) (z : Nat) (d : Desc) : OpM OpOut := do
  let usage := beAt d.iv 0 4
  opNeed (decide (1 ≤ d.param) && decide (d.param ≤ 12) && usageOk d.param usage) 5
  let n ← genSize d.param
  let raw ← opRandom slice false n
  let mat := if d.param = 6 then toBe 32 (1 + ofBe raw % (p256.n - 1))
    else if d.param = 7 then toBe 48 (1 + ofBe raw % (p384.n - 1)) else raw
  makeToken slice z d.key2 d.param usage mat
  pure {}

/-- GENERATE_KEY as a command. -/
def execGenerateKey (slice : Fin 16) (s : State) : Host.Outcome State Fault Refusal :=
  crypto slice 0x28 (opGenerateKey slice) s

/-- IMPORT_CLEAR_KEY (R402, R407): IMPORTED is set. -/
def opImportClearKey (slice : Fin 16) (z : Nat) (d : Desc) : OpM OpOut := do
  let usage := beAt d.iv 0 4
  opNeed (decide (1 ≤ d.param) && decide (d.param ≤ 12) && usageOk d.param usage) 5
  opNeed (match kindSize d.param with
    | some n => d.len1 == n
    | none => decide (32 ≤ d.len1) && decide (d.len1 ≤ 64)) 5
  let mat ← opRead false z d.inp d.len1
  makeToken slice z d.key2 d.param (512 + usage) mat
  pure {}

/-- IMPORT_CLEAR_KEY as a command. -/
def execImportClearKey (slice : Fin 16) (s : State) : Host.Outcome State Fault Refusal :=
  crypto slice 0x29 (opImportClearKey slice) s

/-- RE_WRAP (R402): the token under the current generation. -/
def opReWrap (slice : Fin 16) (z : Nat) (d : Desc) : OpM OpOut := do
  opNeed (d.param == 0) 5
  let t ← openToken z d.key1
  makeToken slice z d.key2 t.kind t.usage t.mat
  pure {}

/-- RE_WRAP as a command. -/
def execReWrap (slice : Fin 16) (s : State) : Host.Outcome State Fault Refusal :=
  crypto slice 0x2A (opReWrap slice) s

/-- RANDOM_BYTES (R402, R419). -/
def opRandomBytes (slice : Fin 16) (z : Nat) (d : Desc) : OpM OpOut := do
  opNeed (decide (d.param < 2) && decide (d.len1 ≤ 65536)) 5
  let b ← opRandom slice (d.param == 1) d.len1
  opNeed (decide (d.len1 ≤ d.outCap)) 9
  opWrite false z d.out b
  pure { outLen := d.len1 }

/-- RANDOM_BYTES as a command. -/
def execRandomBytes (slice : Fin 16) (s : State) : Host.Outcome State Fault Refusal :=
  crypto slice 0x30 (opRandomBytes slice) s

/- Compression. -/

/-- The whole output of a compressed stream after its pieces so far (R412). -/
def wrapped (w level : Nat) (cs : List (List Byte)) (final : Bool) : List Byte :=
  let all := cs.flatten
  let head := match w with
    | 0 => []
    | 1 => let v := 0x7800 + level * 64; toBe 2 (v + (31 - v % 31) % 31)
    | _ => toBe 10 0x1F8B08000000000000FF
  let body := (List.range cs.length).flatMap (fun i =>
    Config.deflate level (cs.take i) (cs.getD i []) (final && i + 1 == cs.length))
  let tail := match w with
    | 0 => []
    | 1 => toBe 4 (adler32 all)
    | _ => toLe 4 (crc32 all) ++ toLe 4 all.length
  head ++ body ++ (if final then tail else [])

/-- The inline result of a DFQ descriptor (R413). -/
def dfqInline (used written : Nat) (data : List Byte) : Quad :=
  BitVec.ofNat 128 (2 ^ 96 * used + 2 ^ 64 * written + 2 ^ 32 * crc32 data + adler32 data)

/-- The stream that a DFQ descriptor starts or continues (R411). -/
def startStream (z : Nat) (d : Desc) : OpM CtxRec := do
  let fresh : CtxRec := {
    num := 0, comp := true, zone := z, op := d.op, param := d.param, gen := 0, iv := [], aad := [], data := [], chunks := []
    sent := 0 }
  opNeed (decide (d.param < 16) && d.param % 4 != 3) 5
  opNeed (d.ctx != 0 || (d.first && d.final)) 5
  if d.first then pure fresh
  else
    let b ← opRead true z d.ctx 36864
    match findCtx (← get) true z d.op b with
    | some r => pure r
    | none => opFail 2

/-- The context after a DFQ descriptor. -/
def endStream (z : Nat) (d : Desc) (ended : Bool) (r : CtxRec) : OpM Unit :=
  if d.first && d.final then pure ()
  else writeCtx true z d.ctx (if ended then none else some r)

/-- How many input bytes a full output buffer leaves consumed: a free value from lo to hi (assumption 23). -/
def freeUsed (lo hi : Nat) : OpM Nat := do
  let v ← modifyGet (fun s => s.draw 32)
  pure (lo + v.toNat % (hi - lo + 1))

/-- COMPRESS (R412, R413). -/
def opCompress (z : Nat) (d : Desc) : OpM OpOut := do
  let r ← startStream z d
  let inp ← opRead true z d.inp d.len1
  let out := (wrapped (d.param % 4) (d.param / 4) (r.chunks ++ [inp]) d.final).drop r.sent
  if d.outCap < out.length then
    let used ← freeUsed 0 d.len1
    let cs := r.chunks ++ [inp.take used]
    opWrite true z d.out (out.take d.outCap)
    endStream z d false { r with chunks := cs, sent := r.sent + d.outCap }
    throw (OpEnd.fail 9 0 d.outCap (dfqInline used d.outCap cs.flatten))
  else
    opWrite true z d.out out
    let cs := r.chunks ++ [inp]
    endStream z d d.final { r with chunks := cs, sent := r.sent + out.length }
    pure { outLen := out.length, inl := dfqInline d.len1 out.length cs.flatten }

/-- COMPRESS as a command. -/
def execCompress (slice : Fin 16) (s : State) : Host.Outcome State Fault Refusal :=
  .next (runJob true slice 1 opCompress s)

/-- DECOMPRESS (R412, R413). -/
def opDecompress (z : Nat) (d : Desc) : OpM OpOut := do
  let r ← startStream z d
  let inp ← opRead true z d.inp d.len1
  let w := d.param % 4
  let (all, e) := unwrap w (r.data ++ inp)
  let out := all.drop r.sent
  if d.outCap < out.length then
    let lo := ((List.range (d.len1 + 1)).find? (fun m =>
      decide (r.sent + d.outCap ≤ (unwrap w (r.data ++ inp.take m)).1.length))).getD d.len1
    let used ← freeUsed lo d.len1
    opWrite true z d.out (out.take d.outCap)
    endStream z d false { r with data := r.data ++ inp.take used, sent := r.sent + d.outCap }
    throw (OpEnd.fail 9 0 d.outCap (dfqInline used d.outCap (all.take (r.sent + d.outCap))))
  else
    opWrite true z d.out out
    let res := fun (used : Nat) => dfqInline used out.length all
    match e with
    | .done used =>
      endStream z d true r
      pure { outLen := out.length, inl := res (used - r.data.length) }
    | .more =>
      if d.final then throw (OpEnd.fail 12 0 out.length (res d.len1))
      else
        endStream z d false { r with data := r.data ++ inp, sent := r.sent + out.length }
        pure { outLen := out.length, inl := res d.len1, more := true }
    | .bad => throw (OpEnd.fail 12 0 out.length (res d.len1))
    | .sum => throw (OpEnd.fail 13 0 out.length (res d.len1))
    | .unsupported => throw (OpEnd.fail 14 0 out.length (res d.len1))

/-- DECOMPRESS as a command. -/
def execDecompress (slice : Fin 16) (s : State) : Host.Outcome State Fault Refusal :=
  .next (runJob true slice 2 opDecompress s)

/- The units' own events. -/

/-- CHAIN_FAILURE_HOLD (R420): the time that the descriptors not run would have taken has passed. -/
def execChainFailureHold (slice : Fin 16) (s : State) : Host.Outcome State Fault Refusal :=
  .next (match (s.slice false slice).jobs.find? (fun j => j.held) with
    | none => s
    | some j => s.updSlice false slice (fun x => { x with jobs := x.jobs.map (fun i =>
        if i.chain = j.chain then { i with held := false } else i) }))

/-- Every DRBG of the module has to reseed before its next output. -/
def reseedAll (s : State) : State :=
  (List.range 16).foldl (fun (s : State) k => s.updSlice false k (fun x => { x with needSeed := true }))
    { s with crypto := { s.crypto with modSeed := true } }

/-- ENTROPY_HEALTH_FAIL (R419): the source stops and every DRBG with it; ENTROPY_FAIL. -/
def execEntropyHealthFail (s : State) : Host.Outcome State Fault Refusal :=
  .next (if !s.crypto.entropy ∨ !unitWorks s false then s
    else latch .crypto 10 0 0 2 { s with crypto := { s.crypto with entropy := false } })

/-- ENTROPY_RETEST (R419): the source resumes on a pass, and each DRBG reseeds before its next output; the memory
controllers leave their fallback (R311). -/
def execEntropyRetest (pass : Bool) (s : State) : Host.Outcome State Fault Refusal :=
  .next (if s.crypto.entropy ∨ !pass ∨ !unitWorks s false then s
    else reseedAll { s with crypto := { s.crypto with entropy := true }
                            mcs := s.mcs.map (fun (e : Nat × Mc) => (e.1, { e.2 with lfsrOn := false })) })

/-- DRBG_RESEED (R419): a slice's DRBG, or the module's (none), reseeds from a source that runs. -/
def execDrbgReseed (slice : Option (Fin 16)) (s : State) : Host.Outcome State Fault Refusal :=
  .next (if !s.crypto.entropy ∨ !unitWorks s false then s
    else match slice with
      | some k => s.updSlice false k (fun x => { x with drbgReq := 0, needSeed := false })
      | none => { s with crypto := { s.crypto with modSeed := false } })

/- Zone reset. -/

/-- What a stopped descriptor's buffers hold (R416): undefined, so free bytes in the output, the new token and the context. -/
def stoppedBuffers (comp : Bool) (j : Job) (s : State) : State :=
  let d := descOf j.desc
  let put := fun (zpa n : Nat) (s : State) =>
    if zpa = 0 ∨ n = 0 then s
    else (accWrite comp j.zone zpa ((List.range n).map (Config.freeByte s.free)) { s with free := s.free + 1 }).2
  match j.stage with
  | .ran _ _ n _ _ =>
    let s := put d.out (if n = 0 then 0 else d.outCap) s
    let s := if !comp && makesToken d.op then put d.key2 128 s else s
    put d.ctx (if d.ctx = 0 then 0 else ctxSize comp) s
  | _ => s

/-- ACCEL_QUIESCE (R416): the unit's slices drop the zone's descriptors, with no completion, and it acknowledges. -/
def execAccelQuiesce (z : Fin 16) (comp : Bool) (s : State) : Host.Outcome State Fault Refusal :=
  .next (orWait (fun s => if !(s.zone z).accTodo.contains comp then s
    else
      let s := (List.range 16).foldl (fun (s : State) k =>
        let mine := (s.slice comp k).jobs.filter (fun j => j.zone == z.val)
        let s := mine.foldl (fun s j => stoppedBuffers comp j s) s
        s.updSlice comp k (fun x => { x with jobs := x.jobs.filter (fun j => j.zone != z.val) })) s
      s.updZone z (fun x => { x with accTodo := x.accTodo.filter (· != comp) })) s)

end Sys2Proof.Machine
end

