-- ==== Sys2Proof/Machine/Decimal.lean ====
section
/-! DEFINITION. Decimal floating point in the DPD encoding and packed digit strings: the DEC group (R105 to R113). -/

namespace Sys2Proof.Machine

/-- decimal128. -/
def d128 : Fmt := { b := 10, p := 34, qmin := -6176, qmax := 6111 }

/-- decimal64. -/
def d64 : Fmt := { b := 10, p := 16, qmin := -398, qmax := 369 }

/-- The three digits of a declet, as IEEE 754-2019 decodes it (bits p q r s t u v w x y from bit 9 down). -/
def decletDec (v : Nat) : Nat :=
  let b := fun i => v / 2 ^ i % 2
  let hi := 4 * b 9 + 2 * b 8 + b 7
  let mid := 4 * b 6 + 2 * b 5 + b 4
  let lo := 4 * b 2 + 2 * b 1 + b 0
  let big := fun (x : Nat) => 8 + x
  if b 3 = 0 then 100 * hi + 10 * mid + lo
  else match 2 * b 2 + b 1 with
    | 0 => 100 * hi + 10 * mid + big (b 0)
    | 1 => 100 * hi + 10 * big (b 4) + (4 * b 6 + 2 * b 5 + b 0)
    | 2 => 100 * big (b 7) + 10 * mid + (4 * b 9 + 2 * b 8 + b 0)
    | _ =>
      match 2 * b 6 + b 5 with
      | 0 => 100 * big (b 7) + 10 * big (b 4) + (4 * b 9 + 2 * b 8 + b 0)
      | 1 => 100 * big (b 7) + 10 * (4 * b 9 + 2 * b 8 + b 4) + big (b 0)
      | 2 => 100 * hi + 10 * big (b 4) + big (b 0)
      | _ => 100 * big (b 7) + 10 * big (b 4) + big (b 0)

/-- The canonical declet of three digits, n below 1,000. -/
def decletEnc (n : Nat) : Nat :=
  let x := n / 100 % 10
  let y := n / 10 % 10
  let z := n % 10
  let lx := x % 2
  let ly := y % 2
  let lz := z % 2
  match decide (8 ≤ x), decide (8 ≤ y), decide (8 ≤ z) with
  | false, false, false => x * 128 + y * 16 + z
  | false, false, true => x * 128 + y * 16 + 8 + lz
  | false, true, false => x * 128 + z / 2 * 32 + ly * 16 + 10 + lz
  | true, false, false => z / 2 * 256 + lx * 128 + y * 16 + 12 + lz
  | true, true, false => z / 2 * 256 + lx * 128 + ly * 16 + 14 + lz
  | true, false, true => y / 2 * 256 + lx * 128 + 32 + ly * 16 + 14 + lz
  | false, true, true => x * 128 + 64 + ly * 16 + 14 + lz
  | true, true, true => lx * 128 + 96 + ly * 16 + 14 + lz

/-- Value of k declets. -/
def decletsDec : Nat → Nat → Nat
  | 0, _ => 0
  | k + 1, v => decletsDec k (v / 1024) * 1000 + decletDec (v % 1024)

/-- k declets of a value. -/
def decletsEnc : Nat → Nat → Nat
  | 0, _ => 0
  | k + 1, n => decletsEnc k (n / 1000) * 1024 + decletEnc (n % 1000)

/-- Datum of a decimal encoding with eb exponent-continuation bits and k declets (Table 4.7, R105, R107). -/
def decDec (f : Fmt) (eb k : Nat) (v : Nat) : Num :=
  let cb := 10 * k
  let s := decide (v / 2 ^ (cb + eb + 5) % 2 = 1)
  let comb := v / 2 ^ (cb + eb) % 32
  let ec := v / 2 ^ cb % 2 ^ eb
  let cont := v % 2 ^ cb
  if comb = 31 then
    let pay := decletsDec k cont
    .nan s (decide (ec / 2 ^ (eb - 1) = 1)) (if decletsEnc k pay = cont then pay else 0)
  else if comb = 30 then .inf s
  else
    let (eh, lead) := if comb / 8 = 3 then (comb / 2 % 4, 8 + comb % 2) else (comb / 8, comb % 8)
    .fin s (lead * 1000 ^ k + decletsDec k cont) ((eh * 2 ^ eb + ec : Nat) + f.qmin)

/-- Canonical encoding of a datum. -/
def decEnc (f : Fmt) (eb k : Nat) : Num → Nat
  | .nan s g p => s.toNat * 2 ^ (10 * k + eb + 5) + 31 * 2 ^ (10 * k + eb) + g.toNat * 2 ^ (10 * k + eb - 1) + decletsEnc k p
  | .inf s => s.toNat * 2 ^ (10 * k + eb + 5) + 30 * 2 ^ (10 * k + eb)
  | .fin s m q =>
    let e := (q - f.qmin).toNat
    let lead := m / 1000 ^ k
    let eh := e / 2 ^ eb
    let comb := if lead < 8 then eh * 8 + lead else 24 + eh * 2 + (lead - 8)
    s.toNat * 2 ^ (10 * k + eb + 5) + comb * 2 ^ (10 * k + eb) + e % 2 ^ eb * 2 ^ (10 * k) + decletsEnc k (m % 1000 ^ k)

/-- decimal128 datum in Fn. -/
def Arch.d128 (a : Arch) (n : BitVec 5) : Num := decDec Machine.d128 12 11 (a.rf n).toNat

/-- decimal64 datum in Fn. -/
def Arch.d64 (a : Arch) (n : BitVec 5) : Num := decDec Machine.d64 8 5 (a.rfd n).toNat

/-- Fd := a decimal128 datum. -/
def Arch.putD128 (a : Arch) (d : BitVec 5) (x : Num) : Arch := a.wf d (BitVec.ofNat 128 (decEnc Machine.d128 12 11 x))

/-- Fd := a decimal64 datum. -/
def Arch.putD64 (a : Arch) (d : BitVec 5) (x : Num) : Arch := a.wfd d (BitVec.ofNat 64 (decEnc Machine.d64 8 5 x))

/-- Exceptions into S.DS, or vector 0x0F (R95, R96). -/
def endDecimal (a : Arch) (e : Exn) (put : Arch → Arch) : Except Exc Arch :=
  match statusOf a.ds e with
  | .error d => .error { vec := 0x0F, detail := d }
  | .ok ds => .ok (put { a with ds := ds })

/-- A decimal128 operation with two sources. -/
def runDec (h : Hdr) (fn : Nat) (d a b : BitVec 5) (f : Nat → Num → Num → NumRes) (s : State) : State :=
  runTrap h (encT h 0x32 fn d a b false) decOk (fun r =>
    let (x, e) := f (rmOf r.ds) (r.d128 a) (r.d128 b)
    endDecimal r e (fun r => r.putD128 d x)) s

/-- A decimal64 operation with two sources. -/
def runDec64 (h : Hdr) (fn : Nat) (d a b : BitVec 5) (f : Nat → Num → Num → NumRes) (s : State) : State :=
  runTrap h (encT h 0x32 fn d a b false) decOk (fun r =>
    let (x, e) := f (rmOf r.ds) (r.d64 a) (r.d64 b)
    endDecimal r e (fun r => r.putD64 d x)) s

/-- DADD. -/
def execDadd (h : Hdr) (d a b : BitVec 5) (s : State) : Host.Outcome State Fault Refusal :=
  .next (runDec h 0x00 d a b (addNum d128) s)

/-- DSUB. -/
def execDsub (h : Hdr) (d a b : BitVec 5) (s : State) : Host.Outcome State Fault Refusal :=
  .next (runDec h 0x01 d a b (subNum d128) s)

/-- DMUL. -/
def execDmul (h : Hdr) (d a b : BitVec 5) (s : State) : Host.Outcome State Fault Refusal :=
  .next (runDec h 0x02 d a b (mulNum d128) s)

/-- DDIV. -/
def execDdiv (h : Hdr) (d a b : BitVec 5) (s : State) : Host.Outcome State Fault Refusal :=
  .next (runDec h 0x03 d a b (divNum d128) s)

/-- DQUA (R108). -/
def execDqua (h : Hdr) (d a b : BitVec 5) (s : State) : Host.Outcome State Fault Refusal :=
  .next (runDec h 0x04 d a b (quaNum d128) s)

/-- DCMP (R109). -/
def execDcmp (h : Hdr) (a b : BitVec 5) (s : State) : Host.Outcome State Fault Refusal :=
  .next (runTrap h (encT h 0x32 0x05 0 a b false) decOk (fun r =>
    let x := r.d128 a
    let y := r.d128 b
    endDecimal r { v := x.isSig || y.isSig } (fun r => r.putRel (relNum 10 x y))) s)

/-- BCD digits of n, k of them. -/
def bcdEnc : Nat → Nat → Nat
  | 0, _ => 0
  | k + 1, n => bcdEnc k (n / 10) * 16 + n % 10

/-- Value of k BCD digits; none where a nibble is no digit. -/
def bcdDec : Nat → Nat → Option Nat
  | 0, _ => some 0
  | k + 1, v =>
    match bcdDec k (v / 16) with
    | none => none
    | some n => if v % 16 < 10 then some (n * 10 + v % 16) else none

/-- Packed string of a rounded value, or the packed zero with invalid (R111, R112). -/
def packed (rm : Nat) (x : Num) (q : Int) : Quad × Exn :=
  let bad : Quad × Exn := (0xC, exInvalid)
  match x with
  | .fin s m q0 =>
    if q < -6176 ∨ 6111 < q then bad
    else
      let (c, x) := quantum 10 rm s m q0 q
      if 10 ^ 31 ≤ c then bad else (BitVec.ofNat 128 (bcdEnc 31 c * 16 + (if s then 0xD else 0xC)), { x := x })
  | _ => bad

/-- D2S (R112): b names a G register. -/
def execD2s (h : Hdr) (d a b : BitVec 5) (s : State) : Host.Outcome State Fault Refusal :=
  .next (runTrap h (encT h 0x32 0x06 d a b false) decOk (fun r =>
    let (v, e) := packed (rmOf r.ds) (r.d128 a) (r.rg b).toInt
    endDecimal r e (fun r => r.wf d v)) s)

/-- The datum of a packed string with exponent q, or the canonical NaN with invalid (R113). -/
def unpacked (v : Nat) (q : Int) : NumRes :=
  (bcdDec 31 (v / 16)).elim invalidNaN (fun n =>
    if v % 16 < 10 ∨ q < -6176 ∨ 6111 < q then invalidNaN
    else (.fin (v % 16 == 0xB || v % 16 == 0xD) n q, {}))

/-- S2D (R113): b names a G register. -/
def execS2d (h : Hdr) (d a b : BitVec 5) (s : State) : Host.Outcome State Fault Refusal :=
  .next (runTrap h (encT h 0x32 0x07 d a b false) decOk (fun r =>
    let (x, e) := unpacked (r.rf a).toNat (r.rg b).toInt
    endDecimal r e (fun r => r.putD128 d x)) s)

/-- A datum moved to another decimal format: payload through g (R105), any other value rounded, keeping its exponent
where the value fits (R110). -/
def convDec (f : Fmt) (rm : Nat) (g : Nat → Nat) : Num → NumRes
  | .nan s sig p => (.nan s false (g p), { v := sig })
  | .inf s => (.inf s, {})
  | .fin s m q => let (n, d) := fracOf 10 m q; roundTo f rm s n d q

/-- DCVT.128.64. -/
def execDcvt12864 (h : Hdr) (d a : BitVec 5) (s : State) : Host.Outcome State Fault Refusal :=
  .next (runTrap h (encT h 0x32 0x08 d a 0 false) decOk (fun r =>
    let (x, e) := convDec d64 (rmOf r.ds) (fun p => p % 10 ^ 15) (r.d128 a)
    endDecimal r e (fun r => r.putD64 d x)) s)

/-- DCVT.64.128. -/
def execDcvt64128 (h : Hdr) (d a : BitVec 5) (s : State) : Host.Outcome State Fault Refusal :=
  .next (runTrap h (encT h 0x32 0x09 d a 0 false) decOk (fun r =>
    let (x, e) := convDec d128 (rmOf r.ds) id (r.d64 a)
    endDecimal r e (fun r => r.putD128 d x)) s)

/-- DADD.64. -/
def execDadd64 (h : Hdr) (d a b : BitVec 5) (s : State) : Host.Outcome State Fault Refusal :=
  .next (runDec64 h 0x10 d a b (addNum d64) s)

/-- DSUB.64. -/
def execDsub64 (h : Hdr) (d a b : BitVec 5) (s : State) : Host.Outcome State Fault Refusal :=
  .next (runDec64 h 0x11 d a b (subNum d64) s)

/-- DMUL.64. -/
def execDmul64 (h : Hdr) (d a b : BitVec 5) (s : State) : Host.Outcome State Fault Refusal :=
  .next (runDec64 h 0x12 d a b (mulNum d64) s)

/-- DDIV.64. -/
def execDdiv64 (h : Hdr) (d a b : BitVec 5) (s : State) : Host.Outcome State Fault Refusal :=
  .next (runDec64 h 0x13 d a b (divNum d64) s)

/-- DQUA.64. -/
def execDqua64 (h : Hdr) (d a b : BitVec 5) (s : State) : Host.Outcome State Fault Refusal :=
  .next (runDec64 h 0x14 d a b (quaNum d64) s)

/-- DCMP.64. -/
def execDcmp64 (h : Hdr) (a b : BitVec 5) (s : State) : Host.Outcome State Fault Refusal :=
  .next (runTrap h (encT h 0x32 0x15 0 a b false) decOk (fun r =>
    let x := r.d64 a
    let y := r.d64 b
    endDecimal r { v := x.isSig || y.isSig } (fun r => r.putRel (relNum 10 x y))) s)

end Sys2Proof.Machine
end

