-- ==== Sys2Proof/Machine/Integer.lean ====
section
/-! DEFINITION. Integer instructions: the ALU and MULDIV groups, short immediates, SHI, MOVI and the long forms (chapters 3, 4). -/

namespace Sys2Proof.Machine

/-- ALU group with two sources. -/
def runAlu3 (h : Hdr) (fn : Nat) (o : T3) (f : Arch → Word → Word → Alu) (s : State) : State :=
  runReg h (encT3 h 0x00 fn o) decOk (fun a => a.putAlu o.d o.s (f a (a.rg o.a) (a.rg o.b))) s

/-- ALU group with one source. -/
def runAlu2 (h : Hdr) (fn : Nat) (o : T2) (f : Arch → Word → Alu) (s : State) : State :=
  runReg h (encT2 h 0x00 fn o) decOk (fun a => a.putAlu o.d o.s (f a (a.rg o.a))) s

/-- ADD (R87). -/
def execAdd (h : Hdr) (o : T3) (s : State) : Host.Outcome State Fault Refusal :=
  .next (runAlu3 h 0x00 o (fun _ x y => aluAdd x y false) s)

/-- SUB (R87). -/
def execSub (h : Hdr) (o : T3) (s : State) : Host.Outcome State Fault Refusal :=
  .next (runAlu3 h 0x01 o (fun _ x y => aluSub x y true) s)

/-- ADC (R89). -/
def execAdc (h : Hdr) (o : T3) (s : State) : Host.Outcome State Fault Refusal :=
  .next (runAlu3 h 0x02 o (fun a x y => aluAdd x y a.c) s)

/-- SBC (R89). -/
def execSbc (h : Hdr) (o : T3) (s : State) : Host.Outcome State Fault Refusal :=
  .next (runAlu3 h 0x03 o (fun a x y => aluSub x y a.c) s)

/-- AND. -/
def execAnd (h : Hdr) (o : T3) (s : State) : Host.Outcome State Fault Refusal :=
  .next (runAlu3 h 0x04 o (fun a x y => aluNZ a (x &&& y)) s)

/-- OR. -/
def execOr (h : Hdr) (o : T3) (s : State) : Host.Outcome State Fault Refusal :=
  .next (runAlu3 h 0x05 o (fun a x y => aluNZ a (x ||| y)) s)

/-- XOR. -/
def execXor (h : Hdr) (o : T3) (s : State) : Host.Outcome State Fault Refusal :=
  .next (runAlu3 h 0x06 o (fun a x y => aluNZ a (x ^^^ y)) s)

/-- ANDN: Ga and not Gb (DEDUCED, assumption 12). -/
def execAndn (h : Hdr) (o : T3) (s : State) : Host.Outcome State Fault Refusal :=
  .next (runAlu3 h 0x07 o (fun a x y => aluNZ a (x &&& ~~~y)) s)

/-- SHL (R86). -/
def execShl (h : Hdr) (o : T3) (s : State) : Host.Outcome State Fault Refusal :=
  .next (runAlu3 h 0x08 o (fun a x y => aluShift .shl a x (y.toNat % 64)) s)

/-- SHR. -/
def execShr (h : Hdr) (o : T3) (s : State) : Host.Outcome State Fault Refusal :=
  .next (runAlu3 h 0x09 o (fun a x y => aluShift .shr a x (y.toNat % 64)) s)

/-- SAR. -/
def execSar (h : Hdr) (o : T3) (s : State) : Host.Outcome State Fault Refusal :=
  .next (runAlu3 h 0x0A o (fun a x y => aluShift .sar a x (y.toNat % 64)) s)

/-- ROL. -/
def execRol (h : Hdr) (o : T3) (s : State) : Host.Outcome State Fault Refusal :=
  .next (runAlu3 h 0x0B o (fun a x y => aluShift .rol a x (y.toNat % 64)) s)

/-- ROR. -/
def execRor (h : Hdr) (o : T3) (s : State) : Host.Outcome State Fault Refusal :=
  .next (runAlu3 h 0x0C o (fun a x y => aluShift .ror a x (y.toNat % 64)) s)

/-- CMP: the flags of Ga − Gb (R88). -/
def execCmp (h : Hdr) (a b : BitVec 5) (sb : Bool) (s : State) : Host.Outcome State Fault Refusal :=
  .next (runReg h (encT h 0x00 0x0D 0 a b sb) decOk (fun r => r.putFlags (aluSub (r.rg a) (r.rg b) true)) s)

/-- CMPU (R88). -/
def execCmpu (h : Hdr) (a b : BitVec 5) (sb : Bool) (s : State) : Host.Outcome State Fault Refusal :=
  .next (runReg h (encT h 0x00 0x0E 0 a b sb) decOk (fun r => r.putFlags (aluCmpu (r.rg a) (r.rg b))) s)

/-- MOV. -/
def execMov (h : Hdr) (o : T2) (s : State) : Host.Outcome State Fault Refusal :=
  .next (runAlu2 h 0x0F o (fun a x => aluNZ a x) s)

/-- MIN, signed. -/
def execMin (h : Hdr) (o : T3) (s : State) : Host.Outcome State Fault Refusal :=
  .next (runAlu3 h 0x10 o (fun a x y => aluNZ a (if x.toInt ≤ y.toInt then x else y)) s)

/-- MAX, signed. -/
def execMax (h : Hdr) (o : T3) (s : State) : Host.Outcome State Fault Refusal :=
  .next (runAlu3 h 0x11 o (fun a x y => aluNZ a (if x.toInt ≤ y.toInt then y else x)) s)

/-- MINU, unsigned. -/
def execMinu (h : Hdr) (o : T3) (s : State) : Host.Outcome State Fault Refusal :=
  .next (runAlu3 h 0x12 o (fun a x y => aluNZ a (if x.toNat ≤ y.toNat then x else y)) s)

/-- MAXU, unsigned. -/
def execMaxu (h : Hdr) (o : T3) (s : State) : Host.Outcome State Fault Refusal :=
  .next (runAlu3 h 0x13 o (fun a x y => aluNZ a (if x.toNat ≤ y.toNat then y else x)) s)

/-- CLZ (64 for 0, R86). -/
def execClz (h : Hdr) (o : T2) (s : State) : Host.Outcome State Fault Refusal :=
  .next (runAlu2 h 0x14 o (fun a x => aluNZ a (BitVec.ofNat 64 (clzOf x))) s)

/-- CTZ (64 for 0, R86). -/
def execCtz (h : Hdr) (o : T2) (s : State) : Host.Outcome State Fault Refusal :=
  .next (runAlu2 h 0x15 o (fun a x => aluNZ a (BitVec.ofNat 64 (ctzOf x))) s)

/-- POPC. -/
def execPopc (h : Hdr) (o : T2) (s : State) : Host.Outcome State Fault Refusal :=
  .next (runAlu2 h 0x16 o (fun a x => aluNZ a (BitVec.ofNat 64 (popOf x))) s)

/-- BSWAP: the eight bytes in reverse order. -/
def execBswap (h : Hdr) (o : T2) (s : State) : Host.Outcome State Fault Refusal :=
  .next (runAlu2 h 0x17 o (fun a x => aluNZ a (BitVec.ofNat 64 (ofBe (toLe 8 x.toNat)))) s)

/-- SEXT.B. -/
def execSextB (h : Hdr) (o : T2) (s : State) : Host.Outcome State Fault Refusal :=
  .next (runAlu2 h 0x18 o (fun a x => aluNZ a ((x.setWidth 8).signExtend 64)) s)

/-- SEXT.H. -/
def execSextH (h : Hdr) (o : T2) (s : State) : Host.Outcome State Fault Refusal :=
  .next (runAlu2 h 0x19 o (fun a x => aluNZ a ((x.setWidth 16).signExtend 64)) s)

/-- SEXT.W. -/
def execSextW (h : Hdr) (o : T2) (s : State) : Host.Outcome State Fault Refusal :=
  .next (runAlu2 h 0x1A o (fun a x => aluNZ a ((x.setWidth 32).signExtend 64)) s)

/-- ZEXT.W. -/
def execZextW (h : Hdr) (o : T2) (s : State) : Host.Outcome State Fault Refusal :=
  .next (runAlu2 h 0x1B o (fun a x => aluNZ a ((x.setWidth 32).setWidth 64)) s)

/-- MUL (R90). -/
def execMul (h : Hdr) (o : T3) (s : State) : Host.Outcome State Fault Refusal :=
  .next (runReg h (encT3 h 0x01 0x00 o) decOk (fun a => a.putAlu o.d o.s (aluMul (a.rg o.a) (a.rg o.b))) s)

/-- A wide product: high half to Gd, low half to G(d+1); an odd d breaks a register constraint (R63, R90). -/
def runWide (h : Hdr) (fn : Nat) (o : T3) (f : Word → Word → Nat) (s : State) : State :=
  runReg h (encT3 h 0x01 fn o) (decIf (o.d.getLsbD 0) 4) (fun a =>
    let p := f (a.rg o.a) (a.rg o.b)
    let hi := BitVec.ofNat 64 (p / 2 ^ 64)
    let b := (a.wg o.d hi).wg (o.d + 1) (BitVec.ofNat 64 p)
    if o.s then b.setFlags hi.msb (p == 0) false false else b) s

/-- MULW. -/
def execMulw (h : Hdr) (o : T3) (s : State) : Host.Outcome State Fault Refusal := .next (runWide h 0x01 o wideS s)

/-- MULWU. -/
def execMulwu (h : Hdr) (o : T3) (s : State) : Host.Outcome State Fault Refusal := .next (runWide h 0x02 o wideU s)

/-- A division: a zero divisor takes vector 0x0D detail 1, with Gd and the flags unchanged (Table 4.2). -/
def runDiv (h : Hdr) (fn : Nat) (o : T3) (f : Word → Word → Alu) (s : State) : State :=
  runTrap h (encT3 h 0x01 fn o) decOk (fun a =>
    if a.rg o.b = 0 then .error { vec := 0x0D, detail := 1 }
    else .ok (a.putAlu o.d o.s (f (a.rg o.a) (a.rg o.b)))) s

/-- SDIV (R91). -/
def execSdiv (h : Hdr) (o : T3) (s : State) : Host.Outcome State Fault Refusal := .next (runDiv h 0x04 o aluSdiv s)

/-- UDIV (R91). -/
def execUdiv (h : Hdr) (o : T3) (s : State) : Host.Outcome State Fault Refusal := .next (runDiv h 0x05 o aluUdiv s)

/-- SREM (R91). -/
def execSrem (h : Hdr) (o : T3) (s : State) : Host.Outcome State Fault Refusal := .next (runDiv h 0x06 o aluSrem s)

/-- UREM (R91). -/
def execUrem (h : Hdr) (o : T3) (s : State) : Host.Outcome State Fault Refusal := .next (runDiv h 0x07 o aluUrem s)

/-- Format I with a result in Gd and no flags (R64). -/
def runImm (h : Hdr) (opc : Nat) (o : I12) (f : Word → Word) (s : State) : State :=
  runReg h (encI h opc o.d o.a o.imm) decOk (fun a => a.wg o.d (f (a.rg o.a))) s

/-- ADDI: sext(IMM12). -/
def execAddi (h : Hdr) (o : I12) (s : State) : Host.Outcome State Fault Refusal :=
  .next (runImm h 0x02 o (fun x => x + o.imm.signExtend 64) s)

/-- ANDI: zext(IMM12). -/
def execAndi (h : Hdr) (o : I12) (s : State) : Host.Outcome State Fault Refusal :=
  .next (runImm h 0x03 o (fun x => x &&& o.imm.setWidth 64) s)

/-- ORI: zext(IMM12). -/
def execOri (h : Hdr) (o : I12) (s : State) : Host.Outcome State Fault Refusal :=
  .next (runImm h 0x04 o (fun x => x ||| o.imm.setWidth 64) s)

/-- XORI: zext(IMM12). -/
def execXori (h : Hdr) (o : I12) (s : State) : Host.Outcome State Fault Refusal :=
  .next (runImm h 0x05 o (fun x => x ^^^ o.imm.setWidth 64) s)

/-- CMPI: Ga with sext(IMM12). -/
def execCmpi (h : Hdr) (a : BitVec 5) (imm : BitVec 12) (s : State) : Host.Outcome State Fault Refusal :=
  .next (runReg h (encI h 0x06 0 a imm) decOk (fun r => r.putFlags (aluSub (r.rg a) (imm.signExtend 64) true)) s)

/-- CMPUI: Ga with zext(IMM12), unsigned. -/
def execCmpui (h : Hdr) (a : BitVec 5) (imm : BitVec 12) (s : State) : Host.Outcome State Fault Refusal :=
  .next (runReg h (encI h 0x07 0 a imm) decOk (fun r => r.putFlags (aluCmpu (r.rg a) (imm.setWidth 64))) s)

/-- SHI: kind in IMM12[11:10], count in [5:0]; no flags, as SHI has no S bit (R66, R86). -/
def runShi (h : Hdr) (kind : Nat) (k : Shift) (d a : BitVec 5) (n : BitVec 6) (s : State) : State :=
  runReg h (encI h 0x08 d a (BitVec.ofNat 12 (1024 * kind + n.toNat))) decOk
    (fun r => r.wg d (aluShift k r (r.rg a) n.toNat).r) s

/-- SHI, kind SHL. -/
def execShiShl (h : Hdr) (d a : BitVec 5) (n : BitVec 6) (s : State) : Host.Outcome State Fault Refusal :=
  .next (runShi h 0 .shl d a n s)

/-- SHI, kind SHR. -/
def execShiShr (h : Hdr) (d a : BitVec 5) (n : BitVec 6) (s : State) : Host.Outcome State Fault Refusal :=
  .next (runShi h 1 .shr d a n s)

/-- SHI, kind SAR. -/
def execShiSar (h : Hdr) (d a : BitVec 5) (n : BitVec 6) (s : State) : Host.Outcome State Fault Refusal :=
  .next (runShi h 2 .sar d a n s)

/-- SHI, kind ROL. -/
def execShiRol (h : Hdr) (d a : BitVec 5) (n : BitVec 6) (s : State) : Host.Outcome State Fault Refusal :=
  .next (runShi h 3 .rol d a n s)

/-- MOVI: Gd := sext(IMM17). -/
def execMovi (h : Hdr) (d : BitVec 5) (imm : BitVec 17) (s : State) : Host.Outcome State Fault Refusal :=
  .next (runReg h (encJ h 0x09 d imm) decOk (fun a => a.wg d (imm.signExtend 64)) s)

/-- LI.L: Gd := sext(IMM32). -/
def execLiL (h : Hdr) (d : BitVec 5) (imm : BitVec 32) (s : State) : Host.Outcome State Fault Refusal :=
  .next (runLong h (encX h 0x00 d 0 imm) (fun a => a.wg d (imm.signExtend 64)) s)

/-- LI.H: Gd[63:32] := IMM32. -/
def execLiH (h : Hdr) (d : BitVec 5) (imm : BitVec 32) (s : State) : Host.Outcome State Fault Refusal :=
  .next (runLong h (encX h 0x01 d 0 imm) (fun a => a.wg d (imm ++ (a.rg d).setWidth 32)) s)

/-- ADDI.W. -/
def execAddiW (h : Hdr) (o : X32) (s : State) : Host.Outcome State Fault Refusal :=
  .next (runLong h (encX h 0x02 o.d o.a o.imm) (fun a => a.wg o.d (a.rg o.a + o.imm.signExtend 64)) s)

/-- ANDI.W. -/
def execAndiW (h : Hdr) (o : X32) (s : State) : Host.Outcome State Fault Refusal :=
  .next (runLong h (encX h 0x03 o.d o.a o.imm) (fun a => a.wg o.d (a.rg o.a &&& o.imm.setWidth 64)) s)

/-- ORI.W. -/
def execOriW (h : Hdr) (o : X32) (s : State) : Host.Outcome State Fault Refusal :=
  .next (runLong h (encX h 0x04 o.d o.a o.imm) (fun a => a.wg o.d (a.rg o.a ||| o.imm.setWidth 64)) s)

/-- XORI.W. -/
def execXoriW (h : Hdr) (o : X32) (s : State) : Host.Outcome State Fault Refusal :=
  .next (runLong h (encX h 0x05 o.d o.a o.imm) (fun a => a.wg o.d (a.rg o.a ^^^ o.imm.setWidth 64)) s)

/-- CMPI.W: Ga with sext(IMM32), signed. -/
def execCmpiW (h : Hdr) (a : BitVec 5) (imm : BitVec 32) (s : State) : Host.Outcome State Fault Refusal :=
  .next (runLong h (encX h 0x06 0 a imm) (fun r => r.putFlags (aluSub (r.rg a) (imm.signExtend 64) true)) s)

/-- CMPUI.W: Ga with zext(IMM32), unsigned. -/
def execCmpuiW (h : Hdr) (a : BitVec 5) (imm : BitVec 32) (s : State) : Host.Outcome State Fault Refusal :=
  .next (runLong h (encX h 0x07 0 a imm) (fun r => r.putFlags (aluCmpu (r.rg a) (imm.setWidth 64))) s)

end Sys2Proof.Machine
end

