-- ==== Sys2Proof/Machine/Ioa.lean ====
section
/-! DEFINITION. XSTART, CRQ and DFQ at the thread (R176, R263, R372, R397), their acknowledgement, and the CRA group. -/

namespace Sys2Proof.Machine

/-- Zone-physical address of a virtual address that has just been translated: of its translation, or itself with translation
off (R145, R147). -/
def zonePhys (va : Word) (p : Phys) : Nat :=
  match p.tr with
  | none => va.toNat
  | some e => e.zpa + va.toNat % 2 ^ e.bits

/-- XSTART, CRQ and DFQ (R372, R397): the descriptor's alignment and right, the replay latch, then the request, once every
earlier access of the thread is performed (R176) and its work has been compared (R140, R262). -/
def runIoa (h : Hdr) (fn align : Nat) (d a b : BitVec 5) (send : Nat → Word → State → Res) (s : State) : State :=
  runIns h (encT h 0x37 fn d a b false) false false (some (0x37 * 64 + fn)) true decOk (fun s =>
    let n := h.pu.val
    let va := (s.thr n h.th).arch.rg a
    if va.toNat % align ≠ 0 then .exc { vec := 8, detail := 4, eaddr := va } s
    else match translate n h.th va .load s with
      | (.error (v, c), s) => .exc { vec := v, detail := c, eaddr := va } s
      | (.ok p, s) =>
        latched n h.th .ioa (fun _ lo s => s.updThr n h.th (fun t => { t with arch := t.arch.wg d lo })) (fun s =>
          if anyStore (s.thr n h.th) (fun _ => true) then .wait s else send (zonePhys va p) va s) s) s

/-- The thread waits for the acknowledgement of its request. -/
def awaitIoa (n : Nat) (th : Bool) (d : BitVec 5) (r : Option Word) (s : State) : Res :=
  .wait (s.updThr n th (fun t => { t with wait := .ioa d r }))

/-- XSTART at the endpoint's home engine (R372, Table 13.18): its queue of 256 takes the request. An engine that is off or
fenced outside a sparing gap answers FENCED (R17, Table 3.10). -/
def sendXstart (h : Hdr) (d b : BitVec 5) (zpa : Nat) (va : Word) (s : State) : Res :=
  let n := h.pu.val
  let epN := ((s.thr n h.th).arch.rg b).toNat % 65536
  let z := (zoneNum s n).getD 0
  let pa := 0x2000000 + 256 * epN
  let rec_ := if s.poisoned (pa / 256) then List.replicate 256 0 else s.rd pa 256
  match epOf s rec_ with
  | none => awaitIoa n h.th d (some (accRefusal 1)) s
  | some ep =>
    let e := ep.home
    if (s.le e).gap ∨ 256 ≤ (s.le e).xq.length then awaitIoa n h.th d (some (accRefusal 7)) s
    else if s.lcs (.zone (Fin.ofNat 16 z)) ≠ .on then awaitIoa n h.th d (some (accRefusal 8)) s
    else match engineOf s e with
      | none => .exc { vec := 7, detail := 3, eaddr := va } s
      | some _ =>
        awaitIoa n h.th d none (s.updLe e (fun x => { x with
          xq := x.xq ++ [{ pu := n, th := h.th, zone := z, desc := zpa, ep := epN }] }))

/-- XSTART (R372). -/
def execXstart (h : Hdr) (d a b : BitVec 5) (s : State) : Host.Outcome State Fault Refusal :=
  .next (runIoa h 0x00 64 d a b (sendXstart h d b) s)

/-- CRQ or DFQ at its unit (R397). -/
def sendRequest (comp : Bool) (h : Hdr) (d : BitVec 5) (zpa : Nat) (_ : Word) (s : State) : Res :=
  let n := h.pu.val
  let z := (zoneNum s n).getD 0
  let r := request comp z (s.thr n h.th).arch.sid zpa s
  if unitHeld s comp then .wait s
  else if r.2.coh.blocked.isEmpty then awaitIoa n h.th d (some r.1) r.2 else .wait (standing s r.2)

/-- CRQ (R397). -/
def execCrq (h : Hdr) (d a : BitVec 5) (s : State) : Host.Outcome State Fault Refusal :=
  .next (runIoa h 0x01 128 d a 0 (sendRequest false h d) s)

/-- DFQ (R397). -/
def execDfq (h : Hdr) (d a : BitVec 5) (s : State) : Host.Outcome State Fault Refusal :=
  .next (runIoa h 0x02 128 d a 0 (sendRequest true h d) s)

/-- IOA_ACKNOWLEDGE (R397, R263): Gd receives the target's value, which the replay latch keeps; the instruction retires. -/
def execIoaAcknowledge (pu : Fin 48) (th : Bool) (s : State) : Host.Outcome State Fault Refusal :=
  let t := s.thr pu th
  .next (match t.wait with
    | .ioa d (some v) =>
      if !t.running ∨ (s.pu pu).retrying ∨ !clocked s pu then s
      else retire pu th (advance pu th 4 (addLatch pu th .ioa 0 v
        (s.updThr pu th (fun t => { t with arch := t.arch.wg d v, wait := .none }))))
    | _ => s)

/- The CRA group: registers alone, in a time that depends on no operand (R83). -/

/-- A CRA instruction. -/
def runCra (h : Hdr) (fn : Nat) (d a b : BitVec 5) (f : Arch → Arch) (s : State) : State :=
  runReg h (encT h 0x38 fn d a b false) decOk f s

/-- A function of 16 bytes on an F register. -/
def onBytes (f : List Byte → List Byte) (v : Quad) : Quad := BitVec.ofNat 128 (ofBe (f (toBe 16 v.toNat)))

/-- The carry-less product of two 64-bit numbers. -/
def clmul (x y : Word) : Quad :=
  (List.range 64).foldl (fun (r : Quad) i => if y.getLsbD i then r ^^^ (x.setWidth 128 <<< i) else r) 0

/-- AESE. -/
def execAese (h : Hdr) (d a b : BitVec 5) (s : State) : Host.Outcome State Fault Refusal :=
  .next (runCra h 0x00 d a b (fun r => r.wf d (Config.aese (r.rf d) (r.rf a) (r.rf b))) s)

/-- AESD. -/
def execAesd (h : Hdr) (d a b : BitVec 5) (s : State) : Host.Outcome State Fault Refusal :=
  .next (runCra h 0x01 d a b (fun r => r.wf d (Config.aesd (r.rf d) (r.rf a) (r.rf b))) s)

/-- AESMC: MixColumns of Fa. -/
def execAesmc (h : Hdr) (d a b : BitVec 5) (s : State) : Host.Outcome State Fault Refusal :=
  .next (runCra h 0x02 d a b (fun r => r.wf d (onBytes mixColumns (r.rf a))) s)

/-- AESIMC: inverse MixColumns of Fa. -/
def execAesimc (h : Hdr) (d a b : BitVec 5) (s : State) : Host.Outcome State Fault Refusal :=
  .next (runCra h 0x03 d a b (fun r => r.wf d (onBytes invMixColumns (r.rf a))) s)

/-- CLMUL: the low half. -/
def execClmul (h : Hdr) (d a b : BitVec 5) (s : State) : Host.Outcome State Fault Refusal :=
  .next (runCra h 0x04 d a b (fun r => r.wg d ((clmul (r.rg a) (r.rg b)).setWidth 64)) s)

/-- CLMULH: the high half. -/
def execClmulh (h : Hdr) (d a b : BitVec 5) (s : State) : Host.Outcome State Fault Refusal :=
  .next (runCra h 0x05 d a b (fun r => r.wg d ((clmul (r.rg a) (r.rg b) >>> 64).setWidth 64)) s)

/-- SHA256R. -/
def execSha256r (h : Hdr) (d a b : BitVec 5) (s : State) : Host.Outcome State Fault Refusal :=
  .next (runCra h 0x06 d a b (fun r => r.wf d (Config.sha256r (r.rf d) (r.rf a) (r.rf b))) s)

/-- SHA512R. -/
def execSha512r (h : Hdr) (d a b : BitVec 5) (s : State) : Host.Outcome State Fault Refusal :=
  .next (runCra h 0x07 d a b (fun r => r.wf d (Config.sha512r (r.rf d) (r.rf a) (r.rf b))) s)

end Sys2Proof.Machine
end

