-- ==== Sys2Proof/Machine/Sparing.lean ====
section
/-! DEFINITION. Lock-step comparison, retry, call-up of spares, proving runs and resynchronisation (chapter 10). -/

namespace Sys2Proof.Machine

/- Comparison and retry. -/

/-- Work of a thread that has compared good is released and checkpointed; the note of a retry arrives with the first
such work after it (R265, R271). -/
def goodCompare (t : Thread) : Thread :=
  let t := t.compared true
  if t.noteDue then { t.addNote 1 with noteDue := false } else t

/-- An open transaction of a thread that rolls back (R255, R268): it aborts with code 14, and where its TXOPEN itself has not
compared good, that is squashed too, and no transaction has begun. -/
def rollTx (n : Nat) (th : Bool) (s : State) : State :=
  match (s.thr n th).tx with
  | none => s
  | some _ => if bit 23 (s.thr n th).ckpt.sw then abortOwn n th 14 0 s else (dropTx n th s).updThr n th (fun t => { t with stamp := none })

/-- What an instruction that a rollback squashes waits for: nothing, but for the answer to a request that cannot be sent
again (R263). -/
def rollWait : Waiting → Waiting
  | .ioa d r => .ioa d r
  | .none => .none
  | .interrupt => .none
  | .sync _ => .none
  | .tlbi => .none

/-- A thread rolls back (R255, R263, R268): its transaction aborts, unreleased stores, shadow-queue entries and the
reservation are lost, registers, branch history and return stack are those of the checkpoint, and the latch will answer what
must not be sent again. -/
def rollBack (n : Nat) (th : Bool) (s : State) : State :=
  (cancelWaits n th (rollTx n th s)).updThr n th (fun t => { t with
    arch := t.ckpt, sb := t.sb.filter keepReleased, shadow := [], resv := none, wait := rollWait t.wait
    replay := t.latch ++ t.replay, latch := [], gh := t.ckGh, ras := t.ckRas, touch := [], fetchLatch := none })

/-- A mismatch (R268 to R270): a retry, recorded as LS_MISMATCH with INFO info (R271), or at the third in a window the
position is declared failed. -/
def mismatch (pu : Fin 48) (cause info : Nat) (lane : Option Nat) (s : State) : State :=
  let s := s.updPu pu (fun p => { p with
    mismatch := true, cause := BitVec.ofNat 3 cause
    firstLane := match lane with
      | some l => if p.laneSet then p.firstLane else BitVec.ofNat 8 l
      | none => p.firstLane
    laneSet := p.laneSet || lane.isSome
    windowCnt := p.windowCnt + 1, windowOpen := true })
  if 3 ≤ (s.pu pu).windowCnt then declareFailed pu 9 info true true s
  else
    let s := latch (.pu pu) 8 0 info 1 s
    (rollBack pu true (rollBack pu false s)).updPu pu (fun p => { p with retrying := true })

/-- An error that would be retried, while the PU is out of lock-step (R286). -/
def uncheckedError (pu : Fin 48) (s : State) : State := raiseZone (.pu pu) 17 0 0 (s.puZone pu) s

/-- The repair write of one microword (R128): the word at an address of one copy, counted in PAR_CNT. -/
def repairCopy (pu : Fin 48) (trail : Bool) (addr : BitVec 14) (w : BitVec 200) (s : State) : State :=
  s.updPu pu (fun p => repairWord trail addr.toNat w { p with parCnt := satAdd 255 p.parCnt 1 })

/-- A parity error of the control store in lock-step (R131): one copy's word is rewritten from the other during the rollback;
in both copies it ends the position. -/
def storeParity (pu : Fin 48) (addr : BitVec 14) (trail both : Bool) (s : State) : State :=
  if both then declareFailed pu 11 0 true true (s.updPu pu (fun p => { p with mismatch := true, cause := 2 }))
  else
    let s := mismatch pu 2 0 none (latch (.pu pu) 10 0 0 1 s)
    let p := s.pu pu
    if p.retrying then repairCopy pu trail addr (uwAt (if trail then p.cs else p.csB) addr.toNat) s else s

/-- An uncorrectable word in one copy's checkpoint or replay-latch array; the other copy answers until it has one too
(R263, R267): a checkpoint error, also while the PU retries. -/
def arrayWord (pu : Fin 48) (th trail latchArray : Bool) (s : State) : State :=
  let mark := fun (b : Bool × Bool) => if trail then (b.1, true) else (true, b.2)
  let s := s.updThr pu th (fun t => if latchArray then { t with latBad := mark t.latBad } else { t with ckBad := mark t.ckBad })
  let t := s.thr pu th
  if (if latchArray then t.latBad else t.ckBad) = (true, true) then
    declareFailed pu 9 0 true true (s.updPu pu (fun p => { p with mismatch := true, cause := 3 }))
  else s

/-- Does a position run its two copies: it is ON, or under a proving run? -/
def copiesRun (s : State) (pu : Fin 48) : Bool :=
  s.lcs (.pu pu) == .on || (s.lcs (.pu pu) == .starting && s.spc.proving.any (fun p => !p.ce && p.n == pu.val))

/-- COMPARE_RETIRE (R264, R265, R131, R267, R286): what the comparator finds in a retire cycle. Out of lock-step a lane stands
for an error of the leading copy that would have made that lane differ (DEDUCED, assumption 83). -/
def execCompareRetire (pu : Fin 48) (c : Compare) (s : State) : Host.Outcome State Fault Refusal :=
  .next (let p := s.pu pu
    if !copiesRun s pu then s
    else if p.unchecked then
      match c with
      | .good => s
      | .lane _ => after (uncheckedError pu s)
      | .csParity addr trail both =>
        if trail && !both then s
        else latch (.pu pu) 10 0 0 1 (repairCopy pu false addr (uwAt s.mgmt.csWords addr.toNat) s)
      | .checkpoint _ _ => s
      | .latch _ _ => s
    else match c with
      | .good => if p.retrying then s else s.updPu pu (fun p => { p with t0 := goodCompare p.t0, t1 := goodCompare p.t1 })
      | .lane l => if p.retrying then s else after (mismatch pu 1 l (some l.val) s)
      | .csParity addr trail both => if p.retrying then s else after (storeParity pu addr trail both s)
      | .checkpoint th trail => after (arrayWord pu th trail false s)
      | .latch th trail => after (arrayWord pu th trail true s))

/-- RETRY_RESTART (R268 step 5, R271). -/
def execRetryRestart (pu : Fin 48) (s : State) : Host.Outcome State Fault Refusal :=
  .next (if (s.pu pu).retrying then
      ({ s with encke := { s.encke with retries := tupd 0 s.encke.retries pu (· + 1) } } : State).updPu pu (fun p => { p with
        retrying := false, retryCnt := satAdd 255 p.retryCnt 1
        t0 := { p.t0 with noteDue := true }, t1 := { p.t1 with noteDue := true } })
    else s)

/-- RETRY_TIMEOUT (R270): a restart that has not occurred within 400 cycles. -/
def execRetryTimeout (pu : Fin 48) (s : State) : Host.Outcome State Fault Refusal :=
  .next (if (s.pu pu).retrying then after (declareFailed pu 9 0 true true s) else s)

/-- RETRY_WINDOW_CLOSE (R269). -/
def execRetryWindowClose (pu : Fin 48) (s : State) : Host.Outcome State Fault Refusal :=
  .next (s.updPu pu (fun p => if p.windowOpen then { p with windowOpen := false, windowCnt := 0 } else p))

/- Call-up. -/

/-- A result of a non-repeatable request that returned before the stop enters the state buffer's latch (Table 10.3
step 2); none: it is missing. -/
def latchReturned (t : Thread) (missing : Bool) (l : List LatchEntry) : Option (List LatchEntry) :=
  match t.wait with
  | .ioa _ none => none
  | .ioa _ (some v) => if missing then none else some (l ++ [{ kind := .ioa, pc := t.arch.pc, hi := 0, lo := v }])
  | _ => if missing then none else some l

/-- The saved state of position n with f applied, waiting or current. -/
def updCallUp (n : Nat) (f : CallUp → CallUp) (s : State) : State :=
  let g := fun (c : CallUp) => if c.failed = n then f c else c
  { s with spc := { s.spc with current := s.spc.current.map g, queued := s.spc.queued.map g } }

/-- CALLUP_DRAIN_DEADLINE (Table 10.3 step 3, R277): at 40 µs the longest-draining failed position is fenced. What is not
written is lost, with class C3, and a thread whose results are missing is lost. -/
def execCallupDrainDeadline (missing0 missing1 : Bool) (s : State) : Host.Outcome State Fault Refusal :=
  .next (match s.spc.drains with
    | [] => s
    | (n, z) :: rest =>
      let p := s.pu n
      let s := { s with spc := { s.spc with drains := rest } }
      let l0 := latchReturned p.t0 missing0 p.t0.latch
      let l1 := latchReturned p.t1 missing1 p.t1.latch
      let s := updCallUp n (fun c => { c with
        drained := true, latch0 := l0.getD [] ++ p.t0.replay, latch1 := l1.getD [] ++ p.t1.replay
        run0 := c.run0 && l0.isSome, run1 := c.run1 && l1.isSome }) s
      let left := (p.t0.sb ++ p.t1.sb).any (fun i => match i with
        | .store _ => true
        | .marker => false)
      let dirty := !(dirtyLines s n).isEmpty
      let s := (losePu n s).updIsland (coreIsl n) (fun x => { x with offFence := true })
      let s := s.updPu n (fun p => { p with t0 := { p.t0 with sb := [] }, t1 := { p.t1 with sb := [] } })
      let s := if left || dirty then raiseZone (.pu (Fin.ofNat 48 n)) 18 0 0 (z.map (Fin.ofNat 16)) s else s
      let s := if l0.isNone || l1.isNone then
          threadLost n z l0.isNone l1.isNone { s with spc := { s.spc with result := 3 } }
        else s
      after (settled s))

/-- PRESENCE_CLEAR (R274 step 3): a failed position has no copy in any home, and no pin. -/
def execPresenceClear (pu : Fin 48) (s : State) : Host.Outcome State Fault Refusal :=
  .next (if s.lcs (.pu pu) = .fenced && !s.spc.drains.any (fun d => d.1 == pu.val) then settled (losePu pu s) else s)

/-- Is the spare at this step of its call-up, the failed position's own work being done? -/
def atStep (s : State) (k : Nat) : Bool :=
  s.spc.step == k && (match s.spc.current with
    | some c => !s.spc.drains.any (fun d => d.1 == c.failed)
    | none => false)

/-- The oldest proving run of a PU position that has reached a stage (R281). -/
def provingAt (s : State) (k : Nat) : Option Nat :=
  (s.spc.proving.find? (fun p => !p.ce && p.stage == k)).map (fun p => p.n)

/-- A proving run of a PU position reaches a stage. -/
def provingTo (n k : Nat) (s : State) : State :=
  { s with spc := { s.spc with proving := s.spc.proving.map (fun (p : Proving) =>
      if !p.ce && p.n == n then { p with stage := k } else p) } }

/-- A position takes no role until it is repaired: it leaves the good and the spare set and joins the failed set (R270,
R284). -/
def joinFailed (n : Nat) (s : State) : State :=
  let b := BitVec.twoPow 48 n
  { s with spc := { s.spc with
      goodPu := s.spc.goodPu &&& ~~~b, failedSet := s.spc.failedSet ||| b, spareSet := s.spc.spareSet &&& ~~~b } }

/-- Result of an injection test (R266, R272). -/
def injected (n failLanes : Nat) (s : State) : State :=
  s.updPu n (fun p => { p with injFail := Nat.min 255 failLanes, injPass := decide (failLanes = 0) })

/-- A position under a proving run fails its injection test: FENCED, and in the failed set (R270, R272). -/
def provingInjFails (n : Nat) (s : State) : State := joinFailed n (faultFn (.pu (Fin.ofNat 48 n)) 14 0 0 3 s)

/-- CALLUP_INJECTION_TEST_COMPLETE (R272, R276): of the spare of a call-up at step 4, else of the oldest proving run that
has not had its test (assumption 83). -/
def execCallupInjectionTestComplete (failLanes : Nat) (s : State) : Host.Outcome State Fault Refusal :=
  .next (if atStep s 4 then
      let n := s.spc.spare
      let s := injected n failLanes s
      if failLanes = 0 then { s with spc := { s.spc with step := 5 } }
      else after (spareFails 3 (latch (.pu (Fin.ofNat 48 n)) 14 0 0 2 s))
    else match provingAt s 0 with
      | none => s
      | some n =>
        let s := injected n failLanes s
        if failLanes = 0 then provingTo n 1 s else after (provingInjFails n s))

/-- Both copies of a position hold the verified image, word for word (R128, R130, R132). -/
def loadStore (n : Nat) (s : State) : State :=
  s.updPu n (fun p => { p with
    imageId := s.mgmt.imgId, imageVer := s.mgmt.imgVer, slotB := s.mgmt.imgSlotB, verified := true, loaded := true
    cs := s.mgmt.csWords, csB := s.mgmt.csWords })

/-- CONTROL_STORE_LOAD_COMPLETE (R128, R130, R276, R281): step 5 of a call-up, else the load of the oldest proving run that
has passed its injection test (assumption 83). -/
def execControlStoreLoadComplete (ok : Bool) (s : State) : Host.Outcome State Fault Refusal :=
  .next (if atStep s 5 then
      if ok && s.mgmt.imgHeld then
        let s := loadStore s.spc.spare s
        { s with spc := { s.spc with step := 6 } }
      else after (spareFails 3 (latch (.pu (Fin.ofNat 48 s.spc.spare)) 2 0 0 2 s))
    else match provingAt s 1 with
      | none => s
      | some n =>
        if ok && s.mgmt.imgHeld then provingTo n 2 (loadStore n s)
        else after (joinFailed n (faultFn (.pu (Fin.ofNat 48 n)) 2 0 0 3 s)))

/-- The diagnostic block for code 15 is written by the spare, for its thread th (R11, R249, R256). -/
def spareDiag (n : Nat) (th : Bool) (x : Option Tx) (s : State) : State :=
  match x with
  | none => s
  | some x =>
    if x.constrained || !bit 0 x.saved.txd then s
    else match diagAddr s n th x.saved.txd with
      | .invalid s => latch (.pu (Fin.ofNat 48 n)) 13 0 0 1 s
      | .refused s => s
      | .at pa =>
        let s := conflicts (pa / 256) true none (requesterId (s.puAcc n th) 1) (some (n, th)) s
        diagStore n th pa (diagBytes x 15 false none 0 0 none s.tb.tod) (endReservations (pa / 256) none s)

/-- A thread of the spare, as the state buffer gives it, with a note of detail 2 (R274 step 8); a constrained transaction
that restarts keeps its stamp (R253). -/
def spareThread (a : Option Arch) (l : List LatchEntry) (run : Bool) (x : Option Tx) : Thread :=
  match a with
  | some a =>
    ({ arch := a, ckpt := a, running := run, replay := l
       stamp := x.bind (fun (x : Tx) => if x.constrained then some x.stamp else none) } : Thread).addNote 2
  | none => {}

/-- The spare takes the failed position's place (R274 steps 7 and 8, R275, R427). -/
def resumeSpare (c : CallUp) (n : Nat) (s : State) : State :=
  let f := c.failed
  let fp := s.pu f
  let held0 := fp.t0.held ++ fp.t0.pend.filterMap (fun e => e.2.map (fun p => (e.1, p)))
  let held1 := fp.t1.held ++ fp.t1.pend.filterMap (fun e => e.2.map (fun p => (e.1, p)))
  let s := s.updPu f (fun p => { p with
    t0 := { p.t0 with held := [], pend := [] }, t1 := { p.t1 with held := [], pend := [] } })
  let s := moveRow f n s
  let s := match c.zone with
    | none => s
    | some z => s.updZone z (fun x => { x with
        pus := (x.pus &&& ~~~(BitVec.twoPow 48 f)) ||| BitVec.twoPow 48 n
        tmap := x.tmap.map (fun (e : MapEntry) => if e.pu = f then { e with pu := n } else e) })
  let s := s.updPu n (fun p => { p with
    t0w := fp.t0w, t1w := fp.t1w, t1en := fp.t1en, t1run := fp.t1run
    t0 := spareThread c.arch0 c.latch0 c.run0 c.txCode0, t1 := spareThread c.arch1 c.latch1 c.run1 c.txCode1 })
  let s := spareDiag n true c.txCode1 (spareDiag n false c.txCode0 s)
  let s := { s with spc := { s.spc with
    spareSet := s.spc.spareSet &&& ~~~(BitVec.twoPow 48 n), current := none, step := 0, result := 0 } }
  let s := lcGo (.pu (Fin.ofNat 48 n)) .on 1 s
  let s := match c.zone with
    | none => s
    | some z =>
      let give := fun (th : Bool) (l : List (Nat × BitVec 4)) (s : State) =>
        l.foldl (fun (s : State) (e : Nat × BitVec 4) => pendIn z n th e.1 e.2 s) s
      give true held1 (give false held0 s)
  gapWait c.since { s with encke := { s.encke with acc := { s.encke.acc with puCalls := s.encke.acc.puCalls + 1 } } }

/-- CALLUP_STATE_LOAD_COMPLETE (Table 10.3 steps 6 to 8). -/
def execCallupStateLoadComplete (ok : Bool) (s : State) : Host.Outcome State Fault Refusal :=
  .next (match s.spc.current with
    | none => s
    | some c =>
      if !atStep s 6 then s
      else if ok then after (settleSpc 64 (resumeSpare c s.spc.spare s))
      else after (spareFails 3 (latch (.pu (Fin.ofNat 48 s.spc.spare)) 2 0 0 2 s)))

/-- CE_WATCHDOG_EXPIRY (R287). -/
def execCeWatchdogExpiry (ce : Fin 36) (s : State) : Host.Outcome State Fault Refusal :=
  .next (match s.lcs (.ce ce) with
    | .off => s
    | .fenced => s
    | _ => after (faultFn (.ce ce) 8 0 0 3 s))

/-- A channel engine that starts finds no node ID or no firmware and fails (R344, R350); else it enters ON. A spare that
was called up rebuilds its partition and ends the gap (R288, R366). -/
def ceStarted (n : Fin 36) (s : State) : State :=
  let id := (s.ce n).nodeId
  if !s.mgmt.ceFwHeld then faultFn (.ce n) 2 0 0 3 s
  else if id = 0 ∨ id = 0xFFFF then faultFn (.ce n) 11 0 0 3 s
  else
    let s := lcGo (.ce n) .on 1 s
    if s.spc.ceCalls.any (fun c => c.2 == n.val) then
      let e := (s.ce n).le.toNat
      let s := { s with spc := { s.spc with ceCalls := s.spc.ceCalls.filter (fun c => c.2 != n.val), unit := true, result := 0 } }
      let s := { s with encke := { s.encke with acc := { s.encke.acc with ceCalls := s.encke.acc.ceCalls + 1 } } }
      let s := (gapWait (s.le e).gapAt s).updLe e (fun x => { x with gap := false })
      let s := (leLinks e).foldl (fun s i => s.updLink i (fun k => { k with idleOnly := false })) s
      if s.chan.applied then rebuildLe false n e s else s
    else s

/- Proving runs. -/

/-- A proving run of a PU position starts (R281); false: the position does not qualify. -/
def provePu (n : Fin 48) (s : State) : Bool × State :=
  let taken := s.lcs (.pu n) != .off || (List.range 16).any (fun z => (s.zone z).pus.getLsbD n) ||
    (s.spc.current.isSome && s.spc.spare == n.val) || s.spc.proving.any (fun p => !p.ce && p.n == n.val)
  if taken then (false, s)
  else
    let s := (lcGo (.pu n) .starting 6 s).updPu n powerUpPu
    (true, { s with spc := { s.spc with proving := s.spc.proving ++ [{ ce := false, n := n, stage := 0 }] } })

/-- A proving run of a channel engine starts (R281). -/
def proveCe (n : Fin 36) (s : State) : Bool × State :=
  let taken := s.lcs (.ce n) != .off || (s.ce n).le != 0x3F || s.spc.ceCalls.any (fun c => c.2 == n.val) ||
    s.spc.proving.any (fun p => p.ce && p.n == n.val)
  if taken then (false, s)
  else
    let s := lcGo (.ce n) .starting 6 s
    (true, { s with spc := { s.spc with proving := s.spc.proving ++ [{ ce := true, n := n, stage := 0 }] } })

/-- A unit whose run has ended returns from STARTING to OFF. -/
def provingOff (f : Fn) (s : State) : State := lcGo f .off 2 (lcGo f .stopping 6 s)

/-- PROVING_RUN_COMPLETE (R281 to R283): the good bit follows the result; a repaired unit that passes is a cold spare. A
unit that has left STARTING meanwhile ends its run with no result. -/
def execProvingRunComplete (ce : Bool) (n : Nat) (failLanes : Nat) (pass : Bool) (s : State) : Host.Outcome State Fault Refusal :=
  .next (if !s.spc.proving.any (fun p => p.ce == ce && p.n == n) then s
    else
      let s := { s with spc := { s.spc with proving := s.spc.proving.filter (fun p => p.ce != ce || p.n != n) } }
      if ce then
        let f : Fn := .ce (Fin.ofNat 36 n)
        let b := BitVec.twoPow 36 n
        let was := s.lcs f
        let s := if was = .starting then provingOff f s else s
        after (if was ≠ .starting then s
          else if pass then
            { s with spc := { s.spc with goodCe := s.spc.goodCe ||| b, failedCe := s.spc.failedCe &&& ~~~b } }
          else latch (.ce (Fin.ofNat 36 n)) 2 0 0 2 { s with spc := { s.spc with goodCe := s.spc.goodCe &&& ~~~b } })
      else
        let k : Fin 48 := Fin.ofNat 48 n
        let b := BitVec.twoPow 48 n
        let bad := fun (s : State) => { s with spc := { s.spc with goodPu := s.spc.goodPu &&& ~~~b } }
        after (if s.lcs (.pu k) ≠ .starting then s
          else if failLanes ≠ 0 then provingInjFails n (injected n failLanes s)
          else
            let s := provingOff (.pu k) (loadStore n (injected n 0 s))
            if pass then
              let wasFailed := s.spc.failedSet.getLsbD n
              let s := s.updPu n (fun p => { p with failed := false })
              { s with spc := { s.spc with
                goodPu := s.spc.goodPu ||| b, failedSet := s.spc.failedSet &&& ~~~b
                spareSet := if wasFailed then s.spc.spareSet ||| b else s.spc.spareSet } }
            else bad (latch (.pu k) 15 0 0 2 s)))

/-- STANDBY_PROVE (R291, R283): the standby's run ends; a failure is recorded and sets the condition of Table 2.4. A
processor whose watchdog had expired is a standby again once it is unfenced and has passed. -/
def execStandbyProve (pass : Bool) (s : State) : Host.Outcome State Fault Refusal :=
  .next (let up := fun (n : Fin 2) (w : Wdog) => { w with expired := w.expired && (!pass || islandFenced s (.mgmt n)) }
    let m := s.mgmt
    let s := { s with mgmt := { m with
      standbyBad := !pass, standbyRun := false
      wdog0 := if m.active then up 0 m.wdog0 else m.wdog0, wdog1 := if m.active then m.wdog1 else up 1 m.wdog1 } }
    checkDegraded (if pass then s else latch .mgt 13 (!s.mgmt.active).toNat 0 2 s))

/- Debug and resynchronisation. -/

/-- Does a constrained transaction of a thread hold events back (R253): open, or about to restart? -/
def holdsEvents (t : Thread) : Bool :=
  t.stamp.isSome || (match t.tx with | some x => x.constrained | none => false)

/-- An open transaction of a thread aborts with code 3 before a debug halt (Table 9.4). -/
def haltTx (n : Nat) (th : Bool) (s : State) : State := if (s.thr n th).tx.isSome then abortOwn n th 3 0 s else s

/-- DEBUG_ATTACH (R53, R247, R286): in M5 the debug port takes a PU out of lock-step, and S.SW.LSB is set in both threads. The
halt that this takes aborts an open transaction with code 3; while a constrained one holds events back it is held, and the
command comes again (assumption 83). -/
def execDebugAttach (pu : Fin 48) (s : State) : Host.Outcome State Fault Refusal :=
  .next (if !s.inMode [.service] || !s.md.dbgPort || s.md.leaving.isSome || s.lcs (.pu pu) ≠ .on || (s.pu pu).retrying ||
      holdsEvents (s.thr pu false) || holdsEvents (s.thr pu true) then s
    else
      let f := fun (t : Thread) => ({ t with arch := { t.arch with sw := putBit 22 true t.arch.sw } } : Thread).compared true
      let s := (haltTx pu true (haltTx pu false s)).updPu pu (fun p => { p with
        unchecked := true, uncheckedAt := if p.unchecked then p.uncheckedAt else s.tb.tod, t0 := f p.t0, t1 := f p.t1 })
      { s with md := { s.md with unchecked := s.md.unchecked ||| BitVec.twoPow 48 pu } })

/-- A thread of a PU that is resynchronised (R285 steps 2 and 5): both checkpoint arrays hold the leading copy's state, and
the predictor's are as after power-up. -/
def resync (t : Thread) : Thread :=
  { t with
    ckpt := t.arch, latch := [], ckBad := (false, false), latBad := (false, false), gh := 0, ras := [], ckGh := 0, ckRas := [] }

/-- RESYNC_COMPLETE (R285, R54): with both store buffers drained, the trailing control store is loaded again and lock-step
resumes from the leading copy's state; a PU that fails its injection test is handled as failed. -/
def execResyncComplete (pu : Fin 48) (failLanes : Nat) (s : State) : Host.Outcome State Fault Refusal :=
  .next (let p := s.pu pu
    if !p.unchecked || s.md.leaving.isNone || !(p.t0.sb ++ p.t1.sb).isEmpty then s
    else
      let s := { lockstepWait p.uncheckedAt s with md := { s.md with unchecked := s.md.unchecked &&& ~~~(BitVec.twoPow 48 pu) } }
      let s := s.updPu pu (fun p => { p with
        unchecked := false, l1d := [], l1i := [], addrTab := [], histTab := [], chooser := [], targets := []
        csB := s.mgmt.csWords, t0 := resync p.t0, t1 := resync p.t1 })
      let s := injected pu failLanes s
      let s := if failLanes = 0 then s else declareFailed pu 14 0 true true s
      takeRequest (after (finishService s)))

end Sys2Proof.Machine
end

