-- ==== Sys2Proof/Machine/LcRows.lean ====
section
/-! DEFINITION. The ends of STARTING and STOPPING work, and their limits (R41, R44, Table 2.8). -/

namespace Sys2Proof.Machine

/-- STARTING of a PU position ends (R272, Table 2.8): failing lanes of its injection test fence it; else its control store is
loaded; without an image that verifies it fails (R128). The spare of a call-up and a position in a proving run have steps of their own. -/
def puStarted (n : Fin 48) (fail : Nat) (s : State) : State :=
  if (s.spc.current.isSome && s.spc.spare == n.val) || s.spc.proving.any (fun p => !p.ce && p.n == n.val) then s
  else if fail ≠ 0 then faultFn (.pu n) 14 0 0 3 (injected n fail s)
  else if !s.mgmt.imgHeld then faultFn (.pu n) 2 0 0 3 s
  else lcGo (.pu n) .on 1 (loadStore n (injected n 0 s))

/-- Source of a failed start-up self-test: KAT_FAIL of a slice, else SELFTEST (Table 17.8). -/
def selfTestSrc (f : Fn) : Nat :=
  match f with
  | .cslice _ => 8
  | .dslice _ => 8
  | _ => 2

/-- A function that has passed its tests finishes its STARTING work (R41, R429). -/
def startPassed (f : Fn) (s : State) : State :=
  match f with
  | .zone z => zoneOn z s
  | .pu n => puStarted n 0 s
  | .ce n => if s.spc.proving.any (fun p => p.ce && p.n == n.val) then s else ceStarted n s
  | .link n =>
    if bit 4 (s.link n).used || !linkClock s n then s
    else lcGo (.link n) .on 1 (s.updLink n (fun k => { k with blockLock := true, amLock := !k.curRate, hiBer := false }))
  | .rank m r => startRebuild m (lcGo (.rank m r) .on 1 s)
  | .cslice n => lcGo (.cslice n) .on 1 s
  | .dslice n => lcGo (.dslice n) .on 1 s
  | .commit => lcGo .commit .on 1 s

/-- A function ends its STARTING work; fail: what failed in its start-up test (R44), a PU's failing lanes. -/
def startDone (f : Fn) (fail : Nat) (s : State) : State :=
  if fail = 0 then startPassed f s
  else match f with
    | .pu n => puStarted n fail s
    | _ => faultFn f (selfTestSrc f) (fnInst f) 0 3 s

/-- LC_START_COMPLETE: counts in STARTING only (Table 2.7). -/
def execLcStartComplete (f : Fn) (fail : Nat) (s : State) : Host.Outcome State Fault Refusal :=
  .next (if s.lcs f = .starting then closeGates (after (startDone f fail s)) else s)

/-- LC_STOP_COMPLETE: counts in STOPPING and STOPPING_ARMED only. -/
def execLcStopComplete (f : Fn) (s : State) : Host.Outcome State Fault Refusal := .next (after (lcStopDone f s))

/-- Stores of a thread that were released and have not been performed are lost at the limit of a PU's STOPPING (R185,
Table 7.7): a NORMAL or COMMIT store is recorded as STORE_LOST, a DEVICE store fails. -/
def discardStores (n : Fin 48) (th : Bool) (s : State) : State :=
  let l := (s.thr n th).sb
  let s := s.updThr n th (fun t => { t with sb := [] })
  l.foldl (fun (s : State) i => match i with
    | .marker => s
    | .store e =>
      if !keepReleased (.store e) then s
      else if e.mt = .device then s.updThr n th (fun t => { t with devFail := some (e.va, 2) })
      else raiseZone (.pu n) 19 th.toNat (e.line % 2 ^ 32) (s.puZone n) s) s

/-- The stores of both threads of a PU are discarded. -/
def discardAll (f : Fn) (s : State) : State :=
  match f with
  | .pu n => discardStores n true (discardStores n false s)
  | _ => s

/-- Source of a function past its limit: a link's start is TRAIN_FAIL (R386). -/
def limitSrc (f : Fn) : Nat :=
  match f with
  | .link _ => 10
  | _ => 1

/-- A function is past its limit (R44): FENCED with LC_TIMEOUT, a link's start with TRAIN_FAIL (R386); a stopping PU's
stores are discarded. -/
def timedOut (f : Fn) (s : State) : State :=
  if s.lcs f = .starting then after (faultFn f (limitSrc f) (fnInst f) 0 4 s)
  else if s.lcs f = .stopping ∨ s.lcs f = .stoppingArmed then after (faultFn f 1 (fnInst f) 0 4 (discardAll f s))
  else s

/-- LC_TIMEOUT (R44). -/
def execLcTimeout (f : Fn) (s : State) : Host.Outcome State Fault Refusal :=
  .next (timedOut f s)

end Sys2Proof.Machine
end

