-- ==== Sys2Proof/Machine/Plant.lean ====
section
/-! DEFINITION. Plant loops, sensing, energy store, commit budget and clock islands (chapters 1, 12, 18 and 20). -/

namespace Sys2Proof.Machine

/-- Value of an F32 entry (IEEE 754 binary32); an infinity or NaN is never held. -/
def f32Rat (n : Nat) : Rat :=
  let e := nbits 30 23 n
  let f := nbits 22 0 n
  let m : Rat := if e = 0 then (f : Rat) * 2 else (2 ^ 23 + f : Nat)
  let v : Rat := if 151 ≤ e then m * (2 ^ (e - 151) * 2 : Nat) else m / (2 ^ (150 - e) : Nat)
  if nbits 31 31 n = 1 then -v else v

/-- Greatest number below 2^64 that is not above r, at least 0. -/
def floorNat (r : Rat) : Nat := if r < 0 then 0 else r.floor.toNat

/-- T_set, Kp and Ki (Table 18.11). -/
def loopGain (s : State) (sub dflt : Nat) : Rat := f32Rat (s.entry 0x3000 sub dflt)

/-- One iteration of R504, in exact arithmetic (DESIGN CHOICE, assumption 19): new integrator and command. -/
def coolantStep (kp ki e i u : Rat) : Rat × Rat :=
  let i' := i + ki * e / 10
  let i'' := if (100 ≤ u ∧ 0 < e) ∨ (u ≤ 0 ∧ e < 0) then i else i'
  let v := kp * e + i''
  (i'', if v < 0 then 0 else if 100 < v then 100 else v)

/-- T − T_set in °C. -/
def loopError (s : State) : Rat := (s.plant.hottest : Rat) / 100 - (s.entry 0x3000 1 75 : Nat)

/- Frequencies. -/

/-- Maximum PU frequency (Table 1.2). -/
def puMax : Nat := 5400

/-- Present frequency of an island; 0 stands for the nominal one. -/
def puMhz (s : State) (n : Nat) : Nat :=
  let f := (s.island (.pu (Fin.ofNat 48 n))).mhz
  if f = 0 then 5000 else f

/-- A PU island's frequency is the lowest of the setting and the two ceilings (R505). -/
def puTarget (s : State) (n : Nat) : Nat :=
  let r := (s.island (.pu (Fin.ofNat 48 n))).req
  Nat.min (if r = 0 then 5000 else r) (Nat.min (tget puMax s.plant.thermCeil n) (tget puMax s.plant.powerCeil n))

/-- Minimum VCORE in µV for a frequency, rounded up (Table 20.3). -/
def vcoreMin (f : Nat) : Nat :=
  let line := fun (f0 v0 f1 v1 : Nat) => v0 * 1000 + ((f - f0) * (v1 - v0) * 1000 + (f1 - f0) - 1) / (f1 - f0)
  if f ≤ 1200 then 650000 else if f ≤ 2500 then line 1200 650 2500 700 else if f ≤ 4000 then line 2500 700 4000 780
  else if f ≤ 5000 then line 4000 780 5000 850 else line 5000 850 5400 950

/-- VCORE that the islands of quadrant q that are not OFF need (R528). -/
def vcoreNeed (s : State) (q : Nat) : Nat :=
  ((List.range 12).map (fun i => 12 * q + i)).foldl (fun m n =>
    if s.lcs (.pu (Fin.ofNat 48 n)) = .off then m else Nat.max m (vcoreMin (puMhz s n))) 650000

/-- A PU island moves towards its target: down at once with a relock, up only after the regulator acknowledges. -/
def retune (n : Nat) (s : State) : State :=
  let t := puTarget s n
  let f := puMhz s n
  if t < f then
    let s := s.updIsland (.pu (Fin.ofNat 48 n)) (fun x => { x with mhz := t, relock := true })
    { s with plant := { s.plant with vcoreDue := tdrop s.plant.vcoreDue n } }
  else if f < t then { s with plant := { s.plant with vcoreDue := tset 0 s.plant.vcoreDue n t } }
  else { s with plant := { s.plant with vcoreDue := tdrop s.plant.vcoreDue n } }

/-- Every PU island moves towards its target. -/
def retuneAll (s : State) : State := (List.range 48).foldl (fun s n => retune n s) s

/-- REGULATOR_ACKNOWLEDGEMENT (R528): the quadrant's rail has risen, and the waiting frequencies apply. -/
def execRegulatorAcknowledgement (q : Fin 4) (s : State) : Host.Outcome State Fault Refusal :=
  .next (let due := s.plant.vcoreDue.filter (fun e => e.1 / 12 == q.val)
    let s := due.foldl (fun (s : State) e =>
      s.updIsland (.pu (Fin.ofNat 48 e.1)) (fun x => { x with mhz := e.2, relock := true })) s
    { s with plant := { s.plant with
        vcoreDue := s.plant.vcoreDue.filter (fun e => e.1 / 12 != q.val)
        vcore := tset 850000 s.plant.vcore q (Nat.max (tget 850000 s.plant.vcore q) (vcoreNeed s q)) } })

/-- Is a frequency allowed for an island (Table 1.2)? Memory controllers change at training, in M1 only. -/
def mhzAllowed (s : State) (i : Island) (f : Nat) : Bool :=
  match i with
  | .pu _ => decide (1200 ≤ f) && decide (f ≤ 5400) && f % 100 == 0
  | .home _ => decide (1600 ≤ f) && decide (f ≤ 2800)
  | .fab => decide (1600 ≤ f) && decide (f ≤ 2800)
  | .mc _ => s.inMode [.provision] && (f == 1200 || f == 1400 || f == 1600)
  | .ce _ => decide (1000 ≤ f) && decide (f ≤ 2000)
  | .crypto => decide (1000 ≤ f) && decide (f ≤ 2000)
  | .comp => decide (1000 ≤ f) && decide (f ≤ 2000)
  | _ => false

/-- ISLAND_FREQUENCY_SET (R14, R19, R505, R528). -/
def execIslandFrequencySet (i : Island) (mhz : Nat) (s : State) : Host.Outcome State Fault Refusal :=
  .next (if !mhzAllowed s i mhz || !s.mainOn then s
    else
      let s := s.updIsland i (fun x => { x with req := mhz })
      match i with
      | .pu n => retune n s
      | _ => s.updIsland i (fun x => { x with mhz := mhz, relock := true }))

/-- The rail of a quad follows once no PU of the quad is relocking any more. -/
def relocked (i : Island) (s : State) : State :=
  match i with
  | .pu n =>
    let q := n.val / 12
    if (List.range 12).any (fun j => (s.island (.pu (Fin.ofNat 48 (12 * q + j)))).relock) then s
    else { s with plant := { s.plant with vcore := tset 850000 s.plant.vcore q (vcoreNeed s q) } }
  | _ => s

/-- CLOCK_RELOCK_COMPLETE (R19, R528): a rail falls once no island of its quadrant relocks. -/
def execClockRelockComplete (i : Island) (s : State) : Host.Outcome State Fault Refusal :=
  .next (settled (relocked i (s.updIsland i (fun x => { x with relock := false }))))

/-- Jobs of a crypto or compression unit whose island is fenced are lost without a completion (R398). -/
def dropUnitJobs (s : State) : State :=
  let s := if islandUp s .crypto then s else { s with cslices := s.cslices.map (fun (e : Nat × Slice) => (e.1, { e.2 with jobs := [] })) }
  if islandUp s .comp then s else { s with dslices := s.dslices.map (fun (e : Nat × Slice) => (e.1, { e.2 with jobs := [] })) }

/-- Requests on lines whose home no longer answers are answered FENCED, those that wait and those in progress (R17). -/
def answerFenced (s : State) : State :=
  let s := dropUnitJobs (settled s)
  { s with coh := { s.coh with
      busy := s.coh.busy.filter (fun e => lineAnswers s e.1)
      waits := s.coh.waits.filter (fun e => lineAnswers s e.1) } }

/-- ISLAND_FENCE (R14, R17): what waits in the island is answered FENCED, and the alive outputs follow. -/
def execIslandFence (i : Island) (s : State) : Host.Outcome State Fault Refusal :=
  .next (closeGates (answerFenced (s.updIsland i (fun x => { x with swFence := true }))))

/-- ISLAND_UNFENCE (R14): service software lifts a fence; an island without its clock stays fenced (R384). -/
def execIslandUnfence (i : Island) (s : State) : Host.Outcome State Fault Refusal :=
  .next (let noClock := match i with
      | .lg g => s.pins.sdsLost.getLsbD g
      | _ => false
    s.updIsland i (fun x => { x with swFence := false, fltFence := x.fltFence && noClock }))

/-- ISLAND_POWER_SWITCH (R14, R18): the switch opens only behind a fence; a PU or a CE loses what it held. -/
def execIslandPowerSwitch (i : Island) (on : Bool) (s : State) : Host.Outcome State Fault Refusal :=
  .next (if on then s.updIsland i (fun x => { x with power := true })
    else
      let s := s.updIsland i (fun x => { x with swFence := x.swFence || !x.fltFence, power := false })
      closeGates (answerFenced (match i with
        | .pu n => (losePu n (stopPosition n s)).updPu n (powerOffCore n)
        | .ce n => (losePu (48 + n) (stopPosition (48 + n) s)).updPu (48 + n) (powerOffCore (48 + n))
        | _ => s)))

/- Loops. -/

/-- Modes in which the coolant loop runs (R504): M1 to M7, and M8 until the main rails are off. -/
def loopRuns (s : State) : Bool :=
  s.inMode [.provision, .restore, .run, .degraded, .service, .quiesced, .holdup] || (s.inMode [.checkstop] && s.mainOn)

/-- K1_THERMAL_ITERATION (R504, R488, R528, Table 18.2): T in 0.01 °C; whole periods of 100 ms without an iteration since the
last one were missed. Outside the loop's modes the duty is the idle position. -/
def execK1ThermalIteration (hottest : Int) (s : State) : Host.Outcome State Fault Refusal :=
  .next (if s.md.mode.isNone then s
    else
      let missed := match s.mgmt.k1Last with
        | some t => if loopRuns s then sinceTod t s / msUnits 100 - 1 else 0
        | none => 0
      let s := { s with
        plant := { s.plant with hottest := hottest }
        mgmt := { s.mgmt with
          k1At := s.tb.tod, k1Last := if loopRuns s then some s.tb.tod else none, missed := s.mgmt.missed + missed } }
      if loopRuns s then
        let (i, u) := coolantStep (loopGain s 2 0x41000000) (loopGain s 3 0x3ECCCCCD) (loopError s) s.plant.integ s.plant.u
        { s with plant := { s.plant with integ := i, u := u } }
      else idleValve s)

/-- Active PU positions: neither cold spares nor failed. -/
def activePus (s : State) : List Nat :=
  (List.range 48).filter (fun n => !s.spc.spareSet.getLsbD n && !s.spc.failedSet.getLsbD n)

/-- THERMAL_CEILING_STEP (R505). -/
def execThermalCeilingStep (lower : Bool) (s : State) : Host.Outcome State Fault Refusal :=
  .next (if lower then
      if s.plant.u = 100 ∧ 2 ≤ loopError s then
        retuneAll { s with plant := { s.plant with thermCeil := (activePus s).foldl (fun (t : Tbl Nat) n =>
          tset puMax t n (Nat.max 1200 (tget puMax t n - 100))) s.plant.thermCeil } }
      else s
    else if s.plant.u ≤ 85 then
      retuneAll { s with plant := { s.plant with thermCeil := (List.range 48).foldl (fun (t : Tbl Nat) n =>
        tset puMax t n (Nat.min puMax (tget puMax t n + 100))) s.plant.thermCeil } }
    else s)

/-- |u − position| in % (R506). -/
def valveGap (s : State) : Rat := if s.plant.u < s.plant.pos then s.plant.pos - s.plant.u else s.plant.u - s.plant.pos

/-- VALVE_DEVIATION (R506): NOTICE carries the mode and its cause. -/
def execValveDeviation (s : State) : Host.Outcome State Fault Refusal :=
  .next (if 10 < valveGap s then
      let m := (s.md.mode.map modeCode).getD 0xFF
      notice [BitVec.ofNat 8 m, BitVec.ofNat 8 s.md.cause] { s with plant := { s.plant with deviation := true } }
    else s)

/-- The fastest of the powered PU islands (R26); of several that are equally fast, the lowest-numbered (DESIGN CHOICE,
assumption 20). -/
def fastest (s : State) : Option Nat :=
  ((List.range 48).filter (fun n => s.lcs (.pu (Fin.ofNat 48 n)) != .off && decide (1200 < puMhz s n))).foldl
    (fun (b : Option Nat) n => match b with
      | none => some n
      | some m => if puMhz s m < puMhz s n then some n else b) none

/-- The power limit of R26 acts on one measurement: one step down from 1,050 W until below 1,020 W. -/
def limitPower (w : Nat) (s : State) : State :=
  let on := decide (1050 ≤ w) || (s.plant.limiting && decide (1020 ≤ w))
  let s := { s with plant := { s.plant with power := w, limiting := on } }
  if !on then s
  else match fastest s with
    | none => s
    | some n => retune n { s with plant := { s.plant with
        powerCeil := tset puMax s.plant.powerCeil n (Nat.max 1200 (puMhz s n - 100)) } }

/-- POWER_LIMIT_RESTORE (R26): one step of the island with the lowest power ceiling (DESIGN CHOICE, assumption 20). -/
def execPowerLimitRestore (s : State) : Host.Outcome State Fault Refusal :=
  .next (if 950 ≤ s.plant.power then s
    else
      let low := s.plant.powerCeil.foldl (fun (b : Option (Nat × Nat)) e => match b with
        | none => some e
        | some x => if e.2 < x.2 then some e else b) none
      match low with
      | none => s
      | some (n, f) => retune n { s with plant := { s.plant with powerCeil := tset puMax s.plant.powerCeil n (Nat.min puMax (f + 100)) } })

/-- Resistance of a PT1000 at t in 0.01 °C, in ohms (IEC 60751). -/
def pt1000 (t : Int) : Rat :=
  let x : Rat := (t : Rat) / 100
  let c : Rat := if t < 0 then -4183 / 1000000000000000 * (x - 100) * x * x * x else 0
  1000 * (1 + 39083 / 10000000 * x - 5775 / 10000000000 * x * x + c)

/-- Greatest temperature of 0.01 °C steps between lo and lo + 2^n whose resistance is not above r. -/
def rtdSearch (r : Rat) : Nat → Int → Int
  | 0, lo => lo
  | n + 1, lo => if pt1000 (lo + 2 ^ n) ≤ r then rtdSearch r n (lo + 2 ^ n) else rtdSearch r n lo

/-- Temperature of an RTD in 0.01 °C, ratiometric to the reference resistor (R507). -/
def rtdTemp (v ref : Int) : Int :=
  if ref ≤ 0 then 100000 else rtdSearch (1000 * ((v : Rat) / (ref : Rat))) 17 (-20000)

/-- Mean of a channel over the last second, in µV. -/
def adcMean (s : State) (ch : Nat) : Rat := ((tget 0 s.plant.adc ch : Int) : Rat) / 50

/-- Energy-store voltage in V. -/
def storeVolts (s : State) : Rat := adcMean s 1 * f32Rat (s.entry 0x3020 1 0x41C80000) / 1000000

/-- Store current of one sample in A: shunt voltage over shunt resistance. -/
def shuntAmps (s : State) (uv : Int) : Rat := (uv : Rat) / (f32Rat (s.entry 0x3020 2 0x3E800000) * 1000)

/-- The store current is integrated; a charge interval of at least 2 s above 1 A measures C, or H in the battery model,
whose nominal charge the spec does not state: a free value (R331, assumption 3). -/
def integrate (uv : Int) (v : Rat) (s : State) : State :=
  let i := shuntAmps s uv
  let p := s.plant
  if 1 < i then
    { s with plant := { p with
      charge := p.charge + i / 50, chargeN := p.chargeN + 1, chargeV0 := if p.chargeN = 0 then v else p.chargeV0 } }
  else
    let done := { p with charge := 0, chargeN := 0, chargeV0 := 0 }
    if 100 ≤ p.chargeN ∧ p.chargeV0 < v then
      if s.entry 0x3105 0 0 = 0 then { s with plant := { done with capC := p.charge / (v - p.chargeV0) } }
      else
        let (h, s) := s.draw 32
        { s with plant := { done with health := (h.toNat : Rat) / 65536 } }
    else { s with plant := done }

/-- Valve position in % from VALVE_POS in µV (R506). -/
def valvePos (s : State) (uv : Rat) : Rat :=
  let lo : Rat := (s.entry 0x3020 3 0 : Nat)
  let hi : Rat := (s.entry 0x3020 4 5000 : Nat)
  if hi = lo then 0 else 100 * (uv / 1000 - lo) / (hi - lo)

/-- Does an RTD read outside −50 °C to 150 °C (R507)? -/
def rtdFails (t : Int) : Bool := decide (t < -5000) || decide (15000 < t)

/-- At the end of each second the channel means are published and the RTDs read (R507). -/
def publish (s : State) : State :=
  let p := s.plant
  let s := { s with plant := { p with adc := p.adcSum, adcSum := [], adcN := 0 } }
  let s := { s with plant := { s.plant with pos := valvePos s (adcMean s 3) } }
  (List.range 4).foldl (fun (s : State) k =>
    let t := rtdTemp (tget 0 s.plant.adc (4 + k)) (tget 0 s.plant.adc 8)
    let s := { s with plant := { s.plant with rtd := tset 0 s.plant.rtd k t } }
    if rtdFails t then latch .sns 10 0 0 1 s else s) s

/-- ADC_SAMPLE (R507, R26, R508): 16 conversions in µV and the main-rail power; fault: the ADC has failed. -/
def execAdcSample (uv : List Int) (powerW : Nat) (fault : Bool) (s : State) : Host.Outcome State Fault Refusal :=
  .next (let s := limitPower powerW s
    if fault then
      let s := if s.plant.adcBad then s else latch .sns 11 0 0 2 s
      { s with plant := { s.plant with adcBad := true } }
    else
      let s := { s with plant := { s.plant with adcBad := false } }
      let v1 : Rat := ((uv.getD 1 0 : Int) : Rat) * f32Rat (s.entry 0x3020 1 0x41C80000) / 1000000
      let s := integrate (uv.getD 2 0) v1 s
      let s := { s with plant := { s.plant with
        adcN := s.plant.adcN + 1
        adcSum := (List.range 16).foldl (fun (t : Tbl Int) k => tupd 0 t k (· + uv.getD k 0)) s.plant.adcSum } }
      if 50 ≤ s.plant.adcN then publish s else s)

/- Commit budget. -/

/-- Is the store treated as failed (R330, R508)? -/
def storeOut (s : State) : Bool := s.pins.storeFlt || s.plant.adcBad

/-- E_usable in J of the model selected (R331). -/
def usableEnergy (s : State) : Rat :=
  let v := storeVolts s
  let vmin : Rat := (s.entry 0x3105 1 40000 : Nat) / 1000
  if s.entry 0x3105 0 0 = 0 then s.plant.capC * (v * v - vmin * vmin) / 2
  else
    let vfull : Rat := (s.entry 0x3105 5 54000 : Nat) / 1000
    (s.entry 0x3105 3 0 : Nat) * s.plant.health * (v - vmin) / (vfull - vmin)

/-- B as computed (R330). -/
def computedBudget (s : State) : Nat :=
  if storeOut s || decide (2 ≤ flashFailed s) then 0
  else
    let rfl : Rat := if flashFailed s = 0 then 24000000000 else 22400000000
    let e := usableEnergy s - (s.entry 0x3102 0 300 : Nat) - 60
    floorNat (min 64 (e * rfl / (s.entry 0x3103 0 200 : Nat) / 1073741824))

/-- B in force after a computation of b (R330): a decrease at once, an increase after 60 s at or above; the first value
of a power-up at once. -/
def settleBudget (b : Nat) (s : State) : State :=
  let p := s.plant
  if !p.budgetSet || decide (b ≤ p.budget) then
    { s with plant := { p with budget := b, budgetSet := true, budgetHigh := none } }
  else match p.budgetHigh with
    | none => { s with plant := { p with budgetHigh := some (b, s.tb.tod) } }
    | some (v, t) =>
      let v := Nat.min v b
      if msUnits 60000 + t.toNat ≤ s.now then
        { s with plant := { p with budget := v, budgetHigh := if v < b then some (b, s.tb.tod) else none } }
      else { s with plant := { p with budgetHigh := some (v, t) } }

/-- COMMIT_BUDGET_UPDATE (R330, R327): B, the allowance, and what waits for it. -/
def execCommitBudgetUpdate (s : State) : Host.Outcome State Fault Refusal :=
  .next (if s.md.mode.isNone then s
    else
      let s := settleBudget (computedBudget s) { s with plant := { s.plant with eUsable := usableEnergy s } }
      if !s.mainOn then s
      else
        let a := Nat.min s.commit.size.toNat s.plant.budget * 4096
        checkDegraded (drainWbuf (serveGrants { s with commit := { s.commit with allow := BitVec.ofNat 19 a } })))

/-- STORE_CHG_EN (R508): high from M0 but for the recharge test and STORE_FLT_N. -/
def driveCharge (s : State) : State :=
  { s with pins := { s.pins with storeChg := s.md.mode.isSome && s.plant.recharge.isNone && !s.pins.storeFlt } }

/-- STORE_RECHARGE_TEST (R331). -/
def execStoreRechargeTest (s : State) : Host.Outcome State Fault Refusal :=
  .next (if s.md.mode.isNone then s
    else driveCharge { s with plant := { s.plant with recharge := some (storeVolts s) } })

/-- STORE_RECHARGE_TEST_END (R331): with less than 0.5 V of fall the store is derated by 10 %. -/
def execStoreRechargeTestEnd (s : State) : Host.Outcome State Fault Refusal :=
  .next (match s.plant.recharge with
    | none => s
    | some v0 =>
      let fell := v0 - storeVolts s
      let s := driveCharge { s with plant := { s.plant with recharge := none } }
      if 1 / 2 ≤ fell then s
      else
        let s := latch .sns 9 0 0 1 s
        if s.entry 0x3105 0 0 = 0 then { s with plant := { s.plant with capC := s.plant.capC * 9 / 10 } }
        else { s with plant := { s.plant with health := s.plant.health * 9 / 10 } })

/-- STORE_FLT_N_ASSERT (R327, R508): grants freeze in hardware. -/
def execStoreFltNAssert (s : State) : Host.Outcome State Fault Refusal :=
  .next (let s := driveCharge { s with pins := { s.pins with storeFlt := true } }
    if s.mainOn then latch .drain 10 0 0 1 { s with commit := { s.commit with frozen := true } } else s)

/-- STORE_FLT_N_NEGATE (R508). -/
def execStoreFltNNegate (s : State) : Host.Outcome State Fault Refusal :=
  .next (driveCharge { s with pins := { s.pins with storeFlt := false } })

/- Commit grants and flash. -/

/-- COMMIT_GRANT_REQUEST (R325 to R329): served, or queued in arrival order; outside the region or with the region not
ON the request is answered FENCED (R323). -/
def execCommitGrantRequest (a : Acc) (block : Nat) (s : State) : Host.Outcome State Fault Refusal :=
  .next (if regionBlocks s ≤ block ∨ s.lcs .commit ≠ .on then { s with resp := .fenced }
    else
      let (ok, s) := askGrant a block s
      { s with resp := if ok then .ok 1 else .ok 0 })

/-- OPEN_RECORD_WRITTEN (R326). -/
def execOpenRecordWritten (s : State) : Host.Outcome State Fault Refusal :=
  .next (if s.commit.openDue && flashUsable s then
      let s := writeOpenRec s
      drainWbuf (if s.inMode [.holdup] then grantAll s else serveGrants s)
    else s)

/-- BLOCK_RECORD_WRITTEN (R328, R329, R333): the record of the block being cleaned, or in a drain that of its next block. -/
def execBlockRecordWritten (s : State) : Host.Outcome State Fault Refusal :=
  .next (match s.commit.cleaning with
    | none => drainNext s
    | some b =>
      if !flashUsable s then s
      else
        let keep := s.commit.cancelled
        let s := writeBlockRec b s
        let s := { s with commit := { s.commit with
          cleaning := none, cancelled := false
          dirty := if keep then s.commit.dirty else s.commit.dirty.erase b } }
        drainWbuf (serveGrants s))

/-- FLASH_CHANNEL_FAILURE (R339). -/
def execFlashChannelFailure (ch : Fin 16) (s : State) : Host.Outcome State Fault Refusal :=
  .next (if s.commit.chanFail.getLsbD ch then s
    else
      let s := { s with commit := { s.commit with chanFail := s.commit.chanFail ||| BitVec.twoPow 16 ch } }
      closeGates (latch .flash 8 ch 0 2 s))

end Sys2Proof.Machine
end

