-- ==== Sys2Proof/Machine/RegRows.lean ====
section
/-! DEFINITION. Commands that read or write one register: each makes the word that software would write and uses the one
register path of Registers.lean (R5 to R10, chapters 2, 11 to 13, 16 to 19). -/

namespace Sys2Proof.Machine

/-- REGISTER_WRITE (R8): any address outside DRAM, with its size. -/
def execRegisterWrite (a : Acc) (addr : BitVec 52) (size : Nat) (v : Word) (s : State) :
    Host.Outcome State Fault Refusal :=
  .next (let (r, s) := devSent a addr.toNat (devWrite a addr.toNat size v s)
    { s with resp := r })

/-- RC_READ (R8): a read, which clears the RC fields it returns. -/
def execRcRead (a : Acc) (addr : BitVec 52) (size : Nat) (s : State) : Host.Outcome State Fault Refusal :=
  .next (let (r, s) := devRead a addr.toNat size s
    { s with resp := r })

/-- LC_ENABLE (R41): a write of the function's lifecycle register with ENABLE at 1. -/
def execLcEnable (f : Fn) (a : Acc) (w : Word) (s : State) : Host.Outcome State Fault Refusal :=
  .next (doWrite a (lcAddr f) (putBit 2 true w) s)

/-- LC_DISABLE (R41): DISABLE at 1. -/
def execLcDisable (f : Fn) (a : Acc) (w : Word) (s : State) : Host.Outcome State Fault Refusal :=
  .next (doWrite a (lcAddr f) (putBit 1 true w) s)

/-- LC_UNFENCE (R41): UNFENCE at 1. -/
def execLcUnfence (f : Fn) (a : Acc) (w : Word) (s : State) : Host.Outcome State Fault Refusal :=
  .next (doWrite a (lcAddr f) (putBit 0 true w) s)

/-- FSTAT_CLEAR (R460): 1 to FSTAT.VALID. -/
def execFstatClear (b : Blk) (a : Acc) (s : State) : Host.Outcome State Fault Refusal :=
  .next (doWrite a (regAddr (blkNum b) 0x100) (BitVec.twoPow 64 63) s)

/-- FOVF_CLEAR (R462): 1 to FOVF.OVF. -/
def execFovfClear (b : Blk) (a : Acc) (s : State) : Host.Outcome State Fault Refusal :=
  .next (doWrite a (regAddr (blkNum b) 0x108) (BitVec.twoPow 64 63) s)

/-- AT_LOCK_SET (R452): 1 to AT_CTL.LOCK. -/
def execAtLockSet (t : TabId) (a : Acc) (s : State) : Host.Outcome State Fault Refusal := .next (doWrite a (tabAddr t) 1 s)

/-- AT_LOG_CLEAR (R451): 1 to AT_LOG.VALID. -/
def execAtLogClear (t : TabId) (a : Acc) (s : State) : Host.Outcome State Fault Refusal :=
  .next (doWrite a (tabAddr t + 8) (BitVec.twoPow 64 63) s)

/-- ALIVE_REARM (R472): 1 to bits of SNS.ALIVE_CTL.REARM. -/
def execAliveRearm (a : Acc) (mask : BitVec 20) (s : State) : Host.Outcome State Fault Refusal :=
  .next (doWrite a (regAddr 0x101 0x200) (mkw [(40, mask.toNat)]) s)

/-- ALIVE_REJ_CLEAR (R474): 1 to bits of SNS.ALIVE_CTL.REJ. -/
def execAliveRejClear (a : Acc) (mask : BitVec 20) (s : State) : Host.Outcome State Fault Refusal :=
  .next (doWrite a (regAddr 0x101 0x200) (mkw [(20, mask.toNat)]) s)

/-- The levels of SNS.PRIV_OUT as they stand, to be written back beside a test bit. -/
def privLevels (s : State) : Word := mkw [(5, s.outs.holdLvl.toNat), (4, s.outs.chkLvl.toNat)]

/-- HOLDUP_TEST (R476): 1 to SNS.PRIV_OUT.HOLDUP_TEST, the levels as they are. -/
def execHoldupTest (a : Acc) (s : State) : Host.Outcome State Fault Refusal :=
  .next (doWrite a (regAddr 0x101 0x208) (putBit 1 true (privLevels s)) s)

/-- CHKSTOP_TEST (R476). -/
def execChkstopTest (a : Acc) (s : State) : Host.Outcome State Fault Refusal :=
  .next (doWrite a (regAddr 0x101 0x208) (putBit 0 true (privLevels s)) s)

/-- PRIV_PULSE_END (R475, R476): the pulse ends, and the output takes its level. -/
def execPrivPulseEnd (holdup : Bool) (s : State) : Host.Outcome State Fault Refusal :=
  .next { s with outs := if holdup then { s.outs with holdPulse := false, holdTest := false }
    else { s.outs with chkPulse := false, chkTest := false } }

/-- WDOG_KICK (R486): a write of KICK in MGT.WDOGn. -/
def execWdogKick (n : Fin 2) (a : Acc) (v : BitVec 8) (s : State) : Host.Outcome State Fault Refusal :=
  .next (doWrite a (regAddr 0x100 (0x200 + 8 * n.val)) (mkw [(8, v.toNat)]) s)

/-- FROZEN_CLEAR (R327): 1 to DRAIN.ALLOW.FROZEN, the allowance as it is. -/
def execFrozenClear (a : Acc) (s : State) : Host.Outcome State Fault Refusal :=
  .next (doWrite a (regAddr 0x68 0x208) (putBit 63 true (s.commit.allow.setWidth 64)) s)

/-- SEG_ADD (R161): a write of ZM.SEG_ADD with GO at 1. -/
def execSegAdd (a : Acc) (w : Word) (s : State) : Host.Outcome State Fault Refusal :=
  .next (doWrite a (regAddr 0xE0 0x500) (putBit 45 true w) s)

/-- SIDT_SET (R435): a write of ZMZzz.SIDT_SET with GO at 1. -/
def execSidtSet (z : Fin 16) (a : Acc) (w : Word) (s : State) : Host.Outcome State Fault Refusal :=
  .next (doWrite a (regAddr (0xF0 + z.val) 0x200) (putBit 45 true w) s)

/-- IRQ_SEND (R438): a write of ZMZzz.IRQ_SEND. -/
def execIrqSend (z : Fin 16) (a : Acc) (thread : BitVec 7) (vector : BitVec 10) (prio : BitVec 4) (s : State) :
    Host.Outcome State Fault Refusal :=
  .next (doWrite a (regAddr (0xF0 + z.val) 0x208) (mkw [(48, thread.toNat), (32, vector.toNat), (28, prio.toNat)]) s)

/-- INTERRUPT_ARRIVAL (R436, R437): at the router. -/
def execInterruptArrival (z : Fin 16) (thread : BitVec 7) (vector : BitVec 10) (prio : BitVec 4) (s : State) :
    Host.Outcome State Fault Refusal :=
  .next (routeIrq z { thread := thread.toNat, vector := vector.toNat, prio := prio } s)

/-- RELOAD_EP (R347): a write of CEnn.CTL with the endpoint and RELOAD_EP, the zone field as it is. -/
def execReloadEp (ce : Fin 36) (a : Acc) (ep : BitVec 16) (s : State) : Host.Outcome State Fault Refusal :=
  .next (doWrite a (regAddr (0x80 + ce.val) 0x200) (mkw [(48, ep.toNat), (47, 1), (40, (s.ce ce).zone.toNat)]) s)

/-- RELOAD_DISP (R347): with the zone and RELOAD_DISP, the endpoint field as it is. -/
def execReloadDisp (ce : Fin 36) (a : Acc) (z : Fin 16) (s : State) : Host.Outcome State Fault Refusal :=
  .next (doWrite a (regAddr (0x80 + ce.val) 0x200) (mkw [(48, (s.ce ce).ep.toNat), (46, 1), (40, z.val)]) s)

/-- A write of MCnn.TRN_CTL with GO (R313, Table 11.9). -/
def trnGo (mode : Nat) (mc : Fin 20) (a : Acc) (rank : Fin 4) (nibble : Fin 32) (start : BitVec 10) (s : State) : State :=
  doWrite a (trnAddr mc) (mkw [(59, 1), (56, mode), (54, rank.val), (49, nibble.val), (32, start.toNat)]) s

/-- TRN_WRITE_LEVELLING: mode 0. -/
def execTrnWriteLevelling (mc : Fin 20) (a : Acc) (rank : Fin 4) (nibble : Fin 32) (start : BitVec 10) (s : State) :
    Host.Outcome State Fault Refusal := .next (trnGo 0 mc a rank nibble start s)

/-- TRN_RECEIVE_ENABLE: mode 1. -/
def execTrnReceiveEnable (mc : Fin 20) (a : Acc) (rank : Fin 4) (nibble : Fin 32) (start : BitVec 10) (s : State) :
    Host.Outcome State Fault Refusal := .next (trnGo 1 mc a rank nibble start s)

/-- TRN_READ_EYE: mode 2. -/
def execTrnReadEye (mc : Fin 20) (a : Acc) (rank : Fin 4) (nibble : Fin 32) (start : BitVec 10) (s : State) :
    Host.Outcome State Fault Refusal := .next (trnGo 2 mc a rank nibble start s)

/-- TRN_WRITE_EYE: mode 3. -/
def execTrnWriteEye (mc : Fin 20) (a : Acc) (rank : Fin 4) (nibble : Fin 32) (start : BitVec 10) (s : State) :
    Host.Outcome State Fault Refusal := .next (trnGo 3 mc a rank nibble start s)

/-- TRN_DQS_OSCILLATOR: mode 4. -/
def execTrnDqsOscillator (mc : Fin 20) (a : Acc) (rank : Fin 4) (nibble : Fin 32) (start : BitVec 10) (s : State) :
    Host.Outcome State Fault Refusal := .next (trnGo 4 mc a rank nibble start s)

/-- TRN_CA_TRAINING: mode 5. -/
def execTrnCaTraining (mc : Fin 20) (a : Acc) (rank : Fin 4) (nibble : Fin 32) (start : BitVec 10) (s : State) :
    Host.Outcome State Fault Refusal := .next (trnGo 5 mc a rank nibble start s)

/-- TRN_APPLY (R312): APPLY at 1, the other fields of TRN_CTL as they are. -/
def execTrnApply (mc : Fin 20) (a : Acc) (s : State) : Host.Outcome State Fault Refusal :=
  let c := s.mc mc
  .next (doWrite a (trnAddr mc) (mkw [(60, 1), (56, c.trnMode.toNat), (54, c.trnRank.toNat), (49, c.trnNibble.toNat),
    (32, c.trnStart.toNat)]) s)

/-- A write of DW_CMD of zone z's mailbox with GO at 1 (R497, Table 18.5). -/
def dwGo (z : Fin 16) (a : Acc) (index : BitVec 16) (sub : BitVec 8) (op len : Nat) (offset : BitVec 24) (s : State) : State :=
  doWrite a (0x80F0000000000 + 65536 * z.val)
    (mkw [(48, index.toNat), (40, sub.toNat), (39, 1), (38, op), (24, len), (0, offset.toNat)]) s

/-- DW_GO_READ (R497). -/
def execDwGoRead (z : Fin 16) (a : Acc) (index : BitVec 16) (sub : BitVec 8) (offset : BitVec 24) (s : State) :
    Host.Outcome State Fault Refusal := .next (dwGo z a index sub 0 0 offset s)

/-- DW_GO_WRITE (R497). -/
def execDwGoWrite (z : Fin 16) (a : Acc) (index : BitVec 16) (sub : BitVec 8) (len : BitVec 13) (offset : BitVec 24)
    (s : State) : Host.Outcome State Fault Refusal := .next (dwGo z a index sub 1 len.toNat offset s)

/-- WATCHDOG_EXPIRY (R289): the active processor's watchdog runs out. -/
def execWatchdogExpiry (s : State) : Host.Outcome State Fault Refusal :=
  .next (if s.mgmt.bothDown ∨ s.md.mode.isNone then s else after (wdogExpire s.mgmt.active.toNat s))

/-- DEBUG_PORT_REQUEST (R39): outside M5 every request of master 0x7E is answered with an error and reaches nothing; in
M5, while the port is enabled, it reads its target like any master's request. -/
def execDebugPortRequest (a : Acc) (addr : BitVec 52) (s : State) : Host.Outcome State Fault Refusal :=
  let a : Acc := { a with master := 0x7E }
  .next (if !s.inMode [.service] || !s.md.dbgPort then { s with resp := .error }
    else if target addr.toNat = .nowhere then
      if addr.toNat % 8 ≠ 0 then { s with resp := .error }
      else if (dramAnswer a addr.toNat .read 0 s).1 = some 3 then { s with resp := .fenced }
      else orWait (fun s => match readBytes a 0 addr.toNat 8 s with
        | (some b, s) => { s with resp := .ok (BitVec.ofNat 64 (ofBe b)) }
        | (none, s) => { s with resp := .error }) s
    else
      let (r, s) := devRead a addr.toNat 8 s
      { s with resp := r })

end Sys2Proof.Machine
end

