-- ==== Sys2Proof/Machine/Recorder.lean ====
section
/-! DEFINITION. The Encke recorder (R477 to R483) and what K4 does each second (R487). -/

namespace Sys2Proof.Machine

/-- Bin of a value with evenly spaced edges from first (R481). -/
def binLin (first step v : Rat) : Nat := if v < first then 0 else Nat.min 15 (floorNat ((v - first) / step) + 1)

/-- 48 V bus in mV (Table 18.10). -/
def busMilli (s : State) : Int := (adcMean s 0 * f32Rat (s.entry 0x3020 0 0x41C80000) / 1000).floor

/-- Store voltage in mV. -/
def storeMilli (s : State) : Int := (storeVolts s * 1000).floor

/-- Store current in mA. -/
def currentMilli (s : State) : Int := (adcMean s 2 / f32Rat (s.entry 0x3020 2 0x3E800000)).floor

/-- Statistics that count seconds and their extremes (Table 17.14): the plant's always, the die's while the main rails
are on. -/
def foldPlant (s : State) : State :=
  let rtd := fun (k : Nat) => tget 0 s.plant.rtd k
  let s := histAdd 1 (binLin 20 5 ((rtd 3 : Rat) / 100)) 1 s
  let s := histAdd 2 (binLin (25 / 4) (25 / 4) s.plant.pos) 1 s
  let s := histAdd 3 (binLin 44 (1 / 2) ((busMilli s : Rat) / 1000)) 1 s
  let s := (List.range 4).foldl (fun s k => if rtdFails (rtd k) then s else extAdd (1 + k) (rtd k) s) s
  let s := extAdd 5 (busMilli s) (extAdd 6 (storeMilli s) (extAdd 7 (currentMilli s) s))
  let s := extAdd 9 (s.plant.pos * 100).floor (extAdd 10 s.plant.budget (extAdd 12 s.plant.eUsable.floor s))
  if !s.mainOn then s
  else
    let s := histAdd 0 (binLin 45 5 ((s.plant.hottest : Rat) / 100)) 1 s
    let s := histAdd 4 (binLin 75 75 s.plant.power) 1 s
    let s := (List.range 48).foldl (fun (s : State) n =>
      if (s.island (.pu (Fin.ofNat 48 n))).power then histAdd 5 (binLin (7 / 4) (1 / 4) ((puMhz s n : Rat) / 1000)) 1 s
      else s) s
    let sz := s.commit.size.toNat
    let s := if sz = 0 then s
      else histAdd 6 (Nat.min 15 (16 * s.plant.budget / sz)) 1 (histAdd 7 (Nat.min 15 (16 * dirtyCount s / (sz * 4096))) 1 s)
    extAdd 0 s.plant.hottest (extAdd 8 s.plant.power (extAdd 11 (dirtyCount s) s))

/-- K4 reads ECC_CNT of every controller and ERR0 of every link, which clears them (R487, R7). -/
def readCounters (s : State) : State :=
  let s := (List.finRange 20).foldl (fun (s : State) m =>
    if !islandUp s (.mc m) then s
    else
      let c := (s.mc m).cnt
      let s := s.updMc m (fun x => { x with cnt := [] })
      { s with encke := { s.encke with ecc := c.foldl (fun (t : Tbl Nat) e => tupd 0 t (4 * m.val + e.1) (· + e.2)) s.encke.ecc } }) s
  s.links.foldl (fun (s : State) e =>
    if !islandUp s (.lg (Fin.ofNat 8 (e.1 / 64))) || e.2.fecCorr + e.2.fecUncorr + e.2.berCnt == 0 then s
    else
      let s := s.updLink e.1 (fun k => { k with fecCorr := 0, fecUncorr := 0, berCnt := 0 })
      { s with encke := { s.encke with fec := tupd 0 s.encke.fec e.1 (· + e.2.fecCorr) } }) s

/-- A second in the present mode, and for each masked source one C1 count (Table 17.13, R488). -/
def countSecond (s : State) : State :=
  let a := s.encke.acc
  let a := { a with modes := match s.md.mode with
    | some m => tupd 0 a.modes (modeCode m) (· + 1)
    | none => a.modes }
  let s := { s with encke := { s.encke with acc := a, opSecs := s.encke.opSecs + 1 } }
  s.mgmt.stormMask.foldl (fun (s : State) e => enckeFault e.1 1 1 s) s

/-- K4_PERIOD (R487, R479): one second of operation. -/
def execK4Period (s : State) : Host.Outcome State Fault Refusal :=
  .next (if s.md.mode.isNone || s.mgmt.bothDown then s
    else countSecond (foldPlant (if s.mainOn then readCounters s else s)))

/- Intervals. -/

/-- H11 to H13 at the end of an interval: PU positions, populated ranks and links by their counts (Table 17.14). -/
def closeCounts (s : State) : State :=
  let s := (List.range 48).foldl (fun (s : State) n => histAdd 11 (binLog (tget 0 s.encke.retries n)) 1 s) s
  let s := (List.range 80).foldl (fun (s : State) i =>
    if rankPresent s (i % 4) then histAdd 12 (binLog (tget 0 s.encke.ecc i)) 1 s else s) s
  let s := s.encke.fec.foldl (fun (s : State) e => histAdd 13 (binLog e.2) 1 s) (histAdd 13 0 (512 - s.encke.fec.length) s)
  { s with encke := { s.encke with retries := [], ecc := [], fec := [] } }

/-- Stamp under R479. -/
def stampNow (s : State) (fmt : Nat) : Word :=
  if fmt = 0 then BitVec.ofNat 64 (s.encke.cycles * 2 ^ 32 + s.encke.opSecs % 2 ^ 32) else s.tb.tod

/-- The record of the open interval, closed now (R477, R479). -/
def closedRec (s : State) : EnckeRec :=
  let fmt := s.entry 0x5002 0 0
  { s.encke.acc with
    fmt := fmt, gap := s.encke.gapNext, undisc := fmt == 1 && !s.tb.disc
    start := if fmt = 0 then s.encke.acc.startOp else s.encke.acc.start, stop := stampNow s fmt }

/-- Tables of counts added. -/
def tblAdd (x y : Tbl Nat) : Tbl Nat := y.foldl (fun (t : Tbl Nat) e => tupd 0 t e.1 (fun v => satAdd 0xFFFFFFFF v e.2)) x

/-- Extremes combined; those of the later interval lie d seconds later. -/
def extJoin (d : Nat) (x y : Extreme) : Extreme :=
  if !y.seen then x
  else
    let y := { y with loAt := y.loAt + d, hiAt := y.hiAt + d }
    if !x.seen then y
    else
      { lo := min x.lo y.lo, hi := max x.hi y.hi, loAt := if y.lo < x.lo then y.loAt else x.loAt
        hiAt := if x.hi < y.hi then y.hiAt else x.hiAt, seen := true }

/-- An interval merged into a waiting record (R482). -/
def mergeRec (x y : EnckeRec) : EnckeRec :=
  let d := (x.modes.map (·.2)).sum
  { x with
    merged := x.merged + y.merged, stop := y.stop, gap := x.gap || y.gap, undisc := x.undisc || y.undisc
    modes := tblAdd x.modes y.modes, deferrals := x.deferrals + y.deferrals, busy := x.busy + y.busy
    puCalls := x.puCalls + y.puCalls, ceCalls := x.ceCalls + y.ceCalls, hist := tblAdd x.hist y.hist
    ext := y.ext.foldl (fun (t : Tbl Extreme) e => tupd {} t e.1 (fun v => extJoin d v e.2)) x.ext
    faults := tblAdd x.faults y.faults }

/-- ENCKE_INTERVAL_CLOSE (R477, R482): at most two closed records wait; a third is merged into the newer. A record that
closes behind one that waits finds K4 deferred. -/
def execEnckeIntervalClose (s : State) : Host.Outcome State Fault Refusal :=
  .next (if s.md.mode.isNone || s.mgmt.bothDown then s
    else
      let s := if s.encke.waiting.isEmpty then s
        else { s with encke := { s.encke with
          deferrals := s.encke.deferrals + 1, acc := { s.encke.acc with deferrals := s.encke.acc.deferrals + 1 } } }
      let s := closeCounts s
      let r := closedRec s
      let e := s.encke
      let e := match e.waiting with
        | [x, y] => { e with waiting := [x, mergeRec y r], merges := e.merges + 1 }
        | l => { e with waiting := l ++ [r] }
      { s with encke := { e with
        gapNext := false
        acc := { len := s.entry 0x5000 0 3600, start := stampNow s 1, startOp := stampNow s 0 } } })

/-- Place of a record: 64 permanent ones, then 512 that circulate (R478). -/
def recSlot (n : Nat) : Nat := if n < 64 then n else 64 + (n - 64) % 512

/-- ENCKE_RECORD_WRITE (R478, R482): K4 writes the oldest waiting record, while the flash controller is ON. -/
def execEnckeRecordWrite (s : State) : Host.Outcome State Fault Refusal :=
  .next (match s.encke.waiting with
    | r :: rest =>
      if s.mgmt.bothDown || !islandUp s .flash then s
      else { s with encke := { s.encke with
        waiting := rest, next := s.encke.next + 1
        written := tset none s.encke.written (recSlot s.encke.next) (some { r with number := s.encke.next }) } }
    | [] => s)

/-- An extreme as stored (Table 17.13). -/
def extBytes (e : Extreme) : List Byte := toBe 4 (usgn 32 e.lo) ++ toBe 4 (usgn 32 e.hi) ++ toBe 4 e.loAt ++ toBe 4 e.hiAt

/-- A record of 4,096 B (Table 17.13). -/
def enckeBytes (r : EnckeRec) : List Byte :=
  let flags := (decide (r.number < 64)).toNat + 2 * (decide (1 < r.merged)).toNat + 4 * r.gap.toNat + 8 * r.undisc.toNat
  let head := toBe 4 0x454E4B45 ++ toBe 4 r.number ++ toBe 1 r.fmt ++ toBe 1 flags ++ toBe 2 r.merged ++ toBe 4 r.len ++
    toBe 8 r.start.toNat ++ toBe 8 r.stop.toNat ++ (List.range 9).flatMap (fun m => toBe 4 (tget 0 r.modes m)) ++
    toBe 4 r.deferrals ++ toBe 4 r.busy ++ toBe 2 r.puCalls ++ toBe 2 r.ceCalls
  let body := fit 0x100 head ++ (List.range 256).flatMap (fun i => toBe 4 (tget 0 r.hist i)) ++
    (List.range 16).flatMap (fun k => extBytes (tget {} r.ext k)) ++
    (List.range 84).flatMap (fun i => toBe 4 (tget 0 r.faults i))
  let l := fit 0xFFC body
  l ++ toBe 4 (crc32c l)

/-- The record that 0x5010:00 names, if it is held (R483). -/
def heldRec (s : State) (n : Nat) : Option EnckeRec :=
  (tget none s.encke.written (recSlot n)).filter (fun r => r.number == n)

end Sys2Proof.Machine
end

