-- ==== Sys2Proof/Machine/Dict.lean ====
section
/-! DEFINITION. The object dictionary: entries, reads, writes and limited-change settings (R49, R453 to R455, R492 to R496). -/

namespace Sys2Proof.Machine

/-- Types of Table 18.3; u and i with their bytes. -/
inductive DType where
  | bool
  | u (n : Nat)
  | i (n : Nat)
  | f32
  | vstr
  | ostr (n : Nat)
  | domain
deriving DecidableEq, Repr

/-- Rights (R493). rwc: limited-change settings. -/
inductive DRight where
  | ro | rw | wo | const | rwc
deriving DecidableEq, Repr

/-- An entry: number 0xIIIISS, type, right, principals, default and range; F32 ranges in hundredths. -/
structure DEntry where
  key   : Nat
  ty    : DType
  right : DRight
  who   : List Principal
  dflt  : Nat := 0
  lo    : Nat := 0
  hi    : Nat := 2 ^ 64
deriving DecidableEq, Repr

/-- Principal masks. -/
def mFZP : List Principal := [.F, .Z, .P]
def mFP : List Principal := [.F, .P]
def mFZ : List Principal := [.F, .Z]

/-- An RO entry for all principals. -/
def ro (key : Nat) (ty : DType) : DEntry := { key := key, ty := ty, right := .ro, who := mFZP }

/-- An RW entry of F and P. -/
def rw (key : Nat) (ty : DType) (dflt lo hi : Nat) : DEntry :=
  { key := key, ty := ty, right := .rw, who := mFP, dflt := dflt, lo := lo, hi := hi }

/-- An RW entry of all principals. -/
def rwA (key : Nat) (ty : DType) (dflt lo hi : Nat) : DEntry :=
  { key := key, ty := ty, right := .rw, who := mFZP, dflt := dflt, lo := lo, hi := hi }

/-- A WO entry. -/
def wo (key : Nat) (ty : DType) (who : List Principal) (hi : Nat) : DEntry :=
  { key := key, ty := ty, right := .wo, who := who, hi := hi }

/-- Entries of 0x1000 to 0x1FFF (Table 18.11, R29). -/
def entries1 : List DEntry :=
  [{ key := 0x100000, ty := .vstr, right := .const, who := mFZP }, { key := 0x100001, ty := .vstr, right := .const, who := mFZP },
   { key := 0x100002, ty := .ostr 16, right := .const, who := mFZP },
   ro 0x100003 (.u 4), ro 0x100004 (.u 4), ro 0x100005 (.u 4), ro 0x100006 (.u 1), ro 0x100007 (.u 1),
   rw 0x100101 (.u 1) 0 0 1, rw 0x100102 (.u 2) 2000 1000 5000, wo 0x100103 .bool mFP 1,
   ro 0x100200 (.u 1), ro 0x100201 (.u 1), ro 0x100202 (.u 1), ro 0x100203 (.u 1),
   rw 0x101000 (.u 2) 100 0 10000, rw 0x103000 (.u 1) 0 0 255]

/-- Entries of 0x2000 to 0x2FFF (chapters 2, 10 and 18). -/
def entries2 : List DEntry :=
  [ro 0x200000 (.u 1), wo 0x200100 (.u 1) mFZP 8, ro 0x200200 (.u 1), ro 0x200300 (.u 1),
   rw 0x200401 .bool 1 0 1, rw 0x200402 .bool 0 0 1, rw 0x200403 (.u 2) 1 0 0xFFFF,
   ro 0x201000 (.u 1), ro 0x201001 (.u 2), ro 0x201100 (.u 1), ro 0x201101 (.u 4), ro 0x201102 (.u 4), ro 0x201103 (.u 4),
   { key := 0x203000, ty := .bool, right := .rw, who := mFZ }, { key := 0x203001, ty := .u 2, right := .rw, who := mFZ, dflt := 30 },
   ro 0x204000 (.u 8), ro 0x204100 (.u 8), ro 0x204101 (.u 8), wo 0x204200 (.u 1) mFZP 47, wo 0x204201 (.u 1) mFZP 35,
   wo 0x204202 .bool mFZ 1, ro 0x204300 (.u 8), ro 0x204301 (.u 8), ro 0x204302 (.ostr 36), ro 0x204303 (.u 1)]

/-- Entries of 0x3000 to 0x30FF (Table 18.11). -/
def entries3 : List DEntry :=
  [ro 0x300000 (.i 4), rw 0x300001 (.u 1) 75 60 90, rw 0x300002 .f32 0x41000000 0 10000, rw 0x300003 .f32 0x3ECCCCCD 0 1000,
   ro 0x300004 (.u 2), rw 0x300005 (.u 2) 2000 0 0xFFFF, ro 0x300100 (.i 4), ro 0x300101 (.i 4), ro 0x300102 (.i 4),
   ro 0x300103 (.i 4), ro 0x300200 (.u 2), ro 0x300201 (.u 2), ro 0x300202 .bool, ro 0x301000 (.u 2), ro 0x301100 (.u 4),
   ro 0x301101 (.u 4), ro 0x301102 (.i 4), rw 0x302000 .f32 0x41C80000 100 10000, rw 0x302001 .f32 0x41C80000 100 10000,
   rw 0x302002 .f32 0x3E800000 1 1000, rw 0x302003 (.u 4) 0 0 (2 ^ 32), rw 0x302004 (.u 4) 5000 0 (2 ^ 32),
   ro 0x303001 (.u 1)] ++ (List.range 7).map (fun k => ro (0x302109 + k) (.i 4))

/-- Entries of 0x3100 to 0x3FFF (Table 12.5). -/
def entriesC : List DEntry :=
  [ro 0x310000 (.u 1), ro 0x310100 (.u 4), rw 0x310200 (.u 4) 300 100 5000, rw 0x310300 (.u 2) 200 150 400,
   { key := 0x310400, ty := .u 2, right := .const, who := mFZP }, rw 0x310500 (.u 1) 0 0 1,
   rw 0x310501 (.u 4) 40000 20000 60000, ro 0x310502 .f32, rw 0x310503 (.u 4) 0 0 10000000, ro 0x310504 .f32,
   rw 0x310505 (.u 4) 54000 20000 65000, rw 0x310600 (.u 2) 24 1 720, rw 0x310700 (.u 4) 6000 500 24000,
   rw 0x310800 (.u 4) 4096 0 262144, ro 0x310900 (.u 4), ro 0x310A00 (.u 4), rwA 0x310B00 (.u 1) 1 1 64,
   ro 0x311000 (.u 1), ro 0x311001 (.u 4), ro 0x311100 (.u 8)]

/-- Entries of 0x4000 to 0x5FFF (R469, R474, Table 17.15). -/
def entries4 : List DEntry :=
  [rwA 0x400100 (.u 1) 0 0 7, ro 0x400101 .domain, ro 0x400200 (.u 4),
   rw 0x500000 (.u 4) 3600 60 86400, ro 0x500100 (.u 4), rw 0x500200 (.u 1) 0 0 1, ro 0x500300 (.u 4), ro 0x500301 (.u 4),
   ro 0x500400 (.u 4), ro 0x500401 (.u 4), rwA 0x501000 (.u 4) 0 0 (2 ^ 32), ro 0x501001 .domain]

/-- Entries of the zones (Table 19.10). -/
def entries6 : List DEntry :=
  (List.range 16).flatMap (fun z =>
    let k := 256 * (0x6000 + z)
    [ro k (.u 1), ro (k + 1) (.u 8), ro (k + 2) (.u 2), ro (k + 3) (.u 2), ro (k + 4) .bool])

/-- Entries of 0x7000 to 0x8FFF (chapter 11, Table 13.22). -/
def entries7 : List DEntry :=
  [rw 0x700100 (.u 1) 0 0 2, rwA 0x701000 (.u 2) 250 0 0xFFFF, { key := 0x701100, ty := .u 2, right := .rw, who := [.P] },
   rwA 0x702000 (.u 2) 24 0 0xFFFF, rwA 0x702100 (.u 4) 4000 100 51200,
   rw 0x800001 (.u 2) 0 0 0xFFFF, rwA 0x800101 (.u 4) 200 50 10000, rwA 0x800102 (.u 4) 100 20 10000,
   rw 0x800103 (.u 2) 1 1 1000, rw 0x800104 (.u 2) 60 0 0xFFFF, rw 0x800105 (.u 2) 10 0 0xFFFF, ro 0x800200 (.u 2)] ++
  (List.range 7).map (fun k => ro (0x801000 + k) (.u 8)) ++ [wo 0x802000 (.u 1) mFZP 15, wo 0x802100 .bool mFP 1]

/-- A limited-change setting (Table 16.18). -/
def rwc (key : Nat) (ty : DType) (lo hi : Nat) : DEntry := { key := key, ty := ty, right := .rwc, who := mFP, lo := lo, hi := hi }

/-- Entries of the limited-change settings (Table 16.18). -/
def entriesA : List DEntry :=
  [rwc 0xA00100 (.u 1) 1 16, ro 0xA00101 (.u 1), rwc 0xA00300 (.u 1) 1 64, ro 0xA00301 (.u 1),
   wo 0xA01000 (.u 1) mFP 15, ro 0xA01001 (.u 1), rwc 0xA02000 (.ostr 48) 0 (2 ^ 384), ro 0xA02001 (.u 1)] ++
  (List.range 16).map (fun k => ro (0xA00201 + k) (.u 8)) ++ (List.range 16).map (fun k => ro (0xA00401 + k) (.u 8))

/-- Every entry from M0 onwards. -/
def allEntries : List DEntry :=
  entries1 ++ entries2 ++ entries3 ++ entriesC ++ entries4 ++ entries6 ++ entries7 ++ entriesA

/-- The entry of a number. -/
def entryOf (key : Nat) : Option DEntry := allEntries.find? (fun e => e.key == key)

/-- Does an index have an entry? -/
def indexExists (idx : Nat) : Bool := allEntries.any (fun e => e.key / 256 == idx)

/-- Bytes of a type of fixed size. -/
def DType.size : DType → Option Nat
  | .bool => some 1
  | .u n => some n
  | .i n => some n
  | .f32 => some 4
  | .ostr n => some n
  | .vstr => none
  | .domain => none

/- Reads. -/

/-- binary32 encoding of a value not below 0. -/
def ratF32 (r : Rat) : Nat := binEnc 8 23 (-149) (roundTo f32 0 false r.num.toNat r.den 0).1

/-- Values of 0x1000 to 0x2FFF. -/
def num12 (s : State) (key : Nat) : Nat :=
  match key with
  | 0x100003 => s.mgmt.mgmtVer.toNat
  | 0x100004 => Config.ceFwVersion.toNat
  | 0x100005 => s.mgmt.imgId.toNat
  | 0x100006 => s.mgmt.straps.toNat
  | 0x100007 => s.mgmt.bootEvent
  | 0x200000 => (s.md.mode.map modeCode).getD 0xFF
  | 0x200200 => (s.md.prev.map modeCode).getD 0
  | 0x200300 => s.md.cause
  | 0x201000 => s.mgmt.active.toNat
  | 0x201001 => s.mgmt.failovers
  | 0x201100 => s.mgmt.k3.length
  | 0x201101 => s.mgmt.refusals
  | 0x201102 => s.mgmt.overruns
  | 0x201103 => s.mgmt.missed
  | 0x204000 => s.md.unchecked.toNat
  | 0x204100 => s.spc.goodPu.toNat
  | 0x204101 => s.spc.goodCe.toNat
  | 0x204300 => s.spc.spareSet.toNat
  | 0x204301 => s.spc.failedSet.toNat
  | 0x204303 => s.mgmt.active.toNat
  | _ => 0

/-- Values of 0x3000 to 0x3FFF. -/
def num3 (s : State) (key : Nat) : Nat :=
  match key with
  | 0x300000 => usgn 32 s.plant.hottest
  | 0x300004 => (List.range 48).foldl (fun m n => Nat.min m (tget puMax s.plant.thermCeil n)) puMax
  | 0x300100 => usgn 32 (tget 0 s.plant.rtd 0)
  | 0x300101 => usgn 32 (tget 0 s.plant.rtd 1)
  | 0x300102 => usgn 32 (tget 0 s.plant.rtd 2)
  | 0x300103 => usgn 32 (tget 0 s.plant.rtd 3)
  | 0x300200 => floorNat (100 * s.plant.u)
  | 0x300201 => floorNat (100 * s.plant.pos)
  | 0x300202 => s.plant.deviation.toNat
  | 0x301000 => s.plant.power
  | 0x301100 => usgn 32 (busMilli s)
  | 0x301101 => usgn 32 (storeMilli s)
  | 0x301102 => usgn 32 (currentMilli s)
  | 0x310000 => s.plant.budget
  | 0x310100 => floorNat s.plant.eUsable
  | 0x310400 => 60
  | 0x310502 => ratF32 s.plant.capC
  | 0x310504 => ratF32 s.plant.health
  | 0x310900 => dirtyCount s
  | 0x310A00 => s.commit.queue.length
  | 0x311000 => s.md.lastRestore
  | 0x311001 => s.md.restoreBad
  | 0x311100 => s.md.lastIndex
  | _ => if 0x302109 ≤ key ∧ key ≤ 0x30210F then usgn 32 (adcMean s (key % 256)).floor else s.entry 0x3030 1 0

/-- Values of a zone's entries (Table 19.10); a zone at or above Zc reads 0. -/
def num6 (s : State) (key : Nat) : Nat :=
  let z := key / 256 % 16
  let x := s.zone z
  if s.zc ≤ z then 0
  else match key % 256 with
    | 0 => lcCode (s.lcs (.zone (Fin.ofNat 16 z)))
    | 1 => x.pus.toNat
    | 2 => x.lost
    | 3 => x.irqDisc
    | _ => x.fault.toNat

/-- Values of the channel counters and of the epoch in the unit-0 header (Table 13.22). -/
def num8 (s : State) (key : Nat) : Nat :=
  match key with
  | 0x800200 => beAt (s.rd 0x30A0000 2) 0 2
  | 0x801000 => s.chan.refused
  | 0x801001 => s.chan.discarded
  | 0x801002 => s.chan.redriven
  | 0x801003 => s.chan.dups
  | 0x801004 => s.chan.unwritten
  | 0x801005 => s.chan.waited
  | _ => s.chan.lostCompl

/-- Values of the limited-change settings and their records (R453). -/
def numA (s : State) (key : Nat) : Nat :=
  match key with
  | 0xA00100 => s.lim.zc
  | 0xA00101 => s.lim.zcLeft
  | 0xA00300 => s.lim.maxCommit
  | 0xA00301 => s.lim.mcLeft
  | 0xA01001 => s.lim.enrolLeft
  | 0xA02000 => s.lim.root.toNat
  | 0xA02001 => s.lim.rootLeft
  | _ =>
    if key / 256 = 0xA002 then (s.lim.zcRec.getD (key % 256 - 1) 0).toNat else (s.lim.mcRec.getD (key % 256 - 1) 0).toNat

/-- Number that an entry of fixed size holds. The last record's number before any is written, and the
previous mode before any, are free values. -/
def entryNum (e : DEntry) (s : State) : Nat × State :=
  if e.right = .rw then (s.entry (e.key / 256) (e.key % 256) e.dflt, s)
  else if e.key = 0x200200 ∧ s.md.prev.isNone then let (v, s) := s.draw 8; (v.toNat, s)
  else match e.key / 2 ^ 20 with
    | 1 => (num12 s e.key, s)
    | 2 => (num12 s e.key, s)
    | 3 => (num3 s e.key, s)
    | 4 => (s.outs.gate.toNat, s)
    | 5 =>
      match e.key with
      | 0x500100 => if s.encke.next = 0 then let (v, s) := s.draw 32; (v.toNat, s) else (s.encke.next - 1, s)
      | 0x500300 => (s.encke.deferrals, s)
      | 0x500301 => (s.encke.merges, s)
      | 0x500400 => (s.encke.opSecs / 3600, s)
      | _ => (s.encke.cycles, s)
    | 6 => (num6 s e.key, s)
    | 8 => (num8 s e.key, s)
    | _ => (numA s e.key, s)

/-- Part of a DOMAIN at an offset. -/
def domPart (l : List Byte) (off : Nat) : List Byte := (l.drop off).take 4096

/-- Byte of the role record for an engine (0x2043:02). -/
def roleByte (s : State) (n : Nat) : Byte :=
  BitVec.ofNat 8 ((s.ce n).le.toNat + 128 * (s.spc.failedCe.getLsbD n).toNat)

/-- What a permitted read answers: abort code, data, state (R494). -/
def entryRead (e : DEntry) (off : Nat) (s : State) : Nat × List Byte × State :=
  match e.ty with
  | .vstr => (0, if e.key = 0x100000 then [0x56, 0x42, 0x2D, 0x37, 0x37, 0x32, 0x30] else [0x42, 0x31], s)
  | .domain =>
    if off % 4096 ≠ 0 then (0x06070010, [], s)
    else if e.key = 0x400101 then
      match tget [] s.encke.chkSlots (s.entry 0x4001 0 0) with
      | [] => (0x08000024, [], s)
      | l => (0, domPart l off, s)
    else match heldRec s (s.entry 0x5010 0 0) with
      | none => (0x08000024, [], s)
      | some r => (0, domPart (enckeBytes r) off, s)
  | t =>
    if e.key = 0x100002 then (0, toBe 16 Config.serialNumber.toNat, s)
    else if e.key = 0x204302 then (0, (List.range 36).map (roleByte s), s)
    else
      let (v, s) := entryNum e s
      (0, toBe (t.size.getD 0) v, s)

/- Limited-change settings. -/

/-- A record entry (R453): value and operating hours. -/
def limRecord (s : State) (v : Nat) : Word := mkw [(48, v), (0, s.encke.opSecs / 3600 % 2 ^ 32)]

/-- Zone count (R49, R454, R455); fused: the completion fuse is blown before power can fail. -/
def setZc (v : Nat) (fused : Bool) (s : State) : Nat × State :=
  let l := s.lim
  if !(v == 1 || v == 2 || v == 4 || v == 8 || v == 16) then (0x06090030, s)
  else if !s.inMode [.provision] then (0x08000022, s)
  else if v = l.zc then (0, s)
  else if l.zcLeft = 0 then (0x08000022, s)
  else if fused then (0, { s with lim := { l with zc := v, zcLeft := l.zcLeft - 1, zcRec := l.zcRec ++ [limRecord s v] } })
  else (0x08000000, { s with lim := { l with zcLeft := l.zcLeft - 1 } })

/-- Maximum commit size (R49, R454, R455): not below the size of the valid image in flash. -/
def setMaxCommit (v : Nat) (fused : Bool) (s : State) : Nat × State :=
  let l := s.lim
  let image := (restoreChain s.commit.log).foldl (fun m e => Nat.max m e.2.2.1) 0
  if v < 1 ∨ 64 < v then (0x06090030, s)
  else if !s.inMode [.provision] then (0x08000022, s)
  else if v = l.maxCommit then (0, s)
  else if v < image then (0x08000022, s)
  else if l.mcLeft = 0 then (0x08000022, s)
  else if fused then
    (0, { s with lim := { l with maxCommit := v, mcLeft := l.mcLeft - 1, mcRec := l.mcRec ++ [limRecord s v] } })
  else (0x08000000, { s with lim := { l with mcLeft := l.mcLeft - 1 } })

/-- Control-store signing root (R49, R454, R455). -/
def setRoot (v : BitVec 384) (fused : Bool) (s : State) : Nat × State :=
  let l := s.lim
  if !s.inMode [.provision] then (0x08000022, s)
  else if v = l.root then (0, s)
  else if l.rootLeft = 0 then (0x08000022, s)
  else if fused then (0, { s with lim := { l with root := v, rootLeft := l.rootLeft - 1 } })
  else (0x08000000, { s with lim := { l with rootLeft := l.rootLeft - 1 } })

/-- Enrolment of a zone master key (R406): the module DRBG draws the key, and without it the owner fails to act (R419). -/
def enrolKey (z : Nat) (fused : Bool) (s : State) : Nat × State :=
  let l := s.lim
  if 15 < z then (0x06090030, s)
  else if !s.inMode [.provision] then (0x08000022, s)
  else if l.enrolLeft = 0 then (0x08000022, s)
  else if !s.crypto.entropy || !islandUp s .crypto then (0x08000000, s)
  else
    let s := { s with lim := { l with enrolLeft := l.enrolLeft - 1 } }
    if !fused then (0x08000000, s)
    else
      let (k, s) := s.draw 256
      let keys := tupd {} s.crypto.keys z (fun x => { cur := some k, prev := x.cur, gen := x.gen + 1 })
      (0, { s with crypto := { s.crypto with keys := keys, savedKeys := keys, modSeed := false } })

/- Writes. -/

/-- Is the flash controller ON, so that a write is stored before its response (R495)? -/
def flashOn (s : State) : Bool := s.mainOn && islandUp s .flash

/-- An RW entry takes its value, in flash too while the controller is ON (R495). -/
def storeEntry (key v : Nat) (s : State) : State :=
  let s := s.setEntry (key / 256) (key % 256) v
  if flashOn s then { s with mgmt := { s.mgmt with stored := storable s.mgmt.dict } } else s

/-- Both controllers rejoin, A before B, at the rates of 0x1001:01 and 0x1001:02 (R498). -/
def applyRates (s : State) : State :=
  { s with mgmt := { s.mgmt with arb := s.entry 0x1001 1 0, dataRate := s.entry 0x1001 2 2000 } }

/-- A proving run on command in M3 to M5 (R281). -/
def proveOn (r : State → Bool × State) (s : State) : Nat × State :=
  if !s.inMode [.run, .degraded, .service] then (0x08000022, s)
  else match r s with
    | (true, s) => (0, s)
    | (false, s) => (0x08000022, s)

/-- What a permitted write of a value other than a mode request does: abort code and state (R493, R494). The module waits
in M1 no longer where provision hold or service permission that kept it there ends (R50, R537). -/
def entryWrite (e : DEntry) (v : Nat) (s : State) : Nat × State :=
  match e.key with
  | 0x100103 => (0, if v = 1 then applyRates s else s)
  | 0x200402 => (0, takeRequest (leaveProvision false (storeEntry e.key v s)))
  | 0x203000 => (0, takeRequest (leaveProvision false (storeEntry e.key v s)))
  | 0x204200 => proveOn (provePu (Fin.ofNat 48 v)) s
  | 0x204201 => proveOn (proveCe (Fin.ofNat 36 v)) s
  | 0x204202 => (0, if v = 1 then { s with mgmt := { s.mgmt with standbyRun := true } } else s)
  | 0x802000 => (0, abandonHeld v s)
  | 0x802100 => if s.mainOn then (0, if v = 1 then clearDoubt s else s) else (0x08000022, s)
  | 0xA00100 => setZc v true s
  | 0xA00300 => setMaxCommit v true s
  | 0xA01000 => enrolKey v true s
  | 0xA02000 => setRoot (BitVec.ofNat 384 v) true s
  | _ => (0, storeEntry e.key v s)

/-- Does a value lie in an entry's range? -/
def inRange (s : State) (e : DEntry) (v : Nat) : Bool :=
  match e.ty with
  | .f32 => nbits 30 23 v != 255 && decide ((e.lo : Rat) / 100 ≤ f32Rat v) && decide (f32Rat v ≤ (e.hi : Rat) / 100)
  | .bool => decide (v ≤ 1)
  | _ =>
    decide (e.lo ≤ v) && decide (v ≤ e.hi) &&
    match e.key with
    | 0x100102 => v % 1000 == 0
    | 0x101000 => v == 0 || decide (10 ≤ v)
    | 0x310501 => decide (1000 + v ≤ s.entry 0x3105 5 54000)
    | 0x310505 => decide (1000 + s.entry 0x3105 1 40000 ≤ v)
    | 0x310B00 => decide (v ≤ s.lim.maxCommit)
    | 0x800105 => decide (2 * v < s.entry 0x8001 2 100)
    | 0xA00100 => v == 1 || v == 2 || v == 4 || v == 8 || v == 16
    | _ => true

/-- The checks of R493, steps 1 to 3, for an operation: the entry, or the abort code. -/
def dictCheck (p : Principal) (r : DictReq) : Except Nat DEntry :=
  let idx := r.index.toNat
  if 0xF000 ≤ idx then .error (if p = .P then 0x06020000 else 0x06010010)
  else if !indexExists idx then .error 0x06020000
  else match entryOf (256 * idx + r.sub.toNat) with
    | none => .error 0x06090011
    | some e =>
      if !e.who.contains p then .error 0x06010010
      else if r.write then
        (match e.right with
         | .ro => .error 0x06010002
         | .const => .error 0x06010002
         | _ => .ok e)
      else (match e.right with
        | .wo => .error 0x06010001
        | _ => .ok e)

/-- A dictionary request of a principal, checked and applied (R493, R494): abort code, data, state. No code: the mode
request of item i has been answered or waits (R34). -/
def dictRequest (p : Principal) (r : DictReq) (i : Option K3Item) (s : State) : Option Nat × List Byte × State :=
  match dictCheck p r with
  | .error c => (some c, [], s)
  | .ok e =>
    if !r.write then
      let (c, d, s) := entryRead e r.offset s
      (some c, d, s)
    else if e.ty.size ≠ some r.data.length then (some 0x06070010, [], s)
    else if !inRange s e (ofBe r.data) then (some 0x06090030, [], s)
    else if e.key = 0x200100 then (none, [], takeRequest (modeRequest p (ofBe r.data) i s))
    else
      let (c, s) := entryWrite e (ofBe r.data) s
      (some c, [], s)

/-- A mailbox other than 0 reaches only reads of 0x1000 entries that Z may use (R496). -/
def boxAllowed (z : Fin 16) (r : DictReq) : Bool :=
  z.val == 0 || (r.index.toNat / 4096 == 1 && !r.write && (match dictCheck .Z r with
    | .ok _ => true
    | .error _ => false))

/-- Does the active processor answer the dictionary: from M0 on, and not during a failover (R29, R290)? -/
def dictUp (s : State) : Bool := s.md.mode.isSome && !s.mgmt.bothDown

/-- A local request or an action of one entry, with its answer kept; it waits as a whole for the lines that it works on
(R221). -/
def dictAnswered (p : Principal) (r : DictReq) (s : State) : State :=
  if !dictUp s then s
  else orWait (fun s => match dictRequest p r none s with
    | (some c, d, s) => { s with resp := .dict (BitVec.ofNat 32 c) d }
    | (none, _, s) => s) s

/-- A write of one number. -/
def wr1 (idx sub n v : Nat) : DictReq :=
  { index := BitVec.ofNat 16 idx, sub := BitVec.ofNat 8 sub, offset := 0, write := true, data := toBe n v }

end Sys2Proof.Machine
end

