-- ==== Sys2Proof/Machine/MgmtRows.lean ====
section
/-! DEFINITION. K0 and the failover of the management pair, K3, the field network, time references and the TAP
(chapters 2, 18 and 20). -/

namespace Sys2Proof.Machine

/- K0. -/

/-- Highest class that a block has latched or counted. -/
def blkClass (f : FaultRegs) : Nat := Nat.max (if f.valid then f.cls else 0) (if f.ovf then f.maxCls else 0)

/-- Endpoint records of the table in unit 0 that are not all zero. -/
def listedEps (s : State) : List Ep :=
  ((s.mem.filter (fun c => decide (0x2000000 ≤ c.1) && decide (c.1 < 0x3000000))).map (fun c => (c.1 - 0x2000000) / 256)).eraseDups.filterMap
    (fun n => epOf s (s.rd (0x2000000 + 256 * n) 256))

/-- Zones whose resources a fault of a block concerns (R439): a PU of the zone, a slice of its share, a path of one of
its endpoints. -/
def concerned (s : State) (b : Blk) (f : FaultRegs) : List (Fin 16) :=
  let sliceZone := if f.inst.toNat < 16 ∧ s.zc ≠ 0 then [Fin.ofNat 16 (f.inst.toNat / (16 / s.zc))] else []
  match b with
  | .pu n =>
    match s.puZone n with
    | some z => [z]
    | none => (s.spc.drains.filter (fun d => d.1 == n.val)).filterMap (fun d => d.2.map (fun z => Fin.ofNat 16 z))
  | .crypto => if f.cls = 2 then sliceZone else []
  | .comp => if f.cls = 2 then sliceZone else []
  | .lg g =>
    let link := g.val * 64 + f.inst.toNat
    (((listedEps s).filter (fun e => e.paths.any (fun p => p.1 && p.2 == link))).map (fun e => Fin.ofNat 16 e.zone)).eraseDups
  | _ => []

/-- The fault notice of a zone, where EN is 1 (R439). -/
def faultNotice (z : Fin 16) (s : State) : State :=
  let w := (s.zone z).faultIrq
  if bit 0 w then routeIrq z { thread := fld 54 48 w, vector := fld 41 32 w, prio := BitVec.ofNat 4 (fld 31 28 w) } s else s

/-- K0 services one block (R488, R439, R503): its registers clear, FSTAT before FOVF; NOTICE from class C2 on. -/
def serviceBlk (b : Blk) (s : State) : State :=
  let f := s.flt b
  let c := blkClass f
  let s := faultWrite b 0x108 (BitVec.twoPow 64 63) (faultWrite b 0x100 (BitVec.twoPow 64 63) s)
  let s := if 2 ≤ c then notice (toBe 2 f.source.toNat ++ toBe 1 f.inst.toNat ++ toBe 1 f.cls) s else s
  if f.valid && f.cls ≤ 2 then (concerned s b f).foldl (fun s z => faultNotice z s) s else s

/-- Blocks with an asserted line, C4 first, each class in ascending kind and instance; those that the last cycle left
come first (R488). -/
def serviceOrder (s : State) : List Blk :=
  let up := allBlks.filter (lineAsserted s)
  let left := s.mgmt.k0Rest.filter (fun b => up.contains b)
  left ++ ([4, 3, 2, 1].flatMap (fun c => up.filter (fun b => blkClass (s.flt b) == c && !left.contains b)))

/-- A C1 source that came more than 100 times in a second is masked (R488). -/
def maskStorms (s : State) : State :=
  allBlks.foldl (fun (s : State) b =>
    (List.range 32).foldl (fun (s : State) i =>
      let k := stormKey b i
      if tget 0 s.mgmt.stormCnt k ≤ 100 || !maskable (blkKind b) (s.flt b) i then s
      else
        let s := s.updFlt b (fun f => { f with mask := f.mask ||| BitVec.twoPow 32 i })
        { s with mgmt := { s.mgmt with stormCnt := tset 0 s.mgmt.stormCnt k 0, stormMask := s.mgmt.stormMask ++ [(b, i)] } }) s) s

/-- The kick of every fifth cycle, if its conditions hold (R486, R489). -/
def kick (s : State) : State :=
  if s.mgmt.k0Count < 5 then s
  else
    let s := { s with mgmt := { s.mgmt with k0Count := 0 } }
    let k1 := decide (s.now ≤ msUnits 250 + s.mgmt.k1At.toNat)
    if s.mgmt.k0Ok && k1 then
      let n := s.mgmt.active.toNat
      let s := wdogWrite n { master := BitVec.ofNat 8 (0x78 + n), th := false, zone := none } (nextKick (activeWdog s)) s
      { s with mgmt := { s.mgmt with k0Ok := true } }
    else s

/-- Blocks are serviced in order. -/
def serviceList (l : List Blk) (s : State) : State := l.foldl (fun s b => serviceBlk b s) s

/-- What a K0 cycle leaves in the loop's own state: the blocks that wait for the next cycle, and its checks. -/
def k0Counts (micros : Nat) (memError : Bool) (rest : List Blk) (s : State) : State :=
  { s with mgmt := { s.mgmt with
    k0Rest := rest, lcIrq := [], k0Count := s.mgmt.k0Count + 1
    k0Ok := s.mgmt.k0Ok && decide (micros ≤ 1000) && !memError
    overruns := s.mgmt.overruns + (decide (400 < micros)).toNat } }

/-- K0_CYCLE (R487 to R489): a cycle that took so many µs; memError: management memory reported an uncorrectable error. -/
def execK0Cycle (micros : Nat) (memError : Bool) (s : State) : Host.Outcome State Fault Refusal :=
  .next (if !dictUp s then s
    else
      after (kick (maskStorms (extAdd 13 micros (histAdd 14 (binLog micros) 1
        (k0Counts micros memError ((serviceOrder s).drop 48) (serviceList ((serviceOrder s).take 48) s)))))))

/-- FAULT_STORM_UNMASK (R488). -/
def execFaultStormUnmask (b : Blk) (src : Fin 32) (s : State) : Host.Outcome State Fault Refusal :=
  .next (if s.mgmt.stormMask.contains (b, src.val) then
      let s := s.updFlt b (fun f => { f with mask := f.mask &&& ~~~(BitVec.twoPow 32 src) })
      { s with mgmt := { s.mgmt with stormMask := s.mgmt.stormMask.filter (· != (b, src.val)) } }
    else s)

/-- K3 items at the expiry are discarded (R491, R497): window commands end with 0x0800_0021, frames are unanswered. -/
def discardK3 (s : State) : State :=
  let s := s.mgmt.k3.foldl (fun (s : State) i => match i.src with
    | .window z => countRefusal (s.updBox z (fun m => { m with done := true, busy := false, rlen := 0, abort := 0x08000021 }))
    | .can _ _ => s) s
  { s with mgmt := { s.mgmt with k3 := [], transfers := s.mgmt.transfers.filter (fun t => t.served) } }

/-- The standby recomputes the hashes of the held images (R485): on a mismatch the held copy is discarded and the image is
verified again from flash; one that no longer verifies is recorded as in M1 (R129, R344). -/
def recheckImages (csHash ceHash : BitVec 384) (csAgain : Option (Bool × CsImage)) (ceAgain : Option (BitVec 384))
    (s : State) : State :=
  let inst := s.mgmt.active.toNat
  let cs := csAgain.filter (fun c => c.2.b1)
  let s := if !s.mgmt.imgHeld || csHash == s.mgmt.imgHash then s
    else
      let s := { s with mgmt := holdImage cs s.mgmt }
      if cs.isSome then s else latch .mgt 9 inst 0 2 s
  if !s.mgmt.ceFwHeld || ceHash == s.mgmt.ceFwHash then s
  else
    let s := { s with mgmt := holdFirmware ceAgain s.mgmt }
    if ceAgain.isSome then s else latch .mgt 10 inst 0 2 s

/-- K1 resumes (R491 step 3): from the loop state where its checksum verifies, else with the integrator that makes the valve
command equal to the measured position. -/
def resumeK1 (loopOk : Bool) (s : State) : State :=
  let s := { s with mgmt := { s.mgmt with k1At := s.tb.tod } }
  if loopOk then s
  else { s with plant := { s.plant with
    integ := s.plant.pos - loopGain s 2 0x41000000 * loopError s, u := s.plant.pos } }

/-- STANDBY_TAKEOVER (R284, R289, R485, R491): the standby, powered and not fenced, takes the active role and does its five
steps in order; the images in management memory are checked before anything uses them. -/
def execStandbyTakeover (csHash ceHash : BitVec 384) (csAgain : Option (Bool × CsImage)) (ceAgain : Option (BitVec 384))
    (loopOk : Bool) (s : State) : Host.Outcome State Fault Refusal :=
  .next (let n : Fin 2 := if s.mgmt.active then 0 else 1
    if !s.mgmt.bothDown || islandFenced s (.mgmt n) then s
    else
      let s := s.updIsland (.mgmt n) (fun x => { x with power := true })
      let m := s.mgmt
      let fresh := fun (w : Wdog) => { w with expired := false, lastKick := none }
      let s := { s with mgmt := { m with
        active := !m.active, bothDown := false, failovers := satAdd 0xFFFF m.failovers 1, k0Count := 0, k0Ok := true, k0Rest := []
        wdog0 := if n = 0 then fresh m.wdog0 else m.wdog0, wdog1 := if n = 0 then m.wdog1 else fresh m.wdog1 } }
      let s := recheckImages csHash ceHash csAgain ceAgain s
      let s := (serviceOrder s).foldl (fun s b => serviceBlk b s) s
      let s := if s.inMode [.holdup] && (s.commit.phase == 6 || s.commit.phase == 7) then enterCold 0x11 s else s
      after (discardK3 (rearm (BitVec.twoPow 20 19) (resumeK1 loopOk s))))

/- K3. -/

/-- Words of DATA with bytes from byte 0 (R497). -/
def boxPut (d : List Byte) (m : Mailbox) : Tbl Word :=
  let k := (d.length + 7) / 8
  let l := d ++ (boxBytes m (8 * k)).drop d.length
  (List.range k).foldl (fun (t : Tbl Word) i => tset 0 t i (BitVec.ofNat 64 (beAt l (8 * i) 8))) m.data

/-- A client's open transfer on a bus. -/
def openXfer (s : State) (busB : Bool) (c : BitVec 7) : Option Transfer :=
  s.mgmt.transfers.find? (fun t => t.busB == busB && t.client == c)

/-- A client's transfer is replaced. -/
def setXfer (t : Transfer) (s : State) : State :=
  let s := dropXfer t.busB t.client s
  { s with mgmt := { s.mgmt with transfers := s.mgmt.transfers ++ [t] } }

/-- READ_RSP (Table 18.9). -/
def readRsp (busB : Bool) (c : BitVec 7) (r : DictReq) (flags code : Nat) (len : Nat) (d : List Byte) (s : State) : State :=
  canSend 0x05 4 c.toNat false (xferHead r flags ++ toBe 4 code ++ toBe 4 len ++ d) busB s

/-- ABORT (R502): the module ends a transfer. -/
def sendAbort (busB : Bool) (c : BitVec 7) (head : List Byte) (code : Nat) (s : State) : State :=
  dropXfer busB c (canSend 0x0A 4 c.toNat false (fit 4 head ++ toBe 4 code) busB s)

/-- The answer to a K3 item on the transport it came by (R494, R497, R501). -/
def answerItem (i : K3Item) (code : Nat) (d : List Byte) (s : State) : State :=
  match i.src with
  | .window z => (answerWait i.since s).updBox z (fun m => { m with
      done := true, busy := false, rlen := BitVec.ofNat 13 d.length, abort := BitVec.ofNat 32 code, data := boxPut d m })
  | .can busB c =>
    if i.req.write then writeAnswer i code s
    else if d.length ≤ 52 then readRsp busB c i.req 0 code d.length d (dropXfer busB c (answerWait i.since s))
    else
      let t : Transfer := { busB := busB, client := c, req := i.req, total := d.length, data := d.drop 52, next := 1, served := true }
      readRsp busB c i.req 2 0 d.length (d.take 52) (setXfer t (answerWait i.since s))

/-- K3 serves the item at the front of its queue, if it is a write or a read as wanted (R490, R494, R496). -/
def serveFirst (write : Bool) (s : State) : State :=
  match s.mgmt.k3 with
  | [] => s
  | i :: rest =>
    if i.req.write != write || !dictUp s then s
    else
      let s := { s with mgmt := { s.mgmt with
        k3 := rest, k3At := s.tb.tod, k3Log := k3Recent s ++ [(s.tb.tod, s.now - s.mgmt.k3At.toNat)] } }
      let (ok, keep) := match i.src with
        | .window z => (boxAllowed z i.req, s.resp)
        | .can _ _ => (true, s.resp)
      let (c, d, s) := if ok then dictRequest i.who i.req (some i) s else (some 0x06010010, [], s)
      let s := { s with resp := keep }
      match c with
      | some c => answerItem i c d s
      | none => s

/-- K3 serves an item as a whole, or the item waits for the lines that it works on (R221). -/
def serveK3 (write : Bool) (s : State) : State := orWait (serveFirst write) s

/-- DICT_READ (R490, R494): the item at the front, or a local request of a principal. -/
def execDictRead (loc : Option (Principal × DictReq)) (s : State) : Host.Outcome State Fault Refusal :=
  .next (match loc with
    | none => serveK3 false s
    | some (p, r) => dictAnswered p { r with write := false, data := [] } s)

/-- DICT_WRITE (R494, R495). -/
def execDictWrite (loc : Option (Principal × DictReq)) (s : State) : Host.Outcome State Fault Refusal :=
  .next (match loc with
    | none => serveK3 true s
    | some (p, r) => dictAnswered p { r with write := true } s)

/-- PROVING_RUN_PU (R281): a write to 0x2042:00. -/
def execProvingRunPu (p : Principal) (n : BitVec 8) (s : State) : Host.Outcome State Fault Refusal :=
  .next (dictAnswered p (wr1 0x2042 0 1 n.toNat) s)

/-- PROVING_RUN_CE (R281): a write to 0x2042:01. -/
def execProvingRunCe (p : Principal) (n : BitVec 8) (s : State) : Host.Outcome State Fault Refusal :=
  .next (dictAnswered p (wr1 0x2042 1 1 n.toNat) s)

/-- PROVING_RUN_DEIMOS (R291): a write to 0x2042:02. -/
def execProvingRunDeimos (p : Principal) (v : BitVec 8) (s : State) : Host.Outcome State Fault Refusal :=
  .next (dictAnswered p (wr1 0x2042 2 1 v.toNat) s)

/-- APPLY_BUS_RATES (R498): a write to 0x1001:03. -/
def execApplyBusRates (p : Principal) (v : BitVec 8) (s : State) : Host.Outcome State Fault Refusal :=
  .next (dictAnswered p (wr1 0x1001 3 1 v.toNat) s)

/-- ABANDON_HELD_EXCHANGES (R375): a write to 0x8020:00. -/
def execAbandonHeldExchanges (p : Principal) (z : BitVec 8) (s : State) : Host.Outcome State Fault Refusal :=
  .next (dictAnswered p (wr1 0x8020 0 1 z.toNat) s)

/-- CLEAR_IN_DOUBT (R369): a write to 0x8021:00. -/
def execClearInDoubt (p : Principal) (v : BitVec 8) (s : State) : Host.Outcome State Fault Refusal :=
  .next (dictAnswered p (wr1 0x8021 0 1 v.toNat) s)

/-- A limited-change write by a principal: F and P may make it (R453). -/
def limWrite (p : Principal) (f : State → Nat × State) (s : State) : State :=
  if !dictUp s then s
  else
    let (c, s) := if mFP.contains p then f s else (0x06010010, s)
    { s with resp := .dict (BitVec.ofNat 32 c) [] }

/-- MASTER_KEY_ENROLMENT (R406). -/
def execMasterKeyEnrolment (p : Principal) (z : BitVec 8) (fused : Bool) (s : State) : Host.Outcome State Fault Refusal :=
  .next (limWrite p (enrolKey z.toNat fused) s)

/-- ZONE_COUNT_CHANGE (R453 to R456). -/
def execZoneCountChange (p : Principal) (v : BitVec 8) (fused : Bool) (s : State) : Host.Outcome State Fault Refusal :=
  .next (limWrite p (setZc v.toNat fused) s)

/-- MAX_COMMIT_SIZE_CHANGE (R453 to R455). -/
def execMaxCommitSizeChange (p : Principal) (v : BitVec 8) (fused : Bool) (s : State) : Host.Outcome State Fault Refusal :=
  .next (limWrite p (setMaxCommit v.toNat fused) s)

/-- SIGNING_ROOT_CHANGE (R453 to R455). -/
def execSigningRootChange (p : Principal) (root : BitVec 384) (fused : Bool) (s : State) : Host.Outcome State Fault Refusal :=
  .next (limWrite p (setRoot root fused) s)

/- Field network. -/

/-- Does a controller take part on its bus (R29, R498)? -/
def onBus (s : State) (busB : Bool) : Bool :=
  s.mgmt.straps != 0 && (if busB then s.mgmt.joinedB else s.mgmt.joinedA) && !s.mgmt.bothDown && (s.md.mode.isSome || s.md.recovery)

/-- A frame that the module acts on (R499, R500): well formed, from a node, to its node ID, or broadcast where bc. -/
def heard (s : State) (f : CanFrame) (bc : Bool) : Bool :=
  onBus s f.busB && f.low == 0 && f.src != 0 && (f.dst == s.mgmt.straps || (bc && f.dst == 0))

/-- A CAN FD transfer frame that the module acts on. -/
def heardFd (s : State) (f : CanFrame) : Bool := heard s f false && !f.classic

/-- Flag bit i of a transfer frame. -/
def xferFlag (f : CanFrame) (i : Nat) : Bool := beAt f.data 3 1 / 2 ^ i % 2 == 1

/-- Request of an opening frame: index, subindex and offset. -/
def xferReq (f : CanFrame) (write : Bool) (off : Nat) (d : List Byte) : DictReq :=
  { index := BitVec.ofNat 16 (beAt f.data 0 2), sub := BitVec.ofNat 8 (beAt f.data 2 1), offset := off, write := write, data := d }

/-- An opening item joins the K3 queue, behind its transfer (R490, R502). -/
def queueXfer (f : CanFrame) (r : DictReq) (s : State) : State :=
  let t : Transfer := { busB := f.busB, client := f.src, req := r, total := r.data.length, data := [], next := 0, served := false }
  let s := setXfer t s
  k3Join { src := .can f.busB f.src, who := .F, req := r } s

/-- DISCOVER (R500, R29). -/
def execDiscover (f : CanFrame) (s : State) : Host.Outcome State Fault Refusal :=
  .next (if !heard s f true then s
    else
      let d := toBe 1 s.mgmt.straps.toNat ++ [0x42, 0x31] ++ toBe 1 ((s.md.mode.map modeCode).getD 0xFF) ++
        toBe 1 s.mgmt.active.toNat ++ [0, 0, 0]
      let id := 2 ^ 26 * 6 + 2 ^ 20 * 2 + 2 ^ 13 * s.mgmt.straps.toNat + 2 ^ 6 * f.src.toNat
      { s with mgmt := { s.mgmt with
        canOut := s.mgmt.canOut ++ [{ busB := f.busB, id := BitVec.ofNat 29 id, data := d, classic := f.classic }] } })

/-- READ_REQ (R490, R501, R502). -/
def execReadReq (f : CanFrame) (s : State) : Host.Outcome State Fault Refusal :=
  .next (if !heardFd s f then s
    else
      let r := xferReq f false (beAt f.data 4 4) []
      if s.md.recovery then readRsp f.busB f.src r 0 0x08000022 0 [] s
      else
        let s := dropXfer f.busB f.src s
        if k3Full s then readRsp f.busB f.src r 0 0x08000021 0 [] (countRefusal s) else queueXfer f r s)

/-- Is an entry a DOMAIN, whose WRITE_REQ carries an offset (Table 18.9)? -/
def isDomain (s : State) (r : DictReq) : Bool :=
  if s.md.recovery then r.index == 0x1F00
  else match entryOf (256 * r.index.toNat + r.sub.toNat) with
    | some e => e.ty == .domain
    | none => false

/-- WRITE_REQ (R29, R490, R501, R502). -/
def execWriteReq (f : CanFrame) (s : State) : Host.Outcome State Fault Refusal :=
  .next (if !heardFd s f then s
    else
      let more := xferFlag f 1
      let r := xferReq f true 0 []
      let h := if isDomain s r then 12 else 8
      let total := beAt f.data 4 4
      let r := { r with offset := if h = 12 then beAt f.data 8 4 else 0, data := (f.data.drop h).take total }
      let t : Transfer := { busB := f.busB, client := f.src, req := { r with data := [] }, total := total, data := r.data, next := 1, served := true }
      if s.md.recovery then
        if r.index = 0x1F00 ∧ r.sub = 0 ∧ more then setXfer t s else writeRsp f.busB f.src r 0x08000022 s
      else
        let s := dropXfer f.busB f.src s
        if k3Full s then writeRsp f.busB f.src r 0x08000021 (countRefusal s)
        else if more then setXfer t s
        else queueXfer f r s)

/-- Toggle of segment n (R501). -/
def segToggle (n : Nat) : Bool := (n - 1) % 2 == 1

/-- SEG_REQ (R501, R502). -/
def execSegReq (f : CanFrame) (s : State) : Host.Outcome State Fault Refusal :=
  .next (if !heardFd s f then s
    else if s.md.recovery then sendAbort f.busB f.src f.data 0x08000022 s
    else match openXfer s f.busB f.src with
      | none => sendAbort f.busB f.src f.data 0x05040001 s
      | some t =>
        if t.req.write || !t.served then sendAbort f.busB f.src f.data 0x05040001 s
        else if beAt f.data 4 4 ≠ t.next ∨ f.tgl ≠ segToggle t.next then sendAbort f.busB f.src f.data 0x05030000 s
        else
          let last := decide (t.data.length ≤ 60)
          let s := if last then dropXfer f.busB f.src s else setXfer { t with data := t.data.drop 60, next := t.next + 1 } s
          canSend 0x09 4 f.src.toNat f.tgl (xferHead t.req last.toNat ++ t.data.take 60) f.busB s)

/-- The last segment of a write has arrived: the write is applied before its answer (R494, R501). -/
def finishWrite (t : Transfer) (s : State) : State :=
  let keep := s.resp
  let r := { t.req with data := t.data }
  let i : K3Item := { src := .can t.busB t.client, who := .F, req := r, since := s.tb.tod }
  let (c, _, s) := if t.data.length = t.total then dictRequest .F r (some i) s else (some 0x06070010, [], s)
  let s := { s with resp := keep }
  match c with
  | some c => writeRsp t.busB t.client t.req c (answerWait i.since s)
  | none => s

/-- WRITE_SEG (R501, R502): in boot recovery the complete image waits for its check (R29). -/
def execWriteSeg (f : CanFrame) (s : State) : Host.Outcome State Fault Refusal :=
  .next (if !heardFd s f then s
    else match openXfer s f.busB f.src with
      | none => sendAbort f.busB f.src f.data 0x05040001 s
      | some t =>
        if !t.req.write || !t.served || t.next == 0 then sendAbort f.busB f.src f.data 0x05040001 s
        else if f.tgl ≠ segToggle t.next then sendAbort f.busB f.src f.data 0x05030000 s
        else
          let d := t.data ++ ((f.data.drop 4).take 60).take (t.total - t.data.length)
          if !xferFlag f 0 then
            let s := setXfer { t with data := d, next := t.next + 1 } s
            canSend 0x0C 4 f.src.toNat f.tgl (xferHead t.req 0 ++ toBe 4 t.next) f.busB s
          else if s.md.recovery then
            if d.length = t.total then setXfer { t with data := d, next := 0 } s
            else writeRsp t.busB t.client t.req 0x06070010 (dropXfer t.busB t.client s)
          else finishWrite { t with data := d } (dropXfer f.busB f.src s))

/-- ABORT from a client (R502). -/
def execAbort (f : CanFrame) (s : State) : Host.Outcome State Fault Refusal :=
  .next (if heardFd s f then dropXfer f.busB f.src s else s)

/-- TRANSFER_TIMEOUT (R502): 100 ms without the client's next segment. -/
def execTransferTimeout (busB : Bool) (client : BitVec 7) (s : State) : Host.Outcome State Fault Refusal :=
  .next (match openXfer s busB client with
    | none => s
    | some t =>
      if !t.served || t.next == 0 || !onBus s busB then s else sendAbort busB client (xferHead t.req 0) 0x05040000 s)

/-- HEARTBEAT (R503). -/
def execHeartbeat (s : State) : Host.Outcome State Fault Refusal :=
  .next (if !dictUp s || s.entry 0x1010 0 100 == 0 then s
    else
      let d := toBe 1 ((s.md.mode.map modeCode).getD 0) ++ toBe 1 s.mgmt.active.toNat ++ toBe 1 s.plant.budget ++ [0] ++
        toBe 4 s.outs.gate.toNat ++ toBe 4 s.mgmt.hbSeq.toNat ++ [0, 0, 0, 0]
      canBroadcast 0x11 3 d { s with mgmt := { s.mgmt with hbSeq := s.mgmt.hbSeq + 1 } })

/-- TIME (R503, R521): a frame of the configured master disciplines the timebase while 1PPS is absent. -/
def execTime (f : CanFrame) (s : State) : Host.Outcome State Fault Refusal :=
  .next (if !heard s f true || f.classic || f.src.toNat != s.entry 0x1030 0 0 || s.pins.timeRef then s
    else { s with tb := { s.tb with disc := true, src := 2 } })

/-- BUS_OFF_RECOVERY (R498): the controller is on its bus again. -/
def execBusOffRecovery (busB : Bool) (s : State) : Host.Outcome State Fault Refusal :=
  .next (if s.md.mode.isSome || s.md.recovery then
      { s with mgmt := if busB then { s.mgmt with joinedB := true } else { s.mgmt with joinedA := true } }
    else s)

/-- TIME_REF_LOSS (R521): the counter holds over. -/
def execTimeRefLoss (s : State) : Host.Outcome State Fault Refusal :=
  .next (if !s.vaux || !s.pins.timeRef then s
    else latch .tb 8 0 0 1 { s with
      pins := { s.pins with timeRef := false }, tb := { s.tb with disc := false, src := 0, holdover := true } })

/-- TIME_REF_RETURN (R521). -/
def execTimeRefReturn (s : State) : Host.Outcome State Fault Refusal :=
  .next (if !s.vaux then s
    else { s with pins := { s.pins with timeRef := true }, tb := { s.tb with disc := true, src := 1, holdover := false } })

/- TAP. -/

/-- A TAP instruction is loaded while VAUX is in tolerance (R536); M1 goes on once EXTEST and CLAMP are left (R537). -/
def loadTap (i : TapIns) (s : State) : State :=
  if !s.vaux then s else takeRequest (leaveProvision false { s with tap := i })

/-- TAP_BYPASS. -/
def execTapBypass (s : State) : Host.Outcome State Fault Refusal := .next (loadTap .bypass s)

/-- TAP_IDCODE: version 2, part 0x7720, manufacturer 0x127. -/
def execTapIdcode (s : State) : Host.Outcome State Fault Refusal :=
  .next (if s.vaux then { loadTap .idcode s with resp := .tap 0x2772024F } else s)

/-- TAP_SAMPLE_PRELOAD. -/
def execTapSamplePreload (s : State) : Host.Outcome State Fault Refusal := .next (loadTap .sample s)

/-- TAP_EXTEST (R537): in force in M1 with service permitted, else executed as BYPASS. -/
def execTapExtest (s : State) : Host.Outcome State Fault Refusal := .next (loadTap .extest s)

/-- TAP_CLAMP (R537). -/
def execTapClamp (s : State) : Host.Outcome State Fault Refusal := .next (loadTap .clamp s)

end Sys2Proof.Machine
end

