-- ==== Sys2Proof/Machine/Zones.lean ====
section
/-! DEFINITION. Steps 3, 4 and 6 of the zone reset sequence (R443, Table 16.12). -/

namespace Sys2Proof.Machine

/-- Released stores that a thread has not performed. -/
def storesLeft (t : Thread) : Nat := (t.sb.filter (fun i => i != .marker && keepReleased i)).length

/-- ZRST_DRAIN_LIMIT (Table 16.12 steps 3 and 4): at 100 µs what has not been performed is discarded and reported, and
every PU of MASK receives DISABLE. In M7 the limit does not hold (Table 16.13). -/
def execZrstDrainLimit (z : Fin 16) (s : State) : Host.Outcome State Fault Refusal :=
  .next (if !(s.zone z).resetBusy || !(s.zone z).drainDue || !islandUp s .zm then s
    else
      let pus := zonePus s z
      let s :=
        if s.inMode [.holdup] then s
        else
          let k := (pus.map (fun (n : Fin 48) => storesLeft (s.thr n false) + storesLeft (s.thr n true))).sum
          zrstLoss z k (pus.foldl (fun (s : State) (n : Fin 48) =>
            s.updPu n (fun p => { p with t0 := { p.t0 with sb := [] }, t1 := { p.t1 with sb := [] } })) s)
      let s := s.updZone z (fun x => { x with drainDue := false })
      after (pus.foldl (fun (s : State) (n : Fin 48) => lcCommand (.pu n) .disable 0 s) s))

/-- Zone tag of a request that waits at a home. -/
def homeCmdZone (s : State) : HomeCmd → Option (Fin 16)
  | .rd a _ _ => a.zone
  | .rdn a _ => a.zone
  | .rdx a _ _ => a.zone
  | .upg a _ _ => a.zone
  | .prefetchRead pu _ _ => s.puZone pu
  | .amo a _ _ _ _ => a.zone
  | .mnt a _ _ => a.zone
  | .line a _ => a.zone
  | .core n th _ _ _ => (s.puAcc n th).zone

/-- ZONE_QUIESCE (Table 16.12 step 6, R225): in its turn at the fabric arbiter, requests with the zone's tag that still wait
are answered FENCED and leave; the homes and controllers acknowledge. Nothing acts in M8 once its islands are fenced (R37). -/
def execZoneQuiesce (z : Fin 16) (s : State) : Host.Outcome State Fault Refusal :=
  .next (if !zoneResetReady s z || !(s.zone z).homeDue || !islandUp s .zm then s
    else if !arbTurn (.quiesce z) s then standBy (.arb (.quiesce z)) s
    else
      let s := arbOut (.quiesce z) s
      let waits := (s.coh.waits.map (fun (e : Nat × List HomeCmd) =>
        (e.1, e.2.filter (fun c => homeCmdZone s c != some z)))).filter (fun e => !e.2.isEmpty)
      let s := { s with
        coh := { s.coh with waits := waits }
        commit := { s.commit with queue := s.commit.queue.filter (fun r => r.acc.zone != some z) } }
      s.updZone z (fun x => { x with homeDue := false }))

end Sys2Proof.Machine
end

