-- ==== Sys2Proof/Machine/Dispatch.lean ====
section
/-! DEFINITION. The meaning of every command, one arm per constructor. -/

namespace Sys2Proof.Machine

def exec (i : Instr) (s : State) : Host.Outcome State Fault Refusal :=
  match i with
  | .add h o => Sys2Proof.Machine.execAdd h o s
  | .sub h o => Sys2Proof.Machine.execSub h o s
  | .adc h o => Sys2Proof.Machine.execAdc h o s
  | .sbc h o => Sys2Proof.Machine.execSbc h o s
  | .and h o => Sys2Proof.Machine.execAnd h o s
  | .or h o => Sys2Proof.Machine.execOr h o s
  | .xor h o => Sys2Proof.Machine.execXor h o s
  | .andn h o => Sys2Proof.Machine.execAndn h o s
  | .shl h o => Sys2Proof.Machine.execShl h o s
  | .shr h o => Sys2Proof.Machine.execShr h o s
  | .sar h o => Sys2Proof.Machine.execSar h o s
  | .rol h o => Sys2Proof.Machine.execRol h o s
  | .ror h o => Sys2Proof.Machine.execRor h o s
  | .cmp h a b q => Sys2Proof.Machine.execCmp h a b q s
  | .cmpu h a b q => Sys2Proof.Machine.execCmpu h a b q s
  | .mov h o => Sys2Proof.Machine.execMov h o s
  | .min h o => Sys2Proof.Machine.execMin h o s
  | .max h o => Sys2Proof.Machine.execMax h o s
  | .minu h o => Sys2Proof.Machine.execMinu h o s
  | .maxu h o => Sys2Proof.Machine.execMaxu h o s
  | .clz h o => Sys2Proof.Machine.execClz h o s
  | .ctz h o => Sys2Proof.Machine.execCtz h o s
  | .popc h o => Sys2Proof.Machine.execPopc h o s
  | .bswap h o => Sys2Proof.Machine.execBswap h o s
  | .sextB h o => Sys2Proof.Machine.execSextB h o s
  | .sextH h o => Sys2Proof.Machine.execSextH h o s
  | .sextW h o => Sys2Proof.Machine.execSextW h o s
  | .zextW h o => Sys2Proof.Machine.execZextW h o s
  | .mul h o => Sys2Proof.Machine.execMul h o s
  | .mulw h o => Sys2Proof.Machine.execMulw h o s
  | .mulwu h o => Sys2Proof.Machine.execMulwu h o s
  | .sdiv h o => Sys2Proof.Machine.execSdiv h o s
  | .udiv h o => Sys2Proof.Machine.execUdiv h o s
  | .srem h o => Sys2Proof.Machine.execSrem h o s
  | .urem h o => Sys2Proof.Machine.execUrem h o s
  | .addi h o => Sys2Proof.Machine.execAddi h o s
  | .andi h o => Sys2Proof.Machine.execAndi h o s
  | .ori h o => Sys2Proof.Machine.execOri h o s
  | .xori h o => Sys2Proof.Machine.execXori h o s
  | .cmpi h a imm => Sys2Proof.Machine.execCmpi h a imm s
  | .cmpui h a imm => Sys2Proof.Machine.execCmpui h a imm s
  | .shiShl h d a n => Sys2Proof.Machine.execShiShl h d a n s
  | .shiShr h d a n => Sys2Proof.Machine.execShiShr h d a n s
  | .shiSar h d a n => Sys2Proof.Machine.execShiSar h d a n s
  | .shiRol h d a n => Sys2Proof.Machine.execShiRol h d a n s
  | .movi h d imm => Sys2Proof.Machine.execMovi h d imm s
  | .ldB h o => Sys2Proof.Machine.execLdB h o s
  | .ldH h o => Sys2Proof.Machine.execLdH h o s
  | .ldW h o => Sys2Proof.Machine.execLdW h o s
  | .ldD h o => Sys2Proof.Machine.execLdD h o s
  | .ldsB h o => Sys2Proof.Machine.execLdsB h o s
  | .ldsH h o => Sys2Proof.Machine.execLdsH h o s
  | .ldsW h o => Sys2Proof.Machine.execLdsW h o s
  | .stB h o => Sys2Proof.Machine.execStB h o s
  | .stH h o => Sys2Proof.Machine.execStH h o s
  | .stW h o => Sys2Proof.Machine.execStW h o s
  | .stD h o => Sys2Proof.Machine.execStD h o s
  | .ldx h o => Sys2Proof.Machine.execLdx h o s
  | .ldsx h o => Sys2Proof.Machine.execLdsx h o s
  | .stx h o => Sys2Proof.Machine.execStx h o s
  | .ldfS h o => Sys2Proof.Machine.execLdfS h o s
  | .ldfD h o => Sys2Proof.Machine.execLdfD h o s
  | .ldfQ h o => Sys2Proof.Machine.execLdfQ h o s
  | .stfS h o => Sys2Proof.Machine.execStfS h o s
  | .stfD h o => Sys2Proof.Machine.execStfD h o s
  | .stfQ h o => Sys2Proof.Machine.execStfQ h o s
  | .ldfx h o => Sys2Proof.Machine.execLdfx h o s
  | .stfx h o => Sys2Proof.Machine.execStfx h o s
  | .b h disp => Sys2Proof.Machine.execB h disp s
  | .bl h disp => Sys2Proof.Machine.execBl h disp s
  | .br h b => Sys2Proof.Machine.execBr h b s
  | .blr h b => Sys2Proof.Machine.execBlr h b s
  | .ret h => Sys2Proof.Machine.execRet h s
  | .callm h b mask => Sys2Proof.Machine.execCallm h b mask s
  | .retm h mask => Sys2Proof.Machine.execRetm h mask s
  | .mfs h g sn => Sys2Proof.Machine.execMfs h g sn s
  | .mts h g sn => Sys2Proof.Machine.execMts h g sn s
  | .faddD h d a b => Sys2Proof.Machine.execFaddD h d a b s
  | .fsubD h d a b => Sys2Proof.Machine.execFsubD h d a b s
  | .fmulD h d a b => Sys2Proof.Machine.execFmulD h d a b s
  | .fdivD h d a b => Sys2Proof.Machine.execFdivD h d a b s
  | .fsqrtD h d a => Sys2Proof.Machine.execFsqrtD h d a s
  | .fcmpD h a b => Sys2Proof.Machine.execFcmpD h a b s
  | .fminD h d a b => Sys2Proof.Machine.execFminD h d a b s
  | .fmaxD h d a b => Sys2Proof.Machine.execFmaxD h d a b s
  | .faddS h d a b => Sys2Proof.Machine.execFaddS h d a b s
  | .fsubS h d a b => Sys2Proof.Machine.execFsubS h d a b s
  | .fmulS h d a b => Sys2Proof.Machine.execFmulS h d a b s
  | .fdivS h d a b => Sys2Proof.Machine.execFdivS h d a b s
  | .fsqrtS h d a => Sys2Proof.Machine.execFsqrtS h d a s
  | .fcmpS h a b => Sys2Proof.Machine.execFcmpS h a b s
  | .fminS h d a b => Sys2Proof.Machine.execFminS h d a b s
  | .fmaxS h d a b => Sys2Proof.Machine.execFmaxS h d a b s
  | .fcvtSD h d a => Sys2Proof.Machine.execFcvtSD h d a s
  | .fcvtDS h d a => Sys2Proof.Machine.execFcvtDS h d a s
  | .fcvtGD h d a => Sys2Proof.Machine.execFcvtGD h d a s
  | .fcvtDG h d a => Sys2Proof.Machine.execFcvtDG h d a s
  | .fmov h d a => Sys2Proof.Machine.execFmov h d a s
  | .fneg h d a => Sys2Proof.Machine.execFneg h d a s
  | .fabs h d a => Sys2Proof.Machine.execFabs h d a s
  | .fmvGF h d a => Sys2Proof.Machine.execFmvGF h d a s
  | .fmvFG h d a => Sys2Proof.Machine.execFmvFG h d a s
  | .fmaddD h o => Sys2Proof.Machine.execFmaddD h o s
  | .fmsubD h o => Sys2Proof.Machine.execFmsubD h o s
  | .fnmaddD h o => Sys2Proof.Machine.execFnmaddD h o s
  | .fnmsubD h o => Sys2Proof.Machine.execFnmsubD h o s
  | .dadd h d a b => Sys2Proof.Machine.execDadd h d a b s
  | .dsub h d a b => Sys2Proof.Machine.execDsub h d a b s
  | .dmul h d a b => Sys2Proof.Machine.execDmul h d a b s
  | .ddiv h d a b => Sys2Proof.Machine.execDdiv h d a b s
  | .dqua h d a b => Sys2Proof.Machine.execDqua h d a b s
  | .dcmp h a b => Sys2Proof.Machine.execDcmp h a b s
  | .d2s h d a b => Sys2Proof.Machine.execD2s h d a b s
  | .s2d h d a b => Sys2Proof.Machine.execS2d h d a b s
  | .dcvt12864 h d a => Sys2Proof.Machine.execDcvt12864 h d a s
  | .dcvt64128 h d a => Sys2Proof.Machine.execDcvt64128 h d a s
  | .dadd64 h d a b => Sys2Proof.Machine.execDadd64 h d a b s
  | .dsub64 h d a b => Sys2Proof.Machine.execDsub64 h d a b s
  | .dmul64 h d a b => Sys2Proof.Machine.execDmul64 h d a b s
  | .ddiv64 h d a b => Sys2Proof.Machine.execDdiv64 h d a b s
  | .dqua64 h d a b => Sys2Proof.Machine.execDqua64 h d a b s
  | .dcmp64 h a b => Sys2Proof.Machine.execDcmp64 h a b s
  | .lresD h d a => Sys2Proof.Machine.execLresD h d a s
  | .scondD h d a b => Sys2Proof.Machine.execScondD h d a b s
  | .lresW h d a => Sys2Proof.Machine.execLresW h d a s
  | .scondW h d a b => Sys2Proof.Machine.execScondW h d a b s
  | .amoSwp h d a b => Sys2Proof.Machine.execAmoSwp h d a b s
  | .amoAdd h d a b => Sys2Proof.Machine.execAmoAdd h d a b s
  | .amoAnd h d a b => Sys2Proof.Machine.execAmoAnd h d a b s
  | .amoOr h d a b => Sys2Proof.Machine.execAmoOr h d a b s
  | .amoXor h d a b => Sys2Proof.Machine.execAmoXor h d a b s
  | .amoMax h d a b => Sys2Proof.Machine.execAmoMax h d a b s
  | .amoMin h d a b => Sys2Proof.Machine.execAmoMin h d a b s
  | .amoMaxu h d a b => Sys2Proof.Machine.execAmoMaxu h d a b s
  | .amoMinu h d a b => Sys2Proof.Machine.execAmoMinu h d a b s
  | .cas h d a b => Sys2Proof.Machine.execCas h d a b s
  | .cas2 h d a b => Sys2Proof.Machine.execCas2 h d a b s
  | .fenceLL h => Sys2Proof.Machine.execFenceLL h s
  | .fenceLS h => Sys2Proof.Machine.execFenceLS h s
  | .fenceSL h => Sys2Proof.Machine.execFenceSL h s
  | .fenceSS h => Sys2Proof.Machine.execFenceSS h s
  | .fenceAll h => Sys2Proof.Machine.execFenceAll h s
  | .syncEp h => Sys2Proof.Machine.execSyncEp h s
  | .syncEpComplete pu th => Sys2Proof.Machine.execSyncEpComplete pu th s
  | .clnL h a => Sys2Proof.Machine.execClnL h a s
  | .invL h a => Sys2Proof.Machine.execInvL h a s
  | .cliL h a => Sys2Proof.Machine.execCliL h a s
  | .dzl h a => Sys2Proof.Machine.execDzl h a s
  | .cmrCln h a b => Sys2Proof.Machine.execCmrCln h a b s
  | .cmrCli h a b => Sys2Proof.Machine.execCmrCli h a b s
  | .cmrInv h a b => Sys2Proof.Machine.execCmrInv h a b s
  | .lockwLock h d a b => Sys2Proof.Machine.execLockwLock h d a b s
  | .lockwUnlock h d a b => Sys2Proof.Machine.execLockwUnlock h d a b s
  | .lockwUnlockSet h d a b => Sys2Proof.Machine.execLockwUnlockSet h d a b s
  | .tlbiAddr h loc a b => Sys2Proof.Machine.execTlbiAddr h loc a b s
  | .tlbiAddrAll h loc a b => Sys2Proof.Machine.execTlbiAddrAll h loc a b s
  | .tlbiCtx h loc a b => Sys2Proof.Machine.execTlbiCtx h loc a b s
  | .tlbiAll h loc a b => Sys2Proof.Machine.execTlbiAll h loc a b s
  | .tlbiDelivery pu => Sys2Proof.Machine.execTlbiDelivery pu s
  | .tlbiTimeout pu => Sys2Proof.Machine.execTlbiTimeout pu s
  | .txopen h d => Sys2Proof.Machine.execTxopen h d s
  | .txopenB h d => Sys2Proof.Machine.execTxopenB h d s
  | .txclose h d => Sys2Proof.Machine.execTxclose h d s
  | .txdrop h a => Sys2Proof.Machine.execTxdrop h a s
  | .eret h => Sys2Proof.Machine.execEret h s
  | .svc h a b => Sys2Proof.Machine.execSvc h a b s
  | .wait h => Sys2Proof.Machine.execWait h s
  | .waitWake pu th => Sys2Proof.Machine.execWaitWake pu th s
  | .brk h => Sys2Proof.Machine.execBrk h s
  | .nop h => Sys2Proof.Machine.execNop h s
  | .xstart h d a b => Sys2Proof.Machine.execXstart h d a b s
  | .crq h d a => Sys2Proof.Machine.execCrq h d a s
  | .dfq h d a => Sys2Proof.Machine.execDfq h d a s
  | .ioaAcknowledge pu th => Sys2Proof.Machine.execIoaAcknowledge pu th s
  | .aese h d a b => Sys2Proof.Machine.execAese h d a b s
  | .aesd h d a b => Sys2Proof.Machine.execAesd h d a b s
  | .aesmc h d a b => Sys2Proof.Machine.execAesmc h d a b s
  | .aesimc h d a b => Sys2Proof.Machine.execAesimc h d a b s
  | .clmul h d a b => Sys2Proof.Machine.execClmul h d a b s
  | .clmulh h d a b => Sys2Proof.Machine.execClmulh h d a b s
  | .sha256r h d a b => Sys2Proof.Machine.execSha256r h d a b s
  | .sha512r h d a b => Sys2Proof.Machine.execSha512r h d a b s
  | .liL h d imm => Sys2Proof.Machine.execLiL h d imm s
  | .liH h d imm => Sys2Proof.Machine.execLiH h d imm s
  | .addiW h o => Sys2Proof.Machine.execAddiW h o s
  | .andiW h o => Sys2Proof.Machine.execAndiW h o s
  | .oriW h o => Sys2Proof.Machine.execOriW h o s
  | .xoriW h o => Sys2Proof.Machine.execXoriW h o s
  | .cmpiW h a imm => Sys2Proof.Machine.execCmpiW h a imm s
  | .cmpuiW h a imm => Sys2Proof.Machine.execCmpuiW h a imm s
  | .bW h imm => Sys2Proof.Machine.execBW h imm s
  | .blW h imm => Sys2Proof.Machine.execBlW h imm s
  | .vauxInTolerance straps => Sys2Proof.Machine.execVauxInTolerance straps s
  | .vauxLoss => Sys2Proof.Machine.execVauxLoss s
  | .bootImageCheck slotB verifies ver => Sys2Proof.Machine.execBootImageCheck slotB verifies ver s
  | .bootRecoveryImageWrite verifies ver => Sys2Proof.Machine.execBootRecoveryImageWrite verifies ver s
  | .modeRequestCold p => Sys2Proof.Machine.execModeRequestCold p s
  | .modeRequestProvision p => Sys2Proof.Machine.execModeRequestProvision p s
  | .modeRequestRun p => Sys2Proof.Machine.execModeRequestRun p s
  | .modeRequestService p => Sys2Proof.Machine.execModeRequestService p s
  | .modeRequestQuiesce p => Sys2Proof.Machine.execModeRequestQuiesce p s
  | .railSequenceTimeout => Sys2Proof.Machine.execRailSequenceTimeout s
  | .mainPgRise onB keysOk => Sys2Proof.Machine.execMainPgRise onB keysOk s
  | .mainPowerGoodLost => Sys2Proof.Machine.execMainPowerGoodLost s
  | .pfwNLow => Sys2Proof.Machine.execPfwNLow s
  | .pfwNHigh => Sys2Proof.Machine.execPfwNHigh s
  | .pfwNCountAsserted => Sys2Proof.Machine.execPfwNCountAsserted s
  | .drainSnapshot => Sys2Proof.Machine.execDrainSnapshot s
  | .drainFinished => Sys2Proof.Machine.execDrainFinished s
  | .busBelowDrainThreshold => Sys2Proof.Machine.execBusBelowDrainThreshold s
  | .holdupRepowerHoldExpiry => Sys2Proof.Machine.execHoldupRepowerHoldExpiry s
  | .provisioningComplete p => Sys2Proof.Machine.execProvisioningComplete p s
  | .m1TimeLimit unfinished p => Sys2Proof.Machine.execM1TimeLimit unfinished p s
  | .dramInitComplete => Sys2Proof.Machine.execDramInitComplete s
  | .restoreComplete badBlocks badIndexes => Sys2Proof.Machine.execRestoreComplete badBlocks badIndexes s
  | .serviceSessionTimeout => Sys2Proof.Machine.execServiceSessionTimeout s
  | .checkstopLineAsserted b src inst info => Sys2Proof.Machine.execCheckstopLineAsserted b src inst info s
  | .salvageDrainComplete => Sys2Proof.Machine.execSalvageDrainComplete s
  | .orderlyDrainComplete => Sys2Proof.Machine.execOrderlyDrainComplete s
  | .refclkLoss b => Sys2Proof.Machine.execRefclkLoss b s
  | .lcEnable f a w => Sys2Proof.Machine.execLcEnable f a w s
  | .lcDisable f a w => Sys2Proof.Machine.execLcDisable f a w s
  | .lcUnfence f a w => Sys2Proof.Machine.execLcUnfence f a w s
  | .lcStartComplete f fail => Sys2Proof.Machine.execLcStartComplete f fail s
  | .lcStopComplete f => Sys2Proof.Machine.execLcStopComplete f s
  | .lcTimeout f => Sys2Proof.Machine.execLcTimeout f s
  | .registerWrite a addr size v => Sys2Proof.Machine.execRegisterWrite a addr size v s
  | .rcRead a addr size => Sys2Proof.Machine.execRcRead a addr size s
  | .fstatClear b a => Sys2Proof.Machine.execFstatClear b a s
  | .fovfClear b a => Sys2Proof.Machine.execFovfClear b a s
  | .atLockSet t a => Sys2Proof.Machine.execAtLockSet t a s
  | .atLogClear t a => Sys2Proof.Machine.execAtLogClear t a s
  | .aliveRearm a mask => Sys2Proof.Machine.execAliveRearm a mask s
  | .aliveRejClear a mask => Sys2Proof.Machine.execAliveRejClear a mask s
  | .holdupTest a => Sys2Proof.Machine.execHoldupTest a s
  | .chkstopTest a => Sys2Proof.Machine.execChkstopTest a s
  | .privPulseEnd holdup => Sys2Proof.Machine.execPrivPulseEnd holdup s
  | .wdogKick n a v => Sys2Proof.Machine.execWdogKick n a v s
  | .watchdogExpiry => Sys2Proof.Machine.execWatchdogExpiry s
  | .standbyTakeover csHash ceHash csAgain ceAgain loopOk => Sys2Proof.Machine.execStandbyTakeover csHash ceHash csAgain ceAgain loopOk s
  | .k0Cycle micros memError => Sys2Proof.Machine.execK0Cycle micros memError s
  | .faultStormUnmask b src => Sys2Proof.Machine.execFaultStormUnmask b src s
  | .k1ThermalIteration hottest => Sys2Proof.Machine.execK1ThermalIteration hottest s
  | .thermalCeilingStep lower => Sys2Proof.Machine.execThermalCeilingStep lower s
  | .valveDeviation => Sys2Proof.Machine.execValveDeviation s
  | .adcSample uv powerW fault => Sys2Proof.Machine.execAdcSample uv powerW fault s
  | .powerLimitRestore => Sys2Proof.Machine.execPowerLimitRestore s
  | .commitBudgetUpdate => Sys2Proof.Machine.execCommitBudgetUpdate s
  | .storeRechargeTest => Sys2Proof.Machine.execStoreRechargeTest s
  | .storeRechargeTestEnd => Sys2Proof.Machine.execStoreRechargeTestEnd s
  | .storeFltNAssert => Sys2Proof.Machine.execStoreFltNAssert s
  | .storeFltNNegate => Sys2Proof.Machine.execStoreFltNNegate s
  | .frozenClear a => Sys2Proof.Machine.execFrozenClear a s
  | .commitGrantRequest a block => Sys2Proof.Machine.execCommitGrantRequest a block s
  | .openRecordWritten => Sys2Proof.Machine.execOpenRecordWritten s
  | .blockRecordWritten => Sys2Proof.Machine.execBlockRecordWritten s
  | .flashChannelFailure ch => Sys2Proof.Machine.execFlashChannelFailure ch s
  | .enckeIntervalClose => Sys2Proof.Machine.execEnckeIntervalClose s
  | .enckeRecordWrite => Sys2Proof.Machine.execEnckeRecordWrite s
  | .heartbeat => Sys2Proof.Machine.execHeartbeat s
  | .dictRead loc => Sys2Proof.Machine.execDictRead loc s
  | .dictWrite loc => Sys2Proof.Machine.execDictWrite loc s
  | .dwGoRead z a index sub offset => Sys2Proof.Machine.execDwGoRead z a index sub offset s
  | .dwGoWrite z a index sub len offset => Sys2Proof.Machine.execDwGoWrite z a index sub len offset s
  | .provingRunPu p n => Sys2Proof.Machine.execProvingRunPu p n s
  | .provingRunCe p n => Sys2Proof.Machine.execProvingRunCe p n s
  | .provingRunDeimos p v => Sys2Proof.Machine.execProvingRunDeimos p v s
  | .provingRunComplete ce n failLanes pass => Sys2Proof.Machine.execProvingRunComplete ce n failLanes pass s
  | .applyBusRates p v => Sys2Proof.Machine.execApplyBusRates p v s
  | .abandonHeldExchanges p z => Sys2Proof.Machine.execAbandonHeldExchanges p z s
  | .clearInDoubt p v => Sys2Proof.Machine.execClearInDoubt p v s
  | .masterKeyEnrolment p z fused => Sys2Proof.Machine.execMasterKeyEnrolment p z fused s
  | .zoneCountChange p v fused => Sys2Proof.Machine.execZoneCountChange p v fused s
  | .maxCommitSizeChange p v fused => Sys2Proof.Machine.execMaxCommitSizeChange p v fused s
  | .signingRootChange p root fused => Sys2Proof.Machine.execSigningRootChange p root fused s
  | .discover f => Sys2Proof.Machine.execDiscover f s
  | .readReq f => Sys2Proof.Machine.execReadReq f s
  | .writeReq f => Sys2Proof.Machine.execWriteReq f s
  | .segReq f => Sys2Proof.Machine.execSegReq f s
  | .writeSeg f => Sys2Proof.Machine.execWriteSeg f s
  | .abort f => Sys2Proof.Machine.execAbort f s
  | .transferTimeout busB client => Sys2Proof.Machine.execTransferTimeout busB client s
  | .time f => Sys2Proof.Machine.execTime f s
  | .busOffRecovery busB => Sys2Proof.Machine.execBusOffRecovery busB s
  | .timeRefLoss => Sys2Proof.Machine.execTimeRefLoss s
  | .timeRefReturn => Sys2Proof.Machine.execTimeRefReturn s
  | .debugAttach pu => Sys2Proof.Machine.execDebugAttach pu s
  | .debugPortRequest a addr => Sys2Proof.Machine.execDebugPortRequest a addr s
  | .resyncComplete pu failLanes => Sys2Proof.Machine.execResyncComplete pu failLanes s
  | .tapBypass => Sys2Proof.Machine.execTapBypass s
  | .tapIdcode => Sys2Proof.Machine.execTapIdcode s
  | .tapSamplePreload => Sys2Proof.Machine.execTapSamplePreload s
  | .tapExtest => Sys2Proof.Machine.execTapExtest s
  | .tapClamp => Sys2Proof.Machine.execTapClamp s
  | .compareRetire pu c => Sys2Proof.Machine.execCompareRetire pu c s
  | .retryRestart pu => Sys2Proof.Machine.execRetryRestart pu s
  | .retryTimeout pu => Sys2Proof.Machine.execRetryTimeout pu s
  | .retryWindowClose pu => Sys2Proof.Machine.execRetryWindowClose pu s
  | .callupDrainDeadline missing0 missing1 => Sys2Proof.Machine.execCallupDrainDeadline missing0 missing1 s
  | .callupInjectionTestComplete failLanes => Sys2Proof.Machine.execCallupInjectionTestComplete failLanes s
  | .controlStoreLoadComplete ok => Sys2Proof.Machine.execControlStoreLoadComplete ok s
  | .callupStateLoadComplete ok => Sys2Proof.Machine.execCallupStateLoadComplete ok s
  | .presenceClear pu => Sys2Proof.Machine.execPresenceClear pu s
  | .ceWatchdogExpiry ce => Sys2Proof.Machine.execCeWatchdogExpiry ce s
  | .standbyProve pass => Sys2Proof.Machine.execStandbyProve pass s
  | .interruptTaken pu th => Sys2Proof.Machine.execInterruptTaken pu th s
  | .storeBufferDrain pu th k => Sys2Proof.Machine.execStoreBufferDrain pu th k s
  | .rd a line e => Sys2Proof.Machine.execRd a line e s
  | .rdn a line => Sys2Proof.Machine.execRdn a line s
  | .rdx a line stamp => Sys2Proof.Machine.execRdx a line stamp s
  | .upg a line stamp => Sys2Proof.Machine.execUpg a line stamp s
  | .wb pu line => Sys2Proof.Machine.execWb pu line s
  | .evc a line => Sys2Proof.Machine.execEvc a line s
  | .clnw pu line => Sys2Proof.Machine.execClnw pu line s
  | .amo a addr op x y => Sys2Proof.Machine.execAmo a addr op x y s
  | .mnt a line op => Sys2Proof.Machine.execMnt a line op s
  | .prefetchRead pu th va => Sys2Proof.Machine.execPrefetchRead pu th va s
  | .plw ce z pu th addr bytes => Sys2Proof.Machine.execPlw ce z pu th addr bytes s
  | .ivw a addr bytes => Sys2Proof.Machine.execIvw a addr bytes s
  | .fwd line => Sys2Proof.Machine.execFwd line s
  | .recall line => Sys2Proof.Machine.execRecall line s
  | .inv line holder => Sys2Proof.Machine.execInv line holder s
  | .data line => Sys2Proof.Machine.execData line s
  | .ack line => Sys2Proof.Machine.execAck line s
  | .fencedCompletion b a addr posted => Sys2Proof.Machine.execFencedCompletion b a addr posted s
  | .ownershipHoldExpiry pu line => Sys2Proof.Machine.execOwnershipHoldExpiry pu line s
  | .setRecall q slice set => Sys2Proof.Machine.execSetRecall q slice set s
  | .zoneQuiesce z => Sys2Proof.Machine.execZoneQuiesce z s
  | .zrstDrainLimit z => Sys2Proof.Machine.execZrstDrainLimit z s
  | .channelQuiesce z le => Sys2Proof.Machine.execChannelQuiesce z le s
  | .accelQuiesce z comp => Sys2Proof.Machine.execAccelQuiesce z comp s
  | .segAdd a w => Sys2Proof.Machine.execSegAdd a w s
  | .sidtSet z a w => Sys2Proof.Machine.execSidtSet z a w s
  | .irqSend z a thread vector prio => Sys2Proof.Machine.execIrqSend z a thread vector prio s
  | .interruptArrival z thread vector prio => Sys2Proof.Machine.execInterruptArrival z thread vector prio s
  | .reloadEp ce a ep => Sys2Proof.Machine.execReloadEp ce a ep s
  | .reloadDisp ce a z => Sys2Proof.Machine.execReloadDisp ce a z s
  | .cmdFrame link f => Sys2Proof.Machine.execCmdFrame link f s
  | .dataFrame link f => Sys2Proof.Machine.execDataFrame link f s
  | .statusFrame link f => Sys2Proof.Machine.execStatusFrame link f s
  | .acceptFrame link f => Sys2Proof.Machine.execAcceptFrame link f s
  | .redriveFrame link f => Sys2Proof.Machine.execRedriveFrame link f s
  | .idleFrame link f => Sys2Proof.Machine.execIdleFrame link f s
  | .frameForward link f => Sys2Proof.Machine.execFrameForward link f s
  | .ceCommitWriteAck entry => Sys2Proof.Machine.execCeCommitWriteAck entry s
  | .xstartCmd le => Sys2Proof.Machine.execXstartCmd le s
  | .xstartResp le => Sys2Proof.Machine.execXstartResp le s
  | .tAccExpiry entry => Sys2Proof.Machine.execTAccExpiry entry s
  | .tStatExpiry entry => Sys2Proof.Machine.execTStatExpiry entry s
  | .tLingerExpiry entry => Sys2Proof.Machine.execTLingerExpiry entry s
  | .tOrphanExpiry entry => Sys2Proof.Machine.execTOrphanExpiry entry s
  | .tLiveExpiry link => Sys2Proof.Machine.execTLiveExpiry link s
  | .idleIntervalExpiry link => Sys2Proof.Machine.execIdleIntervalExpiry link s
  | .ringPoll entry => Sys2Proof.Machine.execRingPoll entry s
  | .signalDetectQualified link => Sys2Proof.Machine.execSignalDetectQualified link s
  | .linkTrainingComplete link pre main post => Sys2Proof.Machine.execLinkTrainingComplete link pre main post s
  | .trainingTimerExpiry link => Sys2Proof.Machine.execTrainingTimerExpiry link s
  | .linkLockLoss link am => Sys2Proof.Machine.execLinkLockLoss link am s
  | .hiBerTimeout link => Sys2Proof.Machine.execHiBerTimeout link s
  | .linkLockRegained link => Sys2Proof.Machine.execLinkLockRegained link s
  | .sdsclkLoss g => Sys2Proof.Machine.execSdsclkLoss g s
  | .aesGcmEncrypt slice => Sys2Proof.Machine.execAesGcmEncrypt slice s
  | .aesGcmDecrypt slice => Sys2Proof.Machine.execAesGcmDecrypt slice s
  | .aesXtsEncrypt slice => Sys2Proof.Machine.execAesXtsEncrypt slice s
  | .aesXtsDecrypt slice => Sys2Proof.Machine.execAesXtsDecrypt slice s
  | .aesCmacGenerate slice => Sys2Proof.Machine.execAesCmacGenerate slice s
  | .aesCmacVerify slice => Sys2Proof.Machine.execAesCmacVerify slice s
  | .sha256 slice => Sys2Proof.Machine.execSha256 slice s
  | .sha384 slice => Sys2Proof.Machine.execSha384 slice s
  | .sha512 slice => Sys2Proof.Machine.execSha512 slice s
  | .sha3256 slice => Sys2Proof.Machine.execSha3256 slice s
  | .sha3384 slice => Sys2Proof.Machine.execSha3384 slice s
  | .sha3512 slice => Sys2Proof.Machine.execSha3512 slice s
  | .hmacGenerate slice => Sys2Proof.Machine.execHmacGenerate slice s
  | .hmacVerify slice => Sys2Proof.Machine.execHmacVerify slice s
  | .ecdsaSign slice => Sys2Proof.Machine.execEcdsaSign slice s
  | .ecdsaVerify slice => Sys2Proof.Machine.execEcdsaVerify slice s
  | .mlDsaSign slice => Sys2Proof.Machine.execMlDsaSign slice s
  | .mlDsaVerify slice => Sys2Proof.Machine.execMlDsaVerify slice s
  | .mlKemKeyGeneration slice => Sys2Proof.Machine.execMlKemKeyGeneration slice s
  | .mlKemEncapsulate slice => Sys2Proof.Machine.execMlKemEncapsulate slice s
  | .mlKemDecapsulate slice => Sys2Proof.Machine.execMlKemDecapsulate slice s
  | .ecdsaKeyGeneration slice => Sys2Proof.Machine.execEcdsaKeyGeneration slice s
  | .mlDsaKeyGeneration slice => Sys2Proof.Machine.execMlDsaKeyGeneration slice s
  | .pinBlockTranslation slice => Sys2Proof.Machine.execPinBlockTranslation slice s
  | .generateKey slice => Sys2Proof.Machine.execGenerateKey slice s
  | .importClearKey slice => Sys2Proof.Machine.execImportClearKey slice s
  | .reWrap slice => Sys2Proof.Machine.execReWrap slice s
  | .randomBytes slice => Sys2Proof.Machine.execRandomBytes slice s
  | .compress slice => Sys2Proof.Machine.execCompress slice s
  | .decompress slice => Sys2Proof.Machine.execDecompress slice s
  | .descriptorComplete comp slice => Sys2Proof.Machine.execDescriptorComplete comp slice s
  | .chainFailureHold slice => Sys2Proof.Machine.execChainFailureHold slice s
  | .entropyHealthFail => Sys2Proof.Machine.execEntropyHealthFail s
  | .entropyRetest pass => Sys2Proof.Machine.execEntropyRetest pass s
  | .drbgReseed slice => Sys2Proof.Machine.execDrbgReseed slice s
  | .mcReadRequest a line stripes => Sys2Proof.Machine.execMcReadRequest a line stripes s
  | .mcWriteRequest a line bytes retries => Sys2Proof.Machine.execMcWriteRequest a line bytes retries s
  | .refreshDue mc rank => Sys2Proof.Machine.execRefreshDue mc rank s
  | .powerDownEntry mc rank => Sys2Proof.Machine.execPowerDownEntry mc rank s
  | .selfRefreshEntry mc rank => Sys2Proof.Machine.execSelfRefreshEntry mc rank s
  | .urgencyStep mc k level => Sys2Proof.Machine.execUrgencyStep mc k level s
  | .trnWriteLevelling mc a rank nibble start => Sys2Proof.Machine.execTrnWriteLevelling mc a rank nibble start s
  | .trnReceiveEnable mc a rank nibble start => Sys2Proof.Machine.execTrnReceiveEnable mc a rank nibble start s
  | .trnReadEye mc a rank nibble start => Sys2Proof.Machine.execTrnReadEye mc a rank nibble start s
  | .trnWriteEye mc a rank nibble start => Sys2Proof.Machine.execTrnWriteEye mc a rank nibble start s
  | .trnDqsOscillator mc a rank nibble start => Sys2Proof.Machine.execTrnDqsOscillator mc a rank nibble start s
  | .trnCaTraining mc a rank nibble start => Sys2Proof.Machine.execTrnCaTraining mc a rank nibble start s
  | .trnRunComplete mc res noResponse fails => Sys2Proof.Machine.execTrnRunComplete mc res noResponse fails s
  | .trnApply mc a => Sys2Proof.Machine.execTrnApply mc a s
  | .delayUpdate mc rank osc centres => Sys2Proof.Machine.execDelayUpdate mc rank osc centres s
  | .scrubLine g stripes => Sys2Proof.Machine.execScrubLine g stripes s
  | .rebuildLine g stripes => Sys2Proof.Machine.execRebuildLine g stripes s
  | .reservedEncoding pu th w1 w2 => Sys2Proof.Machine.execReservedEncoding pu th w1 w2 s
  | .refclkReturn b => Sys2Proof.Machine.execRefclkReturn b s
  | .sdsclkReturn g => Sys2Proof.Machine.execSdsclkReturn g s
  | .islandFrequencySet k mhz => Sys2Proof.Machine.execIslandFrequencySet k mhz s
  | .clockRelockComplete k => Sys2Proof.Machine.execClockRelockComplete k s
  | .islandFence k => Sys2Proof.Machine.execIslandFence k s
  | .islandUnfence k => Sys2Proof.Machine.execIslandUnfence k s
  | .islandPowerSwitch k on => Sys2Proof.Machine.execIslandPowerSwitch k on s
  | .regulatorAcknowledgement q => Sys2Proof.Machine.execRegulatorAcknowledgement q s
  | .dramCommandSlot mc ready => Sys2Proof.Machine.execDramCommandSlot mc ready s
  | .ceZoneSlot ce => Sys2Proof.Machine.execCeZoneSlot ce s
  | .signalEnergyChange link present => Sys2Proof.Machine.execSignalEnergyChange link present s
  | .k4Period => Sys2Proof.Machine.execK4Period s

end Sys2Proof.Machine
end

