-- ==== Sys2Proof/Machine/Tick.lean ====
section
/-! DEFINITION. Time: what passes in one step when no command waits. -/

namespace Sys2Proof.Machine

/-- One cycle of the 400 MHz timebase while VAUX is in tolerance: the counter advances by 10 units of 0.25 ns (R20,
R521; DESIGN CHOICE, assumption 2). -/
def tick (s : State) : State :=
  if s.vaux then { s with tb := { s.tb with tod := s.tb.tod + 10 } } else s

end Sys2Proof.Machine
end

