-- ==== Sys2Proof/Safety.lean ====
section
/-! DEFINITION. What counts as a safe run, and the invariant that every step keeps. -/

namespace Sys2Proof

/-- A state from which the next step neither faults nor refuses. -/
def Safe (s : Machine.State) : Prop := ∃ t, Machine.step s = .next t

namespace Machine

/-- A legal limited-change record: the zone count is one of 1, 2, 4, 8 and 16, the maximum commit size is 1 to 64 GiB,
no setting has more changes left than fuses, and every change that is recorded has blown one (R49, R453, R455). -/
def LimOk (l : Limited) : Prop :=
  (l.zc = 1 ∨ l.zc = 2 ∨ l.zc = 4 ∨ l.zc = 8 ∨ l.zc = 16) ∧ 1 ≤ l.maxCommit ∧ l.maxCommit ≤ 64 ∧ l.enrolLeft ≤ 64 ∧
    l.rootLeft ≤ 4 ∧ l.zcRec.length + l.zcLeft ≤ 16 ∧ l.mcRec.length + l.mcLeft ≤ 16

/-- The invariant: the limited-change record is legal, and coherent memory and the controllers' memory are in their
canonical form. -/
def Inv (s : State) : Prop := LimOk s.lim ∧ Memory.wf s.mem = true ∧ Memory.wf s.dram = true

/-- Registers of the thread that an instruction names. -/
def archOf (h : Hdr) (s : State) : Arch := (s.thr h.pu.val h.th).arch

/-- The thread of h can take an instruction in s, no event is due, and the fetch of the instruction succeeds: t is the
state after it (R79, R147, R162). -/
def Fetched (h : Hdr) (long : Bool) (s t : State) : Prop :=
  canRun s h.pu.val h.th = true ∧ dueEvent s h.pu.val h.th = none ∧ fetchIns h.pu.val h.th long s = .done t

/-- Nothing holds back the effect of the fetched instruction: the control store provides it, its condition is true, and
an open transaction takes it (R65, R124, R241, R250). Groups that channel engines lack are left to each statement (R85). -/
def Passes (h : Hdr) (micro : Option Nat) (restricted : Bool) (t : State) : Prop :=
  (h.pu.val < 48 → ∀ k, micro = some k → storeOmits t h.pu.val k = false) ∧ condTrue h.cond (archOf h t) = true ∧
    ∀ x, (t.thr h.pu.val h.th).tx = some x → restricted = false ∧ (x.constrained = false ∨ x.retired < 32)

/-- A frame of a kind that arrives on a link in M3 to M7 and passes the checks of R358 reaches engine n, the home engine of
its endpoint: w is the state in which that engine has found the endpoint (R346, R348, R355). -/
def Arrives (kind : Nat) (link : Fin 512) (f : Frame) (n epN : Nat) (ep : Ep) (s w : State) : Prop :=
  linkUp s link.val = true ∧ f.pcsOk = true ∧ f.len = f.payload.length ∧
    s.inMode [.run, .degraded, .service, .quiesced, .holdup] = true ∧ engHeld s (link.val / 16) = false ∧
    (s.le (link.val / 16)).gap = false ∧ frameOk s link.val kind f = true ∧ kind ≠ 6 ∧
    (let v := (countFec link.val f s).updLink link.val (fun k => { k with peer := f.src, live := true })
     engineOf v (link.val / 16) = some n ∧ frameEp link.val f v = (some (epN, ep), w)) ∧
    ep.home = link.val / 16 ∧ w.chan.applied = true

/-- t with the registers of h's thread changed by f and its instruction retired; len is added to the pc. -/
def finish (h : Hdr) (len : Nat) (f : Arch → Arch) (t : State) : State :=
  retire h.pu.val h.th (advance h.pu.val h.th len (t.updThr h.pu.val h.th (fun x => { x with arch := f x.arch })))

end Machine

end Sys2Proof
end

