-- ==== Sys2Proof/Certificates/Slice0/Obligations.lean ====
section
/-! DEFINITION. The statements for the provers. Fetched, Passes, Arrives and finish, with which many of them begin, stand in
Safety. -/

open Sys2Proof Sys2Proof.Machine

/-- A step with commands waiting runs the one at the front of the queue on the state with the queue's rest. With none
waiting the block idles but for the timebase, which advances by one cycle while VAUX is in tolerance (the model's
choice, log entry 2). -/
def Obligations.StepRunsTheFrontCommand : Prop :=
  (∀ (c : Instr) (s : State), step { s with pending := c :: s.pending } = exec c s) ∧
  (∀ s : State, s.pending = [] →
    step s = .next (if s.vaux then { s with tb := { s.tb with tod := s.tb.tod + 10 } } else s))

/-- After reset nothing waits, no mode has begun, every function is off and no thread runs; memory reads zero (R540); the
registers whose reset value the spec gives hold it: S.BRV (Table 3.8), the scratch registers (Table 3.1), the
controllers' idle times, targets and row-disturbance probability (Tables 11.4 to 11.7), the limited-change settings
(Table 16.18), and the levels and gates of the outputs (R470 to R476). The other reset values are the model's choice
(log entry 5), and nothing is said of them. -/
def Obligations.ResetState : Prop :=
  Inv State.reset ∧ State.reset.pending = [] ∧ State.reset.md.mode = none ∧ State.reset.vaux = false ∧
    State.reset.mainOn = false ∧ (∀ f, State.reset.lcs f = .off) ∧ (∀ b, (State.reset.flt b).valid = false) ∧
    (∀ n th, (State.reset.thr n th).running = false ∧ (State.reset.thr n th).arch.scr0 = 0 ∧
      (State.reset.thr n th).arch.scr1 = 0 ∧ (State.reset.thr n th).arch.brv = 2 ∧ (State.reset.thr n th).resv = none) ∧
    (∀ a n, State.reset.rd a n = List.replicate n 0) ∧
    (∀ m, (State.reset.mc m).pdIdle = 2000 ∧ (State.reset.mc m).srIdle = 500 ∧ (State.reset.mc m).k = 10 ∧
      (List.range 8).map (qosTgt (State.reset.mc m)) = [400, 400, 400, 400, 600, 1000, 250, 20000]) ∧
    State.reset.lim.zc = 1 ∧ State.reset.lim.maxCommit = 64 ∧ State.reset.outs.holdLvl = true ∧
    State.reset.outs.chkLvl = true ∧ (∀ g, g < 19 → State.reset.outs.gate.getLsbD g = false)

/-- Every command completes, whatever the state, and leaves the queue of the commands behind it as it is. -/
def Obligations.EveryCommandCompletesAndKeepsTheQueue : Prop :=
  ∀ (c : Instr) (s : State), ∃ u, exec c s = .next u ∧ u.pending = s.pending

/-- Every step from a state that keeps the invariant leads to one that keeps it: the limited-change record stays legal,
with no setting holding more records than changes were made (R49, R453, R455), and coherent memory and what the
controllers hold stay in canonical form. -/
def Obligations.StepKeepsTheInvariant : Prop :=
  ∀ (s t : State), Inv s → step s = .next t → Inv t

/-- ADD, SUB, ADC, SBC, CMP and CMPU complete with the result and the flags of R87 to R89 and Table 4.1: C is the carry
out of the unsigned sum, or "no borrow"; V is set exactly where the signed result is out of range. -/
def Obligations.IntegerAddAndSubtract : Prop :=
  ∀ (h : Hdr) (s t : State), Fetched h false s t → Passes h none false t →
    (∀ o : T3,
      let x := (archOf h t).rg o.a
      let y := (archOf h t).rg o.b
      let k := (archOf h t).c.toNat
      let out := fun (r : Word) (c : Bool) (i : Int) =>
        Host.Outcome.next (φ := Fault) (ρ := Refusal) (finish h 4 (fun a => a.putAlu o.d o.s
          { r := r, n := r.msb, z := r == 0, c := c, v := decide (i < -2 ^ 63 ∨ 2 ^ 63 ≤ i) }) t)
      exec (.add h o) s = out (x + y) (decide (2 ^ 64 ≤ x.toNat + y.toNat)) (x.toInt + y.toInt) ∧
      exec (.adc h o) s = out (x + y + BitVec.ofNat 64 k) (decide (2 ^ 64 ≤ x.toNat + y.toNat + k))
        (x.toInt + y.toInt + k) ∧
      exec (.sub h o) s = out (x - y) (decide (y.toNat ≤ x.toNat)) (x.toInt - y.toInt) ∧
      exec (.sbc h o) s = out (x - y - BitVec.ofNat 64 (1 - k)) (decide (y.toNat + (1 - k) ≤ x.toNat))
        (x.toInt - y.toInt - (1 - k : Nat))) ∧
    (∀ (ga gb : BitVec 5) (sb : Bool),
      let x := (archOf h t).rg ga
      let y := (archOf h t).rg gb
      let i := x.toInt - y.toInt
      exec (.cmp h ga gb sb) s = .next (finish h 4 (fun a =>
        a.setFlags (x - y).msb (decide (x = y)) (decide (y.toNat ≤ x.toNat)) (decide (i < -2 ^ 63 ∨ 2 ^ 63 ≤ i))) t) ∧
      exec (.cmpu h ga gb sb) s = .next (finish h 4 (fun a =>
        a.setFlags (decide (x.toNat < y.toNat)) (decide (x = y)) (decide (y.toNat ≤ x.toNat)) false) t))

/-- The logical instructions, MOV, the minima and maxima and the extensions complete: Gd takes the result, and where S is
1 N and Z come from it while C and V keep their values (Table 4.1). ANDN as Ga and not Gb is DEDUCED (log entry 12).
The shifts, rotates and bit counts complete. The count of a shift is Gb mod 64 and C is the last bit shifted out or
carried round, unchanged for a count of 0; CLZ and CTZ give 64 for 0 (R86, Table 4.1). -/
def Obligations.IntegerLogicShiftAndCount : Prop :=
  (∀ (h : Hdr) (s t : State), Fetched h false s t → Passes h none false t →
    let out := fun (d : BitVec 5) (f : Bool) (r : Word) =>
      Host.Outcome.next (φ := Fault) (ρ := Refusal) (finish h 4 (fun a => a.putAlu d f
        { r := r, n := r.msb, z := r == 0, c := a.c, v := a.v }) t)
    (∀ o : T3,
      let x := (archOf h t).rg o.a
      let y := (archOf h t).rg o.b
      exec (.and h o) s = out o.d o.s (x &&& y) ∧ exec (.or h o) s = out o.d o.s (x ||| y) ∧
      exec (.xor h o) s = out o.d o.s (x ^^^ y) ∧ exec (.andn h o) s = out o.d o.s (x &&& ~~~y) ∧
      exec (.min h o) s = out o.d o.s (if x.toInt ≤ y.toInt then x else y) ∧
      exec (.max h o) s = out o.d o.s (if x.toInt ≤ y.toInt then y else x) ∧
      exec (.minu h o) s = out o.d o.s (if x.toNat ≤ y.toNat then x else y) ∧
      exec (.maxu h o) s = out o.d o.s (if x.toNat ≤ y.toNat then y else x)) ∧
    (∀ o : T2,
      let x := (archOf h t).rg o.a
      exec (.mov h o) s = out o.d o.s x ∧
      exec (.sextB h o) s = out o.d o.s (BitVec.ofInt 64 (x.setWidth 8).toInt) ∧
      exec (.sextH h o) s = out o.d o.s (BitVec.ofInt 64 (x.setWidth 16).toInt) ∧
      exec (.sextW h o) s = out o.d o.s (BitVec.ofInt 64 (x.setWidth 32).toInt) ∧
      exec (.zextW h o) s = out o.d o.s (BitVec.ofNat 64 (x.toNat % 2 ^ 32)))) ∧
  (∀ (h : Hdr) (s t : State), Fetched h false s t → Passes h none false t →
    let out := fun (d : BitVec 5) (f : Bool) (r : Word) (c : Bool) =>
      Host.Outcome.next (φ := Fault) (ρ := Refusal) (finish h 4 (fun a => a.putAlu d f
        { r := r, n := r.msb, z := r == 0, c := c, v := a.v }) t)
    (∀ o : T3,
      let x := (archOf h t).rg o.a
      let k := ((archOf h t).rg o.b).toNat % 64
      let c := fun (b : Bool) => if k = 0 then (archOf h t).c else b
      exec (.shl h o) s = out o.d o.s (BitVec.ofNat 64 (x.toNat * 2 ^ k)) (c (x.getLsbD (64 - k))) ∧
      exec (.shr h o) s = out o.d o.s (BitVec.ofNat 64 (x.toNat / 2 ^ k)) (c (x.getLsbD (k - 1))) ∧
      exec (.sar h o) s = out o.d o.s (BitVec.ofInt 64 (x.toInt / 2 ^ k)) (c (x.getLsbD (k - 1))) ∧
      exec (.rol h o) s = out o.d o.s (x.rotateLeft k) (c ((x.rotateLeft k).getLsbD 0)) ∧
      exec (.ror h o) s = out o.d o.s (x.rotateRight k) (c (x.rotateRight k).msb)) ∧
    (∀ o : T2,
      let x := (archOf h t).rg o.a
      let c := (archOf h t).c
      (∃ n, n ≤ 64 ∧ (∀ i, i < n → x.getLsbD (63 - i) = false) ∧ (n < 64 → x.getLsbD (63 - n) = true) ∧
        exec (.clz h o) s = out o.d o.s (BitVec.ofNat 64 n) c) ∧
      (∃ n, n ≤ 64 ∧ (∀ i, i < n → x.getLsbD i = false) ∧ (n < 64 → x.getLsbD n = true) ∧
        exec (.ctz h o) s = out o.d o.s (BitVec.ofNat 64 n) c) ∧
      exec (.popc h o) s = out o.d o.s (BitVec.ofNat 64 ((List.range 64).countP (fun i => x.getLsbD i))) c ∧
      (∃ r : Word, (∀ i, i < 8 → r.extractLsb' (8 * i) 8 = x.extractLsb' (56 - 8 * i) 8) ∧
        exec (.bswap h o) s = out o.d o.s r c)) ∧
    (∀ (d a : BitVec 5) (n : BitVec 6),
      let x := (archOf h t).rg a
      exec (.shiShl h d a n) s = .next (finish h 4 (fun r => r.wg d (BitVec.ofNat 64 (x.toNat * 2 ^ n.toNat))) t) ∧
      exec (.shiShr h d a n) s = .next (finish h 4 (fun r => r.wg d (BitVec.ofNat 64 (x.toNat / 2 ^ n.toNat))) t) ∧
      exec (.shiSar h d a n) s = .next (finish h 4 (fun r => r.wg d (BitVec.ofInt 64 (x.toInt / 2 ^ n.toNat))) t) ∧
      exec (.shiRol h d a n) s = .next (finish h 4 (fun r => r.wg d (x.rotateLeft n.toNat)) t)))

/-- The MULDIV group completes on a PU (R90, R91, Tables 4.1 and 4.2): MUL with its low half, C and V telling where the unsigned
and the signed product do not fit; the wide products with the high half in Gd and the low half in G(d+1), d even;
divisions that round toward zero, with V for SDIV's one overflow. A zero divisor takes vector 0x0D with detail 1, an
odd d vector 0x0C. Channel engines do not have it (R85): OperandTraps. -/
def Obligations.IntegerMultiplyAndDivide : Prop :=
  ∀ (h : Hdr) (o : T3) (s t : State), h.pu.val < 48 → Fetched h false s t → Passes h none false t →
    let x := (archOf h t).rg o.a
    let y := (archOf h t).rg o.b
    let out := fun (r : Word) (c v : Bool) =>
      Host.Outcome.next (φ := Fault) (ρ := Refusal)
        (finish h 4 (fun a => a.putAlu o.d o.s { r := r, n := r.msb, z := r == 0, c := c, v := v }) t)
    let wide := fun (p : BitVec 128) =>
      Host.Outcome.next (φ := Fault) (ρ := Refusal) (finish h 4 (fun a =>
        let b := (a.wg o.d (p.extractLsb' 64 64)).wg (o.d + 1) (p.setWidth 64)
        if o.s then b.setFlags p.msb (p == 0) false false else b) t)
    let trap := fun (fn vec detail : Nat) =>
      Host.Outcome.next (φ := Fault) (ρ := Refusal)
        (takeExc h.pu.val h.th (encT3 h 0x01 fn o) false { vec := vec, detail := detail } t)
    exec (.mul h o) s = out (x * y) (decide (2 ^ 64 ≤ x.toNat * y.toNat))
      (decide (x.toInt * y.toInt < -2 ^ 63 ∨ 2 ^ 63 ≤ x.toInt * y.toInt)) ∧
    (o.d.getLsbD 0 = false → exec (.mulw h o) s = wide (BitVec.ofInt 128 (x.toInt * y.toInt)) ∧
      exec (.mulwu h o) s = wide (BitVec.ofNat 128 (x.toNat * y.toNat))) ∧
    (o.d.getLsbD 0 = true → exec (.mulw h o) s = trap 0x01 0x0C 4 ∧ exec (.mulwu h o) s = trap 0x02 0x0C 4) ∧
    (y ≠ 0 →
      exec (.sdiv h o) s = out (BitVec.ofInt 64 (x.toInt.tdiv y.toInt)) false (decide (x.toInt = -2 ^ 63 ∧ y.toInt = -1)) ∧
      exec (.udiv h o) s = out (BitVec.ofNat 64 (x.toNat / y.toNat)) false false ∧
      exec (.srem h o) s = out (BitVec.ofInt 64 (x.toInt.tmod y.toInt)) false false ∧
      exec (.urem h o) s = out (BitVec.ofNat 64 (x.toNat % y.toNat)) false false) ∧
    (y = 0 → exec (.sdiv h o) s = trap 0x04 0x0D 1 ∧ exec (.udiv h o) s = trap 0x05 0x0D 1 ∧
      exec (.srem h o) s = trap 0x06 0x0D 1 ∧ exec (.urem h o) s = trap 0x07 0x0D 1)

/-- The immediate and long forms complete (R64, R88): ADDI and MOVI extend the sign of their immediate, the logical forms
extend with zeros, none of them writes a flag; the compares write the flags alone. -/
def Obligations.IntegerImmediates : Prop :=
  ∀ (h : Hdr) (s t : State),
    let w := fun (len : Nat) (d : BitVec 5) (r : Word) =>
      Host.Outcome.next (φ := Fault) (ρ := Refusal) (finish h len (fun a => a.wg d r) t)
    let cmp := fun (len : Nat) (x y : Word) =>
      Host.Outcome.next (φ := Fault) (ρ := Refusal) (finish h len (fun a =>
        a.setFlags (x - y).msb (decide (x = y)) (decide (y.toNat ≤ x.toNat))
          (decide (x.toInt - y.toInt < -2 ^ 63 ∨ 2 ^ 63 ≤ x.toInt - y.toInt))) t)
    let cmpu := fun (len : Nat) (x y : Word) =>
      Host.Outcome.next (φ := Fault) (ρ := Refusal) (finish h len (fun a =>
        a.setFlags (decide (x.toNat < y.toNat)) (decide (x = y)) (decide (y.toNat ≤ x.toNat)) false) t)
    Passes h none false t →
    (Fetched h false s t →
      (∀ o : I12,
        let x := (archOf h t).rg o.a
        exec (.addi h o) s = w 4 o.d (x + BitVec.ofInt 64 o.imm.toInt) ∧
        exec (.andi h o) s = w 4 o.d (x &&& BitVec.ofNat 64 o.imm.toNat) ∧
        exec (.ori h o) s = w 4 o.d (x ||| BitVec.ofNat 64 o.imm.toNat) ∧
        exec (.xori h o) s = w 4 o.d (x ^^^ BitVec.ofNat 64 o.imm.toNat)) ∧
      (∀ (ga : BitVec 5) (imm : BitVec 12),
        exec (.cmpi h ga imm) s = cmp 4 ((archOf h t).rg ga) (BitVec.ofInt 64 imm.toInt) ∧
        exec (.cmpui h ga imm) s = cmpu 4 ((archOf h t).rg ga) (BitVec.ofNat 64 imm.toNat)) ∧
      (∀ (d : BitVec 5) (imm : BitVec 17), exec (.movi h d imm) s = w 4 d (BitVec.ofInt 64 imm.toInt))) ∧
    (Fetched h true s t →
      (∀ o : X32,
        let x := (archOf h t).rg o.a
        exec (.addiW h o) s = w 8 o.d (x + BitVec.ofInt 64 o.imm.toInt) ∧
        exec (.andiW h o) s = w 8 o.d (x &&& BitVec.ofNat 64 o.imm.toNat) ∧
        exec (.oriW h o) s = w 8 o.d (x ||| BitVec.ofNat 64 o.imm.toNat) ∧
        exec (.xoriW h o) s = w 8 o.d (x ^^^ BitVec.ofNat 64 o.imm.toNat)) ∧
      (∀ (ga : BitVec 5) (imm : BitVec 32),
        exec (.cmpiW h ga imm) s = cmp 8 ((archOf h t).rg ga) (BitVec.ofInt 64 imm.toInt) ∧
        exec (.cmpuiW h ga imm) s = cmpu 8 ((archOf h t).rg ga) (BitVec.ofNat 64 imm.toNat)) ∧
      (∀ (d : BitVec 5) (imm : BitVec 32),
        exec (.liL h d imm) s = w 8 d (BitVec.ofInt 64 imm.toInt) ∧
        exec (.liH h d imm) s = w 8 d (BitVec.ofNat 64 (2 ^ 32 * imm.toNat + ((archOf h t).rg d).toNat % 2 ^ 32))))

/-- The binary floating-point arithmetic completes on a PU where no exception that it raises is enabled: fs is S.FS with the
raised exceptions made sticky (R95), and the correctly rounded result is written with every higher bit of the F
register zero (R57). -/
def Obligations.BinaryArithmetic : Prop :=
  ∀ (h : Hdr) (s t : State) (fs : Word), h.pu.val < 48 → Fetched h false s t → Passes h none false t →
    let a := archOf h t
    let rm := rmOf a.fs
    (∀ d ga gb : BitVec 5,
      let dbl := fun (c : Instr) (r : NumRes) => statusOf a.fs r.2 = .ok fs →
        exec c s = .next (finish h 4 (fun a => { a with fs := fs }.put64 d r.1) t)
      let sgl := fun (c : Instr) (r : NumRes) => statusOf a.fs r.2 = .ok fs →
        exec c s = .next (finish h 4 (fun a => { a with fs := fs }.put32 d r.1) t)
      let x := a.f64 ga
      let y := a.f64 gb
      let u := a.f32 ga
      let v := a.f32 gb
      dbl (.faddD h d ga gb) (addNum f64 rm x y) ∧ dbl (.fsubD h d ga gb) (subNum f64 rm x y) ∧
      dbl (.fmulD h d ga gb) (mulNum f64 rm x y) ∧ dbl (.fdivD h d ga gb) (divNum f64 rm x y) ∧
      dbl (.fminD h d ga gb) (minMax false 2 x y) ∧ dbl (.fmaxD h d ga gb) (minMax true 2 x y) ∧
      dbl (.fsqrtD h d ga) (sqrtNum f64 rm x) ∧
      sgl (.faddS h d ga gb) (addNum f32 rm u v) ∧ sgl (.fsubS h d ga gb) (subNum f32 rm u v) ∧
      sgl (.fmulS h d ga gb) (mulNum f32 rm u v) ∧ sgl (.fdivS h d ga gb) (divNum f32 rm u v) ∧
      sgl (.fminS h d ga gb) (minMax false 2 u v) ∧ sgl (.fmaxS h d ga gb) (minMax true 2 u v) ∧
      sgl (.fsqrtS h d ga) (sqrtNum f32 rm u)) ∧
    (∀ o : Q4,
      let fma := fun (c : Instr) (r : NumRes) (neg : Bool) => statusOf a.fs r.2 = .ok fs →
        exec c s = .next (finish h 4 (fun a => { a with fs := fs }.put64 o.d (if neg then r.1.negate else r.1)) t)
      let x := a.f64 o.a
      let y := a.f64 o.b
      let z := a.f64 o.c
      fma (.fmaddD h o) (fmaNum f64 rm x y z) false ∧ fma (.fmsubD h o) (fmaNum f64 rm x y z.negate) false ∧
      fma (.fnmaddD h o) (fmaNum f64 rm x y z) true ∧ fma (.fnmsubD h o) (fmaNum f64 rm x y z.negate) true)

/-- On a PU the binary comparisons set N, Z, C and V as Table 4.5 gives the relation, with only a signalling NaN invalid (R100);
the conversions complete as the arithmetic does (Table 4.6, R104); the moves copy bits and raise nothing (R103). -/
def Obligations.BinaryCompareConvertMove : Prop :=
  ∀ (h : Hdr) (d ga gb : BitVec 5) (s t : State) (fs : Word), h.pu.val < 48 → Fetched h false s t → Passes h none false t →
    let a := archOf h t
    let rm := rmOf a.fs
    let done := fun (c : Instr) (e : Exn) (f : Arch → Arch) => statusOf a.fs e = .ok fs →
      exec c s = .next (finish h 4 (fun a => f { a with fs := fs }) t)
    let bits := fun (c : Instr) (f : Arch → Arch) => exec c s = .next (finish h 4 f t)
    done (.fcmpD h ga gb) { v := (a.f64 ga).isSig || (a.f64 gb).isSig } (fun r => r.putRel (relNum 2 (a.f64 ga) (a.f64 gb))) ∧
    done (.fcmpS h ga gb) { v := (a.f32 ga).isSig || (a.f32 gb).isSig } (fun r => r.putRel (relNum 2 (a.f32 ga) (a.f32 gb))) ∧
    (let r := convNum f32 rm (fun p => p / 2 ^ 29) (a.f64 ga)
     done (.fcvtSD h d ga) r.2 (fun b => b.put32 d r.1)) ∧
    (let r := convNum f64 rm (fun p => p * 2 ^ 29) (a.f32 ga)
     done (.fcvtDS h d ga) r.2 (fun b => b.put64 d r.1)) ∧
    (let r := toInt64 rm (a.f64 ga)
     done (.fcvtGD h d ga) r.2 (fun b => b.wg d r.1)) ∧
    (let i := (a.rg ga).toInt
     let r := roundTo f64 rm (decide (i < 0)) i.natAbs 1 0
     done (.fcvtDG h d ga) r.2 (fun b => b.put64 d r.1)) ∧
    bits (.fmov h d ga) (fun r => r.wf d (a.rf ga)) ∧
    bits (.fneg h d ga) (fun r => r.wf d (BitVec.ofNat 128 ((a.rfd ga).toNat ^^^ 2 ^ 63))) ∧
    bits (.fabs h d ga) (fun r => r.wf d (BitVec.ofNat 128 ((a.rfd ga).toNat % 2 ^ 63))) ∧
    bits (.fmvGF h d ga) (fun r => r.wg d (a.rfd ga)) ∧
    bits (.fmvFG h d ga) (fun r => r.wf d (BitVec.ofNat 128 (a.rg ga).toNat))

/-- A binary64 and a binary32 word is the encoding of the datum that it decodes to: no bit of either format is dropped. -/
def Obligations.BinaryFormatsRoundTrip : Prop :=
  (∀ w : Word, binEnc 11 52 (-1074) (binDec 11 52 (-1074) w.toNat) = w.toNat) ∧
  (∀ w : BitVec 32, binEnc 8 23 (-149) (binDec 8 23 (-149) w.toNat) = w.toNat)

/-- The decimal instructions complete on a PU where no exception that they raise is enabled in S.DS (R95, R105 to R112): the
result takes its canonical encoding; a comparison writes the flags; D2S and S2D take their scale from a G register. -/
def Obligations.DecimalInstructions : Prop :=
  ∀ (h : Hdr) (d ga gb : BitVec 5) (s t : State) (ds : Word), h.pu.val < 48 → Fetched h false s t → Passes h none false t →
    let a := archOf h t
    let rm := rmOf a.ds
    let done := fun (c : Instr) (e : Exn) (f : Arch → Arch) => statusOf a.ds e = .ok ds →
      exec c s = .next (finish h 4 (fun a => f { a with ds := ds }) t)
    let x := a.d128 ga
    let y := a.d128 gb
    let u := a.d64 ga
    let v := a.d64 gb
    let long := fun (c : Instr) (r : NumRes) => done c r.2 (fun b => b.putD128 d r.1)
    let short := fun (c : Instr) (r : NumRes) => done c r.2 (fun b => b.putD64 d r.1)
    long (.dadd h d ga gb) (addNum d128 rm x y) ∧ long (.dsub h d ga gb) (subNum d128 rm x y) ∧
    long (.dmul h d ga gb) (mulNum d128 rm x y) ∧ long (.ddiv h d ga gb) (divNum d128 rm x y) ∧
    long (.dqua h d ga gb) (quaNum d128 rm x y) ∧
    short (.dadd64 h d ga gb) (addNum d64 rm u v) ∧ short (.dsub64 h d ga gb) (subNum d64 rm u v) ∧
    short (.dmul64 h d ga gb) (mulNum d64 rm u v) ∧ short (.ddiv64 h d ga gb) (divNum d64 rm u v) ∧
    short (.dqua64 h d ga gb) (quaNum d64 rm u v) ∧
    done (.dcmp h ga gb) { v := x.isSig || y.isSig } (fun b => b.putRel (relNum 10 x y)) ∧
    done (.dcmp64 h ga gb) { v := u.isSig || v.isSig } (fun b => b.putRel (relNum 10 u v)) ∧
    short (.dcvt12864 h d ga) (convDec d64 rm (fun p => p % 10 ^ 15) x) ∧
    long (.dcvt64128 h d ga) (convDec d128 rm id u) ∧
    (let r := packed rm x (a.rg gb).toInt
     done (.d2s h d ga gb) r.2 (fun b => b.wf d r.1)) ∧
    (let r := unpacked (a.rf ga).toNat (a.rg gb).toInt
     done (.s2d h d ga gb) r.2 (fun b => b.putD128 d r.1))

/-- The CRA group completes on a PU: the F-register forms write Fd, CLMUL and CLMULH the low and the high half of the carry-less
product into Gd, the bit sum over y's ones of x shifted. AESE, AESD, SHA256R and SHA512R are functions that the model
leaves open (log entry 3); the register files are PRESUMED. -/
def Obligations.CryptoRegisterInstructions : Prop :=
  ∀ (h : Hdr) (d ga gb : BitVec 5) (s t : State), h.pu.val < 48 → Fetched h false s t → Passes h none false t →
    let a := archOf h t
    let put := fun (c : Instr) (v : Quad) => exec c s = .next (finish h 4 (fun r => r.wf d v) t)
    put (.aese h d ga gb) (Config.aese (a.rf d) (a.rf ga) (a.rf gb)) ∧
    put (.aesd h d ga gb) (Config.aesd (a.rf d) (a.rf ga) (a.rf gb)) ∧
    put (.sha256r h d ga gb) (Config.sha256r (a.rf d) (a.rf ga) (a.rf gb)) ∧
    put (.sha512r h d ga gb) (Config.sha512r (a.rf d) (a.rf ga) (a.rf gb)) ∧
    put (.aesmc h d ga gb) (onBytes mixColumns (a.rf ga)) ∧ put (.aesimc h d ga gb) (onBytes invMixColumns (a.rf ga)) ∧
    (∃ p : Quad,
      (∀ i, i < 128 → p.getLsbD i = ((List.range 64).foldl (fun b j =>
        b ^^ ((a.rg gb).getLsbD j && decide (j ≤ i) && (a.rg ga).getLsbD (i - j))) false)) ∧
      exec (.clmul h d ga gb) s = .next (finish h 4 (fun r => r.wg d (p.setWidth 64)) t) ∧
      exec (.clmulh h d ga gb) s = .next (finish h 4 (fun r => r.wg d (p.extractLsb' 64 64)) t))

/-- A register branch to an address that is not word-aligned takes vector 0x08 with detail 3 and the target in S.EADDR
(R72). An atomic, LRES or SCOND at an address that is not a multiple of its size takes vector 0x08 with detail 1, and
an odd pair register of CAS2 vector 0x0C with detail 4 (R63, R191, Table 3.10). An enabled floating-point exception
stops the instruction: vector 0x0E for binary, 0x0F for decimal, with the detail of the highest enabled one, the
result and the sticky bits unwritten (R96). In problem state ERET, WAIT, INV.L, the CMR, LOCKW and TLBI instructions
and the moves to an S-register that is not open take the privileged-operation exception, vector 0x0A, with detail 1
for an instruction and 2 for a register (R76). On a channel engine the groups that it does not have take vector 0x0C
with detail 3, and a move to or from S.SID, S.TTB or S.TXD detail 6, in either state (R85). -/
def Obligations.OperandTraps : Prop :=
  (∀ (h : Hdr) (b : BitVec 5) (s t : State), Fetched h false s t → Passes h none false t →
    let x := (archOf h t).rg b
    x.toNat % 4 ≠ 0 →
      exec (.br h b) s = .next (takeExc h.pu.val h.th (encT h 0x2A 0x00 0 0 b false) false
        { vec := 8, detail := 3, eaddr := x } t) ∧
      exec (.blr h b) s = .next (takeExc h.pu.val h.th (encT h 0x2A 0x01 0 0 b false) false
        { vec := 8, detail := 3, eaddr := x } t) ∧
      (b = rLK → exec (.ret h) s = .next (takeExc h.pu.val h.th (encT h 0x2A 0x02 0 0 0 false) false
        { vec := 8, detail := 3, eaddr := x } t))) ∧
  (∀ (h : Hdr) (d ga gb : BitVec 5) (s t : State), Fetched h false s t →
    let va := (archOf h t).rg ga
    let traps := fun (c : Instr) (e : Exc) => ∃ enc, exec c s = .next (takeExc h.pu.val h.th enc false e t)
    let e : Exc := { vec := 8, detail := 1, eaddr := va }
    (Passes h none true t →
      (va.toNat % 4 ≠ 0 → traps (.lresW h d ga) e ∧ traps (.scondW h d ga gb) { e with w := true }) ∧
      (va.toNat % 8 ≠ 0 → traps (.lresD h d ga) e ∧ traps (.scondD h d ga gb) { e with w := true } ∧
        ∀ c ∈ [.amoSwp h d ga gb, .amoAdd h d ga gb, .amoAnd h d ga gb, .amoOr h d ga gb, .amoXor h d ga gb,
          .amoMax h d ga gb, .amoMin h d ga gb, .amoMaxu h d ga gb, .amoMinu h d ga gb, .cas h d ga gb],
          traps c { e with w := true })) ∧
    (Passes h (some (0x33 * 64 + 0x19)) true t → d.toNat % 2 = 0 → gb.toNat % 2 = 0 → va.toNat % 16 ≠ 0 →
      traps (.cas2 h d ga gb) { e with w := true }) ∧
    (d.toNat % 2 = 1 ∨ gb.toNat % 2 = 1 → traps (.cas2 h d ga gb) { vec := 0x0C, detail := 4 })) ∧
  (∀ (h : Hdr) (d ga gb : BitVec 5) (s t : State) (k : Nat), h.pu.val < 48 → Fetched h false s t → Passes h none false t →
    let a := archOf h t
    (statusOf a.fs (mulNum f64 (rmOf a.fs) (a.f64 ga) (a.f64 gb)).2 = .error k →
      exec (.fmulD h d ga gb) s =
        .next (takeExc h.pu.val h.th (encT h 0x30 0x02 d ga gb false) false { vec := 0x0E, detail := k } t)) ∧
    (statusOf a.ds (divNum d128 (rmOf a.ds) (a.d128 ga) (a.d128 gb)).2 = .error k →
      exec (.ddiv h d ga gb) s =
        .next (takeExc h.pu.val h.th (encT h 0x32 0x03 d ga gb false) false { vec := 0x0F, detail := k } t))) ∧
  (∀ (h : Hdr) (d ga gb : BitVec 5) (loc : Bool) (g : BitVec 5) (sn : BitVec 12) (s t : State), Fetched h false s t →
    (archOf h t).problem = true → (h.pu.val < 48 → ∀ k, storeOmits t h.pu.val k = false) →
    let traps := fun (c : Instr) (detail : Nat) =>
      ∃ enc, exec c s = .next (takeExc h.pu.val h.th enc false { vec := 0x0A, detail := detail } t)
    traps (.eret h) 1 ∧ traps (.wait h) 1 ∧
    (h.pu.val < 48 → traps (.invL h ga) 1 ∧
      traps (.cmrCln h ga gb) 1 ∧ traps (.cmrCli h ga gb) 1 ∧ traps (.cmrInv h ga gb) 1 ∧
      traps (.lockwLock h d ga gb) 1 ∧ traps (.lockwUnlock h d ga gb) 1 ∧ traps (.lockwUnlockSet h d ga gb) 1 ∧
      traps (.tlbiAddr h loc ga gb) 1 ∧ traps (.tlbiAddrAll h loc ga gb) 1 ∧ traps (.tlbiCtx h loc ga gb) 1 ∧
      traps (.tlbiAll h loc ga gb) 1) ∧
    (sregKnown sn.toNat = true → sregProblem sn.toNat = false → h.pu.val < 48 ∨ ceNoSreg sn.toNat = false →
      traps (.mfs h g sn) 2 ∧ traps (.mts h g sn) 2)) ∧
  (∀ (h : Hdr) (d ga gb g : BitVec 5) (loc : Bool) (sn : BitVec 12) (o : T3) (q : Q4) (s t : State), 48 ≤ h.pu.val →
    Fetched h false s t →
    let traps := fun (c : Instr) (detail : Nat) =>
      ∃ enc, exec c s = .next (takeExc h.pu.val h.th enc false { vec := 0x0C, detail := detail } t)
    (∀ c ∈ [.mul h o, .sdiv h o, .udiv h o, .srem h o, .urem h o, .faddD h d ga gb, .fsubD h d ga gb, .fmulD h d ga gb,
        .fdivD h d ga gb, .fsqrtD h d ga, .fcmpD h ga gb, .fminD h d ga gb, .fmaxD h d ga gb, .faddS h d ga gb,
        .fsubS h d ga gb, .fmulS h d ga gb, .fdivS h d ga gb, .fsqrtS h d ga, .fcmpS h ga gb, .fminS h d ga gb,
        .fmaxS h d ga gb, .fcvtSD h d ga, .fcvtDS h d ga, .fcvtGD h d ga, .fcvtDG h d ga, .fmov h d ga, .fneg h d ga,
        .fabs h d ga, .fmvGF h d ga, .fmvFG h d ga, .fmaddD h q, .fmsubD h q, .fnmaddD h q, .fnmsubD h q,
        .dadd h d ga gb, .dsub h d ga gb, .dmul h d ga gb, .ddiv h d ga gb, .dqua h d ga gb, .dcmp h ga gb,
        .d2s h d ga gb, .s2d h d ga gb, .dcvt12864 h d ga, .dcvt64128 h d ga, .dadd64 h d ga gb, .dsub64 h d ga gb,
        .dmul64 h d ga gb, .ddiv64 h d ga gb, .dqua64 h d ga gb, .dcmp64 h ga gb, .aese h d ga gb, .aesd h d ga gb,
        .aesmc h d ga gb, .aesimc h d ga gb, .clmul h d ga gb, .clmulh h d ga gb, .sha256r h d ga gb,
        .sha512r h d ga gb, .clnL h ga, .invL h ga, .cliL h ga, .dzl h ga, .cmrCln h ga gb, .cmrCli h ga gb,
        .cmrInv h ga gb, .lockwLock h d ga gb, .lockwUnlock h d ga gb, .lockwUnlockSet h d ga gb, .tlbiAddr h loc ga gb,
        .tlbiAddrAll h loc ga gb, .tlbiCtx h loc ga gb, .tlbiAll h loc ga gb, .txopen h d, .txopenB h d, .txclose h d,
        .txdrop h ga, .xstart h d ga gb, .crq h d ga, .dfq h d ga], traps c 3) ∧
    (o.d.getLsbD 0 = false → traps (.mulw h o) 3 ∧ traps (.mulwu h o) 3) ∧
    (o.d.getLsbD 0 = true → traps (.mulw h o) 4 ∧ traps (.mulwu h o) 4) ∧
    (sn ∈ [0x10, 0x11, 0x30] → traps (.mfs h g sn) 6 ∧ traps (.mts h g sn) 6))

/-- Taken branches complete (R72): B and BL, short and long, at their own address plus the displacement in words; BR, BLR
and RET at the address that their register held before LK is written. BL and BLR leave the next instruction's address
in LK. CALLM and RETM complete (R73 to R75). CALLM stores the mask, LK, the named registers and the padding below SP, lowers
SP by the frame's size, puts the return address in LK and goes to Gb. RETM finds the mask in the header, gives every
register back, raises SP by the same size and goes to the address that LK held; a header that is not the mask takes
vector 0x09 with detail 4. -/
def Obligations.BranchesAndCallFrames : Prop :=
  (∀ (h : Hdr) (s t : State),
    let a := archOf h t
    (Fetched h false s t → Passes h none false t →
      (∀ disp : BitVec 22,
        let dest := a.pc + BitVec.ofInt 64 (4 * disp.toInt)
        (∃ u, exec (.b h disp) s = .next u ∧ archOf h u = { a with pc := dest }) ∧
        (∃ u, exec (.bl h disp) s = .next u ∧ archOf h u = { a.wg rLK (a.pc + 4) with pc := dest })) ∧
      (∀ b : BitVec 5, (a.rg b).toNat % 4 = 0 →
        (∃ u, exec (.br h b) s = .next u ∧ archOf h u = { a with pc := a.rg b }) ∧
        (∃ u, exec (.blr h b) s = .next u ∧ archOf h u = { a.wg rLK (a.pc + 4) with pc := a.rg b })) ∧
      ((a.rg rLK).toNat % 4 = 0 → ∃ u, exec (.ret h) s = .next u ∧ archOf h u = { a with pc := a.rg rLK })) ∧
    (Fetched h true s t → Passes h none false t →
      ∀ imm : BitVec 32,
        let dest := a.pc + BitVec.ofInt 64 (4 * imm.toInt)
        (∃ u, exec (.bW h imm) s = .next u ∧ archOf h u = { a with pc := dest }) ∧
        (∃ u, exec (.blW h imm) s = .next u ∧ archOf h u = { a.wg rLK (a.pc + 8) with pc := dest }))) ∧
  (∀ (h : Hdr) (mask : BitVec 16) (s t : State), Fetched h false s t →
    let a := archOf h t
    let sp := a.rg rSP
    sp.toNat % 16 = 0 →
    (∀ (b : BitVec 5) (l : List Byte) (v : State),
      let base := sp - BitVec.ofNat 64 (frameSize mask)
      let regs := (maskRegs mask).map a.rg
      let words := mask.setWidth 64 :: a.rg rLK :: regs ++ List.replicate (regs.length % 2) 0
      Passes h (some (0x2B * 64)) false t → (a.rg b).toNat % 4 = 0 →
      storeAll h.pu.val h.th ((words.zipIdx).map (fun x => (base + BitVec.ofNat 64 (8 * x.2), toBe 8 x.1.toNat))) t = .bytes l v →
      ∃ u, exec (.callm h b mask) s = .next u ∧
        archOf h u = { ((archOf h v).wg rSP base).wg rLK (a.pc + 4) with pc := a.rg b }) ∧
    (∀ (v w : State) (head l : List Byte),
      let k := (maskRegs mask).length + 1
      Passes h (some (0x2C * 64)) false t → (a.rg rLK).toNat % 4 = 0 →
      load h.pu.val h.th sp 8 t = .bytes head v → head.length = 8 →
      (BitVec.ofNat 64 (ofBe head) = mask.setWidth 64 →
        loadAll h.pu.val h.th ((List.range k).map (fun i => (sp + BitVec.ofNat 64 (8 + 8 * i), 8))) v = .bytes l w →
        ∃ u, exec (.retm h mask) s = .next u ∧ archOf h u = unframe mask sp (a.rg rLK) (wordsOf k l) (archOf h w)) ∧
      (BitVec.ofNat 64 (ofBe head) ≠ mask.setWidth 64 → ∃ enc, exec (.retm h mask) s = .next
        (takeExc h.pu.val h.th enc false { vec := 9, detail := 4, eaddr := sp } v))))

/-- Taking an exception outside a transaction (R77, R78): the status is saved and PS, IE and RN are cleared, S.EPC,
S.EADDR, S.ECAUSE and S.EINS are written, the reservation is lost, and the thread continues at its vector; nothing
else of its registers changes. ERET in supervisor state with a word-aligned S.EPC completes: S.SW takes S.ESW, but T
stays as it is, the reservation is lost, the fetch latch is empty and the thread continues at S.EPC (R80, R189, R218).
SVC and BRK take their vectors (Table 3.10): SVC 0x0B, with S.EPC after it and CODE a × 32 + b, BRK 0x10 at its own
address. Words that spell no instruction that the core provides take vector 0x0C with their detail and are saved whole in
S.EINS, whatever their condition (R61, R82); words that spell one are that instruction's own command. -/
def Obligations.ExceptionsAndReturn : Prop :=
  (∀ (h : Hdr) (enc : Word) (long : Bool) (e : Exc) (t : State), (t.thr h.pu.val h.th).tx = none → e.words = 2 →
    let u := takeExc h.pu.val h.th enc long e t
    let a := archOf h t
    archOf h u = { a with
      esw := a.sw
      epc := if e.vec = 0x0B then a.pc + 4 else a.pc
      ecause := BitVec.ofNat 64 (2 ^ 32 * (e.code % 1024) + 2 ^ 17 * e.w.toNat + 2 ^ 16 * long.toNat + 2 ^ 8 * (e.detail % 256) +
        e.vec % 64)
      eaddr := e.eaddr
      eins := enc
      sw := a.sw &&& ~~~0xE0000#64
      pc := a.vbar + BitVec.ofNat 64 (256 * e.vec) } ∧
    (u.thr h.pu.val h.th).resv = none ∧ u.mem = t.mem ∧ u.dram = t.dram) ∧
  (∀ (h : Hdr) (s t : State), Fetched h false s t → Passes h (some (0x36 * 64)) true t →
    let a := archOf h t
    a.problem = false → a.epc.toNat % 4 = 0 →
      ∃ u, exec (.eret h) s = .next u ∧
        archOf h u = { a with pc := a.epc, sw := (a.esw &&& ~~~0x800000#64) ||| (a.sw &&& 0x800000) } ∧
        (u.thr h.pu.val h.th).resv = none ∧ (u.thr h.pu.val h.th).fetchLatch = none) ∧
  (∀ (h : Hdr) (s t : State), (t.thr h.pu.val h.th).tx = none →
    let a := archOf h t
    (Fetched h false s t → Passes h none false t →
      (∀ x y : BitVec 5, ∃ u, exec (.svc h x y) s = .next u ∧
        (archOf h u).pc = a.vbar + 0xB00 ∧ (archOf h u).epc = a.pc + 4 ∧ (archOf h u).esw = a.sw ∧
        (archOf h u).ecause = BitVec.ofNat 64 (2 ^ 32 * (x.toNat * 32 + y.toNat) + 0x0B)) ∧
      (∃ u, exec (.brk h) s = .next u ∧
        (archOf h u).pc = a.vbar + 0x1000 ∧ (archOf h u).epc = a.pc ∧ (archOf h u).esw = a.sw ∧
        (archOf h u).ecause = 0x10)) ∧
    (∀ (w1 w2 : BitVec 32) (d : Nat), wordDetail s h.pu h.th w1 w2 = some d → h.cond = wCond w1 → Fetched h (isLong w1) s t →
      ∃ u, exec (.reservedEncoding h.pu h.th w1 w2) s = .next u ∧
        (archOf h u).pc = a.vbar + 0xC00 ∧ (archOf h u).epc = a.pc ∧ (archOf h u).esw = a.sw ∧
        (archOf h u).ecause = BitVec.ofNat 64 (2 ^ 16 * (isLong w1).toNat + 2 ^ 8 * (d % 256) + 0x0C) ∧
        (archOf h u).eins = w1 ++ (if isLong w1 then w2 else 0))) ∧
  (∀ (pu : Fin 84) (th : Bool) (w1 w2 : BitVec 32) (s : State),
    (∀ d, decodeIns pu th w1 w2 = .error d → wordDetail s pu th w1 w2 = some d) ∧
    (∀ i, decodeIns pu th w1 w2 = .ok i → storeLacks s pu.val (w1 ++ w2) (microKey w1) = true →
      wordDetail s pu th w1 w2 = some 3) ∧
    (∀ i, decodeIns pu th w1 w2 = .ok i → storeLacks s pu.val (w1 ++ w2) (microKey w1) = false →
      exec (.reservedEncoding pu th w1 w2) s = .next s))

/-- MFS, MTS and NOP complete where the core has the S-register and it is open to the thread's state (R58, R59, R76, R85). MTS reads Gg
and writes the register's writable bits; after S.SID, S.TTB and S.VBAR, which are microcoded, the thread fetches anew.
What a write of each S-register changes (Tables 3.1 and 3.2): the registers that are read-only keep their value, and a
problem-state write of S.SW changes the four flags alone. -/
def Obligations.SystemRegisterMovesAndWrites : Prop :=
  (∀ (h : Hdr) (g : BitVec 5) (sn : BitVec 12) (s t : State), Fetched h false s t →
    let a := archOf h t
    let k := sn.toNat
    (Passes h none false t → exec (.nop h) s = .next (finish h 4 id t)) ∧
    (sregKnown k = true → (a.problem = true → sregProblem k = true) → (48 ≤ h.pu.val → ceNoSreg k = false) →
      (Passes h none false t → exec (.mfs h g sn) s = .next (finish h 4 (fun r => r.wg g (readSreg t h.pu.val h.th k)) t)) ∧
      (Passes h (mtsMicro k) (mtsRestricted (archOf h s) k ((archOf h s).rg g)) t →
        ∃ u, exec (.mts h g sn) s = .next u ∧
          archOf h u = { writeSreg k (a.rg g) a with pc := a.pc + 4 } ∧
          (k = 0x10 ∨ k = 0x11 ∨ k = 0x40 → (u.thr h.pu.val h.th).fetchLatch = none)))) ∧
  (∀ (a : Arch) (v : Word),
    (∀ k, k ∈ [0x43, 0x44, 0x45, 0x50, 0x51] → writeSreg k v a = a) ∧
    writeSreg 0x00 v a =
      { a with sw := if a.problem then (a.sw &&& 0xFFFFFFFF0FFFFFFF) ||| (v &&& 0xF0000000)
        else (a.sw &&& 0xFFFFFFFF0FB10FFF) ||| (v &&& 0xF04EF000) } ∧
    writeSreg 0x10 v a = { a with sid := BitVec.ofNat 64 (v.toNat % 2 ^ 12) } ∧
    writeSreg 0x40 v a = { a with vbar := BitVec.ofNat 64 (v.toNat % 2 ^ 48 / 2 ^ 14 * 2 ^ 14) } ∧
    writeSreg 0x41 v a = { a with epc := v } ∧
    writeSreg 0x46 v a = { a with scr0 := v } ∧ writeSreg 0x47 v a = { a with scr1 := v } ∧
    (∀ k, k < 4 → writeSreg (0x20 + k) v a = { a with mods := tset 0 a.mods k v }) ∧
    writeSreg 0x24 v a = (if 2 ≤ v.toNat % 32 ∧ v.toNat % 32 ≤ 20 then { a with brv := BitVec.ofNat 64 (v.toNat % 32) } else a))

/-- WAIT in supervisor state completes: the thread waits, unless an interrupt of a priority at or above IPL is pending.
Such an interrupt wakes it: with IE at 0 execution continues and it stays pending (R76). An interrupt that is due at a
boundary is taken: the vector is 0x20 plus its priority, CODE its number, and it is no longer pending (R79). -/
def Obligations.WaitAndInterrupts : Prop :=
  (∀ (h : Hdr) (s t : State), Fetched h false s t → Passes h none true t → (archOf h t).problem = false →
    ∃ u, exec (.wait h) s = .next u ∧ (archOf h u).pc = (archOf h t).pc + 4 ∧
      (u.thr h.pu.val h.th).wait = if wakes (t.thr h.pu.val h.th) then (t.thr h.pu.val h.th).wait else .interrupt) ∧
  (∀ (n : Fin 84) (th : Bool) (s : State),
    (s.thr n.val th).running = true → (s.thr n.val th).halted = false → (s.pu n.val).retrying = false →
    (s.thr n.val th).wait = .interrupt → wakes (s.thr n.val th) = true → dueEvent s n.val th = none →
    ∃ u, exec (.waitWake n th) s = .next u ∧ (u.thr n.val th).wait = .none ∧
      (u.thr n.val th).pend = (s.thr n.val th).pend ∧ (u.thr n.val th).arch = (s.thr n.val th).arch) ∧
  (∀ (n : Fin 84) (th : Bool) (v : Nat) (p : BitVec 4) (s : State),
    (s.thr n.val th).running = true → (s.thr n.val th).halted = false → (s.pu n.val).retrying = false →
    (s.thr n.val th).wait = .none ∨ (s.thr n.val th).wait = .interrupt → (s.thr n.val th).tx = none →
    dueEvent s n.val th = some (.irq v p) →
    let a := (s.thr n.val th).arch
    ∃ u, exec (.interruptTaken n th) s = .next u ∧
      (u.thr n.val th).pend = tset none (s.thr n.val th).pend v none ∧
      (u.thr n.val th).arch = { a with
        esw := a.sw, epc := a.pc, ecause := BitVec.ofNat 64 (2 ^ 32 * (v % 1024) + (0x20 + p.toNat) % 64), eaddr := 0, eins := 0
        sw := a.sw &&& ~~~0xE0000#64
        pc := a.vbar + BitVec.ofNat 64 (256 * (0x20 + p.toNat)) })

/-- The loads complete (R66, R67, R70, R152). Where the bytes at the effective address are obtained, LD and LDX extend
them with zeros, LDS and LDSX with their sign, an F register takes them with its high bits zero, and the register that
the mode updates takes its value. Where the access ends with an exception, the instruction takes it; where it waits, for
its data or in a table walk (vector 0), the instruction is not done. The effective address and the update of each addressing mode of format N (R67, R68): scaled index, post-modify by a register or an
immediate, modulo and bit-reverse. -/
def Obligations.LoadsAndAddressingModes : Prop :=
  (∀ (h : Hdr) (s t : State), Fetched h false s t → Passes h none false t →
    let a := archOf h t
    let loads := fun (c : Instr) (ea : Ea) (size : Nat) (dst : Nat → Arch → Arch) =>
      (∀ l u, load h.pu.val h.th ea.1 size t = .bytes l u →
        exec c s = .next (finish h 4 (fun b => putEa ea (dst (ofBe l) b)) u)) ∧
      (∀ e u, load h.pu.val h.th ea.1 size t = .exc e u →
        (e.vec ≠ 0 → ∃ enc, exec c s = .next (takeExc h.pu.val h.th enc false e u)) ∧ (e.vec = 0 → exec c s = .next u)) ∧
      (∀ u, load h.pu.val h.th ea.1 size t = .stop u → exec c s = .next u)
    let zx := fun (d : BitVec 5) (v : Nat) (b : Arch) => b.wg d (BitVec.ofNat 64 v)
    let sx := fun (k : Nat) (d : BitVec 5) (v : Nat) (b : Arch) => b.wg d (BitVec.ofInt 64 (BitVec.ofNat (8 * k) v).toInt)
    let fx := fun (d : BitVec 5) (v : Nat) (b : Arch) => b.wf d (BitVec.ofNat 128 v)
    (∀ o : MemD,
      let ea : Ea := (a.rg o.a + BitVec.ofInt 64 o.disp.toInt, none)
      loads (.ldB h o) ea 1 (zx o.t) ∧ loads (.ldH h o) ea 2 (zx o.t) ∧ loads (.ldW h o) ea 4 (zx o.t) ∧
      loads (.ldD h o) ea 8 (zx o.t) ∧ loads (.ldsB h o) ea 1 (sx 1 o.t) ∧ loads (.ldsH h o) ea 2 (sx 2 o.t) ∧
      loads (.ldsW h o) ea 4 (sx 4 o.t) ∧ loads (.ldfS h o) ea 4 (fx o.t) ∧ loads (.ldfD h o) ea 8 (fx o.t) ∧
      loads (.ldfQ h o) ea 16 (fx o.t)) ∧
    (∀ (o : MemX) (ea : Ea),
      (decN false true o a = none → eaN a o (2 ^ o.sz.toNat) = .ok ea →
        loads (.ldx h o) ea (2 ^ o.sz.toNat) (zx o.t) ∧ loads (.ldsx h o) ea (2 ^ o.sz.toNat) (sx (2 ^ o.sz.toNat) o.t)) ∧
      (decN true true o a = none → eaN a o (2 * 2 ^ o.sz.toNat) = .ok ea →
        loads (.ldfx h o) ea (2 * 2 ^ o.sz.toNat) (fx o.t))) ∧
    (∀ (o : MemX) (e : Exc),
      let traps := fun (c : Instr) => ∃ enc, exec c s = .next (takeExc h.pu.val h.th enc false e t)
      (decN false true o a = none → eaN a o (2 ^ o.sz.toNat) = .error e → traps (.ldx h o) ∧ traps (.ldsx h o)) ∧
      (decN true true o a = none → eaN a o (2 * 2 ^ o.sz.toNat) = .error e → traps (.ldfx h o)) ∧
      (∀ d, e = { vec := 0x0C, detail := d } →
        (decN false true o a = some (0x0C, d) → traps (.ldx h o) ∧ traps (.ldsx h o)) ∧
        (decN true true o a = some (0x0C, d) → traps (.ldfx h o))))) ∧
  (∀ (a : Arch) (o : MemX) (size : Nat),
    let base := a.rg o.a
    let x := a.rg o.x
    (o.am = 0 → eaN a o size = .ok (base + BitVec.ofNat 64 (x.toNat * 2 ^ o.sm.toNat), none)) ∧
    (o.am = 1 → eaN a o size = .ok (base, some (o.a, base + BitVec.ofNat 64 (x.toNat * 2 ^ o.sm.toNat)))) ∧
    (o.am = 2 → eaN a o size = .ok (base, some (o.a, base + BitVec.ofInt 64 (o.x.toInt * size)))) ∧
    (o.am = 4 →
      let d := tget 0 a.mods o.sm.toNat
      let start := BitVec.ofNat 64 (d.toNat % 2 ^ 48)
      (modLen d = none → eaN a o size = .error { vec := 9, detail := 2, eaddr := start + base }) ∧
      (∀ len, modLen d = some len →
        (len ≤ x.toNat → eaN a o size = .error { vec := 9, detail := 3, eaddr := start + base }) ∧
        (x.toNat < len → len < (base.toNat + size) % 2 ^ 64 →
          eaN a o size = .error { vec := 9, detail := 1, eaddr := start + base }) ∧
        (x.toNat < len → (base.toNat + size) % 2 ^ 64 ≤ len →
          let n := (base.toNat + x.toNat) % 2 ^ 64
          eaN a o size = .ok (start + base, some (o.a, BitVec.ofNat 64 (if len ≤ n then n - len else n)))) ∧
        (x.toNat < len → 0 < size → size < 2 ^ 63 → base.toNat + size ≤ len →
          eaN a o size = .ok (start + base, some (o.a, BitVec.ofNat 64 ((base.toNat + x.toNat) % len)))))) ∧
    (o.am = 5 → a.brv.toNat < 32 →
      let n := a.brv.toNat
      let i := x.toNat % 2 ^ n
      ∃ r, (∀ k, k < n → r.testBit k = i.testBit (n - 1 - k)) ∧ r < 2 ^ n ∧
        eaN a o size = .ok (base + BitVec.ofNat 64 (r * 2 ^ o.sm.toNat), some (o.x, BitVec.ofNat 64 ((i + 1) % 2 ^ n)))))

/-- The stores complete where their bytes enter the store buffer (R66, R67, R70, R194): the low bytes of the register,
most significant first, at the effective address; the register that the mode updates takes its value. Where the access
ends with an exception, the instruction takes it; where it waits, for room in the buffer or in a table walk (vector 0), it
is not done. Beside what translation does (a walk reads its tables as loads do, R154) a store of one instruction changes
nothing but its thread's store buffer and the shadow queue of the trailing copy (R261): all of memory, every other PU,
the rest of its own, and the thread's registers keep their values. A translation that the TLBs hold changes nothing, where
the PU serves a zone. A store within one line adds one entry, not released, at the physical address of its translation,
with the bytes in order (R71, R194). -/
def Obligations.StoresEnterTheBufferAlone : Prop :=
  (∀ (h : Hdr) (s t : State), Fetched h false s t → Passes h none false t →
    let a := archOf h t
    let stores := fun (c : Instr) (ea : Ea) (size v : Nat) =>
      (∀ l u, storeAll h.pu.val h.th [(ea.1, toBe size (v % 2 ^ (8 * size)))] t = .bytes l u →
        exec c s = .next (finish h 4 (putEa ea) u)) ∧
      (∀ e u, storeAll h.pu.val h.th [(ea.1, toBe size (v % 2 ^ (8 * size)))] t = .exc e u →
        (e.vec ≠ 0 → ∃ enc, exec c s = .next (takeExc h.pu.val h.th enc false e u)) ∧ (e.vec = 0 → exec c s = .next u)) ∧
      (∀ u, storeAll h.pu.val h.th [(ea.1, toBe size (v % 2 ^ (8 * size)))] t = .stop u → exec c s = .next u)
    (∀ o : MemD,
      let ea : Ea := (a.rg o.a + BitVec.ofInt 64 o.disp.toInt, none)
      let g := (a.rg o.t).toNat
      let f := (a.rf o.t).toNat
      stores (.stB h o) ea 1 g ∧ stores (.stH h o) ea 2 g ∧ stores (.stW h o) ea 4 g ∧ stores (.stD h o) ea 8 g ∧
      stores (.stfS h o) ea 4 f ∧ stores (.stfD h o) ea 8 f ∧ stores (.stfQ h o) ea 16 f) ∧
    (∀ (o : MemX) (ea : Ea),
      (decN false false o a = none → eaN a o (2 ^ o.sz.toNat) = .ok ea →
        stores (.stx h o) ea (2 ^ o.sz.toNat) (a.rg o.t).toNat) ∧
      (decN true false o a = none → eaN a o (2 * 2 ^ o.sz.toNat) = .ok ea →
        stores (.stfx h o) ea (2 * 2 ^ o.sz.toNat) (a.rf o.t).toNat)) ∧
    (∀ (o : MemX) (e : Exc),
      let traps := fun (c : Instr) (e : Exc) => ∃ enc, exec c s = .next (takeExc h.pu.val h.th enc false e t)
      (decN false false o a = none → eaN a o (2 ^ o.sz.toNat) = .error e → traps (.stx h o) { e with w := true }) ∧
      (decN true false o a = none → eaN a o (2 * 2 ^ o.sz.toNat) = .error e → traps (.stfx h o) { e with w := true }) ∧
      (∀ d, e = { vec := 0x0C, detail := d } →
        (decN false false o a = some (0x0C, d) → traps (.stx h o) e) ∧
        (decN true false o a = some (0x0C, d) → traps (.stfx h o) e)))) ∧
  (∀ (n : Nat) (th : Bool) (l : List (Word × List Byte)) (r : List Byte) (s t : State),
    storeAll n th l s = .bytes r t →
      ∃ ps u, transParts n th .store true (l.flatMap (fun x => parts x.1 x.2.length)) s = (.ok ps, u) ∧
        { t with pus := u.pus } = u ∧ (∀ m, m ≠ n → t.pu m = u.pu m) ∧ t.thr n (!th) = u.thr n (!th) ∧
        { t.pu n with t0 := {}, t1 := {} } = { u.pu n with t0 := {}, t1 := {} } ∧
        { t.thr n th with sb := (u.thr n th).sb, shadow := (u.thr n th).shadow } = u.thr n th ∧
        (∀ va b, l = [(va, b)] → b.length + va.toNat % 256 ≤ 256 →
          ∃ p e, translate n th va .store s = (.ok p, u) ∧ (t.thr n th).sb = (u.thr n th).sb ++ [.store e] ∧
            e.line = p.pa / 256 ∧ e.mt = p.mt ∧ e.released = false ∧ e.size = b.length ∧
            (∀ i, tget none e.bytes (p.pa % 256 + i) = b[i]?))) ∧
  (∀ (n : Nat) (th : Bool) (va : Word) (w : Use) (e : TlbEntry) (s : State), n < 48 → (s.puZone n).isSome = true →
    let a := (s.thr n th).arch
    ttbOn a = true → va.toNat < 2 ^ 48 → tlbLookup (s.pu n) w va.toNat (ttbCtx a) = some e →
    (rightsOk e w a.problem = true →
      translate n th va w s = (.ok { pa := e.pa + va.toNat % 2 ^ e.bits, mt := e.mt, tr := some e }, s)) ∧
    (rightsOk e w a.problem = false → translate n th va w s = (.error (if w = .fetch then 6 else 7, 1), s)))

/-- A load within one line that the L2 holds, by a thread with no open transaction, an empty store buffer and no DEVICE
type, returns the bytes of coherent memory at the physical address of its translation. A released store that may be
drained, into a line that its PU alone holds and in M, is performed: memory takes its bytes at the addresses that its
entry gives and keeps every other byte; the entry leaves the buffer, and those before it take no more merges (R169, R195,
R222). -/
def Obligations.MemoryThroughLoadsAndDrains : Prop :=
  (∀ (n : Nat) (th : Bool) (va : Word) (k : Nat) (p : Phys) (s t : State),
    k + va.toNat % 256 ≤ 256 → 0 < k → translate n th va .load s = (.ok p, t) → p.mt ≠ .device →
    (t.thr n th).sb = [] → (∀ m y, (t.thr m y).tx = none) → (l2State (t.pu n) (p.pa / 256)).isSome = true →
    t.poisoned (p.pa / 256) = false → tget none t.coh.pins (p.pa / 256) = none →
      ∃ u, load n th va k s = .bytes (t.rd p.pa k) u ∧ u.mem = t.mem ∧ u.dram = t.dram) ∧
  (∀ (pu : Fin 84) (th : Bool) (i : Nat) (e : SbEntry) (s : State), pu.val < 48 →
    (s.thr pu.val th).sb[i]? = some (.store e) → mayDrain pu.val (s.thr pu.val th).sb i e = true →
    clocked s pu.val = true → e.mt ≠ .device → e.tx = false → isCommit s e.line = false →
    l2State (s.pu pu.val) e.line = some .m → holders s e.line = [pu.val] → homeHeld s e.line = false →
    tget none s.coh.busy e.line = none → tget none s.coh.pins e.line = none → (∀ m y, (s.thr m y).tx = none) →
      ∃ v, exec (.storeBufferDrain pu th i) s = .next (after (settled v)) ∧
        (v.thr pu.val th).sb = ((beginDrain i (s.thr pu.val th)).sb.eraseIdx i).dropWhile (fun x => decide (x = .marker)) ∧
        (beginDrain i (s.thr pu.val th)).sb.length = (s.thr pu.val th).sb.length ∧
        (∀ a, (∀ x ∈ e.bytes, a ≠ 256 * e.line + x.1) → tget 0 v.mem a = tget 0 s.mem a) ∧
        ((e.bytes.map (fun x => x.1)).Nodup →
          ∀ x ∈ e.bytes, tget 0 v.mem (256 * e.line + x.1) = x.2.getD 0))

/-- LRES and SCOND complete (R188, R189): LRES takes the line into E or M and holds the reservation; SCOND under its
reservation stores, with Gd 0, and without it writes nothing, with Gd 1; either way the reservation is gone after it.
The atomics complete in the PU's own L2 where it holds the line in M (R191 to R193, Table 7.6): the destination takes
the old value, memory the new one, most significant byte first, and every other byte keeps its value. A request that must not
be sent twice waits until what came before it has compared good (R262). -/
def Obligations.ReserveStoreAndAtomics : Prop :=
  (∀ (h : Hdr) (d ga gb : BitVec 5) (s t u : State) (p : Part), Fetched h false s t → Passes h none true t →
    let n := h.pu.val
    let a := archOf h t
    let l := p.1.pa / 256
    (∀ (c : Instr) (k : Nat), (c, k) ∈ [(.lresD h d ga, 8), (.lresW h d ga, 4)] →
      atomAccess n h.th .load false (a.rg ga) k t = (.ok p, u) → fencesHold (u.thr n h.th) = false →
      ∀ b u' v w, homeAnswer n h.th p.1.pa .read 0 u = (none, u') → loadLine n h.th p u' = .bytes b v →
        ownForLres n h.th l v = (true, w) →
        (l2State (v.pu n) l = some .m ∨ l2State (v.pu n) l = some .e → w = v) ∧
        ∃ r, exec c s = .next r ∧ (r.thr n h.th).resv = some l ∧ r.mem = w.mem ∧
          archOf h r = { (archOf h w).wg d (BitVec.ofNat 64 (ofBe b)) with pc := (archOf h w).pc + 4 }) ∧
    (∀ (c : Instr) (k : Nat), (c, k) ∈ [(.scondD h d ga gb, 8), (.scondW h d ga gb, 4)] →
      atomAccess n h.th .store true (a.rg ga) k t = (.ok p, u) →
      (u.thr n h.th).replay = [] → latchRoom (u.thr n h.th) = true → comparedAll u n h.th = true →
      ((u.thr n h.th).resv ≠ some l →
        ∃ r, exec c s = .next r ∧ (r.thr n h.th).resv = none ∧ r.mem = u.mem ∧
          archOf h r = { (archOf h u).wg d 1 with pc := (archOf h u).pc + 4 }) ∧
      ((u.thr n h.th).resv = some l → (u.thr n h.th).sb = [] → isCommit u l = false → (∀ m y, (u.thr m y).tx = none) →
        l2State (u.pu n) l = some .m → holders u l = [n] → homeHeld u l = false → tget none u.coh.busy l = none →
        tget none u.coh.pins l = none →
        ∃ r, exec c s = .next r ∧ (r.thr n h.th).resv = none ∧
          archOf h r = { (archOf h u).wg d 0 with pc := (archOf h u).pc + 4 } ∧
          r.rd p.1.pa k = toBe k ((archOf h u).rg gb).toNat ∧
          (∀ x, x < p.1.pa ∨ p.1.pa + k ≤ x → tget 0 r.mem x = tget 0 u.mem x)))) ∧
  (∀ (h : Hdr) (d ga gb : BitVec 5) (s t u : State) (p : Part), Fetched h false s t →
    let n := h.pu.val
    let a := archOf h t
    let pa := p.1.pa
    (u.thr n h.th).replay = [] → latchRoom (u.thr n h.th) = true → comparedAll u n h.th = true → (u.thr n h.th).sb = [] →
    lineTurn (u.puAcc n h.th) (pa / 256) u = true → homeBusy u (pa / 256) = false → tget none u.coh.pins (pa / 256) = none →
    heldM u n (pa / 256) = true → isCommit u (pa / 256) = false → u.poisoned (pa / 256) = false →
    (∀ m y, (u.thr m y).tx = none) →
    let atomic := fun (c : Instr) (k : Nat) (new : Nat → Nat) (dst : Nat → Arch → Arch) =>
      atomAccess n h.th .rmw true (a.rg ga) k t = (.ok p, u) →
      let old := ofBe (u.rd pa k)
      ∃ r, exec c s = .next r ∧ archOf h r = { dst old (archOf h u) with pc := (archOf h u).pc + 4 } ∧
        r.rd pa k = toBe k (new old) ∧ (∀ x, x < pa ∨ pa + k ≤ x → tget 0 r.mem x = tget 0 u.mem x)
    let amo := fun (c : Instr) (f : Word → Word → Word) =>
      atomic c 8 (fun old => (f (BitVec.ofNat 64 old) (a.rg gb)).toNat) (fun old r => r.wg d (BitVec.ofNat 64 old))
    (Passes h none true t →
      amo (.amoSwp h d ga gb) (fun _ y => y) ∧ amo (.amoAdd h d ga gb) (fun x y => x + y) ∧
      amo (.amoAnd h d ga gb) (fun x y => x &&& y) ∧ amo (.amoOr h d ga gb) (fun x y => x ||| y) ∧
      amo (.amoXor h d ga gb) (fun x y => x ^^^ y) ∧
      amo (.amoMax h d ga gb) (fun x y => if x.toInt ≤ y.toInt then y else x) ∧
      amo (.amoMin h d ga gb) (fun x y => if x.toInt ≤ y.toInt then x else y) ∧
      amo (.amoMaxu h d ga gb) (fun x y => if x.toNat ≤ y.toNat then y else x) ∧
      amo (.amoMinu h d ga gb) (fun x y => if x.toNat ≤ y.toNat then x else y) ∧
      amo (.cas h d ga gb) (fun x y => if x = a.rg d then y else x)) ∧
    (Passes h (some (0x33 * 64 + 0x19)) true t → d.toNat % 2 = 0 → gb.toNat % 2 = 0 →
      atomic (.cas2 h d ga gb) 16
        (fun old => if old = (a.rg d ++ a.rg (d + 1)).toNat then (a.rg gb ++ a.rg (gb + 1)).toNat else old)
        (fun old r => (r.wg d (BitVec.ofNat 64 (old / 2 ^ 64))).wg (d + 1) (BitVec.ofNat 64 old))))

/-- The fences retire with their effect on the store buffer alone: FENCE.SL and FENCE.ALL keep later loads behind the
stores that are buffered, FENCE.SS and FENCE.ALL put a marker behind them; inside a transaction or with no store they
do nothing (R178, R180, R241). SYNC.EP, once what came before it has compared good, leaves the thread waiting at its own address with a marker (R181), and
SYNC_EP_COMPLETE retires it once its stores, its tracker and the writeback buffer are empty, or reports the DEVICE
store that failed (R181, R185). -/
def Obligations.FencesAndSynchronization : Prop :=
  (∀ (h : Hdr) (s t : State), Fetched h false s t →
    let n := h.pu.val
    let sb := (t.thr n h.th).sb
    let acts := (t.thr n h.th).tx = none ∧ ∃ e, SbItem.store e ∈ sb
    let barred := sb.map (fun i => match i with
      | .store e => .store { e with barsLoads := true }
      | .marker => .marker)
    let fenced := fun (c : Instr) (b : List SbItem) =>
      ∃ v, exec c s = .next (retire n h.th (advance n h.th 4 v)) ∧ { v with pus := t.pus } = t ∧
        (∀ m, m ≠ n → v.pu m = t.pu m) ∧ v.thr n (!h.th) = t.thr n (!h.th) ∧
        { v.thr n h.th with sb := sb } = t.thr n h.th ∧
        (acts → (v.thr n h.th).sb = b) ∧ (¬ acts → (v.thr n h.th).sb = sb)
    (Passes h none false t →
      fenced (.fenceLL h) sb ∧ fenced (.fenceLS h) sb ∧ fenced (.fenceSL h) barred ∧ fenced (.fenceSS h) (sb ++ [.marker]) ∧
      fenced (.fenceAll h) (barred ++ [.marker])) ∧
    (Passes h (some (0x34 * 64 + 0x08)) true t →
      comparedAll t n h.th = true → ∃ u enc, exec (.syncEp h) s = .next u ∧ (u.thr n h.th).wait = .sync enc ∧ archOf h u = archOf h t ∧
        (acts → (u.thr n h.th).sb = barred ++ [.marker]))) ∧
  (∀ (pu : Fin 84) (th : Bool) (enc : Word) (s : State), clocked s pu.val = true →
    (s.thr pu.val th).wait = .sync enc → (∀ e, SbItem.store e ∉ (s.thr pu.val th).sb) → (s.thr pu.val th).running = true →
    (s.pu pu.val).retrying = false →
    ((s.thr pu.val th).devFail = none → (s.pu pu.val).tracker = [] → s.coh.wbuf = [] →
      ∃ u, exec (.syncEpComplete pu th) s = .next u ∧ (u.thr pu.val th).wait = .none ∧
        (u.thr pu.val th).arch = { (s.thr pu.val th).arch with pc := (s.thr pu.val th).arch.pc + 4 } ∧ u.mem = s.mem) ∧
    (∀ fa d, (s.thr pu.val th).devFail = some (fa, d) →
      exec (.syncEpComplete pu th) s = .next (takeExc pu.val th enc false { vec := 7, detail := d, eaddr := fa, w := true }
        (s.updThr pu.val th (fun x => { x with wait := .none, devFail := none })))))

/-- TXOPEN, TXOPEN.B, TXCLOSE and TXDROP complete (R236 to R238, R243): the outermost TXOPEN saves the registers, clears
Gd and sets T; inner ones change the depth alone; the outermost TXCLOSE makes every transactional byte visible at once
and no other; TXCLOSE outside a transaction gives all ones. TXOPEN.B's nesting is not stated here. An abort gives the
thread back the registers of its outermost TXOPEN, with T at 0 and no reservation (R245, R246, R250): Gd holds the
code and execution continues after the TXOPEN; a constrained transaction whose abort is of a restarted kind, or one
with an exception, continues at its TXOPEN.B. What other transactions wrote does not change these registers. -/
def Obligations.Transactions : Prop :=
  (∀ (h : Hdr) (d ga : BitVec 5) (s t : State), h.pu.val < 48 → Fetched h false s t →
    let n := h.pu.val
    let a := archOf h t
    let micro := fun (k : Nat) => some (0x35 * 64 + k)
    ((t.thr n h.th).tx = none → (∀ e, SbItem.store e ∉ (t.thr n h.th).sb) →
      ∀ (c : Instr) (k : Nat) (constrained : Bool), (c, k, constrained) ∈ [(.txopen h d, 0, false), (.txopenB h d, 1, true)] →
        Passes h (micro k) false t →
        ∃ u x, exec c s = .next u ∧ (u.thr n h.th).tx = some x ∧ x.constrained = constrained ∧ x.depth = 1 ∧ x.saved = a ∧
          x.openPc = a.pc ∧ x.d = d ∧ x.reads = [] ∧ x.writes = [] ∧ x.data = [] ∧ (u.thr n h.th).resv = none ∧
          archOf h u = { a.wg d 0 with sw := a.sw ||| 0x800000, pc := a.pc + 4 }) ∧
    ((t.thr n h.th).tx = none → Passes h (micro 2) false t →
      exec (.txclose h d) s = .next (finish h 4 (fun r => r.wg d 0xFFFFFFFFFFFFFFFF) t)) ∧
    ((t.thr n h.th).tx = none → Passes h (micro 3) false t → exec (.txdrop h ga) s = .next (finish h 4 id t)) ∧
    (∀ x, (t.thr n h.th).tx = some x →
      (Passes h (micro 0) false t → x.constrained = false →
        (x.depth ≠ 31 → ∃ u y, exec (.txopen h d) s = .next u ∧ (u.thr n h.th).tx = some y ∧ y.depth = x.depth + 1 ∧
          y.saved = x.saved ∧ archOf h u = { a.wg d 0 with pc := a.pc + 4 }) ∧
        (x.depth = 31 → exec (.txopen h d) s = .next (abortOwn n h.th 1 a.pc t))) ∧
      (Passes h (micro 2) false t → 1 < x.depth →
        ∃ u y, exec (.txclose h d) s = .next u ∧ (u.thr n h.th).tx = some y ∧ y.depth = x.depth - 1 ∧
          archOf h u = { a.wg d (BitVec.ofNat 64 (x.depth - 1)) with pc := a.pc + 4 }) ∧
      (Passes h (micro 2) false t → x.depth = 1 → (∀ e, SbItem.store e ∉ (t.thr n h.th).sb) →
        comparedAll t n h.th = true → x.lost = [] → (∀ l ∈ x.writes, isCommit t l = false) →
        t.coh.waits = [] → t.coh.wbuf = [] →
        ∃ u, exec (.txclose h d) s = .next u ∧ (u.thr n h.th).tx = none ∧
          archOf h u = { a.wg d 0 with sw := a.sw &&& ~~~0x800000#64, pc := a.pc + 4 } ∧
          (∀ b, (∀ e ∈ x.data, e.1 ≠ b) → tget 0 u.mem b = tget 0 t.mem b) ∧
          (x.writes.Nodup → (x.data.map (fun e => e.1)).Nodup →
            ∀ e ∈ x.data, e.1 / 256 ∈ x.writes → tget 0 u.mem e.1 = e.2.getD 0)) ∧
      (Passes h (micro 3) false t →
        exec (.txdrop h ga) s = .next (abortOwn n h.th (0x80 + (a.rg ga).toNat % 128) a.pc t)))) ∧
  (∀ (n : Nat) (th : Bool) (code : Nat) (insn : Word) (s : State) (x : Tx), (s.thr n th).tx = some x →
    let u := abortOwn n th code insn s
    (u.thr n th).tx = none ∧ (u.thr n th).resv = none ∧
    (∀ e, SbItem.store e ∈ (u.thr n th).sb → e.tx = false ∧ SbItem.store e ∈ (s.thr n th).sb) ∧
    (x.constrained = false → (u.thr n th).arch =
      { x.saved.wg x.d (BitVec.ofNat 64 code) with pc := x.openPc + 4, sw := x.saved.sw &&& ~~~0x800000#64 }) ∧
    (x.constrained = true → code ∈ [2, 4, 5, 8, 14, 15, 17] → (u.thr n th).arch =
      { x.saved with pc := x.openPc, sw := x.saved.sw &&& ~~~0x800000#64 }))

/-- CLN.L, INV.L and CLI.L complete on a PU, once what came before them has compared good (R262), where the homes let their
line have the operation, and do nothing on DEVICE memory (R214). DZL on a line that its PU alone holds, in M, stores 256
bytes of zero there and changes no other byte. What one maintenance operation makes of a line outside the commit region
(Table 8.5, R214, R216), with no transaction open and every holder answering: CLN and CLI leave coherent memory as it
was, with the controllers holding the line's data; INV gives up what the controllers do not hold, unless the dirty way is
locked; bytes of every other line stay as they were. The CMR instructions complete: with no line in Gb at once; else once
every line of the range that is cached has had the operation (R215). A range past 4 TiB, or a segment that is not valid or
is of kind DEVICE, ends them with vector 0x05. -/
def Obligations.CacheMaintenance : Prop :=
  (∀ (h : Hdr) (ga : BitVec 5) (s t u : State) (p : Part), h.pu.val < 48 → Fetched h false s t → Passes h none true t →
    let n := h.pu.val
    let va := (archOf h t).rg ga
    let l := p.1.pa / 256
    mntWaits u n h.th [l] = false →
    (∀ (c : Instr) (op : MntOp), (c, op) ∈ [(.clnL h ga, .clean), (.invL h ga, .inval), (.cliL h ga, .cleanInval)] →
      (op = .inval → (archOf h t).problem = false) →
      transParts n h.th (if op = .inval then .inval else .clean) (decide (op = .inval)) [(va, 1)] t = (.ok [p], u) →
      (p.1.mt = .device → exec c s = .next (finish h 4 id u)) ∧
      (p.1.mt ≠ .device → ∀ v w y, asked (u.puAcc n h.th) p.1.pa (mntKind op) 5 u = (none, v) →
        lineTurn (u.puAcc n h.th) l v = true → homeBusy v l = false → pinsLet (u.puAcc n h.th) none l v = (true, w) →
        mntLine op (u.puAcc n h.th) l (some (n, h.th)) w = (true, y) →
        exec c s = .next (finish h 4 id (lineOut (u.puAcc n h.th) l y)))) ∧
    (transParts n h.th .store true [(va, 1)] t = (.ok [p], u) →
      (p.1.mt = .device →
        ∃ enc, exec (.dzl h ga) s =
          .next (takeExc n h.th enc false { vec := 7, detail := 4, eaddr := va, w := true } u)) ∧
      (p.1.mt ≠ .device → isCommit u l = false → l2State (u.pu n) l = some .m → holders u l = [n] →
        homeHeld u l = false → tget none u.coh.busy l = none → tget none u.coh.pins l = none →
        (∀ m y, (u.thr m y).tx = none) →
        ∃ r, exec (.dzl h ga) s = .next r ∧ archOf h r = { archOf h u with pc := (archOf h u).pc + 4 } ∧
          ∀ x, tget 0 r.mem x = if x / 256 = l then 0 else tget 0 u.mem x))) ∧
  (∀ (a : Acc) (l : Nat) (own : Option (Nat × Bool)) (s u : State), (∀ m y, (s.thr m y).tx = none) → isCommit s l = false →
    (∀ n ∈ holders s l, agentUp s n = true) →
    (∀ op, op = .clean ∨ op = .cleanInval → mntLine op a l own s = (true, u) →
      u.mem = s.mem ∧ (∀ x, x / 256 ≠ l → tget 0 u.dram x = tget 0 s.dram x) ∧
      (anyDirty s l = true → ∀ x, x / 256 = l → tget 0 u.dram x = tget 0 s.mem x)) ∧
    ((∀ n, n < 86 → heldM s n l = true → lockedWay s n l = false) → mntLine .inval a l own s = (true, u) →
      u.dram = s.dram ∧
      ∀ x, tget 0 u.mem x = if x / 256 = l ∧ anyDirty s l = true then tget 0 s.dram x else tget 0 s.mem x)) ∧
  (∀ (h : Hdr) (ga gb : BitVec 5) (s t : State), h.pu.val < 48 → Fetched h false s t → Passes h (some (0x34 * 64 + 0x14)) true t →
    let n := h.pu.val
    let a := archOf h t
    let start := (a.rg ga).toNat / 256 * 256
    let len := (a.rg gb).toNat / 256 * 256
    a.problem = false →
    ∀ (c : Instr) (op : MntOp), (c, op) ∈ [(.cmrCln h ga gb, .clean), (.cmrCli h ga gb, .cleanInval), (.cmrInv h ga gb, .inval)] →
      (len = 0 → exec c s = .next (finish h 4 id t)) ∧
      (len ≠ 0 → 2 ^ 42 < start + len → ∃ enc, exec c s = .next (takeExc n h.th enc false
        { vec := 5, detail := 1, eaddr := a.rg ga, w := decide (op = .inval) } t)) ∧
      (∀ z : Fin 16, len ≠ 0 → start + len ≤ 2 ^ 42 → t.puZone n = some z →
        let segs := rangeSegs start len
        (∀ d x, cmrRefused t z.val segs = some (d, x) → ∃ enc, exec c s = .next (takeExc n h.th enc false
          { vec := 5, detail := d, eaddr := BitVec.ofNat 64 x, w := decide (op = .inval) } t)) ∧
        (∀ u w, cmrRefused t z.val segs = none → cmrAnswer (t.puAcc n h.th) z.val (mntKind op) segs t = (none, u) →
          let lines := (cachedLines u).filter (fun l => segs.any (fun g =>
            decide (2 ^ 30 * segPseg (u.segEntry z.val g.1) + g.2.1 ≤ 256 * l) &&
              decide (256 * l < 2 ^ 30 * segPseg (u.segEntry z.val g.1) + g.2.2)))
          mntWaits u n h.th lines = false → arbTurn (.cmr n h.th) u = true →
            mntLines op (u.puAcc n h.th) (some (n, h.th)) lines u = (true, w) →
            exec c s = .next (finish h 4 id (arbOut (.cmr n h.th) w)))))

/-- LOCKW completes on a PU with its result in Gd (R211, R212, Table 8.3): 3 for DEVICE memory, 4 for a reserved selector;
unlocking a locked line's way gives 0 and leaves the way unlocked at age 3, any other line 1; unlocking a set gives 1
where no way of it is locked; locking gives what the way's lock answers. TLBI completes (R163 to R165): a local one
removes the matching entries of its own PU, a fetch latch's page among them; a zone-scoped one waits at the arbiter for
every PU of its zone that is ON. A delivery removes them at its PU, and the instruction retires with the last
acknowledgement; a PU that does not answer in time is left out. XSTART, CRQ and DFQ complete (R176, R263, R372, R397):
the request reaches its engine's queue or its unit and the thread waits for the answer; IOA_ACKNOWLEDGE puts it into Gd
and into the replay latch and retires the instruction. After a retry the latch answers the same instruction. A descriptor
that is not aligned takes vector 0x08 with detail 4. That 3 comes before 4 is the model's choice (log entry 70). -/
def Obligations.LockingTlbAndIoa : Prop :=
  (∀ (h : Hdr) (d ga gb : BitVec 5) (s t u : State) (p : Part), h.pu.val < 48 → Fetched h false s t →
    Passes h (some (0x34 * 64 + 0x15)) true t → mntWaits u h.pu.val h.th [] = false →
    let n := h.pu.val
    let a := archOf h t
    let l := p.1.pa / 256
    let sel := (a.rg gb).toNat % 4
    a.problem = false → transParts n h.th .clean false [(a.rg ga, 1)] t = (.ok [p], u) →
    ∀ c ∈ [.lockwLock h d ga gb, .lockwUnlock h d ga gb, .lockwUnlockSet h d ga gb],
      let gives := fun (v : State) (r : Nat) => exec c s = .next (finish h 4 (fun b => b.wg d (BitVec.ofNat 64 r)) v)
      (p.1.mt = .device → gives u 3) ∧
      (p.1.mt ≠ .device →
        (sel = 3 → gives u 4) ∧
        (sel = 0 → (lockedWay u n l = false → gives u 1) ∧
          (∀ w, l2Find (u.pu n) l = some w → lockedWay u n l = true →
            gives (u.updPu n (updWay l w (fun x => { x with locked := false, age := 3 }))) 0)) ∧
        (sel = 2 → (setWays (u.pu n) l (fun x => x.locked) = [] → gives u 1) ∧
          (setWays (u.pu n) l (fun x => x.locked) ≠ [] → ∃ v, gives v 0 ∧ setWays (v.pu n) l (fun x => x.locked) = [])) ∧
        (sel = 1 → ∀ r v, lockWay n h.th p u = (.ok (some r), v) → gives v r)) ∧
      (∀ w, l2Find (u.pu n) l = some w → lockedWay u n l = false →
        (setWays (u.pu n) l (fun x => x.locked)).length < 4 →
        lockWay n h.th p u = (.ok (some 0), u.updPu n (updWay l w (fun x => { x with locked := true })))) ∧
      (lockedWay u n l = true → lockWay n h.th p u = (.ok (some 1), u))) ∧
  ((∀ (h : Hdr) (ga gb : BitVec 5) (s t : State), h.pu.val < 48 → Fetched h false s t →
    Passes h (some (0x34 * 64 + 0x18)) true t → comparedAll t h.pu.val h.th = true →
    let n := h.pu.val
    let va := ((archOf h t).rg ga).toNat
    let ctx := BitVec.ofNat 16 ((archOf h t).rg gb).toNat
    (archOf h t).problem = false → (t.thr n h.th).sb = [] →
    ∀ (f : Bool → Instr) (op : TlbiOp), (f, op) ∈ [(fun b => .tlbiAddr h b ga gb, TlbiOp.addr),
        (fun b => .tlbiAddrAll h b ga gb, .addrAll), (fun b => .tlbiCtx h b ga gb, .ctx), (fun b => .tlbiAll h b ga gb, .all)] →
      (tlbiHeld op va ctx (t.pu n) = false →
        ∃ u, exec (f true) s = .next u ∧ archOf h u = { archOf h t with pc := (archOf h t).pc + 4 } ∧
          (u.pu n).tlb = (t.pu n).tlb.filter (fun e => !tlbiHits op va ctx e) ∧
          (u.pu n).dtlb = (t.pu n).dtlb.filter (fun e => !tlbiHits op va ctx e) ∧
          (u.pu n).walk = (t.pu n).walk.filter (fun e => !tlbiWalk op va ctx e) ∧
          (∀ y, (u.thr n y).fetchLatch =
            (t.thr n y).fetchLatch.filter (fun x => !(tlbiHits op va ctx x.2 && (x.1 || decide (op = .all))))) ∧ { u with pus := t.pus } = t) ∧
      (∀ z : Fin 16, t.coh.arb.length + t.coh.arbHome.length < 32 → t.puZone n = some z →
        ∃ u, exec (f false) s = .next u ∧ (u.thr n h.th).wait = .tlbi ∧ archOf h u = archOf h t ∧
          u.coh.arb = t.coh.arb ++ [{
            pu := n, th := h.th, op := op, va := va, ctx := ctx
            todo := ((zonePus t z.val).filter (fun k => decide (t.lcs (.pu k) = .on))).map (fun k => k.val) }])) ∧
  (∀ (pu : Fin 48) (i : Nat) (x : ArbTlbi) (s : State), clocked s pu.val = true →
    s.coh.arb.findIdx? (fun y => y.todo.contains pu.val) = some i → s.coh.arb[i]? = some x →
    tlbiHeld x.op x.va x.ctx (s.pu pu.val) = false → (∀ y ∈ s.coh.arb, y.todo ≠ []) →
    let rest := x.todo.filter (fun k => decide (k ≠ pu.val))
    ∃ u, exec (.tlbiDelivery pu) s = .next u ∧
      (u.pu pu.val).tlb = (s.pu pu.val).tlb.filter (fun e => !tlbiHits x.op x.va x.ctx e) ∧
      (u.pu pu.val).dtlb = (s.pu pu.val).dtlb.filter (fun e => !tlbiHits x.op x.va x.ctx e) ∧
      (rest ≠ [] → u.coh.arb = s.coh.arb.set i { x with todo := rest }) ∧
      (rest = [] → (s.thr x.pu x.th).wait = .tlbi → (u.thr x.pu x.th).wait = .none ∧
        (u.thr x.pu x.th).arch = { (s.thr x.pu x.th).arch with pc := (s.thr x.pu x.th).arch.pc + 4 })) ∧
  (∀ (pu : Fin 48) (s : State), s.coh.arb.any (fun x => x.todo.contains pu.val) = true →
    let told := { s with coh := { s.coh with
      arb := s.coh.arb.map (fun x => { x with todo := x.todo.filter (fun k => decide (k ≠ pu.val)) }) } }
    exec (.tlbiTimeout pu) s = .next (after (tlbiFinish
      (if s.lcs (.pu pu) = .on then declareFailed pu 12 0 true true told else told))))) ∧
  ((∀ (h : Hdr) (d ga gb : BitVec 5) (s t u : State) (ph : Phys), h.pu.val < 48 → Fetched h false s t →
    let n := h.pu.val
    let va := (archOf h t).rg ga
    let asks := fun (c : Instr) (k align : Nat) (send : Nat → Word → State → Res) => Passes h (some (0x37 * 64 + k)) true t →
      (va.toNat % align ≠ 0 → ∃ enc, exec c s = .next (takeExc n h.th enc false { vec := 8, detail := 4, eaddr := va } t)) ∧
      (va.toNat % align = 0 → translate n h.th va .load t = (.ok ph, u) →
        (∀ e, replayOf (u.thr n h.th) .ioa = some e →
          ∃ w, exec c s = .next w ∧ archOf h w = { (archOf h u).wg d e.lo with pc := (archOf h u).pc + 4 } ∧
            (w.thr n h.th).replay = (u.thr n h.th).replay.erase e) ∧
        (replayOf (u.thr n h.th) .ioa = none → latchRoom (u.thr n h.th) = true → (u.thr n h.th).sb = [] →
          comparedAll u n h.th = true →
          (∀ w, send (zonePhys va ph) va u = .wait w → exec c s = .next w) ∧
          (∀ e w, e.vec ≠ 0 → send (zonePhys va ph) va u = .exc e w → ∃ enc, exec c s = .next (takeExc n h.th enc false e w))))
    asks (.xstart h d ga gb) 0 64 (sendXstart h d gb) ∧ asks (.crq h d ga) 1 128 (sendRequest false h d) ∧
    asks (.dfq h d ga) 2 128 (sendRequest true h d)) ∧
  (∀ (h : Hdr) (d gb : BitVec 5) (zpa : Nat) (va : Word) (x : State),
    let n := h.pu.val
    let z := (zoneNum x n).getD 0
    (∀ comp, unitHeld x comp = false →
      let r := request comp z (x.thr n h.th).arch.sid zpa x
      r.2.coh.blocked = [] →
      sendRequest comp h d zpa va x = .wait (r.2.updThr n h.th (fun y => { y with wait := .ioa d (some r.1) }))) ∧
    (let epN := ((x.thr n h.th).arch.rg gb).toNat % 65536
     let pa := 0x2000000 + 256 * epN
     ∀ ep e, x.poisoned (pa / 256) = false → epOf x (x.rd pa 256) = some ep → (x.le ep.home).gap = false →
       (x.le ep.home).xq.length < 256 → x.lcs (.zone (Fin.ofNat 16 z)) = .on → engineOf x ep.home = some e →
       sendXstart h d gb zpa va x = .wait ((x.updLe ep.home (fun y => { y with
         xq := y.xq ++ [{ pu := n, th := h.th, zone := z, desc := zpa, ep := epN }] })).updThr n h.th
           (fun y => { y with wait := .ioa d none })))) ∧
  (∀ (pu : Fin 48) (th : Bool) (d : BitVec 5) (v : Word) (s : State), (s.thr pu.val th).wait = .ioa d (some v) →
    (s.thr pu.val th).running = true → (s.pu pu.val).retrying = false → (s.pu pu.val).unchecked = false →
    clocked s pu.val = true → ∃ u, exec (.ioaAcknowledge pu th) s = .next u ∧ (u.thr pu.val th).wait = .none ∧
      (u.thr pu.val th).arch = { (s.thr pu.val th).arch.wg d v with pc := (s.thr pu.val th).arch.pc + 4 } ∧
      (u.thr pu.val th).latch = (s.thr pu.val th).latch ++
        [{ kind := .ioa, pc := (s.thr pu.val th).arch.pc, hi := 0, lo := v }] ∧
      { u with pus := s.pus } = s))

/-- Where no transaction is open, an instruction on registers alone, whether it completes, is skipped by its condition or
takes an exception, changes nothing outside its own thread: every byte of memory, every other core, the other thread of
its core and the core's caches, tables and registers keep their values, but for the replacement state of the lines that
its fetch used (R206, R207) and, on an exception, its thread's waiting requests; so do its thread's store buffer contents,
its pending interrupts and its notes, but for what retirement without comparison releases (R56, R78, R117). What the writes
of the registers leave as it was (R56, R57, R89, Table 4.1): a write of Gd or Fd changes that register alone; a result
with S changes N, Z, C and V of S.SW and no other bit of it; without S no bit of it. -/
def Obligations.RegisterInstructionFrames : Prop :=
  (∀ (h : Hdr) (s t u : State) (o : T3) (p : T2) (i : I12) (q : Q4) (x : X32) (d a b : BitVec 5) (f : Bool)
    (m : BitVec 12) (k : BitVec 6) (j : BitVec 17) (w : BitVec 32) (c : Instr), (t.thr h.pu.val h.th).tx = none →
    let n := h.pu.val
    let rest := fun (v : Pu) => if h.th then { v with t1 := {}, l1i := [], l2 := [] } else { v with t0 := {}, l1i := [], l2 := [] }
    (Fetched h false s t ∧ c ∈ [
        .add h o, .sub h o, .adc h o, .sbc h o, .and h o, .or h o, .xor h o, .andn h o, .shl h o, .shr h o, .sar h o,
        .rol h o, .ror h o, .cmp h a b f, .cmpu h a b f, .mov h p, .min h o, .max h o, .minu h o, .maxu h o,
        .clz h p, .ctz h p, .popc h p, .bswap h p, .sextB h p, .sextH h p, .sextW h p, .zextW h p, .mul h o,
        .mulw h o, .mulwu h o, .sdiv h o, .udiv h o, .srem h o, .urem h o, .addi h i, .andi h i, .ori h i, .xori h i,
        .cmpi h a m, .cmpui h a m, .shiShl h d a k, .shiShr h d a k, .shiSar h d a k, .shiRol h d a k, .movi h d j,
        .mfs h d m, .faddD h d a b, .fsubD h d a b, .fmulD h d a b, .fdivD h d a b, .fsqrtD h d a, .fcmpD h a b,
        .fminD h d a b, .fmaxD h d a b, .faddS h d a b, .fsubS h d a b, .fmulS h d a b, .fdivS h d a b,
        .fsqrtS h d a, .fcmpS h a b, .fminS h d a b, .fmaxS h d a b, .fcvtSD h d a, .fcvtDS h d a, .fcvtGD h d a,
        .fcvtDG h d a, .fmov h d a, .fneg h d a, .fabs h d a, .fmvGF h d a, .fmvFG h d a, .fmaddD h q, .fmsubD h q,
        .fnmaddD h q, .fnmsubD h q, .dadd h d a b, .dsub h d a b, .dmul h d a b, .ddiv h d a b, .dqua h d a b,
        .dcmp h a b, .d2s h d a b, .s2d h d a b, .dcvt12864 h d a, .dcvt64128 h d a, .dadd64 h d a b,
        .dsub64 h d a b, .dmul64 h d a b, .ddiv64 h d a b, .dqua64 h d a b, .dcmp64 h a b, .aese h d a b,
        .aesd h d a b, .aesmc h d a b, .aesimc h d a b, .clmul h d a b, .clmulh h d a b, .sha256r h d a b,
        .sha512r h d a b, .nop h] ∨
      Fetched h true s t ∧ c ∈ [
        .liL h d w, .liH h d w, .addiW h x, .andiW h x, .oriW h x, .xoriW h x, .cmpiW h a w, .cmpuiW h a w]) →
    exec c s = .next u →
      { u with pus := t.pus, coh := t.coh } = t ∧
      { u.coh with waits := t.coh.waits, arbHome := t.coh.arbHome, arb := t.coh.arb } = t.coh ∧
      (∀ y, y ≠ n → u.pu y = t.pu y) ∧ rest (u.pu n) = rest (t.pu n) ∧
      (∀ i, { l2Way (u.pu n) i with age := 0 } = { l2Way (t.pu n) i with age := 0 }) ∧
      (u.thr n h.th).pend = (t.thr n h.th).pend ∧ (u.thr n h.th).note = (t.thr n h.th).note ∧
      (noLockstep t n = false → (u.thr n h.th).sb = (t.thr n h.th).sb)) ∧
  (∀ (a : Arch) (d : BitVec 5) (v : Word) (q : Quad) (f : Bool) (x : Alu),
    (∀ k, (a.wg d v).rg k = if k = d then v else a.rg k) ∧ { a.wg d v with g := a.g } = a ∧
    (∀ k, (a.wf d q).rf k = if k = d then q else a.rf k) ∧ { a.wf d q with f := a.f } = a ∧
    (∀ k, (a.putAlu d f x).rg k = if k = d then x.r else a.rg k) ∧
    { a.putAlu d f x with g := a.g, sw := a.sw } = a ∧
    (a.putAlu d false x).sw = a.sw ∧
    (∀ i, i < 64 → (a.putAlu d true x).sw.getLsbD i =
      if i = 31 then x.n else if i = 30 then x.z else if i = 29 then x.c else if i = 28 then x.v else a.sw.getLsbD i) ∧
    (∀ n z c w, { a.setFlags n z c w with sw := a.sw } = a))

/-- The requests at a home complete where the line is free and the target answers (R193, R205, R209, R214, R219, R221):
RD, RDX and UPG make the line busy with the messages that serve them; RDN answers with the line; AMO answers with the
old block and stores the new one; MNT and PREFETCH_READ act at once, a prefetch of an address that has no translation or no
right not at all (R152). A request for a line that others wait for joins them. Lines that leave a cache, and writes by
line (R182, R219, R230 to R232): WB keeps a dirty line's data and leaves it dirty in the L3, EVC drops a clean one, CLNW
gives the controllers a COMMIT line's data. An IVW or PLW that its home takes is answered, and memory holds its bytes
and no other new byte. Holders are taken to answer; one behind a fence has lost its data (log entry 82). -/
def Obligations.HomeRequestsAndLineWrites : Prop :=
  (∀ (a : Acc) (l me : Nat) (s : State), (∀ m y, (s.thr m y).tx = none) → s.coh.waits = [] → tget none s.coh.busy l = none →
    tget none s.coh.pins l = none → homeHeld s l = false → agentOf a = some me → (∀ n ∈ holders s l, agentUp s n = true) →
    (∃ w, w < 16 ∧ ((dirWay s (dirSet l * 16 + w)).line = none ∨ (dirWay s (dirSet l * 16 + w)).line = some l)) →
    let ok := fun (k : AccKind) (cls : Nat) => dramAnswer a (256 * l) k cls s = (none, s)
    let busy := fun (c : Instr) (kind : ReqKind) (stamp : Option Word) (todo : List Msg) =>
      ∃ u, exec c s = .next u ∧ busyOf u l = some { req := { acc := a, kind := kind, line := l, stamp := stamp }, todo := todo } ∧
        u.mem = s.mem
    (ok .read 0 →
      busy (.rd a l .none) .rd none (takeMsgs me l false s ++ [.data false ((holders s l).all (fun h => decide (h = me))), .ack]) ∧
      (s.poisoned l = false → isCommit s l = false → ∃ u, exec (.rdn a l) s = .next u ∧ u.resp = .dict 0 (s.rd (256 * l) 256) ∧ u.mem = s.mem)) ∧
    (ok .write 1 → ∀ stamp : Option Word, (stamp = none ∨ pinnedInSet s l < 4) →
      busy (.rdx a l stamp) .rdx stamp (takeMsgs me l true s ++ [.data true true, .ack]) ∧
      ((l2State (s.pu me) l).isSome = true ∨ l ∈ (s.pu me).side →
        busy (.upg a l stamp) .upg stamp (takeMsgs me l true s ++ [.ack]))) ∧
    (∀ (pa : BitVec 52) (op : AmoOp) (x y : Quad), pa.toNat / 256 = l → dramAnswer a pa.toNat .atomic 4 s = (none, s) →
      isCommit s l = false → heldByOther ((ownThread a).map (fun o => o.1)) l s = false →
      let old := ofBe (s.rd pa.toNat (amoSize op))
      ∃ u, exec (.amo a pa op x y) s = .next u ∧ u.resp = .dict 0 (s.rd pa.toNat (amoSize op)) ∧
        u.rd pa.toNat (amoSize op) = toBe (amoSize op) ((amoVal op old x y).getD old) ∧
        (∀ b, b < pa.toNat ∨ pa.toNat + amoSize op ≤ b → tget 0 u.mem b = tget 0 s.mem b)) ∧
    (∀ op v, ok (mntKind op) 5 → mntLine op a l (ownThread a) s = (true, v) →
      exec (.mnt a l op) s = .next (settled { v with resp := .ok 0 })) ∧
    (∀ (pu : Fin 48) (th : Bool) (va : Word),
      (prefetchLine pu.val th va s = none → exec (.prefetchRead pu th va) s = .next s) ∧
      (prefetchLine pu.val th va s = some l → dramAnswer (s.puAcc pu.val th) (256 * l) .read 6 s = (none, s) →
        isOwned s l = false → l2State (s.pu pu.val) l = none → l ∉ (s.pu pu.val).side →
        ∃ u, exec (.prefetchRead pu th va) s = .next u ∧ l ∈ (u.pu pu.val).side ∧ u.mem = s.mem)) ∧
    (∀ (q : List HomeCmd) (v : State), q ≠ [] → v = { s with coh := { s.coh with waits := [(l, q)] } } →
      ∃ u, exec (.rdn a l) v = .next u ∧ tget [] u.coh.waits l = q ++ [.rdn a l])) ∧
  ((∀ (pu : Fin 84) (l : Nat) (s : State), heldM s pu.val l = true →
    (isCommit s l = false → (∀ m y, (s.thr m y).tx = none) → ∃ v, exec (.wb pu l) s = .next (settled v) ∧ v.mem = s.mem ∧ l3Dirty v l = true) ∧
    (isCommit s l = true → blockOpen s (lineBlock l) = true → ∃ u, exec (.clnw pu l) s = .next u ∧ u.mem = s.mem ∧
      l2State (u.pu pu.val) l = some .e ∧ ∀ x, tget 0 u.dram x = if x / 256 = l then tget 0 s.mem x else tget 0 s.dram x)) ∧
  (∀ (a : Acc) (n l : Nat) (s : State), agentOf a = some n →
    (heldM s n l = true ∨ n ∉ holders s l → exec (.evc a l) s = .next s) ∧
    (heldM s n l = false → n ∈ holders s l → (∀ m y, (s.thr m y).tx = none) →
      ∃ v, v = dirClear n l ((if (l2State (s.pu n) l).isSome then l3Insert l false 1 s else s).updPu n (l2Remove l)) ∧
        exec (.evc a l) s = .next (settled v) ∧ v.mem = s.mem)) ∧
  (∀ (a : Acc) (pa : BitVec 52) (bytes : List Byte) (s : State), bytes ≠ [] → pa.toNat % 256 + bytes.length ≤ 256 →
    let l := pa.toNat / 256
    (∀ m y, (s.thr m y).tx = none) → homeBusy s l = false → isCommit s l = false → s.coh.blocked = [] →
    lineTurn a l s = true → tget none s.coh.pins l = none → (∀ n ∈ holders s l, agentUp s n = true) →
    let put := fun (c : Instr) => ∃ v, exec c s = .next (settled v) ∧ v.resp = .ok 0 ∧
      (∀ i, i < bytes.length → tget 0 v.mem (pa.toNat + i) = bytes.getD i 0) ∧
      (∀ b, b < pa.toNat ∨ pa.toNat + bytes.length ≤ b → tget 0 v.mem b = tget 0 s.mem b)
    (dramAnswer a pa.toNat .write 1 s = (none, s) → put (.ivw a pa bytes)) ∧
    (∀ (ce : Fin 36) (z : Fin 16) (pu : Fin 48) (th : Bool), a = { master := BitVec.ofNat 8 (64 + ce.val), th := false, zone := some z } →
      (∃ w, w < 16 ∧ ((dirWay s (dirSet l * 16 + w)).line = none ∨ (dirWay s (dirSet l * 16 + w)).line = some l)) →
      dramAnswer a pa.toNat .write 1 s = (none, s) → put (.plw ce z pu th pa bytes))))

/-- The messages that serve a busy line (R219 to R223, R226): FWD leaves a reader's owner in S, RECALL and INV take the
copy away, DATA delivers the line with its state, and ACK frees the home; each is crossed off what the line still
waits for. No byte of memory changes. FENCED_COMPLETION answers FENCED, or records a posted write at its sender (R17);
OWNERSHIP_HOLD_EXPIRY ends the hold of a line and nothing else (R222); SET_RECALL empties its directory set and
latches DIR_UNCORR (R210, Table 8.2), in its turn at the arbiter (R225). Holders and requesters are taken to answer. -/
def Obligations.CoherenceMessagesAndEvents : Prop :=
  (∀ (l : Nat) (b : Busy) (s : State), (∀ m y, (s.thr m y).tx = none) → s.coh.waits = [] → busyOf s l = some b →
    (∀ h, (b.todo.findSome? (fun m => match m with | .fwd h => some h | _ => none)) = some h → keepsHold s h l = false →
      agentUp s h = true → (l2State (s.pu h) l).isSome = true → b.req.kind = .rd →
      ∃ u, exec (.fwd l) s = .next u ∧ u.mem = s.mem ∧ l2State (u.pu h) l = some .s ∧
        busyOf u l = some { b with viaFwd := true, todo := b.todo.filter (fun m => decide (m ≠ .fwd h ∧ m ≠ .ack)) }) ∧
    (∀ h, (b.todo.findSome? (fun m => match m with | .callBack h => some h | _ => none)) = some h → keepsHold s h l = false →
      agentUp s h = true → ∃ u, exec (.recall l) s = .next u ∧ u.mem = s.mem ∧
        busyOf u l = some { b with todo := b.todo.filter (fun m => decide (m ≠ .callBack h)) }) ∧
    (∀ h, Msg.inv h ∈ b.todo → agentUp s h = true → ∃ u, exec (.inv l h) s = .next u ∧ u.mem = s.mem ∧
      busyOf u l = some { b with todo := b.todo.filter (fun m => decide (m ≠ .inv h)) }) ∧
    (∀ own excl, b.todo = [.data own excl, .ack] → l ∉ s.coh.wbuf → s.poisoned l = false → b.noAlloc = false →
      b.req.acc.master.toNat < 48 → agentUp s b.req.acc.master.toNat = true →
      (l2State (s.pu b.req.acc.master.toNat) l).isSome = true → ∃ u, exec (.data l) s = .next u ∧ u.mem = s.mem ∧ u.resp = .dict 0 (s.rd (256 * l) 256) ∧
        busyOf u l = some { b with todo := [.ack] } ∧
        l2State (u.pu b.req.acc.master.toNat) l = some (if own then .m else if excl then .e else .s)) ∧
    (b.todo = [.ack] → b.req.kind ≠ .upg → ∃ u, exec (.ack l) s = .next u ∧ u.mem = s.mem ∧ busyOf u l = none) ∧
    (b.todo = [.ack] → b.req.kind = .upg → b.noAlloc = false → b.req.acc.master.toNat < 48 →
      agentUp s b.req.acc.master.toNat = true → (l2State (s.pu b.req.acc.master.toNat) l).isSome = true →
      ∃ u, exec (.ack l) s = .next u ∧ u.mem = s.mem ∧ busyOf u l = none ∧
        l2State (u.pu b.req.acc.master.toNat) l = some .m)) ∧
  ((∀ (b : Blk) (a : Acc) (addr : BitVec 52) (s : State),
    exec (.fencedCompletion b a addr false) s = .next { s with resp := .fenced } ∧
    ((s.flt b).valid = false → (s.flt b).mask = 0 →
      ∃ u, exec (.fencedCompletion b a addr true) s = .next u ∧ u.flt b = { s.flt b with
        valid := true, cls := 1, source := BitVec.ofNat 16 (256 * blkKind b), inst := 0
        info := BitVec.ofNat 32 (addr.toNat / 256) } ∧ u.resp = s.resp ∧ u.mem = s.mem)) ∧
  (∀ (pu : Fin 48) (l w : Nat) (s : State), l2Find (s.pu pu.val) l = some w →
    ∃ u, exec (.ownershipHoldExpiry pu l) s = .next u ∧ (l2Way (u.pu pu.val) (l % 2048 * 16 + w)).held = false ∧
      l2State (u.pu pu.val) l = l2State (s.pu pu.val) l ∧ { u with pus := s.pus } = s) ∧
  (∀ (q : Fin 4) (sl : Fin 12) (set : Nat) (s : State), set < 2560 → s.coh.waits = [] → s.coh.wbuf = [] →
    (∀ m y, (s.thr m y).tx = none) → (s.flt (.home q)).mask = 0 → arbTurn (.recall (2560 * (q.val * 12 + sl.val) + set)) s = true →
    let i := 2560 * (q.val * 12 + sl.val) + set
    (∀ w l, w < 16 → (dirWay s (i * 16 + w)).line = some l → dirSet l = i ∧ dirFind s l = some w ∧ isCommit s l = false ∧
      s.poisoned l = false ∧ ∀ n ∈ holders s l, agentUp s n = true) →
    ∃ u, exec (.setRecall q sl set) s = .next u ∧ u.mem = s.mem ∧
      (∀ w, w < 16 → (dirWay u (i * 16 + w)).line = none) ∧ (u.flt (.home q)).valid = true))

/-- The zone manager's commands complete where their register takes the write (R159, R161, R435 to R438): SEG_ADD that
passes its checks puts the entry into the memory copy and the store, one that does not leaves both; SIDT_SET puts its
entry into both; an interrupt goes to the router. The steps of a zone's reset complete (R443, Table 16.12): the homes
answer what still waits with the zone's tag and acknowledge, in the arbiter's turn; at the drain limit the stores that are
left are discarded but in M7; an engine and an accelerator give up the zone's requests and acknowledge. -/
def Obligations.ZoneManagerAndReset : Prop :=
  ((∀ (a : Acc) (w v : Word) (s : State), v = putBit 45 true w → reach a (regAddr 0xE0 0x500) 8 true s = (none, s) →
    (∀ m y, (s.thr m y).tx = none) →
    let z := fld 63 60 v
    let i := fld 59 48 v
    let s' := { s with segAdd := mix segAddMask s.segAdd v }
    let at_ := segCopy (s.zone z) i
    (s.zc ≤ z → segAddResult v s' = 2) ∧
    (segAddResult v s' ≠ 0 → exec (.segAdd a w) s = .next { segAddDone (segAddResult v s') s' with resp := .ok 0 }) ∧
    (segAddResult v s' = 0 → (∀ n ∈ holders s (at_ / 256), agentUp s n = true) → ∃ u, exec (.segAdd a w) s = .next u ∧ u.resp = .ok 0 ∧ fld 47 46 u.segAdd = 0 ∧
      u.rd at_ 8 = toBe 8 (segAddEntry v).toNat ∧ (∀ b, b < at_ ∨ at_ + 8 ≤ b → tget 0 u.mem b = tget 0 s.mem b) ∧
      ((s.zone z).segHeld = true → tget 0 (u.zone z).seg i = segAddEntry v))) ∧
  (∀ (z : Fin 16) (a : Acc) (w : Word) (s : State), reach a (regAddr (0xF0 + z.val) 0x200) 8 true s = (none, s) →
    (∀ m y, (s.thr m y).tx = none) → s.lcs (.zone z) = .on →
    (bit 15 w = true → ownsSlice s z.val (fld 11 8 w) = true) → (bit 7 w = true → ownsSlice s z.val (fld 3 0 w) = true) →
    let at_ := 8192 * fld 51 13 (s.zone z.val).sidtBase + 2 * fld 59 48 w
    (∀ n ∈ holders s (at_ / 256), agentUp s n = true) → ∃ u, exec (.sidtSet z a w) s = .next u ∧ u.resp = .ok 0 ∧
      tget 0 (u.zone z.val).sidt (fld 59 48 w) = BitVec.ofNat 16 (fld 15 0 w) ∧ fld 47 46 (u.zone z.val).sidtSet = 0 ∧
      u.rd at_ 2 = toBe 2 (fld 15 0 w) ∧ (∀ b, b < at_ ∨ at_ + 2 ≤ b → tget 0 u.mem b = tget 0 s.mem b)) ∧
  (∀ (z : Fin 16) (a : Acc) (th : BitVec 7) (vec : BitVec 10) (p : BitVec 4) (s : State),
    let q : Irq := { thread := th.toNat, vector := vec.toNat, prio := p }
    (reach a (regAddr (0xF0 + z.val) 0x208) 8 true s = (none, s) →
      exec (.irqSend z a th vec p) s = .next { routeIrq z q s with resp := .ok 0 }) ∧
    (s.lcs (.zone z) = .on →
      (∀ e : MapEntry, mapEntry s z.val th.toNat = some e → e.valid = true → inCallup s e.pu = false →
        ∃ u, exec (.interruptArrival z th vec p) s = .next u ∧
          (tget none (s.thr e.pu e.th).pend vec.toNat = none →
            tget none (u.thr e.pu e.th).pend vec.toNat = some p ∧ { u with pus := s.pus } = s) ∧
          (∀ o, tget none (s.thr e.pu e.th).pend vec.toNat = some o →
            tget none (u.thr e.pu e.th).pend vec.toNat = some (if o.toNat < p.toNat then p else o))) ∧
      (mapEntry s z.val th.toNat = none → ∃ u, exec (.interruptArrival z th vec p) s = .next u ∧
        (u.zone z.val).irqDisc = Nat.min 0xFFFF ((s.zone z.val).irqDisc + 1) ∧ u.pus = s.pus)) ∧
    (s.lcs (.zone z) = .starting → (s.zone z.val).hold.length < 256 →
      ∃ u, exec (.interruptArrival z th vec p) s = .next u ∧ (u.zone z.val).hold = (s.zone z.val).hold ++ [q]) ∧
    (s.lcs (.zone z) = .off ∨ s.lcs (.zone z) = .stopping ∨ s.lcs (.zone z) = .fenced →
      ∃ u, exec (.interruptArrival z th vec p) s = .next u ∧
        (u.zone z.val).irqDisc = Nat.min 0xFFFF ((s.zone z.val).irqDisc + 1) ∧ { u with zones := s.zones } = s))) ∧
  (∀ (z : Fin 16) (s : State),
    (zoneResetReady s z = true → (s.zone z.val).homeDue = true → islandUp s .zm = true → arbTurn (.quiesce z) s = true →
      ∃ u, exec (.zoneQuiesce z) s = .next u ∧ (u.zone z.val).homeDue = false ∧ u.mem = s.mem ∧ u.pus = s.pus ∧
        (∀ e ∈ u.coh.waits, ∀ c ∈ e.2, homeCmdZone s c ≠ some z) ∧ (∀ r ∈ u.commit.queue, r.acc.zone ≠ some z)) ∧
    ((s.zone z.val).resetBusy = true → (s.zone z.val).drainDue = true → islandUp s .zm = true →
      ∃ v, (v.zone z.val).drainDue = false ∧
        exec (.zrstDrainLimit z) s = .next (after ((zonePus s z.val).foldl (fun x n => lcCommand (.pu n) .disable 0 x) v)) ∧
        (s.inMode [.holdup] = true → v.pus = s.pus) ∧
        (s.inMode [.holdup] = false → ∀ n ∈ zonePus s z.val, ∀ th, (v.thr n.val th).sb = [])) ∧
    (∀ le : Fin 32, le.val ∈ (s.zone z.val).chanTodo → engHeld s le.val = false → s.coh.blocked = [] → openEntries s le.val = [] →
      ∃ u, exec (.channelQuiesce z le) s = .next u ∧ le.val ∉ (u.zone z.val).chanTodo ∧
        (u.le le.val).xq = (s.le le.val).xq.filter (fun r => decide (r.zone ≠ z.val)) ∧ u.mem = s.mem) ∧
    (∀ comp : Bool, comp ∈ (s.zone z.val).accTodo → s.coh.blocked = [] →
      (∀ k j, j ∈ (s.slice comp k).jobs → j.zone = z.val → j.stage = .queued ∨ j.stage = .notRun) →
      ∃ u, exec (.accelQuiesce z comp) s = .next u ∧ comp ∉ (u.zone z.val).accTodo ∧ u.mem = s.mem ∧
        ∀ k, k < 16 → (u.slice comp k).jobs = (s.slice comp k).jobs.filter (fun j => decide (j.zone ≠ z.val))))

/-- A frame that arrives (R358, R376, R381, R382, R393): on a link that is not up nothing happens; one that fails in the
PCS counts a CRC error; one that comes in M1, in the sparing gap of its engine, or in M2 but for an IDLE, or that fails the
checks of R358, is discarded and counted. An IDLE that passes gives the link its peer and liveness, and goes no further.
A frame on its way between engines reaches its home engine, in the order of its channel (R16). While the clock of the
engine is held by a frequency change the channel holds back (R19), and no command that waits is open in these states. -/
def Obligations.FrameReception : Prop :=
  ∀ (link : Fin 512) (f : Frame) (s : State), s.coh.blocked = [] → engHeld s (link.val / 16) = false →
    let frames := [(.cmdFrame link f, 1), (.dataFrame link f, 2), (.statusFrame link f, 3), (.acceptFrame link f, 4),
      (.redriveFrame link f, 5), ((.idleFrame link f : Instr), 6)]
    let lost := fun (c : Instr) => ∃ u, exec c s = .next u ∧ u.chan.discarded = s.chan.discarded + 1 ∧ u.sent = s.sent ∧
      u.mem = s.mem
    (∀ c k, (c, k) ∈ frames →
      (linkUp s link.val = false → exec c s = .next s) ∧
      (linkUp s link.val = true →
        (f.pcsOk = false → ∃ u, exec c s = .next u ∧
          (u.link link.val).crcErr = Nat.min 0xFFFFFFFF ((s.link link.val).crcErr + 1) ∧ { u with links := s.links } = s) ∧
        (f.pcsOk = true → f.len = f.payload.length →
          (s.inMode [.provision] = true → lost c) ∧
          (s.inMode [.provision] = false → (s.le (link.val / 16)).gap = true → f.kind ≠ 6 → lost c) ∧
          (s.inMode [.provision] = false → (s.le (link.val / 16)).gap = false → frameOk s link.val k f = false → lost c) ∧
          (s.inMode [.restore] = true → (s.le (link.val / 16)).gap = false → k ≠ 6 → lost c)))) ∧
    (linkUp s link.val = true → f.pcsOk = true → f.len = f.payload.length → s.inMode [.provision] = false →
      frameOk s link.val 6 f = true → f.kind.toNat = 6 →
      ∃ u, exec (.idleFrame link f) s = .next u ∧ (u.link link.val).peer = f.src ∧ (u.link link.val).live = true ∧
        { u with links := s.links } = s) ∧
    (fwdTurn link.val f s = none → exec (.frameForward link f) s = .next s) ∧
    (∀ home epN ep n w v ep', fwdTurn link.val f s = some home → engHeld s home = false →
      frameEp link.val f { s with chan := { s.chan with fwd := s.chan.fwd.erase (link.val, home, f) } } = (some (epN, ep), w) →
      engineOf w ep.home = some n → endpoint ep.home epN w = (some ep', v) →
      (homeFrame n epN ep' link.val f v).coh.blocked = [] →
      exec (.frameForward link f) s = .next (homeFrame n epN ep' link.val f v))

/-- Frames of an exchange at their home engine (R347, R359 to R361, R364): a CMD that may be taken has its writes under
way and its acknowledgement pending, one that may not is answered with its reason and counted, and in M6 and M7, or in M5
entered from M6, a CMD is discarded (R38, R52); a DATA in order is written and answered, a repeated one is answered again
and counted; a STATUS closes its exchange; an ACCEPT moves on what it answers; a REDRIVE is answered on the link that it
came by. Where a write has to wait at a busy line or for a grant the frame is served later as a whole (R221, log 67):
these statements are for a frame that is served. -/
def Obligations.ExchangeFrames : Prop :=
  ∀ (link : Fin 512) (f : Frame) (n epN i : Nat) (ep : Ep) (x : Xe) (s w v : State), v.coh.blocked = [] →
    let l := link.val
    let key := f.key.toNat
    let bucket := 8192 * ep.home + 8 * bucketOf epN key
    (Arrives 1 link f n epN ep s w →
      (chanHolds w = true → w.coh.blocked = [] → exec (.cmdFrame link f) s = .next (discardFrame w)) ∧
      (chanHolds w = false → ∀ free, findIn n ep.home epN key w = (none, free, v) → inDoubt v bucket = false →
        (free = some i → cmdRefusal v ep (some i) f = none → ∀ b t, writeCmd n i epN ep f v = (b, t) → t.coh.blocked = [] →
          exec (.cmdFrame link f) s = .next (t.updVol i (fun y => {
            usedUse := y.usedUse, pendingAck := some (l, f), cmdAt := t.tb.tod }))) ∧
        (∀ c, cmdRefusal v ep free f = some c →
          ∃ u, exec (.cmdFrame link f) s = .next u ∧ u.chan.refused = v.chan.refused + 1 ∧ u.mem = v.mem ∧
            (ep.paths.any (fun p => p.2 == l && pathUp v ep p) = true → ∃ g, u.sent = v.sent ++ [(l, g)] ∧ g.kind = 4 ∧
              g.key = f.key ∧ g.code = BitVec.ofNat 16 c)))) ∧
    (Arrives 2 link f n epN ep s w → f.flags.getLsbD 0 = true → findOut n ep.home key w = (some (i, x), v) →
      inDoubt v (key % 2 ^ 18) = false → x.state = 9 → abandoned x = false →
      (seqSeen x f.seq.toNat = true → ∃ u, exec (.dataFrame link f) s = .next u ∧ u.chan.dups = v.chan.dups + 1 ∧ u.mem = v.mem) ∧
      (∀ cd d v1 v2 v3, seqSeen x f.seq.toNat = false → f.seq.toNat = seqNext x →
        program n ep.zone x.desc v = (some (cd, d), v1) → (v1.vol i).restored = false →
        putPieces n ep.zone f.payload (inPieces d (v1.vol i).dataIn 0 f.len) v1 = (.done, v2) →
        entryOpen n i ep.zone v2 = (true, v3) →
        let t := (putEntry n i ep.zone { x with recvSeq := f.seq.toNat } v3).2
        t.coh.blocked = [] →
        exec (.dataFrame link f) s = .next (sendAnswer n epN ep l false f 0 2 (t.updVol i (fun y => { y with
          dataIn := y.dataIn + ((inPieces d (v1.vol i).dataIn 0 f.len).map (fun p => p.2.2)).sum }))))) ∧
    (Arrives 3 link f n epN ep s w → f.flags.getLsbD 0 = true → findOut n ep.home key w = (some (i, x), v) →
      inDoubt v (key % 2 ^ 18) = false →
      (x.state = 14 → exec (.statusFrame link f) s = .next (sendAnswer n epN ep l false f 0 3 v)) ∧
      (x.state = 9 → abandoned x = false → seqSeen x f.seq.toNat = false → f.seq.toNat = seqNext x →
        ∀ d v1 v2 v3, entryOpen n i ep.zone v = (true, v1) → readCpd n ep.zone x.desc v1 = (some d, v2) →
        (v2.vol i).restored = false → zoneWriteN n ep.zone d.status f.payload v2 = (.done, v3) →
        let c := complete n i ep.zone x 1 (if f.flags.getLsbD 2 then 1 else 0) f.code.toNat f.len v3
        let t := (putEntry n i ep.zone { x with state := 14, status := f.code.toNat, recvSeq := f.seq.toNat } c).2
        t.coh.blocked = [] → exec (.statusFrame link f) s =
          .next (sendAnswer n x.ep ep l false f 0 3 (t.updVol i (fun y => { y with sent := [] }))))) ∧
    (Arrives 4 link f n epN ep s w → f.flags.getLsbD 0 = true → findOut n ep.home key w = (some (i, x), v) →
      inDoubt v i = false → f.route.toNat % 16 = 1 → x.state = 8 → awaits v i 1 f.seq.toNat = true →
      let fresh := v.updVol i (fun y => { y with redrives := 0 })
      let ends := fun (u : State) => u.coh.blocked = [] → exec (.acceptFrame link f) s = .next u
      (f.code = 0 → ∀ v1, entryOpen n i ep.zone fresh = (true, v1) →
        ends (pump n i { x with state := 9 } ep (answered i 1 f.seq.toNat (putEntry n i ep.zone { x with state := 9 } v1).2))) ∧
      (3 ≤ f.code.toNat → f.code.toNat ≤ 6 → ends (endOut n i x ep 14 3 f.code.toNat fresh)) ∧
      (f.code = 7 → ends (endOut n i x ep 10 2 0 fresh))) ∧
    (Arrives 5 link f n epN ep s w → s.inMode [.holdup] = false → f.flags.getLsbD 0 = false → ∀ free,
      findIn n ep.home epN key w = (none, free, v) → inDoubt v bucket = false →
      ∃ u g, exec (.redriveFrame link f) s = .next u ∧ u.sent = v.sent ++ [(l, g)] ∧ g.kind = 4 ∧ g.key = f.key ∧
        g.code = (if f.route.toNat % 16 = 1 then 2 else 8) ∧ u.mem = v.mem)

/-- What an engine does of its own accord (R332, R350, R353, R355, R360, R361, R364, R370, R372, R382): the CMD whose
writes are acknowledged is accepted, programs start their exchange, timers ask again, give up, free an entry, or take
a path down. RELOAD_EP and RELOAD_DISP discard the engine's copies that they name and no others (R347). Where a write has
to wait at a busy line or for a grant the command is served later as a whole (R221, log 67), and while a frequency change
holds the engine's clock it comes again (R19): these statements are for a command that is served. -/
def Obligations.EngineWork : Prop :=
  (∀ (i n : Nat) (x : Xe) (ep : Ep) (s v : State), engHeld s (entryLe i) = false →
    let ends := fun (c : Instr) (u : State) => u.coh.blocked = [] → exec c s = .next u
    (∀ l f epN ep' v1 v2 y v3, (s.vol i).pendingAck = some (l, f) → engineOf s (entryLe i) = some n →
      nodeEp (entryLe i) f.src.toNat s = (some epN, v1) → endpoint (entryLe i) epN v1 = (some ep', v2) →
      let accepted := fun (v4 : State) => sendAnswer n epN ep' l false f 0 1
        (acceptWait (s.vol i).cmdAt (v4.updVol i (fun z => { z with pendingAck := none })))
      (readEntry n i v2 = (some y, v3) → ends (.ceCommitWriteAck i) (accepted v3)) ∧
      (∀ v4, readEntry n i v2 = (none, v3) → writeCmd n i epN ep' f v3 = (true, v4) →
        ends (.ceCommitWriteAck i) (accepted v4))) ∧
    (openEntry i s = (some (n, x, ep), v) →
      (x.state = 8 ∨ x.state = 9 → 3 ≤ (v.vol i).redrives → ends (.tStatExpiry i) (endOut n i x ep 10 2 0 v)) ∧
      (x.state = 14 → ends (.tLingerExpiry i) (freeEntry n i ep.zone x.tChg v)) ∧
      (x.state = 10 → ends (.tOrphanExpiry i) (freeEntry n i ep.zone x.tChg v)) ∧
      ((s.vol i).waiting = true → chanWorks s = true → x.state = 1 → (v.vol i).pendingAck = none →
        ends (.ringPoll i) (deliver n i x ep v)) ∧
      (chanWorks s = true → s.chan.applied = true → v.coh.blocked = [] → ∀ o rest, (v.vol i).sent = o :: rest →
        (o.link ≠ 512 → ∀ k l, choosePath v x.ep ep = some (k, l) → ∃ u g, exec (.tAccExpiry i) s = .next u ∧
          u.sent = v.sent ++ [(l, g)] ∧ g.kind = 5 ∧ g.key = o.frame.key ∧ u.chan.redriven = v.chan.redriven + 1 ∧
          (u.vol i).redrives = (v.vol i).redrives + 1) ∧
        (o.link = 512 → choosePath v x.ep ep ≠ none → ∀ k l,
          choosePath (v.updVol i (fun y => { y with sent := rest })) x.ep ep = some (k, l) →
          ∃ u, exec (.tAccExpiry i) s = .next u ∧ u.sent = v.sent ++ [(l, o.frame)] ∧ (u.vol i).cmdSent =
            ((v.vol i).cmdSent || o.frame.kind == 1)))) ∧
    (∀ link : Fin 512, (s.link link.val).live = true → chanWorks s = false →
      ∃ u, exec (.tLiveExpiry link) s = .next u ∧ (u.link link.val).live = false ∧ { u with links := s.links } = s) ∧
    (∀ link : Fin 512, linkUp s link.val = true → (s.link link.val).idleOnly = false →
      s.inMode [.restore, .run, .degraded, .service, .quiesced, .holdup] = true →
      ∃ u g, exec (.idleIntervalExpiry link) s = .next u ∧ u.sent = s.sent ++ [(link.val, g)] ∧ g.kind = 6 ∧
        g.src = BitVec.ofNat 16 (nodeIdAt s (link.val / 16)) ∧ g.dst = (s.link link.val).peer ∧ g.payload = [] ∧
        { u with sent := s.sent } = s) ∧
    (∀ (e : Fin 32) (r : XReq) (rest : List XReq) (d : Cpd) (m : List Cpd) (v1 : State), engHeld s e.val = false →
      engineOf s e.val = some n → (s.le e.val).xq = r :: rest → s.chan.applied = true →
      endpoint e.val r.ep s = (some ep, v) → ep.zone = r.zone →
      ep.home = e.val → ep.en = true → v.lcs (.zone (Fin.ofNat 16 r.zone)) = .on →
      program n r.zone r.desc v = (some (d, m), v1) →
      (d.kind = 1 → ∀ k b v2 v3, freeOut v1 e.val = some k → zoneReadN 0 n r.zone d.buf d.len v1 = (some b, v2) →
        entryOpen n k r.zone v2 = (true, v3) → ends (.xstartCmd e) (cmdStart n e.val k r ep d b v3)) ∧
      (d.kind = 2 → ∀ k y free v2 b v3 v4 v5, findIn n e.val r.ep d.key v1 = (some (k, y), free, v2) →
        (v2.vol k).pendingAck = none → y.state = 1 ∨ y.state = 2 → zoneReadN 0 n r.zone d.buf d.len v2 = (some b, v3) →
        entryOpen n k r.zone v3 = (true, v4) →
        (if b.isEmpty then (true, v4) else ceWr n r.zone (slotPa k) b v4) = (true, v5) →
        let z := { y with
          state := 3, flags := (if d.rcb = 0 then 0 else 2) + 8 * d.tc.toNat, plen := d.len, pcrc := crc32c b
          status := d.route, rcb := d.rcb, tag := d.tag }
        let p := xAnswer e.val r (BitVec.ofNat 64 y.key)
          ((putEntry n k r.zone z v5).2.updVol k (fun q => { q with waiting := false }))
        ends (.xstartResp e) (sendTracked k r.ep ep (statusFrame p n k z ep 0) p))) ∧
    (∀ ce : Fin 36, engineOf s (s.ce ce.val).le.toNat = some ce.val → (s.ce ce.val).le.toNat < 32 →
      s.chan.applied = true → s.coh.blocked = [] →
      let slot := ((s.ce ce.val).slot + 1) % s.zc
      let t := s.updCe ce.val (fun c => { c with slot := slot })
      (chanWorks s = false ∨ openEntries s (s.ce ce.val).le.toNat = [] → exec (.ceZoneSlot ce) s = .next t) ∧
      (∀ k, chanWorks s = true → openEntries s (s.ce ce.val).le.toNat = [k] →
        exec (.ceZoneSlot ce) s = .next (engRun (entryLe k) (slotEntry slot k) t)))) ∧
  (∀ (ce : Fin 36) (a : Acc) (ep : BitVec 16) (z : Fin 16) (s : State),
    reach a (regAddr (0x80 + ce.val) 0x200) 8 true s = (none, s) → (s.ce ce.val).le.toNat < 32 →
    let e := (s.ce ce.val).le.toNat
    (∃ u, exec (.reloadEp ce a ep) s = .next u ∧ u.resp = .ok 0 ∧ tget none (u.le e).epCopy ep.toNat = none ∧
      (∀ k, k ≠ ep.toNat → tget none (u.le e).epCopy k = tget none (s.le e).epCopy k) ∧
      (u.le e).node = (s.le e).node.filter (fun y => decide (y.2 ≠ some ep.toNat)) ∧
      (u.le e).disp = (s.le e).disp) ∧
    (∃ u, exec (.reloadDisp ce a z) s = .next u ∧ u.resp = .ok 0 ∧ (u.le e).epCopy = (s.le e).epCopy ∧
      (u.le e).disp = (s.le e).disp.filter (fun y => decide (y.1 / 4096 ≠ z.val))))

/-- The events of a link complete (R384, R386 to R391, Table 14.3): training ends in ON with its locks and, where TRAIN is
1, the coefficients found; its first window at RATE 0 with FB is followed by the second, and otherwise the link is
FENCED; a connected link that loses lock counts it, its path is DOWN, and with AUTO at 1 it receives DISABLE; a link of a
group whose clock is lost has no block lock. In M8 links are off (R37). -/
def Obligations.LinkEvents : Prop :=
  ∀ (link : Fin 512) (s : State),
    let k := s.link link
    (∀ pre main post, s.lcs (.link link) = .starting → linkClock s link.val = true → s.inMode [.checkstop] = false →
      ∃ v, exec (.linkTrainingComplete link pre main post) s = .next (after v) ∧ v.lcs (.link link) = .on ∧
        let x := v.link link.val
        x.blockLock = true ∧ x.curRate = (k.curRate || k.second) ∧ x.amLock = !(k.curRate || k.second) ∧
        x.trained = bit 4 k.used ∧ (bit 4 k.used = true → x.pre = pre ∧ x.main = main ∧ x.post = post) ∧
        (k.second = true → x.fallbacks = Nat.min 255 (k.fallbacks + 1)) ∧ v.mem = s.mem) ∧
    (s.lcs (.link link) = .starting → bit 4 k.used = true → s.inMode [.checkstop] = false →
      (bit 2 k.used = true → bit 0 k.used = false → k.second = false →
        exec (.trainingTimerExpiry link) s = .next (s.updLink link.val (fun x => { x with second := true }))) ∧
      (¬ (bit 2 k.used = true ∧ bit 0 k.used = false ∧ k.second = false) →
        ∃ v, exec (.trainingTimerExpiry link) s = .next (after v) ∧ v.lcs (.link link) = .fenced)) ∧
    (linkConnected s link = true →
      let gone := fun (c : Instr) (lost : State → Prop) => ∃ t, lost t ∧ { t with links := s.links } = s ∧
        (t.link link.val).lockLoss = Nat.min 255 (k.lockLoss + 1) ∧
        (bit 3 k.cfg = false → exec c s = .next (pathDown link.val t)) ∧
        (bit 3 k.cfg = true → exec c s = .next (pathDown link.val (lcCommand (.link link) .disable 0 t)))
      (∀ am : Bool, gone (.linkLockLoss link am)
        (fun t => (t.link link.val).amLock = false ∧ (t.link link.val).blockLock = am)) ∧
      gone (.hiBerTimeout link) (fun t => (t.link link.val).hiBer = true)) ∧
    (linkConnected s link = false →
      exec (.hiBerTimeout link) s = .next (s.updLink link.val (fun x => { x with hiBer := true })) ∧
      exec (.linkLockLoss link true) s = .next (s.updLink link.val (fun x => { x with amLock := false })) ∧
      exec (.linkLockLoss link false) s =
        .next (s.updLink link.val (fun x => { x with blockLock := false, amLock := false }))) ∧
    (s.lcs (.link link) = .on → linkClock s link.val = true → s.inMode [.checkstop] = false →
      exec (.linkLockRegained link) s =
        .next (s.updLink link.val (fun x => { x with blockLock := true, amLock := !x.curRate, hiBer := false }))) ∧
    (∀ p, exec (.signalEnergyChange link p) s = .next (s.updLink link.val (fun x => { x with sigDet := p }))) ∧
    (s.mainOn = true → s.lcs (.link link) = .off → bit 3 k.cfg = true → k.sigDet = true → linkClock s link.val = true →
      s.inMode [.holdup, .checkstop] = false →
      exec (.signalDetectQualified link) s = .next (lcCommand (.link link) .enable 0 s)) ∧
    (∀ g : Fin 8, s.pins.sdsLost.getLsbD g.val = false →
      (s.mainOn = false → ∃ u, exec (.sdsclkLoss g) s = .next u ∧ u.pins.sdsLost.getLsbD g.val = true ∧
        { u with pins := s.pins } = s) ∧
      (s.mainOn = true → s.chan.vol = [] → (∀ i, i < 64 → bit 3 (s.link (64 * g.val + i)).cfg = false) →
        ∃ u, exec (.sdsclkLoss g) s = .next u ∧ u.pins.sdsLost.getLsbD g.val = true ∧ (u.flt (.lg g)).valid = true ∧
          (u.island (.lg g)).fltFence = true ∧ ∀ i, i < 64 → (u.link (64 * g.val + i)).blockLock = false)) ∧
    (∀ g : Fin 8, ∃ u, exec (.sdsclkReturn g) s = .next u ∧ u.pins.sdsLost.getLsbD g.val = false ∧
      (∀ j, j < 8 → j ≠ g.val → u.pins.sdsLost.getLsbD j = s.pins.sdsLost.getLsbD j) ∧
      (u.island (.lg g)).fltFence = false ∧ { u with pins := s.pins, islands := s.islands } = s)

/-- The lifecycle commands complete as writes of the function's lifecycle register (R41, R428, Table 2.7): IEN and TRANS
first, then the one command; the register of a PU whose zone is not OFF takes none, with LAST_RESULT 2. A lifecycle
command by Table 2.7 (R41): a rejected one leaves LAST_RESULT 2 and one without effect 1, and neither changes anything
else; an UNFENCE reaches OFF, where the island of a core is without power (R541), and an ENABLE in STOPPING arms the
function, each with the transition recorded. A PU is not enabled without a verified image, a CE not without its firmware
(R129). -/
def Obligations.LifecycleCommands : Prop :=
  (∀ (f : Fn) (a : Acc) (w : Word) (s : State), reach a (lcAddr f) 8 true s = (none, s) →
    bit 0 w = false → bit 1 w = false → bit 2 w = false →
    let held := s.setLc f { s.lcOf f with ien := bit 16 w, trans := (s.lcOf f).trans && !bit 15 w }
    ((∀ n, f = .pu n → s.puZone n.val = none) →
      exec (.lcEnable f a w) s = .next { after (lcCommand f .enable 0 held) with resp := .ok 0 } ∧
      exec (.lcDisable f a w) s = .next { after (linkGone f (lcCommand f .disable 0 held)) with resp := .ok 0 } ∧
      exec (.lcUnfence f a w) s = .next { after (lcCommand f .unfence 0 held) with resp := .ok 0 }) ∧
    (∀ n, f = .pu n → s.puZone n.val ≠ none →
      exec (.lcEnable f a w) s = .next { lcResult f 2 s with resp := .ok 0 } ∧
      exec (.lcDisable f a w) s = .next { lcResult f 2 s with resp := .ok 0 } ∧
      exec (.lcUnfence f a w) s = .next { lcResult f 2 s with resp := .ok 0 })) ∧
  (∀ (f : Fn) (ev : LcEv) (cause : Nat) (s : State),
    (lcAllowed s f ev = false ∨ lcTable (s.lcs f) ev = .rejected → lcCommand f ev cause s = lcResult f 2 s) ∧
    (lcAllowed s f ev = true → lcTable (s.lcs f) ev = .noEffect → lcCommand f ev cause s = lcResult f 1 s) ∧
    ((∃ n, f = .pu n) → s.mgmt.imgHeld = false → lcAllowed s f .enable = false) ∧
    ((∃ n, f = .ce n) → s.mgmt.ceFwHeld = false → lcAllowed s f .enable = false) ∧
    (lcAllowed s f ev = true →
      ∀ dst, (s.lcs f = .fenced ∧ ev = .unfence ∧ dst = .off) ∨ (s.lcs f = .stopping ∧ ev = .enable ∧ dst = .stoppingArmed) ∨
          (s.lcs f = .stoppingArmed ∧ ev = .disable ∧ dst = .stopping) →
        let u := lcCommand f ev cause s
        u.lcOf f = { s.lcOf f with
          state := dst, prev := s.lcs f, trans := true, transCnt := (s.lcOf f).transCnt + 1
          lastCause := BitVec.ofNat 4 cause, lastResult := 0 } ∧
        u.mem = s.mem ∧
        (dst ≠ .off ∨ (∀ n, f ≠ .pu n) ∧ (∀ n, f ≠ .ce n) → u.pus = s.pus) ∧
        (∀ n, f = .pu n → dst = .off → u.pu n.val = powerOffCore n.val (s.pu n.val) ∧ islandUp u (.pu n) = false)))

/-- The ends of STARTING and STOPPING complete (R41, R44, Table 2.7): a slice or the commit region enters ON; any other
function does what its start ends with, and one whose start-up test fails is FENCED; a stop that is done reaches OFF, or
STARTING where it is armed, a zone's when its reset sequence has had its acknowledgements; a function past its limit is
FENCED with cause 4. -/
def Obligations.LifecycleEnds : Prop :=
  ∀ (f : Fn) (s : State),
    (s.lcs f = .starting → ∀ fail, exec (.lcStartComplete f fail) s = .next (closeGates (after (startDone f fail s)))) ∧
    (s.lcs f = .starting → (f = .commit ∨ (∃ n, f = .cslice n) ∨ ∃ n, f = .dslice n) →
      (startDone f 0 s).lcs f = .on ∧ ∀ fail, 0 < fail → (startDone f fail s).lcs f = .fenced) ∧
    ((∀ z, f ≠ .zone z) → stopReady s f = true →
      (s.lcs f = .stopping → ∃ v, exec (.lcStopComplete f) s = .next (after v) ∧ v.lcs f = .off ∧
        (v.lcOf f).lastCause = 2) ∧
      (s.lcs f = .stoppingArmed → exec (.lcStopComplete f) s =
        .next (after (closeGates (startWork f (lcGo f .starting 2 (stopLoss f s))))))) ∧
    (∀ z, f = .zone z → zoneResetReady s z = true → (s.zone z.val).homeDue = false →
      exec (.lcStopComplete f) s = .next (after (zoneResetFinish z s))) ∧
    (s.lcs f = .starting → ∃ v, exec (.lcTimeout f) s = .next (after v) ∧ ((f = .commit ∨ (∃ n, f = .link n) ∨ (∃ n, f = .cslice n) ∨ ∃ n, f = .dslice n) → v.lcs f = .fenced) ∧
      v = faultFn f (limitSrc f) (fnInst f) 0 4 s) ∧
    (s.lcs f = .stopping ∨ s.lcs f = .stoppingArmed → exec (.lcTimeout f) s =
      .next (after (faultFn f 1 (fnInst f) 0 4 (discardAll f s))))

/-- REGISTER_WRITE and RC_READ answer what their target answers (R5 to R8): an aligned request of 8 bytes by a master that
the target's table grants reaches an island that is up; a request that its target may not take has no
effect but the denial that is recorded at the target and, where the write was discarded as FENCED, at its sender (R17); an
unassigned offset ignores a write and reads zero (R7); offset 0 is the block's identification; management memory holds what is written;
a link's configuration takes its writable bits. A read of an RC register returns its counts and clears them, and
leaves every other register (R8): the zone manager's statistics, its count of stores lost, a link's error counters. -/
def Obligations.RegisterAccesses : Prop :=
  (∀ (a : Acc) (addr : BitVec 52) (size : Nat) (v : Word) (s : State),
    (∀ b off w, target addr.toNat = .reg b off → size = 8 → addr.toNat % 8 = 0 → a.master ≠ 0x7E →
      tagOk a (.reg b off) = true → s.vaux = true → (regVaux b = true ∨ s.mainOn = true) → regFenced s b = false →
      granted s (regTable b) a addr.toNat (if w then .write else .read) = true →
      (regTable b = .blk .sns → w = true → isMgmt a = true) → reach a addr.toNat size w s = (none, s)) ∧
    (∀ r u, reach a addr.toNat size true s = (some r, u) → r ≠ .fenced →
      exec (.registerWrite a addr size v) s = .next { u with resp := r }) ∧
    (∀ u, reach a addr.toNat size true s = (some .fenced, u) →
      exec (.registerWrite a addr size v) s = .next { fencedSender a addr.toNat u with resp := .fenced }) ∧
    (∀ r u, reach a addr.toNat size false s = (some r, u) → exec (.rcRead a addr size) s = .next { u with resp := r }) ∧
    (reach a addr.toNat size true s = (none, s) →
      (∀ b off, target addr.toNat = .reg b off →
        exec (.registerWrite a addr size v) s = .next { regWrite a b off v s with resp := .ok 0 } ∧
        (off = 0 → exec (.registerWrite a addr size v) s = .next { s with resp := .ok 0 })) ∧
      (∀ n : Fin 512, target addr.toNat = .reg (.link n) 0x200 → exec (.registerWrite a addr size v) s =
        .next { s.updLink n.val (fun k => { k with cfg := v &&& 0xFFFFC0FC1F }) with resp := .ok 0 }) ∧
      (∀ z off, target addr.toNat = .box z off →
        exec (.registerWrite a addr size v) s = .next { boxWrite z off v s with resp := .ok 0 }) ∧
      (∀ off, target addr.toNat = .mgmt off → ∃ u, exec (.registerWrite a addr size v) s = .next u ∧ u.resp = .ok 0 ∧
        ∀ k, tget 0 u.mgmt.mgmtMem k = if off ≤ k ∧ k < off + size then (toBe size v.toNat).getD (k - off) 0
          else tget 0 s.mgmt.mgmtMem k)) ∧
    (reach a addr.toNat size false s = (none, s) →
      (∀ b off, target addr.toNat = .reg b off →
        exec (.rcRead a addr size) s = .next { (regRead b off s).2 with resp := .ok (regRead b off s).1 } ∧
        (off = 0 → exec (.rcRead a addr size) s =
          .next { s with resp := .ok (idWord (regKind b).1 (regKind b).2) })) ∧
      (∀ n : Fin 512, target addr.toNat = .reg (.link n) 0x218 → exec (.rcRead a addr size) s =
        .next { s.updLink n.val (fun k => { k with crcErr := 0, gapDisc := 0, lockLoss := 0, fallbacks := 0 }) with
          resp := .ok (linkErr1 (s.link n.val)) }) ∧
      (∀ n : Fin 512, target addr.toNat = .reg (.link n) 0x210 → exec (.rcRead a addr size) s =
        .next { s.updLink n.val (fun k => { k with fecCorr := 0, fecUncorr := 0, berCnt := 0 }) with
          resp := .ok (linkErr0 (s.link n.val)) }) ∧
      (∀ z off, target addr.toNat = .box z off →
        exec (.rcRead a addr size) s = .next { s with resp := .ok (boxRead (s.box z) off) }) ∧
      (∀ off, target addr.toNat = .mgmt off → exec (.rcRead a addr size) s = .next { s with
        resp := .ok (BitVec.ofNat 64 (ofBe ((List.range size).map (fun i => tget 0 s.mgmt.mgmtMem (off + i))))) }))) ∧
  (∀ (s : State),
    (∀ z : Fin 16, let r := regRead (.unit .zm) (0x480 + 8 * z.val) s
      r.1 = zoneStatWord (s.zone z.val) ∧ (r.2.zone z.val).lost = 0 ∧ (r.2.zone z.val).irqDisc = 0 ∧
      (r.2.zone z.val).irqMerged = 0 ∧ { r.2 with zones := s.zones } = s) ∧
    (let r := regRead (.unit .zm) 0x518 s
     r.1 = BitVec.ofNat 64 s.zrstLost ∧ r.2 = { s with zrstLost := 0 }) ∧
    (∀ n : Fin 512, let r := regRead (.link n) 0x218 s
      r.1 = linkErr1 (s.link n.val) ∧ (r.2.link n.val).crcErr = 0 ∧ (r.2.link n.val).lockLoss = 0 ∧
      { r.2 with links := s.links } = s))

/-- The writes of one bit complete where their register takes the write: FSTAT and FOVF are cleared whole (R460, R462), a
table locks for good and its log's VALID clears (R451, R452), REARM opens the gates that may open (R472), REJ clears
(R474), and the test pulses of the privileged outputs start in M1 alone and end (R475, R476). REARM of a closed gate
opens it where it has been closed for 20 ms, its mode lets it toggle, its core is present and no block of its group
holds a fault of class C2 or more, and records REJ otherwise; an open gate and every other gate keep their state
(R472). -/
def Obligations.FaultAndOutputRegisters : Prop :=
  (∀ (a : Acc) (s : State),
    (∀ b : Blk,
      (reach a (regAddr (blkNum b) 0x100) 8 true s = (none, s) → exec (.fstatClear b a) s =
        .next { s.updFlt b (fun f => { f with valid := false, cls := 0, source := 0, inst := 0, info := 0 }) with resp := .ok 0 }) ∧
      (reach a (regAddr (blkNum b) 0x108) 8 true s = (none, s) → exec (.fovfClear b a) s =
        .next { s.updFlt b (fun f => { f with ovf := false, higher := false, maxCls := 0, count := 0 }) with resp := .ok 0 })) ∧
    (∀ t : TabId, t ≠ .blk .spc → t ≠ .blk .dbg → t ≠ .blk .mgt →
      (reach a (tabAddr t) 8 true s = (none, s) → exec (.atLockSet t a) s =
        .next { s.updTab t (fun x => { x with lock := true }) with resp := .ok 0 }) ∧
      (reach a (tabAddr t + 8) 8 true s = (none, s) → exec (.atLogClear t a) s =
        .next { s.updTab t (fun x => { x with log := x.log &&& 0x7FFFFFFFFFFFFFFF }) with resp := .ok 0 })) ∧
    (∀ m : BitVec 20, reach a (regAddr 0x101 0x200) 8 true s = (none, s) →
      exec (.aliveRearm a m) s = .next { rearm m s with resp := .ok 0 } ∧
      exec (.aliveRejClear a m) s = .next { s with outs := { s.outs with rej := s.outs.rej &&& ~~~m }, resp := .ok 0 }) ∧
    (reach a (regAddr 0x101 0x208) 8 true s = (none, s) →
      let m1 := s.inMode [.provision]
      exec (.holdupTest a) s = .next { s with
        outs := { s.outs with holdPulse := s.outs.holdPulse || m1, holdTest := s.outs.holdTest || m1 }, resp := .ok 0 } ∧
      exec (.chkstopTest a) s = .next { s with
        outs := { s.outs with chkPulse := s.outs.chkPulse || m1, chkTest := s.outs.chkTest || m1 }, resp := .ok 0 }) ∧
    exec (.privPulseEnd true) s = .next { s with outs := { s.outs with holdPulse := false, holdTest := false } } ∧
    exec (.privPulseEnd false) s = .next { s with outs := { s.outs with chkPulse := false, chkTest := false } }) ∧
  (∀ (g : Nat) (s : State), g < 20 →
    let may := msUnits 20 + (tget 0 s.outs.closedAt g).toNat ≤ s.now ∧ modeToggles s g = true ∧ corePresent s g = true ∧
      ∀ b ∈ allBlks, aliveGroup s b = some g →
        ¬ ((s.flt b).valid = true ∧ 2 ≤ (s.flt b).cls) ∧ ¬ ((s.flt b).ovf = true ∧ 2 ≤ (s.flt b).maxCls)
    let u := rearmOne g s
    { u with outs := s.outs } = s ∧
    (∀ i, i < 20 → u.outs.gate.getLsbD i = (s.outs.gate.getLsbD i || (decide (i = g) && decide may))) ∧
    (s.outs.gate.getLsbD g = true → u.outs = s.outs) ∧
    (s.outs.gate.getLsbD g = false → ¬ may → u.outs.rej.getLsbD g = true))

/-- A kick of the right value by the watchdog's own processor is kept and any other by it expires the watchdog; another
master changes nothing (R486). A clear of FROZEN lets the drain engine look at what waits (R327). The debug port is
answered with an error outside M5, and while it is disabled (R39, R54); in M5 it reads registers and DRAM like any
master. GO in a mailbox queues its request for K3 and sets BUSY, or is refused (R490, R497). -/
def Obligations.ManagementRegisters : Prop :=
  (∀ (n : Fin 2) (a : Acc) (v : BitVec 8) (s : State), reach a (regAddr 0x100 (0x200 + 8 * n.val)) 8 true s = (none, s) →
    let w := if n.val = 0 then s.mgmt.wdog0 else s.mgmt.wdog1
    (a.master.toNat = 0x78 + n.val → w.expired = false →
      (v = nextKick w → ∃ u, exec (.wdogKick n a v) s = .next u ∧ { u with mgmt := s.mgmt, resp := s.resp } = s ∧
        (if n.val = 0 then u.mgmt.wdog0 else u.mgmt.wdog1) = { w with lastKick := some v }) ∧
      (v ≠ nextKick w → exec (.wdogKick n a v) s = .next { wdogExpire n.val s with resp := .ok 0 })) ∧
    (a.master.toNat ≠ 0x78 + n.val → exec (.wdogKick n a v) s = .next { s with resp := .ok 0 })) ∧
  (∀ (a : Acc) (s : State), reach a (regAddr 0x68 0x208) 8 true s = (none, s) →
    exec (.frozenClear a) s = .next { settled (serveGrants { s with commit := { s.commit with frozen := false } }) with
      resp := .ok 0 }) ∧
  (∀ (a : Acc) (addr : BitVec 52) (s : State),
    let d : Acc := { a with master := 0x7E }
    (s.inMode [.service] = false ∨ s.md.dbgPort = false → exec (.debugPortRequest a addr) s = .next { s with resp := .error }) ∧
    (s.inMode [.service] = true → s.md.dbgPort = true →
      (target addr.toNat = .nowhere → addr.toNat % 8 = 0 →
        (∀ u, dramAnswer d addr.toNat .read 0 s = (some 3, u) → exec (.debugPortRequest a addr) s =
          .next { s with resp := .fenced }) ∧
        (∀ b t, dramAnswer d addr.toNat .read 0 s = (none, s) → readBytes d 0 addr.toNat 8 s = (some b, t) →
          t.coh.blocked = [] → exec (.debugPortRequest a addr) s = .next { t with resp := .ok (BitVec.ofNat 64 (ofBe b)) })) ∧
      (target addr.toNat ≠ .nowhere → exec (.debugPortRequest a addr) s =
        .next { (devRead d addr.toNat 8 s).2 with resp := (devRead d addr.toNat 8 s).1 }))) ∧
  (∀ (z : Fin 16) (a : Acc) (index : BitVec 16) (sub : BitVec 8) (len : BitVec 13) (offset : BitVec 24) (s : State),
    reach a (0x80F0000000000 + 65536 * z.val) 8 true s = (none, s) → (s.box z.val).busy = false →
    let go := fun (c : Instr) (write : Bool) (data : List Byte) =>
      (k3Full s = false → ∃ u, exec c s = .next u ∧ (u.box z.val).busy = true ∧ (u.box z.val).done = false ∧
        u.mgmt.k3 = s.mgmt.k3 ++ [{
          src := .window z, who := .Z
          req := { index := index, sub := sub, offset := offset.toNat, write := write, data := data }, since := s.tb.tod }]) ∧
      (k3Full s = true → ∃ u, exec c s = .next u ∧ (u.box z.val).busy = false ∧ (u.box z.val).done = true ∧
        (u.box z.val).abort = 0x08000021 ∧ u.mgmt.k3 = s.mgmt.k3 ∧ u.mgmt.refusals = s.mgmt.refusals + 1)
    go (.dwGoRead z a index sub offset) false [] ∧
    go (.dwGoWrite z a index sub len offset) true (boxBytes (s.box z.val) len.toNat))

/-- Clock islands and references (R14, R17 to R21, R384, R528): a frequency applies with a relock, a PU's upward step only
once the regulator acknowledges; a fence answers what waits in the island, an unfence lifts it, and a power switch opens
behind a fence; the loss of a reference switches the islands that use it to the other, and the loss of both fences the
main islands and begins M8. The rounding of VCORE and the exact arithmetic of the loops are the model's (log entry 19). -/
def Obligations.ClocksAndIslands : Prop :=
  (∀ (i : Island) (mhz : Nat) (s : State),
    (mhzAllowed s i mhz = false → exec (.islandFrequencySet i mhz) s = .next s) ∧
    (mhzAllowed s i mhz = true → s.mainOn = true → (∀ n, i ≠ .pu n) → exec (.islandFrequencySet i mhz) s =
      .next (s.updIsland i (fun x => { x with req := mhz, mhz := mhz, relock := true }))) ∧
    (∀ n, i = .pu n → mhzAllowed s i mhz = true → s.mainOn = true →
      let goal := Nat.min mhz (Nat.min (tget 5400 s.plant.thermCeil n.val) (tget 5400 s.plant.powerCeil n.val))
      ∃ u, exec (.islandFrequencySet i mhz) s = .next u ∧ (u.island i).req = mhz ∧
        (goal < puMhz s n.val → (u.island i).mhz = goal ∧ (u.island i).relock = true ∧ tget 0 u.plant.vcoreDue n.val = 0) ∧
        (puMhz s n.val < goal → (u.island i).mhz = (s.island i).mhz ∧ tget 0 u.plant.vcoreDue n.val = goal)) ∧
    (∃ v, exec (.clockRelockComplete i) s = .next (settled v) ∧ (v.island i).relock = false ∧
      { v with islands := s.islands, plant := s.plant } = s) ∧
    (∃ v, exec (.islandFence i) s = .next (closeGates v) ∧ (v.island i).swFence = true ∧ islandUp v i = false ∧
      v = answerFenced (s.updIsland i (fun x => { x with swFence := true })) ∧
      (∀ e ∈ v.coh.waits, lineAnswers v e.1 = true) ∧ ∀ e ∈ v.coh.busy, lineAnswers v e.1 = true) ∧
    ((∀ g, i ≠ .lg g) → exec (.islandUnfence i) s =
      .next (s.updIsland i (fun x => { x with swFence := false, fltFence := false }))) ∧
    (∀ g, i = .lg g → exec (.islandUnfence i) s = .next (s.updIsland i (fun x => { x with
      swFence := false, fltFence := x.fltFence && s.pins.sdsLost.getLsbD g.val }))) ∧
    exec (.islandPowerSwitch i true) s = .next (s.updIsland i (fun x => { x with power := true })) ∧
    (let off := s.updIsland i (fun x => { x with swFence := x.swFence || !x.fltFence, power := false })
     ((∀ n, i ≠ .pu n) → (∀ n, i ≠ .ce n) →
       exec (.islandPowerSwitch i false) s = .next (closeGates (answerFenced off))) ∧
     (∀ n, i = .pu n → exec (.islandPowerSwitch i false) s = .next (closeGates (answerFenced
       ((losePu n.val (stopPosition n.val off)).updPu n.val (powerOffCore n.val))))) ∧
     (∀ n, i = .ce n → exec (.islandPowerSwitch i false) s = .next (closeGates (answerFenced
       ((losePu (48 + n.val) (stopPosition (48 + n.val) off)).updPu (48 + n.val) (powerOffCore (48 + n.val)))))))) ∧
  (∀ (q : Fin 4) (n : Fin 48) (f : Nat) (s : State), s.plant.vcoreDue = [(n.val, f)] → n.val / 12 = q.val →
    ∃ u, exec (.regulatorAcknowledgement q) s = .next u ∧ (u.island (.pu n)).mhz = f ∧ (u.island (.pu n)).relock = true ∧
      u.plant.vcoreDue = []) ∧
  (∀ (b : Bool) (s : State),
    (s.mainOn = true → s.pins.refA = true → s.pins.refB = true →
      let one := { s with pins := { s.pins with refA := b, refB := !b } }
      (∀ i ∈ mainIslands, ((switchRefs b one).island i).useB = !b) ∧
      ((∃ i ∈ mainIslands, (s.island i).useB = b) →
        exec (.refclkLoss b) s = .next (checkDegraded (latch .zm 13 0 0 1 (switchRefs b one)))) ∧
      ((∀ i ∈ mainIslands, (s.island i).useB ≠ b) → exec (.refclkLoss b) s = .next (checkDegraded one))) ∧
    (s.mainOn = true → (if b then s.pins.refA else s.pins.refB) = false → s.inMode [.run, .degraded, .service] = true →
      ∃ u, exec (.refclkLoss b) s = .next u ∧ u.md.mode = some .checkstop ∧ u.pins.refA = false ∧ u.pins.refB = false) ∧
    exec (.refclkReturn b) s = .next (checkDegraded { s with pins := { s.pins with
      refA := s.pins.refA || !b, refB := s.pins.refB || b } }))

/-- The plant loops (R26, R330, R331, R504 to R508): the loop's command stays within 0 to 100 %; the ceilings move by 100
MHz and stay between 1,200 and 5,400 MHz; a measurement at or above 1,050 W steps the fastest island down, and below
950 W one island up; the budget follows its computation, and the store's fault freezes grants. -/
def Obligations.PlantLoops : Prop :=
  ∀ (s : State),
    (∀ t, s.md.mode.isSome = true → ∃ u, exec (.k1ThermalIteration t) s = .next u ∧ u.plant.hottest = t ∧
      u.mgmt.k1At = s.tb.tod ∧ (loopRuns s = true → 0 ≤ u.plant.u ∧ u.plant.u ≤ 100) ∧
      (loopRuns s = false → u.plant.u = (s.entry 0x3000 5 2000 : Nat) / 100) ∧
      { u with plant := s.plant, mgmt := s.mgmt } = s) ∧
    (s.plant.u = 100 → 2 ≤ loopError s → ∃ v, exec (.thermalCeilingStep true) s = .next (retuneAll v) ∧
      { v with plant := s.plant } = s ∧ ∀ n, n ∈ activePus s →
        tget 5400 v.plant.thermCeil n = Nat.max 1200 (tget 5400 s.plant.thermCeil n - 100)) ∧
    (s.plant.u ≤ 85 → ∃ v, exec (.thermalCeilingStep false) s = .next (retuneAll v) ∧ { v with plant := s.plant } = s ∧
      ∀ n, n < 48 → tget 5400 v.plant.thermCeil n = Nat.min 5400 (tget 5400 s.plant.thermCeil n + 100)) ∧
    (10 < valveGap s → ∃ u, exec (.valveDeviation) s = .next u ∧ u.plant.deviation = true) ∧
    (∀ uv w, w < 1020 → s.plant.adcBad = false →
      (∃ u, exec (.adcSample uv w true) s = .next u ∧ u.plant.adcBad = true ∧ u.plant.power = w ∧ u.plant.limiting = false) ∧
      (s.plant.adcN < 49 → ∃ u, exec (.adcSample uv w false) s = .next u ∧ u.plant.adcBad = false ∧ u.plant.power = w ∧
        u.plant.adcN = s.plant.adcN + 1 ∧ ∀ k, k < 16 → tget 0 u.plant.adcSum k = tget 0 s.plant.adcSum k + uv.getD k 0)) ∧
    (∀ n, fastest s = some n → ∀ w, 1050 ≤ w → ∃ v, limitPower w s = retune n v ∧ v.plant.limiting = true ∧
      tget 5400 v.plant.powerCeil n = Nat.max 1200 (puMhz s n - 100)) ∧
    (∀ n f, s.plant.power < 950 → s.plant.powerCeil = [(n, f)] → exec (.powerLimitRestore) s = .next (retune n { s with
      plant := { s.plant with powerCeil := tset 5400 s.plant.powerCeil n (Nat.min 5400 (f + 100)) } })) ∧
    (s.md.mode.isSome = true → s.mainOn = false →
      ∃ u, exec (.commitBudgetUpdate) s = .next u ∧ u.plant.eUsable = usableEnergy s ∧
        (computedBudget s ≤ s.plant.budget → u.plant.budget = computedBudget s)) ∧
    (s.md.mode.isSome = true → s.mainOn = true →
      ∃ v, exec (.commitBudgetUpdate) s = .next (checkDegraded (drainWbuf (serveGrants v))) ∧
        v.plant.eUsable = usableEnergy s ∧
        v.commit.allow = BitVec.ofNat 19 (4096 * Nat.min s.commit.size.toNat v.plant.budget)) ∧
    (s.md.mode.isSome = true → ∃ u, exec (.storeRechargeTest) s = .next u ∧ u.plant.recharge = some (storeVolts s) ∧
      u.pins.storeChg = false) ∧
    (∀ v0, s.plant.recharge = some v0 → s.entry 0x3105 0 0 = 0 → ∃ u, exec (.storeRechargeTestEnd) s = .next u ∧
      u.plant.recharge = none ∧ u.plant.capC = (if 1 / 2 ≤ v0 - storeVolts s then s.plant.capC else s.plant.capC * 9 / 10)) ∧
    (∃ u, exec (.storeFltNAssert) s = .next u ∧ u.pins.storeFlt = true ∧ u.pins.storeChg = false ∧
      (s.mainOn = true → u.commit.frozen = true) ∧ (s.mainOn = false → { u with pins := s.pins } = s)) ∧
    (∃ u, exec (.storeFltNNegate) s = .next u ∧ u.pins.storeFlt = false ∧ { u with pins := s.pins } = s)

/-- The operations of Tables 15.2 and of R411 (R399, R401, R402): a slice that is on starts its oldest queued descriptor
where the command's operation is the descriptor's. One that succeeds holds its output length and inline result; one
that fails holds its code, and the rest of its chain does not run; one whose write waits for a commit grant stays
queued, with its requests where they wait (R221). A slice that is off or has 8 descriptors in progress starts none, nor does one in M2 or M6 to M8 (R37) or while a
frequency change holds its unit (R19). Results of operations (R402 to R404, R410,
R419): a hash in one descriptor goes to OUT; a multi-part descriptor that is not the last has a length that is a
multiple of 256; an ECDSA signature that does not verify is code 1 and nothing is written; random data goes to OUT,
and ends with code 10 while the entropy source has stopped. -/
def Obligations.AcceleratorOperations : Prop :=
  (∀ (k : Fin 16) (j : Job) (s : State) (comp : Bool) (c : Instr) (op : Nat) (f : Nat → Desc → OpM OpOut),
    (comp = false ∧ (c, op, f) ∈ [(.aesGcmEncrypt k, 1, runGcm true), (.aesGcmDecrypt k, 2, runGcm false),
      (.aesXtsEncrypt k, 3, runXts true), (.aesXtsDecrypt k, 4, runXts false), (.aesCmacGenerate k, 5, runCmac true),
      (.aesCmacVerify k, 6, runCmac false), (.sha256 k, 0x08, runHash 0), (.sha384 k, 0x09, runHash 1),
      (.sha512 k, 0x0A, runHash 2), (.sha3256 k, 0x0B, runHash 3), (.sha3384 k, 0x0C, runHash 4), (.sha3512 k, 0x0D, runHash 5),
      (.hmacGenerate k, 0x0E, runHmac true), (.hmacVerify k, 0x0F, runHmac false), (.ecdsaSign k, 0x10, opEcdsaSign k),
      (.ecdsaVerify k, 0x11, opEcdsaVerify), (.mlDsaSign k, 0x12, opMlDsaSign k), (.mlDsaVerify k, 0x13, opMlDsaVerify),
      (.mlKemKeyGeneration k, 0x14, opMlKemKeyGeneration k), (.mlKemEncapsulate k, 0x15, opMlKemEncapsulate k),
      (.mlKemDecapsulate k, 0x16, opMlKemDecapsulate k), (.ecdsaKeyGeneration k, 0x17, opEcdsaKeyGeneration k),
      (.mlDsaKeyGeneration k, 0x18, opMlDsaKeyGeneration k), (.pinBlockTranslation k, 0x20, opPinBlockTranslation k),
      (.generateKey k, 0x28, opGenerateKey k), (.importClearKey k, 0x29, opImportClearKey k), (.reWrap k, 0x2A, opReWrap k),
      ((.randomBytes k : Instr), 0x30, opRandomBytes k)]) ∨
    (comp = true ∧ (c, op, f) ∈ [(.compress k, 1, opCompress), ((.decompress k : Instr), 2, opDecompress)]) →
    (s.slice comp k).jobs.find? (fun i => i.stage == .queued) = some j → (descOf j.desc).op = op →
    s.lcs (.zone (Fin.ofNat 16 j.zone)) = .on →
    s.coh.blocked = [] →
    let ready := s.lcs (sliceFn comp k) = .on ∧ unitWorks s comp = true ∧ unitHeld s comp = false ∧ chanHolds s = false ∧
      inProgress (s.slice comp k) < 8
    let ends := fun (t : State) (st : JobStage) =>
      ∃ u, exec c s = .next u ∧ u.mem = t.mem ∧ u.free = t.free ∧
        (u.slice comp k).jobs.length = (t.slice comp k).jobs.length ∧
        (∃ m ∈ (u.slice comp k).jobs, m.desc = j.desc ∧ m.chain = j.chain ∧ m.pos = j.pos) ∧
        ∀ m ∈ (u.slice comp k).jobs, m.chain = j.chain → m.pos = j.pos → m.stage = st
    (¬ ready → exec c s = .next s) ∧
    (ready →
      (∀ o t, (f j.zone (descOf j.desc)).run s = (.ok o, t) → t.coh.blocked = [] → j ∈ (t.slice comp k).jobs →
        ends t (.ran 0 0 o.outLen o.inl o.more)) ∧
      (∀ code detail n inl t, (f j.zone (descOf j.desc)).run s = (.error (.fail code detail n inl), t) → code ≠ 0 →
        t.coh.blocked = [] → j ∈ (t.slice comp k).jobs →
        ends t (.ran code detail n inl false) ∧
        ∀ u, exec c s = .next u → ∀ m ∈ (u.slice comp k).jobs, m.chain = j.chain → j.pos < m.pos → m.stage = .notRun) ∧
      (∀ t, (f j.zone (descOf j.desc)).run s = (.error .waits, t) → t.coh.blocked ≠ [] → exec c s = .next (standing s t)))) ∧
  (∀ (z : Nat) (d : Desc) (s t : State) (b : List Byte),
    (∀ n t', d.param = 0 → d.first = true → d.final = true → d.ctx = 0 → accRead false 0 z d.inp d.len1 s = (.ok b, t) →
      accWrite false z d.out (hashAlg n b) t = (.done, t') →
      (runHash n z d).run s = (.ok { outLen := hashSize n }, t')) ∧
    (∀ n, d.param = 0 → d.final = false → d.len1 % 256 ≠ 0 → d.ctx ≠ 0 →
      (runHash n z d).run s = (.error (.fail 5 0 0 0), s)) ∧
    (∀ h t', ecParamOk d.param = true → d.len2 = 4 * (curveOf (d.param % 16)).size + 1 →
      accRead false 0 z d.aux d.len2 s = (.ok b, t) → (ecInput z d).run t = (.ok h, t') →
      (opEcdsaVerify z d).run s =
        (if ecVerify (curveOf (d.param % 16)) (b.take (2 * (curveOf (d.param % 16)).size + 1))
            (b.drop (2 * (curveOf (d.param % 16)).size + 1)) h then .ok {} else .error (.fail 1 0 0 0), t')) ∧
    (∀ k : Fin 16, s.crypto.entropy = false → d.param < 2 → d.len1 ≤ 65536 →
      (opRandomBytes k z d).run s = (.error (.fail 10 0 0 0), s)) ∧
    (∀ (k : Fin 16) t', s.crypto.entropy = true → d.param < 2 → d.len1 ≤ 65536 → d.len1 ≤ d.outCap →
      drbgBytes k (d.param == 1) d.len1 s = (b, t) → accWrite false z d.out b t = (.done, t') →
      (opRandomBytes k z d).run s = (.ok { outLen := d.len1 }, t')))

/-- Completions and randomness (R401, R414, R419, R420): the completion of the first finished descriptor is one 64 B write
to its area, then its interrupt; a chain's held completions are let go once the time is over; a failed health test
stops the source and raises ENTROPY_FAIL; a pass lets it resume, and every DRBG reseeds first. -/
def Obligations.CompletionsAndEntropy : Prop :=
  ∀ (k : Fin 16) (s t : State),
    (∀ comp (j : Job) a code detail n inl more, unitWorks s comp = true → unitHeld s comp = false →
      readyJob (s.slice comp k).jobs = some j → j.stage = .ran code detail n inl more →
      complArea j (chainAfter j (s.slice comp k).jobs) = some a →
      let wr := accWrite comp j.zone a (complEntry j code detail n inl more s.now) s
      (wr = (.waits, t) → t.coh.blocked ≠ [] → exec (.descriptorComplete comp k) s = .next (standing s t)) ∧
      (wr = (.done, t) → t.coh.blocked = [] → j.last = true → code = 0 → chainAfter j (s.slice comp k).jobs = [] →
        exec (.descriptorComplete comp k) s = .next (jobIrq j (dropJob j (some a) comp k t)))) ∧
    (∀ comp, unitWorks s comp = false → unitHeld s comp = false → s.coh.blocked = [] → ∃ u, exec (.descriptorComplete comp k) s = .next u ∧
      (u.slice comp k).jobs = [] ∧ u.mem = s.mem) ∧
    (∀ j, (s.slice false k).jobs.find? (fun i => i.held) = some j → ∃ u, exec (.chainFailureHold k) s = .next u ∧
      (∀ i ∈ (u.slice false k).jobs, i.chain = j.chain → i.held = false) ∧
      (u.slice false k).jobs.length = (s.slice false k).jobs.length ∧ u.mem = s.mem) ∧
    (s.crypto.entropy = true → unitWorks s false = true →
      exec .entropyHealthFail s =
        .next (latch .crypto 10 0 0 2 { s with crypto := { s.crypto with entropy := false } }) ∧
      (∃ u, exec (.drbgReseed (some k)) s = .next u ∧ (u.slice false k).drbgReq = 0 ∧
        (u.slice false k).needSeed = false) ∧
      (∃ u, exec (.drbgReseed none) s = .next u ∧ u.crypto.modSeed = false ∧ u.cslices = s.cslices)) ∧
    (s.crypto.entropy = false → unitWorks s false = true →
      exec (.entropyRetest false) s = .next s ∧
      ∃ u, exec (.entropyRetest true) s = .next u ∧ u.crypto.entropy = true ∧ u.crypto.modSeed = true ∧
        ∀ i : Fin 16, (u.slice false i).needSeed = true)

/-- Requests at the memory controllers (R298, R300, R303, R305, R317): one outside DRAM is an error, one whose rank is not
on in every counted channel is answered FENCED; a read whose stripes hold at most one that is uncorrectable returns
the line, one with two bad stripes an error, and the line is poisoned from then on; a full write is what the
controllers hold from then on, ends the poison, and changes no other line; each request joins the queues of the group,
but for a read that a write queue serves; a write that finds the queues full comes again (log entry 85). -/
def Obligations.DramRequests : Prop :=
  ∀ (a : Acc) (line retries : Nat) (bytes : List Byte) (st : List Stripe) (s : State),
    let g := (lineGroup line).val
    let joins := fun (u : State) (w : Bool) => ∀ i, i < 5 → (u.mc (groupMc g i)).queue =
      (s.mc (groupMc g i)).queue ++ [{ line := line, write := w, port := qosPort a.master.toNat }]
    (isDram s line = false → exec (.mcReadRequest a line st) s = .next { s with resp := .error } ∧
      exec (.mcWriteRequest a line bytes retries) s = .next { s with resp := .error }) ∧
    (isDram s line = true → lineAnswers s line = false →
      exec (.mcReadRequest a line st) s = .next { s with resp := .fenced } ∧
      exec (.mcWriteRequest a line bytes retries) s = .next { s with resp := .fenced }) ∧
    (isDram s line = true → lineAnswers s line = true → (s.grp g).failed = none →
      (∀ i, i < 5 → (∀ j, j < 5 → j ≠ i → st.getD j .good = .good) → ∃ u, exec (.mcReadRequest a line st) s = .next u ∧
        (inWriteQueue s line = false → st.getD i .good = .good → joins u false) ∧
        u.dram = s.dram ∧ u.mem = s.mem ∧ u.poison = s.poison ∧
        u.resp = if s.poisoned line then .error else .dict 0 ((List.range 256).map (fun i => tget 0 s.dram (256 * line + i)))) ∧
      (∀ i j, i < j → j < 5 → i < 4 → inWriteQueue s line = false → st.getD i .good = .bad → st.getD j .good = .bad → ∃ u,
        exec (.mcReadRequest a line st) s = .next u ∧ u.resp = .error ∧ u.poisoned line = true) ∧
      (queueRoom s line = false → exec (.mcWriteRequest a line bytes retries) s = .next s) ∧
      (retries = 0 → queueRoom s line = true → ∃ u, exec (.mcWriteRequest a line bytes retries) s = .next u ∧ joins u true ∧ u.resp = .ok 0 ∧
        (∀ i, i < 256 → tget 0 u.dram (256 * line + i) = bytes.getD i 0) ∧
        (∀ x, x / 256 ≠ line → tget 0 u.dram x = tget 0 s.dram x ∧ tget 0 u.mem x = tget 0 s.mem x) ∧
        u.poisoned line = false ∧ ∀ l, l ≠ line → u.poisoned l = s.poisoned l) ∧
      (3 ≤ retries → queueRoom s line = true → ∃ v, exec (.mcWriteRequest a line bytes retries) s =
        .next (checkDegraded (fenceFn (.rank (groupMc g 0) (Fin.ofNat 4 (lineRank s line))) 3 v))))

/-- Refresh, power states and scheduling (R306 to R310): a refresh and each power state closes the rank's rows;
self-refresh first does every due targeted refresh of the rank; a command slot does a due targeted refresh first, else
the next command of the ready request with the highest urgency, a row hit before others, then the oldest: PRE where another
row is open, ACT where none is, else its read or write; a request that reaches urgency 3 is counted. -/
def Obligations.DramScheduling : Prop :=
  ∀ (mc : Fin 20) (rank : Fin 4) (s : State),
    let c := s.mc mc
    let p := tget RankPower.up c.power rank
    let one := fun (u : State) => { u with mcs := s.mcs } = s
    let closed := fun (u : State) => ∀ e ∈ (u.mc mc).openRow, e.1 / 64 ≠ rank.val
    (s.lcs (.rank mc rank) = .on → p ≠ .selfRefresh → ∃ u, exec (.refreshDue mc rank) s = .next u ∧ closed u ∧ one u ∧
      (u.mc mc).applyDue = c.applyDue.filter (· != rank.val) ∧ (u.mc mc).queue = c.queue) ∧
    (s.lcs (.rank mc rank) = .on → rankIdle s mc rank = true → c.pdIdle ≠ 0 → p = .up → ∃ u,
      exec (.powerDownEntry mc rank) s = .next u ∧ closed u ∧ one u ∧ tget RankPower.up (u.mc mc).power rank = .powerDown) ∧
    (s.lcs (.rank mc rank) = .on → rankIdle s mc rank = true → c.srIdle ≠ 0 → p ≠ .selfRefresh →
      let t := (rankDue s mc rank).foldl (fun (v : State) e => targetedRefresh mc e v) s
      (rankDue t mc rank ≠ [] → exec (.selfRefreshEntry mc rank) s = .next t) ∧
      (rankDue t mc rank = [] → ∃ u, exec (.selfRefreshEntry mc rank) s = .next u ∧ closed u ∧
        { u with mcs := t.mcs } = t ∧ tget RankPower.up (u.mc mc).power rank = .selfRefresh ∧
        (∀ e ∈ (u.mc mc).trDue, e.1 ≠ rank.val) ∧
        (c.trCnt ≤ 0xFFFFFFFF → (u.mc mc).trCnt = Nat.min 0xFFFFFFFF (c.trCnt + (rankDue s mc rank).length)))) ∧
    (rankIdle s mc rank = false → exec (.powerDownEntry mc rank) s = .next s ∧ exec (.selfRefreshEntry mc rank) s = .next s) ∧
    (∀ i q, ∀ level : Fin 4, c.queue[i]? = some q → q.urgency < level.val → ∃ u, exec (.urgencyStep mc i level) s = .next u ∧
      one u ∧ (u.mc mc).queue = c.queue.set i { q with urgency := level.val } ∧
      tget 0 (u.mc mc).l3cnt q.port = (if level.val = 3 then Nat.min 0xFFFFFFFF (tget 0 c.l3cnt q.port + 1)
        else tget 0 c.l3cnt q.port)) ∧
    (∀ e l ready, c.trDue = e :: l → ∃ u, exec (.dramCommandSlot mc ready) s = .next u ∧ u.mem = s.mem ∧ u.dram = s.dram ∧
      l <+: (u.mc mc).trDue ∧ (u.mc mc).trCnt = Nat.min 0xFFFFFFFF (c.trCnt + 1) ∧ (u.mc mc).queue = c.queue ∧
      tget none (u.mc mc).openRow (e.1 * 64 + e.2.1) = none) ∧
    (∀ ready i q, c.trDue = [] → i ∈ ready → c.queue[i]? = some q →
      let loc := fun (r : McReq) => devLoc s.dimms (lineLI r.line)
      let row := fun (r : McReq) => tget none c.openRow (loc r).key = some (loc r).row
      (∀ j r, j ∈ ready → c.queue[j]? = some r → j ≠ i → r.urgency < q.urgency ∨
        (r.urgency = q.urgency ∧ ((row q ∧ ¬ row r) ∨ ((row q ↔ row r) ∧ i < j)))) →
      ∃ u, exec (.dramCommandSlot mc ready) s = .next u ∧ u.mem = s.mem ∧ u.dram = s.dram ∧
        (u.mc mc).queue = (if tget none c.openRow (loc q).key = some (loc q).row then c.queue.eraseIdx i else c.queue) ∧
        tget none (u.mc mc).openRow (loc q).key = match tget none c.openRow (loc q).key with
          | none => some (loc q).row
          | some r => if r = (loc q).row then some r else none)

/-- Training (R312, R313, R315): GO starts a run of its mode where the mode may run, and else sets ERR; while a run is in
progress it is ignored; APPLY makes every rank's delays due; a run's end leaves its result bits, or ERR without a
response; the periodic update moves every delay of a rank, or is skipped as a whole, and the third skip in a row ends
the rank. The rounding of the update is the model's (log entry 17), and so are reserved modes and nibbles (log entry
16). Scrub and rebuild (R304, R316): each scrub step reads the next line of the group, after the last the first; a
period of 0 disables it; each rebuild step moves to the next line, and after the last the channel counts again. -/
def Obligations.DramTrainingScrubAndRebuild : Prop :=
  (∀ (mc : Fin 20) (a : Acc) (rank : Fin 4) (s : State),
    let c := s.mc mc
    (reach a (trnAddr mc) 8 true s = (none, s) →
      (∀ (nibble : Fin 32) (start : BitVec 10) i m, (i, m) ∈ [((.trnWriteLevelling mc a rank nibble start : Instr), 0),
          (.trnReceiveEnable mc a rank nibble start, 1), (.trnReadEye mc a rank nibble start, 2),
          (.trnWriteEye mc a rank nibble start, 3), (.trnDqsOscillator mc a rank nibble start, 4),
          (.trnCaTraining mc a rank nibble start, 5)] →
        ∃ u, exec i s = .next u ∧ u.resp = .ok 0 ∧ { u with mcs := s.mcs, resp := s.resp } = s ∧
          let named := { c with
            trnMode := BitVec.ofNat 3 m, trnRank := BitVec.ofNat 2 rank.val
            trnNibble := BitVec.ofNat 5 nibble.val, trnStart := start }
          u.mc mc = if c.trnBusy then named
            else if trnAllowed s mc m rank nibble then { named with trnBusy := true, trnErr := false }
            else { named with trnErr := true }) ∧
      (∃ u, exec (.trnApply mc a) s = .next u ∧ u.resp = .ok 0 ∧ { u with mcs := s.mcs, resp := s.resp } = s ∧
        u.mc mc = { c with applyDue := allBelow 4 (rankPresent s) })) ∧
    (∀ res none', c.trnBusy = true → ∃ u, exec (.trnRunComplete mc res none' false) s = .next u ∧ (u.mc mc).trnBusy = false ∧
      (u.mc mc).trnErr = none' ∧ { u with mcs := s.mcs } = s ∧
      (u.mc mc).trnRes = if none' then c.trnRes else if c.trnMode = 4 then res &&& 0xFFFF else res) ∧
    (∀ osc centres, s.lcs (.rank mc rank) = .on →
      let old := fun (k : Nat) => tget 0 c.shadow (20 * rank.val + k)
      let wr := fun (k : Nat) => ((tget 0 c.wrRef (20 * rank.val + k) : Nat) : Int) +
        (((osc : Nat) : Int) - ((tget 0 c.oscRef rank.val : Nat) : Int)) * ((s.entry 0x7011 0 0 : Nat) : Int) / 256
      let ok := fun (k : Nat) => ∃ ct, centres.getD k none = some ct ∧
        ((ct : Int) - ((fld 25 16 (old k) : Nat) : Int)).natAbs ≤ 16 ∧ (wr k - ((fld 9 0 (old k) : Nat) : Int)).natAbs ≤ 16 ∧
        0 ≤ wr k
      ((∀ k, k < 20 → ok k) → ∃ u, exec (.delayUpdate mc rank osc centres) s = .next u ∧ { u with mcs := s.mcs } = s ∧
        tget 0 (u.mc mc).skips rank.val = 0 ∧ (u.mc mc).applyDue = allBelow 4 (rankPresent s) ∧
        ∀ k, k < 20 → tget 0 (u.mc mc).shadow (20 * rank.val + k) =
          setFld 25 16 (setFld 9 0 (old k) (wr k).toNat) ((centres.getD k none).getD 0)) ∧
      ((∃ k, k < 20 ∧ ¬ ok k) → ∃ v, { v with mcs := s.mcs } = s ∧
        tget 0 (v.mc mc).skips rank.val = tget 0 c.skips rank.val + 1 ∧ (v.mc mc).shadow = c.shadow ∧
        exec (.delayUpdate mc rank osc centres) s =
          .next (if 3 ≤ tget 0 c.skips rank.val + 1 then trainFails mc rank v else v)))) ∧
  (∀ (g : Fin 4) (st : List Stripe) (s : State),
    (s.entry 0x7020 0 24 = 0 → exec (.scrubLine g st) s = .next s) ∧
    (s.entry 0x7020 0 24 ≠ 0 → s.md.initDone = true → (s.grp g).lost = false → (∀ i, st.getD i .good = .good) →
      ∃ u, exec (.scrubLine g st) s = .next u ∧ (u.grp g).scrub = ((s.grp g).scrub + 1) % groupLines s ∧ u.mem = s.mem ∧
        u.dram = s.dram ∧ u.poison = s.poison) ∧
    ((s.grp g).rebuild = none → exec (.rebuildLine g st) s = .next s) ∧
    (∀ n, (s.grp g).rebuild = some n → (∀ i, st.getD i .good = .good) →
      (n + 1 < groupLines s → ∃ u, exec (.rebuildLine g st) s = .next u ∧
        (u.grp g).rebuild = some (n + 1) ∧ u.mem = s.mem ∧ u.dram = s.dram ∧ u.poison = s.poison) ∧
      (groupLines s ≤ n + 1 → ∃ v, exec (.rebuildLine g st) s = .next (checkDegraded v) ∧
        (v.grp g).rebuild = none ∧ (v.grp g).failed = none ∧ v.mem = s.mem ∧ v.dram = s.dram ∧ v.poison = s.poison)))

/-- Grants and records of the commit store (R32, R325 to R329, R334, R338, R339): a block that is dirty and not being
cleaned needs no grant; while the store grants and none waits a grant makes the block dirty; otherwise the request waits
in arrival order, and before the generation's open record it asks for that record; in M7 every request is granted once
that record stands. The open record starts the next generation; a block record writes the block's content, and the block
is clean unless a grant cancelled that. -/
def Obligations.CommitGrants : Prop :=
  ∀ (a : Acc) (b : Nat) (s : State),
    let m7 := s.inMode [.holdup] = true ∧ s.commit.openDone = true ∧ s.commit.frozenMap = none
    ((regionBlocks s ≤ b ∨ s.lcs .commit ≠ .on) → exec (.commitGrantRequest a b) s = .next { s with resp := .fenced }) ∧
    (b < regionBlocks s → s.lcs .commit = .on →
      (blockOpen s b = true → exec (.commitGrantRequest a b) s = .next { s with resp := .ok 1 }) ∧
      (blockOpen s b = false → m7 ∨ (canGrant s = true ∧ s.commit.queue = []) →
        ∃ u, exec (.commitGrantRequest a b) s = .next u ∧ u.resp = .ok 1 ∧ b ∈ u.commit.dirty ∧ u.mem = s.mem ∧
          u.commit.queue = s.commit.queue ∧ ∀ c, c ≠ b → (c ∈ u.commit.dirty ↔ c ∈ s.commit.dirty)) ∧
      (blockOpen s b = false → ¬ m7 → (canGrant s = false ∨ s.commit.queue ≠ []) →
        ∃ u, exec (.commitGrantRequest a b) s = .next u ∧ u.resp = .ok 0 ∧ u.commit.dirty = s.commit.dirty ∧
          (∃ r ∈ u.commit.queue, r.acc = a ∧ r.block = b) ∧ s.commit.queue <+: u.commit.queue ∧
          (s.commit.openDone = false → takesStores s = true ∨ s.inMode [.holdup] = true → u.commit.openDue = true))) ∧
    (s.commit.openDue = true → flashFailed s ≤ 14 → ∃ v,
      (s.inMode [.holdup] = false → exec .openRecordWritten s = .next (drainWbuf (serveGrants v))) ∧
      (s.inMode [.holdup] = true → exec .openRecordWritten s = .next (drainWbuf (grantAll v))) ∧
      v.commit.gen = s.commit.gen + 1 ∧ v.commit.openDone = true ∧ v.commit.openDue = false ∧
      v.commit.log = s.commit.log ++ [.opened (s.commit.gen + 1) s.tb.tod] ∧ { v with commit := s.commit } = s) ∧
    (s.commit.cleaning = some b → flashFailed s ≤ 14 → ∃ v, exec .blockRecordWritten s = .next (drainWbuf (serveGrants v)) ∧
      v.commit.log = s.commit.log ++ [.block b s.commit.gen s.tb.tod (blockCells s b)] ∧ v.commit.cleaning = none ∧
      v.commit.dirty = (if s.commit.cancelled then s.commit.dirty else s.commit.dirty.erase b) ∧
      tget 0 v.commit.named b = v.commit.log.length ∧ { v with commit := s.commit } = s) ∧
    (∀ l, s.commit.cleaning = none → s.commit.frozenMap = some (b :: l) → flashFailed s ≤ 14 →
      ∃ u, exec .blockRecordWritten s = .next u ∧ u.commit.frozenMap = some l ∧ u.commit.done = s.commit.done + 1 ∧
        u.commit.log = s.commit.log ++ [.block b s.commit.gen s.tb.tod (blockCells s b)] ∧ { u with commit := s.commit } = s) ∧
    (∀ ch : Fin 16, s.commit.chanFail.getLsbD ch = false → ∃ u, exec (.flashChannelFailure ch) s = .next u ∧
      u.commit.chanFail.getLsbD ch = true ∧ u.commit.log = s.commit.log ∧ u.commit.dirty = s.commit.dirty ∧ u.mem = s.mem)

/-- The drain (R333, R336, R338, R342): it takes the dirty blocks in rising order; its end leaves every block's record and
a complete index of the generation, and M0; below the bus threshold an incomplete index ends it. After M7 the module
rests until the hold expires (R35). -/
def Obligations.DrainAndIndex : Prop :=
  ∀ (s : State),
    (∀ v, drainWbuf s = v → v.inMode [.holdup] = true → v.commit.phase = 1 → stopPhaseDone v = true →
      ∃ u, exec .drainSnapshot s = .next u ∧ u.commit.frozenMap = some (sortNat v.commit.dirty) ∧ u.commit.phase = 2 ∧
        u.mem = v.mem ∧ u.dram = v.dram ∧ ∀ (m : Fin 20) (r : Fin 4), rankPresent s r = true → r ≠ 0 →
          tget RankPower.up (u.mc m).power r = .selfRefresh) ∧
    (∀ l, s.commit.frozenMap = some l → s.commit.openDone = true → flashFailed s ≤ 14 →
      let ends := fun (u : State) => ∃ recs names, u.commit.log = s.commit.log ++ recs ++
          [.index s.commit.gen true s.commit.size.toNat names] ∧ u.md.lastIndex = s.commit.gen ∧
        ∀ b ∈ l, recordAt u.commit.log (tget 0 names b) = some (blockCells s b)
      (s.inMode [.holdup] = true → ∃ u, exec .drainFinished s = .next u ∧ ends u ∧ u.md.mode = some .cold ∧
        u.md.cause = 0x11 ∧ u.md.awaitRepower = true ∧ u.outs.holdLvl = true ∧ u.pins.railsOn = false) ∧
      (s.inMode [.quiesced] = true → s.md.leaving.isSome = true → ∃ u, exec .orderlyDrainComplete s = .next u ∧ ends u ∧
        u.md.mode = some .cold ∧ u.md.cause = 0x0E) ∧
      (s.inMode [.checkstop] = true → s.pins.railsOn = true → s.commit.phase ≠ 6 → s.commit.phase ≠ 7 → s.md.requests = [] →
        ∃ u, exec .salvageDrainComplete s = .next u ∧ ends u ∧ u.md.mode = s.md.mode ∧ u.pins.railsOn = false ∧
          u.encke.chkSeq = s.encke.chkSeq + 1)) ∧
    (∀ b l, s.commit.frozenMap = some (b :: l) → flashFailed s ≤ 14 → ∃ u, exec .busBelowDrainThreshold s = .next u ∧
      u.commit.frozenMap = none ∧ u.commit.incomplete = true ∧ u.commit.dirty = s.commit.dirty ∧
      u.commit.log = s.commit.log ++ [.index s.commit.gen false s.commit.size.toNat s.commit.drained] ∧
      { u with commit := s.commit } = s) ∧
    (s.inMode [.cold] = true → s.md.awaitRepower = true → exec .holdupRepowerHoldExpiry s =
      .next (leaveCold { s with md := { s.md with awaitRepower := false } }))

/-- Restore (R340, R341, R405): where the log's last complete index is all that is to be loaded, every block that it names
holds what the record at its location holds, every other block of the region reads as zero, memory outside the region is
unchanged, and the result is 1; a block whose record fails reads as zero and every line of it is poisoned, with
result 4, and without the drain key that is every block that the index names; an image larger than the region loads
nothing, with result 5. -/
def Obligations.RestoreLoadsTheImage : Prop :=
  ∀ (s : State) (g size : Nat) (names : Tbl Nat) (bad badIx : List Nat),
    s.inMode [.restore] = true → s.md.restored = none →
    let log := s.commit.log.filter (fun r => match r with
      | .index h _ _ _ => !badIx.contains h
      | _ => true)
    restoreChain log = [(g, true, size, names)] → twf 0 names = true → (∀ e ∈ names, e.1 < regionBlocks s) →
    (∀ e ∈ names, ∃ d, recordAt s.commit.log e.2 = some d ∧ Memory.wf d = true ∧ ∀ c ∈ d, c.1 / 262144 = e.1) →
    let fails := fun (b : Nat) => tget 0 names b ≠ 0 ∧ (b ∈ bad ∨ s.crypto.drainKey = none)
    ∃ v, exec (.restoreComplete bad badIx) s = .next (leaveRestore (enableCommit v)) ∧
      (∀ x, regionBlocks s ≤ x / 262144 → tget 0 v.mem x = tget 0 s.mem x ∧ tget 0 v.dram x = tget 0 s.dram x) ∧
      (s.commit.size.toNat < size → v.md.restored = some 5 ∧
        ∀ x, x / 262144 < regionBlocks s → tget 0 v.mem x = 0 ∧ tget 0 v.dram x = 0) ∧
      (size ≤ s.commit.size.toNat →
        ((∃ b, fails b) → v.md.restored = some 4) ∧
        ((∀ b, ¬ fails b) → v.md.restored = some (if openUnanswered log then 3 else 1)) ∧
        ∀ x, x / 262144 < regionBlocks s →
          let b := x / 262144
          (fails b → tget 0 v.mem x = 0 ∧ tget 0 v.dram x = 0 ∧ v.poisoned (x / 256) = true) ∧
          (tget 0 names b = 0 → tget 0 v.mem x = 0 ∧ tget 0 v.dram x = 0) ∧
          (∀ d, ¬ fails b → recordAt s.commit.log (tget 0 names b) = some d →
            tget 0 v.mem x = tget 0 d x ∧ tget 0 v.dram x = tget 0 d x))

/-- Mode requests (R30, R31, R34, Table 2.2): each is accepted in the modes that Table 2.2 names, and refused elsewhere with
0x08000022; one that comes during a transition waits. From M0 a request for M1 or M3 starts the rails; from M3 to M6
service begins and ends, zones stop and start, and an orderly power-down starts its drain. -/
def Obligations.ModeRequests : Prop :=
  ∀ (p : Principal) (s : State),
    let refused : Host.Outcome State Fault Refusal := .next { s with resp := .dict 0x08000022 [] }
    let waits := fun (code : Nat) => { s with
      md := { s.md with requests := s.md.requests ++ [{ code := code, who := p, item := none }] }, resp := .none }
    (s.inMode [.quiesced, .checkstop] = false → exec (.modeRequestCold p) s = refused) ∧
    (s.inMode [.checkstop] = true → p ≠ .F → exec (.modeRequestCold p) s = refused) ∧
    (s.inMode [.quiesced] = true → s.md.leaving ≠ none → exec (.modeRequestCold p) s = .next (waits 0)) ∧
    (s.inMode [.quiesced] = true → s.md.leaving = none → ∃ u, exec (.modeRequestCold p) s = .next u ∧ u.resp = .dict 0 [] ∧
      u.commit.frozenMap = some (sortNat s.commit.dirty) ∧ u.md.leaving = some 0 ∧ u.md.mode = s.md.mode) ∧
    (s.inMode [.checkstop] = true → s.pins.railsOn = false → ∃ u, exec (.modeRequestCold .F) s = .next u ∧
      u.resp = .dict 0 [] ∧ u.md.mode = some .cold ∧ u.md.cause = 0x13 ∧ u.outs.chkLvl = true) ∧
    (s.inMode [.cold] = false → exec (.modeRequestProvision p) s = refused) ∧
    (s.inMode [.cold] = true →
      (s.md.awaitRepower = true → exec (.modeRequestProvision p) s = .next (waits 1) ∧
        exec (.modeRequestRun p) s = .next (waits 3)) ∧
      (s.md.awaitRepower = false → s.pins.seqBusy = false → s.pins.railsOn = false → s.pins.pfwCounted = false →
        let rails := fun (v : State) => { v with pins := { v.pins with railEn := 0xFF, seqBusy := true } }
        exec (.modeRequestProvision p) s = .next (rails (waits 1)) ∧ exec (.modeRequestRun p) s = .next (rails (waits 3)))) ∧
    (s.md.requests = [] → s.inMode [.restore, .run, .degraded, .holdup, .checkstop] = true ∨
      (s.inMode [.service] = true ∧ s.md.m5From = .quiesced) → exec (.modeRequestRun p) s = refused) ∧
    (s.inMode [.provision] = true → s.md.provisioned = true → s.md.held = false → m1Blocked s = false →
      logHasImage s.commit.log = true → s.md.requests = [] → ∃ u, exec (.modeRequestRun p) s = .next u ∧
        u.md.mode = some .restore ∧ u.md.cause = 3 ∧ u.resp = .dict 0 []) ∧
    (s.inMode [.quiesced] = true → s.md.leaving = none → ∃ v w, exec (.modeRequestRun p) s = .next (takeRequest
        { w with resp := .dict 0 [] }) ∧ w = restartZones v ∧ v.md.cause = 0x0D ∧
      v.md.mode = some (if degradedNow s then .degraded else .run)) ∧
    (s.inMode [.service] = true → s.md.m5From ≠ .quiesced → s.md.leaving = none → s.md.unchecked = 0 → s.md.requests = [] →
      ∃ u, exec (.modeRequestRun p) s = .next u ∧ u.md.cause = 0x0A ∧ u.md.dbgPort = false ∧
        u.md.mode = some (if degradedNow s then .degraded else .run) ∧ ∀ n th, (u.thr n th).halted = false) ∧
    (p = .P ∨ s.entry 0x2030 0 0 ≠ 1 ∨ s.inMode [.run, .degraded, .quiesced] = false →
      exec (.modeRequestService p) s = refused) ∧
    (p ≠ .P → s.entry 0x2030 0 0 = 1 → s.inMode [.run, .degraded, .quiesced] = true →
      (s.md.leaving ≠ none → exec (.modeRequestService p) s = .next (waits 5)) ∧
      (s.md.leaving = none →
        ∃ u, exec (.modeRequestService p) s = .next u ∧ u.md.mode = some .service ∧ u.md.cause = 9 ∧ u.md.dbgPort = true ∧
          some u.md.m5From = s.md.mode ∧ u.resp = .dict 0 [])) ∧
    (s.inMode [.run, .degraded, .service] = false → s.md.requests = [] → exec (.modeRequestQuiesce p) s = refused) ∧
    (s.inMode [.run, .degraded] = true → ∃ v w, exec (.modeRequestQuiesce p) s = .next (takeRequest { w with
        resp := .dict 0 [] }) ∧ w = (List.finRange 16).foldl (fun x z => lcCommand (.zone z) .disable 5 x) v ∧
      v.md.mode = some .quiesced ∧ v.md.cause = 0x0C ∧ v.md.zonesDue = [] ∧ ∀ z, z < 16 → (z ∈ v.md.m6Zones ↔
        s.lcs (.zone (Fin.ofNat 16 z)) = .on ∨ s.lcs (.zone (Fin.ofNat 16 z)) = .starting)) ∧
    (s.inMode [.service] = true → s.md.m5From = .quiesced → s.md.leaving = none → s.md.unchecked = 0 → s.md.requests = [] →
      ∃ u, exec (.modeRequestQuiesce p) s = .next u ∧ u.md.mode = some .quiesced ∧ u.md.cause = 0x0B ∧ u.md.dbgPort = false)

/-- Power (R29, R32, R33, R35, R333, R405, R509, R529, R533, R535): the VAUX domain's supply, the boot checks and boot
recovery, the rail sequence, and loss of power: M7 from M3 to M6, M0 from M1 and M2; what was pending is answered, and
requests for grants are granted. In M1 each island takes the reference that service software has chosen, or the one that
is present; with neither, M8 begins (R21). -/
def Obligations.PowerEvents : Prop :=
  ∀ (s : State),
    (∀ straps, s.vaux = false → ∃ u, exec (.vauxInTolerance straps) s = .next u ∧ u.vaux = true ∧ u.md.booting = true ∧
      u.pins.railEn = 1 ∧ u.mgmt.straps = straps ∧ (u.island (.mgmt 0)).power = true ∧ (u.island .sns).power = true ∧
      (u.island .tb).power = true ∧ u.mem = s.mem) ∧
    (∃ u, exec .vauxLoss s = .next u ∧ u.vaux = false ∧ u.md.mode = none ∧ u.mem = [] ∧ u.commit.log = s.commit.log ∧
      u.lim = s.lim ∧ u.mgmt.dict = s.mgmt.stored ∧ u.pins.railsOn = false ∧ (s.inMode [.checkstop] = true → u.md.fromM8 = true)) ∧
    (s.md.booting = true → s.md.recovery = false → s.md.bootA = false → ∀ ver,
      (∃ u, exec (.bootImageCheck false true ver) s = .next u ∧ u.md.mode = some .cold ∧ u.md.booting = false ∧
        u.md.cause = (if s.md.fromM8 then 0x13 else 1) ∧ u.mgmt.mgmtVer = ver ∧ u.mgmt.joinedA = true ∧ u.mgmt.joinedB = true) ∧
      exec (.bootImageCheck false false ver) s = .next { s with md := { s.md with bootA := true } }) ∧
    (s.md.booting = true → s.md.recovery = false → s.md.bootA = true → ∀ ver,
      (∃ u, exec (.bootImageCheck true true ver) s = .next u ∧ u.md.mode = some .cold ∧ u.md.booting = false ∧
        u.mgmt.mgmtVer = s.mgmt.slotBVer.getD ver ∧ u.mgmt.bootEvent = (if s.md.bootRec then 2 else 1)) ∧
      exec (.bootImageCheck true false ver) s = .next { s with
        md := { s.md with recovery := true }, mgmt := { s.mgmt with joinedA := true, joinedB := true } }) ∧
    (let waits := s.md.recovery && s.mgmt.transfers.any (fun t => t.req.index == 0x1F00 && t.next == 0)
     ∀ ver,
      (waits = false → ∀ b, exec (.bootRecoveryImageWrite b ver) s = .next s) ∧
      (waits = true →
        (∃ u, exec (.bootRecoveryImageWrite true ver) s = .next u ∧ u.md.recovery = false ∧ u.md.bootA = false ∧
          u.md.bootRec = true ∧ u.mgmt.slotBVer = some ver ∧ u.mgmt.transfers = [] ∧
          u.mgmt.joinedA = false ∧ u.mgmt.joinedB = false ∧ u.resp = .dict 0 []) ∧
        (∃ u, exec (.bootRecoveryImageWrite false ver) s = .next u ∧ u.md = s.md ∧ u.mgmt.transfers = [] ∧
          u.mgmt.slotBVer = s.mgmt.slotBVer ∧ u.resp = .dict 0x06090030 []))) ∧
    (s.inMode [.cold] = true → s.pins.seqBusy = true →
      (∃ u, exec .railSequenceTimeout s = .next u ∧ u.pins.railEn = 1 ∧ u.pins.seqBusy = false ∧ u.entry 0x3030 1 0 = 1 ∧
        u.md.requests = []) ∧
      (s.pins.pfwCounted = false → ∀ onB ok,
        (s.pins.refA = true ∨ s.pins.refB = true → ∃ u, exec (.mainPgRise onB ok) s = .next u ∧ u.md.mode = some .provision ∧
          u.md.cause = 2 ∧ u.pins.railsOn = true ∧ u.mem = [] ∧ u.lc = [] ∧ u.md.requests = [] ∧ u.entry 0x3030 1 0 = 0 ∧
          (∀ i ∈ mainIslands, (u.island i).useB = if i ∈ onB then s.pins.refB else !s.pins.refA) ∧
          (ok = true → u.crypto.keys = s.crypto.savedKeys ∧ u.crypto.drainKey.isSome = true)) ∧
        (s.pins.refA = false → s.pins.refB = false → ∃ u, exec (.mainPgRise onB ok) s = .next u ∧
          u.md.mode = some .checkstop ∧ ∀ i ∈ mainIslands, (u.island i).fltFence = true))) ∧
    (let lost := fun (u : State) =>
        (s.inMode [.run, .degraded, .service, .quiesced] = true → u.md.mode = some .holdup ∧ u.md.cause = 0x10 ∧
          u.outs.holdPulse = true ∧ u.md.requests = [] ∧ u.md.dbgPort = false ∧
          (s.commit.openDone = true → u.commit.queue = [])) ∧
        (s.inMode [.provision, .restore] = true → u.md.mode = some .cold ∧ u.md.cause = 0x0F ∧ u.pins.railsOn = false) ∧
        (s.inMode [.cold] = true → s.pins.seqBusy = true → u.pins.railEn = 1 ∧ u.pins.seqBusy = false ∧
          u.md.mode = s.md.mode)
     (∃ u, exec .mainPowerGoodLost s = .next u ∧ lost u) ∧
     (s.pins.pfwLow = true → s.pins.pfwCounted = false → ∃ u, exec .pfwNCountAsserted s = .next u ∧ lost u ∧
       u.pins.pfwCounted = true)) ∧
    exec .pfwNLow s = .next { s with pins := { s.pins with pfwLow := true } } ∧
    (∃ u, exec .pfwNHigh s = .next u ∧ u.pins.pfwLow = false ∧ u.pins.pfwCounted = false ∧ u.mem = s.mem ∧
      (s.pins.pfwLow = false ∨ s.pins.pfwCounted = true → { u with pins := s.pins } = s))

/-- Start-up and the ends of modes (R48, R51, R54, R125, R128, R129, R340, R467, R485, R537, R540): the work of M1, a limit
on it, M2, service, and a checkstop, which from M1 to M7 stops every thread and loses its stores. Without a control-store
image that verifies M1 goes on. -/
def Obligations.StartupAndCheckstop : Prop :=
  ∀ (s : State),
    (s.inMode [.provision] = true → tapHolds s = false →
      (∀ p : Prov,
        let held := (p.csA || p.csB) && p.image.b1
        (∃ v, exec (.provisioningComplete p) s = .next (takeRequest (leaveProvision false v)) ∧ v.md.provisioned = true ∧
          v.mgmt.imgHeld = held ∧ v.dimms.same = p.memMatch ∧ v.mgmt.ceFwHeld = p.ceFw ∧
          (held = true → v.mgmt.imgId = p.image.id ∧ v.mgmt.imgVer = p.image.ver ∧ v.mgmt.imgHash = p.image.hash ∧
            v.mgmt.imgSlotB = !p.csA ∧ v.mgmt.csWords = imageWords p.image.words) ∧
          (p.lanes = [] → p.failed = [] → ∀ n : Fin 48, s.lcs (.pu n) ≠ .fenced → s.spc.failedSet.getLsbD n = false →
            v.spc.goodPu.getLsbD n = true ∧ (v.pu n).injPass = true)) ∧
        (held = false → s.md.requests = [] → ∃ u, exec (.provisioningComplete p) s = .next u ∧
          u.md.mode = some .provision ∧ u.mgmt.imgHeld = false ∧ u.md.provisioned = true)) ∧
      (∀ l o,
        let v := l.foldl (fun (x : State) f => failInM1 1 f x) s
        exec (.m1TimeLimit l o) s = .next (takeRequest (leaveProvision false
          (if v.md.provisioned then v else provision (o.getD (nothingFound v)) v)))) ∧
      (∀ n : Fin 48, s.spc.current = none →
        let v := failInM1 1 (.pu n) s
        v.lcs (.pu n) = .fenced ∧ v.spc.failedSet.getLsbD n = true ∧ v.spc.goodPu.getLsbD n = false ∧
          v.spc.spareSet.getLsbD n = false)) ∧
    (s.inMode [.provision, .restore] = true → exec .dramInitComplete s =
      .next (leaveRestore (leaveProvision false { s with md := { s.md with initDone := true } }))) ∧
    (s.inMode [.service] = true → s.md.leaving = none → s.md.unchecked = 0 → s.md.requests = [] →
      ∃ u, exec .serviceSessionTimeout s = .next u ∧ u.md.dbgPort = false ∧
      u.md.cause = (if s.md.m5From = .quiesced then 0x0B else 0x0A) ∧
      u.md.mode = some (if s.md.m5From = .quiesced then .quiesced else if degradedNow s then .degraded else .run)) ∧
    (∀ (b : Blk) (src : Fin 32) inst info, srcClass (blkKind b) src = some 4 →
      s.inMode [.provision, .restore, .run, .degraded, .service, .quiesced, .holdup] = true →
      ∃ u, exec (.checkstopLineAsserted b src inst info) s = .next u ∧ u.md.mode = some .checkstop ∧ u.md.cause = 0x12 ∧
        u.outs.chkPulse = true ∧ u.chk.valid = true ∧ (s.chk.valid = false → u.chk.source = sourceOf b src) ∧
        ∀ n th, (u.thr n th).running = false ∧ (u.thr n th).sb = [] ∧ (u.thr n th).tx = none ∧ (u.thr n th).resv = none) ∧
    (∀ (b : Blk) (src : Fin 32) inst info, srcClass (blkKind b) src ≠ some 4 →
      exec (.checkstopLineAsserted b src inst info) s = .next s)

/-- The management pair's own work (R477, R478, R482, R485, R487, R488, R491, R503): a K0 cycle clears what it services and
counts its time; an expiry takes the processor down until the standby takes over, which checks the hashes of the images
that management memory holds and discards a copy that differs; a heartbeat goes out on both buses; each second K4 counts
the mode's time; an interval closes into a record, of which two wait and a third merges; a record is written in its
place. -/
def Obligations.ManagementLoops : Prop :=
  ∀ (s : State),
    (∀ us mem, dictUp s = true → ∃ v, exec (.k0Cycle us mem) s = .next (after (kick (maskStorms v))) ∧
      v.mgmt.k0Count = s.mgmt.k0Count + 1 ∧ v.mgmt.k0Ok = (s.mgmt.k0Ok && decide (us ≤ 1000) && !mem) ∧
      v.mgmt.overruns = s.mgmt.overruns + (decide (400 < us)).toNat ∧ v.mgmt.k0Rest = (serviceOrder s).drop 48 ∧
      ∀ b ∈ (serviceOrder s).take 48, b ≠ .zm → (v.flt b).valid = false ∧ (v.flt b).ovf = false ∧ (v.flt b).mask = (s.flt b).mask) ∧
    (∀ b (src : Fin 32), (b, src.val) ∈ s.mgmt.stormMask → ∃ u, exec (.faultStormUnmask b src) s = .next u ∧
      (u.flt b).mask = (s.flt b).mask &&& ~~~(BitVec.twoPow 32 src) ∧ (b, src.val) ∉ u.mgmt.stormMask) ∧
    (s.mgmt.bothDown = false → s.md.mode.isSome = true → ∃ v, exec .watchdogExpiry s = .next (after v) ∧
      v.mgmt.bothDown = true ∧ v.mgmt.active = s.mgmt.active ∧
      (v.island (.mgmt (if s.mgmt.active then 1 else 0))).fltFence = true ∧
      (if s.mgmt.active then v.mgmt.wdog1 else v.mgmt.wdog0).expired = true) ∧
    (∀ csHash ceHash csAgain ceAgain loopOk,
      (s.mgmt.bothDown = false → exec (.standbyTakeover csHash ceHash csAgain ceAgain loopOk) s = .next s) ∧
      (s.mgmt.bothDown = true → islandFenced s (.mgmt (if s.mgmt.active then 0 else 1)) = false → ∃ v,
        exec (.standbyTakeover csHash ceHash csAgain ceAgain loopOk) s = .next (after (discardK3 v)) ∧ v.mgmt.bothDown = false ∧
        v.mgmt.active = !s.mgmt.active ∧ v.mgmt.failovers = Nat.min 0xFFFF (s.mgmt.failovers + 1) ∧
        (s.inMode [.holdup] = false →
          (s.mgmt.imgHeld = true → csHash = s.mgmt.imgHash → v.mgmt.imgHeld = true ∧ v.mgmt.imgId = s.mgmt.imgId) ∧
          (s.mgmt.imgHeld = true → csHash ≠ s.mgmt.imgHash →
            (csAgain = none → v.mgmt.imgHeld = false) ∧
            (∀ b i, csAgain = some (b, i) → i.b1 = true → v.mgmt.imgHeld = true ∧ v.mgmt.imgId = i.id ∧
              v.mgmt.imgHash = i.hash ∧ v.mgmt.imgSlotB = b)) ∧
          (s.mgmt.ceFwHeld = true → ceHash ≠ s.mgmt.ceFwHash → v.mgmt.ceFwHeld = ceAgain.isSome) ∧
          (loopOk = false → v.plant.u = s.plant.pos)))) ∧
    (discardK3 s).mgmt.k3 = [] ∧ (∀ t ∈ (discardK3 s).mgmt.transfers, t.served = true) ∧
    (dictUp s = true → s.entry 0x1010 0 100 ≠ 0 → ∃ u, exec .heartbeat s = .next u ∧ u.mgmt.hbSeq = s.mgmt.hbSeq + 1 ∧
      { u with mgmt := s.mgmt } = s ∧ (s.mgmt.straps ≠ 0 → s.mgmt.joinedA = true → s.mgmt.joinedB = true →
        u.mgmt.canOut.length = s.mgmt.canOut.length + 2)) ∧
    (∀ m, s.md.mode = some m → s.mgmt.bothDown = false → ∃ u, exec .k4Period s = .next u ∧
      u.encke.opSecs = s.encke.opSecs + 1 ∧
      tget 0 u.encke.acc.modes (modeCode m) = tget 0 s.encke.acc.modes (modeCode m) + 1) ∧
    (s.md.mode.isSome = true → s.mgmt.bothDown = false → ∃ u, exec .enckeIntervalClose s = .next u ∧
      (s.encke.waiting.length < 2 → u.encke.waiting.length = s.encke.waiting.length + 1 ∧ s.encke.waiting <+: u.encke.waiting) ∧
      (s.encke.waiting.length = 2 → u.encke.waiting.length = 2 ∧ u.encke.merges = s.encke.merges + 1) ∧
      u.encke.acc.hist = [] ∧ u.encke.acc.len = s.entry 0x5000 0 3600 ∧ u.encke.gapNext = false ∧
      u.encke.retries = [] ∧ u.encke.ecc = [] ∧ u.encke.fec = []) ∧
    (∀ r rest, s.encke.waiting = r :: rest → s.mgmt.bothDown = false → islandUp s .flash = true → ∃ u,
      exec .enckeRecordWrite s = .next u ∧ u.encke.waiting = rest ∧ u.encke.next = s.encke.next + 1 ∧
      tget none u.encke.written (if s.encke.next < 64 then s.encke.next else 64 + (s.encke.next - 64) % 512) =
        some { r with number := s.encke.next })

/-- Dictionary requests (R493 to R495): the checks in their order and their abort codes; a permitted read of an entry of
fixed size answers with its value; a permitted write of a stored entry takes effect before its answer, and is stored
while the flash controller is on. An item of K3 is answered on the transport that it came by (R490, R496, R497). -/
def Obligations.DictionaryRequests : Prop :=
  ∀ (p : Principal) (s : State), dictUp s = true →
    (s.coh.blocked = [] → ∀ (r : DictReq),
      let idx := r.index.toNat
      let ans := fun (c : Nat) => ({ s with resp := .dict (BitVec.ofNat 32 c) [] } : State)
      let v := ofBe r.data
      (0xF000 ≤ idx → exec (.dictRead (some (p, r))) s = .next (ans (if p = .P then 0x06020000 else 0x06010010)) ∧
        exec (.dictWrite (some (p, r))) s = .next (ans (if p = .P then 0x06020000 else 0x06010010))) ∧
      (idx < 0xF000 → indexExists idx = false → exec (.dictRead (some (p, r))) s = .next (ans 0x06020000) ∧
        exec (.dictWrite (some (p, r))) s = .next (ans 0x06020000)) ∧
      (idx < 0xF000 → indexExists idx = true → entryOf (256 * idx + r.sub.toNat) = none →
        exec (.dictRead (some (p, r))) s = .next (ans 0x06090011) ∧ exec (.dictWrite (some (p, r))) s = .next (ans 0x06090011)) ∧
      (idx < 0xF000 → ∀ e, entryOf (256 * idx + r.sub.toNat) = some e →
        (p ∉ e.who → exec (.dictRead (some (p, r))) s = .next (ans 0x06010010) ∧
          exec (.dictWrite (some (p, r))) s = .next (ans 0x06010010)) ∧
        (p ∈ e.who →
          (e.right = .wo → exec (.dictRead (some (p, r))) s = .next (ans 0x06010001)) ∧
          (e.right = .ro ∨ e.right = .const → exec (.dictWrite (some (p, r))) s = .next (ans 0x06010002)) ∧
          (e.right ≠ .ro → e.right ≠ .const →
            (e.ty.size ≠ some r.data.length → exec (.dictWrite (some (p, r))) s = .next (ans 0x06070010)) ∧
            (e.ty.size = some r.data.length → inRange s e v = false →
              exec (.dictWrite (some (p, r))) s = .next (ans 0x06090030))) ∧
          (∀ n, e.ty.size = some n →
            (e.right = .rw → exec (.dictRead (some (p, r))) s =
              .next { s with resp := .dict 0 (toBe n (s.entry idx r.sub.toNat e.dflt)) }) ∧
            (e.right ≠ .wo → ∃ u d, exec (.dictRead (some (p, r))) s = .next u ∧ u.resp = .dict 0 d ∧ d.length = n ∧
              u.mem = s.mem ∧ u.mgmt = s.mgmt)) ∧
          (e.right = .rw → e.ty.size = some r.data.length → inRange s e v = true →
            (e.key ≠ 0x203000 ∧ e.key ≠ 0x200402 ∨ s.inMode [.provision] = false ∧ s.md.requests = []) →
            ∃ u, exec (.dictWrite (some (p, r))) s = .next u ∧ u.resp = .dict 0 [] ∧ u.entry idx r.sub.toNat e.dflt = v ∧
              { u with mgmt := s.mgmt, resp := s.resp } = s ∧
              u.mgmt.stored = if flashOn s then storable u.mgmt.dict else s.mgmt.stored)))) ∧
    (∀ (i : K3Item) (rest : List K3Item) c d t, s.mgmt.k3 = i :: rest → i.src = .window 0 →
      dictRequest i.who i.req (some i) { s with mgmt := { s.mgmt with
        k3 := rest, k3At := s.tb.tod, k3Log := k3Recent s ++ [(s.tb.tod, s.now - s.mgmt.k3At.toNat)] } } = (some c, d, t) →
      t.coh.blocked = [] →
      let answered := fun (u : State) => (u.box 0).done = true ∧ (u.box 0).busy = false ∧
        (u.box 0).abort = BitVec.ofNat 32 c ∧ (u.box 0).rlen = BitVec.ofNat 13 d.length ∧ u.mgmt.k3 = t.mgmt.k3 ∧ u.resp = s.resp
      (i.req.write = false → ∃ u, exec (.dictRead none) s = .next u ∧ answered u) ∧
      (i.req.write = true → ∃ u, exec (.dictWrite none) s = .next u ∧ answered u))

/-- Writes of the dictionary that act (R281, R291, R369, R375, R498): by a principal that the entry does not admit they
are refused; the two bus rates apply, a proving run of a unit that is off and unassigned starts, a held exchange is
abandoned, the in-doubt marks clear. Limited changes (R49, R406, R453 to R455): only in M1, only by F and P, and only
while changes remain; a value already in force costs nothing; a completed change takes effect with its record, and one
whose completion fuse was not blown costs a change and keeps the value. An enrolment keeps the zone's old key as its
previous one and starts a new generation; without entropy, or while the crypto island is down, none takes place (R419). -/
def Obligations.DictionaryActionsAndLimitedChanges : Prop :=
  (∀ (p : Principal) (s : State), dictUp s = true → s.coh.blocked = [] →
    let code := fun (c : Nat) => (.next { s with resp := .dict (BitVec.ofNat 32 c) [] } : Host.Outcome State Fault Refusal)
    (p = .Z → exec (.applyBusRates p 1) s = code 0x06010010 ∧ exec (.clearInDoubt p 1) s = code 0x06010010) ∧
    (p = .P → exec (.provingRunDeimos p 1) s = code 0x06010010) ∧
    (p ≠ .Z → exec (.applyBusRates p 1) s = .next { s with resp := .dict 0 [], mgmt := { s.mgmt with
      arb := s.entry 0x1001 1 0, dataRate := s.entry 0x1001 2 2000 } }) ∧
    (p ≠ .Z → (s.mainOn = false → exec (.clearInDoubt p 1) s = code 0x08000022) ∧
      (s.mainOn = true → (clearDoubt s).coh.blocked = [] →
        exec (.clearInDoubt p 1) s = .next { clearDoubt s with resp := .dict 0 [] })) ∧
    (p ≠ .P → exec (.provingRunDeimos p 1) s = .next { s with
      resp := .dict 0 [], mgmt := { s.mgmt with standbyRun := true } }) ∧
    (∀ z : Fin 16, (abandonHeld z s).coh.blocked = [] →
      exec (.abandonHeldExchanges p (BitVec.ofNat 8 z.val)) s = .next { abandonHeld z s with resp := .dict 0 [] }) ∧
    exec (.abandonHeldExchanges p 16) s = code 0x06090030 ∧
    exec (.provingRunPu p 48) s = code 0x06090030 ∧ exec (.provingRunCe p 36) s = code 0x06090030 ∧
    (s.inMode [.run, .degraded, .service] = false → ∀ (n : Fin 48) (m : Fin 36),
      exec (.provingRunPu p (BitVec.ofNat 8 n.val)) s = code 0x08000022 ∧
      exec (.provingRunCe p (BitVec.ofNat 8 m.val)) s = code 0x08000022) ∧
    (s.inMode [.run, .degraded, .service] = true →
      (∀ n : Fin 48, s.lcs (.pu n) = .off → (∀ z, z < 16 → (s.zone z).pus.getLsbD n = false) → s.spc.current = none →
        s.spc.proving = [] → ∃ u, exec (.provingRunPu p (BitVec.ofNat 8 n.val)) s = .next u ∧ u.lcs (.pu n) = .starting ∧
          u.resp = .dict 0 [] ∧ u.spc.proving = [{ ce := false, n := n, stage := 0 }]) ∧
      (∀ n : Fin 36, s.lcs (.ce n) = .off → (s.ce n).le = 0x3F → s.spc.ceCalls = [] → s.spc.proving = [] → ∃ u,
        exec (.provingRunCe p (BitVec.ofNat 8 n.val)) s = .next u ∧ u.lcs (.ce n) = .starting ∧ u.resp = .dict 0 [] ∧
          u.spc.proving = [{ ce := true, n := n, stage := 0 }]))) ∧
  (∀ (p : Principal) (v : BitVec 8) (root : BitVec 384) (fused : Bool) (s : State), dictUp s = true →
    let code := fun (c : Nat) => (.next { s with resp := .dict (BitVec.ofNat 32 c) [] } : Host.Outcome State Fault Refusal)
    let zcOk := v ∈ ([1, 2, 4, 8, 16] : List (BitVec 8))
    let mcOk := 1 ≤ v.toNat ∧ v.toNat ≤ 64
    (p = .Z → exec (.zoneCountChange p v fused) s = code 0x06010010 ∧ exec (.maxCommitSizeChange p v fused) s = code 0x06010010 ∧
      exec (.signingRootChange p root fused) s = code 0x06010010 ∧ exec (.masterKeyEnrolment p v fused) s = code 0x06010010) ∧
    (p ≠ .Z →
      (¬ zcOk → exec (.zoneCountChange p v fused) s = code 0x06090030) ∧
      (¬ mcOk → exec (.maxCommitSizeChange p v fused) s = code 0x06090030) ∧
      (16 ≤ v.toNat → exec (.masterKeyEnrolment p v fused) s = code 0x06090030) ∧
      (s.inMode [.provision] = false →
        (zcOk → exec (.zoneCountChange p v fused) s = code 0x08000022) ∧
        (mcOk → exec (.maxCommitSizeChange p v fused) s = code 0x08000022) ∧
        (v.toNat < 16 → exec (.masterKeyEnrolment p v fused) s = code 0x08000022) ∧
        exec (.signingRootChange p root fused) s = code 0x08000022) ∧
      (s.inMode [.provision] = true →
        (zcOk → v.toNat = s.lim.zc → exec (.zoneCountChange p v fused) s = code 0) ∧
        (zcOk → v.toNat ≠ s.lim.zc → s.lim.zcLeft = 0 → exec (.zoneCountChange p v fused) s = code 0x08000022) ∧
        (zcOk → v.toNat ≠ s.lim.zc → s.lim.zcLeft ≠ 0 → ∃ u, exec (.zoneCountChange p v fused) s = .next u ∧
          u.lim.zcLeft = s.lim.zcLeft - 1 ∧ u.lim.zc = (if fused then v.toNat else s.lim.zc) ∧
          u.resp = .dict (if fused then 0 else 0x08000000) [] ∧ { u with lim := s.lim, resp := s.resp } = s ∧
          u.lim.zcRec.length = s.lim.zcRec.length + fused.toNat) ∧
        (mcOk → v.toNat = s.lim.maxCommit → exec (.maxCommitSizeChange p v fused) s = code 0) ∧
        (mcOk → v.toNat ≠ s.lim.maxCommit → s.lim.mcLeft ≠ 0 → restoreChain s.commit.log = [] → ∃ u,
          exec (.maxCommitSizeChange p v fused) s = .next u ∧ u.lim.mcLeft = s.lim.mcLeft - 1 ∧
          u.lim.maxCommit = (if fused then v.toNat else s.lim.maxCommit) ∧
          u.resp = .dict (if fused then 0 else 0x08000000) [] ∧ { u with lim := s.lim, resp := s.resp } = s) ∧
        (∀ g size bs, mcOk → v.toNat ≠ s.lim.maxCommit → restoreChain s.commit.log = [(g, true, size, bs)] → v.toNat < size →
          exec (.maxCommitSizeChange p v fused) s = code 0x08000022) ∧
        (root ≠ s.lim.root → s.lim.rootLeft ≠ 0 → ∃ u, exec (.signingRootChange p root fused) s = .next u ∧
          u.lim.rootLeft = s.lim.rootLeft - 1 ∧ u.lim.root = (if fused then root else s.lim.root) ∧
          u.resp = .dict (if fused then 0 else 0x08000000) [] ∧ { u with lim := s.lim, resp := s.resp } = s) ∧
        (v.toNat < 16 → s.lim.enrolLeft ≠ 0 → s.crypto.entropy = false ∨ islandUp s .crypto = false →
          exec (.masterKeyEnrolment p v fused) s = code 0x08000000) ∧
        (v.toNat < 16 → s.lim.enrolLeft ≠ 0 → s.crypto.entropy = true → islandUp s .crypto = true → ∃ u,
          exec (.masterKeyEnrolment p v fused) s = .next u ∧
          u.lim.enrolLeft = s.lim.enrolLeft - 1 ∧ u.resp = .dict (if fused then 0 else 0x08000000) [] ∧
          let old := tget {} s.crypto.keys v.toNat
          let new := tget {} u.crypto.keys v.toNat
          (fused = true → new.cur.isSome = true ∧ new.prev = old.cur ∧ new.gen = old.gen + 1 ∧
            u.crypto.savedKeys = u.crypto.keys) ∧
          (fused = false → new = old)))))

/-- The field network (R29, R490, R498 to R502, Tables 18.8 and 18.9): a frame that is not for the module has no effect;
DISCOVER is answered on its bus; a request opens a transfer for K3, or is refused as busy (R490); segments follow in
number and toggle, and any other ends the transfer; a client's abort and 100 ms without a segment end it too. In boot
recovery only the write of an image is served (R29). Time
references and the TAP (R503, R521, R536, R537): the counter holds over when 1PPS goes, and is disciplined when it
returns or a TIME frame of the configured master arrives without it; a loaded TAP instruction is in force, EXTEST and
CLAMP keep M1 from ending, and IDCODE answers 0x2772024F. -/
def Obligations.FieldNetworkTimeAndTap : Prop :=
  (∀ (f : CanFrame) (s : State),
    let b := f.busB
    let frame := fun (service prio : Nat) (tgl : Bool) (d : List Byte) => ({
      busB := b
      id := BitVec.ofNat 29 (2 ^ 26 * prio + 2 ^ 20 * service + 2 ^ 13 * s.mgmt.straps.toNat + 2 ^ 6 * f.src.toNat + 2 ^ 5 * tgl.toNat)
      data := fit (fdLength d.length) d } : CanOut)
    let same := fun (u : State) =>
      { u with mgmt := s.mgmt, encke := s.encke, md := { u.md with requests := s.md.requests } } = s
    let sends := fun (c : Instr) (o : CanOut) (k : Mgmt → Prop) => ∃ u, exec c s = .next u ∧ same u ∧
      u.mgmt.canOut = s.mgmt.canOut ++ [o] ∧ k u.mgmt
    let none_ := fun (m : Mgmt) => ∀ t ∈ m.transfers, ¬ (t.busB = b ∧ t.client = f.src)
    (heard s f true = false → exec (.discover f) s = .next s ∧ exec (.time f) s = .next s) ∧
    (heardFd s f = false → ∀ c ∈ [(.readReq f : Instr), .writeReq f, .segReq f, .writeSeg f, .abort f], exec c s = .next s) ∧
    (heard s f true = true → sends (.discover f) { frame 2 6 false (toBe 1 s.mgmt.straps.toNat ++ [0x42, 0x31] ++
      toBe 1 ((s.md.mode.map modeCode).getD 0xFF) ++ toBe 1 s.mgmt.active.toNat ++ [0, 0, 0]) with classic := f.classic }
      (fun m => m.transfers = s.mgmt.transfers)) ∧
    (heardFd s f = true → s.md.recovery = false →
      let own := (s.mgmt.k3.filter (fun i => i.src != .can b f.src))
      let r := { xferReq f false (beAt f.data 4 4) [] with write := false }
      let dom := isDomain s (xferReq f true 0 [])
      let short := xferReq f true (if dom then beAt f.data 8 4 else 0) ((f.data.drop (if dom then 12 else 8)).take (beAt f.data 4 4))
      (k3Full (dropXfer b f.src s) = false →
        (∃ u, exec (.readReq f) s = .next u ∧ same u ∧ u.mgmt.canOut = s.mgmt.canOut ∧
          u.mgmt.k3 = own ++ [{ src := .can b f.src, who := .F, req := r, since := s.tb.tod }]) ∧
        (xferFlag f 1 = false → ∃ u, exec (.writeReq f) s = .next u ∧
same u ∧
          u.mgmt.k3 = own ++ [{ src := .can b f.src, who := .F, req := short, since := s.tb.tod }]) ∧
        (xferFlag f 1 = true → ∃ u t, exec (.writeReq f) s = .next u ∧
          openXfer u b f.src = some t ∧ t.data = short.data ∧ t.total = beAt f.data 4 4 ∧ t.next = 1 ∧ t.served = true)) ∧
      (k3Full (dropXfer b f.src s) = true →
        (∃ u, exec (.readReq f) s = .next u ∧ u.mgmt.refusals = s.mgmt.refusals + 1 ∧ u.mgmt.k3 = own ∧
          u.mgmt.canOut = s.mgmt.canOut ++ [frame 5 4 false (xferHead r 0 ++ toBe 4 0x08000021 ++ toBe 4 0)]) ∧
        (∃ u, exec (.writeReq f) s = .next u ∧ u.mgmt.refusals = s.mgmt.refusals + 1 ∧ u.mgmt.k3 = own))) ∧
    (heardFd s f = true → s.md.recovery = false →
      (openXfer s b f.src = none →
        sends (.segReq f) (frame 0x0A 4 false (fit 4 f.data ++ toBe 4 0x05040001)) none_ ∧
        sends (.writeSeg f) (frame 0x0A 4 false (fit 4 f.data ++ toBe 4 0x05040001)) none_) ∧
      (∀ t, openXfer s b f.src = some t → t.served = true →
        (t.req.write = false → beAt f.data 4 4 = t.next → f.tgl = segToggle t.next →
          sends (.segReq f) (frame 9 4 f.tgl (xferHead t.req (decide (t.data.length ≤ 60)).toNat ++ t.data.take 60)) (fun m =>
            (t.data.length ≤ 60 → none_ m) ∧ (60 < t.data.length →
              { t with data := t.data.drop 60, next := t.next + 1 } ∈ m.transfers))) ∧
        (t.req.write = false → (beAt f.data 4 4 ≠ t.next ∨ f.tgl ≠ segToggle t.next) →
          sends (.segReq f) (frame 0x0A 4 false (fit 4 f.data ++ toBe 4 0x05030000)) none_) ∧
        (t.req.write = true → t.next ≠ 0 → f.tgl ≠ segToggle t.next →
          sends (.writeSeg f) (frame 0x0A 4 false (fit 4 f.data ++ toBe 4 0x05030000)) none_) ∧
        (t.req.write = true → t.next ≠ 0 → f.tgl = segToggle t.next →
          let d := t.data ++ ((f.data.drop 4).take 60).take (t.total - t.data.length)
          (xferFlag f 0 = false → sends (.writeSeg f) (frame 0x0C 4 f.tgl (xferHead t.req 0 ++ toBe 4 t.next))
            (fun m => { t with data := d, next := t.next + 1 } ∈ m.transfers)) ∧
          (xferFlag f 0 = true → d.length ≠ t.total →
            sends (.writeSeg f) (frame 7 4 false (xferHead t.req 0 ++ toBe 4 0x06070010)) none_)))) ∧
    (heardFd s f = true → s.md.recovery = true →
      sends (.readReq f) (frame 5 4 false (xferHead (xferReq f false (beAt f.data 4 4) []) 0 ++ toBe 4 0x08000022 ++ toBe 4 0))
        (fun m => m.transfers = s.mgmt.transfers) ∧
      sends (.segReq f) (frame 0x0A 4 false (fit 4 f.data ++ toBe 4 0x08000022)) none_ ∧
      (beAt f.data 0 2 = 0x1F00 → beAt f.data 2 1 = 0 → xferFlag f 1 = true → ∃ u t, exec (.writeReq f) s = .next u ∧ same u ∧
        openXfer u b f.src = some t ∧ t.data = (f.data.drop 12).take (beAt f.data 4 4) ∧ t.total = beAt f.data 4 4 ∧
        t.next = 1 ∧ t.served = true)) ∧
    (heardFd s f = true → ∃ u, exec (.abort f) s = .next u ∧ none_ u.mgmt ∧ same u) ∧
    (∀ t, openXfer s b f.src = some t → t.served = true → t.next ≠ 0 → onBus s b = true →
      sends (.transferTimeout b f.src) (frame 0x0A 4 false (fit 4 (xferHead t.req 0) ++ toBe 4 0x05040000)) none_) ∧
    (s.md.mode.isSome = true → exec (.busOffRecovery b) s = .next { s with
      mgmt := if b then { s.mgmt with joinedB := true } else { s.mgmt with joinedA := true } })) ∧
  (∀ (s : State),
    (s.vaux = true → s.pins.timeRef = true → ∃ u, exec .timeRefLoss s = .next u ∧ u.pins.timeRef = false ∧ u.tb.disc = false ∧
      u.tb.src = 0 ∧ u.tb.holdover = true ∧ u.tb.tod = s.tb.tod ∧ u.mem = s.mem) ∧
    (s.vaux = true → exec .timeRefReturn s = .next { s with
      pins := { s.pins with timeRef := true }, tb := { s.tb with disc := true, src := 1, holdover := false } }) ∧
    (∀ f, heard s f true = true → f.classic = false → f.src.toNat = s.entry 0x1030 0 0 →
      (s.pins.timeRef = false → exec (.time f) s = .next { s with tb := { s.tb with disc := true, src := 2 } }) ∧
      (s.pins.timeRef = true → exec (.time f) s = .next s)) ∧
    (s.vaux = true →
      (∀ c i, (c, i) ∈ [((.tapBypass : Instr), TapIns.bypass), (.tapSamplePreload, .sample), (.tapExtest, .extest),
          (.tapClamp, .clamp)] →
        exec c s = .next (takeRequest (leaveProvision false { s with tap := i })) ∧
        (s.inMode [.provision] = false → s.md.requests = [] → exec c s = .next { s with tap := i })) ∧
      (s.inMode [.provision] = true → s.entry 0x2030 0 0 = 1 → s.md.requests = [] →
        exec .tapExtest s = .next { s with tap := .extest } ∧ exec .tapClamp s = .next { s with tap := .clamp }) ∧
      exec .tapIdcode s = .next { takeRequest (leaveProvision false { s with tap := .idcode }) with resp := .tap 0x2772024F }) ∧
    (s.vaux = false → exec .tapBypass s = .next s ∧ exec .tapExtest s = .next s ∧ exec .tapIdcode s = .next s))

/-- Lock-step comparison and retry (R131, R264 to R271, R286): a good comparison makes the thread's state its checkpoint and
releases its stores; a mismatch rolls both threads back to their checkpoints and is recorded as LS_MISMATCH, and the third
of a window, like a restart that does not occur, fails the position; a parity error of one control store is mended from
the other copy; a checkpoint or latch word that neither copy can read fails it; a restart is counted and noted; a window
that closes starts its count anew. Out of lock-step the leading copy's errors are the zone's. -/
def Obligations.CompareAndRetry : Prop :=
  ∀ (pu : Fin 48) (s : State),
    let p := s.pu pu
    let rolled := fun (v : State) => (v.pu pu).retrying = true ∧ (v.pu pu).mismatch = true ∧
      (v.pu pu).windowCnt = p.windowCnt + 1 ∧ (v.pu pu).windowOpen = true ∧ v.mem = s.mem ∧
      ∀ th, (v.thr pu th).arch = (s.thr pu th).ckpt ∧ (v.thr pu th).gh = (s.thr pu th).ckGh ∧
        (v.thr pu th).ras = (s.thr pu th).ckRas ∧ (v.thr pu th).resv = none ∧ (v.thr pu th).latch = [] ∧
        (v.thr pu th).replay = (s.thr pu th).latch ++ (s.thr pu th).replay ∧
        (v.thr pu th).sb = (s.thr pu th).sb.filter keepReleased
    let bad := fun (b : Bool × Bool) (trail : Bool) => if trail then (b.1, true) else (true, b.2)
    (∀ c, copiesRun s pu = false → exec (.compareRetire pu c) s = .next s) ∧
    (copiesRun s pu = true → p.unchecked = false →
      (p.retrying = true → exec (.compareRetire pu .good) s = .next s ∧
        (∀ l, exec (.compareRetire pu (.lane l)) s = .next s) ∧
        ∀ addr trail both, exec (.compareRetire pu (.csParity addr trail both)) s = .next s) ∧
      (p.retrying = false →
        (∃ v, exec (.compareRetire pu .good) s = .next v ∧ { v with pus := s.pus } = s ∧
          ∀ th, (v.thr pu th).arch = (s.thr pu th).arch ∧ (v.thr pu th).ckpt = (s.thr pu th).arch ∧ (v.thr pu th).latch = [] ∧
            (v.thr pu th).shadow = [] ∧ (v.thr pu th).sb = releaseFrom true [] (s.thr pu th).sb ∧
            (v.thr pu th).noteDue = false) ∧
        (∀ l, (s.thr pu false).tx = none → (s.thr pu true).tx = none → p.windowCnt < 2 → ∃ v,
          exec (.compareRetire pu (.lane l)) s = .next (after v) ∧ rolled v ∧ (v.pu pu).cause = 1 ∧
            (v.pu pu).firstLane = (if p.laneSet then p.firstLane else BitVec.ofNat 8 l.val) ∧
            ((s.flt (.pu pu)).valid = false → (s.flt (.pu pu)).mask.getLsbD 8 = false →
              (v.flt (.pu pu)).valid = true ∧ (v.flt (.pu pu)).cls = 1 ∧ (v.flt (.pu pu)).source = sourceOf (.pu pu) 8 ∧
              (v.flt (.pu pu)).info = BitVec.ofNat 32 l.val)) ∧
        (∀ l, 2 ≤ p.windowCnt → ∃ v, exec (.compareRetire pu (.lane l)) s = .next (after (declareFailed pu 9 l.val true true v)) ∧
          (v.pu pu).mismatch = true ∧ (v.pu pu).windowCnt = p.windowCnt + 1 ∧ { v with pus := s.pus } = s) ∧
        (∀ addr trail, (s.thr pu false).tx = none → (s.thr pu true).tx = none → p.windowCnt < 2 → ∃ v,
          exec (.compareRetire pu (.csParity addr trail false)) s = .next (after v) ∧ rolled v ∧ (v.pu pu).cause = 2 ∧
            (v.pu pu).parCnt = Nat.min 255 (p.parCnt + 1) ∧
            (trail = false → uwAt (v.pu pu).cs addr.toNat = uwAt p.csB addr.toNat ∧ (v.pu pu).csB = p.csB) ∧
            (trail = true → uwAt (v.pu pu).csB addr.toNat = uwAt p.cs addr.toNat ∧ (v.pu pu).cs = p.cs)) ∧
        (∀ addr trail, ∃ v, exec (.compareRetire pu (.csParity addr trail true)) s =
          .next (after (declareFailed pu 11 0 true true v)) ∧ (v.pu pu).cause = 2 ∧ { v with pus := s.pus } = s)) ∧
      (∀ th trail,
        (bad (s.thr pu th).ckBad trail ≠ (true, true) → ∃ v, exec (.compareRetire pu (.checkpoint th trail)) s = .next (after v) ∧
          (v.thr pu th).ckBad = bad (s.thr pu th).ckBad trail ∧ { v with pus := s.pus } = s) ∧
        (bad (s.thr pu th).ckBad trail = (true, true) → ∃ v, exec (.compareRetire pu (.checkpoint th trail)) s =
          .next (after (declareFailed pu 9 0 true true v)) ∧ (v.pu pu).cause = 3 ∧ (v.pu pu).mismatch = true ∧
          { v with pus := s.pus } = s) ∧
        (bad (s.thr pu th).latBad trail ≠ (true, true) → ∃ v, exec (.compareRetire pu (.latch th trail)) s = .next (after v) ∧
          (v.thr pu th).latBad = bad (s.thr pu th).latBad trail ∧ { v with pus := s.pus } = s) ∧
        (bad (s.thr pu th).latBad trail = (true, true) → ∃ v, exec (.compareRetire pu (.latch th trail)) s =
          .next (after (declareFailed pu 9 0 true true v)) ∧ (v.pu pu).cause = 3 ∧ { v with pus := s.pus } = s))) ∧
    (copiesRun s pu = true → p.unchecked = true →
      exec (.compareRetire pu .good) s = .next s ∧
      (∀ l, exec (.compareRetire pu (.lane l)) s = .next (after (raiseZone (.pu pu) 17 0 0 (s.puZone pu) s))) ∧
      (∀ addr, exec (.compareRetire pu (.csParity addr true false)) s = .next s) ∧
      (∀ addr trail both, trail = false ∨ both = true → ∃ v, exec (.compareRetire pu (.csParity addr trail both)) s = .next v ∧
        uwAt (v.pu pu).cs addr.toNat = uwAt s.mgmt.csWords addr.toNat ∧ (v.pu pu).retrying = p.retrying)) ∧
    (p.retrying = true → (∃ u, exec (.retryRestart pu) s = .next u ∧ (u.pu pu).retrying = false ∧
        (u.pu pu).retryCnt = Nat.min 255 (p.retryCnt + 1) ∧ (∀ th, (u.thr pu th).noteDue = true) ∧
        tget 0 u.encke.retries pu = tget 0 s.encke.retries pu + 1 ∧ { u with pus := s.pus, encke := s.encke } = s) ∧
      exec (.retryTimeout pu) s = .next (after (declareFailed pu 9 0 true true s))) ∧
    (p.retrying = false → exec (.retryRestart pu) s = .next s ∧ exec (.retryTimeout pu) s = .next s) ∧
    (∃ u, exec (.retryWindowClose pu) s = .next u ∧ (u.pu pu).windowOpen = false ∧ { u with pus := s.pus } = s ∧
      (p.windowOpen = true → (u.pu pu).windowCnt = 0)) ∧
    (s.puZone pu = none → s.lcs (.pu pu) = .on → ∀ src info r0 r1,
      let u := declareFailed pu src info r0 r1 s
      (u.pu pu).failed = true ∧ u.lcs (.pu pu) = .fenced ∧ u.spc.failedSet.getLsbD pu = true ∧
        u.spc.goodPu.getLsbD pu = false ∧ u.spc.spareSet.getLsbD pu = false ∧ u.mem = s.mem ∧
        ∀ th, (u.thr pu th).running = false)

/-- Call-up of a spare (R274 to R277, R287): the failed position is drained and leaves the directories, the spare is
tested and loaded, and takes over the position's place in its zone, its threads' registers and its pending work; a
step that fails ends the spare; data that the position could not write, and a thread whose results are missing, are lost,
with a fault of the zone; an engine's
watchdog fails the engine. -/
def Obligations.CallUpOfSpares : Prop :=
  ∀ (s : State),
    (s.spc.drains = [] → ∀ a b, exec (.callupDrainDeadline a b) s = .next s) ∧
    (∀ n z rest, s.spc.drains = (n, z) :: rest → (s.pu n).t0.wait = .none → (s.pu n).t1.wait = .none →
      ((s.pu n).t0.sb = [] → (s.pu n).t1.sb = [] → dirtyLines s n = [] → ∃ v,
        exec (.callupDrainDeadline false false) s = .next (after (settled v)) ∧ v.spc.drains = rest ∧ (v.pu n).l2 = [] ∧
          v.mem = s.mem ∧ (v.island (coreIsl n)).offFence = true ∧
          ∀ c, s.spc.current = some c → c.failed = n → ∃ c', v.spc.current = some c' ∧ c'.drained = true ∧
            c'.latch0 = (s.pu n).t0.latch ++ (s.pu n).t0.replay ∧ c'.run0 = c.run0) ∧
      (dirtyLines s n ≠ [] → ∀ zn : Fin 16, z = some zn.val → ∃ v,
        exec (.callupDrainDeadline false false) s = .next (after (settled v)) ∧ (v.pu n).t0.sb = [] ∧ (v.pu n).t1.sb = [] ∧
          (v.pu n).l2 = [] ∧ v.lcs (.zone zn) = .fenced ∧ (v.zone zn).fault = true) ∧
      (∀ m0 m1, m0 = true ∨ m1 = true → ∀ zn : Fin 16, z = some zn.val → ∃ v,
        exec (.callupDrainDeadline m0 m1) s = .next (after (settled v)) ∧ (v.pu n).t0.sb = [] ∧ (v.pu n).t1.sb = [] ∧
          (v.pu n).l2 = [] ∧ v.lcs (.zone zn) = .fenced ∧ (v.zone zn).fault = true)) ∧
    (∀ pu : Fin 48, s.lcs (.pu pu) = .fenced → s.spc.drains = [] → exec (.presenceClear pu) s = .next (settled (losePu pu s))) ∧
    (∀ pu : Fin 48, s.lcs (.pu pu) ≠ .fenced → exec (.presenceClear pu) s = .next s) ∧
    (∀ c, s.spc.current = some c →
      (atStep s 4 = true →
        (∃ u, exec (.callupInjectionTestComplete 0) s = .next u ∧ u.spc.step = 5 ∧ (u.pu s.spc.spare).injPass = true) ∧
        (∀ n, n ≠ 0 → ∃ v, exec (.callupInjectionTestComplete n) s = .next (after (spareFails 3 v)) ∧
          (v.pu s.spc.spare).injPass = false ∧ (v.pu s.spc.spare).injFail = Nat.min 255 n ∧ v.spc = s.spc)) ∧
      (atStep s 5 = true →
        (s.mgmt.imgHeld = true → ∃ u, exec (.controlStoreLoadComplete true) s = .next u ∧ u.spc.step = 6 ∧
          (u.pu s.spc.spare).verified = true ∧ (u.pu s.spc.spare).imageId = s.mgmt.imgId ∧
          (u.pu s.spc.spare).cs = s.mgmt.csWords ∧ (u.pu s.spc.spare).csB = s.mgmt.csWords) ∧
        (∃ v, exec (.controlStoreLoadComplete false) s = .next (after (spareFails 3 v)) ∧ v.spc = s.spc)) ∧
      (atStep s 6 = true →
        (∃ v, exec (.callupStateLoadComplete false) s = .next (after (spareFails 3 v)) ∧ v.spc = s.spc) ∧
        (∀ (n f : Fin 48) (z : Fin 16) a0 a1, s.spc.spare = n.val → c.failed = f.val → c.zone = some z.val → n ≠ f →
          c.arch0 = some a0 → c.arch1 = some a1 → c.txCode0 = none → c.txCode1 = none → ∃ v,
          exec (.callupStateLoadComplete true) s = .next (after (settleSpc 64 v)) ∧ v.spc.current = none ∧ v.spc.step = 0 ∧
            v.lcs (.pu n) = .on ∧ v.spc.spareSet.getLsbD n = false ∧ (v.zone z.val).pus.getLsbD n = true ∧
            (v.zone z.val).pus.getLsbD f = false ∧ (v.thr n false).arch = a0 ∧ (v.thr n true).arch = a1 ∧
            (v.thr n false).running = c.run0 ∧ (v.thr n true).running = c.run1 ∧ v.mem = s.mem))) ∧
    (∀ ok, atStep s 6 = false → exec (.callupStateLoadComplete ok) s = .next s) ∧
    (∀ ce : Fin 36, (s.lcs (.ce ce) = .off ∨ s.lcs (.ce ce) = .fenced → exec (.ceWatchdogExpiry ce) s = .next s) ∧
      (s.lcs (.ce ce) ≠ .off → s.lcs (.ce ce) ≠ .fenced →
        exec (.ceWatchdogExpiry ce) s = .next (after (faultFn (.ce ce) 8 0 0 3 s))))

/-- Proving runs, the debug port and resynchronisation (R53, R54, R247, R253, R270, R272, R281 to R286, R291): a unit of a
run has its injection test and its control-store load; a run that passes leaves the unit off and good, a repaired one as a
spare again; one with failing lanes ends the unit; a unit that has left STARTING gets no result. The standby's result sets
or clears its condition. A debugger takes a PU out of lock-step in M5 and marks both threads, an open transaction aborts
first, and a constrained one holds the halt; lock-step resumes from their state with the trailing store loaded again. -/
def Obligations.ProvingAndDebug : Prop :=
  ∀ (s : State),
    (∀ (n : Fin 48), (atStep s 4 = false → provingAt s 0 = some n.val →
        (∃ u, exec (.callupInjectionTestComplete 0) s = .next u ∧ (u.pu n).injPass = true ∧ u.spc = { s.spc with
          proving := s.spc.proving.map (fun p => if !p.ce && p.n == n.val then { p with stage := 1 } else p) }) ∧
        (∀ k, k ≠ 0 → s.spc.current = none → ∃ v, exec (.callupInjectionTestComplete k) s = .next (after v) ∧
          v.lcs (.pu n) = .fenced ∧ v.spc.failedSet.getLsbD n = true ∧ v.spc.goodPu.getLsbD n = false)) ∧
      (atStep s 5 = false → provingAt s 1 = some n.val →
        (s.mgmt.imgHeld = true → ∃ u, exec (.controlStoreLoadComplete true) s = .next u ∧ (u.pu n).verified = true ∧
          (u.pu n).loaded = true ∧ (u.pu n).cs = s.mgmt.csWords ∧ (u.pu n).csB = s.mgmt.csWords) ∧
        (s.spc.current = none → ∃ v, exec (.controlStoreLoadComplete false) s = .next (after v) ∧
          v.lcs (.pu n) = .fenced ∧ v.spc.failedSet.getLsbD n = true))) ∧
    (∀ (n : Fin 48) pass lanes st, s.spc.proving = [{ ce := false, n := n.val, stage := st }] →
      (s.lcs (.pu n) = .starting → lanes = 0 → ∃ v, exec (.provingRunComplete false n lanes pass) s = .next (after v) ∧
        v.spc.proving = [] ∧ v.lcs (.pu n) = .off ∧ v.spc.goodPu.getLsbD n = pass ∧ (v.pu n).injPass = true ∧
        (pass = true → v.spc.failedSet.getLsbD n = false ∧
          (s.spc.failedSet.getLsbD n = true → v.spc.spareSet.getLsbD n = true))) ∧
      (s.lcs (.pu n) = .starting → lanes ≠ 0 → s.spc.current = none → ∃ v,
        exec (.provingRunComplete false n lanes pass) s = .next (after v) ∧ v.lcs (.pu n) = .fenced ∧
          v.spc.goodPu.getLsbD n = false ∧ v.spc.failedSet.getLsbD n = true ∧ (v.pu n).injFail = Nat.min 255 lanes) ∧
      (s.lcs (.pu n) ≠ .starting → ∃ v, exec (.provingRunComplete false n lanes pass) s = .next (after v) ∧
        v.spc = { s.spc with proving := [] } ∧ v.lc = s.lc)) ∧
    (∀ (c : Bool) (n lanes : Nat) pass, (∀ p ∈ s.spc.proving, ¬ (p.ce = c ∧ p.n = n)) →
      exec (.provingRunComplete c n lanes pass) s = .next s) ∧
    (∀ (n : Fin 36) lanes pass st, s.spc.proving = [{ ce := true, n := n.val, stage := st }] → s.lcs (.ce n) = .starting → ∃ v,
      exec (.provingRunComplete true n lanes pass) s = .next (after v) ∧ v.lcs (.ce n) = .off ∧ v.spc.goodCe.getLsbD n = pass) ∧
    (∀ pass, ∃ v, exec (.standbyProve pass) s = .next (checkDegraded v) ∧ v.mgmt.standbyBad = !pass ∧
      v.mgmt.standbyRun = false ∧ v.md = s.md ∧
      (pass = true → s.mgmt.active = false → islandFenced s (.mgmt 1) = false → v.mgmt.wdog1.expired = false)) ∧
    (∀ pu : Fin 48,
      (s.inMode [.service] = false ∨ s.md.dbgPort = false ∨ s.md.leaving.isSome = true ∨ s.lcs (.pu pu) ≠ .on ∨
        (s.pu pu).retrying = true ∨ (∃ th, holdsEvents (s.thr pu th) = true) → exec (.debugAttach pu) s = .next s) ∧
      (s.inMode [.service] = true → s.md.dbgPort = true → s.md.leaving = none → s.lcs (.pu pu) = .on →
        (s.pu pu).retrying = false → (∀ th, holdsEvents (s.thr pu th) = false) → ∃ u,
        exec (.debugAttach pu) s = .next u ∧ (u.pu pu).unchecked = true ∧ u.md.unchecked.getLsbD pu = true ∧
          (∀ th, (u.thr pu th).tx = none ∧ bit 22 (u.thr pu th).arch.sw = true) ∧
          ((∀ th, (s.thr pu th).tx = none) → ∀ th,
            (u.thr pu th).arch = { (s.thr pu th).arch with sw := putBit 22 true (s.thr pu th).arch.sw })) ∧
      ((s.pu pu).unchecked = false ∨ s.md.leaving = none ∨ (s.pu pu).t0.sb ≠ [] ∨ (s.pu pu).t1.sb ≠ [] →
        ∀ k, exec (.resyncComplete pu k) s = .next s) ∧
      ((s.pu pu).unchecked = true → s.md.leaving.isSome = true → (s.pu pu).t0.sb = [] → (s.pu pu).t1.sb = [] → ∀ k, ∃ v,
        exec (.resyncComplete pu k) s = .next (takeRequest (after (finishService
          (if k = 0 then v else declareFailed pu 14 0 true true v)))) ∧
          (v.pu pu).unchecked = false ∧ v.md.unchecked.getLsbD pu = false ∧ v.mem = s.mem ∧ (v.pu pu).csB = s.mgmt.csWords ∧
          (v.pu pu).injFail = Nat.min 255 k ∧ (v.pu pu).injPass = decide (k = 0) ∧
          ∀ th, (v.thr pu th).arch = (s.thr pu th).arch ∧ (v.thr pu th).ckpt = (s.thr pu th).arch))


/-- The words of an instruction (R61 to R64, Tables 3.3 to 3.5 and 3.12): the encoding of every instruction whose operands
meet the constraints of its row decodes to that instruction, with every operand at every value; the three LOCKW commands
share one word, since a register selects the operation. An odd register pair takes detail 4, a reserved field of format N
detail 5. -/
def Obligations.WordsDecodeToTheirInstruction : Prop :=
  ∀ (i : Instr) (h : Hdr), i.hdr = some h →
    let pairs : Bool := match i with
      | .mulw _ o => !o.d.getLsbD 0
      | .mulwu _ o => !o.d.getLsbD 0
      | .cas2 _ d _ b => !d.getLsbD 0 && !b.getLsbD 0
      | .ldx _ o => !nClash o
      | .ldsx _ o => !nClash o
      | _ => true
    let fields : Bool := match i with
      | .ldx _ o => !nReserved false o
      | .ldsx _ o => !nReserved false o
      | .stx _ o => !nReserved false o
      | .ldfx _ o => !nReserved true o
      | .stfx _ o => !nReserved true o
      | _ => true
    let spelled : Instr := match i with
      | .lockwUnlock h d a b => .lockwLock h d a b
      | .lockwUnlockSet h d a b => .lockwLock h d a b
      | i => i
    encodeIns i ≠ .other ∧
    (fields = true → pairs = true → (encodeIns i).decode h.pu h.th = some (.ok spelled)) ∧
    (fields = true → pairs = false → (encodeIns i).decode h.pu h.th = some (.error 4)) ∧
    (fields = false → (encodeIns i).decode h.pu h.th = some (.error 5))
end

