-- ==== Sys2Proof/Laws/Table.lean ====
section
/-! SUPPORT. Laws of sparse tables and of memory: read after write, and the canonical form of every memory operation. -/

namespace Sys2Proof.Machine

variable {α : Type}

theorem tget_tdrop_self (d : α) (t : Tbl α) (k : Nat) : tget d (tdrop t k) k = d := by
  induction t with
  | nil => rfl
  | cons e t ih =>
    by_cases h : e.1 = k
    · simp [tdrop, h, ih]
    · simp [tdrop, h, tget, ih]

theorem tget_tdrop_of_ne (d : α) (t : Tbl α) {k j : Nat} (h : j ≠ k) : tget d (tdrop t k) j = tget d t j := by
  induction t with
  | nil => rfl
  | cons e t ih =>
    by_cases hk : e.1 = k
    · have : e.1 ≠ j := fun hj => h (hj ▸ hk)
      simp [tdrop, hk, tget, ih]
      intro hkj; exact absurd hkj.symm h
    · simp [tdrop, hk, tget, ih]

theorem tget_tins_self (d : α) (t : Tbl α) (k : Nat) (v : α) (h : ∀ e ∈ t, e.1 ≠ k) : tget d (tins t k v) k = v := by
  induction t with
  | nil => simp [tins, tget]
  | cons e t ih =>
    have he : e.1 ≠ k := h e (by simp)
    by_cases hk : k < e.1
    · simp [tins, hk, tget]
    · simp [tins, hk, tget, he]
      exact ih (fun x hx => h x (by simp [hx]))

theorem tget_tins_of_ne (d : α) (t : Tbl α) {k j : Nat} (v : α) (h : j ≠ k) : tget d (tins t k v) j = tget d t j := by
  induction t with
  | nil => simp [tins, tget]; exact fun hk => absurd hk.symm h
  | cons e t ih =>
    by_cases hk : k < e.1
    · simp [tins, hk, tget]; intro hkj; exact absurd hkj.symm h
    · simp [tins, hk, tget, ih]

theorem not_mem_tdrop (t : Tbl α) (k : Nat) : ∀ e ∈ tdrop t k, e.1 ≠ k := by
  induction t with
  | nil => simp [tdrop]
  | cons a t ih =>
    by_cases h : a.1 = k
    · simpa [tdrop, h] using ih
    · intro e he
      simp [tdrop, h] at he
      rcases he with rfl | he
      · exact h
      · exact ih e he

/-- The value just put in place is what is read. -/
@[simp] theorem tget_tset_self [DecidableEq α] (d : α) (t : Tbl α) (k : Nat) (v : α) : tget d (tset d t k v) k = v := by
  unfold tset
  split
  · rename_i h; rw [tget_tdrop_self, h]
  · exact tget_tins_self d _ k v (not_mem_tdrop t k)

/-- Every other place reads as before. -/
theorem tget_tset_of_ne [DecidableEq α] (d : α) (t : Tbl α) {k j : Nat} (v : α) (h : j ≠ k) :
    tget d (tset d t k v) j = tget d t j := by
  unfold tset
  split
  · exact tget_tdrop_of_ne d t h
  · rw [tget_tins_of_ne d _ v h, tget_tdrop_of_ne d t h]

/-- Both cases of a read after a write. -/
theorem tget_tset [DecidableEq α] (d : α) (t : Tbl α) (k j : Nat) (v : α) :
    tget d (tset d t k v) j = if j = k then v else tget d t j := by
  split
  · rename_i h; rw [h, tget_tset_self]
  · rename_i h; exact tget_tset_of_ne d t v h

@[simp] theorem tget_tupd_self [DecidableEq α] (d : α) (t : Tbl α) (k : Nat) (f : α → α) :
    tget d (tupd d t k f) k = f (tget d t k) := by simp [tupd]

theorem tget_tupd_of_ne [DecidableEq α] (d : α) (t : Tbl α) {k j : Nat} (f : α → α) (h : j ≠ k) :
    tget d (tupd d t k f) j = tget d t j := tget_tset_of_ne d t _ h

theorem twfFrom_mono [DecidableEq α] (d : α) (t : Tbl α) {a b : Nat} (h : a ≤ b) (hb : twfFrom d b t = true) :
    twfFrom d a t = true := by
  cases t with
  | nil => rfl
  | cons e t =>
    simp [twfFrom] at hb ⊢
    exact ⟨⟨Nat.le_trans h hb.1.1, hb.1.2⟩, hb.2⟩

theorem twfFrom_tdrop [DecidableEq α] (d : α) (t : Tbl α) (k lo : Nat) (h : twfFrom d lo t = true) :
    twfFrom d lo (tdrop t k) = true := by
  induction t generalizing lo with
  | nil => rfl
  | cons e t ih =>
    simp [twfFrom] at h
    by_cases hk : e.1 = k
    · rw [tdrop, if_pos hk]
      exact ih lo (twfFrom_mono d t (Nat.le_succ_of_le h.1.1) h.2)
    · rw [tdrop, if_neg hk]
      simp [twfFrom, h.1.1, h.1.2, ih _ h.2]

theorem twfFrom_tins [DecidableEq α] (d : α) (t : Tbl α) (k lo : Nat) (v : α) (hk : lo ≤ k) (hv : v ≠ d)
    (hm : ∀ e ∈ t, e.1 ≠ k) (h : twfFrom d lo t = true) : twfFrom d lo (tins t k v) = true := by
  induction t generalizing lo with
  | nil => simp [tins, twfFrom, hk, hv]
  | cons e t ih =>
    simp [twfFrom] at h
    have he : e.1 ≠ k := hm e (by simp)
    by_cases hlt : k < e.1
    · rw [tins, if_pos hlt]
      simp only [twfFrom, Bool.and_eq_true, decide_eq_true_eq]
      exact ⟨⟨hk, hv⟩, ⟨hlt, h.1.2⟩, h.2⟩
    · rw [tins, if_neg hlt]
      have : e.1 + 1 ≤ k := by omega
      simp [twfFrom, h.1.1, h.1.2, ih _ this (fun x hx => hm x (by simp [hx])) h.2]

/-- Putting a value in place keeps the canonical form. -/
theorem twf_tset [DecidableEq α] (d : α) (t : Tbl α) (k : Nat) (v : α) (h : twf d t = true) : twf d (tset d t k v) = true := by
  unfold twf tset at *
  split
  · exact twfFrom_tdrop d t k 0 h
  · rename_i hv
    exact twfFrom_tins d _ k 0 v (Nat.zero_le _) hv (not_mem_tdrop t k) (twfFrom_tdrop d t k 0 h)

theorem twf_tupd [DecidableEq α] (d : α) (t : Tbl α) (k : Nat) (f : α → α) (h : twf d t = true) :
    twf d (tupd d t k f) = true := twf_tset d t k _ h

theorem twfFrom_filter [DecidableEq α] (d : α) (p : Nat × α → Bool) (t : Tbl α) (lo : Nat) (h : twfFrom d lo t = true) :
    twfFrom d lo (t.filter p) = true := by
  induction t generalizing lo with
  | nil => rfl
  | cons e t ih =>
    simp [twfFrom] at h
    by_cases hp : p e = true
    · rw [List.filter_cons_of_pos hp]
      simp [twfFrom, h.1.1, h.1.2, ih _ h.2]
    · rw [List.filter_cons_of_neg hp]
      exact ih lo (twfFrom_mono d t (Nat.le_succ_of_le h.1.1) h.2)

/-- Leaving entries out keeps the canonical form. -/
theorem twf_filter [DecidableEq α] (d : α) (p : Nat × α → Bool) (t : Tbl α) (h : twf d t = true) :
    twf d (t.filter p) = true := twfFrom_filter d p t 0 h

/- Memory. -/

theorem memPut_wf (m : List Host.Cell) (a : Nat) (l : List Byte) (h : Memory.wf m = true) :
    Memory.wf (memPut m a l) = true := by
  induction l generalizing m a with
  | nil => exact h
  | cons b l ih => exact ih _ _ (twf_tset 0 m a b h)

theorem memPuts_wf (m : List Host.Cell) (l : List (Nat × Byte)) (h : Memory.wf m = true) :
    Memory.wf (memPuts m l) = true := by
  unfold memPuts
  induction l generalizing m with
  | nil => exact h
  | cons e l ih => exact ih _ (twf_tset 0 m e.1 e.2 h)

theorem copyLine_wf (src m : List Host.Cell) (l : Nat) (h : Memory.wf m = true) : Memory.wf (copyLine src m l) = true :=
  memPuts_wf _ _ (twf_filter 0 _ m h)

theorem wr_wf (s : State) (a : Nat) (l : List Byte) (h : Memory.wf s.mem = true) : Memory.wf (s.wr a l).mem = true :=
  memPut_wf _ _ _ h

theorem wrThrough_wf (s : State) (a : Nat) (l : List Byte) (h : Memory.wf s.mem = true) (hd : Memory.wf s.dram = true) :
    Memory.wf (s.wrThrough a l).mem = true ∧ Memory.wf (s.wrThrough a l).dram = true :=
  ⟨memPut_wf _ _ _ h, memPut_wf _ _ _ hd⟩

theorem flushLine_wf (s : State) (l : Nat) (hd : Memory.wf s.dram = true) : Memory.wf (s.flushLine l).dram = true :=
  copyLine_wf _ _ _ hd

theorem dropLine_wf (s : State) (l : Nat) (h : Memory.wf s.mem = true) : Memory.wf (s.dropLine l).mem = true :=
  copyLine_wf _ _ _ h

theorem reset_mem_wf : Memory.wf State.reset.mem = true ∧ Memory.wf State.reset.dram = true := by decide

/-- A byte just stored is what is read; every other byte reads as before. -/
theorem tget_memPut_of_lt (m : List Host.Cell) (a : Nat) (l : List Byte) {b : Nat} (h : b < a) :
    tget 0 (memPut m a l) b = tget 0 m b := by
  induction l generalizing m a with
  | nil => rfl
  | cons x l ih =>
    rw [memPut, ih _ _ (Nat.lt_succ_of_lt h), tget_tset_of_ne 0 m x (Nat.ne_of_lt h)]

theorem tget_memPut_of_ge (m : List Host.Cell) (a : Nat) (l : List Byte) {b : Nat} (h : a + l.length ≤ b) :
    tget 0 (memPut m a l) b = tget 0 m b := by
  induction l generalizing m a with
  | nil => rfl
  | cons x l ih =>
    simp only [List.length_cons] at h
    rw [memPut, ih _ _ (by omega), tget_tset_of_ne 0 m x (by omega)]

theorem tget_memPut_in (m : List Host.Cell) (a : Nat) (l : List Byte) {i : Nat} (h : i < l.length) :
    tget 0 (memPut m a l) (a + i) = l.getD i 0 := by
  induction l generalizing m a i with
  | nil => simp at h
  | cons x l ih =>
    rw [memPut]
    cases i with
    | zero =>
      rw [tget_memPut_of_lt _ _ _ (by omega)]
      simp
    | succ i =>
      have := ih (tset 0 m a x) (a + 1) (i := i) (by simpa using h)
      rw [show a + 1 + i = a + (i + 1) by omega] at this
      rw [this]; simp

end Sys2Proof.Machine
end

