-- ==== Sys2Proof/Laws/State.lean ====
section
/-! SUPPORT. What each update of the state leaves as it was, field by field and accessor by accessor, and what it makes of the
entry that it writes. -/

namespace Sys2Proof.Machine

/- updPu. -/

@[simp] theorem updPu_pending (s n f) : (State.updPu s n f).pending = s.pending := rfl
@[simp] theorem updPu_free (s n f) : (State.updPu s n f).free = s.free := rfl
@[simp] theorem updPu_resp (s n f) : (State.updPu s n f).resp = s.resp := rfl
@[simp] theorem updPu_vaux (s n f) : (State.updPu s n f).vaux = s.vaux := rfl
@[simp] theorem updPu_md (s n f) : (State.updPu s n f).md = s.md := rfl
@[simp] theorem updPu_pins (s n f) : (State.updPu s n f).pins = s.pins := rfl
@[simp] theorem updPu_outs (s n f) : (State.updPu s n f).outs = s.outs := rfl
@[simp] theorem updPu_tb (s n f) : (State.updPu s n f).tb = s.tb := rfl
@[simp] theorem updPu_tap (s n f) : (State.updPu s n f).tap = s.tap := rfl
@[simp] theorem updPu_lc (s n f) : (State.updPu s n f).lc = s.lc := rfl
@[simp] theorem updPu_faults (s n f) : (State.updPu s n f).faults = s.faults := rfl
@[simp] theorem updPu_chk (s n f) : (State.updPu s n f).chk = s.chk := rfl
@[simp] theorem updPu_tabs (s n f) : (State.updPu s n f).tabs = s.tabs := rfl
@[simp] theorem updPu_islands (s n f) : (State.updPu s n f).islands = s.islands := rfl
@[simp] theorem updPu_coh (s n f) : (State.updPu s n f).coh = s.coh := rfl
@[simp] theorem updPu_mem (s n f) : (State.updPu s n f).mem = s.mem := rfl
@[simp] theorem updPu_dram (s n f) : (State.updPu s n f).dram = s.dram := rfl
@[simp] theorem updPu_poison (s n f) : (State.updPu s n f).poison = s.poison := rfl
@[simp] theorem updPu_dimms (s n f) : (State.updPu s n f).dimms = s.dimms := rfl
@[simp] theorem updPu_mcs (s n f) : (State.updPu s n f).mcs = s.mcs := rfl
@[simp] theorem updPu_groups (s n f) : (State.updPu s n f).groups = s.groups := rfl
@[simp] theorem updPu_commit (s n f) : (State.updPu s n f).commit = s.commit := rfl
@[simp] theorem updPu_lim (s n f) : (State.updPu s n f).lim = s.lim := rfl
@[simp] theorem updPu_zones (s n f) : (State.updPu s n f).zones = s.zones := rfl
@[simp] theorem updPu_segAdd (s n f) : (State.updPu s n f).segAdd = s.segAdd := rfl
@[simp] theorem updPu_zrstLost (s n f) : (State.updPu s n f).zrstLost = s.zrstLost := rfl
@[simp] theorem updPu_spc (s n f) : (State.updPu s n f).spc = s.spc := rfl
@[simp] theorem updPu_ces (s n f) : (State.updPu s n f).ces = s.ces := rfl
@[simp] theorem updPu_les (s n f) : (State.updPu s n f).les = s.les := rfl
@[simp] theorem updPu_chan (s n f) : (State.updPu s n f).chan = s.chan := rfl
@[simp] theorem updPu_links (s n f) : (State.updPu s n f).links = s.links := rfl
@[simp] theorem updPu_sent (s n f) : (State.updPu s n f).sent = s.sent := rfl
@[simp] theorem updPu_cslices (s n f) : (State.updPu s n f).cslices = s.cslices := rfl
@[simp] theorem updPu_dslices (s n f) : (State.updPu s n f).dslices = s.dslices := rfl
@[simp] theorem updPu_crypto (s n f) : (State.updPu s n f).crypto = s.crypto := rfl
@[simp] theorem updPu_mgmt (s n f) : (State.updPu s n f).mgmt = s.mgmt := rfl
@[simp] theorem updPu_plant (s n f) : (State.updPu s n f).plant = s.plant := rfl
@[simp] theorem updPu_encke (s n f) : (State.updPu s n f).encke = s.encke := rfl
@[simp] theorem updPu_zone (s n f) (z') : (State.updPu s n f).zone z' = s.zone z' := rfl
@[simp] theorem updPu_lcOf (s n f) (g') : (State.updPu s n f).lcOf g' = s.lcOf g' := rfl
@[simp] theorem updPu_lcs (s n f) (g') : (State.updPu s n f).lcs g' = s.lcs g' := rfl
@[simp] theorem updPu_flt (s n f) (b') : (State.updPu s n f).flt b' = s.flt b' := rfl
@[simp] theorem updPu_tab (s n f) (t') : (State.updPu s n f).tab t' = s.tab t' := rfl
@[simp] theorem updPu_mc (s n f) (m') : (State.updPu s n f).mc m' = s.mc m' := rfl
@[simp] theorem updPu_grp (s n f) (g') : (State.updPu s n f).grp g' = s.grp g' := rfl
@[simp] theorem updPu_ce (s n f) (n') : (State.updPu s n f).ce n' = s.ce n' := rfl
@[simp] theorem updPu_link (s n f) (n') : (State.updPu s n f).link n' = s.link n' := rfl
@[simp] theorem updPu_le (s n f) (n') : (State.updPu s n f).le n' = s.le n' := rfl
@[simp] theorem updPu_island (s n f) (i') : (State.updPu s n f).island i' = s.island i' := rfl
@[simp] theorem updPu_vol (s n f) (i') : (State.updPu s n f).vol i' = s.vol i' := rfl
@[simp] theorem updPu_box (s n f) (z') : (State.updPu s n f).box z' = s.box z' := rfl
@[simp] theorem updPu_inMode (s n f) (l') : (State.updPu s n f).inMode l' = s.inMode l' := rfl
@[simp] theorem updPu_mainOn (s n f) : (State.updPu s n f).mainOn = s.mainOn := rfl
@[simp] theorem updPu_now (s n f) : (State.updPu s n f).now = s.now := rfl
@[simp] theorem updPu_zc (s n f) : (State.updPu s n f).zc = s.zc := rfl
@[simp] theorem updPu_puZone (s n f) (n') : (State.updPu s n f).puZone n' = s.puZone n' := rfl
@[simp] theorem updPu_entry (s n f) (i' j' v') : (State.updPu s n f).entry i' j' v' = s.entry i' j' v' := rfl

/- updThr. -/

@[simp] theorem updThr_pending (s n th f) : (State.updThr s n th f).pending = s.pending := rfl
@[simp] theorem updThr_free (s n th f) : (State.updThr s n th f).free = s.free := rfl
@[simp] theorem updThr_resp (s n th f) : (State.updThr s n th f).resp = s.resp := rfl
@[simp] theorem updThr_vaux (s n th f) : (State.updThr s n th f).vaux = s.vaux := rfl
@[simp] theorem updThr_md (s n th f) : (State.updThr s n th f).md = s.md := rfl
@[simp] theorem updThr_pins (s n th f) : (State.updThr s n th f).pins = s.pins := rfl
@[simp] theorem updThr_outs (s n th f) : (State.updThr s n th f).outs = s.outs := rfl
@[simp] theorem updThr_tb (s n th f) : (State.updThr s n th f).tb = s.tb := rfl
@[simp] theorem updThr_tap (s n th f) : (State.updThr s n th f).tap = s.tap := rfl
@[simp] theorem updThr_lc (s n th f) : (State.updThr s n th f).lc = s.lc := rfl
@[simp] theorem updThr_faults (s n th f) : (State.updThr s n th f).faults = s.faults := rfl
@[simp] theorem updThr_chk (s n th f) : (State.updThr s n th f).chk = s.chk := rfl
@[simp] theorem updThr_tabs (s n th f) : (State.updThr s n th f).tabs = s.tabs := rfl
@[simp] theorem updThr_islands (s n th f) : (State.updThr s n th f).islands = s.islands := rfl
@[simp] theorem updThr_coh (s n th f) : (State.updThr s n th f).coh = s.coh := rfl
@[simp] theorem updThr_mem (s n th f) : (State.updThr s n th f).mem = s.mem := rfl
@[simp] theorem updThr_dram (s n th f) : (State.updThr s n th f).dram = s.dram := rfl
@[simp] theorem updThr_poison (s n th f) : (State.updThr s n th f).poison = s.poison := rfl
@[simp] theorem updThr_dimms (s n th f) : (State.updThr s n th f).dimms = s.dimms := rfl
@[simp] theorem updThr_mcs (s n th f) : (State.updThr s n th f).mcs = s.mcs := rfl
@[simp] theorem updThr_groups (s n th f) : (State.updThr s n th f).groups = s.groups := rfl
@[simp] theorem updThr_commit (s n th f) : (State.updThr s n th f).commit = s.commit := rfl
@[simp] theorem updThr_lim (s n th f) : (State.updThr s n th f).lim = s.lim := rfl
@[simp] theorem updThr_zones (s n th f) : (State.updThr s n th f).zones = s.zones := rfl
@[simp] theorem updThr_segAdd (s n th f) : (State.updThr s n th f).segAdd = s.segAdd := rfl
@[simp] theorem updThr_zrstLost (s n th f) : (State.updThr s n th f).zrstLost = s.zrstLost := rfl
@[simp] theorem updThr_spc (s n th f) : (State.updThr s n th f).spc = s.spc := rfl
@[simp] theorem updThr_ces (s n th f) : (State.updThr s n th f).ces = s.ces := rfl
@[simp] theorem updThr_les (s n th f) : (State.updThr s n th f).les = s.les := rfl
@[simp] theorem updThr_chan (s n th f) : (State.updThr s n th f).chan = s.chan := rfl
@[simp] theorem updThr_links (s n th f) : (State.updThr s n th f).links = s.links := rfl
@[simp] theorem updThr_sent (s n th f) : (State.updThr s n th f).sent = s.sent := rfl
@[simp] theorem updThr_cslices (s n th f) : (State.updThr s n th f).cslices = s.cslices := rfl
@[simp] theorem updThr_dslices (s n th f) : (State.updThr s n th f).dslices = s.dslices := rfl
@[simp] theorem updThr_crypto (s n th f) : (State.updThr s n th f).crypto = s.crypto := rfl
@[simp] theorem updThr_mgmt (s n th f) : (State.updThr s n th f).mgmt = s.mgmt := rfl
@[simp] theorem updThr_plant (s n th f) : (State.updThr s n th f).plant = s.plant := rfl
@[simp] theorem updThr_encke (s n th f) : (State.updThr s n th f).encke = s.encke := rfl
@[simp] theorem updThr_zone (s n th f) (z') : (State.updThr s n th f).zone z' = s.zone z' := rfl
@[simp] theorem updThr_lcOf (s n th f) (g') : (State.updThr s n th f).lcOf g' = s.lcOf g' := rfl
@[simp] theorem updThr_lcs (s n th f) (g') : (State.updThr s n th f).lcs g' = s.lcs g' := rfl
@[simp] theorem updThr_flt (s n th f) (b') : (State.updThr s n th f).flt b' = s.flt b' := rfl
@[simp] theorem updThr_tab (s n th f) (t') : (State.updThr s n th f).tab t' = s.tab t' := rfl
@[simp] theorem updThr_mc (s n th f) (m') : (State.updThr s n th f).mc m' = s.mc m' := rfl
@[simp] theorem updThr_grp (s n th f) (g') : (State.updThr s n th f).grp g' = s.grp g' := rfl
@[simp] theorem updThr_ce (s n th f) (n') : (State.updThr s n th f).ce n' = s.ce n' := rfl
@[simp] theorem updThr_link (s n th f) (n') : (State.updThr s n th f).link n' = s.link n' := rfl
@[simp] theorem updThr_le (s n th f) (n') : (State.updThr s n th f).le n' = s.le n' := rfl
@[simp] theorem updThr_island (s n th f) (i') : (State.updThr s n th f).island i' = s.island i' := rfl
@[simp] theorem updThr_vol (s n th f) (i') : (State.updThr s n th f).vol i' = s.vol i' := rfl
@[simp] theorem updThr_box (s n th f) (z') : (State.updThr s n th f).box z' = s.box z' := rfl
@[simp] theorem updThr_inMode (s n th f) (l') : (State.updThr s n th f).inMode l' = s.inMode l' := rfl
@[simp] theorem updThr_mainOn (s n th f) : (State.updThr s n th f).mainOn = s.mainOn := rfl
@[simp] theorem updThr_now (s n th f) : (State.updThr s n th f).now = s.now := rfl
@[simp] theorem updThr_zc (s n th f) : (State.updThr s n th f).zc = s.zc := rfl
@[simp] theorem updThr_puZone (s n th f) (n') : (State.updThr s n th f).puZone n' = s.puZone n' := rfl
@[simp] theorem updThr_entry (s n th f) (i' j' v') : (State.updThr s n th f).entry i' j' v' = s.entry i' j' v' := rfl

/- setThr. -/

@[simp] theorem setThr_pending (s n th t) : (State.setThr s n th t).pending = s.pending := rfl
@[simp] theorem setThr_free (s n th t) : (State.setThr s n th t).free = s.free := rfl
@[simp] theorem setThr_resp (s n th t) : (State.setThr s n th t).resp = s.resp := rfl
@[simp] theorem setThr_vaux (s n th t) : (State.setThr s n th t).vaux = s.vaux := rfl
@[simp] theorem setThr_md (s n th t) : (State.setThr s n th t).md = s.md := rfl
@[simp] theorem setThr_pins (s n th t) : (State.setThr s n th t).pins = s.pins := rfl
@[simp] theorem setThr_outs (s n th t) : (State.setThr s n th t).outs = s.outs := rfl
@[simp] theorem setThr_tb (s n th t) : (State.setThr s n th t).tb = s.tb := rfl
@[simp] theorem setThr_tap (s n th t) : (State.setThr s n th t).tap = s.tap := rfl
@[simp] theorem setThr_lc (s n th t) : (State.setThr s n th t).lc = s.lc := rfl
@[simp] theorem setThr_faults (s n th t) : (State.setThr s n th t).faults = s.faults := rfl
@[simp] theorem setThr_chk (s n th t) : (State.setThr s n th t).chk = s.chk := rfl
@[simp] theorem setThr_tabs (s n th t) : (State.setThr s n th t).tabs = s.tabs := rfl
@[simp] theorem setThr_islands (s n th t) : (State.setThr s n th t).islands = s.islands := rfl
@[simp] theorem setThr_coh (s n th t) : (State.setThr s n th t).coh = s.coh := rfl
@[simp] theorem setThr_mem (s n th t) : (State.setThr s n th t).mem = s.mem := rfl
@[simp] theorem setThr_dram (s n th t) : (State.setThr s n th t).dram = s.dram := rfl
@[simp] theorem setThr_poison (s n th t) : (State.setThr s n th t).poison = s.poison := rfl
@[simp] theorem setThr_dimms (s n th t) : (State.setThr s n th t).dimms = s.dimms := rfl
@[simp] theorem setThr_mcs (s n th t) : (State.setThr s n th t).mcs = s.mcs := rfl
@[simp] theorem setThr_groups (s n th t) : (State.setThr s n th t).groups = s.groups := rfl
@[simp] theorem setThr_commit (s n th t) : (State.setThr s n th t).commit = s.commit := rfl
@[simp] theorem setThr_lim (s n th t) : (State.setThr s n th t).lim = s.lim := rfl
@[simp] theorem setThr_zones (s n th t) : (State.setThr s n th t).zones = s.zones := rfl
@[simp] theorem setThr_segAdd (s n th t) : (State.setThr s n th t).segAdd = s.segAdd := rfl
@[simp] theorem setThr_zrstLost (s n th t) : (State.setThr s n th t).zrstLost = s.zrstLost := rfl
@[simp] theorem setThr_spc (s n th t) : (State.setThr s n th t).spc = s.spc := rfl
@[simp] theorem setThr_ces (s n th t) : (State.setThr s n th t).ces = s.ces := rfl
@[simp] theorem setThr_les (s n th t) : (State.setThr s n th t).les = s.les := rfl
@[simp] theorem setThr_chan (s n th t) : (State.setThr s n th t).chan = s.chan := rfl
@[simp] theorem setThr_links (s n th t) : (State.setThr s n th t).links = s.links := rfl
@[simp] theorem setThr_sent (s n th t) : (State.setThr s n th t).sent = s.sent := rfl
@[simp] theorem setThr_cslices (s n th t) : (State.setThr s n th t).cslices = s.cslices := rfl
@[simp] theorem setThr_dslices (s n th t) : (State.setThr s n th t).dslices = s.dslices := rfl
@[simp] theorem setThr_crypto (s n th t) : (State.setThr s n th t).crypto = s.crypto := rfl
@[simp] theorem setThr_mgmt (s n th t) : (State.setThr s n th t).mgmt = s.mgmt := rfl
@[simp] theorem setThr_plant (s n th t) : (State.setThr s n th t).plant = s.plant := rfl
@[simp] theorem setThr_encke (s n th t) : (State.setThr s n th t).encke = s.encke := rfl
@[simp] theorem setThr_zone (s n th t) (z') : (State.setThr s n th t).zone z' = s.zone z' := rfl
@[simp] theorem setThr_lcOf (s n th t) (g') : (State.setThr s n th t).lcOf g' = s.lcOf g' := rfl
@[simp] theorem setThr_lcs (s n th t) (g') : (State.setThr s n th t).lcs g' = s.lcs g' := rfl
@[simp] theorem setThr_flt (s n th t) (b') : (State.setThr s n th t).flt b' = s.flt b' := rfl
@[simp] theorem setThr_tab (s n th t) (t') : (State.setThr s n th t).tab t' = s.tab t' := rfl
@[simp] theorem setThr_mc (s n th t) (m') : (State.setThr s n th t).mc m' = s.mc m' := rfl
@[simp] theorem setThr_grp (s n th t) (g') : (State.setThr s n th t).grp g' = s.grp g' := rfl
@[simp] theorem setThr_ce (s n th t) (n') : (State.setThr s n th t).ce n' = s.ce n' := rfl
@[simp] theorem setThr_link (s n th t) (n') : (State.setThr s n th t).link n' = s.link n' := rfl
@[simp] theorem setThr_le (s n th t) (n') : (State.setThr s n th t).le n' = s.le n' := rfl
@[simp] theorem setThr_island (s n th t) (i') : (State.setThr s n th t).island i' = s.island i' := rfl
@[simp] theorem setThr_vol (s n th t) (i') : (State.setThr s n th t).vol i' = s.vol i' := rfl
@[simp] theorem setThr_box (s n th t) (z') : (State.setThr s n th t).box z' = s.box z' := rfl
@[simp] theorem setThr_inMode (s n th t) (l') : (State.setThr s n th t).inMode l' = s.inMode l' := rfl
@[simp] theorem setThr_mainOn (s n th t) : (State.setThr s n th t).mainOn = s.mainOn := rfl
@[simp] theorem setThr_now (s n th t) : (State.setThr s n th t).now = s.now := rfl
@[simp] theorem setThr_zc (s n th t) : (State.setThr s n th t).zc = s.zc := rfl
@[simp] theorem setThr_puZone (s n th t) (n') : (State.setThr s n th t).puZone n' = s.puZone n' := rfl
@[simp] theorem setThr_entry (s n th t) (i' j' v') : (State.setThr s n th t).entry i' j' v' = s.entry i' j' v' := rfl

/- updZone. -/

@[simp] theorem updZone_pending (s z f) : (State.updZone s z f).pending = s.pending := rfl
@[simp] theorem updZone_free (s z f) : (State.updZone s z f).free = s.free := rfl
@[simp] theorem updZone_resp (s z f) : (State.updZone s z f).resp = s.resp := rfl
@[simp] theorem updZone_vaux (s z f) : (State.updZone s z f).vaux = s.vaux := rfl
@[simp] theorem updZone_md (s z f) : (State.updZone s z f).md = s.md := rfl
@[simp] theorem updZone_pins (s z f) : (State.updZone s z f).pins = s.pins := rfl
@[simp] theorem updZone_outs (s z f) : (State.updZone s z f).outs = s.outs := rfl
@[simp] theorem updZone_tb (s z f) : (State.updZone s z f).tb = s.tb := rfl
@[simp] theorem updZone_tap (s z f) : (State.updZone s z f).tap = s.tap := rfl
@[simp] theorem updZone_lc (s z f) : (State.updZone s z f).lc = s.lc := rfl
@[simp] theorem updZone_faults (s z f) : (State.updZone s z f).faults = s.faults := rfl
@[simp] theorem updZone_chk (s z f) : (State.updZone s z f).chk = s.chk := rfl
@[simp] theorem updZone_tabs (s z f) : (State.updZone s z f).tabs = s.tabs := rfl
@[simp] theorem updZone_islands (s z f) : (State.updZone s z f).islands = s.islands := rfl
@[simp] theorem updZone_pus (s z f) : (State.updZone s z f).pus = s.pus := rfl
@[simp] theorem updZone_coh (s z f) : (State.updZone s z f).coh = s.coh := rfl
@[simp] theorem updZone_mem (s z f) : (State.updZone s z f).mem = s.mem := rfl
@[simp] theorem updZone_dram (s z f) : (State.updZone s z f).dram = s.dram := rfl
@[simp] theorem updZone_poison (s z f) : (State.updZone s z f).poison = s.poison := rfl
@[simp] theorem updZone_dimms (s z f) : (State.updZone s z f).dimms = s.dimms := rfl
@[simp] theorem updZone_mcs (s z f) : (State.updZone s z f).mcs = s.mcs := rfl
@[simp] theorem updZone_groups (s z f) : (State.updZone s z f).groups = s.groups := rfl
@[simp] theorem updZone_commit (s z f) : (State.updZone s z f).commit = s.commit := rfl
@[simp] theorem updZone_lim (s z f) : (State.updZone s z f).lim = s.lim := rfl
@[simp] theorem updZone_segAdd (s z f) : (State.updZone s z f).segAdd = s.segAdd := rfl
@[simp] theorem updZone_zrstLost (s z f) : (State.updZone s z f).zrstLost = s.zrstLost := rfl
@[simp] theorem updZone_spc (s z f) : (State.updZone s z f).spc = s.spc := rfl
@[simp] theorem updZone_ces (s z f) : (State.updZone s z f).ces = s.ces := rfl
@[simp] theorem updZone_les (s z f) : (State.updZone s z f).les = s.les := rfl
@[simp] theorem updZone_chan (s z f) : (State.updZone s z f).chan = s.chan := rfl
@[simp] theorem updZone_links (s z f) : (State.updZone s z f).links = s.links := rfl
@[simp] theorem updZone_sent (s z f) : (State.updZone s z f).sent = s.sent := rfl
@[simp] theorem updZone_cslices (s z f) : (State.updZone s z f).cslices = s.cslices := rfl
@[simp] theorem updZone_dslices (s z f) : (State.updZone s z f).dslices = s.dslices := rfl
@[simp] theorem updZone_crypto (s z f) : (State.updZone s z f).crypto = s.crypto := rfl
@[simp] theorem updZone_mgmt (s z f) : (State.updZone s z f).mgmt = s.mgmt := rfl
@[simp] theorem updZone_plant (s z f) : (State.updZone s z f).plant = s.plant := rfl
@[simp] theorem updZone_encke (s z f) : (State.updZone s z f).encke = s.encke := rfl
@[simp] theorem updZone_pu (s z f) (n') : (State.updZone s z f).pu n' = s.pu n' := rfl
@[simp] theorem updZone_thr (s z f) (n' th') : (State.updZone s z f).thr n' th' = s.thr n' th' := rfl
@[simp] theorem updZone_lcOf (s z f) (g') : (State.updZone s z f).lcOf g' = s.lcOf g' := rfl
@[simp] theorem updZone_lcs (s z f) (g') : (State.updZone s z f).lcs g' = s.lcs g' := rfl
@[simp] theorem updZone_flt (s z f) (b') : (State.updZone s z f).flt b' = s.flt b' := rfl
@[simp] theorem updZone_tab (s z f) (t') : (State.updZone s z f).tab t' = s.tab t' := rfl
@[simp] theorem updZone_mc (s z f) (m') : (State.updZone s z f).mc m' = s.mc m' := rfl
@[simp] theorem updZone_grp (s z f) (g') : (State.updZone s z f).grp g' = s.grp g' := rfl
@[simp] theorem updZone_ce (s z f) (n') : (State.updZone s z f).ce n' = s.ce n' := rfl
@[simp] theorem updZone_link (s z f) (n') : (State.updZone s z f).link n' = s.link n' := rfl
@[simp] theorem updZone_le (s z f) (n') : (State.updZone s z f).le n' = s.le n' := rfl
@[simp] theorem updZone_island (s z f) (i') : (State.updZone s z f).island i' = s.island i' := rfl
@[simp] theorem updZone_vol (s z f) (i') : (State.updZone s z f).vol i' = s.vol i' := rfl
@[simp] theorem updZone_box (s z f) (z') : (State.updZone s z f).box z' = s.box z' := rfl
@[simp] theorem updZone_inMode (s z f) (l') : (State.updZone s z f).inMode l' = s.inMode l' := rfl
@[simp] theorem updZone_mainOn (s z f) : (State.updZone s z f).mainOn = s.mainOn := rfl
@[simp] theorem updZone_now (s z f) : (State.updZone s z f).now = s.now := rfl
@[simp] theorem updZone_zc (s z f) : (State.updZone s z f).zc = s.zc := rfl
@[simp] theorem updZone_entry (s z f) (i' j' v') : (State.updZone s z f).entry i' j' v' = s.entry i' j' v' := rfl

/- setLc. -/

@[simp] theorem setLc_pending (s g l) : (State.setLc s g l).pending = s.pending := rfl
@[simp] theorem setLc_free (s g l) : (State.setLc s g l).free = s.free := rfl
@[simp] theorem setLc_resp (s g l) : (State.setLc s g l).resp = s.resp := rfl
@[simp] theorem setLc_vaux (s g l) : (State.setLc s g l).vaux = s.vaux := rfl
@[simp] theorem setLc_md (s g l) : (State.setLc s g l).md = s.md := rfl
@[simp] theorem setLc_pins (s g l) : (State.setLc s g l).pins = s.pins := rfl
@[simp] theorem setLc_outs (s g l) : (State.setLc s g l).outs = s.outs := rfl
@[simp] theorem setLc_tb (s g l) : (State.setLc s g l).tb = s.tb := rfl
@[simp] theorem setLc_tap (s g l) : (State.setLc s g l).tap = s.tap := rfl
@[simp] theorem setLc_faults (s g l) : (State.setLc s g l).faults = s.faults := rfl
@[simp] theorem setLc_chk (s g l) : (State.setLc s g l).chk = s.chk := rfl
@[simp] theorem setLc_tabs (s g l) : (State.setLc s g l).tabs = s.tabs := rfl
@[simp] theorem setLc_islands (s g l) : (State.setLc s g l).islands = s.islands := rfl
@[simp] theorem setLc_pus (s g l) : (State.setLc s g l).pus = s.pus := rfl
@[simp] theorem setLc_coh (s g l) : (State.setLc s g l).coh = s.coh := rfl
@[simp] theorem setLc_mem (s g l) : (State.setLc s g l).mem = s.mem := rfl
@[simp] theorem setLc_dram (s g l) : (State.setLc s g l).dram = s.dram := rfl
@[simp] theorem setLc_poison (s g l) : (State.setLc s g l).poison = s.poison := rfl
@[simp] theorem setLc_dimms (s g l) : (State.setLc s g l).dimms = s.dimms := rfl
@[simp] theorem setLc_mcs (s g l) : (State.setLc s g l).mcs = s.mcs := rfl
@[simp] theorem setLc_groups (s g l) : (State.setLc s g l).groups = s.groups := rfl
@[simp] theorem setLc_commit (s g l) : (State.setLc s g l).commit = s.commit := rfl
@[simp] theorem setLc_lim (s g l) : (State.setLc s g l).lim = s.lim := rfl
@[simp] theorem setLc_zones (s g l) : (State.setLc s g l).zones = s.zones := rfl
@[simp] theorem setLc_segAdd (s g l) : (State.setLc s g l).segAdd = s.segAdd := rfl
@[simp] theorem setLc_zrstLost (s g l) : (State.setLc s g l).zrstLost = s.zrstLost := rfl
@[simp] theorem setLc_spc (s g l) : (State.setLc s g l).spc = s.spc := rfl
@[simp] theorem setLc_ces (s g l) : (State.setLc s g l).ces = s.ces := rfl
@[simp] theorem setLc_les (s g l) : (State.setLc s g l).les = s.les := rfl
@[simp] theorem setLc_chan (s g l) : (State.setLc s g l).chan = s.chan := rfl
@[simp] theorem setLc_links (s g l) : (State.setLc s g l).links = s.links := rfl
@[simp] theorem setLc_sent (s g l) : (State.setLc s g l).sent = s.sent := rfl
@[simp] theorem setLc_cslices (s g l) : (State.setLc s g l).cslices = s.cslices := rfl
@[simp] theorem setLc_dslices (s g l) : (State.setLc s g l).dslices = s.dslices := rfl
@[simp] theorem setLc_crypto (s g l) : (State.setLc s g l).crypto = s.crypto := rfl
@[simp] theorem setLc_mgmt (s g l) : (State.setLc s g l).mgmt = s.mgmt := rfl
@[simp] theorem setLc_plant (s g l) : (State.setLc s g l).plant = s.plant := rfl
@[simp] theorem setLc_encke (s g l) : (State.setLc s g l).encke = s.encke := rfl
@[simp] theorem setLc_pu (s g l) (n') : (State.setLc s g l).pu n' = s.pu n' := rfl
@[simp] theorem setLc_thr (s g l) (n' th') : (State.setLc s g l).thr n' th' = s.thr n' th' := rfl
@[simp] theorem setLc_zone (s g l) (z') : (State.setLc s g l).zone z' = s.zone z' := rfl
@[simp] theorem setLc_flt (s g l) (b') : (State.setLc s g l).flt b' = s.flt b' := rfl
@[simp] theorem setLc_tab (s g l) (t') : (State.setLc s g l).tab t' = s.tab t' := rfl
@[simp] theorem setLc_mc (s g l) (m') : (State.setLc s g l).mc m' = s.mc m' := rfl
@[simp] theorem setLc_grp (s g l) (g') : (State.setLc s g l).grp g' = s.grp g' := rfl
@[simp] theorem setLc_ce (s g l) (n') : (State.setLc s g l).ce n' = s.ce n' := rfl
@[simp] theorem setLc_link (s g l) (n') : (State.setLc s g l).link n' = s.link n' := rfl
@[simp] theorem setLc_le (s g l) (n') : (State.setLc s g l).le n' = s.le n' := rfl
@[simp] theorem setLc_island (s g l) (i') : (State.setLc s g l).island i' = s.island i' := rfl
@[simp] theorem setLc_vol (s g l) (i') : (State.setLc s g l).vol i' = s.vol i' := rfl
@[simp] theorem setLc_box (s g l) (z') : (State.setLc s g l).box z' = s.box z' := rfl
@[simp] theorem setLc_inMode (s g l) (l') : (State.setLc s g l).inMode l' = s.inMode l' := rfl
@[simp] theorem setLc_mainOn (s g l) : (State.setLc s g l).mainOn = s.mainOn := rfl
@[simp] theorem setLc_now (s g l) : (State.setLc s g l).now = s.now := rfl
@[simp] theorem setLc_zc (s g l) : (State.setLc s g l).zc = s.zc := rfl
@[simp] theorem setLc_entry (s g l) (i' j' v') : (State.setLc s g l).entry i' j' v' = s.entry i' j' v' := rfl

/- updFlt. -/

@[simp] theorem updFlt_pending (s b f) : (State.updFlt s b f).pending = s.pending := rfl
@[simp] theorem updFlt_free (s b f) : (State.updFlt s b f).free = s.free := rfl
@[simp] theorem updFlt_resp (s b f) : (State.updFlt s b f).resp = s.resp := rfl
@[simp] theorem updFlt_vaux (s b f) : (State.updFlt s b f).vaux = s.vaux := rfl
@[simp] theorem updFlt_md (s b f) : (State.updFlt s b f).md = s.md := rfl
@[simp] theorem updFlt_pins (s b f) : (State.updFlt s b f).pins = s.pins := rfl
@[simp] theorem updFlt_outs (s b f) : (State.updFlt s b f).outs = s.outs := rfl
@[simp] theorem updFlt_tb (s b f) : (State.updFlt s b f).tb = s.tb := rfl
@[simp] theorem updFlt_tap (s b f) : (State.updFlt s b f).tap = s.tap := rfl
@[simp] theorem updFlt_lc (s b f) : (State.updFlt s b f).lc = s.lc := rfl
@[simp] theorem updFlt_chk (s b f) : (State.updFlt s b f).chk = s.chk := rfl
@[simp] theorem updFlt_tabs (s b f) : (State.updFlt s b f).tabs = s.tabs := rfl
@[simp] theorem updFlt_islands (s b f) : (State.updFlt s b f).islands = s.islands := rfl
@[simp] theorem updFlt_pus (s b f) : (State.updFlt s b f).pus = s.pus := rfl
@[simp] theorem updFlt_coh (s b f) : (State.updFlt s b f).coh = s.coh := rfl
@[simp] theorem updFlt_mem (s b f) : (State.updFlt s b f).mem = s.mem := rfl
@[simp] theorem updFlt_dram (s b f) : (State.updFlt s b f).dram = s.dram := rfl
@[simp] theorem updFlt_poison (s b f) : (State.updFlt s b f).poison = s.poison := rfl
@[simp] theorem updFlt_dimms (s b f) : (State.updFlt s b f).dimms = s.dimms := rfl
@[simp] theorem updFlt_mcs (s b f) : (State.updFlt s b f).mcs = s.mcs := rfl
@[simp] theorem updFlt_groups (s b f) : (State.updFlt s b f).groups = s.groups := rfl
@[simp] theorem updFlt_commit (s b f) : (State.updFlt s b f).commit = s.commit := rfl
@[simp] theorem updFlt_lim (s b f) : (State.updFlt s b f).lim = s.lim := rfl
@[simp] theorem updFlt_zones (s b f) : (State.updFlt s b f).zones = s.zones := rfl
@[simp] theorem updFlt_segAdd (s b f) : (State.updFlt s b f).segAdd = s.segAdd := rfl
@[simp] theorem updFlt_zrstLost (s b f) : (State.updFlt s b f).zrstLost = s.zrstLost := rfl
@[simp] theorem updFlt_spc (s b f) : (State.updFlt s b f).spc = s.spc := rfl
@[simp] theorem updFlt_ces (s b f) : (State.updFlt s b f).ces = s.ces := rfl
@[simp] theorem updFlt_les (s b f) : (State.updFlt s b f).les = s.les := rfl
@[simp] theorem updFlt_chan (s b f) : (State.updFlt s b f).chan = s.chan := rfl
@[simp] theorem updFlt_links (s b f) : (State.updFlt s b f).links = s.links := rfl
@[simp] theorem updFlt_sent (s b f) : (State.updFlt s b f).sent = s.sent := rfl
@[simp] theorem updFlt_cslices (s b f) : (State.updFlt s b f).cslices = s.cslices := rfl
@[simp] theorem updFlt_dslices (s b f) : (State.updFlt s b f).dslices = s.dslices := rfl
@[simp] theorem updFlt_crypto (s b f) : (State.updFlt s b f).crypto = s.crypto := rfl
@[simp] theorem updFlt_mgmt (s b f) : (State.updFlt s b f).mgmt = s.mgmt := rfl
@[simp] theorem updFlt_plant (s b f) : (State.updFlt s b f).plant = s.plant := rfl
@[simp] theorem updFlt_encke (s b f) : (State.updFlt s b f).encke = s.encke := rfl
@[simp] theorem updFlt_pu (s b f) (n') : (State.updFlt s b f).pu n' = s.pu n' := rfl
@[simp] theorem updFlt_thr (s b f) (n' th') : (State.updFlt s b f).thr n' th' = s.thr n' th' := rfl
@[simp] theorem updFlt_zone (s b f) (z') : (State.updFlt s b f).zone z' = s.zone z' := rfl
@[simp] theorem updFlt_lcOf (s b f) (g') : (State.updFlt s b f).lcOf g' = s.lcOf g' := rfl
@[simp] theorem updFlt_lcs (s b f) (g') : (State.updFlt s b f).lcs g' = s.lcs g' := rfl
@[simp] theorem updFlt_tab (s b f) (t') : (State.updFlt s b f).tab t' = s.tab t' := rfl
@[simp] theorem updFlt_mc (s b f) (m') : (State.updFlt s b f).mc m' = s.mc m' := rfl
@[simp] theorem updFlt_grp (s b f) (g') : (State.updFlt s b f).grp g' = s.grp g' := rfl
@[simp] theorem updFlt_ce (s b f) (n') : (State.updFlt s b f).ce n' = s.ce n' := rfl
@[simp] theorem updFlt_link (s b f) (n') : (State.updFlt s b f).link n' = s.link n' := rfl
@[simp] theorem updFlt_le (s b f) (n') : (State.updFlt s b f).le n' = s.le n' := rfl
@[simp] theorem updFlt_island (s b f) (i') : (State.updFlt s b f).island i' = s.island i' := rfl
@[simp] theorem updFlt_vol (s b f) (i') : (State.updFlt s b f).vol i' = s.vol i' := rfl
@[simp] theorem updFlt_box (s b f) (z') : (State.updFlt s b f).box z' = s.box z' := rfl
@[simp] theorem updFlt_inMode (s b f) (l') : (State.updFlt s b f).inMode l' = s.inMode l' := rfl
@[simp] theorem updFlt_mainOn (s b f) : (State.updFlt s b f).mainOn = s.mainOn := rfl
@[simp] theorem updFlt_now (s b f) : (State.updFlt s b f).now = s.now := rfl
@[simp] theorem updFlt_zc (s b f) : (State.updFlt s b f).zc = s.zc := rfl
@[simp] theorem updFlt_puZone (s b f) (n') : (State.updFlt s b f).puZone n' = s.puZone n' := rfl
@[simp] theorem updFlt_entry (s b f) (i' j' v') : (State.updFlt s b f).entry i' j' v' = s.entry i' j' v' := rfl

/- updTab. -/

@[simp] theorem updTab_pending (s t f) : (State.updTab s t f).pending = s.pending := rfl
@[simp] theorem updTab_free (s t f) : (State.updTab s t f).free = s.free := rfl
@[simp] theorem updTab_resp (s t f) : (State.updTab s t f).resp = s.resp := rfl
@[simp] theorem updTab_vaux (s t f) : (State.updTab s t f).vaux = s.vaux := rfl
@[simp] theorem updTab_md (s t f) : (State.updTab s t f).md = s.md := rfl
@[simp] theorem updTab_pins (s t f) : (State.updTab s t f).pins = s.pins := rfl
@[simp] theorem updTab_outs (s t f) : (State.updTab s t f).outs = s.outs := rfl
@[simp] theorem updTab_tb (s t f) : (State.updTab s t f).tb = s.tb := rfl
@[simp] theorem updTab_tap (s t f) : (State.updTab s t f).tap = s.tap := rfl
@[simp] theorem updTab_lc (s t f) : (State.updTab s t f).lc = s.lc := rfl
@[simp] theorem updTab_faults (s t f) : (State.updTab s t f).faults = s.faults := rfl
@[simp] theorem updTab_chk (s t f) : (State.updTab s t f).chk = s.chk := rfl
@[simp] theorem updTab_islands (s t f) : (State.updTab s t f).islands = s.islands := rfl
@[simp] theorem updTab_pus (s t f) : (State.updTab s t f).pus = s.pus := rfl
@[simp] theorem updTab_coh (s t f) : (State.updTab s t f).coh = s.coh := rfl
@[simp] theorem updTab_mem (s t f) : (State.updTab s t f).mem = s.mem := rfl
@[simp] theorem updTab_dram (s t f) : (State.updTab s t f).dram = s.dram := rfl
@[simp] theorem updTab_poison (s t f) : (State.updTab s t f).poison = s.poison := rfl
@[simp] theorem updTab_dimms (s t f) : (State.updTab s t f).dimms = s.dimms := rfl
@[simp] theorem updTab_mcs (s t f) : (State.updTab s t f).mcs = s.mcs := rfl
@[simp] theorem updTab_groups (s t f) : (State.updTab s t f).groups = s.groups := rfl
@[simp] theorem updTab_commit (s t f) : (State.updTab s t f).commit = s.commit := rfl
@[simp] theorem updTab_lim (s t f) : (State.updTab s t f).lim = s.lim := rfl
@[simp] theorem updTab_zones (s t f) : (State.updTab s t f).zones = s.zones := rfl
@[simp] theorem updTab_segAdd (s t f) : (State.updTab s t f).segAdd = s.segAdd := rfl
@[simp] theorem updTab_zrstLost (s t f) : (State.updTab s t f).zrstLost = s.zrstLost := rfl
@[simp] theorem updTab_spc (s t f) : (State.updTab s t f).spc = s.spc := rfl
@[simp] theorem updTab_ces (s t f) : (State.updTab s t f).ces = s.ces := rfl
@[simp] theorem updTab_les (s t f) : (State.updTab s t f).les = s.les := rfl
@[simp] theorem updTab_chan (s t f) : (State.updTab s t f).chan = s.chan := rfl
@[simp] theorem updTab_links (s t f) : (State.updTab s t f).links = s.links := rfl
@[simp] theorem updTab_sent (s t f) : (State.updTab s t f).sent = s.sent := rfl
@[simp] theorem updTab_cslices (s t f) : (State.updTab s t f).cslices = s.cslices := rfl
@[simp] theorem updTab_dslices (s t f) : (State.updTab s t f).dslices = s.dslices := rfl
@[simp] theorem updTab_crypto (s t f) : (State.updTab s t f).crypto = s.crypto := rfl
@[simp] theorem updTab_mgmt (s t f) : (State.updTab s t f).mgmt = s.mgmt := rfl
@[simp] theorem updTab_plant (s t f) : (State.updTab s t f).plant = s.plant := rfl
@[simp] theorem updTab_encke (s t f) : (State.updTab s t f).encke = s.encke := rfl
@[simp] theorem updTab_pu (s t f) (n') : (State.updTab s t f).pu n' = s.pu n' := rfl
@[simp] theorem updTab_thr (s t f) (n' th') : (State.updTab s t f).thr n' th' = s.thr n' th' := rfl
@[simp] theorem updTab_zone (s t f) (z') : (State.updTab s t f).zone z' = s.zone z' := rfl
@[simp] theorem updTab_lcOf (s t f) (g') : (State.updTab s t f).lcOf g' = s.lcOf g' := rfl
@[simp] theorem updTab_lcs (s t f) (g') : (State.updTab s t f).lcs g' = s.lcs g' := rfl
@[simp] theorem updTab_flt (s t f) (b') : (State.updTab s t f).flt b' = s.flt b' := rfl
@[simp] theorem updTab_mc (s t f) (m') : (State.updTab s t f).mc m' = s.mc m' := rfl
@[simp] theorem updTab_grp (s t f) (g') : (State.updTab s t f).grp g' = s.grp g' := rfl
@[simp] theorem updTab_ce (s t f) (n') : (State.updTab s t f).ce n' = s.ce n' := rfl
@[simp] theorem updTab_link (s t f) (n') : (State.updTab s t f).link n' = s.link n' := rfl
@[simp] theorem updTab_le (s t f) (n') : (State.updTab s t f).le n' = s.le n' := rfl
@[simp] theorem updTab_island (s t f) (i') : (State.updTab s t f).island i' = s.island i' := rfl
@[simp] theorem updTab_vol (s t f) (i') : (State.updTab s t f).vol i' = s.vol i' := rfl
@[simp] theorem updTab_box (s t f) (z') : (State.updTab s t f).box z' = s.box z' := rfl
@[simp] theorem updTab_inMode (s t f) (l') : (State.updTab s t f).inMode l' = s.inMode l' := rfl
@[simp] theorem updTab_mainOn (s t f) : (State.updTab s t f).mainOn = s.mainOn := rfl
@[simp] theorem updTab_now (s t f) : (State.updTab s t f).now = s.now := rfl
@[simp] theorem updTab_zc (s t f) : (State.updTab s t f).zc = s.zc := rfl
@[simp] theorem updTab_puZone (s t f) (n') : (State.updTab s t f).puZone n' = s.puZone n' := rfl
@[simp] theorem updTab_entry (s t f) (i' j' v') : (State.updTab s t f).entry i' j' v' = s.entry i' j' v' := rfl

/- updMc. -/

@[simp] theorem updMc_pending (s m f) : (State.updMc s m f).pending = s.pending := rfl
@[simp] theorem updMc_free (s m f) : (State.updMc s m f).free = s.free := rfl
@[simp] theorem updMc_resp (s m f) : (State.updMc s m f).resp = s.resp := rfl
@[simp] theorem updMc_vaux (s m f) : (State.updMc s m f).vaux = s.vaux := rfl
@[simp] theorem updMc_md (s m f) : (State.updMc s m f).md = s.md := rfl
@[simp] theorem updMc_pins (s m f) : (State.updMc s m f).pins = s.pins := rfl
@[simp] theorem updMc_outs (s m f) : (State.updMc s m f).outs = s.outs := rfl
@[simp] theorem updMc_tb (s m f) : (State.updMc s m f).tb = s.tb := rfl
@[simp] theorem updMc_tap (s m f) : (State.updMc s m f).tap = s.tap := rfl
@[simp] theorem updMc_lc (s m f) : (State.updMc s m f).lc = s.lc := rfl
@[simp] theorem updMc_faults (s m f) : (State.updMc s m f).faults = s.faults := rfl
@[simp] theorem updMc_chk (s m f) : (State.updMc s m f).chk = s.chk := rfl
@[simp] theorem updMc_tabs (s m f) : (State.updMc s m f).tabs = s.tabs := rfl
@[simp] theorem updMc_islands (s m f) : (State.updMc s m f).islands = s.islands := rfl
@[simp] theorem updMc_pus (s m f) : (State.updMc s m f).pus = s.pus := rfl
@[simp] theorem updMc_coh (s m f) : (State.updMc s m f).coh = s.coh := rfl
@[simp] theorem updMc_mem (s m f) : (State.updMc s m f).mem = s.mem := rfl
@[simp] theorem updMc_dram (s m f) : (State.updMc s m f).dram = s.dram := rfl
@[simp] theorem updMc_poison (s m f) : (State.updMc s m f).poison = s.poison := rfl
@[simp] theorem updMc_dimms (s m f) : (State.updMc s m f).dimms = s.dimms := rfl
@[simp] theorem updMc_groups (s m f) : (State.updMc s m f).groups = s.groups := rfl
@[simp] theorem updMc_commit (s m f) : (State.updMc s m f).commit = s.commit := rfl
@[simp] theorem updMc_lim (s m f) : (State.updMc s m f).lim = s.lim := rfl
@[simp] theorem updMc_zones (s m f) : (State.updMc s m f).zones = s.zones := rfl
@[simp] theorem updMc_segAdd (s m f) : (State.updMc s m f).segAdd = s.segAdd := rfl
@[simp] theorem updMc_zrstLost (s m f) : (State.updMc s m f).zrstLost = s.zrstLost := rfl
@[simp] theorem updMc_spc (s m f) : (State.updMc s m f).spc = s.spc := rfl
@[simp] theorem updMc_ces (s m f) : (State.updMc s m f).ces = s.ces := rfl
@[simp] theorem updMc_les (s m f) : (State.updMc s m f).les = s.les := rfl
@[simp] theorem updMc_chan (s m f) : (State.updMc s m f).chan = s.chan := rfl
@[simp] theorem updMc_links (s m f) : (State.updMc s m f).links = s.links := rfl
@[simp] theorem updMc_sent (s m f) : (State.updMc s m f).sent = s.sent := rfl
@[simp] theorem updMc_cslices (s m f) : (State.updMc s m f).cslices = s.cslices := rfl
@[simp] theorem updMc_dslices (s m f) : (State.updMc s m f).dslices = s.dslices := rfl
@[simp] theorem updMc_crypto (s m f) : (State.updMc s m f).crypto = s.crypto := rfl
@[simp] theorem updMc_mgmt (s m f) : (State.updMc s m f).mgmt = s.mgmt := rfl
@[simp] theorem updMc_plant (s m f) : (State.updMc s m f).plant = s.plant := rfl
@[simp] theorem updMc_encke (s m f) : (State.updMc s m f).encke = s.encke := rfl
@[simp] theorem updMc_pu (s m f) (n') : (State.updMc s m f).pu n' = s.pu n' := rfl
@[simp] theorem updMc_thr (s m f) (n' th') : (State.updMc s m f).thr n' th' = s.thr n' th' := rfl
@[simp] theorem updMc_zone (s m f) (z') : (State.updMc s m f).zone z' = s.zone z' := rfl
@[simp] theorem updMc_lcOf (s m f) (g') : (State.updMc s m f).lcOf g' = s.lcOf g' := rfl
@[simp] theorem updMc_lcs (s m f) (g') : (State.updMc s m f).lcs g' = s.lcs g' := rfl
@[simp] theorem updMc_flt (s m f) (b') : (State.updMc s m f).flt b' = s.flt b' := rfl
@[simp] theorem updMc_tab (s m f) (t') : (State.updMc s m f).tab t' = s.tab t' := rfl
@[simp] theorem updMc_grp (s m f) (g') : (State.updMc s m f).grp g' = s.grp g' := rfl
@[simp] theorem updMc_ce (s m f) (n') : (State.updMc s m f).ce n' = s.ce n' := rfl
@[simp] theorem updMc_link (s m f) (n') : (State.updMc s m f).link n' = s.link n' := rfl
@[simp] theorem updMc_le (s m f) (n') : (State.updMc s m f).le n' = s.le n' := rfl
@[simp] theorem updMc_island (s m f) (i') : (State.updMc s m f).island i' = s.island i' := rfl
@[simp] theorem updMc_vol (s m f) (i') : (State.updMc s m f).vol i' = s.vol i' := rfl
@[simp] theorem updMc_box (s m f) (z') : (State.updMc s m f).box z' = s.box z' := rfl
@[simp] theorem updMc_inMode (s m f) (l') : (State.updMc s m f).inMode l' = s.inMode l' := rfl
@[simp] theorem updMc_mainOn (s m f) : (State.updMc s m f).mainOn = s.mainOn := rfl
@[simp] theorem updMc_now (s m f) : (State.updMc s m f).now = s.now := rfl
@[simp] theorem updMc_zc (s m f) : (State.updMc s m f).zc = s.zc := rfl
@[simp] theorem updMc_puZone (s m f) (n') : (State.updMc s m f).puZone n' = s.puZone n' := rfl
@[simp] theorem updMc_entry (s m f) (i' j' v') : (State.updMc s m f).entry i' j' v' = s.entry i' j' v' := rfl

/- updGrp. -/

@[simp] theorem updGrp_pending (s g f) : (State.updGrp s g f).pending = s.pending := rfl
@[simp] theorem updGrp_free (s g f) : (State.updGrp s g f).free = s.free := rfl
@[simp] theorem updGrp_resp (s g f) : (State.updGrp s g f).resp = s.resp := rfl
@[simp] theorem updGrp_vaux (s g f) : (State.updGrp s g f).vaux = s.vaux := rfl
@[simp] theorem updGrp_md (s g f) : (State.updGrp s g f).md = s.md := rfl
@[simp] theorem updGrp_pins (s g f) : (State.updGrp s g f).pins = s.pins := rfl
@[simp] theorem updGrp_outs (s g f) : (State.updGrp s g f).outs = s.outs := rfl
@[simp] theorem updGrp_tb (s g f) : (State.updGrp s g f).tb = s.tb := rfl
@[simp] theorem updGrp_tap (s g f) : (State.updGrp s g f).tap = s.tap := rfl
@[simp] theorem updGrp_lc (s g f) : (State.updGrp s g f).lc = s.lc := rfl
@[simp] theorem updGrp_faults (s g f) : (State.updGrp s g f).faults = s.faults := rfl
@[simp] theorem updGrp_chk (s g f) : (State.updGrp s g f).chk = s.chk := rfl
@[simp] theorem updGrp_tabs (s g f) : (State.updGrp s g f).tabs = s.tabs := rfl
@[simp] theorem updGrp_islands (s g f) : (State.updGrp s g f).islands = s.islands := rfl
@[simp] theorem updGrp_pus (s g f) : (State.updGrp s g f).pus = s.pus := rfl
@[simp] theorem updGrp_coh (s g f) : (State.updGrp s g f).coh = s.coh := rfl
@[simp] theorem updGrp_mem (s g f) : (State.updGrp s g f).mem = s.mem := rfl
@[simp] theorem updGrp_dram (s g f) : (State.updGrp s g f).dram = s.dram := rfl
@[simp] theorem updGrp_poison (s g f) : (State.updGrp s g f).poison = s.poison := rfl
@[simp] theorem updGrp_dimms (s g f) : (State.updGrp s g f).dimms = s.dimms := rfl
@[simp] theorem updGrp_mcs (s g f) : (State.updGrp s g f).mcs = s.mcs := rfl
@[simp] theorem updGrp_commit (s g f) : (State.updGrp s g f).commit = s.commit := rfl
@[simp] theorem updGrp_lim (s g f) : (State.updGrp s g f).lim = s.lim := rfl
@[simp] theorem updGrp_zones (s g f) : (State.updGrp s g f).zones = s.zones := rfl
@[simp] theorem updGrp_segAdd (s g f) : (State.updGrp s g f).segAdd = s.segAdd := rfl
@[simp] theorem updGrp_zrstLost (s g f) : (State.updGrp s g f).zrstLost = s.zrstLost := rfl
@[simp] theorem updGrp_spc (s g f) : (State.updGrp s g f).spc = s.spc := rfl
@[simp] theorem updGrp_ces (s g f) : (State.updGrp s g f).ces = s.ces := rfl
@[simp] theorem updGrp_les (s g f) : (State.updGrp s g f).les = s.les := rfl
@[simp] theorem updGrp_chan (s g f) : (State.updGrp s g f).chan = s.chan := rfl
@[simp] theorem updGrp_links (s g f) : (State.updGrp s g f).links = s.links := rfl
@[simp] theorem updGrp_sent (s g f) : (State.updGrp s g f).sent = s.sent := rfl
@[simp] theorem updGrp_cslices (s g f) : (State.updGrp s g f).cslices = s.cslices := rfl
@[simp] theorem updGrp_dslices (s g f) : (State.updGrp s g f).dslices = s.dslices := rfl
@[simp] theorem updGrp_crypto (s g f) : (State.updGrp s g f).crypto = s.crypto := rfl
@[simp] theorem updGrp_mgmt (s g f) : (State.updGrp s g f).mgmt = s.mgmt := rfl
@[simp] theorem updGrp_plant (s g f) : (State.updGrp s g f).plant = s.plant := rfl
@[simp] theorem updGrp_encke (s g f) : (State.updGrp s g f).encke = s.encke := rfl
@[simp] theorem updGrp_pu (s g f) (n') : (State.updGrp s g f).pu n' = s.pu n' := rfl
@[simp] theorem updGrp_thr (s g f) (n' th') : (State.updGrp s g f).thr n' th' = s.thr n' th' := rfl
@[simp] theorem updGrp_zone (s g f) (z') : (State.updGrp s g f).zone z' = s.zone z' := rfl
@[simp] theorem updGrp_lcOf (s g f) (g') : (State.updGrp s g f).lcOf g' = s.lcOf g' := rfl
@[simp] theorem updGrp_lcs (s g f) (g') : (State.updGrp s g f).lcs g' = s.lcs g' := rfl
@[simp] theorem updGrp_flt (s g f) (b') : (State.updGrp s g f).flt b' = s.flt b' := rfl
@[simp] theorem updGrp_tab (s g f) (t') : (State.updGrp s g f).tab t' = s.tab t' := rfl
@[simp] theorem updGrp_mc (s g f) (m') : (State.updGrp s g f).mc m' = s.mc m' := rfl
@[simp] theorem updGrp_ce (s g f) (n') : (State.updGrp s g f).ce n' = s.ce n' := rfl
@[simp] theorem updGrp_link (s g f) (n') : (State.updGrp s g f).link n' = s.link n' := rfl
@[simp] theorem updGrp_le (s g f) (n') : (State.updGrp s g f).le n' = s.le n' := rfl
@[simp] theorem updGrp_island (s g f) (i') : (State.updGrp s g f).island i' = s.island i' := rfl
@[simp] theorem updGrp_vol (s g f) (i') : (State.updGrp s g f).vol i' = s.vol i' := rfl
@[simp] theorem updGrp_box (s g f) (z') : (State.updGrp s g f).box z' = s.box z' := rfl
@[simp] theorem updGrp_inMode (s g f) (l') : (State.updGrp s g f).inMode l' = s.inMode l' := rfl
@[simp] theorem updGrp_mainOn (s g f) : (State.updGrp s g f).mainOn = s.mainOn := rfl
@[simp] theorem updGrp_now (s g f) : (State.updGrp s g f).now = s.now := rfl
@[simp] theorem updGrp_zc (s g f) : (State.updGrp s g f).zc = s.zc := rfl
@[simp] theorem updGrp_puZone (s g f) (n') : (State.updGrp s g f).puZone n' = s.puZone n' := rfl
@[simp] theorem updGrp_entry (s g f) (i' j' v') : (State.updGrp s g f).entry i' j' v' = s.entry i' j' v' := rfl

/- updCe. -/

@[simp] theorem updCe_pending (s n f) : (State.updCe s n f).pending = s.pending := rfl
@[simp] theorem updCe_free (s n f) : (State.updCe s n f).free = s.free := rfl
@[simp] theorem updCe_resp (s n f) : (State.updCe s n f).resp = s.resp := rfl
@[simp] theorem updCe_vaux (s n f) : (State.updCe s n f).vaux = s.vaux := rfl
@[simp] theorem updCe_md (s n f) : (State.updCe s n f).md = s.md := rfl
@[simp] theorem updCe_pins (s n f) : (State.updCe s n f).pins = s.pins := rfl
@[simp] theorem updCe_outs (s n f) : (State.updCe s n f).outs = s.outs := rfl
@[simp] theorem updCe_tb (s n f) : (State.updCe s n f).tb = s.tb := rfl
@[simp] theorem updCe_tap (s n f) : (State.updCe s n f).tap = s.tap := rfl
@[simp] theorem updCe_lc (s n f) : (State.updCe s n f).lc = s.lc := rfl
@[simp] theorem updCe_faults (s n f) : (State.updCe s n f).faults = s.faults := rfl
@[simp] theorem updCe_chk (s n f) : (State.updCe s n f).chk = s.chk := rfl
@[simp] theorem updCe_tabs (s n f) : (State.updCe s n f).tabs = s.tabs := rfl
@[simp] theorem updCe_islands (s n f) : (State.updCe s n f).islands = s.islands := rfl
@[simp] theorem updCe_pus (s n f) : (State.updCe s n f).pus = s.pus := rfl
@[simp] theorem updCe_coh (s n f) : (State.updCe s n f).coh = s.coh := rfl
@[simp] theorem updCe_mem (s n f) : (State.updCe s n f).mem = s.mem := rfl
@[simp] theorem updCe_dram (s n f) : (State.updCe s n f).dram = s.dram := rfl
@[simp] theorem updCe_poison (s n f) : (State.updCe s n f).poison = s.poison := rfl
@[simp] theorem updCe_dimms (s n f) : (State.updCe s n f).dimms = s.dimms := rfl
@[simp] theorem updCe_mcs (s n f) : (State.updCe s n f).mcs = s.mcs := rfl
@[simp] theorem updCe_groups (s n f) : (State.updCe s n f).groups = s.groups := rfl
@[simp] theorem updCe_commit (s n f) : (State.updCe s n f).commit = s.commit := rfl
@[simp] theorem updCe_lim (s n f) : (State.updCe s n f).lim = s.lim := rfl
@[simp] theorem updCe_zones (s n f) : (State.updCe s n f).zones = s.zones := rfl
@[simp] theorem updCe_segAdd (s n f) : (State.updCe s n f).segAdd = s.segAdd := rfl
@[simp] theorem updCe_zrstLost (s n f) : (State.updCe s n f).zrstLost = s.zrstLost := rfl
@[simp] theorem updCe_spc (s n f) : (State.updCe s n f).spc = s.spc := rfl
@[simp] theorem updCe_les (s n f) : (State.updCe s n f).les = s.les := rfl
@[simp] theorem updCe_chan (s n f) : (State.updCe s n f).chan = s.chan := rfl
@[simp] theorem updCe_links (s n f) : (State.updCe s n f).links = s.links := rfl
@[simp] theorem updCe_sent (s n f) : (State.updCe s n f).sent = s.sent := rfl
@[simp] theorem updCe_cslices (s n f) : (State.updCe s n f).cslices = s.cslices := rfl
@[simp] theorem updCe_dslices (s n f) : (State.updCe s n f).dslices = s.dslices := rfl
@[simp] theorem updCe_crypto (s n f) : (State.updCe s n f).crypto = s.crypto := rfl
@[simp] theorem updCe_mgmt (s n f) : (State.updCe s n f).mgmt = s.mgmt := rfl
@[simp] theorem updCe_plant (s n f) : (State.updCe s n f).plant = s.plant := rfl
@[simp] theorem updCe_encke (s n f) : (State.updCe s n f).encke = s.encke := rfl
@[simp] theorem updCe_pu (s n f) (n') : (State.updCe s n f).pu n' = s.pu n' := rfl
@[simp] theorem updCe_thr (s n f) (n' th') : (State.updCe s n f).thr n' th' = s.thr n' th' := rfl
@[simp] theorem updCe_zone (s n f) (z') : (State.updCe s n f).zone z' = s.zone z' := rfl
@[simp] theorem updCe_lcOf (s n f) (g') : (State.updCe s n f).lcOf g' = s.lcOf g' := rfl
@[simp] theorem updCe_lcs (s n f) (g') : (State.updCe s n f).lcs g' = s.lcs g' := rfl
@[simp] theorem updCe_flt (s n f) (b') : (State.updCe s n f).flt b' = s.flt b' := rfl
@[simp] theorem updCe_tab (s n f) (t') : (State.updCe s n f).tab t' = s.tab t' := rfl
@[simp] theorem updCe_mc (s n f) (m') : (State.updCe s n f).mc m' = s.mc m' := rfl
@[simp] theorem updCe_grp (s n f) (g') : (State.updCe s n f).grp g' = s.grp g' := rfl
@[simp] theorem updCe_link (s n f) (n') : (State.updCe s n f).link n' = s.link n' := rfl
@[simp] theorem updCe_le (s n f) (n') : (State.updCe s n f).le n' = s.le n' := rfl
@[simp] theorem updCe_island (s n f) (i') : (State.updCe s n f).island i' = s.island i' := rfl
@[simp] theorem updCe_vol (s n f) (i') : (State.updCe s n f).vol i' = s.vol i' := rfl
@[simp] theorem updCe_box (s n f) (z') : (State.updCe s n f).box z' = s.box z' := rfl
@[simp] theorem updCe_inMode (s n f) (l') : (State.updCe s n f).inMode l' = s.inMode l' := rfl
@[simp] theorem updCe_mainOn (s n f) : (State.updCe s n f).mainOn = s.mainOn := rfl
@[simp] theorem updCe_now (s n f) : (State.updCe s n f).now = s.now := rfl
@[simp] theorem updCe_zc (s n f) : (State.updCe s n f).zc = s.zc := rfl
@[simp] theorem updCe_puZone (s n f) (n') : (State.updCe s n f).puZone n' = s.puZone n' := rfl
@[simp] theorem updCe_entry (s n f) (i' j' v') : (State.updCe s n f).entry i' j' v' = s.entry i' j' v' := rfl

/- updLink. -/

@[simp] theorem updLink_pending (s n f) : (State.updLink s n f).pending = s.pending := rfl
@[simp] theorem updLink_free (s n f) : (State.updLink s n f).free = s.free := rfl
@[simp] theorem updLink_resp (s n f) : (State.updLink s n f).resp = s.resp := rfl
@[simp] theorem updLink_vaux (s n f) : (State.updLink s n f).vaux = s.vaux := rfl
@[simp] theorem updLink_md (s n f) : (State.updLink s n f).md = s.md := rfl
@[simp] theorem updLink_pins (s n f) : (State.updLink s n f).pins = s.pins := rfl
@[simp] theorem updLink_outs (s n f) : (State.updLink s n f).outs = s.outs := rfl
@[simp] theorem updLink_tb (s n f) : (State.updLink s n f).tb = s.tb := rfl
@[simp] theorem updLink_tap (s n f) : (State.updLink s n f).tap = s.tap := rfl
@[simp] theorem updLink_lc (s n f) : (State.updLink s n f).lc = s.lc := rfl
@[simp] theorem updLink_faults (s n f) : (State.updLink s n f).faults = s.faults := rfl
@[simp] theorem updLink_chk (s n f) : (State.updLink s n f).chk = s.chk := rfl
@[simp] theorem updLink_tabs (s n f) : (State.updLink s n f).tabs = s.tabs := rfl
@[simp] theorem updLink_islands (s n f) : (State.updLink s n f).islands = s.islands := rfl
@[simp] theorem updLink_pus (s n f) : (State.updLink s n f).pus = s.pus := rfl
@[simp] theorem updLink_coh (s n f) : (State.updLink s n f).coh = s.coh := rfl
@[simp] theorem updLink_mem (s n f) : (State.updLink s n f).mem = s.mem := rfl
@[simp] theorem updLink_dram (s n f) : (State.updLink s n f).dram = s.dram := rfl
@[simp] theorem updLink_poison (s n f) : (State.updLink s n f).poison = s.poison := rfl
@[simp] theorem updLink_dimms (s n f) : (State.updLink s n f).dimms = s.dimms := rfl
@[simp] theorem updLink_mcs (s n f) : (State.updLink s n f).mcs = s.mcs := rfl
@[simp] theorem updLink_groups (s n f) : (State.updLink s n f).groups = s.groups := rfl
@[simp] theorem updLink_commit (s n f) : (State.updLink s n f).commit = s.commit := rfl
@[simp] theorem updLink_lim (s n f) : (State.updLink s n f).lim = s.lim := rfl
@[simp] theorem updLink_zones (s n f) : (State.updLink s n f).zones = s.zones := rfl
@[simp] theorem updLink_segAdd (s n f) : (State.updLink s n f).segAdd = s.segAdd := rfl
@[simp] theorem updLink_zrstLost (s n f) : (State.updLink s n f).zrstLost = s.zrstLost := rfl
@[simp] theorem updLink_spc (s n f) : (State.updLink s n f).spc = s.spc := rfl
@[simp] theorem updLink_ces (s n f) : (State.updLink s n f).ces = s.ces := rfl
@[simp] theorem updLink_les (s n f) : (State.updLink s n f).les = s.les := rfl
@[simp] theorem updLink_chan (s n f) : (State.updLink s n f).chan = s.chan := rfl
@[simp] theorem updLink_sent (s n f) : (State.updLink s n f).sent = s.sent := rfl
@[simp] theorem updLink_cslices (s n f) : (State.updLink s n f).cslices = s.cslices := rfl
@[simp] theorem updLink_dslices (s n f) : (State.updLink s n f).dslices = s.dslices := rfl
@[simp] theorem updLink_crypto (s n f) : (State.updLink s n f).crypto = s.crypto := rfl
@[simp] theorem updLink_mgmt (s n f) : (State.updLink s n f).mgmt = s.mgmt := rfl
@[simp] theorem updLink_plant (s n f) : (State.updLink s n f).plant = s.plant := rfl
@[simp] theorem updLink_encke (s n f) : (State.updLink s n f).encke = s.encke := rfl
@[simp] theorem updLink_pu (s n f) (n') : (State.updLink s n f).pu n' = s.pu n' := rfl
@[simp] theorem updLink_thr (s n f) (n' th') : (State.updLink s n f).thr n' th' = s.thr n' th' := rfl
@[simp] theorem updLink_zone (s n f) (z') : (State.updLink s n f).zone z' = s.zone z' := rfl
@[simp] theorem updLink_lcOf (s n f) (g') : (State.updLink s n f).lcOf g' = s.lcOf g' := rfl
@[simp] theorem updLink_lcs (s n f) (g') : (State.updLink s n f).lcs g' = s.lcs g' := rfl
@[simp] theorem updLink_flt (s n f) (b') : (State.updLink s n f).flt b' = s.flt b' := rfl
@[simp] theorem updLink_tab (s n f) (t') : (State.updLink s n f).tab t' = s.tab t' := rfl
@[simp] theorem updLink_mc (s n f) (m') : (State.updLink s n f).mc m' = s.mc m' := rfl
@[simp] theorem updLink_grp (s n f) (g') : (State.updLink s n f).grp g' = s.grp g' := rfl
@[simp] theorem updLink_ce (s n f) (n') : (State.updLink s n f).ce n' = s.ce n' := rfl
@[simp] theorem updLink_le (s n f) (n') : (State.updLink s n f).le n' = s.le n' := rfl
@[simp] theorem updLink_island (s n f) (i') : (State.updLink s n f).island i' = s.island i' := rfl
@[simp] theorem updLink_vol (s n f) (i') : (State.updLink s n f).vol i' = s.vol i' := rfl
@[simp] theorem updLink_box (s n f) (z') : (State.updLink s n f).box z' = s.box z' := rfl
@[simp] theorem updLink_inMode (s n f) (l') : (State.updLink s n f).inMode l' = s.inMode l' := rfl
@[simp] theorem updLink_mainOn (s n f) : (State.updLink s n f).mainOn = s.mainOn := rfl
@[simp] theorem updLink_now (s n f) : (State.updLink s n f).now = s.now := rfl
@[simp] theorem updLink_zc (s n f) : (State.updLink s n f).zc = s.zc := rfl
@[simp] theorem updLink_puZone (s n f) (n') : (State.updLink s n f).puZone n' = s.puZone n' := rfl
@[simp] theorem updLink_entry (s n f) (i' j' v') : (State.updLink s n f).entry i' j' v' = s.entry i' j' v' := rfl

/- updLe. -/

@[simp] theorem updLe_pending (s n f) : (State.updLe s n f).pending = s.pending := rfl
@[simp] theorem updLe_free (s n f) : (State.updLe s n f).free = s.free := rfl
@[simp] theorem updLe_resp (s n f) : (State.updLe s n f).resp = s.resp := rfl
@[simp] theorem updLe_vaux (s n f) : (State.updLe s n f).vaux = s.vaux := rfl
@[simp] theorem updLe_md (s n f) : (State.updLe s n f).md = s.md := rfl
@[simp] theorem updLe_pins (s n f) : (State.updLe s n f).pins = s.pins := rfl
@[simp] theorem updLe_outs (s n f) : (State.updLe s n f).outs = s.outs := rfl
@[simp] theorem updLe_tb (s n f) : (State.updLe s n f).tb = s.tb := rfl
@[simp] theorem updLe_tap (s n f) : (State.updLe s n f).tap = s.tap := rfl
@[simp] theorem updLe_lc (s n f) : (State.updLe s n f).lc = s.lc := rfl
@[simp] theorem updLe_faults (s n f) : (State.updLe s n f).faults = s.faults := rfl
@[simp] theorem updLe_chk (s n f) : (State.updLe s n f).chk = s.chk := rfl
@[simp] theorem updLe_tabs (s n f) : (State.updLe s n f).tabs = s.tabs := rfl
@[simp] theorem updLe_islands (s n f) : (State.updLe s n f).islands = s.islands := rfl
@[simp] theorem updLe_pus (s n f) : (State.updLe s n f).pus = s.pus := rfl
@[simp] theorem updLe_coh (s n f) : (State.updLe s n f).coh = s.coh := rfl
@[simp] theorem updLe_mem (s n f) : (State.updLe s n f).mem = s.mem := rfl
@[simp] theorem updLe_dram (s n f) : (State.updLe s n f).dram = s.dram := rfl
@[simp] theorem updLe_poison (s n f) : (State.updLe s n f).poison = s.poison := rfl
@[simp] theorem updLe_dimms (s n f) : (State.updLe s n f).dimms = s.dimms := rfl
@[simp] theorem updLe_mcs (s n f) : (State.updLe s n f).mcs = s.mcs := rfl
@[simp] theorem updLe_groups (s n f) : (State.updLe s n f).groups = s.groups := rfl
@[simp] theorem updLe_commit (s n f) : (State.updLe s n f).commit = s.commit := rfl
@[simp] theorem updLe_lim (s n f) : (State.updLe s n f).lim = s.lim := rfl
@[simp] theorem updLe_zones (s n f) : (State.updLe s n f).zones = s.zones := rfl
@[simp] theorem updLe_segAdd (s n f) : (State.updLe s n f).segAdd = s.segAdd := rfl
@[simp] theorem updLe_zrstLost (s n f) : (State.updLe s n f).zrstLost = s.zrstLost := rfl
@[simp] theorem updLe_spc (s n f) : (State.updLe s n f).spc = s.spc := rfl
@[simp] theorem updLe_ces (s n f) : (State.updLe s n f).ces = s.ces := rfl
@[simp] theorem updLe_chan (s n f) : (State.updLe s n f).chan = s.chan := rfl
@[simp] theorem updLe_links (s n f) : (State.updLe s n f).links = s.links := rfl
@[simp] theorem updLe_sent (s n f) : (State.updLe s n f).sent = s.sent := rfl
@[simp] theorem updLe_cslices (s n f) : (State.updLe s n f).cslices = s.cslices := rfl
@[simp] theorem updLe_dslices (s n f) : (State.updLe s n f).dslices = s.dslices := rfl
@[simp] theorem updLe_crypto (s n f) : (State.updLe s n f).crypto = s.crypto := rfl
@[simp] theorem updLe_mgmt (s n f) : (State.updLe s n f).mgmt = s.mgmt := rfl
@[simp] theorem updLe_plant (s n f) : (State.updLe s n f).plant = s.plant := rfl
@[simp] theorem updLe_encke (s n f) : (State.updLe s n f).encke = s.encke := rfl
@[simp] theorem updLe_pu (s n f) (n') : (State.updLe s n f).pu n' = s.pu n' := rfl
@[simp] theorem updLe_thr (s n f) (n' th') : (State.updLe s n f).thr n' th' = s.thr n' th' := rfl
@[simp] theorem updLe_zone (s n f) (z') : (State.updLe s n f).zone z' = s.zone z' := rfl
@[simp] theorem updLe_lcOf (s n f) (g') : (State.updLe s n f).lcOf g' = s.lcOf g' := rfl
@[simp] theorem updLe_lcs (s n f) (g') : (State.updLe s n f).lcs g' = s.lcs g' := rfl
@[simp] theorem updLe_flt (s n f) (b') : (State.updLe s n f).flt b' = s.flt b' := rfl
@[simp] theorem updLe_tab (s n f) (t') : (State.updLe s n f).tab t' = s.tab t' := rfl
@[simp] theorem updLe_mc (s n f) (m') : (State.updLe s n f).mc m' = s.mc m' := rfl
@[simp] theorem updLe_grp (s n f) (g') : (State.updLe s n f).grp g' = s.grp g' := rfl
@[simp] theorem updLe_ce (s n f) (n') : (State.updLe s n f).ce n' = s.ce n' := rfl
@[simp] theorem updLe_link (s n f) (n') : (State.updLe s n f).link n' = s.link n' := rfl
@[simp] theorem updLe_island (s n f) (i') : (State.updLe s n f).island i' = s.island i' := rfl
@[simp] theorem updLe_vol (s n f) (i') : (State.updLe s n f).vol i' = s.vol i' := rfl
@[simp] theorem updLe_box (s n f) (z') : (State.updLe s n f).box z' = s.box z' := rfl
@[simp] theorem updLe_inMode (s n f) (l') : (State.updLe s n f).inMode l' = s.inMode l' := rfl
@[simp] theorem updLe_mainOn (s n f) : (State.updLe s n f).mainOn = s.mainOn := rfl
@[simp] theorem updLe_now (s n f) : (State.updLe s n f).now = s.now := rfl
@[simp] theorem updLe_zc (s n f) : (State.updLe s n f).zc = s.zc := rfl
@[simp] theorem updLe_puZone (s n f) (n') : (State.updLe s n f).puZone n' = s.puZone n' := rfl
@[simp] theorem updLe_entry (s n f) (i' j' v') : (State.updLe s n f).entry i' j' v' = s.entry i' j' v' := rfl

/- updIsland. -/

@[simp] theorem updIsland_pending (s i f) : (State.updIsland s i f).pending = s.pending := rfl
@[simp] theorem updIsland_free (s i f) : (State.updIsland s i f).free = s.free := rfl
@[simp] theorem updIsland_resp (s i f) : (State.updIsland s i f).resp = s.resp := rfl
@[simp] theorem updIsland_vaux (s i f) : (State.updIsland s i f).vaux = s.vaux := rfl
@[simp] theorem updIsland_md (s i f) : (State.updIsland s i f).md = s.md := rfl
@[simp] theorem updIsland_pins (s i f) : (State.updIsland s i f).pins = s.pins := rfl
@[simp] theorem updIsland_outs (s i f) : (State.updIsland s i f).outs = s.outs := rfl
@[simp] theorem updIsland_tb (s i f) : (State.updIsland s i f).tb = s.tb := rfl
@[simp] theorem updIsland_tap (s i f) : (State.updIsland s i f).tap = s.tap := rfl
@[simp] theorem updIsland_lc (s i f) : (State.updIsland s i f).lc = s.lc := rfl
@[simp] theorem updIsland_faults (s i f) : (State.updIsland s i f).faults = s.faults := rfl
@[simp] theorem updIsland_chk (s i f) : (State.updIsland s i f).chk = s.chk := rfl
@[simp] theorem updIsland_tabs (s i f) : (State.updIsland s i f).tabs = s.tabs := rfl
@[simp] theorem updIsland_pus (s i f) : (State.updIsland s i f).pus = s.pus := rfl
@[simp] theorem updIsland_coh (s i f) : (State.updIsland s i f).coh = s.coh := rfl
@[simp] theorem updIsland_mem (s i f) : (State.updIsland s i f).mem = s.mem := rfl
@[simp] theorem updIsland_dram (s i f) : (State.updIsland s i f).dram = s.dram := rfl
@[simp] theorem updIsland_poison (s i f) : (State.updIsland s i f).poison = s.poison := rfl
@[simp] theorem updIsland_dimms (s i f) : (State.updIsland s i f).dimms = s.dimms := rfl
@[simp] theorem updIsland_mcs (s i f) : (State.updIsland s i f).mcs = s.mcs := rfl
@[simp] theorem updIsland_groups (s i f) : (State.updIsland s i f).groups = s.groups := rfl
@[simp] theorem updIsland_commit (s i f) : (State.updIsland s i f).commit = s.commit := rfl
@[simp] theorem updIsland_lim (s i f) : (State.updIsland s i f).lim = s.lim := rfl
@[simp] theorem updIsland_zones (s i f) : (State.updIsland s i f).zones = s.zones := rfl
@[simp] theorem updIsland_segAdd (s i f) : (State.updIsland s i f).segAdd = s.segAdd := rfl
@[simp] theorem updIsland_zrstLost (s i f) : (State.updIsland s i f).zrstLost = s.zrstLost := rfl
@[simp] theorem updIsland_spc (s i f) : (State.updIsland s i f).spc = s.spc := rfl
@[simp] theorem updIsland_ces (s i f) : (State.updIsland s i f).ces = s.ces := rfl
@[simp] theorem updIsland_les (s i f) : (State.updIsland s i f).les = s.les := rfl
@[simp] theorem updIsland_chan (s i f) : (State.updIsland s i f).chan = s.chan := rfl
@[simp] theorem updIsland_links (s i f) : (State.updIsland s i f).links = s.links := rfl
@[simp] theorem updIsland_sent (s i f) : (State.updIsland s i f).sent = s.sent := rfl
@[simp] theorem updIsland_cslices (s i f) : (State.updIsland s i f).cslices = s.cslices := rfl
@[simp] theorem updIsland_dslices (s i f) : (State.updIsland s i f).dslices = s.dslices := rfl
@[simp] theorem updIsland_crypto (s i f) : (State.updIsland s i f).crypto = s.crypto := rfl
@[simp] theorem updIsland_mgmt (s i f) : (State.updIsland s i f).mgmt = s.mgmt := rfl
@[simp] theorem updIsland_plant (s i f) : (State.updIsland s i f).plant = s.plant := rfl
@[simp] theorem updIsland_encke (s i f) : (State.updIsland s i f).encke = s.encke := rfl
@[simp] theorem updIsland_pu (s i f) (n') : (State.updIsland s i f).pu n' = s.pu n' := rfl
@[simp] theorem updIsland_thr (s i f) (n' th') : (State.updIsland s i f).thr n' th' = s.thr n' th' := rfl
@[simp] theorem updIsland_zone (s i f) (z') : (State.updIsland s i f).zone z' = s.zone z' := rfl
@[simp] theorem updIsland_lcOf (s i f) (g') : (State.updIsland s i f).lcOf g' = s.lcOf g' := rfl
@[simp] theorem updIsland_lcs (s i f) (g') : (State.updIsland s i f).lcs g' = s.lcs g' := rfl
@[simp] theorem updIsland_flt (s i f) (b') : (State.updIsland s i f).flt b' = s.flt b' := rfl
@[simp] theorem updIsland_tab (s i f) (t') : (State.updIsland s i f).tab t' = s.tab t' := rfl
@[simp] theorem updIsland_mc (s i f) (m') : (State.updIsland s i f).mc m' = s.mc m' := rfl
@[simp] theorem updIsland_grp (s i f) (g') : (State.updIsland s i f).grp g' = s.grp g' := rfl
@[simp] theorem updIsland_ce (s i f) (n') : (State.updIsland s i f).ce n' = s.ce n' := rfl
@[simp] theorem updIsland_link (s i f) (n') : (State.updIsland s i f).link n' = s.link n' := rfl
@[simp] theorem updIsland_le (s i f) (n') : (State.updIsland s i f).le n' = s.le n' := rfl
@[simp] theorem updIsland_vol (s i f) (i') : (State.updIsland s i f).vol i' = s.vol i' := rfl
@[simp] theorem updIsland_box (s i f) (z') : (State.updIsland s i f).box z' = s.box z' := rfl
@[simp] theorem updIsland_inMode (s i f) (l') : (State.updIsland s i f).inMode l' = s.inMode l' := rfl
@[simp] theorem updIsland_mainOn (s i f) : (State.updIsland s i f).mainOn = s.mainOn := rfl
@[simp] theorem updIsland_now (s i f) : (State.updIsland s i f).now = s.now := rfl
@[simp] theorem updIsland_zc (s i f) : (State.updIsland s i f).zc = s.zc := rfl
@[simp] theorem updIsland_puZone (s i f) (n') : (State.updIsland s i f).puZone n' = s.puZone n' := rfl
@[simp] theorem updIsland_entry (s i f) (i' j' v') : (State.updIsland s i f).entry i' j' v' = s.entry i' j' v' := rfl

/- updVol. -/

@[simp] theorem updVol_pending (s i f) : (State.updVol s i f).pending = s.pending := rfl
@[simp] theorem updVol_free (s i f) : (State.updVol s i f).free = s.free := rfl
@[simp] theorem updVol_resp (s i f) : (State.updVol s i f).resp = s.resp := rfl
@[simp] theorem updVol_vaux (s i f) : (State.updVol s i f).vaux = s.vaux := rfl
@[simp] theorem updVol_md (s i f) : (State.updVol s i f).md = s.md := rfl
@[simp] theorem updVol_pins (s i f) : (State.updVol s i f).pins = s.pins := rfl
@[simp] theorem updVol_outs (s i f) : (State.updVol s i f).outs = s.outs := rfl
@[simp] theorem updVol_tb (s i f) : (State.updVol s i f).tb = s.tb := rfl
@[simp] theorem updVol_tap (s i f) : (State.updVol s i f).tap = s.tap := rfl
@[simp] theorem updVol_lc (s i f) : (State.updVol s i f).lc = s.lc := rfl
@[simp] theorem updVol_faults (s i f) : (State.updVol s i f).faults = s.faults := rfl
@[simp] theorem updVol_chk (s i f) : (State.updVol s i f).chk = s.chk := rfl
@[simp] theorem updVol_tabs (s i f) : (State.updVol s i f).tabs = s.tabs := rfl
@[simp] theorem updVol_islands (s i f) : (State.updVol s i f).islands = s.islands := rfl
@[simp] theorem updVol_pus (s i f) : (State.updVol s i f).pus = s.pus := rfl
@[simp] theorem updVol_coh (s i f) : (State.updVol s i f).coh = s.coh := rfl
@[simp] theorem updVol_mem (s i f) : (State.updVol s i f).mem = s.mem := rfl
@[simp] theorem updVol_dram (s i f) : (State.updVol s i f).dram = s.dram := rfl
@[simp] theorem updVol_poison (s i f) : (State.updVol s i f).poison = s.poison := rfl
@[simp] theorem updVol_dimms (s i f) : (State.updVol s i f).dimms = s.dimms := rfl
@[simp] theorem updVol_mcs (s i f) : (State.updVol s i f).mcs = s.mcs := rfl
@[simp] theorem updVol_groups (s i f) : (State.updVol s i f).groups = s.groups := rfl
@[simp] theorem updVol_commit (s i f) : (State.updVol s i f).commit = s.commit := rfl
@[simp] theorem updVol_lim (s i f) : (State.updVol s i f).lim = s.lim := rfl
@[simp] theorem updVol_zones (s i f) : (State.updVol s i f).zones = s.zones := rfl
@[simp] theorem updVol_segAdd (s i f) : (State.updVol s i f).segAdd = s.segAdd := rfl
@[simp] theorem updVol_zrstLost (s i f) : (State.updVol s i f).zrstLost = s.zrstLost := rfl
@[simp] theorem updVol_spc (s i f) : (State.updVol s i f).spc = s.spc := rfl
@[simp] theorem updVol_ces (s i f) : (State.updVol s i f).ces = s.ces := rfl
@[simp] theorem updVol_les (s i f) : (State.updVol s i f).les = s.les := rfl
@[simp] theorem updVol_links (s i f) : (State.updVol s i f).links = s.links := rfl
@[simp] theorem updVol_sent (s i f) : (State.updVol s i f).sent = s.sent := rfl
@[simp] theorem updVol_cslices (s i f) : (State.updVol s i f).cslices = s.cslices := rfl
@[simp] theorem updVol_dslices (s i f) : (State.updVol s i f).dslices = s.dslices := rfl
@[simp] theorem updVol_crypto (s i f) : (State.updVol s i f).crypto = s.crypto := rfl
@[simp] theorem updVol_mgmt (s i f) : (State.updVol s i f).mgmt = s.mgmt := rfl
@[simp] theorem updVol_plant (s i f) : (State.updVol s i f).plant = s.plant := rfl
@[simp] theorem updVol_encke (s i f) : (State.updVol s i f).encke = s.encke := rfl
@[simp] theorem updVol_pu (s i f) (n') : (State.updVol s i f).pu n' = s.pu n' := rfl
@[simp] theorem updVol_thr (s i f) (n' th') : (State.updVol s i f).thr n' th' = s.thr n' th' := rfl
@[simp] theorem updVol_zone (s i f) (z') : (State.updVol s i f).zone z' = s.zone z' := rfl
@[simp] theorem updVol_lcOf (s i f) (g') : (State.updVol s i f).lcOf g' = s.lcOf g' := rfl
@[simp] theorem updVol_lcs (s i f) (g') : (State.updVol s i f).lcs g' = s.lcs g' := rfl
@[simp] theorem updVol_flt (s i f) (b') : (State.updVol s i f).flt b' = s.flt b' := rfl
@[simp] theorem updVol_tab (s i f) (t') : (State.updVol s i f).tab t' = s.tab t' := rfl
@[simp] theorem updVol_mc (s i f) (m') : (State.updVol s i f).mc m' = s.mc m' := rfl
@[simp] theorem updVol_grp (s i f) (g') : (State.updVol s i f).grp g' = s.grp g' := rfl
@[simp] theorem updVol_ce (s i f) (n') : (State.updVol s i f).ce n' = s.ce n' := rfl
@[simp] theorem updVol_link (s i f) (n') : (State.updVol s i f).link n' = s.link n' := rfl
@[simp] theorem updVol_le (s i f) (n') : (State.updVol s i f).le n' = s.le n' := rfl
@[simp] theorem updVol_island (s i f) (i') : (State.updVol s i f).island i' = s.island i' := rfl
@[simp] theorem updVol_box (s i f) (z') : (State.updVol s i f).box z' = s.box z' := rfl
@[simp] theorem updVol_inMode (s i f) (l') : (State.updVol s i f).inMode l' = s.inMode l' := rfl
@[simp] theorem updVol_mainOn (s i f) : (State.updVol s i f).mainOn = s.mainOn := rfl
@[simp] theorem updVol_now (s i f) : (State.updVol s i f).now = s.now := rfl
@[simp] theorem updVol_zc (s i f) : (State.updVol s i f).zc = s.zc := rfl
@[simp] theorem updVol_puZone (s i f) (n') : (State.updVol s i f).puZone n' = s.puZone n' := rfl
@[simp] theorem updVol_entry (s i f) (i' j' v') : (State.updVol s i f).entry i' j' v' = s.entry i' j' v' := rfl

/- updBox. -/

@[simp] theorem updBox_pending (s z f) : (State.updBox s z f).pending = s.pending := rfl
@[simp] theorem updBox_free (s z f) : (State.updBox s z f).free = s.free := rfl
@[simp] theorem updBox_resp (s z f) : (State.updBox s z f).resp = s.resp := rfl
@[simp] theorem updBox_vaux (s z f) : (State.updBox s z f).vaux = s.vaux := rfl
@[simp] theorem updBox_md (s z f) : (State.updBox s z f).md = s.md := rfl
@[simp] theorem updBox_pins (s z f) : (State.updBox s z f).pins = s.pins := rfl
@[simp] theorem updBox_outs (s z f) : (State.updBox s z f).outs = s.outs := rfl
@[simp] theorem updBox_tb (s z f) : (State.updBox s z f).tb = s.tb := rfl
@[simp] theorem updBox_tap (s z f) : (State.updBox s z f).tap = s.tap := rfl
@[simp] theorem updBox_lc (s z f) : (State.updBox s z f).lc = s.lc := rfl
@[simp] theorem updBox_faults (s z f) : (State.updBox s z f).faults = s.faults := rfl
@[simp] theorem updBox_chk (s z f) : (State.updBox s z f).chk = s.chk := rfl
@[simp] theorem updBox_tabs (s z f) : (State.updBox s z f).tabs = s.tabs := rfl
@[simp] theorem updBox_islands (s z f) : (State.updBox s z f).islands = s.islands := rfl
@[simp] theorem updBox_pus (s z f) : (State.updBox s z f).pus = s.pus := rfl
@[simp] theorem updBox_coh (s z f) : (State.updBox s z f).coh = s.coh := rfl
@[simp] theorem updBox_mem (s z f) : (State.updBox s z f).mem = s.mem := rfl
@[simp] theorem updBox_dram (s z f) : (State.updBox s z f).dram = s.dram := rfl
@[simp] theorem updBox_poison (s z f) : (State.updBox s z f).poison = s.poison := rfl
@[simp] theorem updBox_dimms (s z f) : (State.updBox s z f).dimms = s.dimms := rfl
@[simp] theorem updBox_mcs (s z f) : (State.updBox s z f).mcs = s.mcs := rfl
@[simp] theorem updBox_groups (s z f) : (State.updBox s z f).groups = s.groups := rfl
@[simp] theorem updBox_commit (s z f) : (State.updBox s z f).commit = s.commit := rfl
@[simp] theorem updBox_lim (s z f) : (State.updBox s z f).lim = s.lim := rfl
@[simp] theorem updBox_zones (s z f) : (State.updBox s z f).zones = s.zones := rfl
@[simp] theorem updBox_segAdd (s z f) : (State.updBox s z f).segAdd = s.segAdd := rfl
@[simp] theorem updBox_zrstLost (s z f) : (State.updBox s z f).zrstLost = s.zrstLost := rfl
@[simp] theorem updBox_spc (s z f) : (State.updBox s z f).spc = s.spc := rfl
@[simp] theorem updBox_ces (s z f) : (State.updBox s z f).ces = s.ces := rfl
@[simp] theorem updBox_les (s z f) : (State.updBox s z f).les = s.les := rfl
@[simp] theorem updBox_chan (s z f) : (State.updBox s z f).chan = s.chan := rfl
@[simp] theorem updBox_links (s z f) : (State.updBox s z f).links = s.links := rfl
@[simp] theorem updBox_sent (s z f) : (State.updBox s z f).sent = s.sent := rfl
@[simp] theorem updBox_cslices (s z f) : (State.updBox s z f).cslices = s.cslices := rfl
@[simp] theorem updBox_dslices (s z f) : (State.updBox s z f).dslices = s.dslices := rfl
@[simp] theorem updBox_crypto (s z f) : (State.updBox s z f).crypto = s.crypto := rfl
@[simp] theorem updBox_plant (s z f) : (State.updBox s z f).plant = s.plant := rfl
@[simp] theorem updBox_encke (s z f) : (State.updBox s z f).encke = s.encke := rfl
@[simp] theorem updBox_pu (s z f) (n') : (State.updBox s z f).pu n' = s.pu n' := rfl
@[simp] theorem updBox_thr (s z f) (n' th') : (State.updBox s z f).thr n' th' = s.thr n' th' := rfl
@[simp] theorem updBox_zone (s z f) (z') : (State.updBox s z f).zone z' = s.zone z' := rfl
@[simp] theorem updBox_lcOf (s z f) (g') : (State.updBox s z f).lcOf g' = s.lcOf g' := rfl
@[simp] theorem updBox_lcs (s z f) (g') : (State.updBox s z f).lcs g' = s.lcs g' := rfl
@[simp] theorem updBox_flt (s z f) (b') : (State.updBox s z f).flt b' = s.flt b' := rfl
@[simp] theorem updBox_tab (s z f) (t') : (State.updBox s z f).tab t' = s.tab t' := rfl
@[simp] theorem updBox_mc (s z f) (m') : (State.updBox s z f).mc m' = s.mc m' := rfl
@[simp] theorem updBox_grp (s z f) (g') : (State.updBox s z f).grp g' = s.grp g' := rfl
@[simp] theorem updBox_ce (s z f) (n') : (State.updBox s z f).ce n' = s.ce n' := rfl
@[simp] theorem updBox_link (s z f) (n') : (State.updBox s z f).link n' = s.link n' := rfl
@[simp] theorem updBox_le (s z f) (n') : (State.updBox s z f).le n' = s.le n' := rfl
@[simp] theorem updBox_island (s z f) (i') : (State.updBox s z f).island i' = s.island i' := rfl
@[simp] theorem updBox_vol (s z f) (i') : (State.updBox s z f).vol i' = s.vol i' := rfl
@[simp] theorem updBox_inMode (s z f) (l') : (State.updBox s z f).inMode l' = s.inMode l' := rfl
@[simp] theorem updBox_mainOn (s z f) : (State.updBox s z f).mainOn = s.mainOn := rfl
@[simp] theorem updBox_now (s z f) : (State.updBox s z f).now = s.now := rfl
@[simp] theorem updBox_zc (s z f) : (State.updBox s z f).zc = s.zc := rfl
@[simp] theorem updBox_puZone (s z f) (n') : (State.updBox s z f).puZone n' = s.puZone n' := rfl

/- setEntry. -/

@[simp] theorem setEntry_pending (s i j v) : (State.setEntry s i j v).pending = s.pending := rfl
@[simp] theorem setEntry_free (s i j v) : (State.setEntry s i j v).free = s.free := rfl
@[simp] theorem setEntry_resp (s i j v) : (State.setEntry s i j v).resp = s.resp := rfl
@[simp] theorem setEntry_vaux (s i j v) : (State.setEntry s i j v).vaux = s.vaux := rfl
@[simp] theorem setEntry_md (s i j v) : (State.setEntry s i j v).md = s.md := rfl
@[simp] theorem setEntry_pins (s i j v) : (State.setEntry s i j v).pins = s.pins := rfl
@[simp] theorem setEntry_outs (s i j v) : (State.setEntry s i j v).outs = s.outs := rfl
@[simp] theorem setEntry_tb (s i j v) : (State.setEntry s i j v).tb = s.tb := rfl
@[simp] theorem setEntry_tap (s i j v) : (State.setEntry s i j v).tap = s.tap := rfl
@[simp] theorem setEntry_lc (s i j v) : (State.setEntry s i j v).lc = s.lc := rfl
@[simp] theorem setEntry_faults (s i j v) : (State.setEntry s i j v).faults = s.faults := rfl
@[simp] theorem setEntry_chk (s i j v) : (State.setEntry s i j v).chk = s.chk := rfl
@[simp] theorem setEntry_tabs (s i j v) : (State.setEntry s i j v).tabs = s.tabs := rfl
@[simp] theorem setEntry_islands (s i j v) : (State.setEntry s i j v).islands = s.islands := rfl
@[simp] theorem setEntry_pus (s i j v) : (State.setEntry s i j v).pus = s.pus := rfl
@[simp] theorem setEntry_coh (s i j v) : (State.setEntry s i j v).coh = s.coh := rfl
@[simp] theorem setEntry_mem (s i j v) : (State.setEntry s i j v).mem = s.mem := rfl
@[simp] theorem setEntry_dram (s i j v) : (State.setEntry s i j v).dram = s.dram := rfl
@[simp] theorem setEntry_poison (s i j v) : (State.setEntry s i j v).poison = s.poison := rfl
@[simp] theorem setEntry_dimms (s i j v) : (State.setEntry s i j v).dimms = s.dimms := rfl
@[simp] theorem setEntry_mcs (s i j v) : (State.setEntry s i j v).mcs = s.mcs := rfl
@[simp] theorem setEntry_groups (s i j v) : (State.setEntry s i j v).groups = s.groups := rfl
@[simp] theorem setEntry_commit (s i j v) : (State.setEntry s i j v).commit = s.commit := rfl
@[simp] theorem setEntry_lim (s i j v) : (State.setEntry s i j v).lim = s.lim := rfl
@[simp] theorem setEntry_zones (s i j v) : (State.setEntry s i j v).zones = s.zones := rfl
@[simp] theorem setEntry_segAdd (s i j v) : (State.setEntry s i j v).segAdd = s.segAdd := rfl
@[simp] theorem setEntry_zrstLost (s i j v) : (State.setEntry s i j v).zrstLost = s.zrstLost := rfl
@[simp] theorem setEntry_spc (s i j v) : (State.setEntry s i j v).spc = s.spc := rfl
@[simp] theorem setEntry_ces (s i j v) : (State.setEntry s i j v).ces = s.ces := rfl
@[simp] theorem setEntry_les (s i j v) : (State.setEntry s i j v).les = s.les := rfl
@[simp] theorem setEntry_chan (s i j v) : (State.setEntry s i j v).chan = s.chan := rfl
@[simp] theorem setEntry_links (s i j v) : (State.setEntry s i j v).links = s.links := rfl
@[simp] theorem setEntry_sent (s i j v) : (State.setEntry s i j v).sent = s.sent := rfl
@[simp] theorem setEntry_cslices (s i j v) : (State.setEntry s i j v).cslices = s.cslices := rfl
@[simp] theorem setEntry_dslices (s i j v) : (State.setEntry s i j v).dslices = s.dslices := rfl
@[simp] theorem setEntry_crypto (s i j v) : (State.setEntry s i j v).crypto = s.crypto := rfl
@[simp] theorem setEntry_plant (s i j v) : (State.setEntry s i j v).plant = s.plant := rfl
@[simp] theorem setEntry_encke (s i j v) : (State.setEntry s i j v).encke = s.encke := rfl
@[simp] theorem setEntry_pu (s i j v) (n') : (State.setEntry s i j v).pu n' = s.pu n' := rfl
@[simp] theorem setEntry_thr (s i j v) (n' th') : (State.setEntry s i j v).thr n' th' = s.thr n' th' := rfl
@[simp] theorem setEntry_zone (s i j v) (z') : (State.setEntry s i j v).zone z' = s.zone z' := rfl
@[simp] theorem setEntry_lcOf (s i j v) (g') : (State.setEntry s i j v).lcOf g' = s.lcOf g' := rfl
@[simp] theorem setEntry_lcs (s i j v) (g') : (State.setEntry s i j v).lcs g' = s.lcs g' := rfl
@[simp] theorem setEntry_flt (s i j v) (b') : (State.setEntry s i j v).flt b' = s.flt b' := rfl
@[simp] theorem setEntry_tab (s i j v) (t') : (State.setEntry s i j v).tab t' = s.tab t' := rfl
@[simp] theorem setEntry_mc (s i j v) (m') : (State.setEntry s i j v).mc m' = s.mc m' := rfl
@[simp] theorem setEntry_grp (s i j v) (g') : (State.setEntry s i j v).grp g' = s.grp g' := rfl
@[simp] theorem setEntry_ce (s i j v) (n') : (State.setEntry s i j v).ce n' = s.ce n' := rfl
@[simp] theorem setEntry_link (s i j v) (n') : (State.setEntry s i j v).link n' = s.link n' := rfl
@[simp] theorem setEntry_le (s i j v) (n') : (State.setEntry s i j v).le n' = s.le n' := rfl
@[simp] theorem setEntry_island (s i j v) (i') : (State.setEntry s i j v).island i' = s.island i' := rfl
@[simp] theorem setEntry_vol (s i j v) (i') : (State.setEntry s i j v).vol i' = s.vol i' := rfl
@[simp] theorem setEntry_inMode (s i j v) (l') : (State.setEntry s i j v).inMode l' = s.inMode l' := rfl
@[simp] theorem setEntry_mainOn (s i j v) : (State.setEntry s i j v).mainOn = s.mainOn := rfl
@[simp] theorem setEntry_now (s i j v) : (State.setEntry s i j v).now = s.now := rfl
@[simp] theorem setEntry_zc (s i j v) : (State.setEntry s i j v).zc = s.zc := rfl
@[simp] theorem setEntry_puZone (s i j v) (n') : (State.setEntry s i j v).puZone n' = s.puZone n' := rfl

/- wr. -/

@[simp] theorem wr_pending (s a l) : (State.wr s a l).pending = s.pending := rfl
@[simp] theorem wr_free (s a l) : (State.wr s a l).free = s.free := rfl
@[simp] theorem wr_resp (s a l) : (State.wr s a l).resp = s.resp := rfl
@[simp] theorem wr_vaux (s a l) : (State.wr s a l).vaux = s.vaux := rfl
@[simp] theorem wr_md (s a l) : (State.wr s a l).md = s.md := rfl
@[simp] theorem wr_pins (s a l) : (State.wr s a l).pins = s.pins := rfl
@[simp] theorem wr_outs (s a l) : (State.wr s a l).outs = s.outs := rfl
@[simp] theorem wr_tb (s a l) : (State.wr s a l).tb = s.tb := rfl
@[simp] theorem wr_tap (s a l) : (State.wr s a l).tap = s.tap := rfl
@[simp] theorem wr_lc (s a l) : (State.wr s a l).lc = s.lc := rfl
@[simp] theorem wr_faults (s a l) : (State.wr s a l).faults = s.faults := rfl
@[simp] theorem wr_chk (s a l) : (State.wr s a l).chk = s.chk := rfl
@[simp] theorem wr_tabs (s a l) : (State.wr s a l).tabs = s.tabs := rfl
@[simp] theorem wr_islands (s a l) : (State.wr s a l).islands = s.islands := rfl
@[simp] theorem wr_pus (s a l) : (State.wr s a l).pus = s.pus := rfl
@[simp] theorem wr_coh (s a l) : (State.wr s a l).coh = s.coh := rfl
@[simp] theorem wr_dram (s a l) : (State.wr s a l).dram = s.dram := rfl
@[simp] theorem wr_poison (s a l) : (State.wr s a l).poison = s.poison := rfl
@[simp] theorem wr_dimms (s a l) : (State.wr s a l).dimms = s.dimms := rfl
@[simp] theorem wr_mcs (s a l) : (State.wr s a l).mcs = s.mcs := rfl
@[simp] theorem wr_groups (s a l) : (State.wr s a l).groups = s.groups := rfl
@[simp] theorem wr_commit (s a l) : (State.wr s a l).commit = s.commit := rfl
@[simp] theorem wr_lim (s a l) : (State.wr s a l).lim = s.lim := rfl
@[simp] theorem wr_zones (s a l) : (State.wr s a l).zones = s.zones := rfl
@[simp] theorem wr_segAdd (s a l) : (State.wr s a l).segAdd = s.segAdd := rfl
@[simp] theorem wr_zrstLost (s a l) : (State.wr s a l).zrstLost = s.zrstLost := rfl
@[simp] theorem wr_spc (s a l) : (State.wr s a l).spc = s.spc := rfl
@[simp] theorem wr_ces (s a l) : (State.wr s a l).ces = s.ces := rfl
@[simp] theorem wr_les (s a l) : (State.wr s a l).les = s.les := rfl
@[simp] theorem wr_chan (s a l) : (State.wr s a l).chan = s.chan := rfl
@[simp] theorem wr_links (s a l) : (State.wr s a l).links = s.links := rfl
@[simp] theorem wr_sent (s a l) : (State.wr s a l).sent = s.sent := rfl
@[simp] theorem wr_cslices (s a l) : (State.wr s a l).cslices = s.cslices := rfl
@[simp] theorem wr_dslices (s a l) : (State.wr s a l).dslices = s.dslices := rfl
@[simp] theorem wr_crypto (s a l) : (State.wr s a l).crypto = s.crypto := rfl
@[simp] theorem wr_mgmt (s a l) : (State.wr s a l).mgmt = s.mgmt := rfl
@[simp] theorem wr_plant (s a l) : (State.wr s a l).plant = s.plant := rfl
@[simp] theorem wr_encke (s a l) : (State.wr s a l).encke = s.encke := rfl
@[simp] theorem wr_pu (s a l) (n') : (State.wr s a l).pu n' = s.pu n' := rfl
@[simp] theorem wr_thr (s a l) (n' th') : (State.wr s a l).thr n' th' = s.thr n' th' := rfl
@[simp] theorem wr_zone (s a l) (z') : (State.wr s a l).zone z' = s.zone z' := rfl
@[simp] theorem wr_lcOf (s a l) (g') : (State.wr s a l).lcOf g' = s.lcOf g' := rfl
@[simp] theorem wr_lcs (s a l) (g') : (State.wr s a l).lcs g' = s.lcs g' := rfl
@[simp] theorem wr_flt (s a l) (b') : (State.wr s a l).flt b' = s.flt b' := rfl
@[simp] theorem wr_tab (s a l) (t') : (State.wr s a l).tab t' = s.tab t' := rfl
@[simp] theorem wr_mc (s a l) (m') : (State.wr s a l).mc m' = s.mc m' := rfl
@[simp] theorem wr_grp (s a l) (g') : (State.wr s a l).grp g' = s.grp g' := rfl
@[simp] theorem wr_ce (s a l) (n') : (State.wr s a l).ce n' = s.ce n' := rfl
@[simp] theorem wr_link (s a l) (n') : (State.wr s a l).link n' = s.link n' := rfl
@[simp] theorem wr_le (s a l) (n') : (State.wr s a l).le n' = s.le n' := rfl
@[simp] theorem wr_island (s a l) (i') : (State.wr s a l).island i' = s.island i' := rfl
@[simp] theorem wr_vol (s a l) (i') : (State.wr s a l).vol i' = s.vol i' := rfl
@[simp] theorem wr_box (s a l) (z') : (State.wr s a l).box z' = s.box z' := rfl
@[simp] theorem wr_inMode (s a l) (l') : (State.wr s a l).inMode l' = s.inMode l' := rfl
@[simp] theorem wr_mainOn (s a l) : (State.wr s a l).mainOn = s.mainOn := rfl
@[simp] theorem wr_now (s a l) : (State.wr s a l).now = s.now := rfl
@[simp] theorem wr_zc (s a l) : (State.wr s a l).zc = s.zc := rfl
@[simp] theorem wr_puZone (s a l) (n') : (State.wr s a l).puZone n' = s.puZone n' := rfl
@[simp] theorem wr_entry (s a l) (i' j' v') : (State.wr s a l).entry i' j' v' = s.entry i' j' v' := rfl

/- wrThrough. -/

@[simp] theorem wrThrough_pending (s a l) : (State.wrThrough s a l).pending = s.pending := rfl
@[simp] theorem wrThrough_free (s a l) : (State.wrThrough s a l).free = s.free := rfl
@[simp] theorem wrThrough_resp (s a l) : (State.wrThrough s a l).resp = s.resp := rfl
@[simp] theorem wrThrough_vaux (s a l) : (State.wrThrough s a l).vaux = s.vaux := rfl
@[simp] theorem wrThrough_md (s a l) : (State.wrThrough s a l).md = s.md := rfl
@[simp] theorem wrThrough_pins (s a l) : (State.wrThrough s a l).pins = s.pins := rfl
@[simp] theorem wrThrough_outs (s a l) : (State.wrThrough s a l).outs = s.outs := rfl
@[simp] theorem wrThrough_tb (s a l) : (State.wrThrough s a l).tb = s.tb := rfl
@[simp] theorem wrThrough_tap (s a l) : (State.wrThrough s a l).tap = s.tap := rfl
@[simp] theorem wrThrough_lc (s a l) : (State.wrThrough s a l).lc = s.lc := rfl
@[simp] theorem wrThrough_faults (s a l) : (State.wrThrough s a l).faults = s.faults := rfl
@[simp] theorem wrThrough_chk (s a l) : (State.wrThrough s a l).chk = s.chk := rfl
@[simp] theorem wrThrough_tabs (s a l) : (State.wrThrough s a l).tabs = s.tabs := rfl
@[simp] theorem wrThrough_islands (s a l) : (State.wrThrough s a l).islands = s.islands := rfl
@[simp] theorem wrThrough_pus (s a l) : (State.wrThrough s a l).pus = s.pus := rfl
@[simp] theorem wrThrough_coh (s a l) : (State.wrThrough s a l).coh = s.coh := rfl
@[simp] theorem wrThrough_poison (s a l) : (State.wrThrough s a l).poison = s.poison := rfl
@[simp] theorem wrThrough_dimms (s a l) : (State.wrThrough s a l).dimms = s.dimms := rfl
@[simp] theorem wrThrough_mcs (s a l) : (State.wrThrough s a l).mcs = s.mcs := rfl
@[simp] theorem wrThrough_groups (s a l) : (State.wrThrough s a l).groups = s.groups := rfl
@[simp] theorem wrThrough_commit (s a l) : (State.wrThrough s a l).commit = s.commit := rfl
@[simp] theorem wrThrough_lim (s a l) : (State.wrThrough s a l).lim = s.lim := rfl
@[simp] theorem wrThrough_zones (s a l) : (State.wrThrough s a l).zones = s.zones := rfl
@[simp] theorem wrThrough_segAdd (s a l) : (State.wrThrough s a l).segAdd = s.segAdd := rfl
@[simp] theorem wrThrough_zrstLost (s a l) : (State.wrThrough s a l).zrstLost = s.zrstLost := rfl
@[simp] theorem wrThrough_spc (s a l) : (State.wrThrough s a l).spc = s.spc := rfl
@[simp] theorem wrThrough_ces (s a l) : (State.wrThrough s a l).ces = s.ces := rfl
@[simp] theorem wrThrough_les (s a l) : (State.wrThrough s a l).les = s.les := rfl
@[simp] theorem wrThrough_chan (s a l) : (State.wrThrough s a l).chan = s.chan := rfl
@[simp] theorem wrThrough_links (s a l) : (State.wrThrough s a l).links = s.links := rfl
@[simp] theorem wrThrough_sent (s a l) : (State.wrThrough s a l).sent = s.sent := rfl
@[simp] theorem wrThrough_cslices (s a l) : (State.wrThrough s a l).cslices = s.cslices := rfl
@[simp] theorem wrThrough_dslices (s a l) : (State.wrThrough s a l).dslices = s.dslices := rfl
@[simp] theorem wrThrough_crypto (s a l) : (State.wrThrough s a l).crypto = s.crypto := rfl
@[simp] theorem wrThrough_mgmt (s a l) : (State.wrThrough s a l).mgmt = s.mgmt := rfl
@[simp] theorem wrThrough_plant (s a l) : (State.wrThrough s a l).plant = s.plant := rfl
@[simp] theorem wrThrough_encke (s a l) : (State.wrThrough s a l).encke = s.encke := rfl
@[simp] theorem wrThrough_pu (s a l) (n') : (State.wrThrough s a l).pu n' = s.pu n' := rfl
@[simp] theorem wrThrough_thr (s a l) (n' th') : (State.wrThrough s a l).thr n' th' = s.thr n' th' := rfl
@[simp] theorem wrThrough_zone (s a l) (z') : (State.wrThrough s a l).zone z' = s.zone z' := rfl
@[simp] theorem wrThrough_lcOf (s a l) (g') : (State.wrThrough s a l).lcOf g' = s.lcOf g' := rfl
@[simp] theorem wrThrough_lcs (s a l) (g') : (State.wrThrough s a l).lcs g' = s.lcs g' := rfl
@[simp] theorem wrThrough_flt (s a l) (b') : (State.wrThrough s a l).flt b' = s.flt b' := rfl
@[simp] theorem wrThrough_tab (s a l) (t') : (State.wrThrough s a l).tab t' = s.tab t' := rfl
@[simp] theorem wrThrough_mc (s a l) (m') : (State.wrThrough s a l).mc m' = s.mc m' := rfl
@[simp] theorem wrThrough_grp (s a l) (g') : (State.wrThrough s a l).grp g' = s.grp g' := rfl
@[simp] theorem wrThrough_ce (s a l) (n') : (State.wrThrough s a l).ce n' = s.ce n' := rfl
@[simp] theorem wrThrough_link (s a l) (n') : (State.wrThrough s a l).link n' = s.link n' := rfl
@[simp] theorem wrThrough_le (s a l) (n') : (State.wrThrough s a l).le n' = s.le n' := rfl
@[simp] theorem wrThrough_island (s a l) (i') : (State.wrThrough s a l).island i' = s.island i' := rfl
@[simp] theorem wrThrough_vol (s a l) (i') : (State.wrThrough s a l).vol i' = s.vol i' := rfl
@[simp] theorem wrThrough_box (s a l) (z') : (State.wrThrough s a l).box z' = s.box z' := rfl
@[simp] theorem wrThrough_inMode (s a l) (l') : (State.wrThrough s a l).inMode l' = s.inMode l' := rfl
@[simp] theorem wrThrough_mainOn (s a l) : (State.wrThrough s a l).mainOn = s.mainOn := rfl
@[simp] theorem wrThrough_now (s a l) : (State.wrThrough s a l).now = s.now := rfl
@[simp] theorem wrThrough_zc (s a l) : (State.wrThrough s a l).zc = s.zc := rfl
@[simp] theorem wrThrough_puZone (s a l) (n') : (State.wrThrough s a l).puZone n' = s.puZone n' := rfl
@[simp] theorem wrThrough_entry (s a l) (i' j' v') : (State.wrThrough s a l).entry i' j' v' = s.entry i' j' v' := rfl

/- flushLine. -/

@[simp] theorem flushLine_pending (s l) : (State.flushLine s l).pending = s.pending := rfl
@[simp] theorem flushLine_free (s l) : (State.flushLine s l).free = s.free := rfl
@[simp] theorem flushLine_resp (s l) : (State.flushLine s l).resp = s.resp := rfl
@[simp] theorem flushLine_vaux (s l) : (State.flushLine s l).vaux = s.vaux := rfl
@[simp] theorem flushLine_md (s l) : (State.flushLine s l).md = s.md := rfl
@[simp] theorem flushLine_pins (s l) : (State.flushLine s l).pins = s.pins := rfl
@[simp] theorem flushLine_outs (s l) : (State.flushLine s l).outs = s.outs := rfl
@[simp] theorem flushLine_tb (s l) : (State.flushLine s l).tb = s.tb := rfl
@[simp] theorem flushLine_tap (s l) : (State.flushLine s l).tap = s.tap := rfl
@[simp] theorem flushLine_lc (s l) : (State.flushLine s l).lc = s.lc := rfl
@[simp] theorem flushLine_faults (s l) : (State.flushLine s l).faults = s.faults := rfl
@[simp] theorem flushLine_chk (s l) : (State.flushLine s l).chk = s.chk := rfl
@[simp] theorem flushLine_tabs (s l) : (State.flushLine s l).tabs = s.tabs := rfl
@[simp] theorem flushLine_islands (s l) : (State.flushLine s l).islands = s.islands := rfl
@[simp] theorem flushLine_pus (s l) : (State.flushLine s l).pus = s.pus := rfl
@[simp] theorem flushLine_coh (s l) : (State.flushLine s l).coh = s.coh := rfl
@[simp] theorem flushLine_mem (s l) : (State.flushLine s l).mem = s.mem := rfl
@[simp] theorem flushLine_poison (s l) : (State.flushLine s l).poison = s.poison := rfl
@[simp] theorem flushLine_dimms (s l) : (State.flushLine s l).dimms = s.dimms := rfl
@[simp] theorem flushLine_mcs (s l) : (State.flushLine s l).mcs = s.mcs := rfl
@[simp] theorem flushLine_groups (s l) : (State.flushLine s l).groups = s.groups := rfl
@[simp] theorem flushLine_commit (s l) : (State.flushLine s l).commit = s.commit := rfl
@[simp] theorem flushLine_lim (s l) : (State.flushLine s l).lim = s.lim := rfl
@[simp] theorem flushLine_zones (s l) : (State.flushLine s l).zones = s.zones := rfl
@[simp] theorem flushLine_segAdd (s l) : (State.flushLine s l).segAdd = s.segAdd := rfl
@[simp] theorem flushLine_zrstLost (s l) : (State.flushLine s l).zrstLost = s.zrstLost := rfl
@[simp] theorem flushLine_spc (s l) : (State.flushLine s l).spc = s.spc := rfl
@[simp] theorem flushLine_ces (s l) : (State.flushLine s l).ces = s.ces := rfl
@[simp] theorem flushLine_les (s l) : (State.flushLine s l).les = s.les := rfl
@[simp] theorem flushLine_chan (s l) : (State.flushLine s l).chan = s.chan := rfl
@[simp] theorem flushLine_links (s l) : (State.flushLine s l).links = s.links := rfl
@[simp] theorem flushLine_sent (s l) : (State.flushLine s l).sent = s.sent := rfl
@[simp] theorem flushLine_cslices (s l) : (State.flushLine s l).cslices = s.cslices := rfl
@[simp] theorem flushLine_dslices (s l) : (State.flushLine s l).dslices = s.dslices := rfl
@[simp] theorem flushLine_crypto (s l) : (State.flushLine s l).crypto = s.crypto := rfl
@[simp] theorem flushLine_mgmt (s l) : (State.flushLine s l).mgmt = s.mgmt := rfl
@[simp] theorem flushLine_plant (s l) : (State.flushLine s l).plant = s.plant := rfl
@[simp] theorem flushLine_encke (s l) : (State.flushLine s l).encke = s.encke := rfl
@[simp] theorem flushLine_pu (s l) (n') : (State.flushLine s l).pu n' = s.pu n' := rfl
@[simp] theorem flushLine_thr (s l) (n' th') : (State.flushLine s l).thr n' th' = s.thr n' th' := rfl
@[simp] theorem flushLine_zone (s l) (z') : (State.flushLine s l).zone z' = s.zone z' := rfl
@[simp] theorem flushLine_lcOf (s l) (g') : (State.flushLine s l).lcOf g' = s.lcOf g' := rfl
@[simp] theorem flushLine_lcs (s l) (g') : (State.flushLine s l).lcs g' = s.lcs g' := rfl
@[simp] theorem flushLine_flt (s l) (b') : (State.flushLine s l).flt b' = s.flt b' := rfl
@[simp] theorem flushLine_tab (s l) (t') : (State.flushLine s l).tab t' = s.tab t' := rfl
@[simp] theorem flushLine_mc (s l) (m') : (State.flushLine s l).mc m' = s.mc m' := rfl
@[simp] theorem flushLine_grp (s l) (g') : (State.flushLine s l).grp g' = s.grp g' := rfl
@[simp] theorem flushLine_ce (s l) (n') : (State.flushLine s l).ce n' = s.ce n' := rfl
@[simp] theorem flushLine_link (s l) (n') : (State.flushLine s l).link n' = s.link n' := rfl
@[simp] theorem flushLine_le (s l) (n') : (State.flushLine s l).le n' = s.le n' := rfl
@[simp] theorem flushLine_island (s l) (i') : (State.flushLine s l).island i' = s.island i' := rfl
@[simp] theorem flushLine_vol (s l) (i') : (State.flushLine s l).vol i' = s.vol i' := rfl
@[simp] theorem flushLine_box (s l) (z') : (State.flushLine s l).box z' = s.box z' := rfl
@[simp] theorem flushLine_inMode (s l) (l') : (State.flushLine s l).inMode l' = s.inMode l' := rfl
@[simp] theorem flushLine_mainOn (s l) : (State.flushLine s l).mainOn = s.mainOn := rfl
@[simp] theorem flushLine_now (s l) : (State.flushLine s l).now = s.now := rfl
@[simp] theorem flushLine_zc (s l) : (State.flushLine s l).zc = s.zc := rfl
@[simp] theorem flushLine_puZone (s l) (n') : (State.flushLine s l).puZone n' = s.puZone n' := rfl
@[simp] theorem flushLine_entry (s l) (i' j' v') : (State.flushLine s l).entry i' j' v' = s.entry i' j' v' := rfl

/- dropLine. -/

@[simp] theorem dropLine_pending (s l) : (State.dropLine s l).pending = s.pending := rfl
@[simp] theorem dropLine_free (s l) : (State.dropLine s l).free = s.free := rfl
@[simp] theorem dropLine_resp (s l) : (State.dropLine s l).resp = s.resp := rfl
@[simp] theorem dropLine_vaux (s l) : (State.dropLine s l).vaux = s.vaux := rfl
@[simp] theorem dropLine_md (s l) : (State.dropLine s l).md = s.md := rfl
@[simp] theorem dropLine_pins (s l) : (State.dropLine s l).pins = s.pins := rfl
@[simp] theorem dropLine_outs (s l) : (State.dropLine s l).outs = s.outs := rfl
@[simp] theorem dropLine_tb (s l) : (State.dropLine s l).tb = s.tb := rfl
@[simp] theorem dropLine_tap (s l) : (State.dropLine s l).tap = s.tap := rfl
@[simp] theorem dropLine_lc (s l) : (State.dropLine s l).lc = s.lc := rfl
@[simp] theorem dropLine_faults (s l) : (State.dropLine s l).faults = s.faults := rfl
@[simp] theorem dropLine_chk (s l) : (State.dropLine s l).chk = s.chk := rfl
@[simp] theorem dropLine_tabs (s l) : (State.dropLine s l).tabs = s.tabs := rfl
@[simp] theorem dropLine_islands (s l) : (State.dropLine s l).islands = s.islands := rfl
@[simp] theorem dropLine_pus (s l) : (State.dropLine s l).pus = s.pus := rfl
@[simp] theorem dropLine_coh (s l) : (State.dropLine s l).coh = s.coh := rfl
@[simp] theorem dropLine_dram (s l) : (State.dropLine s l).dram = s.dram := rfl
@[simp] theorem dropLine_poison (s l) : (State.dropLine s l).poison = s.poison := rfl
@[simp] theorem dropLine_dimms (s l) : (State.dropLine s l).dimms = s.dimms := rfl
@[simp] theorem dropLine_mcs (s l) : (State.dropLine s l).mcs = s.mcs := rfl
@[simp] theorem dropLine_groups (s l) : (State.dropLine s l).groups = s.groups := rfl
@[simp] theorem dropLine_commit (s l) : (State.dropLine s l).commit = s.commit := rfl
@[simp] theorem dropLine_lim (s l) : (State.dropLine s l).lim = s.lim := rfl
@[simp] theorem dropLine_zones (s l) : (State.dropLine s l).zones = s.zones := rfl
@[simp] theorem dropLine_segAdd (s l) : (State.dropLine s l).segAdd = s.segAdd := rfl
@[simp] theorem dropLine_zrstLost (s l) : (State.dropLine s l).zrstLost = s.zrstLost := rfl
@[simp] theorem dropLine_spc (s l) : (State.dropLine s l).spc = s.spc := rfl
@[simp] theorem dropLine_ces (s l) : (State.dropLine s l).ces = s.ces := rfl
@[simp] theorem dropLine_les (s l) : (State.dropLine s l).les = s.les := rfl
@[simp] theorem dropLine_chan (s l) : (State.dropLine s l).chan = s.chan := rfl
@[simp] theorem dropLine_links (s l) : (State.dropLine s l).links = s.links := rfl
@[simp] theorem dropLine_sent (s l) : (State.dropLine s l).sent = s.sent := rfl
@[simp] theorem dropLine_cslices (s l) : (State.dropLine s l).cslices = s.cslices := rfl
@[simp] theorem dropLine_dslices (s l) : (State.dropLine s l).dslices = s.dslices := rfl
@[simp] theorem dropLine_crypto (s l) : (State.dropLine s l).crypto = s.crypto := rfl
@[simp] theorem dropLine_mgmt (s l) : (State.dropLine s l).mgmt = s.mgmt := rfl
@[simp] theorem dropLine_plant (s l) : (State.dropLine s l).plant = s.plant := rfl
@[simp] theorem dropLine_encke (s l) : (State.dropLine s l).encke = s.encke := rfl
@[simp] theorem dropLine_pu (s l) (n') : (State.dropLine s l).pu n' = s.pu n' := rfl
@[simp] theorem dropLine_thr (s l) (n' th') : (State.dropLine s l).thr n' th' = s.thr n' th' := rfl
@[simp] theorem dropLine_zone (s l) (z') : (State.dropLine s l).zone z' = s.zone z' := rfl
@[simp] theorem dropLine_lcOf (s l) (g') : (State.dropLine s l).lcOf g' = s.lcOf g' := rfl
@[simp] theorem dropLine_lcs (s l) (g') : (State.dropLine s l).lcs g' = s.lcs g' := rfl
@[simp] theorem dropLine_flt (s l) (b') : (State.dropLine s l).flt b' = s.flt b' := rfl
@[simp] theorem dropLine_tab (s l) (t') : (State.dropLine s l).tab t' = s.tab t' := rfl
@[simp] theorem dropLine_mc (s l) (m') : (State.dropLine s l).mc m' = s.mc m' := rfl
@[simp] theorem dropLine_grp (s l) (g') : (State.dropLine s l).grp g' = s.grp g' := rfl
@[simp] theorem dropLine_ce (s l) (n') : (State.dropLine s l).ce n' = s.ce n' := rfl
@[simp] theorem dropLine_link (s l) (n') : (State.dropLine s l).link n' = s.link n' := rfl
@[simp] theorem dropLine_le (s l) (n') : (State.dropLine s l).le n' = s.le n' := rfl
@[simp] theorem dropLine_island (s l) (i') : (State.dropLine s l).island i' = s.island i' := rfl
@[simp] theorem dropLine_vol (s l) (i') : (State.dropLine s l).vol i' = s.vol i' := rfl
@[simp] theorem dropLine_box (s l) (z') : (State.dropLine s l).box z' = s.box z' := rfl
@[simp] theorem dropLine_inMode (s l) (l') : (State.dropLine s l).inMode l' = s.inMode l' := rfl
@[simp] theorem dropLine_mainOn (s l) : (State.dropLine s l).mainOn = s.mainOn := rfl
@[simp] theorem dropLine_now (s l) : (State.dropLine s l).now = s.now := rfl
@[simp] theorem dropLine_zc (s l) : (State.dropLine s l).zc = s.zc := rfl
@[simp] theorem dropLine_puZone (s l) (n') : (State.dropLine s l).puZone n' = s.puZone n' := rfl
@[simp] theorem dropLine_entry (s l) (i' j' v') : (State.dropLine s l).entry i' j' v' = s.entry i' j' v' := rfl

/- clearPoison. -/

@[simp] theorem clearPoison_pending (s l) : (State.clearPoison s l).pending = s.pending := rfl
@[simp] theorem clearPoison_free (s l) : (State.clearPoison s l).free = s.free := rfl
@[simp] theorem clearPoison_resp (s l) : (State.clearPoison s l).resp = s.resp := rfl
@[simp] theorem clearPoison_vaux (s l) : (State.clearPoison s l).vaux = s.vaux := rfl
@[simp] theorem clearPoison_md (s l) : (State.clearPoison s l).md = s.md := rfl
@[simp] theorem clearPoison_pins (s l) : (State.clearPoison s l).pins = s.pins := rfl
@[simp] theorem clearPoison_outs (s l) : (State.clearPoison s l).outs = s.outs := rfl
@[simp] theorem clearPoison_tb (s l) : (State.clearPoison s l).tb = s.tb := rfl
@[simp] theorem clearPoison_tap (s l) : (State.clearPoison s l).tap = s.tap := rfl
@[simp] theorem clearPoison_lc (s l) : (State.clearPoison s l).lc = s.lc := rfl
@[simp] theorem clearPoison_faults (s l) : (State.clearPoison s l).faults = s.faults := rfl
@[simp] theorem clearPoison_chk (s l) : (State.clearPoison s l).chk = s.chk := rfl
@[simp] theorem clearPoison_tabs (s l) : (State.clearPoison s l).tabs = s.tabs := rfl
@[simp] theorem clearPoison_islands (s l) : (State.clearPoison s l).islands = s.islands := rfl
@[simp] theorem clearPoison_pus (s l) : (State.clearPoison s l).pus = s.pus := rfl
@[simp] theorem clearPoison_coh (s l) : (State.clearPoison s l).coh = s.coh := rfl
@[simp] theorem clearPoison_mem (s l) : (State.clearPoison s l).mem = s.mem := rfl
@[simp] theorem clearPoison_dram (s l) : (State.clearPoison s l).dram = s.dram := rfl
@[simp] theorem clearPoison_dimms (s l) : (State.clearPoison s l).dimms = s.dimms := rfl
@[simp] theorem clearPoison_mcs (s l) : (State.clearPoison s l).mcs = s.mcs := rfl
@[simp] theorem clearPoison_groups (s l) : (State.clearPoison s l).groups = s.groups := rfl
@[simp] theorem clearPoison_commit (s l) : (State.clearPoison s l).commit = s.commit := rfl
@[simp] theorem clearPoison_lim (s l) : (State.clearPoison s l).lim = s.lim := rfl
@[simp] theorem clearPoison_zones (s l) : (State.clearPoison s l).zones = s.zones := rfl
@[simp] theorem clearPoison_segAdd (s l) : (State.clearPoison s l).segAdd = s.segAdd := rfl
@[simp] theorem clearPoison_zrstLost (s l) : (State.clearPoison s l).zrstLost = s.zrstLost := rfl
@[simp] theorem clearPoison_spc (s l) : (State.clearPoison s l).spc = s.spc := rfl
@[simp] theorem clearPoison_ces (s l) : (State.clearPoison s l).ces = s.ces := rfl
@[simp] theorem clearPoison_les (s l) : (State.clearPoison s l).les = s.les := rfl
@[simp] theorem clearPoison_chan (s l) : (State.clearPoison s l).chan = s.chan := rfl
@[simp] theorem clearPoison_links (s l) : (State.clearPoison s l).links = s.links := rfl
@[simp] theorem clearPoison_sent (s l) : (State.clearPoison s l).sent = s.sent := rfl
@[simp] theorem clearPoison_cslices (s l) : (State.clearPoison s l).cslices = s.cslices := rfl
@[simp] theorem clearPoison_dslices (s l) : (State.clearPoison s l).dslices = s.dslices := rfl
@[simp] theorem clearPoison_crypto (s l) : (State.clearPoison s l).crypto = s.crypto := rfl
@[simp] theorem clearPoison_mgmt (s l) : (State.clearPoison s l).mgmt = s.mgmt := rfl
@[simp] theorem clearPoison_plant (s l) : (State.clearPoison s l).plant = s.plant := rfl
@[simp] theorem clearPoison_encke (s l) : (State.clearPoison s l).encke = s.encke := rfl
@[simp] theorem clearPoison_pu (s l) (n') : (State.clearPoison s l).pu n' = s.pu n' := rfl
@[simp] theorem clearPoison_thr (s l) (n' th') : (State.clearPoison s l).thr n' th' = s.thr n' th' := rfl
@[simp] theorem clearPoison_zone (s l) (z') : (State.clearPoison s l).zone z' = s.zone z' := rfl
@[simp] theorem clearPoison_lcOf (s l) (g') : (State.clearPoison s l).lcOf g' = s.lcOf g' := rfl
@[simp] theorem clearPoison_lcs (s l) (g') : (State.clearPoison s l).lcs g' = s.lcs g' := rfl
@[simp] theorem clearPoison_flt (s l) (b') : (State.clearPoison s l).flt b' = s.flt b' := rfl
@[simp] theorem clearPoison_tab (s l) (t') : (State.clearPoison s l).tab t' = s.tab t' := rfl
@[simp] theorem clearPoison_mc (s l) (m') : (State.clearPoison s l).mc m' = s.mc m' := rfl
@[simp] theorem clearPoison_grp (s l) (g') : (State.clearPoison s l).grp g' = s.grp g' := rfl
@[simp] theorem clearPoison_ce (s l) (n') : (State.clearPoison s l).ce n' = s.ce n' := rfl
@[simp] theorem clearPoison_link (s l) (n') : (State.clearPoison s l).link n' = s.link n' := rfl
@[simp] theorem clearPoison_le (s l) (n') : (State.clearPoison s l).le n' = s.le n' := rfl
@[simp] theorem clearPoison_island (s l) (i') : (State.clearPoison s l).island i' = s.island i' := rfl
@[simp] theorem clearPoison_vol (s l) (i') : (State.clearPoison s l).vol i' = s.vol i' := rfl
@[simp] theorem clearPoison_box (s l) (z') : (State.clearPoison s l).box z' = s.box z' := rfl
@[simp] theorem clearPoison_inMode (s l) (l') : (State.clearPoison s l).inMode l' = s.inMode l' := rfl
@[simp] theorem clearPoison_mainOn (s l) : (State.clearPoison s l).mainOn = s.mainOn := rfl
@[simp] theorem clearPoison_now (s l) : (State.clearPoison s l).now = s.now := rfl
@[simp] theorem clearPoison_zc (s l) : (State.clearPoison s l).zc = s.zc := rfl
@[simp] theorem clearPoison_puZone (s l) (n') : (State.clearPoison s l).puZone n' = s.puZone n' := rfl
@[simp] theorem clearPoison_entry (s l) (i' j' v') : (State.clearPoison s l).entry i' j' v' = s.entry i' j' v' := rfl

/- The entry that updPu writes. -/

@[simp] theorem updPu_self (s n f) : (State.updPu s n f).pu n = f (s.pu n) := tget_tupd_self ..
theorem updPu_of_ne (s) {n n'} (f) (h : n' ≠ n) : (State.updPu s n f).pu n' = s.pu n' := tget_tupd_of_ne _ _ _ h

/- The entry that updZone writes. -/

@[simp] theorem updZone_self (s z f) : (State.updZone s z f).zone z = f (s.zone z) := tget_tupd_self ..
theorem updZone_of_ne (s) {z z'} (f) (h : z' ≠ z) : (State.updZone s z f).zone z' = s.zone z' := tget_tupd_of_ne _ _ _ h

/- The entry that updMc writes. -/

@[simp] theorem updMc_self (s m f) : (State.updMc s m f).mc m = f (s.mc m) := tget_tupd_self ..
theorem updMc_of_ne (s) {m m'} (f) (h : m' ≠ m) : (State.updMc s m f).mc m' = s.mc m' := tget_tupd_of_ne _ _ _ h

/- The entry that updGrp writes. -/

@[simp] theorem updGrp_self (s g f) : (State.updGrp s g f).grp g = f (s.grp g) := tget_tupd_self ..
theorem updGrp_of_ne (s) {g g'} (f) (h : g' ≠ g) : (State.updGrp s g f).grp g' = s.grp g' := tget_tupd_of_ne _ _ _ h

/- The entry that updLe writes. -/

@[simp] theorem updLe_self (s n f) : (State.updLe s n f).le n = f (s.le n) := tget_tupd_self ..
theorem updLe_of_ne (s) {n n'} (f) (h : n' ≠ n) : (State.updLe s n f).le n' = s.le n' := tget_tupd_of_ne _ _ _ h

/- The entry that updVol writes. -/

@[simp] theorem updVol_self (s i f) : (State.updVol s i f).vol i = f (s.vol i) := tget_tupd_self ..
theorem updVol_of_ne (s) {i i'} (f) (h : i' ≠ i) : (State.updVol s i f).vol i' = s.vol i' := tget_tupd_of_ne _ _ _ h

/- The entry that updBox writes. -/

@[simp] theorem updBox_self (s z f) : (State.updBox s z f).box z = f (s.box z) := tget_tupd_self ..
theorem updBox_of_ne (s) {z z'} (f) (h : z' ≠ z) : (State.updBox s z f).box z' = s.box z' := tget_tupd_of_ne _ _ _ h

/- The entries that the other updates write. -/

@[simp] theorem updFlt_self (s b f) : (State.updFlt s b f).flt b = f (s.flt b) := tget_tupd_self ..
@[simp] theorem updTab_self (s t f) : (State.updTab s t f).tab t = f (s.tab t) := tget_tupd_self ..
@[simp] theorem updCe_self (s n f) : (State.updCe s n f).ce n = f (s.ce n) := tget_tupd_self ..
@[simp] theorem updLink_self (s n f) : (State.updLink s n f).link n = f (s.link n) := by
  unfold State.link State.updLink
  exact tget_tupd_self ..
@[simp] theorem updIsland_self (s i f) : (State.updIsland s i f).island i = f (s.island i) := tget_tupd_self ..
@[simp] theorem setLc_self (s g l) : (State.setLc s g l).lcOf g = l := tget_tset_self ..
@[simp] theorem setLc_lcs_self (s g l) : (State.setLc s g l).lcs g = l.state := congrArg Lc.state (setLc_self s g l)

/-- A thread that was just written reads as written. -/
@[simp] theorem updThr_self (s : State) (n : Nat) (th : Bool) (f : Thread → Thread) :
    (s.updThr n th f).thr n th = f (s.thr n th) := by
  unfold State.thr State.updThr
  rw [updPu_self]
  cases th <;> rfl

/-- The other thread of the PU is as it was. -/
@[simp] theorem updThr_other (s : State) (n : Nat) (th : Bool) (f : Thread → Thread) :
    (s.updThr n th f).thr n (!th) = s.thr n (!th) := by
  unfold State.thr State.updThr
  rw [updPu_self]
  cases th <;> rfl

/-- Threads of other PUs are as they were. -/
theorem updThr_of_ne (s : State) {n m : Nat} (th th' : Bool) (f : Thread → Thread) (h : m ≠ n) :
    (s.updThr n th f).thr m th' = s.thr m th' := by
  unfold State.thr State.updThr
  rw [updPu_of_ne s _ h]

/-- Everything of a PU but its two threads is as it was. -/
theorem updThr_pu (s : State) (n : Nat) (th : Bool) (f : Thread → Thread) :
    (s.updThr n th f).pu n = (s.pu n).setThr th (f (s.thr n th)) := by
  unfold State.thr State.updThr
  rw [updPu_self]

/-- Two updates of one thread are one. -/
theorem updThr_updThr (s : State) (n : Nat) (th : Bool) (f g : Thread → Thread) :
    ((s.updThr n th f).updThr n th g).thr n th = g (f (s.thr n th)) := by simp

end Sys2Proof.Machine
end

