-- ==== Sys2Proof/Laws/Exec.lean ====
section
/-! SUPPORT. What every VA4 instruction passes through: which effect is reached, what retirement leaves. -/

namespace Sys2Proof.Machine

/-- A word made of three fields. -/
theorem mkw_three (a b c : Nat × Nat) :
    mkw [a, b, c] = BitVec.ofNat 64 (0 + a.2 * 2 ^ a.1 + b.2 * 2 ^ b.1 + c.2 * 2 ^ c.1) := rfl

/-- A major opcode can be read from the word that holds it. -/
theorem ins1_opc (c : BitVec 4) (opc low : Nat) (ho : opc < 64) (hl : low < 2 ^ 22) : fld 59 54 (ins1 c opc low) = opc := by
  have hc := c.isLt
  have hx : c.toNat * 2 ^ 28 + opc * 2 ^ 22 + low < 2 ^ 32 := by omega
  have e : (ins1 c opc low).toNat = (c.toNat * 2 ^ 28 + opc * 2 ^ 22 + low) * 2 ^ 32 := by
    have e1 : ∀ k : Nat, 0 + c.toNat * (2 ^ 28 * k) + opc * (2 ^ 22 * k) + low * k =
        (c.toNat * 2 ^ 28 + opc * 2 ^ 22 + low) * k := by 
      intro k
      rw [Nat.add_mul, Nat.add_mul, Nat.mul_assoc, Nat.mul_assoc, Nat.zero_add]
    have e2 := e1 (2 ^ 32)
    rw [← Nat.pow_add, ← Nat.pow_add] at e2
    rw [ins1, mkw_three, BitVec.toNat_ofNat]
    rw [e2, show (64 : Nat) = 32 + 32 from rfl, Nat.pow_add]
    exact Nat.mod_eq_of_lt (Nat.mul_lt_mul_of_pos_right hx (Nat.two_pow_pos 32))
  rw [fld, nbits, e, show (54 : Nat) = 22 + 32 from rfl, Nat.pow_add, Nat.mul_div_mul_right _ _ (Nat.two_pow_pos 32)]
  omega

/-- A channel engine has every instruction whose major opcode is not one of the groups that it lacks (R85). -/
theorem ceLacks_ins1 (c : BitVec 4) (opc low : Nat) (ho : opc < 64) (hl : low < 2 ^ 22)
    (hn : opc ∉ [0x01, 0x30, 0x31, 0x32, 0x34, 0x35, 0x37, 0x38]) : ceLacks (ins1 c opc low) = false := by
  simp only [List.mem_cons, List.not_mem_nil, not_or, or_false] at hn
  simp only [ceLacks, ins1_opc c opc low ho hl]
  simp [hn]

/-- On a PU nothing is missing that the control store provides (R124). -/
theorem storeLacks_pu {h : Hdr} {micro : Option Nat} {restricted : Bool} {t : State} (hpu : h.pu.val < 48)
    (hp : Passes h micro restricted t) (enc : Word) : storeLacks t h.pu.val enc micro = false := by
  simp only [storeLacks, Nat.not_le.mpr hpu, ↓reduceIte]
  rcases micro with _ | k
  · rfl
  · exact hp.1 hpu k rfl

/-- On any core nothing is missing of a group that channel engines have and the control store provides. -/
theorem storeLacks_enc {h : Hdr} {micro : Option Nat} {restricted : Bool} {t : State} {enc : Word} (he : ceLacks enc = false)
    (hp : Passes h micro restricted t) : storeLacks t h.pu.val enc micro = false := by
  by_cases hpu : h.pu.val < 48
  · exact storeLacks_pu hpu hp enc
  · simp only [storeLacks, Nat.not_lt.mp hpu, ↓reduceIte, he]

/-- No decode-time exception where no check fails and nothing is missing. -/
theorem decOrLack_none {s : State} {n : Nat} {enc : Word} {micro : Option Nat} (hl : storeLacks s n enc micro = false) :
    decOrLack s n enc micro none = none := by
  simp [decOrLack, hl]

/-- A check that fails is the decode-time exception where it is an emulation exception or nothing is missing. -/
theorem decOrLack_some {s : State} {n : Nat} {enc : Word} {micro : Option Nat} {d : Nat × Nat}
    (hl : d.1 = 0x0C ∨ storeLacks s n enc micro = false) : decOrLack s n enc micro (some d) = some d := by
  obtain ⟨v, k⟩ := d
  rcases hl with rfl | hl
  · rfl
  · unfold decOrLack
    split
    · next h => exact h.symm
    · simp [hl]

/-- A missing instruction is an emulation exception with detail 3, before its privilege (R61, R79, R85, R124). -/
theorem decOrLack_lacks {s : State} {n : Nat} {enc : Word} {micro : Option Nat} {d : Option (Nat × Nat)}
    (hd : ∀ k, d ≠ some (0x0C, k)) (hl : storeLacks s n enc micro = true) : decOrLack s n enc micro d = some (0x0C, 3) := by
  unfold decOrLack
  split
  · exact absurd rfl (hd _)
  · simp [hl]

/-- The effect of an instruction is reached where its fetch succeeds, its decode-time checks pass and nothing holds it back. -/
theorem front_go {h : Hdr} {enc : Word} {long : Bool} {micro : Option Nat} {restricted : Bool} {dec : Dec} {s t : State}
    (hf : Fetched h long s t) (hd : dec (archOf h t) = none) (hl : storeLacks t h.pu.val enc micro = false)
    (hp : Passes h micro restricted t) : front h enc long micro restricted dec s = .go t := by
  obtain ⟨h1, h2, h3⟩ := hf
  obtain ⟨-, p2, p3⟩ := hp
  rw [front.eq_def]
  simp only [h1, h2, h3, Bool.not_true, Bool.false_eq_true, ↓reduceIte]
  rw [frontChecks.eq_def]
  simp only [archOf] at hd p2
  simp only [hd, decOrLack_none hl, p2, Bool.false_eq_true, ↓reduceIte, Bool.not_true]
  rcases hx : (t.thr h.pu.val h.th).tx with _ | x
  · simp
  · obtain ⟨q1, q2⟩ := p3 x hx
    simp only [q1]
    have : (x.constrained && decide (32 ≤ x.retired)) = false := by
      rcases q2 with q | q
      · simp [q]
      · simp; intro _; omega
    simp [this]

/-- Where decoding ends with an exception, the instruction ends with it. -/
theorem front_stop {h : Hdr} {enc : Word} {long : Bool} {micro : Option Nat} {restricted : Bool} {dec : Dec} {s t : State}
    {d : Nat × Nat} (hf : Fetched h long s t) (hd : decOrLack t h.pu.val enc micro (dec (archOf h t)) = some d) :
    front h enc long micro restricted dec s = .stop (takeExc h.pu.val h.th enc long { vec := d.1, detail := d.2 } t) := by
  obtain ⟨h1, h2, h3⟩ := hf
  rw [front.eq_def]
  simp only [h1, h2, h3, Bool.not_true, Bool.false_eq_true, ↓reduceIte]
  rw [frontChecks.eq_def]
  simp only [archOf] at hd
  simp only [hd]

/-- Where a decode-time check fails, the instruction ends with that exception. -/
theorem front_dec {h : Hdr} {enc : Word} {long : Bool} {micro : Option Nat} {restricted : Bool} {dec : Dec} {s t : State}
    {d : Nat × Nat} (hf : Fetched h long s t) (hd : dec (archOf h t) = some d)
    (hl : d.1 = 0x0C ∨ storeLacks t h.pu.val enc micro = false) :
    front h enc long micro restricted dec s = .stop (takeExc h.pu.val h.th enc long { vec := d.1, detail := d.2 } t) :=
  front_stop hf (by rw [hd]; exact decOrLack_some hl)

/-- Where the condition is false, the instruction retires without effect. -/
theorem front_skip {h : Hdr} {enc : Word} {long : Bool} {micro : Option Nat} {restricted : Bool} {dec : Dec} {s t : State}
    (hf : Fetched h long s t) (hd : dec (archOf h t) = none) (hm : storeLacks t h.pu.val enc micro = false)
    (hc : condTrue h.cond (archOf h t) = false)
    (hx : ∀ x, (t.thr h.pu.val h.th).tx = some x → x.constrained = false ∨ x.retired < 32) :
    front h enc long micro restricted dec s = .skip t := by
  obtain ⟨h1, h2, h3⟩ := hf
  rw [front.eq_def]
  simp only [h1, h2, h3, Bool.not_true, Bool.false_eq_true, ↓reduceIte]
  rw [frontChecks.eq_def]
  simp only [archOf] at hd hc
  simp only [hd, decOrLack_none hm, hc, ↓reduceIte, Bool.not_false]
  rcases hx' : (t.thr h.pu.val h.th).tx with _ | x
  · simp
  · have : (x.constrained && decide (32 ≤ x.retired)) = false := by
      rcases hx x hx' with q | q
      · simp [q]
      · simp; intro _; omega
    simp [this]

variable {h : Hdr} {enc : Word} {long jump : Bool} {micro : Option Nat} {restricted : Bool} {dec : Dec} {s t u : State}
  {body : State → Res}

/-- An instruction whose effect is done retires. -/
theorem runIns_done (hf : Fetched h long s t) (hd : dec (archOf h t) = none)
    (hl : storeLacks t h.pu.val enc micro = false) (hp : Passes h micro restricted t) (hb : body t = .done u) :
    runIns h enc long jump micro restricted dec body s =
      retire h.pu.val h.th (if jump then u else advance h.pu.val h.th (if long then 8 else 4) u) := by
  rw [runIns.eq_def]
  simp only [front_go hf hd hl hp, hb]

/-- Every exception but the mark of a wait in a table walk is taken. -/
theorem endExc_take {n : Nat} {th : Bool} {w : Word} {b : Bool} {e : Exc} {v : State} (he : e.vec ≠ 0) :
    endExc n th w b e v = takeExc n th w b e v := by
  simp [endExc, he]

/-- An instruction whose effect is an exception ends with it. -/
theorem runIns_exc {e : Exc} (hf : Fetched h long s t) (hd : dec (archOf h t) = none)
    (hl : storeLacks t h.pu.val enc micro = false) (hp : Passes h micro restricted t) (hb : body t = .exc e u) :
    runIns h enc long jump micro restricted dec body s = endExc h.pu.val h.th enc long e u := by
  rw [runIns.eq_def]
  simp only [front_go hf hd hl hp, hb]

/-- An instruction whose decode-time check fails takes that exception. -/
theorem runIns_dec {d : Nat × Nat} (hf : Fetched h long s t) (hd : dec (archOf h t) = some d)
    (hl : d.1 = 0x0C ∨ storeLacks t h.pu.val enc micro = false) :
    runIns h enc long jump micro restricted dec body s =
      takeExc h.pu.val h.th enc long { vec := d.1, detail := d.2 } t := by
  rw [runIns.eq_def]
  simp only [front_dec hf hd hl]

/-- Only what f makes of the thread's registers matters. -/
theorem finish_congr {h : Hdr} {len : Nat} {f g : Arch → Arch} {t : State} (e : f (archOf h t) = g (archOf h t)) :
    finish h len f t = finish h len g t := by
  simp only [archOf, State.thr, State.pu] at e
  simp only [finish, State.updThr, State.updPu, tupd]
  rw [e]

/-- A hardwired instruction on registers alone. -/
theorem runReg_finish {f : Arch → Arch} (hf : Fetched h false s t) (hd : dec (archOf h t) = none)
    (hl : storeLacks t h.pu.val enc none = false) (hp : Passes h none false t) : runReg h enc dec f s = finish h 4 f t := by
  rw [runReg.eq_def]
  exact runIns_done (u := t.updThr h.pu.val h.th (fun x => { x with arch := f x.arch })) hf hd hl hp rfl

/-- A long form on registers alone. -/
theorem runLong_finish {f : Arch → Arch} (hf : Fetched h true s t) (hl : storeLacks t h.pu.val enc none = false) 
    (hp : Passes h none false t) : runLong h enc f s = finish h 8 f t := by
  rw [runLong.eq_def]
  exact runIns_done (u := t.updThr h.pu.val h.th (fun x => { x with arch := f x.arch })) hf rfl hl hp rfl

/-- A register instruction that takes no exception of its own. -/
theorem runTrap_finish {f : Arch → Except Exc Arch} {g : Arch → Arch} (hf : Fetched h false s t)
    (hd : dec (archOf h t) = none) (hl : storeLacks t h.pu.val enc none = false) (hp : Passes h none false t)
    (ha : f (archOf h t) = .ok (g (archOf h t))) :
    runTrap h enc dec f s = finish h 4 g t := by
  rw [runTrap.eq_def]
  refine (runIns_done (u := t.updThr h.pu.val h.th (fun x => { x with arch := g (archOf h t) })) hf hd hl hp ?_).trans
    (finish_congr (f := fun _ => g (archOf h t)) rfl)
  simp only [archOf] at ha
  simp only [ha]
  rfl

/-- A register instruction that takes an exception of its own. -/
theorem runTrap_error {f : Arch → Except Exc Arch} {e : Exc} (hf : Fetched h false s t) (hd : dec (archOf h t) = none)
    (hl : storeLacks t h.pu.val enc none = false) (hp : Passes h none false t) (ha : f (archOf h t) = .error e) :
    runTrap h enc dec f s = endExc h.pu.val h.th enc false e t := by
  rw [runTrap.eq_def]
  refine runIns_exc (e := e) (u := t) hf hd hl hp ?_
  simp only [archOf] at ha
  simp only [ha]

/- Branches. -/

/-- A branch whose effect is done trains the predictor and retires. -/
theorem runBranch_done {kind : Word → BrKind} (hf : Fetched h long s t) (hd : dec (archOf h t) = none)
    (hl : storeLacks t h.pu.val enc micro = false) (hp : Passes h micro false t) (hb : body t = .done u) :
    runBranch h enc long micro dec kind body s =
      retire h.pu.val h.th (trainBranch h (archOf h s).pc true (archOf h u).pc (kind (archOf h s).pc) u) := by
  rw [runBranch.eq_def]
  simp only [front_go hf hd hl hp, hb, archOf]

/-- A branch whose effect is an exception ends with it. -/
theorem runBranch_exc {kind : Word → BrKind} {e : Exc} (hf : Fetched h long s t) (hd : dec (archOf h t) = none)
    (hl : storeLacks t h.pu.val enc micro = false) (hp : Passes h micro false t) (hb : body t = .exc e u) :
    runBranch h enc long micro dec kind body s = endExc h.pu.val h.th enc long e u := by
  rw [runBranch.eq_def]
  simp only [front_go hf hd hl hp, hb]

/-- Training leaves the threads as they were. -/
theorem trainCe_thr (pc : Nat) (c b : Bool) (target : Word) (k : Nat) (p : Pu) (th : Bool) :
    (trainCe pc c b target k p).thr th = p.thr th := by
  simp only [trainCe]
  cases c <;> cases b <;> cases th <;> rfl

theorem trainCond_thr (pc gh salt : Nat) (b : Bool) (p : Pu) (th : Bool) : (trainCond pc gh salt b p).thr th = p.thr th := by
  cases th <;> rfl

theorem trainTarget_thr (pc salt : Nat) (target : Word) (k : Nat) (p : Pu) (th : Bool) :
    (trainTarget pc salt target k p).thr th = p.thr th := by
  simp only [trainTarget]
  split <;> cases th <;> rfl

/-- Training changes no architectural register. -/
@[simp] theorem trainBranch_arch (h : Hdr) (pc : Word) (b : Bool) (target : Word) (k : BrKind) (s : State) :
    archOf h (trainBranch h pc b target k s) = archOf h s := by
  have hk (s : State) (f : Pu → Pu) (hf : ∀ p, (f p).thr h.th = p.thr h.th) :
      ((s.updPu h.pu.val f).thr h.pu.val h.th) = s.thr h.pu.val h.th := by
    simp only [State.thr, updPu_self, hf]
  rw [trainBranch.eq_def]
  simp only [archOf, updThr_self, speculate]
  rw [hk]
  intro p
  (repeat' split) <;> simp only [trainCe_thr, trainCond_thr, trainTarget_thr]

/- What retirement leaves. -/

/-- A use of the caches leaves the threads as they were. -/
theorem touchOne_thr (p : Pu) (u : Touch) (th : Bool) : (touchOne p u).thr th = p.thr th := by
  cases u <;> simp only [touchOne, l2Upd] <;> split <;> cases th <;> rfl

/-- So do all uses of an instruction. -/
theorem touches_thr (l : List Touch) (p : Pu) (th : Bool) : (l.foldl touchOne p).thr th = p.thr th := by
  induction l generalizing p with
  | nil => rfl
  | cons u l ih => exact (ih _).trans (touchOne_thr ..)

/-- The uses of a retired instruction are used up, and nothing else of the thread changes. -/
theorem touched_thr (th : Bool) (p : Pu) : (touched th p).thr th = { p.thr th with touch := [] } := by
  unfold touched
  simp only [touches_thr]
  cases th <;> rfl

/-- The other thread is as it was. -/
theorem touched_other (th : Bool) (p : Pu) : (touched th p).thr (!th) = p.thr (!th) := by
  rw [← touches_thr ((p.thr th).touch) p (!th)]
  unfold touched
  cases th <;> rfl

/-- The thread whose instruction retires, before its count. -/
theorem retire_thr (n : Nat) (th : Bool) (s : State) :
    (retire n th s).thr n th =
      let t := { s.thr n th with
        touch := [], retired := (s.thr n th).retired + 1
        tx := (s.thr n th).tx.map (fun x => { x with retired := x.retired + 1 }) }
      if noLockstep s n then t.compared (decide (n < 48)) else t := by
  have e : (s.updPu n (touched th)).thr n th = { s.thr n th with touch := [] } := by
    simp only [State.thr, updPu_self, touched_thr]
  unfold retire
  simp only [updThr_self, e]

@[simp] theorem retire_arch (n : Nat) (th : Bool) (s : State) :
    ((retire n th s).thr n th).arch = (s.thr n th).arch := by
  rw [retire_thr]
  dsimp only
  split <;> rfl

@[simp] theorem retire_tx (n : Nat) (th : Bool) (s : State) :
    ((retire n th s).thr n th).tx = (s.thr n th).tx.map (fun x => { x with retired := x.retired + 1 }) := by
  rw [retire_thr]
  dsimp only
  split <;> rfl

@[simp] theorem advance_arch (n : Nat) (th : Bool) (len : Nat) (s : State) :
    ((advance n th len s).thr n th).arch =
      { (s.thr n th).arch with pc := (s.thr n th).arch.pc + BitVec.ofNat 64 len } := by
  unfold advance
  simp only [updThr_self]

/-- Registers after an instruction that finishes. -/
theorem finish_arch (h : Hdr) (len : Nat) (f : Arch → Arch) (t : State) :
    archOf h (finish h len f t) = { f (archOf h t) with pc := (f (archOf h t)).pc + BitVec.ofNat 64 len } := by
  simp [finish, archOf]

/-- Registers after a branch whose effect is done. -/
theorem runBranch_arch {kind : Word → BrKind} (hf : Fetched h long s t) (hd : dec (archOf h t) = none)
    (hl : storeLacks t h.pu.val enc micro = false) (hp : Passes h micro false t) (hb : body t = .done u) :
    archOf h (runBranch h enc long micro dec kind body s) = archOf h u := by
  rw [runBranch_done hf hd hl hp hb]
  simp only [archOf, retire_arch]
  exact trainBranch_arch ..

@[simp] theorem updArch_arch (h : Hdr) (f : Arch → Arch) (s : State) : archOf h (updArch h f s) = f (archOf h s) := by
  simp only [archOf, updArch, updThr_self]

/-- A finished instruction leaves memory and everything that is not in its PU as it was. -/
theorem finish_frame (h : Hdr) (len : Nat) (f : Arch → Arch) (t : State) :
    { finish h len f t with pus := t.pus } = t := by
  simp only [finish, retire, advance, State.updThr, State.updPu]

/-- A finished instruction leaves the other PUs as they were. -/
theorem finish_pu_of_ne (h : Hdr) (len : Nat) (f : Arch → Arch) (t : State) {m : Nat} (hm : m ≠ h.pu.val) :
    (finish h len f t).pu m = t.pu m := by
  simp only [finish, retire, advance, State.updThr]
  rw [updPu_of_ne _ _ hm, updPu_of_ne _ _ hm, updPu_of_ne _ _ hm, updPu_of_ne _ _ hm]

/-- A finished instruction leaves the other thread of its PU as it was. -/
theorem finish_other (h : Hdr) (len : Nat) (f : Arch → Arch) (t : State) :
    (finish h len f t).thr h.pu.val (!h.th) = t.thr h.pu.val (!h.th) := by
  have e (s : State) : (s.updPu h.pu.val (touched h.th)).thr h.pu.val (!h.th) = s.thr h.pu.val (!h.th) := by
    simp only [State.thr, updPu_self, touched_other]
  simp only [finish, retire, advance, updThr_other, e]

end Sys2Proof.Machine
end

