-- ==== Sys2Proof/Laws/Keeps.lean ====
section
/-! SUPPORT. Keeps: what every operation of the model preserves (the queue, a legal limited-change record, the canonical form
of both memories), and how a case split, a fold and a pair carry it. -/

set_option Elab.async false

namespace Sys2Proof.Machine

/-- The limited-change record is legal wherever W holds: W is what a statement assumes of the state before. -/
def LimIf (W : Prop) (l : Limited) : Prop := W → LimOk l
/-- What no operation disturbs: the queue is Q, the limited-change record has property L, and where W holds both memories have
their canonical form. -/
structure Keeps (W : Prop) (Q : List Instr) (L : Limited → Prop) (s : State) : Prop where
  pend : s.pending = Q
  lims : L s.lim
  mems : W → Memory.wf s.mem = true
  drams : W → Memory.wf s.dram = true
/-- A state that differs elsewhere alone keeps the same. -/

theorem Keeps.of {W : Prop} {Q : List Instr} {L : Limited → Prop} {s t : State} (h : Keeps W Q L s) (e1 : t.pending = s.pending := by with_reducible rfl)
    (e2 : t.lim = s.lim := by with_reducible rfl) (e3 : t.mem = s.mem := by with_reducible rfl)
    (e4 : t.dram = s.dram := by with_reducible rfl) : Keeps W Q L t :=
  ⟨e1 ▸ h.1, e2 ▸ h.2, fun w => e3 ▸ h.3 w, fun w => e4 ▸ h.4 w⟩
/-- The state that an effect ends in. -/
abbrev Res.st : Res → State
  | .done s => s
  | .exc _ s => s
  | .wait s => s
/-- The state that an access ends in. -/
abbrev Got.st : Got → State
  | .bytes _ s => s
  | .exc _ s => s
  | .stop s => s
/-- The state that the checks before an effect end in. -/
abbrev Front.st : Front → State
  | .stop s => s
  | .skip s => s
  | .go s => s
section
variable {W : Prop} {Q : List Instr} {L : Limited → Prop}

theorem pair_keeps {α : Type} {p : α × State} {a : α} {s : State} (h : p = (a, s)) (k : Keeps W Q L p.2) : Keeps W Q L s := by
  rw [h] at k; exact k

theorem pair3_keeps {α β : Type} {p : α × β × State} {a : α} {b : β} {s : State} (h : p = (a, b, s)) (k : Keeps W Q L p.2.2) : Keeps W Q L s := by
  rw [h] at k; exact k

theorem st_keeps {r : Res} {s : State} (h : r = .done s) (k : Keeps W Q L r.st) : Keeps W Q L s := by
  rw [h] at k; exact k

theorem ste_keeps {r : Res} {x : Exc} {s : State} (h : r = .exc x s) (k : Keeps W Q L r.st) : Keeps W Q L s := by
  rw [h] at k; exact k

theorem stw_keeps {r : Res} {s : State} (h : r = .wait s) (k : Keeps W Q L r.st) : Keeps W Q L s := by
  rw [h] at k; exact k

theorem got_keeps {r : Got} {l : List Byte} {s : State} (h : r = .bytes l s) (k : Keeps W Q L r.st) : Keeps W Q L s := by
  rw [h] at k; exact k

theorem gote_keeps {r : Got} {x : Exc} {s : State} (h : r = .exc x s) (k : Keeps W Q L r.st) : Keeps W Q L s := by
  rw [h] at k; exact k

theorem gots_keeps {r : Got} {s : State} (h : r = .stop s) (k : Keeps W Q L r.st) : Keeps W Q L s := by
  rw [h] at k; exact k

theorem fs_keeps {r : Front} {s : State} (h : r = .stop s) (k : Keeps W Q L r.st) : Keeps W Q L s := by
  rw [h] at k; exact k

theorem fk_keeps {r : Front} {s : State} (h : r = .skip s) (k : Keeps W Q L r.st) : Keeps W Q L s := by
  rw [h] at k; exact k

theorem fg_keeps {r : Front} {s : State} (h : r = .go s) (k : Keeps W Q L r.st) : Keeps W Q L s := by
  rw [h] at k; exact k
variable {G : Prop}

theorem pairThen_keeps {α : Type} {p : α × State} {a : α} {s : State} (h : p = (a, s)) (k : Keeps W Q L p.2) (g : Keeps W Q L s → G) : G := by
  rw [h] at k; exact g k

theorem pair3Then_keeps {α β : Type} {p : α × β × State} {a : α} {b : β} {s : State} (h : p = (a, b, s)) (k : Keeps W Q L p.2.2) (g : Keeps W Q L s → G) : G := by
  rw [h] at k; exact g k

theorem stThen_keeps {r : Res} {s : State} (h : r = .done s) (k : Keeps W Q L r.st) (g : Keeps W Q L s → G) : G := by
  rw [h] at k; exact g k

theorem steThen_keeps {r : Res} {x : Exc} {s : State} (h : r = .exc x s) (k : Keeps W Q L r.st) (g : Keeps W Q L s → G) : G := by
  rw [h] at k; exact g k

theorem stwThen_keeps {r : Res} {s : State} (h : r = .wait s) (k : Keeps W Q L r.st) (g : Keeps W Q L s → G) : G := by
  rw [h] at k; exact g k

theorem gotThen_keeps {r : Got} {l : List Byte} {s : State} (h : r = .bytes l s) (k : Keeps W Q L r.st) (g : Keeps W Q L s → G) : G := by
  rw [h] at k; exact g k

theorem goteThen_keeps {r : Got} {x : Exc} {s : State} (h : r = .exc x s) (k : Keeps W Q L r.st) (g : Keeps W Q L s → G) : G := by
  rw [h] at k; exact g k

theorem gotsThen_keeps {r : Got} {s : State} (h : r = .stop s) (k : Keeps W Q L r.st) (g : Keeps W Q L s → G) : G := by
  rw [h] at k; exact g k

theorem fsThen_keeps {r : Front} {s : State} (h : r = .stop s) (k : Keeps W Q L r.st) (g : Keeps W Q L s → G) : G := by
  rw [h] at k; exact g k

theorem fkThen_keeps {r : Front} {s : State} (h : r = .skip s) (k : Keeps W Q L r.st) (g : Keeps W Q L s → G) : G := by
  rw [h] at k; exact g k

theorem fgThen_keeps {r : Front} {s : State} (h : r = .go s) (k : Keeps W Q L r.st) (g : Keeps W Q L s → G) : G := by
  rw [h] at k; exact g k

theorem ite_keeps {c : Prop} [Decidable c] {a b : State} (ha : Keeps W Q L a) (hb : Keeps W Q L b) : Keeps W Q L (if c then a else b) := by
  split
  · exact ha
  · exact hb

theorem itep_keeps {α : Type} {c : Prop} [Decidable c] {a b : α × State} (ha : Keeps W Q L a.2) (hb : Keeps W Q L b.2) :
    Keeps W Q L (if c then a else b).2 := by
  split
  · exact ha
  · exact hb

theorem iter_keeps {c : Prop} [Decidable c] {a b : Res} (ha : Keeps W Q L a.st) (hb : Keeps W Q L b.st) :
    Keeps W Q L (if c then a else b).st := by
  split
  · exact ha
  · exact hb

theorem iteg_keeps {c : Prop} [Decidable c] {a b : Got} (ha : Keeps W Q L a.st) (hb : Keeps W Q L b.st) :
    Keeps W Q L (if c then a else b).st := by
  split
  · exact ha
  · exact hb

theorem foldl_keeps {α : Type} (g : State → α → State) (hg : ∀ s x s', g s x = s' → Keeps W Q L s → Keeps W Q L s') (l : List α)
    (s : State) (h : Keeps W Q L s) : Keeps W Q L (l.foldl g s) := by
  induction l generalizing s with
  | nil => exact h
  | cons a l ih => rw [List.foldl_cons]; exact ih _ (hg s a _ rfl h)

theorem foldl2_keeps {α β : Type} (g : β × State → α → β × State) (hg : ∀ r x r', g r x = r' → Keeps W Q L r.2 → Keeps W Q L r'.2)
    (l : List α) (r : β × State) (h : Keeps W Q L r.2) : Keeps W Q L (l.foldl g r).2 := by
  induction l generalizing r with
  | nil => exact h
  | cons a l ih => rw [List.foldl_cons]; exact ih _ (hg r a _ rfl h)

theorem foldl3_keeps {α β γ : Type} (g : γ × β × State → α → γ × β × State)
    (hg : ∀ r x r', g r x = r' → Keeps W Q L r.2.2 → Keeps W Q L r'.2.2) (l : List α) (r : γ × β × State) (h : Keeps W Q L r.2.2) :
    Keeps W Q L (l.foldl g r).2.2 := by
  induction l generalizing r with
  | nil => exact h
  | cons a l ih => rw [List.foldl_cons]; exact ih _ (hg r a _ rfl h)
end

end Sys2Proof.Machine
end

