-- ==== Sys2Proof/Laws/KeepsUnits.lean ====
section
/-! SUPPORT. Keeps of the operations of units, statistics, faults, access tables, grants, caches, transactions, coherence and lifecycles. -/

set_option Elab.async false

namespace Sys2Proof.Machine

variable {W : Prop} {Q : List Instr} {L : Limited → Prop}

theorem State_updPu_keeps (s : State) (n : Nat) (f : Pu → Pu) (hk : Keeps W Q L s) : Keeps W Q L (State.updPu s n f) := by
  rw [State.updPu.eq_def]
  repeat' with_reducible exact Keeps.of (by assumption)

theorem State_updThr_keeps (s : State) (n : Nat) (th : Bool) (f : Thread → Thread) (hk : Keeps W Q L s) : Keeps W Q L (State.updThr s n th f) := by
  rw [State.updThr.eq_def]
  repeat' with_reducible (first | assumption | refine State_updPu_keeps (hk := ?_) ..)

theorem State_setThr_keeps (s : State) (n : Nat) (th : Bool) (t : Thread) (hk : Keeps W Q L s) : Keeps W Q L (State.setThr s n th t) := by
  rw [State.setThr.eq_def]
  repeat' with_reducible (first | assumption | refine State_updPu_keeps (hk := ?_) ..)

theorem State_updZone_keeps (s : State) (z : Nat) (f : Zone → Zone) (hk : Keeps W Q L s) : Keeps W Q L (State.updZone s z f) := by
  rw [State.updZone.eq_def]
  repeat' with_reducible exact Keeps.of (by assumption)

theorem State_setLc_keeps (s : State) (f : Fn) (l : Lc) (hk : Keeps W Q L s) : Keeps W Q L (State.setLc s f l) := by
  rw [State.setLc.eq_def]
  repeat' with_reducible exact Keeps.of (by assumption)

theorem State_updFlt_keeps (s : State) (b : Blk) (f : FaultRegs → FaultRegs) (hk : Keeps W Q L s) : Keeps W Q L (State.updFlt s b f) := by
  rw [State.updFlt.eq_def]
  repeat' with_reducible exact Keeps.of (by assumption)

theorem State_updTab_keeps (s : State) (t : TabId) (f : AccTab → AccTab) (hk : Keeps W Q L s) : Keeps W Q L (State.updTab s t f) := by
  rw [State.updTab.eq_def]
  repeat' with_reducible exact Keeps.of (by assumption)

theorem State_updMc_keeps (s : State) (m : Nat) (f : Mc → Mc) (hk : Keeps W Q L s) : Keeps W Q L (State.updMc s m f) := by
  rw [State.updMc.eq_def]
  repeat' with_reducible exact Keeps.of (by assumption)

theorem State_updGrp_keeps (s : State) (g : Nat) (f : Group → Group) (hk : Keeps W Q L s) : Keeps W Q L (State.updGrp s g f) := by
  rw [State.updGrp.eq_def]
  repeat' with_reducible exact Keeps.of (by assumption)

theorem State_updCe_keeps (s : State) (n : Nat) (f : Ce → Ce) (hk : Keeps W Q L s) : Keeps W Q L (State.updCe s n f) := by
  rw [State.updCe.eq_def]
  repeat' with_reducible exact Keeps.of (by assumption)

theorem State_updLink_keeps (s : State) (n : Nat) (f : Link → Link) (hk : Keeps W Q L s) : Keeps W Q L (State.updLink s n f) := by
  rw [State.updLink.eq_def]
  repeat' with_reducible exact Keeps.of (by assumption)

theorem State_updLe_keeps (s : State) (n : Nat) (f : Le → Le) (hk : Keeps W Q L s) : Keeps W Q L (State.updLe s n f) := by
  rw [State.updLe.eq_def]
  repeat' with_reducible exact Keeps.of (by assumption)

theorem State_updIsland_keeps (s : State) (i : Island) (f : IslandSt → IslandSt) (hk : Keeps W Q L s) : Keeps W Q L (State.updIsland s i f) := by
  rw [State.updIsland.eq_def]
  repeat' with_reducible exact Keeps.of (by assumption)

theorem State_updBox_keeps (s : State) (z : Nat) (f : Mailbox → Mailbox) (hk : Keeps W Q L s) : Keeps W Q L (State.updBox s z f) := by
  rw [State.updBox.eq_def]
  repeat' with_reducible exact Keeps.of (by assumption)

theorem State_updSlice_keeps (s : State) (comp : Bool) (n : Nat) (f : Slice → Slice) (hk : Keeps W Q L s) : Keeps W Q L (State.updSlice s comp n f) := by
  rw [State.updSlice.eq_def]
  repeat' with_reducible (first | exact Keeps.of (by assumption) | refine ite_keeps ?_ ?_)

theorem State_draw_keeps (s : State) (w : Nat) (hk : Keeps W Q L s) : Keeps W Q L (State.draw s w).2 := by
  rw [State.draw.eq_def]
  repeat' with_reducible exact Keeps.of (by assumption)

theorem State_setEntry_keeps (s : State) (idx sub v : Nat) (hk : Keeps W Q L s) : Keeps W Q L (State.setEntry s idx sub v) := by
  rw [State.setEntry.eq_def]
  repeat' with_reducible exact Keeps.of (by assumption)

theorem histAdd_keeps (h b n : Nat) (s : State) (hk : Keeps W Q L s) : Keeps W Q L (histAdd h b n s) := by
  rw [histAdd.eq_def]
  repeat' with_reducible exact Keeps.of (by assumption)

theorem extAdd_keeps (k : Nat) (v : Int) (s : State) (hk : Keeps W Q L s) : Keeps W Q L (extAdd k v s) := by
  rw [extAdd.eq_def]
  repeat' with_reducible exact Keeps.of (by assumption)

theorem grantWait_keeps (t : Word) (s : State) (hk : Keeps W Q L s) : Keeps W Q L (grantWait t s) := by
  rw [grantWait.eq_def]
  repeat' with_reducible (first | assumption | refine histAdd_keeps (hk := ?_) .. | refine extAdd_keeps (hk := ?_) ..)

theorem acceptWait_keeps (t : Word) (s : State) (hk : Keeps W Q L s) : Keeps W Q L (acceptWait t s) := by
  rw [acceptWait.eq_def]
  repeat' with_reducible (first | exact Keeps.of (by assumption) | refine ite_keeps ?_ ?_ | refine histAdd_keeps (hk := ?_) ..)

theorem lockstepWait_keeps (t : Word) (s : State) (hk : Keeps W Q L s) : Keeps W Q L (lockstepWait t s) := by
  rw [lockstepWait.eq_def]
  repeat' with_reducible (first | assumption | refine histAdd_keeps (hk := ?_) ..)

theorem gapWait_keeps (t : Word) (s : State) (hk : Keeps W Q L s) : Keeps W Q L (gapWait t s) := by
  rw [gapWait.eq_def]
  repeat' with_reducible (first | assumption | refine extAdd_keeps (hk := ?_) ..)

theorem answerWait_keeps (t : Word) (s : State) (hk : Keeps W Q L s) : Keeps W Q L (answerWait t s) := by
  rw [answerWait.eq_def]
  repeat' with_reducible (first | assumption | refine histAdd_keeps (hk := ?_) ..)

theorem closeGate_keeps (g : Nat) (s : State) (hk : Keeps W Q L s) : Keeps W Q L (closeGate g s) := by
  rw [closeGate.eq_def]
  repeat' with_reducible (first | assumption | exact Keeps.of (by assumption) | refine ite_keeps ?_ ?_)

theorem closeGates_keeps (s : State) (hk : Keeps W Q L s) : Keeps W Q L (closeGates s) := by
  rw [closeGates.eq_def]
  repeat' (first | with_reducible (first | assumption | refine ite_keeps ?_ ?_ | refine closeGate_keeps (hk := ?_) .. | refine foldl_keeps _ ?_ _ _ ?_) | (intro _ _ _ e _; subst e; (try simp only [])))

theorem canSend_keeps (service prio : Nat) (dst : Nat) (tgl : Bool) (data : List Byte) (busB : Bool) (s : State) (hk : Keeps W Q L s) : Keeps W Q L (canSend service prio dst tgl data busB s) := by
  rw [canSend.eq_def]
  repeat' with_reducible (first | assumption | exact Keeps.of (by assumption) | refine ite_keeps ?_ ?_)

theorem canBroadcast_keeps (service prio : Nat) (data : List Byte) (s : State) (hk : Keeps W Q L s) : Keeps W Q L (canBroadcast service prio data s) := by
  rw [canBroadcast.eq_def]
  repeat' with_reducible (first | assumption | refine canSend_keeps (hk := ?_) ..)

theorem dropXfer_keeps (busB : Bool) (c : BitVec 7) (s : State) (hk : Keeps W Q L s) : Keeps W Q L (dropXfer busB c s) := by
  rw [dropXfer.eq_def]
  repeat' with_reducible exact Keeps.of (by assumption)

theorem writeRsp_keeps (busB : Bool) (c : BitVec 7) (r : DictReq) (code : Nat) (s : State) (hk : Keeps W Q L s) : Keeps W Q L (writeRsp busB c r code s) := by
  rw [writeRsp.eq_def]
  repeat' with_reducible (first | assumption | refine canSend_keeps (hk := ?_) ..)

theorem writeAnswer_keeps (i : K3Item) (code : Nat) (s : State) (hk : Keeps W Q L s) : Keeps W Q L (writeAnswer i code s) := by
  rw [writeAnswer.eq_def]
  repeat' (first | with_reducible (first | assumption | refine State_updBox_keeps (hk := ?_) .. | refine answerWait_keeps (hk := ?_) .. | refine dropXfer_keeps (hk := ?_) .. | refine writeRsp_keeps (hk := ?_) ..) | split)

theorem answerMode_keeps (item : Option K3Item) (code : Nat) (s : State) (hk : Keeps W Q L s) : Keeps W Q L (answerMode item code s) := by
  rw [answerMode.eq_def]
  repeat' (first | with_reducible (first | assumption | exact Keeps.of (by assumption) | refine writeAnswer_keeps (hk := ?_) ..) | split)

theorem answerWaited_keeps (r : ModeReq) (code : Nat) (s : State) (hk : Keeps W Q L s) : Keeps W Q L (answerWaited r code s) := by
  rw [answerWaited.eq_def]
  repeat' with_reducible (first | assumption | refine ite_keeps ?_ ?_ | refine answerMode_keeps (hk := ?_) ..)

theorem notice_keeps (l : List Byte) (s : State) (hk : Keeps W Q L s) : Keeps W Q L (notice l s) := by
  rw [notice.eq_def]
  repeat' with_reducible (first | assumption | refine canBroadcast_keeps (hk := ?_) ..)

theorem enckeFault_keeps (b : Blk) (cls n : Nat) (s : State) (hk : Keeps W Q L s) : Keeps W Q L (enckeFault b cls n s) := by
  rw [enckeFault.eq_def]
  repeat' with_reducible exact Keeps.of (by assumption)

theorem stormCount_keeps (b : Blk) (src : Nat) (s : State) (hk : Keeps W Q L s) : Keeps W Q L (stormCount b src s) := by
  rw [stormCount.eq_def]
  repeat' with_reducible (first | exact Keeps.of (by assumption) | refine ite_keeps ?_ ?_)

theorem latch_keeps (b : Blk) (src inst info cls : Nat) (s : State) (hk : Keeps W Q L s) : Keeps W Q L (latch b src inst info cls s) := by
  rw [latch.eq_def]
  repeat' (first | with_reducible (first | assumption | refine ite_keeps ?_ ?_ | refine State_updFlt_keeps (hk := ?_) .. | refine closeGate_keeps (hk := ?_) .. | refine enckeFault_keeps (hk := ?_) .. | refine stormCount_keeps (hk := ?_) ..) | split | simp only [id_eq])

theorem setMode_keeps (m : Mode) (cause : Nat) (s : State) (hk : Keeps W Q L s) : Keeps W Q L (setMode m cause s) := by
  rw [setMode.eq_def]
  repeat' with_reducible (first | exact Keeps.of (by assumption) | refine closeGates_keeps (hk := ?_) .. | refine notice_keeps (hk := ?_) ..)

theorem debugOff_keeps (s : State) (hk : Keeps W Q L s) : Keeps W Q L (debugOff s) := by
  rw [debugOff.eq_def]
  repeat' with_reducible exact Keeps.of (by assumption)

theorem cancelRequest_keeps (s : State) (hk : Keeps W Q L s) : Keeps W Q L (cancelRequest s) := by
  rw [cancelRequest.eq_def]
  repeat' (first | with_reducible (first | assumption | exact Keeps.of (by assumption) | refine answerWaited_keeps (hk := ?_) .. | refine foldl_keeps _ ?_ _ _ ?_) | (intro _ _ _ e _; subst e; (try simp only [])))

theorem loseStores_keeps (s : State) (hk : Keeps W Q L s) : Keeps W Q L (loseStores s) := by
  rw [loseStores.eq_def]
  repeat' with_reducible exact Keeps.of (by assumption)

theorem enterCheckstop_keeps (salvage : Bool) (s : State) (hk : Keeps W Q L s) : Keeps W Q L (enterCheckstop salvage s) := by
  rw [enterCheckstop.eq_def]
  repeat' with_reducible (first | assumption | refine ite_keeps ?_ ?_ | refine cancelRequest_keeps (hk := ?_) .. | refine Keeps.of (setMode_keeps (hk := ?_) ..) | refine Keeps.of (debugOff_keeps (hk := ?_) ..) | refine Keeps.of (loseStores_keeps (hk := ?_) ..))

theorem chkRecord_keeps (b : Blk) (src : Nat) (s : State) (hk : Keeps W Q L s) : Keeps W Q L (chkRecord b src s) := by
  rw [chkRecord.eq_def]
  repeat' with_reducible exact Keeps.of (by assumption)

theorem raiseC4_keeps (b : Blk) (src inst info : Nat) (salvage : Bool) (s : State) (hk : Keeps W Q L s) : Keeps W Q L (raiseC4 b src inst info salvage s) := by
  rw [raiseC4.eq_def]
  repeat' with_reducible (first | assumption | refine latch_keeps (hk := ?_) .. | refine enterCheckstop_keeps (hk := ?_) .. | refine chkRecord_keeps (hk := ?_) ..)

theorem deny_keeps (t : TabId) (a : Acc) (addr : Nat) (k : AccKind) (cls : Nat) (s : State) (hk : Keeps W Q L s) : Keeps W Q L (deny t a addr k cls s) := by
  rw [deny.eq_def]
  repeat' with_reducible (first | assumption | refine State_updTab_keeps (hk := ?_) .. | refine latch_keeps (hk := ?_) ..)

theorem State_wr_keeps (s : State) (a : Nat) (l : List Byte) (hk : Keeps W Q L s) : Keeps W Q L (State.wr s a l) := by
  rw [State.wr.eq_def]
  exact ⟨hk.1, hk.2, fun w => memPut_wf _ _ _ (hk.3 w), hk.4⟩

theorem State_flushLine_keeps (s : State) (l : Nat) (hk : Keeps W Q L s) : Keeps W Q L (State.flushLine s l) := by
  rw [State.flushLine.eq_def]
  exact ⟨hk.1, hk.2, hk.3, fun w => copyLine_wf _ _ _ (hk.4 w)⟩

theorem State_dropLine_keeps (s : State) (l : Nat) (hk : Keeps W Q L s) : Keeps W Q L (State.dropLine s l) := by
  rw [State.dropLine.eq_def]
  exact ⟨hk.1, hk.2, fun w => copyLine_wf _ _ _ (hk.3 w), hk.4⟩

theorem State_wrThrough_keeps (s : State) (a : Nat) (l : List Byte) (hk : Keeps W Q L s) : Keeps W Q L (State.wrThrough s a l) := by
  rw [State.wrThrough.eq_def]
  exact ⟨hk.1, hk.2, fun w => memPut_wf _ _ _ (hk.3 w), fun w => memPut_wf _ _ _ (hk.4 w)⟩

theorem State_addPoison_keeps (s : State) (l : Nat) (hk : Keeps W Q L s) : Keeps W Q L (State.addPoison s l) := by
  rw [State.addPoison.eq_def]
  repeat' with_reducible (first | assumption | exact Keeps.of (by assumption) | refine ite_keeps ?_ ?_)

theorem State_clearPoison_keeps (s : State) (l : Nat) (hk : Keeps W Q L s) : Keeps W Q L (State.clearPoison s l) := by
  rw [State.clearPoison.eq_def]
  repeat' with_reducible exact Keeps.of (by assumption)

theorem masterFault_keeps (a : Acc) (pa : Nat) (s : State) (hk : Keeps W Q L s) : Keeps W Q L (masterFault a pa s) := by
  rw [masterFault.eq_def]
  repeat' with_reducible (first | assumption | refine ite_keeps ?_ ?_ | refine State_draw_keeps (hk := ?_) .. | refine latch_keeps (hk := ?_) ..)

theorem dramAnswer_keeps (a : Acc) (pa : Nat) (k : AccKind) (cls : Nat) (s : State) (hk : Keeps W Q L s) : Keeps W Q L (dramAnswer a pa k cls s).2 := by
  rw [dramAnswer.eq_def]
  repeat' with_reducible (first | assumption | refine itep_keeps ?_ ?_ | refine deny_keeps (hk := ?_) .. | refine masterFault_keeps (hk := ?_) ..)

theorem fencedSender_keeps (a : Acc) (pa : Nat) (s : State) (hk : Keeps W Q L s) : Keeps W Q L (fencedSender a pa s) := by
  rw [fencedSender.eq_def]
  repeat' with_reducible (first | assumption | refine latch_keeps (hk := ?_) ..)

theorem asked_keeps (a : Acc) (pa : Nat) (k : AccKind) (cls : Nat) (s : State) (hk : Keeps W Q L s) : Keeps W Q L (asked a pa k cls s).2 := by
  rw [asked.eq_def]
  repeat' (first | with_reducible (first | assumption | refine ite_keeps ?_ ?_ | refine dramAnswer_keeps (hk := ?_) .. | refine pair_keeps (by assumption) (dramAnswer_keeps (hk := ?_) ..) | refine fencedSender_keeps (hk := ?_) ..) | split)

theorem giveGrant_keeps (b : Nat) (s : State) (hk : Keeps W Q L s) : Keeps W Q L (giveGrant b s) := by
  rw [giveGrant.eq_def]
  repeat' with_reducible (first | assumption | exact Keeps.of (by assumption) | refine ite_keeps ?_ ?_)

theorem startCleaning_keeps (s : State) (hk : Keeps W Q L s) : Keeps W Q L (startCleaning s) := by
  rw [startCleaning.eq_def]
  repeat' (first | with_reducible (first | assumption | exact Keeps.of (by assumption) | refine ite_keeps ?_ ?_) | split)

theorem serveQueue_keeps (y0 : List GrantReq) (y1 : State) (hk : Keeps W Q L y1) : Keeps W Q L (serveQueue y0 y1) := by
  revert hk
  fun_induction serveQueue y0 y1 <;> intro hk <;> (repeat' with_reducible (first | assumption | exact Keeps.of (by assumption) | refine ‹Keeps _ _ _ _ → Keeps _ _ _ _› ?_ | refine grantWait_keeps (hk := ?_) .. | refine giveGrant_keeps (hk := ?_) ..))

theorem serveGrants_keeps (s : State) (hk : Keeps W Q L s) : Keeps W Q L (serveGrants s) := by
  rw [serveGrants.eq_def]
  repeat' with_reducible (first | assumption | refine startCleaning_keeps (hk := ?_) .. | refine serveQueue_keeps (hk := ?_) ..)

theorem openRegion_keeps (s : State) (hk : Keeps W Q L s) : Keeps W Q L (openRegion s) := by
  rw [openRegion.eq_def]
  repeat' with_reducible (first | assumption | exact Keeps.of (by assumption) | refine ite_keeps ?_ ?_ | refine serveGrants_keeps (hk := ?_) ..)

theorem grantAll_keeps (s : State) (hk : Keeps W Q L s) : Keeps W Q L (grantAll s) := by
  rw [grantAll.eq_def]
  repeat' (first | with_reducible (first | assumption | exact Keeps.of (by assumption) | refine ite_keeps ?_ ?_ | refine grantWait_keeps (hk := ?_) .. | refine giveGrant_keeps (hk := ?_) .. | refine foldl_keeps _ ?_ _ _ ?_) | (intro _ _ _ e _; subst e; (try simp only [])))

theorem askGrant_keeps (a : Acc) (b : Nat) (s : State) (hk : Keeps W Q L s) : Keeps W Q L (askGrant a b s).2 := by
  rw [askGrant.eq_def]
  repeat' with_reducible (first | assumption | exact Keeps.of (by assumption) | refine ite_keeps ?_ ?_ | refine itep_keeps ?_ ?_ | refine grantWait_keeps (hk := ?_) .. | refine giveGrant_keeps (hk := ?_) .. | refine startCleaning_keeps (hk := ?_) .. | refine Keeps.of (ite_keeps ?_ ?_))

theorem updDir_keeps (i : Nat) (f : DirWay → DirWay) (s : State) (hk : Keeps W Q L s) : Keeps W Q L (updDir i f s) := by
  rw [updDir.eq_def]
  repeat' with_reducible exact Keeps.of (by assumption)

theorem updL3_keeps (i : Nat) (f : L3Way → L3Way) (s : State) (hk : Keeps W Q L s) : Keeps W Q L (updL3 i f s) := by
  rw [updL3.eq_def]
  repeat' with_reducible exact Keeps.of (by assumption)

theorem dirClear_keeps (agent l : Nat) (s : State) (hk : Keeps W Q L s) : Keeps W Q L (dirClear agent l s) := by
  rw [dirClear.eq_def]
  repeat' (first | with_reducible (first | assumption | refine updDir_keeps (hk := ?_) ..) | split)

theorem dirFree_keeps (l : Nat) (s : State) (hk : Keeps W Q L s) : Keeps W Q L (dirFree l s) := by
  rw [dirFree.eq_def]
  repeat' (first | with_reducible (first | assumption | refine updDir_keeps (hk := ?_) ..) | split)

theorem l3Remove_keeps (l : Nat) (s : State) (hk : Keeps W Q L s) : Keeps W Q L (l3Remove l s) := by
  rw [l3Remove.eq_def]
  repeat' (first | with_reducible (first | assumption | refine updL3_keeps (hk := ?_) ..) | split)

theorem l3Insert_keeps (l : Nat) (dirty : Bool) (age : Nat) (s : State) (hk : Keeps W Q L s) : Keeps W Q L (l3Insert l dirty age s) := by
  rw [l3Insert.eq_def]
  repeat' (first | with_reducible (first | assumption | refine ite_keeps ?_ ?_ | refine State_flushLine_keeps (hk := ?_) .. | refine updL3_keeps (hk := ?_) .. | refine foldl_keeps _ ?_ _ _ ?_) | (intro _ _ _ e _; subst e; (try simp only [])) | split | simp only [])

theorem l3Fill_keeps (l age : Nat) (s : State) (hk : Keeps W Q L s) : Keeps W Q L (l3Fill l age s) := by
  rw [l3Fill.eq_def]
  repeat' with_reducible (first | assumption | refine l3Insert_keeps (hk := ?_) ..)

theorem commitOut_keeps (a : Acc) (l : Nat) (s : State) (hk : Keeps W Q L s) : Keeps W Q L (commitOut a l s).2 := by
  rw [commitOut.eq_def]
  repeat' (first | with_reducible (first | assumption | refine State_flushLine_keeps (hk := ?_) .. | refine pair_keeps (by assumption) (askGrant_keeps (hk := ?_) ..) | refine pairThen_keeps (by assumption) (askGrant_keeps (hk := ?_) ..) (fun e => Keeps.of e)) | split)

theorem drainWbuf_keeps (s : State) (hk : Keeps W Q L s) : Keeps W Q L (drainWbuf s) := by
  rw [drainWbuf.eq_def]
  repeat' (first | with_reducible (first | assumption | refine ite_keeps ?_ ?_ | refine foldl_keeps _ ?_ _ _ ?_ | refine Keeps.of (State_flushLine_keeps (hk := ?_) ..)) | (intro _ _ _ e _; subst e; (try simp only [])))

theorem writeBack_keeps (a : Acc) (l : Nat) (s : State) (hk : Keeps W Q L s) : Keeps W Q L (writeBack a l s) := by
  rw [writeBack.eq_def]
  repeat' with_reducible (first | assumption | refine ite_keeps ?_ ?_ | refine l3Insert_keeps (hk := ?_) .. | refine commitOut_keeps (hk := ?_) ..)

theorem waitIn_keeps (n : Nat) (th : Bool) (l : Nat) (own : Bool) (age : Nat) (s : State) (hk : Keeps W Q L s) : Keeps W Q L (waitIn n th l own age s) := by
  rw [waitIn.eq_def]
  repeat' with_reducible (first | assumption | exact Keeps.of (by assumption) | refine ite_keeps ?_ ?_)

theorem waitOut_keeps (n : Nat) (th : Bool) (l : Nat) (s : State) (hk : Keeps W Q L s) : Keeps W Q L (waitOut n th l s) := by
  rw [waitOut.eq_def]
  repeat' with_reducible exact Keeps.of (by assumption)

theorem dropWaits_keeps (n : Nat) (th : Bool) (p : HomeCmd → Bool) (s : State) (hk : Keeps W Q L s) : Keeps W Q L (dropWaits n th p s) := by
  rw [dropWaits.eq_def]
  repeat' with_reducible exact Keeps.of (by assumption)

theorem cancelWaits_keeps (n : Nat) (th : Bool) (s : State) (hk : Keeps W Q L s) : Keeps W Q L (cancelWaits n th s) := by
  rw [cancelWaits.eq_def]
  repeat' with_reducible (first | assumption | refine Keeps.of (dropWaits_keeps (hk := ?_) ..))

theorem block_keeps (b : Blocked) (s : State) (hk : Keeps W Q L s) : Keeps W Q L (block b s) := by
  rw [block.eq_def]
  repeat' with_reducible exact Keeps.of (by assumption)

theorem standBy_keeps (b : Blocked) (s : State) (hk : Keeps W Q L s) : Keeps W Q L (standBy b s) := by
  rw [standBy.eq_def]
  repeat' (first | with_reducible (first | assumption | exact Keeps.of (by assumption) | refine ite_keeps ?_ ?_) | split)

theorem lineOut_keeps (a : Acc) (l : Nat) (s : State) (hk : Keeps W Q L s) : Keeps W Q L (lineOut a l s) := by
  rw [lineOut.eq_def]
  repeat' with_reducible exact Keeps.of (by assumption)

theorem arbOut_keeps (o : ArbOp) (s : State) (hk : Keeps W Q L s) : Keeps W Q L (arbOut o s) := by
  rw [arbOut.eq_def]
  repeat' with_reducible exact Keeps.of (by assumption)

theorem standing_keeps (s r : State) (hk : Keeps W Q L s) : Keeps W Q L (standing s r) := by
  rw [standing.eq_def]
  exact foldl_keeps _ (fun s x s' e h => by subst e; exact standBy_keeps (hk := h) ..) _ _ ⟨hk.1, hk.2, hk.3, hk.4⟩

theorem orWait_keeps (f : State → State) (s : State) (hf : ∀ x0, Keeps W Q L x0 → Keeps W Q L (f x0)) (hk : Keeps W Q L s) : Keeps W Q L (orWait f s) := by
  rw [orWait.eq_def]
  split
  · exact hf _ hk
  · exact standing_keeps (hk := hk) ..

theorem dropFills_keeps (n : Nat) (th : Bool) (s : State) (hk : Keeps W Q L s) : Keeps W Q L (dropFills n th s) := by
  rw [dropFills.eq_def]
  repeat' with_reducible exact Keeps.of (by assumption)

theorem dropTx_keeps (n : Nat) (th : Bool) (s : State) (hk : Keeps W Q L s) : Keeps W Q L (dropTx n th s) := by
  rw [dropTx.eq_def]
  repeat' (first | with_reducible (first | assumption | refine ite_keeps ?_ ?_ | refine State_updPu_keeps (hk := ?_) .. | refine State_updThr_keeps (hk := ?_) .. | refine dirClear_keeps (hk := ?_) .. | refine dropWaits_keeps (hk := ?_) .. | refine foldl_keeps _ ?_ _ _ ?_ | refine Keeps.of (dropFills_keeps (hk := ?_) ..)) | (intro _ _ _ e _; subst e; (try simp only [])) | split)

theorem diagStore_keeps (n : Nat) (th : Bool) (pa : Nat) (block : List Byte) (s : State) (hk : Keeps W Q L s) : Keeps W Q L (diagStore n th pa block s) := by
  rw [diagStore.eq_def]
  repeat' (first | with_reducible (first | assumption | refine State_updPu_keeps (hk := ?_) .. | refine State_wr_keeps (hk := ?_) .. | refine dirClear_keeps (hk := ?_) .. | refine writeBack_keeps (hk := ?_) .. | refine foldl_keeps _ ?_ _ _ ?_) | (intro _ _ _ e _; subst e; (try simp only [])))

theorem endReservations_keeps (l : Nat) (own : Option (Nat × Bool)) (s : State) (hk : Keeps W Q L s) : Keeps W Q L (endReservations l own s) := by
  rw [endReservations.eq_def]
  repeat' with_reducible exact Keeps.of (by assumption)

theorem diagAddr_keeps {s r : State} {n : Nat} {th : Bool} {txd : Word} (h : diagAddr s n th txd = .invalid r ∨ diagAddr s n th txd = .refused r)
    (hk : Keeps W Q L s) : Keeps W Q L r := by
  rw [diagAddr.eq_def] at h
  rcases h with h | h <;> (repeat' split at h) <;> cases h <;> first
    | exact hk
    | exact pair_keeps (by assumption) (dramAnswer_keeps (hk := hk) ..)

theorem abortTx_keeps (y0 : Nat) (y1 : Nat) (y2 : Bool) (y3 : Nat) (y4 : Option Nat) (y5 : Nat) (y6 : Bool) (y7 : Word) (y8 : Option (Word × Word)) (y9 : State) (hk : Keeps W Q L y9) : Keeps W Q L (abortTx y0 y1 y2 y3 y4 y5 y6 y7 y8 y9) := by
  induction y0 generalizing y1 y2 y3 y4 y5 y6 y7 y8 y9 with
  | zero => rw [abortTx]; exact hk
  | succ k ih =>
    rw [abortTx]
    split
    · exact hk
    · simp only []
      split
      · exact State_updThr_keeps (hk := dropTx_keeps (hk := hk) ..) ..
      · split
        · rename_i e
          exact latch_keeps (hk := diagAddr_keeps (.inl e) (State_updThr_keeps (hk := dropTx_keeps (hk := hk) ..) ..)) ..
        · rename_i e
          exact diagAddr_keeps (.inr e) (State_updThr_keeps (hk := dropTx_keeps (hk := hk) ..) ..)
        · refine diagStore_keeps (hk := endReservations_keeps (hk := ?_) ..) ..
          refine foldl_keeps _ ?_ _ _ (State_updThr_keeps (hk := dropTx_keeps (hk := hk) ..) ..)
          intro s e _ h _; subst h
          (repeat' split) <;> first | with_reducible assumption | (apply ih; with_reducible assumption)

theorem abortOwn_keeps (n : Nat) (th : Bool) (code : Nat) (insn : Word) (s : State) (hk : Keeps W Q L s) : Keeps W Q L (abortOwn n th code insn s) := by
  rw [abortOwn.eq_def]
  repeat' with_reducible (first | assumption | refine abortTx_keeps (hk := ?_) ..)

theorem conflicts_keeps (l : Nat) (stores : Bool) (code : Option Nat) (req : Nat) (own : Option (Nat × Bool)) (s : State) (hk : Keeps W Q L s) : Keeps W Q L (conflicts l stores code req own s) := by
  rw [conflicts.eq_def]
  repeat' (first | with_reducible (first | assumption | refine ite_keeps ?_ ?_ | refine abortTx_keeps (hk := ?_) .. | refine foldl_keeps _ ?_ _ _ ?_) | (intro _ _ _ e _; subst e; (try simp only [])) | split)

theorem fencedCopy_keeps (agent l : Nat) (s : State) (hk : Keeps W Q L s) : Keeps W Q L (fencedCopy agent l s) := by
  rw [fencedCopy.eq_def]
  repeat' with_reducible (first | assumption | refine ite_keeps ?_ ?_ | refine State_updPu_keeps (hk := ?_) .. | refine State_dropLine_keeps (hk := ?_) .. | refine dirClear_keeps (hk := ?_) ..)

theorem loseCopy_keeps (agent l : Nat) (discard : Bool) (code : Option Nat) (req : Nat) (own : Option (Nat × Bool)) (s : State) (hk : Keeps W Q L s) : Keeps W Q L (loseCopy agent l discard code req own s) := by
  rw [loseCopy.eq_def]
  repeat' with_reducible (first | assumption | refine ite_keeps ?_ ?_ | refine State_updPu_keeps (hk := ?_) .. | refine dirClear_keeps (hk := ?_) .. | refine writeBack_keeps (hk := ?_) .. | refine conflicts_keeps (hk := ?_) .. | refine fencedCopy_keeps (hk := ?_) ..)

theorem loseOthers_keeps (me : Option Nat) (l : Nat) (discard : Bool) (code : Option Nat) (req : Nat) (own : Option (Nat × Bool)) (s : State) (hk : Keeps W Q L s) : Keeps W Q L (loseOthers me l discard code req own s) := by
  rw [loseOthers.eq_def]
  repeat' (first | with_reducible (first | assumption | refine ite_keeps ?_ ?_ | refine endReservations_keeps (hk := ?_) .. | refine conflicts_keeps (hk := ?_) .. | refine loseCopy_keeps (hk := ?_) .. | refine foldl_keeps _ ?_ _ _ ?_) | (intro _ _ _ e _; subst e; (try simp only [])))

theorem recallCommit_keeps (me : Option Nat) (l : Nat) (s : State) (hk : Keeps W Q L s) : Keeps W Q L (recallCommit me l s).2 := by
  rw [recallCommit.eq_def]
  repeat' (first | with_reducible (first | assumption | refine itep_keeps ?_ ?_ | refine State_updPu_keeps (hk := ?_) .. | refine State_flushLine_keeps (hk := ?_) .. | refine pair_keeps (by assumption) (askGrant_keeps (hk := ?_) ..) | refine dirClear_keeps (hk := ?_) .. | refine l3Insert_keeps (hk := ?_) .. | refine fencedCopy_keeps (hk := ?_) .. | refine Keeps.of (State_flushLine_keeps (hk := ?_) ..)) | split)

theorem shareOthers_keeps (me : Option Nat) (l : Nat) (s : State) (hk : Keeps W Q L s) : Keeps W Q L (shareOthers me l s) := by
  rw [shareOthers.eq_def]
  repeat' (first | with_reducible (first | assumption | refine ite_keeps ?_ ?_ | refine State_updPu_keeps (hk := ?_) .. | refine updDir_keeps (hk := ?_) .. | refine writeBack_keeps (hk := ?_) .. | refine fencedCopy_keeps (hk := ?_) .. | refine foldl_keeps _ ?_ _ _ ?_) | (intro _ _ _ e _; subst e; (try simp only [])) | split | simp only [])

theorem dirAlloc_keeps (agent l : Nat) (owned : Bool) (s : State) (hk : Keeps W Q L s) : Keeps W Q L (dirAlloc agent l owned s).2 := by
  rw [dirAlloc.eq_def]
  repeat' (first | with_reducible (first | assumption | refine updDir_keeps (hk := ?_) .. | refine dirFree_keeps (hk := ?_) .. | refine loseOthers_keeps (hk := ?_) .. | refine foldl_keeps _ ?_ _ _ ?_) | (intro _ _ _ e _; subst e; (try simp only [])) | split | simp only [])

theorem abortEvicted_keeps (n l : Nat) (s : State) (hk : Keeps W Q L s) : Keeps W Q L (abortEvicted n l s) := by
  rw [abortEvicted.eq_def]
  repeat' (first | with_reducible (first | assumption | refine ite_keeps ?_ ?_ | refine abortTx_keeps (hk := ?_) .. | refine foldl_keeps _ ?_ _ _ ?_) | (intro _ _ _ e _; subst e; (try simp only [])) | split)

theorem evictLine_keeps (n l : Nat) (s : State) (hk : Keeps W Q L s) : Keeps W Q L (evictLine n l s) := by
  rw [evictLine.eq_def]
  repeat' with_reducible (first | assumption | refine ite_keeps ?_ ?_ | refine State_updPu_keeps (hk := ?_) .. | refine dirClear_keeps (hk := ?_) .. | refine l3Insert_keeps (hk := ?_) .. | refine writeBack_keeps (hk := ?_) .. | refine abortEvicted_keeps (hk := ?_) ..)

theorem l2Room_keeps (n : Nat) (th : Bool) (l : Nat) (s : State) (hk : Keeps W Q L s) : Keeps W Q L (l2Room n th l s).2 := by
  rw [l2Room.eq_def]
  repeat' with_reducible (first | assumption | refine itep_keeps ?_ ?_ | refine abortTx_keeps (hk := ?_) ..)

theorem ceRoom_keeps (n l : Nat) (s : State) (hk : Keeps W Q L s) : Keeps W Q L (ceRoom n l s) := by
  rw [ceRoom.eq_def]
  repeat' with_reducible (first | assumption | refine ite_keeps ?_ ?_ | refine State_draw_keeps (hk := ?_) .. | refine evictLine_keeps (hk := ?_) ..)

theorem l2Install_keeps (n : Nat) (l : Nat) (st : CohState) (age : Nat) (s : State) (hk : Keeps W Q L s) : Keeps W Q L (l2Install n l st age s) := by
  rw [l2Install.eq_def]
  repeat' (first | with_reducible (first | assumption | refine State_updPu_keeps (hk := ?_) .. | refine evictLine_keeps (hk := ?_) .. | refine ceRoom_keeps (hk := ?_) ..) | split | simp only [])

theorem pinsLet_keeps (a : Acc) (stamp : Option Word) (l : Nat) (s : State) (hk : Keeps W Q L s) : Keeps W Q L (pinsLet a stamp l s).2 := by
  rw [pinsLet.eq_def]
  repeat' (first | with_reducible (first | assumption | refine itep_keeps ?_ ?_ | refine abortTx_keeps (hk := ?_) ..) | split)

theorem passPins_keeps (a : Acc) (stamp : Option Word) (l : Nat) (s : State) (hk : Keeps W Q L s) : Keeps W Q L (passPins a stamp l s).2 := by
  rw [passPins.eq_def]
  repeat' with_reducible (first | assumption | refine itep_keeps ?_ ?_ | refine pinsLet_keeps (hk := ?_) ..)

theorem pinLine_keeps (a : Acc) (stamp : Option Word) (l : Nat) (s : State) (hk : Keeps W Q L s) : Keeps W Q L (pinLine a stamp l s) := by
  rw [pinLine.eq_def]
  repeat' (first | with_reducible (first | assumption | exact Keeps.of (by assumption)) | split)

theorem dropStale_keeps (l : Nat) (s : State) (hk : Keeps W Q L s) : Keeps W Q L (dropStale l s) := by
  rw [dropStale.eq_def]
  repeat' (first | with_reducible (first | assumption | refine ite_keeps ?_ ?_ | refine dirClear_keeps (hk := ?_) .. | refine foldl_keeps _ ?_ _ _ ?_) | (intro _ _ _ e _; subst e; (try simp only [])))

theorem waitOrStop_keeps (n : Nat) (th : Bool) (l : Nat) (own : Bool) (age : Nat) (before s : State) (hk : Keeps W Q L s) : Keeps W Q L (waitOrStop n th l own age before s) := by
  rw [waitOrStop.eq_def]
  repeat' with_reducible (first | assumption | refine ite_keeps ?_ ?_ | refine waitIn_keeps (hk := ?_) ..)

theorem readyFor_keeps (n : Nat) (th : Bool) (l : Nat) (own : Bool) (stamp : Option Word) (s : State) (hk : Keeps W Q L s) : Keeps W Q L (readyFor n th l own stamp s).2 := by
  rw [readyFor.eq_def]
  repeat' (first | with_reducible (first | assumption | refine conflicts_keeps (hk := ?_) .. | refine pair_keeps (by assumption) (recallCommit_keeps (hk := ?_) ..) | refine l2Room_keeps (hk := ?_) .. | refine pair_keeps (by assumption) (passPins_keeps (hk := ?_) ..) | refine dropStale_keeps (hk := ?_) ..) | split | simp only [])

theorem homeFill_keeps (n l age : Nat) (s : State) (hk : Keeps W Q L s) : Keeps W Q L (homeFill n l age s) := by
  rw [homeFill.eq_def]
  repeat' with_reducible (first | assumption | refine ite_keeps ?_ ?_ | refine l3Fill_keeps (hk := ?_) ..)

theorem meetHeld_keeps (n : Nat) (th : Bool) (l age : Nat) (s : State) (hk : Keeps W Q L s) : Keeps W Q L (meetHeld n th l age s).2 := by
  rw [meetHeld.eq_def]
  repeat' (first | with_reducible (first | assumption | refine itep_keeps ?_ ?_ | refine waitIn_keeps (hk := ?_) .. | refine conflicts_keeps (hk := ?_) .. | refine pair_keeps (by assumption) (pinsLet_keeps (hk := ?_) ..)) | split)

theorem obtainShared_keeps (n : Nat) (th : Bool) (l : Nat) (age : Nat) (s : State) (hk : Keeps W Q L s) : Keeps W Q L (obtainShared n th l age s).2 := by
  rw [obtainShared.eq_def]
  repeat' (first | with_reducible (first | assumption | refine itep_keeps ?_ ?_ | refine State_updPu_keeps (hk := ?_) .. | refine waitIn_keeps (hk := ?_) .. | refine waitOut_keeps (hk := ?_) .. | refine shareOthers_keeps (hk := ?_) .. | refine pair_keeps (by assumption) (dirAlloc_keeps (hk := ?_) ..) | refine l2Install_keeps (hk := ?_) .. | refine waitOrStop_keeps (hk := ?_) .. | refine pair_keeps (by assumption) (readyFor_keeps (hk := ?_) ..) | refine homeFill_keeps (hk := ?_) .. | refine pair_keeps (by assumption) (meetHeld_keeps (hk := ?_) ..)) | split | simp only [])

theorem obtainOwned_keeps (n : Nat) (th : Bool) (l : Nat) (age : Nat) (s : State) (hk : Keeps W Q L s) : Keeps W Q L (obtainOwned n th l age s).2 := by
  rw [obtainOwned.eq_def]
  repeat' (first | with_reducible (first | assumption | refine itep_keeps ?_ ?_ | refine State_updPu_keeps (hk := ?_) .. | refine waitIn_keeps (hk := ?_) .. | refine waitOut_keeps (hk := ?_) .. | refine loseOthers_keeps (hk := ?_) .. | refine pair_keeps (by assumption) (dirAlloc_keeps (hk := ?_) ..) | refine l2Install_keeps (hk := ?_) .. | refine pinLine_keeps (hk := ?_) .. | refine waitOrStop_keeps (hk := ?_) .. | refine pair_keeps (by assumption) (readyFor_keeps (hk := ?_) ..) | refine homeFill_keeps (hk := ?_) ..) | split | simp only [])

theorem cleanTracked_keeps (n : Nat) (th : Bool) (l : Nat) (s : State) (hk : Keeps W Q L s) : Keeps W Q L (cleanTracked n th l s).2 := by
  rw [cleanTracked.eq_def]
  repeat' (first | with_reducible (first | assumption | refine State_updPu_keeps (hk := ?_) .. | refine State_flushLine_keeps (hk := ?_) .. | refine pair_keeps (by assumption) (askGrant_keeps (hk := ?_) ..)) | split)

theorem trackCommit_keeps (n : Nat) (th : Bool) (l : Nat) (s : State) (hk : Keeps W Q L s) : Keeps W Q L (trackCommit n th l s).2 := by
  rw [trackCommit.eq_def]
  repeat' (first | with_reducible (first | assumption | refine itep_keeps ?_ ?_ | refine State_updPu_keeps (hk := ?_) .. | refine cleanTracked_keeps (hk := ?_) ..) | split)

theorem flushPu_keeps (n : Nat) (s : State) (hk : Keeps W Q L s) : Keeps W Q L (flushPu n s) := by
  rw [flushPu.eq_def]
  repeat' (first | with_reducible (first | assumption | refine State_updPu_keeps (hk := ?_) .. | refine dirClear_keeps (hk := ?_) .. | refine evictLine_keeps (hk := ?_) .. | refine foldl_keeps _ ?_ _ _ ?_) | (intro _ _ _ e _; subst e; (try simp only [])))

theorem losePu_keeps (n : Nat) (s : State) (hk : Keeps W Q L s) : Keeps W Q L (losePu n s) := by
  rw [losePu.eq_def]
  repeat' (first | with_reducible (first | assumption | refine ite_keeps ?_ ?_ | refine State_updPu_keeps (hk := ?_) .. | refine State_dropLine_keeps (hk := ?_) .. | refine dirClear_keeps (hk := ?_) .. | refine cancelWaits_keeps (hk := ?_) .. | refine foldl_keeps _ ?_ _ _ ?_ | refine Keeps.of (cancelWaits_keeps (hk := ?_) ..)) | (intro _ _ _ e _; subst e; (try simp only [])))

theorem lcPower_keeps (f : Fn) (dst : LcState) (s : State) (hk : Keeps W Q L s) : Keeps W Q L (lcPower f dst s) := by
  rw [lcPower.eq_def]
  repeat' (first | with_reducible (first | assumption | refine ite_keeps ?_ ?_ | refine State_updPu_keeps (hk := ?_) .. | refine State_updCe_keeps (hk := ?_) .. | refine State_updIsland_keeps (hk := ?_) ..) | split)

theorem lcGo_keeps (f : Fn) (dst : LcState) (cause : Nat) (s : State) (hk : Keeps W Q L s) : Keeps W Q L (lcGo f dst cause s) := by
  rw [lcGo.eq_def]
  repeat' with_reducible (first | assumption | refine ite_keeps ?_ ?_ | refine State_setLc_keeps (hk := ?_) .. | refine lcPower_keeps (hk := ?_) .. | refine Keeps.of (lcPower_keeps (hk := ?_) ..))

theorem lcResult_keeps (f : Fn) (r : Nat) (s : State) (hk : Keeps W Q L s) : Keeps W Q L (lcResult f r s) := by
  rw [lcResult.eq_def]
  repeat' with_reducible (first | assumption | refine State_setLc_keeps (hk := ?_) ..)

theorem irqDiscard_keeps (z k : Nat) (s : State) (hk : Keeps W Q L s) : Keeps W Q L (irqDiscard z k s) := by
  rw [irqDiscard.eq_def]
  repeat' with_reducible (first | assumption | refine State_updZone_keeps (hk := ?_) ..)

theorem holdIrq_keeps (z n : Nat) (th : Bool) (q : Irq) (s : State) (hk : Keeps W Q L s) : Keeps W Q L (holdIrq z n th q s) := by
  rw [holdIrq.eq_def]
  repeat' with_reducible (first | assumption | refine ite_keeps ?_ ?_ | refine State_setThr_keeps (hk := ?_) .. | refine State_updZone_keeps (hk := ?_) .. | refine irqDiscard_keeps (hk := ?_) ..)

theorem pendIn_keeps (z n : Nat) (th : Bool) (vector : Nat) (prio : BitVec 4) (s : State) (hk : Keeps W Q L s) : Keeps W Q L (pendIn z n th vector prio s) := by
  rw [pendIn.eq_def]
  repeat' (first | with_reducible (first | assumption | refine State_updThr_keeps (hk := ?_) .. | refine State_updZone_keeps (hk := ?_) ..) | split)

theorem irqToThread_keeps (z : Nat) (q : Irq) (s : State) (hk : Keeps W Q L s) : Keeps W Q L (irqToThread z q s) := by
  rw [irqToThread.eq_def]
  repeat' (first | with_reducible (first | assumption | refine ite_keeps ?_ ?_ | refine latch_keeps (hk := ?_) .. | refine irqDiscard_keeps (hk := ?_) .. | refine holdIrq_keeps (hk := ?_) .. | refine pendIn_keeps (hk := ?_) ..) | split)

theorem routeIrq_keeps (z : Fin 16) (q : Irq) (s : State) (hk : Keeps W Q L s) : Keeps W Q L (routeIrq z q s) := by
  rw [routeIrq.eq_def]
  repeat' (first | with_reducible (first | assumption | refine ite_keeps ?_ ?_ | refine State_updZone_keeps (hk := ?_) .. | refine irqDiscard_keeps (hk := ?_) .. | refine irqToThread_keeps (hk := ?_) ..) | split)

theorem releaseHeld_keeps (z : Fin 16) (s : State) (hk : Keeps W Q L s) : Keeps W Q L (releaseHeld z s) := by
  rw [releaseHeld.eq_def]
  repeat' (first | with_reducible (first | assumption | refine State_updZone_keeps (hk := ?_) .. | refine irqToThread_keeps (hk := ?_) .. | refine foldl_keeps _ ?_ _ _ ?_) | (intro _ _ _ e _; subst e; (try simp only [])))

theorem haltThread_keeps (n : Nat) (th : Bool) (s : State) (hk : Keeps W Q L s) : Keeps W Q L (haltThread n th s) := by
  rw [haltThread.eq_def]
  repeat' with_reducible (first | assumption | refine State_updThr_keeps (hk := ?_) .. | refine cancelWaits_keeps (hk := ?_) .. | refine dropTx_keeps (hk := ?_) ..)

theorem abandonCallup_keeps (z : Nat) (s : State) (hk : Keeps W Q L s) : Keeps W Q L (abandonCallup z s) := by
  rw [abandonCallup.eq_def]
  repeat' (first | with_reducible (first | exact Keeps.of (by assumption) | refine ite_keeps ?_ ?_ | refine lcGo_keeps (hk := ?_) .. | refine Keeps.of (ite_keeps ?_ ?_)) | split | simp only [])

theorem zoneResetStart_keeps (z : Fin 16) (s : State) (hk : Keeps W Q L s) : Keeps W Q L (zoneResetStart z s) := by
  rw [zoneResetStart.eq_def]
  repeat' (first | with_reducible (first | assumption | refine ite_keeps ?_ ?_ | refine State_updZone_keeps (hk := ?_) .. | refine irqDiscard_keeps (hk := ?_) .. | refine haltThread_keeps (hk := ?_) .. | refine abandonCallup_keeps (hk := ?_) .. | refine foldl_keeps _ ?_ _ _ ?_) | (intro _ _ _ e _; subst e; (try simp only [])))

theorem fenceZone_keeps (z : Fin 16) (cause : Nat) (s : State) (hk : Keeps W Q L s) : Keeps W Q L (fenceZone z cause s) := by
  rw [fenceZone.eq_def]
  repeat' (first | with_reducible (first | assumption | refine State_updZone_keeps (hk := ?_) .. | refine lcGo_keeps (hk := ?_) .. | refine zoneResetStart_keeps (hk := ?_) ..) | split)

theorem zoneFatalCore_keeps (b : Blk) (src inst info : Nat) (z : Fin 16) (s : State) (hk : Keeps W Q L s) : Keeps W Q L (zoneFatalCore b src inst info z s) := by
  rw [zoneFatalCore.eq_def]
  repeat' with_reducible (first | assumption | refine latch_keeps (hk := ?_) .. | refine fenceZone_keeps (hk := ?_) ..)

theorem threadLost_keeps (failed : Nat) (zone : Option Nat) (l0 l1 : Bool) (s : State) (hk : Keeps W Q L s) : Keeps W Q L (threadLost failed zone l0 l1 s) := by
  rw [threadLost.eq_def]
  repeat' (first | with_reducible (first | assumption | refine zoneFatalCore_keeps (hk := ?_) ..) | split)

theorem beginSpare_keeps (c : CallUp) (n : Nat) (s : State) (hk : Keeps W Q L s) : Keeps W Q L (beginSpare c n s) := by
  rw [beginSpare.eq_def]
  repeat' with_reducible (first | assumption | refine ite_keeps ?_ ?_ | refine State_updPu_keeps (hk := ?_) .. | refine lcGo_keeps (hk := ?_) .. | refine Keeps.of (ite_keeps ?_ ?_))

theorem settleSpc_keeps (y0 : Nat) (y1 : State) (hk : Keeps W Q L y1) : Keeps W Q L (settleSpc y0 y1) := by
  revert hk
  fun_induction settleSpc y0 y1 <;> intro hk <;> (repeat' with_reducible (first | assumption | exact Keeps.of (by assumption) | refine ‹Keeps _ _ _ _ → Keeps _ _ _ _› ?_ | refine threadLost_keeps (hk := ?_) .. | refine beginSpare_keeps (hk := ?_) ..))

theorem raiseC3_keeps (b : Blk) (src inst info : Nat) (z : Fin 16) (s : State) (hk : Keeps W Q L s) : Keeps W Q L (raiseC3 b src inst info z s) := by
  rw [raiseC3.eq_def]
  repeat' with_reducible (first | assumption | refine zoneFatalCore_keeps (hk := ?_) .. | refine settleSpc_keeps (hk := ?_) ..)

theorem raiseZone_keeps (b : Blk) (src inst info : Nat) (z : Option (Fin 16)) (s : State) (hk : Keeps W Q L s) : Keeps W Q L (raiseZone b src inst info z s) := by
  rw [raiseZone.eq_def]
  repeat' (first | with_reducible (first | assumption | refine latch_keeps (hk := ?_) .. | refine raiseC3_keeps (hk := ?_) ..) | split)

theorem stopPosition_keeps (n : Nat) (s : State) (hk : Keeps W Q L s) : Keeps W Q L (stopPosition n s) := by
  rw [stopPosition.eq_def]
  repeat' with_reducible (first | exact Keeps.of (by assumption) | refine State_updThr_keeps (hk := ?_) .. | refine cancelWaits_keeps (hk := ?_) .. | refine dropTx_keeps (hk := ?_) ..)

theorem declareFailed_keeps (n : Fin 48) (src info : Nat) (readable0 readable1 : Bool) (s : State) (hk : Keeps W Q L s) : Keeps W Q L (declareFailed n src info readable0 readable1 s) := by
  rw [declareFailed.eq_def]
  repeat' (first | with_reducible (first | assumption | refine ite_keeps ?_ ?_ | refine State_updPu_keeps (hk := ?_) .. | refine latch_keeps (hk := ?_) .. | refine lcGo_keeps (hk := ?_) .. | refine settleSpc_keeps (hk := ?_) .. | refine Keeps.of (threadLost_keeps (hk := ?_) ..) | refine Keeps.of (stopPosition_keeps (hk := ?_) ..)) | split | simp only [])

theorem spareFails_keeps (cause : Nat) (s : State) (hk : Keeps W Q L s) : Keeps W Q L (spareFails cause s) := by
  rw [spareFails.eq_def]
  repeat' (first | with_reducible (first | assumption | exact Keeps.of (by assumption) | refine threadLost_keeps (hk := ?_) .. | refine beginSpare_keeps (hk := ?_) .. | refine settleSpc_keeps (hk := ?_) .. | refine Keeps.of (lcGo_keeps (hk := ?_) ..)) | split | simp only [])

theorem silenceLinks_keeps (l : Nat) (s : State) (hk : Keeps W Q L s) : Keeps W Q L (silenceLinks l s) := by
  rw [silenceLinks.eq_def]
  repeat' (first | with_reducible (first | assumption | refine State_updLink_keeps (hk := ?_) .. | refine foldl_keeps _ ?_ _ _ ?_) | (intro _ _ _ e _; subst e; (try simp only [])))

theorem moveRow_keeps (src dst : Nat) (s : State) (hk : Keeps W Q L s) : Keeps W Q L (moveRow src dst s) := by
  rw [moveRow.eq_def]
  repeat' with_reducible exact Keeps.of (by assumption)

theorem ceFailed_keeps (n : Fin 36) (s : State) (hk : Keeps W Q L s) : Keeps W Q L (ceFailed n s) := by
  rw [ceFailed.eq_def]
  repeat' (first | with_reducible (first | assumption | refine ite_keeps ?_ ?_ | refine State_updCe_keeps (hk := ?_) .. | refine State_updLe_keeps (hk := ?_) .. | refine lcGo_keeps (hk := ?_) .. | refine silenceLinks_keeps (hk := ?_) .. | refine Keeps.of (State_updLe_keeps (hk := ?_) ..) | refine Keeps.of (stopPosition_keeps (hk := ?_) ..) | refine Keeps.of (moveRow_keeps (hk := ?_) ..)) | split | simp only [])

theorem fenceChannel_keeps (m : Fin 20) (s : State) (hk : Keeps W Q L s) : Keeps W Q L (fenceChannel m s) := by
  rw [fenceChannel.eq_def]
  repeat' (first | with_reducible (first | assumption | refine ite_keeps ?_ ?_ | refine State_updGrp_keeps (hk := ?_) .. | refine latch_keeps (hk := ?_) .. | refine raiseC4_keeps (hk := ?_) .. | refine lcGo_keeps (hk := ?_) .. | refine foldl_keeps _ ?_ _ _ ?_) | (intro _ _ _ e _; subst e; (try simp only [])) | split | simp only [])

theorem abandonJobs_keeps (comp : Bool) (n : Nat) (s : State) (hk : Keeps W Q L s) : Keeps W Q L (abandonJobs comp n s) := by
  rw [abandonJobs.eq_def]
  repeat' with_reducible (first | assumption | refine State_updSlice_keeps (hk := ?_) ..)

theorem fenceFn_keeps (f : Fn) (cause : Nat) (s : State) (hk : Keeps W Q L s) : Keeps W Q L (fenceFn f cause s) := by
  rw [fenceFn.eq_def]
  repeat' (first | with_reducible (first | assumption | refine ite_keeps ?_ ?_ | refine State_updLink_keeps (hk := ?_) .. | refine lcGo_keeps (hk := ?_) .. | refine fenceZone_keeps (hk := ?_) .. | refine settleSpc_keeps (hk := ?_) .. | refine stopPosition_keeps (hk := ?_) .. | refine spareFails_keeps (hk := ?_) .. | refine ceFailed_keeps (hk := ?_) .. | refine fenceChannel_keeps (hk := ?_) .. | refine abandonJobs_keeps (hk := ?_) ..) | split)

theorem faultFn_keeps (f : Fn) (src inst info cause : Nat) (s : State) (hk : Keeps W Q L s) : Keeps W Q L (faultFn f src inst info cause s) := by
  rw [faultFn.eq_def]
  repeat' with_reducible (first | assumption | refine closeGates_keeps (hk := ?_) .. | refine latch_keeps (hk := ?_) .. | refine fenceFn_keeps (hk := ?_) ..)

theorem latchP_keeps (f : Fn) (src inst info : Nat) (s : State) (hk : Keeps W Q L s) : Keeps W Q L (latchP f src inst info s) := by
  rw [latchP.eq_def]
  repeat' with_reducible (first | assumption | refine ite_keeps ?_ ?_ | refine closeGates_keeps (hk := ?_) .. | refine latch_keeps (hk := ?_) .. | refine fenceFn_keeps (hk := ?_) ..)

end Sys2Proof.Machine
end

