-- ==== Sys2Proof/Laws/KeepsWork.lean ====
section
/-! SUPPORT. Keeps of the operations of drain, lifecycle work, translation, maintenance, channels, accelerators and the instruction frame. -/

set_option Elab.async false

namespace Sys2Proof.Machine

variable {W : Prop} {Q : List Instr} {L : Limited → Prop}

theorem writeBlockRec_keeps (b : Nat) (s : State) (hk : Keeps W Q L s) : Keeps W Q L (writeBlockRec b s) := by
  rw [writeBlockRec.eq_def]
  repeat' with_reducible (first | assumption | exact Keeps.of (by assumption) | refine ite_keeps ?_ ?_)

theorem writeOpenRec_keeps (s : State) (hk : Keeps W Q L s) : Keeps W Q L (writeOpenRec s) := by
  rw [writeOpenRec.eq_def]
  repeat' with_reducible exact Keeps.of (by assumption)

theorem drainStart_keeps (s : State) (hk : Keeps W Q L s) : Keeps W Q L (drainStart s) := by
  rw [drainStart.eq_def]
  repeat' with_reducible exact Keeps.of (by assumption)

theorem drainNext_keeps (s : State) (hk : Keeps W Q L s) : Keeps W Q L (drainNext s) := by
  rw [drainNext.eq_def]
  repeat' (first | with_reducible (first | assumption | refine Keeps.of (writeBlockRec_keeps (hk := ?_) ..)) | split)

theorem drainRest_keeps (y0 : Nat) (y1 : State) (hk : Keeps W Q L y1) : Keeps W Q L (drainRest y0 y1) := by
  revert hk
  fun_induction drainRest y0 y1 <;> intro hk <;> (repeat' with_reducible (first | assumption | refine ‹Keeps _ _ _ _ → Keeps _ _ _ _› ?_ | refine drainNext_keeps (hk := ?_) ..))

theorem writeIndex_keeps (complete : Bool) (s : State) (hk : Keeps W Q L s) : Keeps W Q L (writeIndex complete s) := by
  rw [writeIndex.eq_def]
  repeat' with_reducible (first | exact Keeps.of (by assumption) | refine ite_keeps ?_ ?_)

theorem drainFinish_keeps (s : State) (hk : Keeps W Q L s) : Keeps W Q L (drainFinish s) := by
  rw [drainFinish.eq_def]
  repeat' with_reducible (first | assumption | refine ite_keeps ?_ ?_ | refine drainRest_keeps (hk := ?_) .. | refine Keeps.of (drainRest_keeps (hk := ?_) ..) | refine Keeps.of (writeIndex_keeps (hk := ?_) ..))

theorem loadBlock_keeps (b : Nat) (cells : List Host.Cell) (s : State) (hk : Keeps W Q L s) : Keeps W Q L (loadBlock b cells s) := by
  rw [loadBlock.eq_def]
  exact ⟨hk.1, hk.2, fun w => memPuts_wf _ _ (twf_filter 0 _ _ (hk.3 w)), fun w => memPuts_wf _ _ (twf_filter 0 _ _ (hk.4 w))⟩

theorem poisonBlock_keeps (b : Nat) (s : State) (hk : Keeps W Q L s) : Keeps W Q L (poisonBlock b s) := by
  rw [poisonBlock.eq_def]
  repeat' (first | with_reducible (first | assumption | refine State_addPoison_keeps (hk := ?_) .. | refine loadBlock_keeps (hk := ?_) .. | refine foldl_keeps _ ?_ _ _ ?_) | (intro _ _ _ e _; subst e; (try simp only [])))

theorem loadIndex_keeps (blocks : Tbl Nat) (s : State) (hk : Keeps W Q L s) : Keeps W Q L (loadIndex blocks s) := by
  rw [loadIndex.eq_def]
  repeat' (first | with_reducible (first | assumption | refine loadBlock_keeps (hk := ?_) .. | refine foldl_keeps _ ?_ _ _ ?_) | (intro _ _ _ e _; subst e; (try simp only [])) | split)

theorem clearRegion_keeps (s : State) (hk : Keeps W Q L s) : Keeps W Q L (clearRegion s) := by
  rw [clearRegion.eq_def]
  exact ⟨hk.1, hk.2, fun w => twf_filter 0 _ _ (hk.3 w), fun w => twf_filter 0 _ _ (hk.4 w)⟩

theorem restoreDone_keeps (result failed : Nat) (named : Tbl Nat) (s : State) (hk : Keeps W Q L s) : Keeps W Q L (restoreDone result failed named s) := by
  rw [restoreDone.eq_def]
  repeat' with_reducible exact Keeps.of (by assumption)

theorem restore_keeps (bad badIx : List Nat) (s : State) (hk : Keeps W Q L s) : Keeps W Q L (restore bad badIx s) := by
  rw [restore.eq_def]
  repeat' (first | with_reducible (first | assumption | refine ite_keeps ?_ ?_ | refine poisonBlock_keeps (hk := ?_) .. | refine loadIndex_keeps (hk := ?_) .. | refine clearRegion_keeps (hk := ?_) .. | refine restoreDone_keeps (hk := ?_) .. | refine foldl_keeps _ ?_ _ _ ?_) | (intro _ _ _ e _; subst e; (try simp only [])))

theorem drawSalt_keeps (z : Fin 16) (s : State) (hk : Keeps W Q L s) : Keeps W Q L (drawSalt z s).2 := by
  rw [drawSalt.eq_def]
  repeat' with_reducible (first | assumption | refine State_draw_keeps (hk := ?_) ..)

theorem zoneStart_keeps (z : Fin 16) (s : State) (hk : Keeps W Q L s) : Keeps W Q L (zoneStart z s) := by
  rw [zoneStart.eq_def]
  repeat' (first | with_reducible (first | assumption | refine ite_keeps ?_ ?_ | refine itep_keeps ?_ ?_ | refine State_updPu_keeps (hk := ?_) .. | refine State_updZone_keeps (hk := ?_) .. | refine lcGo_keeps (hk := ?_) .. | refine faultFn_keeps (hk := ?_) .. | refine drawSalt_keeps (hk := ?_) .. | refine foldl_keeps _ ?_ _ _ ?_) | (intro _ _ _ e _; subst e; (try simp only [])))

theorem zoneOn_keeps (z : Fin 16) (s : State) (hk : Keeps W Q L s) : Keeps W Q L (zoneOn z s) := by
  rw [zoneOn.eq_def]
  repeat' (first | with_reducible (first | assumption | refine ite_keeps ?_ ?_ | refine State_updThr_keeps (hk := ?_) .. | refine State_updZone_keeps (hk := ?_) .. | refine lcGo_keeps (hk := ?_) .. | refine releaseHeld_keeps (hk := ?_) .. | refine faultFn_keeps (hk := ?_) .. | refine foldl_keeps _ ?_ _ _ ?_) | (intro _ _ _ e _; subst e; (try simp only [])))

theorem commitStart_keeps (s : State) (hk : Keeps W Q L s) : Keeps W Q L (commitStart s) := by
  rw [commitStart.eq_def]
  repeat' with_reducible (first | assumption | exact Keeps.of (by assumption) | refine ite_keeps ?_ ?_ | refine faultFn_keeps (hk := ?_) ..)

theorem linkStart_keeps (n : Fin 512) (s : State) (hk : Keeps W Q L s) : Keeps W Q L (linkStart n s) := by
  rw [linkStart.eq_def]
  repeat' with_reducible (first | assumption | refine ite_keeps ?_ ?_ | refine State_updLink_keeps (hk := ?_) .. | refine faultFn_keeps (hk := ?_) ..)

theorem startWork_keeps (f : Fn) (s : State) (hk : Keeps W Q L s) : Keeps W Q L (startWork f s) := by
  rw [startWork.eq_def]
  repeat' (first | with_reducible (first | assumption | refine State_updPu_keeps (hk := ?_) .. | refine State_updMc_keeps (hk := ?_) .. | refine zoneStart_keeps (hk := ?_) .. | refine commitStart_keeps (hk := ?_) .. | refine linkStart_keeps (hk := ?_) ..) | split)

theorem stopWork_keeps (f : Fn) (s : State) (hk : Keeps W Q L s) : Keeps W Q L (stopWork f s) := by
  rw [stopWork.eq_def]
  repeat' (first | with_reducible (first | assumption | refine State_updLink_keeps (hk := ?_) .. | refine zoneResetStart_keeps (hk := ?_) .. | refine settleSpc_keeps (hk := ?_) .. | refine stopPosition_keeps (hk := ?_) .. | refine abandonJobs_keeps (hk := ?_) .. | refine drainStart_keeps (hk := ?_) ..) | split)

theorem lcCommand_keeps (f : Fn) (ev : LcEv) (cause : Nat) (s : State) (hk : Keeps W Q L s) : Keeps W Q L (lcCommand f ev cause s) := by
  rw [lcCommand.eq_def]
  repeat' (first | with_reducible (first | assumption | refine ite_keeps ?_ ?_ | refine closeGates_keeps (hk := ?_) .. | refine lcGo_keeps (hk := ?_) .. | refine lcResult_keeps (hk := ?_) .. | refine startWork_keeps (hk := ?_) .. | refine stopWork_keeps (hk := ?_) ..) | split)

theorem modeDisable_keeps (f : Fn) (s : State) (hk : Keeps W Q L s) : Keeps W Q L (modeDisable f s) := by
  rw [modeDisable.eq_def]
  repeat' (first | with_reducible (first | assumption | refine lcCommand_keeps (hk := ?_) ..) | split)

theorem zoneResetFinish_keeps (z : Fin 16) (s : State) (hk : Keeps W Q L s) : Keeps W Q L (zoneResetFinish z s) := by
  rw [zoneResetFinish.eq_def]
  repeat' (first | with_reducible (first | assumption | refine State_updZone_keeps (hk := ?_) .. | refine lcGo_keeps (hk := ?_) .. | refine zoneStart_keeps (hk := ?_) ..) | split | simp only [])

theorem stopLoss_keeps (f : Fn) (s : State) (hk : Keeps W Q L s) : Keeps W Q L (stopLoss f s) := by
  rw [stopLoss.eq_def]
  repeat' (first | with_reducible (first | assumption | refine State_updLink_keeps (hk := ?_) .. | refine flushPu_keeps (hk := ?_) .. | refine losePu_keeps (hk := ?_) .. | refine drainFinish_keeps (hk := ?_) ..) | split)

theorem stopTo_keeps (f : Fn) (dst : LcState) (s : State) (hk : Keeps W Q L s) : Keeps W Q L (stopTo f dst s) := by
  rw [stopTo.eq_def]
  repeat' with_reducible (first | assumption | refine ite_keeps ?_ ?_ | refine closeGates_keeps (hk := ?_) .. | refine lcGo_keeps (hk := ?_) .. | refine startWork_keeps (hk := ?_) .. | refine stopLoss_keeps (hk := ?_) ..)

theorem lcStopDone_keeps (f : Fn) (s : State) (hk : Keeps W Q L s) : Keeps W Q L (lcStopDone f s) := by
  rw [lcStopDone.eq_def]
  repeat' (first | with_reducible (first | assumption | refine ite_keeps ?_ ?_ | refine zoneResetFinish_keeps (hk := ?_) .. | refine stopTo_keeps (hk := ?_) ..) | split)

theorem walkLeaf_keeps (n : Nat) (th : Bool) (z va bits : Nat) (e : Word) (s : State) (hk : Keeps W Q L s) : Keeps W Q L (walkLeaf n th z va bits e s).2 := by
  rw [walkLeaf.eq_def]
  repeat' (first | with_reducible (first | assumption | refine itep_keeps ?_ ?_ | refine State_updPu_keeps (hk := ?_) ..) | split | simp only [])

theorem homeAnswer_keeps (n : Nat) (th : Bool) (pa : Nat) (k : AccKind) (cls : Nat) (s : State) (hk : Keeps W Q L s) : Keeps W Q L (homeAnswer n th pa k cls s).2 := by
  rw [homeAnswer.eq_def]
  repeat' with_reducible (first | assumption | refine itep_keeps ?_ ?_ | refine asked_keeps (hk := ?_) ..)

theorem ownAnswer_keeps (n : Nat) (th : Bool) (pa : Nat) (s : State) (hk : Keeps W Q L s) : Keeps W Q L (ownAnswer n th pa s).2 := by
  rw [ownAnswer.eq_def]
  repeat' (first | with_reducible (first | assumption | refine dramAnswer_keeps (hk := ?_) ..) | split)

theorem answerExc_keeps (va : Word) (w : Bool) (r : Option Nat × State) (hk : Keeps W Q L r.2) : Keeps W Q L (answerExc va w r).2 := by
  rw [answerExc.eq_def]
  repeat' with_reducible assumption

theorem walkLine_keeps (n : Nat) (th : Bool) (pa : Nat) (s : State) (hk : Keeps W Q L s) : Keeps W Q L (walkLine n th pa s).2 := by
  rw [walkLine.eq_def]
  repeat' (first | with_reducible (first | assumption | refine itep_keeps ?_ ?_ | refine pair_keeps (by assumption) (obtainShared_keeps (hk := ?_) ..) | refine pair_keeps (by assumption) (homeAnswer_keeps (hk := ?_) ..)) | split)

theorem walkRead_keeps (n : Nat) (th : Bool) (z lv at_ : Nat) (s : State) (hk : Keeps W Q L s) : Keeps W Q L (walkRead n th z lv at_ s).2 := by
  rw [walkRead.eq_def]
  repeat' (first | with_reducible (first | assumption | refine itep_keeps ?_ ?_ | refine State_updPu_keeps (hk := ?_) .. | refine pair_keeps (by assumption) (walkLine_keeps (hk := ?_) ..)) | split)

theorem walkFrom_keeps (n : Nat) (th : Bool) (z va : Nat) (y0 : Nat) (y1 : Nat) (y2 : State) (hk : Keeps W Q L y2) : Keeps W Q L (walkFrom n th z va y0 y1 y2).2 := by
  revert hk
  fun_induction walkFrom n th z va y0 y1 y2 <;> intro hk <;> (repeat' with_reducible (first | assumption | refine ‹Keeps _ _ _ _ → Keeps _ _ _ _› ?_ | refine State_updPu_keeps (hk := ?_) .. | refine walkLeaf_keeps (hk := ?_) .. | refine walkRead_keeps (hk := ?_) ..))

theorem translate_keeps (n : Nat) (th : Bool) (va : Word) (u : Use) (s : State) (hk : Keeps W Q L s) : Keeps W Q L (translate n th va u s).2 := by
  rw [translate.eq_def]
  repeat' (first | with_reducible (first | assumption | refine itep_keeps ?_ ?_ | refine State_updPu_keeps (hk := ?_) .. | refine walkFrom_keeps (hk := ?_) ..) | split | simp only [])

theorem useLine_keeps (n : Nat) (th : Bool) (u : Touch) (s : State) (hk : Keeps W Q L s) : Keeps W Q L (useLine n th u s) := by
  rw [useLine.eq_def]
  repeat' with_reducible (first | assumption | refine State_updThr_keeps (hk := ?_) ..)

theorem markNoAlloc_keeps (l : Nat) (s : State) (hk : Keeps W Q L s) : Keeps W Q L (markNoAlloc l s) := by
  rw [markNoAlloc.eq_def]
  repeat' (first | with_reducible (first | assumption | exact Keeps.of (by assumption)) | split)

theorem copiesClean_keeps (l : Nat) (s : State) (hk : Keeps W Q L s) : Keeps W Q L (copiesClean l s) := by
  rw [copiesClean.eq_def]
  repeat' (first | with_reducible (first | assumption | refine State_updPu_keeps (hk := ?_) .. | refine foldl_keeps _ ?_ _ _ ?_ | refine Keeps.of (updL3_keeps (hk := ?_) ..) | refine Keeps.of (foldl_keeps _ ?_ _ _ ?_)) | (intro _ _ _ e _; subst e; (try simp only [])) | split | simp only [])

theorem mntClean_keeps (a : Acc) (l : Nat) (own : Option (Nat × Bool)) (s : State) (hk : Keeps W Q L s) : Keeps W Q L (mntClean a l own s).2 := by
  rw [mntClean.eq_def]
  repeat' (first | with_reducible (first | assumption | refine itep_keeps ?_ ?_ | refine State_flushLine_keeps (hk := ?_) .. | refine askGrant_keeps (hk := ?_) .. | refine conflicts_keeps (hk := ?_) .. | refine copiesClean_keeps (hk := ?_) .. | refine pair_keeps (by assumption) ?_) | split)

theorem dropCopies_keeps (a : Acc) (l : Nat) (own : Option (Nat × Bool)) (s : State) (hk : Keeps W Q L s) : Keeps W Q L (dropCopies a l own s) := by
  rw [dropCopies.eq_def]
  repeat' with_reducible (first | assumption | refine loseOthers_keeps (hk := ?_) .. | refine markNoAlloc_keeps (hk := ?_) .. | refine Keeps.of (l3Remove_keeps (hk := ?_) ..))

theorem mntInval_keeps (a : Acc) (l : Nat) (own : Option (Nat × Bool)) (s : State) (hk : Keeps W Q L s) : Keeps W Q L (mntInval a l own s).2 := by
  rw [mntInval.eq_def]
  repeat' (first | with_reducible (first | assumption | refine ite_keeps ?_ ?_ | refine State_updPu_keeps (hk := ?_) .. | refine State_dropLine_keeps (hk := ?_) .. | refine pair_keeps (by assumption) (mntClean_keeps (hk := ?_) ..) | refine dropCopies_keeps (hk := ?_) ..) | split)

theorem mntLine_keeps (op : MntOp) (a : Acc) (l : Nat) (own : Option (Nat × Bool)) (s : State) (hk : Keeps W Q L s) : Keeps W Q L (mntLine op a l own s).2 := by
  rw [mntLine.eq_def]
  repeat' (first | with_reducible (first | assumption | refine mntClean_keeps (hk := ?_) .. | refine pair_keeps (by assumption) (mntClean_keeps (hk := ?_) ..) | refine dropCopies_keeps (hk := ?_) .. | refine mntInval_keeps (hk := ?_) ..) | split)

theorem amoHome_keeps (a : Acc) (pa : Nat) (op : AmoOp) (x y : Quad) (own : Option (Nat × Bool)) (s : State) (hk : Keeps W Q L s) : Keeps W Q L (amoHome a pa op x y own s).2.2 := by
  rw [amoHome.eq_def]
  repeat' (first | with_reducible (first | assumption | refine ite_keeps ?_ ?_ | refine itep_keeps ?_ ?_ | refine State_wr_keeps (hk := ?_) .. | refine State_flushLine_keeps (hk := ?_) .. | refine askGrant_keeps (hk := ?_) .. | refine l3Remove_keeps (hk := ?_) .. | refine l3Insert_keeps (hk := ?_) .. | refine loseOthers_keeps (hk := ?_) .. | refine pair_keeps (by assumption) (recallCommit_keeps (hk := ?_) ..) | refine pair_keeps (by assumption) ?_) | split | simp only [])

theorem lineWaits_keeps (a : Acc) (l : Nat) (s : State) (hk : Keeps W Q L s) : Keeps W Q L (lineWaits a l s).2 := by
  rw [lineWaits.eq_def]
  repeat' with_reducible (first | assumption | refine block_keeps (hk := ?_) ..)

theorem lineCheck_keeps (a : Acc) (pa : Nat) (s : State) (hk : Keeps W Q L s) : Keeps W Q L (lineCheck a pa s).2 := by
  rw [lineCheck.eq_def]
  repeat' (first | with_reducible (first | assumption | refine itep_keeps ?_ ?_ | refine pair_keeps (by assumption) (asked_keeps (hk := ?_) ..) | refine pair_keeps (by assumption) (askGrant_keeps (hk := ?_) ..) | refine lineOut_keeps (hk := ?_) .. | refine pair_keeps (by assumption) (pinsLet_keeps (hk := ?_) ..) | refine lineWaits_keeps (hk := ?_) ..) | split)

theorem putLine_keeps (pa : Nat) (bytes : List Byte) (s : State) (hk : Keeps W Q L s) : Keeps W Q L (putLine pa bytes s) := by
  rw [putLine.eq_def]
  repeat' with_reducible (first | assumption | refine ite_keeps ?_ ?_ | refine State_wr_keeps (hk := ?_) .. | refine State_clearPoison_keeps (hk := ?_) ..)

theorem ivwLine_keeps (a : Acc) (pa : Nat) (bytes : List Byte) (s : State) (hk : Keeps W Q L s) : Keeps W Q L (ivwLine a pa bytes s).2 := by
  rw [ivwLine.eq_def]
  repeat' (first | with_reducible (first | assumption | refine itep_keeps ?_ ?_ | refine State_flushLine_keeps (hk := ?_) .. | refine l3Insert_keeps (hk := ?_) .. | refine loseOthers_keeps (hk := ?_) .. | refine markNoAlloc_keeps (hk := ?_) .. | refine copiesClean_keeps (hk := ?_) .. | refine lineCheck_keeps (hk := ?_) .. | refine pair_keeps (by assumption) (lineCheck_keeps (hk := ?_) ..) | refine putLine_keeps (hk := ?_) ..) | split)

theorem plwLine_keeps (a : Acc) (z : Nat) (pu : Nat) (pa : Nat) (bytes : List Byte) (s : State) (hk : Keeps W Q L s) : Keeps W Q L (plwLine a z pu pa bytes s).2 := by
  rw [plwLine.eq_def]
  repeat' (first | with_reducible (first | assumption | refine ite_keeps ?_ ?_ | refine itep_keeps ?_ ?_ | refine State_flushLine_keeps (hk := ?_) .. | refine l3Insert_keeps (hk := ?_) .. | refine loseOthers_keeps (hk := ?_) .. | refine pair_keeps (by assumption) (dirAlloc_keeps (hk := ?_) ..) | refine l2Install_keeps (hk := ?_) .. | refine markNoAlloc_keeps (hk := ?_) .. | refine copiesClean_keeps (hk := ?_) .. | refine lineWaits_keeps (hk := ?_) .. | refine lineCheck_keeps (hk := ?_) .. | refine pair_keeps (by assumption) (lineCheck_keeps (hk := ?_) ..) | refine putLine_keeps (hk := ?_) .. | refine ivwLine_keeps (hk := ?_) ..) | split)

theorem eachLine_keeps (f : Nat → List Byte → State → LineAns × State) (y0 : List (Nat × List Byte)) (y1 : State) (hf : ∀ x0 x1 x2, Keeps W Q L x2 → Keeps W Q L (f x0 x1 x2).2) (hk : Keeps W Q L y1) : Keeps W Q L (eachLine f y0 y1).2 := by
  revert hk
  fun_induction eachLine f y0 y1 <;> intro hk <;> (repeat' with_reducible (first | assumption | refine ‹Keeps _ _ _ _ → Keeps _ _ _ _› ?_ | refine hf _ _ _ ?_ | refine pair_keeps (by assumption) (hf _ _ _ ?_)))

theorem ivw_keeps (a : Acc) (pa : Nat) (bytes : List Byte) (s : State) (hk : Keeps W Q L s) : Keeps W Q L (ivw a pa bytes s).2 := by
  rw [ivw.eq_def]
  repeat' (first | with_reducible (first | assumption | refine itep_keeps ?_ ?_ | refine block_keeps (hk := ?_) .. | refine arbOut_keeps (hk := ?_) .. | refine ivwLine_keeps (hk := ?_) .. | refine eachLine_keeps (hk := ?_) (hf := ?_) .. | refine pair_keeps (by assumption) (eachLine_keeps (hk := ?_) (hf := ?_) ..)) | split | intro _)

theorem plw_keeps (a : Acc) (z pu pa : Nat) (bytes : List Byte) (s : State) (hk : Keeps W Q L s) : Keeps W Q L (plw a z pu pa bytes s).2 := by
  rw [plw.eq_def]
  repeat' (first | with_reducible (first | assumption | refine plwLine_keeps (hk := ?_) .. | refine eachLine_keeps (hk := ?_) (hf := ?_) ..) | intro _)

theorem readLine_keeps (a : Acc) (cls pa : Nat) (s : State) (hk : Keeps W Q L s) : Keeps W Q L (readLine a cls pa s).2 := by
  rw [readLine.eq_def]
  repeat' (first | with_reducible (first | assumption | refine itep_keeps ?_ ?_ | refine pair_keeps (by assumption) (asked_keeps (hk := ?_) ..) | refine block_keeps (hk := ?_) .. | refine lineOut_keeps (hk := ?_) .. | refine conflicts_keeps (hk := ?_) .. | refine pair_keeps (by assumption) (recallCommit_keeps (hk := ?_) ..) | refine pair_keeps (by assumption) (pinsLet_keeps (hk := ?_) ..)) | split | simp only [])

theorem readBytes_keeps (a : Acc) (cls pa n : Nat) (s : State) (hk : Keeps W Q L s) : Keeps W Q L (readBytes a cls pa n s).2 := by
  rw [readBytes.eq_def]
  repeat' (first | with_reducible (first | assumption | refine itep_keeps ?_ ?_ | refine readLine_keeps (hk := ?_) .. | refine foldl2_keeps _ ?_ _ _ ?_) | (intro _ _ _ e _; subst e; (try simp only [])))

theorem ceWr_keeps (n z pa : Nat) (bytes : List Byte) (s : State) (hk : Keeps W Q L s) : Keeps W Q L (ceWr n z pa bytes s).2 := by
  rw [ceWr.eq_def]
  repeat' (first | with_reducible (first | assumption | refine pair_keeps (by assumption) (ivw_keeps (hk := ?_) ..)) | split)

theorem State_updVol_keeps (s : State) (i : Nat) (f : Vol → Vol) (hk : Keeps W Q L s) : Keeps W Q L (State.updVol s i f) := by
  rw [State.updVol.eq_def]
  repeat' with_reducible exact Keeps.of (by assumption)

theorem markDoubt_keeps (n i : Nat) (s : State) (hk : Keeps W Q L s) : Keeps W Q L (markDoubt n i s) := by
  rw [markDoubt.eq_def]
  repeat' with_reducible (first | assumption | refine ite_keeps ?_ ?_ | refine State_updCe_keeps (hk := ?_) .. | refine ceWr_keeps (hk := ?_) ..)

theorem readEntry_keeps (n i : Nat) (s : State) (hk : Keeps W Q L s) : Keeps W Q L (readEntry n i s).2 := by
  rw [readEntry.eq_def]
  repeat' with_reducible (first | assumption | refine itep_keeps ?_ ?_ | refine latch_keeps (hk := ?_) .. | refine State_clearPoison_keeps (hk := ?_) .. | refine ceWr_keeps (hk := ?_) .. | refine markDoubt_keeps (hk := ?_) ..)

theorem epBytes_keeps (e n : Nat) (s : State) (hk : Keeps W Q L s) : Keeps W Q L (epBytes e n s).2 := by
  rw [epBytes.eq_def]
  repeat' (first | with_reducible (first | assumption | refine State_updLe_keeps (hk := ?_) ..) | split)

theorem endpoint_keeps (e n : Nat) (s : State) (hk : Keeps W Q L s) : Keeps W Q L (endpoint e n s).2 := by
  rw [endpoint.eq_def]
  repeat' with_reducible (first | assumption | refine epBytes_keeps (hk := ?_) ..)

theorem nodeEp_keeps (e node : Nat) (s : State) (hk : Keeps W Q L s) : Keeps W Q L (nodeEp e node s).2 := by
  rw [nodeEp.eq_def]
  repeat' (first | with_reducible (first | assumption | refine itep_keeps ?_ ?_ | refine State_updLe_keeps (hk := ?_) ..) | split)

theorem dispatch_keeps (e z sid : Nat) (s : State) (hk : Keeps W Q L s) : Keeps W Q L (dispatch e z sid s).2 := by
  rw [dispatch.eq_def]
  repeat' (first | with_reducible (first | assumption | refine State_updLe_keeps (hk := ?_) ..) | split | simp only [])

theorem engRun_keeps (e : Nat) (f : State → State) (s : State) (hf : ∀ x0, Keeps W Q L x0 → Keeps W Q L (f x0)) (hk : Keeps W Q L s) : Keeps W Q L (engRun e f s) := by
  rw [engRun.eq_def]
  repeat' with_reducible (first | assumption | refine ite_keeps ?_ ?_ | refine orWait_keeps (hk := ?_) (hf := ?_) ..)

theorem discardFrame_keeps (s : State) (hk : Keeps W Q L s) : Keeps W Q L (discardFrame s) := by
  rw [discardFrame.eq_def]
  repeat' with_reducible exact Keeps.of (by assumption)

theorem emit_keeps (l : Nat) (f : Frame) (s : State) (hk : Keeps W Q L s) : Keeps W Q L (emit l f s) := by
  rw [emit.eq_def]
  repeat' with_reducible exact Keeps.of (by assumption)

theorem rotate_keeps (epN : Nat) (ep : Ep) (k : Nat) (s : State) (hk : Keeps W Q L s) : Keeps W Q L (rotate epN ep k s) := by
  rw [rotate.eq_def]
  repeat' with_reducible (first | assumption | refine State_updLe_keeps (hk := ?_) ..)

theorem sendTracked_keeps (i epN : Nat) (ep : Ep) (f : Frame) (s : State) (hk : Keeps W Q L s) : Keeps W Q L (sendTracked i epN ep f s) := by
  rw [sendTracked.eq_def]
  repeat' (first | with_reducible (first | assumption | refine State_updVol_keeps (hk := ?_) .. | refine emit_keeps (hk := ?_) .. | refine rotate_keeps (hk := ?_) ..) | split)

theorem sendAnswer_keeps (n epN : Nat) (ep : Ep) (link : Nat) (fixed : Bool) (f : Frame) (code kind : Nat) (s : State) (hk : Keeps W Q L s) : Keeps W Q L (sendAnswer n epN ep link fixed f code kind s) := by
  rw [sendAnswer.eq_def]
  repeat' (first | with_reducible (first | assumption | refine ite_keeps ?_ ?_ | refine emit_keeps (hk := ?_) .. | refine rotate_keeps (hk := ?_) ..) | split)

theorem redrive_keeps (n i epN : Nat) (ep : Ep) (s : State) (hk : Keeps W Q L s) : Keeps W Q L (redrive n i epN ep s) := by
  rw [redrive.eq_def]
  repeat' (first | with_reducible (first | assumption | refine emit_keeps (hk := ?_) .. | refine rotate_keeps (hk := ?_) .. | refine Keeps.of (State_updVol_keeps (hk := ?_) ..)) | split)

theorem resend_keeps (i epN : Nat) (ep : Ep) (kind seq : Nat) (s : State) (hk : Keeps W Q L s) : Keeps W Q L (resend i epN ep kind seq s) := by
  rw [resend.eq_def]
  repeat' (first | with_reducible (first | assumption | refine State_updVol_keeps (hk := ?_) .. | refine sendTracked_keeps (hk := ?_) ..) | split)

theorem answered_keeps (i kind seq : Nat) (s : State) (hk : Keeps W Q L s) : Keeps W Q L (answered i kind seq s) := by
  rw [answered.eq_def]
  repeat' with_reducible (first | assumption | refine State_updVol_keeps (hk := ?_) ..)

theorem zoneRead_keeps (cls n z zpa len : Nat) (s : State) (hk : Keeps W Q L s) : Keeps W Q L (zoneRead cls n z zpa len s).2 := by
  rw [zoneRead.eq_def]
  repeat' (first | with_reducible (first | assumption | refine readBytes_keeps (hk := ?_) ..) | split)

theorem zoneReadN_keeps (cls n z zpa len : Nat) (s : State) (hk : Keeps W Q L s) : Keeps W Q L (zoneReadN cls n z zpa len s).2 := by
  rw [zoneReadN.eq_def]
  repeat' (first | with_reducible (first | assumption | refine itep_keeps ?_ ?_ | refine zoneRead_keeps (hk := ?_) .. | refine pair_keeps (by assumption) (zoneRead_keeps (hk := ?_) ..)) | split)

theorem zoneWrite_keeps (n z zpa : Nat) (bytes : List Byte) (s : State) (hk : Keeps W Q L s) : Keeps W Q L (zoneWrite n z zpa bytes s).2 := by
  rw [zoneWrite.eq_def]
  repeat' (first | with_reducible (first | assumption | refine ivw_keeps (hk := ?_) ..) | split)

theorem zoneWriteN_keeps (n z zpa : Nat) (bytes : List Byte) (s : State) (hk : Keeps W Q L s) : Keeps W Q L (zoneWriteN n z zpa bytes s).2 := by
  rw [zoneWriteN.eq_def]
  repeat' (first | with_reducible (first | assumption | refine itep_keeps ?_ ?_ | refine zoneWrite_keeps (hk := ?_) .. | refine pair_keeps (by assumption) (zoneWrite_keeps (hk := ?_) ..)) | split)

theorem ringAt_keeps (n z rcb lo hi : Nat) (s : State) (hk : Keeps W Q L s) : Keeps W Q L (ringAt n z rcb lo hi s).2 := by
  rw [ringAt.eq_def]
  repeat' (first | with_reducible (first | assumption | refine itep_keeps ?_ ?_ | refine pair_keeps (by assumption) (zoneRead_keeps (hk := ?_) ..)) | split)

theorem ringAsked_keeps (n z pa : Nat) (pieces : List (Nat × List Byte)) (s : State) (hk : Keeps W Q L s) : Keeps W Q L (ringAsked n z pa pieces s).2 := by
  rw [ringAsked.eq_def]
  repeat' (first | with_reducible (first | assumption | refine itep_keeps ?_ ?_ | refine pair_keeps (by assumption) (asked_keeps (hk := ?_) ..) | refine foldl2_keeps _ ?_ _ _ ?_) | (intro _ _ _ e _; subst e; (try simp only [])) | split)

theorem ringClaim_keeps (n z pa : Nat) (s : State) (hk : Keeps W Q L s) : Keeps W Q L (ringClaim n z pa s).2 := by
  rw [ringClaim.eq_def]
  repeat' (first | with_reducible (first | assumption | refine itep_keeps ?_ ?_ | refine block_keeps (hk := ?_) .. | refine lineOut_keeps (hk := ?_) .. | refine pair_keeps (by assumption) (pinsLet_keeps (hk := ?_) ..) | refine pair3_keeps (by assumption) (amoHome_keeps (hk := ?_) ..)) | split)

theorem ringPut_keeps (n z : Nat) (r : Ring) (entry : List Byte) (toPu : Option Nat) (s : State) (hk : Keeps W Q L s) : Keeps W Q L (ringPut n z r entry toPu s).2 := by
  rw [ringPut.eq_def]
  repeat' (first | with_reducible (first | assumption | refine ivwLine_keeps (hk := ?_) .. | refine plwLine_keeps (hk := ?_) .. | refine pair_keeps (by assumption) (eachLine_keeps (hk := ?_) (hf := ?_) ..) | refine pair_keeps (by assumption) (ringAsked_keeps (hk := ?_) ..) | refine pair_keeps (by assumption) (ringClaim_keeps (hk := ?_) ..)) | split | intro _ | simp only [])

theorem ringErr_keeps (n i epN : Nat) (s : State) (hk : Keeps W Q L s) : Keeps W Q L (ringErr n i epN s) := by
  rw [ringErr.eq_def]
  repeat' with_reducible (first | assumption | refine ite_keeps ?_ ?_ | refine latch_keeps (hk := ?_) .. | refine State_updVol_keeps (hk := ?_) ..)

theorem countUnwritten_keeps (i : Nat) (s : State) (hk : Keeps W Q L s) : Keeps W Q L (countUnwritten i s) := by
  rw [countUnwritten.eq_def]
  repeat' with_reducible (first | assumption | refine ite_keeps ?_ ?_ | refine Keeps.of (State_updVol_keeps (hk := ?_) ..))

theorem complete_keeps (n i z : Nat) (x : Xe) (kind code status plen : Nat) (s : State) (hk : Keeps W Q L s) : Keeps W Q L (complete n i z x kind code status plen s) := by
  rw [complete.eq_def]
  repeat' (first | with_reducible (first | assumption | refine ite_keeps ?_ ?_ | refine itep_keeps ?_ ?_ | refine block_keeps (hk := ?_) .. | refine routeIrq_keeps (hk := ?_) .. | refine ringAt_keeps (hk := ?_) .. | refine pair_keeps (by assumption) (ringPut_keeps (hk := ?_) ..) | refine countUnwritten_keeps (hk := ?_) .. | refine Keeps.of (ringErr_keeps (hk := ?_) ..) | refine pair_keeps (by assumption) ?_) | split | simp only [])

theorem putEntry_keeps (n i z : Nat) (x : Xe) (s : State) (hk : Keeps W Q L s) : Keeps W Q L (putEntry n i z x s).2 := by
  rw [putEntry.eq_def]
  repeat' with_reducible (first | assumption | refine ceWr_keeps (hk := ?_) ..)

theorem freeEntry_keeps (n i z last : Nat) (s : State) (hk : Keeps W Q L s) : Keeps W Q L (freeEntry n i z last s) := by
  rw [freeEntry.eq_def]
  repeat' with_reducible (first | assumption | refine ceWr_keeps (hk := ?_) .. | refine State_updVol_keeps (hk := ?_) ..)

theorem deliver_keeps (n i : Nat) (x : Xe) (ep : Ep) (s : State) (hk : Keeps W Q L s) : Keeps W Q L (deliver n i x ep s) := by
  rw [deliver.eq_def]
  repeat' (first | with_reducible (first | assumption | refine ite_keeps ?_ ?_ | refine State_updLe_keeps (hk := ?_) .. | refine routeIrq_keeps (hk := ?_) .. | refine State_updVol_keeps (hk := ?_) .. | refine dispatch_keeps (hk := ?_) .. | refine pair_keeps (by assumption) (dispatch_keeps (hk := ?_) ..) | refine pair_keeps (by assumption) (ringAt_keeps (hk := ?_) ..) | refine pair_keeps (by assumption) (ringPut_keeps (hk := ?_) ..) | refine ringErr_keeps (hk := ?_) .. | refine putEntry_keeps (hk := ?_) .. | refine Keeps.of (State_updVol_keeps (hk := ?_) ..) | refine pair3_keeps (by assumption) ?_) | split | simp only [])

theorem accRead_keeps (comp : Bool) (cls z zpa n : Nat) (s : State) (hk : Keeps W Q L s) : Keeps W Q L (accRead comp cls z zpa n s).2 := by
  rw [accRead.eq_def]
  repeat' (first | with_reducible (first | assumption | refine itep_keeps ?_ ?_ | refine pair_keeps (by assumption) (readBytes_keeps (hk := ?_) ..) | refine foldl2_keeps _ ?_ _ _ ?_) | (intro _ _ _ e _; subst e; (try simp only [])) | split)

theorem accWrite_keeps (comp : Bool) (z zpa : Nat) (bytes : List Byte) (s : State) (hk : Keeps W Q L s) : Keeps W Q L (accWrite comp z zpa bytes s).2 := by
  rw [accWrite.eq_def]
  repeat' (first | with_reducible (first | assumption | refine itep_keeps ?_ ?_ | refine ivw_keeps (hk := ?_) .. | refine foldl2_keeps _ ?_ _ _ ?_) | (intro _ _ _ e _; subst e; (try simp only [])) | split)

theorem readChain_keeps (comp : Bool) (z : Nat) (y0 : Nat) (y1 : Nat) (y2 : State) (hk : Keeps W Q L y2) : Keeps W Q L (readChain comp z y0 y1 y2).2 := by
  revert hk
  fun_induction readChain comp z y0 y1 y2 <;> intro hk <;> (repeat' with_reducible (first | assumption | refine ‹Keeps _ _ _ _ → Keeps _ _ _ _› ?_ | refine pair_keeps (by assumption) (accRead_keeps (hk := ?_) ..) | refine pair_keeps (by assumption) ?_))

theorem acceptChain_keeps (comp : Bool) (k z : Nat) (l : List (List Byte)) (s : State) (hk : Keeps W Q L s) : Keeps W Q L (acceptChain comp k z l s).2 := by
  rw [acceptChain.eq_def]
  repeat' with_reducible (first | assumption | refine State_updSlice_keeps (hk := ?_) ..)

theorem request_keeps (comp : Bool) (z : Nat) (sid : Word) (zpa : Nat) (s : State) (hk : Keeps W Q L s) : Keeps W Q L (request comp z sid zpa s).2 := by
  rw [request.eq_def]
  repeat' (first | with_reducible (first | assumption | refine itep_keeps ?_ ?_ | refine pair_keeps (by assumption) (readChain_keeps (hk := ?_) ..) | refine acceptChain_keeps (hk := ?_) ..) | split)

theorem jobIrq_keeps (j : Job) (s : State) (hk : Keeps W Q L s) : Keeps W Q L (jobIrq j s) := by
  rw [jobIrq.eq_def]
  repeat' with_reducible (first | assumption | refine ite_keeps ?_ ?_ | refine routeIrq_keeps (hk := ?_) ..)

theorem dropJob_keeps (j : Job) (area : Option Nat) (comp : Bool) (k : Nat) (s : State) (hk : Keeps W Q L s) : Keeps W Q L (dropJob j area comp k s) := by
  rw [dropJob.eq_def]
  repeat' with_reducible (first | assumption | refine State_updSlice_keeps (hk := ?_) ..)

theorem completeNext_keeps (comp : Bool) (k : Nat) (s : State) (hk : Keeps W Q L s) : Keeps W Q L (completeNext comp k s) := by
  rw [completeNext.eq_def]
  repeat' (first | with_reducible (first | assumption | refine ite_keeps ?_ ?_ | refine State_updSlice_keeps (hk := ?_) .. | refine pair_keeps (by assumption) (accWrite_keeps (hk := ?_) ..) | refine jobIrq_keeps (hk := ?_) .. | refine dropJob_keeps (hk := ?_) .. | refine foldl_keeps _ ?_ _ _ ?_) | (intro _ _ _ e _; subst e; (try simp only [])) | split | simp only [])

theorem retire_keeps (n : Nat) (th : Bool) (s : State) (hk : Keeps W Q L s) : Keeps W Q L (retire n th s) := by
  rw [retire.eq_def]
  repeat' with_reducible (first | assumption | refine State_updPu_keeps (hk := ?_) .. | refine State_updThr_keeps (hk := ?_) ..)

theorem advance_keeps (n : Nat) (th : Bool) (len : Nat) (s : State) (hk : Keeps W Q L s) : Keeps W Q L (advance n th len s) := by
  rw [advance.eq_def]
  repeat' with_reducible (first | assumption | refine State_updThr_keeps (hk := ?_) ..)

theorem fencedTarget_keeps (n pa : Nat) (s : State) (hk : Keeps W Q L s) : Keeps W Q L (fencedTarget n pa s) := by
  rw [fencedTarget.eq_def]
  repeat' with_reducible (first | assumption | refine latch_keeps (hk := ?_) ..)

theorem enterEvent_keeps (n : Nat) (th : Bool) (vec code detail : Nat) (s : State) (hk : Keeps W Q L s) : Keeps W Q L (enterEvent n th vec code detail s) := by
  rw [enterEvent.eq_def]
  repeat' with_reducible (first | assumption | refine ite_keeps ?_ ?_ | refine State_updThr_keeps (hk := ?_) .. | refine cancelWaits_keeps (hk := ?_) .. | refine abortOwn_keeps (hk := ?_) ..)

theorem enterDue_keeps (n : Nat) (th : Bool) (e : Event) (s : State) (hk : Keeps W Q L s) : Keeps W Q L (enterDue n th e s) := by
  rw [enterDue.eq_def]
  repeat' (first | with_reducible (first | assumption | refine State_updThr_keeps (hk := ?_) .. | refine enterEvent_keeps (hk := ?_) ..) | split)

theorem takeExc_keeps (n : Nat) (th : Bool) (enc : Word) (long : Bool) (e : Exc) (s : State) (hk : Keeps W Q L s) : Keeps W Q L (takeExc n th enc long e s) := by
  rw [takeExc.eq_def]
  repeat' with_reducible (first | assumption | refine ite_keeps ?_ ?_ | refine State_updThr_keeps (hk := ?_) .. | refine cancelWaits_keeps (hk := ?_) .. | refine abortTx_keeps (hk := ?_) ..)

theorem fetchPhys_keeps (n : Nat) (th : Bool) (va : Word) (s : State) (hk : Keeps W Q L s) : Keeps W Q L (fetchPhys n th va s).2 := by
  rw [fetchPhys.eq_def]
  repeat' (first | with_reducible (first | assumption | refine itep_keeps ?_ ?_ | refine translate_keeps (hk := ?_) ..) | split)

theorem fetchLine_keeps (n : Nat) (th : Bool) (va : Word) (words : Nat) (p : Phys) (s : State) (hk : Keeps W Q L s) : Keeps W Q L (fetchLine n th va words p s).st := by
  rw [fetchLine.eq_def]
  repeat' (first | with_reducible (first | assumption | refine ite_keeps ?_ ?_ | refine iter_keeps ?_ ?_ | refine State_updPu_keeps (hk := ?_) .. | refine pair_keeps (by assumption) (obtainShared_keeps (hk := ?_) ..) | refine pair_keeps (by assumption) (homeAnswer_keeps (hk := ?_) ..) | refine useLine_keeps (hk := ?_) ..) | split)

theorem fetchWord_keeps (n : Nat) (th : Bool) (va : Word) (words : Nat) (s : State) (hk : Keeps W Q L s) : Keeps W Q L (fetchWord n th va words s).st := by
  rw [fetchWord.eq_def]
  repeat' (first | with_reducible (first | assumption | refine iter_keeps ?_ ?_ | refine State_updThr_keeps (hk := ?_) .. | refine fetchPhys_keeps (hk := ?_) .. | refine fetchLine_keeps (hk := ?_) ..) | split | simp only [])

theorem fetchIns_keeps (n : Nat) (th : Bool) (long : Bool) (s : State) (hk : Keeps W Q L s) : Keeps W Q L (fetchIns n th long s).st := by
  rw [fetchIns.eq_def]
  repeat' (first | with_reducible (first | assumption | refine iter_keeps ?_ ?_ | refine State_updThr_keeps (hk := ?_) .. | refine fetchWord_keeps (hk := ?_) .. | refine st_keeps (by assumption) (fetchWord_keeps (hk := ?_) ..)) | split)

theorem fetchFault_keeps (n : Nat) (th : Bool) (enc : Word) (long : Bool) (e : Exc) (s : State) (hk : Keeps W Q L s) : Keeps W Q L (fetchFault n th enc long e s) := by
  rw [fetchFault.eq_def]
  repeat' with_reducible (first | assumption | refine ite_keeps ?_ ?_ | refine raiseZone_keeps (hk := ?_) .. | refine takeExc_keeps (hk := ?_) ..)

theorem frontChecks_keeps (h : Hdr) (enc : Word) (long : Bool) (micro : Option Nat) (restricted : Bool) (dec : Dec) (s : State) (hk : Keeps W Q L s) : Keeps W Q L (frontChecks h enc long micro restricted dec s).st := by
  rw [frontChecks.eq_def]
  repeat' (first | with_reducible (first | assumption | refine abortOwn_keeps (hk := ?_) .. | refine takeExc_keeps (hk := ?_) ..) | split | simp only [])

theorem front_keeps (h : Hdr) (enc : Word) (long : Bool) (micro : Option Nat) (restricted : Bool) (dec : Dec) (s : State) (hk : Keeps W Q L s) : Keeps W Q L (front h enc long micro restricted dec s).st := by
  rw [front.eq_def]
  repeat' (first | with_reducible (first | assumption | refine enterDue_keeps (hk := ?_) .. | refine st_keeps (by assumption) (fetchIns_keeps (hk := ?_) ..) | refine ste_keeps (by assumption) (fetchIns_keeps (hk := ?_) ..) | refine stw_keeps (by assumption) (fetchIns_keeps (hk := ?_) ..) | refine fetchFault_keeps (hk := ?_) .. | refine frontChecks_keeps (hk := ?_) ..) | split | simp only [])

theorem endExc_keeps (n : Nat) (th : Bool) (enc : Word) (long : Bool) (e : Exc) (s : State) (hk : Keeps W Q L s) : Keeps W Q L (endExc n th enc long e s) := by
  rw [endExc.eq_def]
  repeat' with_reducible (first | assumption | refine ite_keeps ?_ ?_ | refine takeExc_keeps (hk := ?_) ..)

theorem runIns_keeps (h : Hdr) (enc : Word) (long jump : Bool) (micro : Option Nat) (restricted : Bool) (dec : Dec) (body : State → Res) (s : State) (hbody : ∀ x0, Keeps W Q L x0 → Keeps W Q L (body x0).st) (hk : Keeps W Q L s) : Keeps W Q L (runIns h enc long jump micro restricted dec body s) := by
  rw [runIns.eq_def]
  repeat' (first | with_reducible (first | assumption | refine ite_keeps ?_ ?_ | refine retire_keeps (hk := ?_) .. | refine advance_keeps (hk := ?_) .. | refine fs_keeps (by assumption) (front_keeps (hk := ?_) ..) | refine fk_keeps (by assumption) (front_keeps (hk := ?_) ..) | refine fg_keeps (by assumption) (front_keeps (hk := ?_) ..) | refine endExc_keeps (hk := ?_) .. | refine st_keeps (by assumption) (hbody _ ?_) | refine ste_keeps (by assumption) (hbody _ ?_) | refine stw_keeps (by assumption) (hbody _ ?_)) | split)

theorem runReg_keeps (h : Hdr) (enc : Word) (dec : Dec) (f : Arch → Arch) (s : State) (hk : Keeps W Q L s) : Keeps W Q L (runReg h enc dec f s) := by
  rw [runReg.eq_def]
  repeat' (first | with_reducible (first | assumption | refine State_updThr_keeps (hk := ?_) .. | refine runIns_keeps (hk := ?_) (hbody := ?_) ..) | intro _)

theorem runLong_keeps (h : Hdr) (enc : Word) (f : Arch → Arch) (s : State) (hk : Keeps W Q L s) : Keeps W Q L (runLong h enc f s) := by
  rw [runLong.eq_def]
  repeat' (first | with_reducible (first | assumption | refine State_updThr_keeps (hk := ?_) .. | refine runIns_keeps (hk := ?_) (hbody := ?_) ..) | intro _)

theorem runTrap_keeps (h : Hdr) (enc : Word) (dec : Dec) (f : Arch → Except Exc Arch) (s : State) (hk : Keeps W Q L s) : Keeps W Q L (runTrap h enc dec f s) := by
  rw [runTrap.eq_def]
  repeat' (first | with_reducible (first | assumption | refine State_updThr_keeps (hk := ?_) .. | refine runIns_keeps (hk := ?_) (hbody := ?_) ..) | split | intro _)

end Sys2Proof.Machine
end

