-- ==== Sys2Proof/Laws/KeepsModes.lean ====
section
/-! SUPPORT. Keeps of the operations of the homes, prediction, modes, DRAM, register words and power. -/

set_option Elab.async false

namespace Sys2Proof.Machine

variable {W : Prop} {Q : List Instr} {L : Limited → Prop}

theorem recallLine_keeps (l : Nat) (s : State) (hk : Keeps W Q L s) : Keeps W Q L (recallLine l s) := by
  rw [recallLine.eq_def]
  repeat' (first | with_reducible (first | assumption | refine dirFree_keeps (hk := ?_) .. | refine loseOthers_keeps (hk := ?_) .. | refine raiseZone_keeps (hk := ?_) .. | refine markNoAlloc_keeps (hk := ?_) ..) | split | simp only [])

theorem setRecall_keeps (i : Nat) (s : State) (hk : Keeps W Q L s) : Keeps W Q L (setRecall i s) := by
  rw [setRecall.eq_def]
  repeat' (first | with_reducible (first | assumption | refine recallLine_keeps (hk := ?_) .. | refine foldl_keeps _ ?_ _ _ ?_) | (intro _ _ _ e _; subst e; (try simp only [])) | split)

theorem recallTurn_keeps (i : Nat) (s : State) (hk : Keeps W Q L s) : Keeps W Q L (recallTurn i s).2 := by
  rw [recallTurn.eq_def]
  repeat' with_reducible (first | assumption | refine itep_keeps ?_ ?_ | refine latch_keeps (hk := ?_) .. | refine standBy_keeps (hk := ?_) .. | refine arbOut_keeps (hk := ?_) .. | refine setRecall_keeps (hk := ?_) ..)

theorem abortBad_keeps (n l : Nat) (s : State) (hk : Keeps W Q L s) : Keeps W Q L (abortBad n l s) := by
  rw [abortBad.eq_def]
  repeat' (first | with_reducible (first | assumption | refine ite_keeps ?_ ?_ | refine abortTx_keeps (hk := ?_) .. | refine foldl_keeps _ ?_ _ _ ?_) | (intro _ _ _ e _; subst e; (try simp only [])) | split)

theorem l2Poison_keeps (l : Nat) (s : State) (hk : Keeps W Q L s) : Keeps W Q L (l2Poison l s) := by
  rw [l2Poison.eq_def]
  repeat' (first | with_reducible (first | assumption | refine ite_keeps ?_ ?_ | refine latch_keeps (hk := ?_) .. | refine State_addPoison_keeps (hk := ?_) .. | refine evictLine_keeps (hk := ?_) .. | refine raiseZone_keeps (hk := ?_) .. | refine abortBad_keeps (hk := ?_) ..) | split)

theorem l2Drop_keeps (n l : Nat) (s : State) (hk : Keeps W Q L s) : Keeps W Q L (l2Drop n l s) := by
  rw [l2Drop.eq_def]
  repeat' with_reducible (first | assumption | refine State_updPu_keeps (hk := ?_) .. | refine latch_keeps (hk := ?_) .. | refine dirClear_keeps (hk := ?_) .. | refine abortBad_keeps (hk := ?_) ..)

theorem corrected_keeps (me l : Nat) (inL2 : Bool) (s : State) (hk : Keeps W Q L s) : Keeps W Q L (corrected me l inL2 s) := by
  rw [corrected.eq_def]
  repeat' (first | with_reducible (first | assumption | refine ite_keeps ?_ ?_ | refine latch_keeps (hk := ?_) .. | refine latchP_keeps (hk := ?_) ..) | split)

theorem arrayError_keeps (a : Acc) (l : Nat) (e : ArrayErr) (s : State) (hk : Keeps W Q L s) : Keeps W Q L (arrayError a l e s).2 := by
  rw [arrayError.eq_def]
  repeat' (first | with_reducible (first | assumption | refine ite_keeps ?_ ?_ | refine itep_keeps ?_ ?_ | refine State_updPu_keeps (hk := ?_) .. | refine latch_keeps (hk := ?_) .. | refine State_flushLine_keeps (hk := ?_) .. | refine State_addPoison_keeps (hk := ?_) .. | refine l3Remove_keeps (hk := ?_) .. | refine raiseZone_keeps (hk := ?_) .. | refine pair_keeps (by assumption) (recallTurn_keeps (hk := ?_) ..) | refine l2Poison_keeps (hk := ?_) .. | refine l2Drop_keeps (hk := ?_) .. | refine corrected_keeps (hk := ?_) ..) | split)

theorem setBusy_keeps (r : HomeReq) (todo : List Msg) (s : State) (hk : Keeps W Q L s) : Keeps W Q L (setBusy r todo s) := by
  rw [setBusy.eq_def]
  repeat' with_reducible exact Keeps.of (by assumption)

theorem admitRd_keeps (a : Acc) (l : Nat) (s : State) (hk : Keeps W Q L s) : Keeps W Q L (admitRd a l s).2 := by
  rw [admitRd.eq_def]
  repeat' (first | with_reducible (first | assumption | exact Keeps.of (by assumption) | refine ite_keeps ?_ ?_ | refine l3Fill_keeps (hk := ?_) .. | refine pair_keeps (by assumption) (dirAlloc_keeps (hk := ?_) ..) | refine pair_keeps (by assumption) (passPins_keeps (hk := ?_) ..) | refine setBusy_keeps (hk := ?_) ..) | split)

theorem admitRdx_keeps (a : Acc) (l : Nat) (stamp : Option Word) (kind : ReqKind) (s : State) (hk : Keeps W Q L s) : Keeps W Q L (admitRdx a l stamp kind s).2 := by
  rw [admitRdx.eq_def]
  repeat' (first | with_reducible (first | assumption | exact Keeps.of (by assumption) | refine ite_keeps ?_ ?_ | refine itep_keeps ?_ ?_ | refine l3Fill_keeps (hk := ?_) .. | refine pair_keeps (by assumption) (dirAlloc_keeps (hk := ?_) ..) | refine pair_keeps (by assumption) (passPins_keeps (hk := ?_) ..) | refine pinLine_keeps (hk := ?_) .. | refine setBusy_keeps (hk := ?_) ..) | split | simp only [])

theorem admitPrefetch_keeps (pu : Nat) (th : Bool) (l : Nat) (s : State) (hk : Keeps W Q L s) : Keeps W Q L (admitPrefetch pu th l s).2 := by
  rw [admitPrefetch.eq_def]
  repeat' (first | with_reducible (first | assumption | refine itep_keeps ?_ ?_ | refine State_updPu_keeps (hk := ?_) .. | refine l3Fill_keeps (hk := ?_) .. | refine pair_keeps (by assumption) (dirAlloc_keeps (hk := ?_) ..) | refine pair_keeps (by assumption) (pinsLet_keeps (hk := ?_) ..) | refine dropStale_keeps (hk := ?_) ..) | split)

theorem atHome_keeps (a : Acc) (pa : Nat) (k : AccKind) (cls : Nat) (s : State) (hk : Keeps W Q L s) : Keeps W Q L (atHome a pa k cls s).2 := by
  rw [atHome.eq_def]
  repeat' (first | with_reducible (first | assumption | refine pair_keeps (by assumption) (dramAnswer_keeps (hk := ?_) ..) | refine pairThen_keeps (by assumption) (dramAnswer_keeps (hk := ?_) ..) (fun e => Keeps.of e)) | split)

theorem homeAdmit_keeps (c : HomeCmd) (s : State) (hk : Keeps W Q L s) : Keeps W Q L (homeAdmit c s).2 := by
  rw [homeAdmit.eq_def]
  repeat' (first | with_reducible (first | assumption | refine itep_keeps ?_ ?_ | refine pair_keeps (by assumption) (dramAnswer_keeps (hk := ?_) ..) | refine conflicts_keeps (hk := ?_) .. | refine pair_keeps (by assumption) (recallCommit_keeps (hk := ?_) ..) | refine pairThen_keeps (by assumption) (recallCommit_keeps (hk := ?_) ..) (fun e => Keeps.of e) | refine pair_keeps (by assumption) (pinsLet_keeps (hk := ?_) ..) | refine pair_keeps (by assumption) (passPins_keeps (hk := ?_) ..) | refine obtainShared_keeps (hk := ?_) .. | refine obtainOwned_keeps (hk := ?_) .. | refine pair_keeps (by assumption) (mntLine_keeps (hk := ?_) ..) | refine pairThen_keeps (by assumption) (mntLine_keeps (hk := ?_) ..) (fun e => Keeps.of e) | refine pair3_keeps (by assumption) (amoHome_keeps (hk := ?_) ..) | refine pair3Then_keeps (by assumption) (amoHome_keeps (hk := ?_) ..) (fun e => Keeps.of e) | refine takeExc_keeps (hk := ?_) .. | refine pair_keeps (by assumption) (arrayError_keeps (hk := ?_) ..) | refine admitRd_keeps (hk := ?_) .. | refine admitRdx_keeps (hk := ?_) .. | refine admitPrefetch_keeps (hk := ?_) .. | refine pair_keeps (by assumption) (atHome_keeps (hk := ?_) ..)) | split | simp only [])

theorem serveFront_keeps {s : State} {e : Nat × List HomeCmd} {q : Nat × HomeCmd × State} (h : serveFront s e = some q) (hk : Keeps W Q L s) : Keeps W Q L q.2.2 := by
  rw [serveFront.eq_def] at h
  split at h
  · split at h
    · cases h; exact homeAdmit_keeps (hk := hk) ..
    · cases h
  · cases h

theorem settleWaits_keeps (y0 : Nat) (y1 : State) (hk : Keeps W Q L y1) : Keeps W Q L (settleWaits y0 y1) := by
  induction y0 generalizing y1 with
  | zero => rw [settleWaits]; exact hk
  | succ n ih =>
    rw [settleWaits]
    split
    · rename_i q h
      obtain ⟨e, -, h⟩ := List.exists_of_findSome?_eq_some h
      exact ih _ (Keeps.of (serveFront_keeps h hk))
    · exact hk

theorem settled_keeps (s : State) (hk : Keeps W Q L s) : Keeps W Q L (settled s) := by
  rw [settled.eq_def]
  repeat' with_reducible (first | assumption | refine drainWbuf_keeps (hk := ?_) .. | refine settleWaits_keeps (hk := ?_) ..)

theorem homeEnter_keeps (c : HomeCmd) (s : State) (hk : Keeps W Q L s) : Keeps W Q L (homeEnter c s) := by
  rw [homeEnter.eq_def]
  repeat' (first | with_reducible (first | assumption | exact Keeps.of (by assumption) | refine ite_keeps ?_ ?_ | refine pair_keeps (by assumption) (homeAdmit_keeps (hk := ?_) ..) | refine pairThen_keeps (by assumption) (homeAdmit_keeps (hk := ?_) ..) (fun e => Keeps.of e) | refine settled_keeps (hk := ?_) ..) | split)

theorem answerWrite_keeps (r : LineAns × State) (hk : Keeps W Q L r.2) : Keeps W Q L (answerWrite r) := by
  rw [answerWrite.eq_def]
  repeat' (first | with_reducible (first | assumption | exact Keeps.of (by assumption) | refine settled_keeps (hk := ?_) ..) | split)

theorem putBusy_keeps (l : Nat) (b : Option Busy) (s : State) (hk : Keeps W Q L s) : Keeps W Q L (putBusy l b s) := by
  rw [putBusy.eq_def]
  repeat' with_reducible exact Keeps.of (by assumption)

theorem recallHolder_keeps (r : HomeReq) (h : Nat) (s : State) (hk : Keeps W Q L s) : Keeps W Q L (recallHolder r h s) := by
  rw [recallHolder.eq_def]
  repeat' (first | with_reducible (first | assumption | refine ite_keeps ?_ ?_ | refine State_updPu_keeps (hk := ?_) .. | refine dirClear_keeps (hk := ?_) .. | refine writeBack_keeps (hk := ?_) .. | refine endReservations_keeps (hk := ?_) .. | refine conflicts_keeps (hk := ?_) .. | refine fencedCopy_keeps (hk := ?_) .. | refine loseCopy_keeps (hk := ?_) ..) | split)

theorem fillLine_keeps (b : Busy) (l : Nat) (st : CohState) (s : State) (hk : Keeps W Q L s) : Keeps W Q L (fillLine b l st s).2 := by
  rw [fillLine.eq_def]
  repeat' (first | with_reducible (first | assumption | refine itep_keeps ?_ ?_ | refine State_updPu_keeps (hk := ?_) .. | refine updDir_keeps (hk := ?_) .. | refine dirClear_keeps (hk := ?_) .. | refine pair_keeps (by assumption) (l2Room_keeps (hk := ?_) ..) | refine l2Install_keeps (hk := ?_) ..) | split | simp only [])

theorem trainBranch_keeps (h : Hdr) (pc : Word) (taken : Bool) (target : Word) (k : BrKind) (s : State) (hk : Keeps W Q L s) : Keeps W Q L (trainBranch h pc taken target k s) := by
  rw [trainBranch.eq_def]
  repeat' with_reducible (first | assumption | refine State_updPu_keeps (hk := ?_) .. | refine State_updThr_keeps (hk := ?_) ..)

theorem runBranch_keeps (h : Hdr) (enc : Word) (long : Bool) (micro : Option Nat) (dec : Dec) (kind : Word → BrKind) (body : State → Res) (s : State) (hbody : ∀ x0, Keeps W Q L x0 → Keeps W Q L (body x0).st) (hk : Keeps W Q L s) : Keeps W Q L (runBranch h enc long micro dec kind body s) := by
  rw [runBranch.eq_def]
  repeat' (first | with_reducible (first | assumption | refine retire_keeps (hk := ?_) .. | refine advance_keeps (hk := ?_) .. | refine fs_keeps (by assumption) (front_keeps (hk := ?_) ..) | refine fk_keeps (by assumption) (front_keeps (hk := ?_) ..) | refine fg_keeps (by assumption) (front_keeps (hk := ?_) ..) | refine endExc_keeps (hk := ?_) .. | refine trainBranch_keeps (hk := ?_) .. | refine st_keeps (by assumption) (hbody _ ?_) | refine ste_keeps (by assumption) (hbody _ ?_) | refine stw_keeps (by assumption) (hbody _ ?_)) | split)

theorem checkDegraded_keeps (s : State) (hk : Keeps W Q L s) : Keeps W Q L (checkDegraded s) := by
  rw [checkDegraded.eq_def]
  repeat' with_reducible (first | assumption | refine ite_keeps ?_ ?_ | refine setMode_keeps (hk := ?_) ..)

theorem rearmOne_keeps (g : Nat) (s : State) (hk : Keeps W Q L s) : Keeps W Q L (rearmOne g s) := by
  rw [rearmOne.eq_def]
  repeat' with_reducible (first | assumption | exact Keeps.of (by assumption) | refine ite_keeps ?_ ?_)

theorem rearm_keeps (mask : BitVec 20) (s : State) (hk : Keeps W Q L s) : Keeps W Q L (rearm mask s) := by
  rw [rearm.eq_def]
  repeat' (first | with_reducible (first | assumption | refine ite_keeps ?_ ?_ | refine rearmOne_keeps (hk := ?_) .. | refine foldl_keeps _ ?_ _ _ ?_) | (intro _ _ _ e _; subst e; (try simp only [])))

theorem enableZones_keeps (l : List Nat) (s : State) (hk : Keeps W Q L s) : Keeps W Q L (enableZones l s) := by
  rw [enableZones.eq_def]
  repeat' (first | with_reducible (first | assumption | refine lcCommand_keeps (hk := ?_) .. | refine foldl_keeps _ ?_ _ _ ?_) | (intro _ _ _ e _; subst e; (try simp only [])))

theorem startMaskZones_keeps (s : State) (hk : Keeps W Q L s) : Keeps W Q L (startMaskZones s) := by
  rw [startMaskZones.eq_def]
  repeat' with_reducible (first | assumption | refine ite_keeps ?_ ?_ | refine lcCommand_keeps (hk := ?_) .. | refine enableZones_keeps (hk := ?_) .. | refine Keeps.of (lcCommand_keeps (hk := ?_) ..))

theorem zonesAfterZ0_keeps (s : State) (hk : Keeps W Q L s) : Keeps W Q L (zonesAfterZ0 s) := by
  rw [zonesAfterZ0.eq_def]
  repeat' with_reducible (first | assumption | exact Keeps.of (by assumption) | refine ite_keeps ?_ ?_ | refine enableZones_keeps (hk := ?_) ..)

theorem bumpEpoch_keeps (s : State) (hk : Keeps W Q L s) : Keeps W Q L (bumpEpoch s) := by
  rw [bumpEpoch.eq_def]
  repeat' with_reducible (first | assumption | refine ite_keeps ?_ ?_ | refine giveGrant_keeps (hk := ?_) .. | refine writeOpenRec_keeps (hk := ?_) .. | refine Keeps.of (State_wrThrough_keeps (hk := ?_) ..))

theorem enterRun_keeps (cause : Nat) (s : State) (hk : Keeps W Q L s) : Keeps W Q L (enterRun cause s) := by
  rw [enterRun.eq_def]
  repeat' with_reducible (first | assumption | refine ite_keeps ?_ ?_ | refine openRegion_keeps (hk := ?_) .. | refine rearm_keeps (hk := ?_) .. | refine bumpEpoch_keeps (hk := ?_) .. | refine Keeps.of (setMode_keeps (hk := ?_) ..))

theorem enterQuiesced_keeps (cause : Nat) (fromM2 : Bool) (s : State) (hk : Keeps W Q L s) : Keeps W Q L (enterQuiesced cause fromM2 s) := by
  rw [enterQuiesced.eq_def]
  repeat' (first | with_reducible (first | assumption | refine lcCommand_keeps (hk := ?_) .. | refine foldl_keeps _ ?_ _ _ ?_ | refine Keeps.of (setMode_keeps (hk := ?_) ..)) | (intro _ _ _ e _; subst e; (try simp only [])))

theorem mainReset_keeps (s : State) (hk : Keeps W Q L s) : Keeps W Q L (mainReset s) := by
  rw [mainReset.eq_def]
  exact ⟨hk.1, hk.2, fun _ => rfl, fun _ => rfl⟩

theorem idleValve_keeps (s : State) (hk : Keeps W Q L s) : Keeps W Q L (idleValve s) := by
  rw [idleValve.eq_def]
  repeat' with_reducible exact Keeps.of (by assumption)

theorem endIntervals_keeps (s : State) (hk : Keeps W Q L s) : Keeps W Q L (endIntervals s) := by
  rw [endIntervals.eq_def]
  repeat' (first | with_reducible (first | assumption | refine ite_keeps ?_ ?_ | refine lockstepWait_keeps (hk := ?_) .. | refine foldl_keeps _ ?_ _ _ ?_) | (intro _ _ _ e _; subst e; (try simp only [])))

theorem railsOff_keeps (s : State) (hk : Keeps W Q L s) : Keeps W Q L (railsOff s) := by
  rw [railsOff.eq_def]
  repeat' with_reducible (first | assumption | refine mainReset_keeps (hk := ?_) .. | refine endIntervals_keeps (hk := ?_) .. | refine Keeps.of (idleValve_keeps (hk := ?_) ..))

theorem startRails_keeps (s : State) (hk : Keeps W Q L s) : Keeps W Q L (startRails s) := by
  rw [startRails.eq_def]
  repeat' with_reducible (first | assumption | exact Keeps.of (by assumption) | refine ite_keeps ?_ ?_ | refine State_setEntry_keeps (hk := ?_) .. | refine cancelRequest_keeps (hk := ?_) ..)

theorem leaveCold_keeps (s : State) (hk : Keeps W Q L s) : Keeps W Q L (leaveCold s) := by
  rw [leaveCold.eq_def]
  repeat' (first | with_reducible (first | assumption | exact Keeps.of (by assumption) | refine ite_keeps ?_ ?_ | refine answerWaited_keeps (hk := ?_) .. | refine startRails_keeps (hk := ?_) .. | refine foldl_keeps _ ?_ _ _ ?_) | (intro _ _ _ e _; subst e; (try simp only [])))

theorem enterCold_keeps (cause : Nat) (s : State) (hk : Keeps W Q L s) : Keeps W Q L (enterCold cause s) := by
  rw [enterCold.eq_def]
  repeat' with_reducible (first | assumption | refine ite_keeps ?_ ?_ | refine setMode_keeps (hk := ?_) .. | refine debugOff_keeps (hk := ?_) .. | refine railsOff_keeps (hk := ?_) .. | refine leaveCold_keeps (hk := ?_) .. | refine Keeps.of (setMode_keeps (hk := ?_) ..) | refine Keeps.of (ite_keeps ?_ ?_))

theorem mainIslandsUp_keeps (s : State) (hk : Keeps W Q L s) : Keeps W Q L (mainIslandsUp s) := by
  rw [mainIslandsUp.eq_def]
  repeat' (first | with_reducible (first | assumption | refine State_updIsland_keeps (hk := ?_) .. | refine foldl_keeps _ ?_ _ _ ?_) | (intro _ _ _ e _; subst e; (try simp only [])))

theorem enterProvision_keeps (s : State) (hk : Keeps W Q L s) : Keeps W Q L (enterProvision s) := by
  rw [enterProvision.eq_def]
  repeat' (first | with_reducible (first | assumption | refine State_setEntry_keeps (hk := ?_) .. | refine answerWaited_keeps (hk := ?_) .. | refine setMode_keeps (hk := ?_) .. | refine mainIslandsUp_keeps (hk := ?_) .. | refine foldl_keeps _ ?_ _ _ ?_ | refine Keeps.of (mainReset_keeps (hk := ?_) ..)) | (intro _ _ _ e _; subst e; (try simp only [])))

theorem cancelArm_keeps (f : Fn) (s : State) (hk : Keeps W Q L s) : Keeps W Q L (cancelArm f s) := by
  rw [cancelArm.eq_def]
  repeat' with_reducible (first | assumption | refine ite_keeps ?_ ?_ | refine lcGo_keeps (hk := ?_) ..)

theorem enterHoldup_keeps (s : State) (hk : Keeps W Q L s) : Keeps W Q L (enterHoldup s) := by
  rw [enterHoldup.eq_def]
  repeat' (first | with_reducible (first | assumption | refine debugOff_keeps (hk := ?_) .. | refine cancelRequest_keeps (hk := ?_) .. | refine grantAll_keeps (hk := ?_) .. | refine dropTx_keeps (hk := ?_) .. | refine modeDisable_keeps (hk := ?_) .. | refine cancelArm_keeps (hk := ?_) .. | refine foldl_keeps _ ?_ _ _ ?_ | refine Keeps.of (setMode_keeps (hk := ?_) ..) | refine Keeps.of (foldl_keeps _ ?_ _ _ ?_)) | (intro _ _ _ e _; subst e; (try simp only [])))

theorem powerFails_keeps (s : State) (hk : Keeps W Q L s) : Keeps W Q L (powerFails s) := by
  rw [powerFails.eq_def]
  repeat' with_reducible (first | assumption | exact Keeps.of (by assumption) | refine ite_keeps ?_ ?_ | refine State_setEntry_keeps (hk := ?_) .. | refine cancelRequest_keeps (hk := ?_) .. | refine enterCold_keeps (hk := ?_) .. | refine enterHoldup_keeps (hk := ?_) ..)

theorem writeSize_keeps (s : State) (hk : Keeps W Q L s) : Keeps W Q L (writeSize s) := by
  rw [writeSize.eq_def]
  repeat' with_reducible (first | assumption | exact Keeps.of (by assumption) | refine ite_keeps ?_ ?_)

theorem enableCommit_keeps (s : State) (hk : Keeps W Q L s) : Keeps W Q L (enableCommit s) := by
  rw [enableCommit.eq_def]
  repeat' with_reducible (first | assumption | refine ite_keeps ?_ ?_ | refine lcCommand_keeps (hk := ?_) .. | refine writeSize_keeps (hk := ?_) ..)

theorem leaveProvision_keeps (go : Bool) (s : State) (hk : Keeps W Q L s) : Keeps W Q L (leaveProvision go s) := by
  rw [leaveProvision.eq_def]
  repeat' with_reducible (first | assumption | exact Keeps.of (by assumption) | refine ite_keeps ?_ ?_ | refine setMode_keeps (hk := ?_) .. | refine startMaskZones_keeps (hk := ?_) .. | refine enterRun_keeps (hk := ?_) .. | refine writeSize_keeps (hk := ?_) .. | refine Keeps.of (enableCommit_keeps (hk := ?_) ..))

theorem leaveRestore_keeps (s : State) (hk : Keeps W Q L s) : Keeps W Q L (leaveRestore s) := by
  rw [leaveRestore.eq_def]
  repeat' (first | with_reducible (first | assumption | refine ite_keeps ?_ ?_ | refine startMaskZones_keeps (hk := ?_) .. | refine enterRun_keeps (hk := ?_) .. | refine enterQuiesced_keeps (hk := ?_) ..) | split)

theorem refuseRequest_keeps (i : Option K3Item) (s : State) (hk : Keeps W Q L s) : Keeps W Q L (refuseRequest i s) := by
  rw [refuseRequest.eq_def]
  repeat' with_reducible (first | assumption | refine answerMode_keeps (hk := ?_) ..)

theorem acceptRequest_keeps (i : Option K3Item) (s : State) (hk : Keeps W Q L s) : Keeps W Q L (acceptRequest i s) := by
  rw [acceptRequest.eq_def]
  repeat' with_reducible (first | assumption | refine answerMode_keeps (hk := ?_) ..)

theorem finishService_keeps (s : State) (hk : Keeps W Q L s) : Keeps W Q L (finishService s) := by
  rw [finishService.eq_def]
  repeat' (first | with_reducible (first | assumption | exact Keeps.of (by assumption) | refine ite_keeps ?_ ?_ | refine setMode_keeps (hk := ?_) .. | refine enterRun_keeps (hk := ?_) ..) | split)

theorem leaveService_keeps (target : Nat) (s : State) (hk : Keeps W Q L s) : Keeps W Q L (leaveService target s) := by
  rw [leaveService.eq_def]
  repeat' with_reducible (first | assumption | refine finishService_keeps (hk := ?_) .. | refine Keeps.of (debugOff_keeps (hk := ?_) ..))

theorem orderlyStart_keeps (s : State) (hk : Keeps W Q L s) : Keeps W Q L (orderlyStart s) := by
  rw [orderlyStart.eq_def]
  repeat' with_reducible (first | assumption | refine Keeps.of (drainStart_keeps (hk := ?_) ..))

theorem vauxReset_keeps (s : State) (hk : Keeps W Q L s) : Keeps W Q L (vauxReset s) := by
  rw [vauxReset.eq_def]
  exact ⟨hk.1, hk.2, fun _ => rfl, fun _ => rfl⟩

theorem eccLog_keeps (m : Fin 20) (kind : Nat) (l : Nat) (master : Nat) (s : State) (hk : Keeps W Q L s) : Keeps W Q L (eccLog m kind l master s) := by
  rw [eccLog.eq_def]
  repeat' with_reducible (first | assumption | refine State_updMc_keeps (hk := ?_) .. | refine State_draw_keeps (hk := ?_) ..)

theorem wakeRank_keeps (g r : Nat) (s : State) (hk : Keeps W Q L s) : Keeps W Q L (wakeRank g r s) := by
  rw [wakeRank.eq_def]
  repeat' (first | with_reducible (first | assumption | refine State_updMc_keeps (hk := ?_) .. | refine foldl_keeps _ ?_ _ _ ?_) | (intro _ _ _ e _; subst e; (try simp only [])))

theorem queueLine_keeps (l : Nat) (write : Bool) (master : Nat) (s : State) (hk : Keeps W Q L s) : Keeps W Q L (queueLine l write master s) := by
  rw [queueLine.eq_def]
  repeat' (first | with_reducible (first | assumption | refine State_updMc_keeps (hk := ?_) .. | refine wakeRank_keeps (hk := ?_) .. | refine foldl_keeps _ ?_ _ _ ?_) | (intro _ _ _ e _; subst e; (try simp only [])))

theorem eccLost_keeps (m : Fin 20) (l : Nat) (master : Nat) (s : State) (hk : Keeps W Q L s) : Keeps W Q L (eccLost m l master s) := by
  rw [eccLost.eq_def]
  repeat' with_reducible (first | assumption | refine State_addPoison_keeps (hk := ?_) .. | refine raiseZone_keeps (hk := ?_) .. | refine eccLog_keeps (hk := ?_) ..)

theorem readStripes_keeps (l : Nat) (master : Nat) (st : List Stripe) (all : Bool) (s : State) (hk : Keeps W Q L s) : Keeps W Q L (readStripes l master st all s) := by
  rw [readStripes.eq_def]
  repeat' (first | with_reducible (first | assumption | refine ite_keeps ?_ ?_ | refine latch_keeps (hk := ?_) .. | refine latchP_keeps (hk := ?_) .. | refine checkDegraded_keeps (hk := ?_) .. | refine eccLog_keeps (hk := ?_) .. | refine queueLine_keeps (hk := ?_) .. | refine eccLost_keeps (hk := ?_) .. | refine foldl_keeps _ ?_ _ _ ?_) | (intro _ _ _ e _; subst e; (try simp only [])) | split)

theorem putDram_keeps (line : Nat) (bytes : List Byte) (dirty : Bool) (s : State) (hk : Keeps W Q L s) : Keeps W Q L (putDram line bytes dirty s) := by
  rw [putDram.eq_def]
  refine ⟨hk.1, hk.2, ?_, fun w => memPut_wf _ _ _ (hk.4 w)⟩
  simp only []
  split
  · exact hk.3
  · exact fun w => copyLine_wf _ _ _ (hk.3 w)

theorem activate_keeps (mc : Fin 20) (loc : DevLoc) (s : State) (hk : Keeps W Q L s) : Keeps W Q L (activate mc loc s) := by
  rw [activate.eq_def]
  repeat' with_reducible (first | assumption | refine ite_keeps ?_ ?_ | refine itep_keeps ?_ ?_ | refine State_updMc_keeps (hk := ?_) .. | refine State_draw_keeps (hk := ?_) .. | refine latch_keeps (hk := ?_) ..)

theorem targetedRefresh_keeps (mc : Fin 20) (e : Nat × Nat × Nat) (s : State) (hk : Keeps W Q L s) : Keeps W Q L (targetedRefresh mc e s) := by
  rw [targetedRefresh.eq_def]
  repeat' with_reducible (first | assumption | refine State_updMc_keeps (hk := ?_) .. | refine activate_keeps (hk := ?_) ..)

theorem trnWrite_keeps (mc : Fin 20) (w : Word) (s : State) (hk : Keeps W Q L s) : Keeps W Q L (trnWrite mc w s) := by
  rw [trnWrite.eq_def]
  repeat' with_reducible (first | assumption | refine ite_keeps ?_ ?_ | refine State_updMc_keeps (hk := ?_) ..)

theorem trainFails_keeps (mc : Fin 20) (r : Fin 4) (s : State) (hk : Keeps W Q L s) : Keeps W Q L (trainFails mc r s) := by
  rw [trainFails.eq_def]
  repeat' with_reducible (first | assumption | refine latch_keeps (hk := ?_) .. | refine fenceFn_keeps (hk := ?_) .. | refine checkDegraded_keeps (hk := ?_) ..)

theorem startRebuild_keeps (m : Fin 20) (s : State) (hk : Keeps W Q L s) : Keeps W Q L (startRebuild m s) := by
  rw [startRebuild.eq_def]
  repeat' with_reducible (first | assumption | refine ite_keeps ?_ ?_ | refine State_updGrp_keeps (hk := ?_) ..)

theorem mcRead_keeps (m : Fin 20) (off : Nat) (s : State) (hk : Keeps W Q L s) : Keeps W Q L (mcRead m off s).2 := by
  rw [mcRead.eq_def]
  repeat' with_reducible (first | assumption | refine itep_keeps ?_ ?_ | refine State_updMc_keeps (hk := ?_) ..)

theorem mcWrite_keeps (m : Fin 20) (off : Nat) (w : Word) (s : State) (hk : Keeps W Q L s) : Keeps W Q L (mcWrite m off w s) := by
  rw [mcWrite.eq_def]
  repeat' with_reducible (first | assumption | refine ite_keeps ?_ ?_ | refine State_updMc_keeps (hk := ?_) .. | refine trnWrite_keeps (hk := ?_) ..)

theorem writeChkRecord_keeps (s : State) (hk : Keeps W Q L s) : Keeps W Q L (writeChkRecord s) := by
  rw [writeChkRecord.eq_def]
  repeat' with_reducible exact Keeps.of (by assumption)

theorem after_keeps (s : State) (hk : Keeps W Q L s) : Keeps W Q L (after s) := by
  rw [after.eq_def]
  repeat' with_reducible (first | assumption | refine checkDegraded_keeps (hk := ?_) .. | refine zonesAfterZ0_keeps (hk := ?_) ..)

theorem joinBuses_keeps (s : State) (hk : Keeps W Q L s) : Keeps W Q L (joinBuses s) := by
  rw [joinBuses.eq_def]
  repeat' with_reducible exact Keeps.of (by assumption)

theorem bootDone_keeps (event : Nat) (ver : BitVec 32) (s : State) (hk : Keeps W Q L s) : Keeps W Q L (bootDone event ver s) := by
  rw [bootDone.eq_def]
  repeat' with_reducible (first | exact Keeps.of (by assumption) | refine ite_keeps ?_ ?_ | refine setMode_keeps (hk := ?_) .. | refine leaveCold_keeps (hk := ?_) .. | refine joinBuses_keeps (hk := ?_) .. | refine Keeps.of (setMode_keeps (hk := ?_) ..))

theorem recoveryAnswer_keeps (code : Nat) (s : State) (hk : Keeps W Q L s) : Keeps W Q L (recoveryAnswer code s) := by
  rw [recoveryAnswer.eq_def]
  repeat' (first | with_reducible (first | assumption | refine canSend_keeps (hk := ?_) .. | refine foldl_keeps _ ?_ _ _ ?_) | (intro _ _ _ e _; subst e; (try simp only [])))

theorem recoveryWrite_keeps (verifies : Bool) (ver : BitVec 32) (s : State) (hk : Keeps W Q L s) : Keeps W Q L (recoveryWrite verifies ver s) := by
  rw [recoveryWrite.eq_def]
  repeat' with_reducible (first | assumption | refine ite_keeps ?_ ?_ | refine Keeps.of (recoveryAnswer_keeps (hk := ?_) ..))

theorem waitRequest_keeps (code : Nat) (p : Principal) (i : Option K3Item) (s : State) (hk : Keeps W Q L s) : Keeps W Q L (waitRequest code p i s) := by
  rw [waitRequest.eq_def]
  repeat' with_reducible exact Keeps.of (by assumption)

theorem modeCold_keeps (p : Principal) (i : Option K3Item) (s : State) (hk : Keeps W Q L s) : Keeps W Q L (modeCold p i s) := by
  rw [modeCold.eq_def]
  repeat' with_reducible (first | assumption | refine ite_keeps ?_ ?_ | refine enterCold_keeps (hk := ?_) .. | refine refuseRequest_keeps (hk := ?_) .. | refine acceptRequest_keeps (hk := ?_) .. | refine orderlyStart_keeps (hk := ?_) .. | refine waitRequest_keeps (hk := ?_) ..)

theorem startRequest_keeps (code : Nat) (p : Principal) (i : Option K3Item) (s : State) (hk : Keeps W Q L s) : Keeps W Q L (startRequest code p i s) := by
  rw [startRequest.eq_def]
  repeat' with_reducible (first | assumption | refine ite_keeps ?_ ?_ | refine startRails_keeps (hk := ?_) .. | refine waitRequest_keeps (hk := ?_) ..)

theorem modeProvision_keeps (p : Principal) (i : Option K3Item) (s : State) (hk : Keeps W Q L s) : Keeps W Q L (modeProvision p i s) := by
  rw [modeProvision.eq_def]
  repeat' with_reducible (first | assumption | refine ite_keeps ?_ ?_ | refine refuseRequest_keeps (hk := ?_) .. | refine startRequest_keeps (hk := ?_) ..)

theorem restartZones_keeps (s : State) (hk : Keeps W Q L s) : Keeps W Q L (restartZones s) := by
  rw [restartZones.eq_def]
  repeat' with_reducible (first | assumption | refine enableZones_keeps (hk := ?_) .. | refine startMaskZones_keeps (hk := ?_) .. | refine Keeps.of (ite_keeps ?_ ?_))

theorem modeRun_keeps (p : Principal) (i : Option K3Item) (s : State) (hk : Keeps W Q L s) : Keeps W Q L (modeRun p i s) := by
  rw [modeRun.eq_def]
  repeat' (first | with_reducible (first | assumption | exact Keeps.of (by assumption) | refine ite_keeps ?_ ?_ | refine enterRun_keeps (hk := ?_) .. | refine leaveProvision_keeps (hk := ?_) .. | refine refuseRequest_keeps (hk := ?_) .. | refine acceptRequest_keeps (hk := ?_) .. | refine leaveService_keeps (hk := ?_) .. | refine waitRequest_keeps (hk := ?_) .. | refine startRequest_keeps (hk := ?_) .. | refine restartZones_keeps (hk := ?_) ..) | split)

theorem modeService_keeps (p : Principal) (i : Option K3Item) (s : State) (hk : Keeps W Q L s) : Keeps W Q L (modeService p i s) := by
  rw [modeService.eq_def]
  repeat' with_reducible (first | assumption | exact Keeps.of (by assumption) | refine ite_keeps ?_ ?_ | refine refuseRequest_keeps (hk := ?_) .. | refine acceptRequest_keeps (hk := ?_) .. | refine waitRequest_keeps (hk := ?_) .. | refine Keeps.of (setMode_keeps (hk := ?_) ..))

theorem modeQuiesce_keeps (p : Principal) (i : Option K3Item) (s : State) (hk : Keeps W Q L s) : Keeps W Q L (modeQuiesce p i s) := by
  rw [modeQuiesce.eq_def]
  repeat' (first | with_reducible (first | assumption | refine ite_keeps ?_ ?_ | refine enterQuiesced_keeps (hk := ?_) .. | refine refuseRequest_keeps (hk := ?_) .. | refine acceptRequest_keeps (hk := ?_) .. | refine leaveService_keeps (hk := ?_) .. | refine waitRequest_keeps (hk := ?_) ..) | split)

theorem modeRequest_keeps (p : Principal) (code : Nat) (i : Option K3Item) (s : State) (hk : Keeps W Q L s) : Keeps W Q L (modeRequest p code i s) := by
  rw [modeRequest.eq_def]
  repeat' (first | with_reducible (first | assumption | refine refuseRequest_keeps (hk := ?_) .. | refine modeCold_keeps (hk := ?_) .. | refine modeProvision_keeps (hk := ?_) .. | refine modeRun_keeps (hk := ?_) .. | refine modeService_keeps (hk := ?_) .. | refine modeQuiesce_keeps (hk := ?_) ..) | split)

theorem takeRequests_keeps (y0 : Nat) (y1 : State) (hk : Keeps W Q L y1) : Keeps W Q L (takeRequests y0 y1) := by
  revert hk
  fun_induction takeRequests y0 y1 <;> intro hk <;> (repeat' with_reducible (first | assumption | exact Keeps.of (by assumption) | refine ite_keeps ?_ ?_ | refine ‹Keeps _ _ _ _ → Keeps _ _ _ _› ?_ | refine modeRequest_keeps (hk := ?_) .. | refine Keeps.of (modeRequest_keeps (hk := ?_) ..)))

theorem takeRequest_keeps (s : State) (hk : Keeps W Q L s) : Keeps W Q L (takeRequest s) := by
  rw [takeRequest.eq_def]
  repeat' with_reducible (first | assumption | refine takeRequests_keeps (hk := ?_) ..)

theorem fenceMain_keeps (s : State) (hk : Keeps W Q L s) : Keeps W Q L (fenceMain s) := by
  rw [fenceMain.eq_def]
  repeat' (first | with_reducible (first | assumption | refine State_updIsland_keeps (hk := ?_) .. | refine foldl_keeps _ ?_ _ _ ?_) | (intro _ _ _ e _; subst e; (try simp only [])))

theorem chooseRefs_keeps (onB : List Island) (s : State) (hk : Keeps W Q L s) : Keeps W Q L (chooseRefs onB s) := by
  rw [chooseRefs.eq_def]
  repeat' (first | with_reducible (first | assumption | refine ite_keeps ?_ ?_ | refine State_updIsland_keeps (hk := ?_) .. | refine foldl_keeps _ ?_ _ _ ?_) | (intro _ _ _ e _; subst e; (try simp only [])))

theorem reloadKeys_keeps (ok : Bool) (s : State) (hk : Keeps W Q L s) : Keeps W Q L (reloadKeys ok s) := by
  rw [reloadKeys.eq_def]
  repeat' (first | with_reducible (first | assumption | refine ite_keeps ?_ ?_ | refine State_draw_keeps (hk := ?_) .. | refine latch_keeps (hk := ?_) .. | refine pairThen_keeps (by assumption) ?_ (fun e => Keeps.of e)) | split)

theorem replaceInM1_keeps (n : Fin 48) (s : State) (hk : Keeps W Q L s) : Keeps W Q L (replaceInM1 n s) := by
  rw [replaceInM1.eq_def]
  repeat' (first | with_reducible (first | exact Keeps.of (by assumption) | refine ite_keeps ?_ ?_) | split)

theorem dropInM1_keeps (f : Fn) (s : State) (hk : Keeps W Q L s) : Keeps W Q L (dropInM1 f s) := by
  rw [dropInM1.eq_def]
  repeat' (first | with_reducible (first | assumption | exact Keeps.of (by assumption) | refine replaceInM1_keeps (hk := ?_) ..) | split)

theorem failInM1_keeps (src : Nat) (f : Fn) (s : State) (hk : Keeps W Q L s) : Keeps W Q L (failInM1 src f s) := by
  rw [failInM1.eq_def]
  repeat' with_reducible (first | assumption | refine faultFn_keeps (hk := ?_) .. | refine dropInM1_keeps (hk := ?_) ..)

theorem failTest_keeps (f : Fn) (s : State) (hk : Keeps W Q L s) : Keeps W Q L (failTest f s) := by
  rw [failTest.eq_def]
  repeat' with_reducible (first | assumption | refine ite_keeps ?_ ?_ | refine latch_keeps (hk := ?_) .. | refine failInM1_keeps (hk := ?_) ..)

theorem failLanes_keeps (n k : Nat) (s : State) (hk : Keeps W Q L s) : Keeps W Q L (failLanes n k s) := by
  rw [failLanes.eq_def]
  repeat' with_reducible (first | assumption | refine ite_keeps ?_ ?_ | refine State_updPu_keeps (hk := ?_) .. | refine failInM1_keeps (hk := ?_) ..)

theorem proveInM1_keeps (lanes : List (Nat × Nat)) (failed : List Fn) (s : State) (hk : Keeps W Q L s) : Keeps W Q L (proveInM1 lanes failed s) := by
  rw [proveInM1.eq_def]
  repeat' (first | with_reducible (first | assumption | refine ite_keeps ?_ ?_ | refine State_updPu_keeps (hk := ?_) .. | refine failTest_keeps (hk := ?_) .. | refine failLanes_keeps (hk := ?_) .. | refine foldl_keeps _ ?_ _ _ ?_ | refine Keeps.of (foldl_keeps _ ?_ _ _ ?_)) | (intro _ _ _ e _; subst e; (try simp only [])))

theorem provision_keeps (p : Prov) (s : State) (hk : Keeps W Q L s) : Keeps W Q L (provision p s) := by
  rw [provision.eq_def]
  repeat' with_reducible (first | assumption | refine ite_keeps ?_ ?_ | refine latch_keeps (hk := ?_) .. | refine proveInM1_keeps (hk := ?_) .. | refine Keeps.of (ite_keeps ?_ ?_))

theorem fenceAll_keeps (s : State) (hk : Keeps W Q L s) : Keeps W Q L (fenceAll s) := by
  rw [fenceAll.eq_def]
  repeat' (first | with_reducible (first | assumption | refine State_setLc_keeps (hk := ?_) .. | refine fenceMain_keeps (hk := ?_) .. | refine foldl_keeps _ ?_ _ _ ?_) | (intro _ _ _ e _; subst e; (try simp only [])))

theorem switchRefs_keeps (b : Bool) (s : State) (hk : Keeps W Q L s) : Keeps W Q L (switchRefs b s) := by
  rw [switchRefs.eq_def]
  repeat' (first | with_reducible (first | assumption | refine ite_keeps ?_ ?_ | refine State_updIsland_keeps (hk := ?_) .. | refine foldl_keeps _ ?_ _ _ ?_) | (intro _ _ _ e _; subst e; (try simp only [])))

end Sys2Proof.Machine
end

