-- ==== Sys2Proof/Laws/KeepsRows.lean ====
section
/-! SUPPORT. Keeps of the operations of channel rows, links, registers and memory accesses. -/

set_option Elab.async false

namespace Sys2Proof.Machine

variable {W : Prop} {Q : List Instr} {L : Limited → Prop}

theorem readCpd_keeps (n z zpa : Nat) (s : State) (hk : Keeps W Q L s) : Keeps W Q L (readCpd n z zpa s).2 := by
  rw [readCpd.eq_def]
  repeat' (first | with_reducible (first | assumption | refine itep_keeps ?_ ?_ | refine pair_keeps (by assumption) (zoneRead_keeps (hk := ?_) ..)) | split)

theorem chainOf_keeps (n z : Nat) (y0 : Nat) (y1 : Cpd) (y2 : State) (hk : Keeps W Q L y2) : Keeps W Q L (chainOf n z y0 y1 y2).2 := by
  revert hk
  fun_induction chainOf n z y0 y1 y2 <;> intro hk <;> (repeat' with_reducible (first | assumption | refine ‹Keeps _ _ _ _ → Keeps _ _ _ _› ?_ | refine pair_keeps (by assumption) (readCpd_keeps (hk := ?_) ..) | refine pair_keeps (by assumption) ?_))

theorem program_keeps (n z zpa : Nat) (s : State) (hk : Keeps W Q L s) : Keeps W Q L (program n z zpa s).2 := by
  rw [program.eq_def]
  repeat' (first | with_reducible (first | assumption | refine itep_keeps ?_ ?_ | refine pair_keeps (by assumption) (readCpd_keeps (hk := ?_) ..) | refine pair_keeps (by assumption) (chainOf_keeps (hk := ?_) ..)) | split)

theorem findIn_keeps (n e epN key : Nat) (s : State) (hk : Keeps W Q L s) : Keeps W Q L (findIn n e epN key s).2.2 := by
  rw [findIn.eq_def]
  repeat' (first | with_reducible (first | assumption | refine pair_keeps (by assumption) (readEntry_keeps (hk := ?_) ..) | refine foldl3_keeps _ ?_ _ _ ?_) | (intro _ _ _ e _; subst e; (try simp only [])) | split)

theorem findOut_keeps (n e key : Nat) (s : State) (hk : Keeps W Q L s) : Keeps W Q L (findOut n e key s).2 := by
  rw [findOut.eq_def]
  repeat' (first | with_reducible (first | assumption | refine itep_keeps ?_ ?_ | refine pair_keeps (by assumption) (readEntry_keeps (hk := ?_) ..)) | split)

theorem entryOpen_keeps (n i z : Nat) (s : State) (hk : Keeps W Q L s) : Keeps W Q L (entryOpen n i z s).2 := by
  rw [entryOpen.eq_def]
  repeat' with_reducible (first | assumption | refine askGrant_keeps (hk := ?_) ..)

theorem abandonOut_keeps (n i : Nat) (x : Xe) (ep : Ep) (s : State) (hk : Keeps W Q L s) : Keeps W Q L (abandonOut n i x ep s) := by
  rw [abandonOut.eq_def]
  repeat' with_reducible (first | assumption | refine State_updVol_keeps (hk := ?_) .. | refine sendTracked_keeps (hk := ?_) .. | refine putEntry_keeps (hk := ?_) ..)

theorem failOut_keeps (n i : Nat) (x : Xe) (ep : Ep) (code : Nat) (s : State) (hk : Keeps W Q L s) : Keeps W Q L (failOut n i x ep code s) := by
  rw [failOut.eq_def]
  repeat' with_reducible (first | assumption | refine complete_keeps (hk := ?_) .. | refine abandonOut_keeps (hk := ?_) ..)

theorem dataFrame_keeps (n : Nat) (x : Xe) (ep : Ep) (fs : List (Nat × Nat)) (k : Nat) (s : State) (hk : Keeps W Q L s) : Keeps W Q L (dataFrame n x ep fs k s).2 := by
  rw [dataFrame.eq_def]
  repeat' (first | with_reducible (first | assumption | refine pair_keeps (by assumption) (zoneReadN_keeps (hk := ?_) ..)) | split)

theorem pumpOut_keeps (n i : Nat) (x : Xe) (ep : Ep) (fs : List (Nat × Nat)) (y0 : Nat) (y1 : State) (hk : Keeps W Q L y1) : Keeps W Q L (pumpOut n i x ep fs y0 y1) := by
  revert hk
  fun_induction pumpOut n i x ep fs y0 y1 <;> intro hk <;> (repeat' with_reducible (first | assumption | refine ‹Keeps _ _ _ _ → Keeps _ _ _ _› ?_ | refine State_updVol_keeps (hk := ?_) .. | refine sendTracked_keeps (hk := ?_) .. | refine putEntry_keeps (hk := ?_) .. | refine pair_keeps (by assumption) (entryOpen_keeps (hk := ?_) ..) | refine failOut_keeps (hk := ?_) .. | refine pair_keeps (by assumption) (dataFrame_keeps (hk := ?_) ..)))

theorem pump_keeps (n i : Nat) (x : Xe) (ep : Ep) (s : State) (hk : Keeps W Q L s) : Keeps W Q L (pump n i x ep s) := by
  rw [pump.eq_def]
  repeat' (first | with_reducible (first | assumption | refine ite_keeps ?_ ?_ | refine pair_keeps (by assumption) (program_keeps (hk := ?_) ..) | refine failOut_keeps (hk := ?_) .. | refine pumpOut_keeps (hk := ?_) ..) | split)

theorem nudge_keeps (n i epN : Nat) (ep : Ep) (s : State) (hk : Keeps W Q L s) : Keeps W Q L (nudge n i epN ep s) := by
  rw [nudge.eq_def]
  repeat' (first | with_reducible (first | assumption | refine ite_keeps ?_ ?_ | refine State_updVol_keeps (hk := ?_) .. | refine sendTracked_keeps (hk := ?_) .. | refine redrive_keeps (hk := ?_) ..) | split)

theorem askFor_keeps (n i epN : Nat) (ep : Ep) (fs : List Frame) (s : State) (hk : Keeps W Q L s) : Keeps W Q L (askFor n i epN ep fs s) := by
  rw [askFor.eq_def]
  repeat' with_reducible (first | assumption | refine State_updVol_keeps (hk := ?_) .. | refine redrive_keeps (hk := ?_) ..)

theorem lastData_keeps (n : Nat) (x : Xe) (ep : Ep) (fs : List (Nat × Nat)) (s : State) (hk : Keeps W Q L s) : Keeps W Q L (lastData n x ep fs s).2 := by
  rw [lastData.eq_def]
  repeat' (first | with_reducible (first | assumption | refine pair_keeps (by assumption) (dataFrame_keeps (hk := ?_) ..) | refine foldl2_keeps _ ?_ _ _ ?_) | (intro _ _ _ e _; subst e; (try simp only [])) | split)

theorem rebuildEntry_keeps (restored : Bool) (n i : Nat) (s : State) (hk : Keeps W Q L s) : Keeps W Q L (rebuildEntry restored n i s) := by
  rw [rebuildEntry.eq_def]
  repeat' (first | with_reducible (first | assumption | refine ite_keeps ?_ ?_ | refine State_updVol_keeps (hk := ?_) .. | refine pair_keeps (by assumption) (readEntry_keeps (hk := ?_) ..) | refine pair_keeps (by assumption) (endpoint_keeps (hk := ?_) ..) | refine putEntry_keeps (hk := ?_) .. | refine pair_keeps (by assumption) (program_keeps (hk := ?_) ..) | refine askFor_keeps (hk := ?_) .. | refine pair_keeps (by assumption) (lastData_keeps (hk := ?_) ..)) | split)

theorem rebuildLe_keeps (restored : Bool) (n e : Nat) (s : State) (hk : Keeps W Q L s) : Keeps W Q L (rebuildLe restored n e s) := by
  rw [rebuildLe.eq_def]
  repeat' (first | with_reducible (first | assumption | refine rebuildEntry_keeps (hk := ?_) .. | refine foldl_keeps _ ?_ _ _ ?_) | (intro _ _ _ e _; subst e; (try simp only [])))

theorem applyOnce_keeps (s : State) (hk : Keeps W Q L s) : Keeps W Q L (applyOnce s) := by
  rw [applyOnce.eq_def]
  repeat' (first | with_reducible (first | assumption | exact Keeps.of (by assumption) | refine ite_keeps ?_ ?_ | refine rebuildLe_keeps (hk := ?_) .. | refine foldl_keeps _ ?_ _ _ ?_) | (intro _ _ _ e _; subst e; (try simp only [])) | split)

theorem statusAgain_keeps (n i : Nat) (x : Xe) (ep : Ep) (s : State) (hk : Keeps W Q L s) : Keeps W Q L (statusAgain n i x ep s) := by
  rw [statusAgain.eq_def]
  repeat' with_reducible (first | assumption | refine State_updVol_keeps (hk := ?_) .. | refine sendTracked_keeps (hk := ?_) ..)

theorem knownCmd_keeps (n i : Nat) (x : Xe) (ep : Ep) (l : Nat) (fixed : Bool) (f : Frame) (s : State) (hk : Keeps W Q L s) : Keeps W Q L (knownCmd n i x ep l fixed f s) := by
  rw [knownCmd.eq_def]
  repeat' with_reducible (first | assumption | refine ite_keeps ?_ ?_ | refine sendAnswer_keeps (hk := ?_) .. | refine statusAgain_keeps (hk := ?_) ..)

theorem cmdOpen_keeps (n i z : Nat) (s : State) (hk : Keeps W Q L s) : Keeps W Q L (cmdOpen n i z s).2 := by
  rw [cmdOpen.eq_def]
  repeat' with_reducible (first | assumption | refine askGrant_keeps (hk := ?_) .. | refine entryOpen_keeps (hk := ?_) ..)

theorem writeCmd_keeps (n i epN : Nat) (ep : Ep) (f : Frame) (s : State) (hk : Keeps W Q L s) : Keeps W Q L (writeCmd n i epN ep f s).2 := by
  rw [writeCmd.eq_def]
  repeat' (first | with_reducible (first | assumption | refine pair_keeps (by assumption) (ceWr_keeps (hk := ?_) ..) | refine putEntry_keeps (hk := ?_) .. | refine pair_keeps (by assumption) (cmdOpen_keeps (hk := ?_) ..)) | split | simp only [])

theorem rxCmd_keeps (n : Nat) (epN : Nat) (ep : Ep) (l : Nat) (f : Frame) (s : State) (hk : Keeps W Q L s) : Keeps W Q L (rxCmd n epN ep l f s) := by
  rw [rxCmd.eq_def]
  repeat' (first | with_reducible (first | assumption | refine ite_keeps ?_ ?_ | refine State_updCe_keeps (hk := ?_) .. | refine State_updVol_keeps (hk := ?_) .. | refine discardFrame_keeps (hk := ?_) .. | refine sendAnswer_keeps (hk := ?_) .. | refine findIn_keeps (hk := ?_) .. | refine knownCmd_keeps (hk := ?_) .. | refine writeCmd_keeps (hk := ?_) .. | refine Keeps.of (findIn_keeps (hk := ?_) ..) | refine Keeps.of (ite_keeps ?_ ?_)) | split)

theorem putPieces_keeps (n z : Nat) (b : List Byte) (y0 : List (Nat × Nat × Nat)) (y1 : State) (hk : Keeps W Q L y1) : Keeps W Q L (putPieces n z b y0 y1).2 := by
  revert hk
  fun_induction putPieces n z b y0 y1 <;> intro hk <;> (repeat' with_reducible (first | assumption | refine ‹Keeps _ _ _ _ → Keeps _ _ _ _› ?_ | refine zoneWriteN_keeps (hk := ?_) .. | refine pair_keeps (by assumption) (zoneWriteN_keeps (hk := ?_) ..)))

theorem rxData_keeps (n epN : Nat) (ep : Ep) (l : Nat) (f : Frame) (s : State) (hk : Keeps W Q L s) : Keeps W Q L (rxData n epN ep l f s) := by
  rw [rxData.eq_def]
  repeat' (first | with_reducible (first | assumption | refine ite_keeps ?_ ?_ | refine itep_keeps ?_ ?_ | refine State_updVol_keeps (hk := ?_) .. | refine discardFrame_keeps (hk := ?_) .. | refine sendAnswer_keeps (hk := ?_) .. | refine countUnwritten_keeps (hk := ?_) .. | refine putEntry_keeps (hk := ?_) .. | refine pair_keeps (by assumption) (program_keeps (hk := ?_) ..) | refine pair3_keeps (by assumption) (findIn_keeps (hk := ?_) ..) | refine findOut_keeps (hk := ?_) .. | refine pair_keeps (by assumption) (entryOpen_keeps (hk := ?_) ..) | refine failOut_keeps (hk := ?_) .. | refine putPieces_keeps (hk := ?_) .. | refine Keeps.of (findOut_keeps (hk := ?_) ..)) | split | simp only [])

theorem closeOut_keeps (n i : Nat) (x : Xe) (ep : Ep) (l : Nat) (f : Frame) (s : State) (hk : Keeps W Q L s) : Keeps W Q L (closeOut n i x ep l f s) := by
  rw [closeOut.eq_def]
  repeat' (first | with_reducible (first | assumption | refine ite_keeps ?_ ?_ | refine itep_keeps ?_ ?_ | refine State_updVol_keeps (hk := ?_) .. | refine sendAnswer_keeps (hk := ?_) .. | refine zoneWriteN_keeps (hk := ?_) .. | refine countUnwritten_keeps (hk := ?_) .. | refine complete_keeps (hk := ?_) .. | refine putEntry_keeps (hk := ?_) .. | refine pair_keeps (by assumption) (readCpd_keeps (hk := ?_) ..) | refine pair_keeps (by assumption) (entryOpen_keeps (hk := ?_) ..) | refine failOut_keeps (hk := ?_) ..) | split)

theorem rxStatus_keeps (n epN : Nat) (ep : Ep) (l : Nat) (f : Frame) (s : State) (hk : Keeps W Q L s) : Keeps W Q L (rxStatus n epN ep l f s) := by
  rw [rxStatus.eq_def]
  repeat' (first | with_reducible (first | assumption | refine ite_keeps ?_ ?_ | refine State_updVol_keeps (hk := ?_) .. | refine discardFrame_keeps (hk := ?_) .. | refine sendAnswer_keeps (hk := ?_) .. | refine putEntry_keeps (hk := ?_) .. | refine findIn_keeps (hk := ?_) .. | refine findOut_keeps (hk := ?_) .. | refine pair_keeps (by assumption) (entryOpen_keeps (hk := ?_) ..) | refine closeOut_keeps (hk := ?_) ..) | split)

theorem closeIn_keeps (n i : Nat) (x : Xe) (ep : Ep) (s : State) (hk : Keeps W Q L s) : Keeps W Q L (closeIn n i x ep s) := by
  rw [closeIn.eq_def]
  repeat' (first | with_reducible (first | assumption | refine State_updVol_keeps (hk := ?_) .. | refine complete_keeps (hk := ?_) .. | refine putEntry_keeps (hk := ?_) .. | refine pair_keeps (by assumption) (entryOpen_keeps (hk := ?_) ..)) | split)

theorem endOut_keeps (n i : Nat) (x : Xe) (ep : Ep) (state code status : Nat) (s : State) (hk : Keeps W Q L s) : Keeps W Q L (endOut n i x ep state code status s) := by
  rw [endOut.eq_def]
  repeat' (first | with_reducible (first | assumption | refine State_updVol_keeps (hk := ?_) .. | refine complete_keeps (hk := ?_) .. | refine putEntry_keeps (hk := ?_) .. | refine pair_keeps (by assumption) (entryOpen_keeps (hk := ?_) ..)) | split)

theorem rxAccept_keeps (n epN : Nat) (ep : Ep) (f : Frame) (s : State) (hk : Keeps W Q L s) : Keeps W Q L (rxAccept n epN ep f s) := by
  rw [rxAccept.eq_def]
  repeat' (first | with_reducible (first | assumption | refine ite_keeps ?_ ?_ | refine State_updVol_keeps (hk := ?_) .. | refine resend_keeps (hk := ?_) .. | refine answered_keeps (hk := ?_) .. | refine putEntry_keeps (hk := ?_) .. | refine pair3_keeps (by assumption) (findIn_keeps (hk := ?_) ..) | refine pair_keeps (by assumption) (findOut_keeps (hk := ?_) ..) | refine pair_keeps (by assumption) (entryOpen_keeps (hk := ?_) ..) | refine pump_keeps (hk := ?_) .. | refine closeIn_keeps (hk := ?_) .. | refine endOut_keeps (hk := ?_) ..) | split)

theorem rxRedrive_keeps (n epN : Nat) (ep : Ep) (l : Nat) (f : Frame) (s : State) (hk : Keeps W Q L s) : Keeps W Q L (rxRedrive n epN ep l f s) := by
  rw [rxRedrive.eq_def]
  repeat' (first | with_reducible (first | assumption | refine ite_keeps ?_ ?_ | refine discardFrame_keeps (hk := ?_) .. | refine sendAnswer_keeps (hk := ?_) .. | refine findIn_keeps (hk := ?_) .. | refine findOut_keeps (hk := ?_) .. | refine knownCmd_keeps (hk := ?_) ..) | split)

theorem homeFrame_keeps (n epN : Nat) (ep : Ep) (l : Nat) (f : Frame) (s : State) (hk : Keeps W Q L s) : Keeps W Q L (homeFrame n epN ep l f s) := by
  rw [homeFrame.eq_def]
  repeat' (first | with_reducible (first | assumption | refine applyOnce_keeps (hk := ?_) .. | refine rxCmd_keeps (hk := ?_) .. | refine rxData_keeps (hk := ?_) .. | refine rxStatus_keeps (hk := ?_) .. | refine rxAccept_keeps (hk := ?_) .. | refine rxRedrive_keeps (hk := ?_) ..) | split)

theorem frameEp_keeps (l : Nat) (f : Frame) (s : State) (hk : Keeps W Q L s) : Keeps W Q L (frameEp l f s).2 := by
  rw [frameEp.eq_def]
  repeat' (first | with_reducible (first | assumption | refine itep_keeps ?_ ?_ | refine pair_keeps (by assumption) (endpoint_keeps (hk := ?_) ..) | refine pair_keeps (by assumption) (nodeEp_keeps (hk := ?_) ..)) | split)

theorem countFec_keeps (l : Nat) (f : Frame) (s : State) (hk : Keeps W Q L s) : Keeps W Q L (countFec l f s) := by
  rw [countFec.eq_def]
  repeat' with_reducible (first | assumption | refine State_updLink_keeps (hk := ?_) ..)

theorem receive_keeps (kind : Nat) (link : Fin 512) (f : Frame) (s : State) (hk : Keeps W Q L s) : Keeps W Q L (receive kind link f s) := by
  rw [receive.eq_def]
  repeat' (first | with_reducible (first | assumption | refine ite_keeps ?_ ?_ | refine State_updLink_keeps (hk := ?_) .. | refine discardFrame_keeps (hk := ?_) .. | refine homeFrame_keeps (hk := ?_) .. | refine pair_keeps (by assumption) (frameEp_keeps (hk := ?_) ..) | refine pairThen_keeps (by assumption) (frameEp_keeps (hk := ?_) ..) (fun e => Keeps.of e) | refine countFec_keeps (hk := ?_) ..) | split)

theorem forward_keeps (l home : Nat) (f : Frame) (s : State) (hk : Keeps W Q L s) : Keeps W Q L (forward l home f s) := by
  rw [forward.eq_def]
  repeat' (first | with_reducible (first | exact Keeps.of (by assumption) | refine pair_keeps (by assumption) (endpoint_keeps (hk := ?_) ..) | refine discardFrame_keeps (hk := ?_) .. | refine homeFrame_keeps (hk := ?_) .. | refine pair_keeps (by assumption) (frameEp_keeps (hk := ?_) ..)) | split | simp only [])

theorem openEntry_keeps (i : Nat) (s : State) (hk : Keeps W Q L s) : Keeps W Q L (openEntry i s).2 := by
  rw [openEntry.eq_def]
  repeat' (first | with_reducible (first | assumption | refine pair_keeps (by assumption) (readEntry_keeps (hk := ?_) ..) | refine pair_keeps (by assumption) (endpoint_keeps (hk := ?_) ..)) | split)

theorem ioaReply_keeps (pu : Nat) (th : Bool) (v : Word) (s : State) (hk : Keeps W Q L s) : Keeps W Q L (ioaReply pu th v s) := by
  rw [ioaReply.eq_def]
  repeat' with_reducible (first | assumption | refine State_updThr_keeps (hk := ?_) ..)

theorem xAnswer_keeps (e : Nat) (r : XReq) (v : Word) (s : State) (hk : Keeps W Q L s) : Keeps W Q L (xAnswer e r v s) := by
  rw [xAnswer.eq_def]
  repeat' with_reducible (first | assumption | refine State_updLe_keeps (hk := ?_) .. | refine ioaReply_keeps (hk := ?_) ..)

theorem cmdStart_keeps (n e i : Nat) (r : XReq) (ep : Ep) (d : Cpd) (b : List Byte) (s : State) (hk : Keeps W Q L s) : Keeps W Q L (cmdStart n e i r ep d b s) := by
  rw [cmdStart.eq_def]
  repeat' with_reducible (first | assumption | refine ite_keeps ?_ ?_ | refine itep_keeps ?_ ?_ | refine ceWr_keeps (hk := ?_) .. | refine State_updVol_keeps (hk := ?_) .. | refine sendTracked_keeps (hk := ?_) .. | refine putEntry_keeps (hk := ?_) .. | refine xAnswer_keeps (hk := ?_) ..)

theorem xCmd_keeps (n e : Nat) (r : XReq) (ep : Ep) (d : Cpd) (s : State) (hk : Keeps W Q L s) : Keeps W Q L (xCmd n e r ep d s) := by
  rw [xCmd.eq_def]
  repeat' (first | with_reducible (first | assumption | refine pair_keeps (by assumption) (zoneReadN_keeps (hk := ?_) ..) | refine pair_keeps (by assumption) (entryOpen_keeps (hk := ?_) ..) | refine xAnswer_keeps (hk := ?_) .. | refine cmdStart_keeps (hk := ?_) ..) | split)

theorem xResp_keeps (n e : Nat) (r : XReq) (ep : Ep) (d : Cpd) (s : State) (hk : Keeps W Q L s) : Keeps W Q L (xResp n e r ep d s) := by
  rw [xResp.eq_def]
  repeat' (first | with_reducible (first | assumption | refine ite_keeps ?_ ?_ | refine pair_keeps (by assumption) (ceWr_keeps (hk := ?_) ..) | refine State_updVol_keeps (hk := ?_) .. | refine sendTracked_keeps (hk := ?_) .. | refine pair_keeps (by assumption) (zoneReadN_keeps (hk := ?_) ..) | refine putEntry_keeps (hk := ?_) .. | refine pair3_keeps (by assumption) (findIn_keeps (hk := ?_) ..) | refine pair_keeps (by assumption) (entryOpen_keeps (hk := ?_) ..) | refine xAnswer_keeps (hk := ?_) ..) | split | simp only [])

theorem serveXq_keeps (want : Nat) (e : Nat) (s : State) (hk : Keeps W Q L s) : Keeps W Q L (serveXq want e s) := by
  rw [serveXq.eq_def]
  repeat' (first | with_reducible (first | assumption | refine ite_keeps ?_ ?_ | refine pair_keeps (by assumption) (endpoint_keeps (hk := ?_) ..) | refine pair_keeps (by assumption) (program_keeps (hk := ?_) ..) | refine applyOnce_keeps (hk := ?_) .. | refine xAnswer_keeps (hk := ?_) .. | refine xCmd_keeps (hk := ?_) .. | refine xResp_keeps (hk := ?_) ..) | split | simp only [])

theorem pathDown_keeps (l : Nat) (s : State) (hk : Keeps W Q L s) : Keeps W Q L (pathDown l s) := by
  rw [pathDown.eq_def]
  repeat' (first | with_reducible (first | assumption | refine ite_keeps ?_ ?_ | refine engRun_keeps (hk := ?_) (hf := ?_) .. | refine redrive_keeps (hk := ?_) .. | refine pair_keeps (by assumption) (openEntry_keeps (hk := ?_) ..) | refine foldl_keeps _ ?_ _ _ ?_) | (intro _ _ _ e _; subst e; (try simp only [])) | split | intro _)

theorem deliverEntry_keeps (i : Nat) (s : State) (hk : Keeps W Q L s) : Keeps W Q L (deliverEntry i s) := by
  rw [deliverEntry.eq_def]
  repeat' (first | with_reducible (first | assumption | refine ite_keeps ?_ ?_ | refine deliver_keeps (hk := ?_) .. | refine pair_keeps (by assumption) (openEntry_keeps (hk := ?_) ..)) | split)

theorem slotEntry_keeps (z i : Nat) (s : State) (hk : Keeps W Q L s) : Keeps W Q L (slotEntry z i s) := by
  rw [slotEntry.eq_def]
  repeat' (first | with_reducible (first | assumption | refine ite_keeps ?_ ?_ | refine pair_keeps (by assumption) (openEntry_keeps (hk := ?_) ..) | refine deliverEntry_keeps (hk := ?_) ..) | split)

theorem quiesceEntry_keeps (z i : Nat) (s : State) (hk : Keeps W Q L s) : Keeps W Q L (quiesceEntry z i s) := by
  rw [quiesceEntry.eq_def]
  repeat' (first | with_reducible (first | assumption | refine ite_keeps ?_ ?_ | refine State_updVol_keeps (hk := ?_) .. | refine putEntry_keeps (hk := ?_) .. | refine freeEntry_keeps (hk := ?_) .. | refine abandonOut_keeps (hk := ?_) .. | refine pair_keeps (by assumption) (openEntry_keeps (hk := ?_) ..)) | split)

theorem abandonHeld_keeps (z : Nat) (s : State) (hk : Keeps W Q L s) : Keeps W Q L (abandonHeld z s) := by
  rw [abandonHeld.eq_def]
  repeat' (first | with_reducible (first | assumption | refine ite_keeps ?_ ?_ | refine State_updVol_keeps (hk := ?_) .. | refine sendTracked_keeps (hk := ?_) .. | refine putEntry_keeps (hk := ?_) .. | refine pair_keeps (by assumption) (openEntry_keeps (hk := ?_) ..) | refine foldl_keeps _ ?_ _ _ ?_) | (intro _ _ _ e _; subst e; (try simp only [])) | split)

theorem clearDoubt_keeps (s : State) (hk : Keeps W Q L s) : Keeps W Q L (clearDoubt s) := by
  rw [clearDoubt.eq_def]
  repeat' (first | with_reducible (first | assumption | refine State_wrThrough_keeps (hk := ?_) .. | refine giveGrant_keeps (hk := ?_) .. | refine foldl_keeps _ ?_ _ _ ?_) | (intro _ _ _ e _; subst e; (try simp only [])))

theorem linkTrainFail_keeps (link : Fin 512) (s : State) (hk : Keeps W Q L s) : Keeps W Q L (linkTrainFail link s) := by
  rw [linkTrainFail.eq_def]
  repeat' with_reducible (first | assumption | refine faultFn_keeps (hk := ?_) .. | refine after_keeps (hk := ?_) ..)

theorem linkLost_keeps (n : Fin 512) (f : Link → Link) (s : State) (hk : Keeps W Q L s) : Keeps W Q L (linkLost n f s) := by
  rw [linkLost.eq_def]
  repeat' with_reducible (first | assumption | refine ite_keeps ?_ ?_ | refine State_updLink_keeps (hk := ?_) .. | refine lcCommand_keeps (hk := ?_) .. | refine pathDown_keeps (hk := ?_) ..)

theorem atRead_keeps (t : TabId) (off : Nat) (s : State) (hk : Keeps W Q L s) : Keeps W Q L (atRead t off s).2 := by
  rw [atRead.eq_def]
  repeat' with_reducible (first | assumption | refine itep_keeps ?_ ?_ | refine State_updTab_keeps (hk := ?_) ..)

theorem ceRead_keeps (n : Nat) (off : Nat) (s : State) (hk : Keeps W Q L s) : Keeps W Q L (ceRead n off s).2 := by
  rw [ceRead.eq_def]
  repeat' with_reducible (first | assumption | refine itep_keeps ?_ ?_ | refine State_updCe_keeps (hk := ?_) ..)

theorem linkRead_keeps (n : Nat) (off : Nat) (s : State) (hk : Keeps W Q L s) : Keeps W Q L (linkRead n off s).2 := by
  rw [linkRead.eq_def]
  repeat' with_reducible (first | assumption | refine itep_keeps ?_ ?_ | refine State_updLink_keeps (hk := ?_) ..)

theorem zmRead_keeps (off : Nat) (s : State) (hk : Keeps W Q L s) : Keeps W Q L (zmRead off s).2 := by
  rw [zmRead.eq_def]
  repeat' with_reducible (first | assumption | exact Keeps.of (by assumption) | refine itep_keeps ?_ ?_ | refine State_updZone_keeps (hk := ?_) ..)

theorem ownRead_keeps (b : RegBlk) (off : Nat) (s : State) (hk : Keeps W Q L s) : Keeps W Q L (ownRead b off s).2 := by
  rw [ownRead.eq_def]
  repeat' (first | with_reducible (first | assumption | refine mcRead_keeps (hk := ?_) .. | refine ceRead_keeps (hk := ?_) .. | refine linkRead_keeps (hk := ?_) .. | refine zmRead_keeps (hk := ?_) ..) | split)

theorem regRead_keeps (b : RegBlk) (off : Nat) (s : State) (hk : Keeps W Q L s) : Keeps W Q L (regRead b off s).2 := by
  rw [regRead.eq_def]
  repeat' (first | with_reducible (first | assumption | refine itep_keeps ?_ ?_ | refine atRead_keeps (hk := ?_) .. | refine ownRead_keeps (hk := ?_) ..) | split)

theorem linkGone_keeps (f : Fn) (s : State) (hk : Keeps W Q L s) : Keeps W Q L (linkGone f s) := by
  rw [linkGone.eq_def]
  repeat' (first | with_reducible (first | assumption | refine ite_keeps ?_ ?_ | refine pathDown_keeps (hk := ?_) ..) | split)

theorem lcWrite_keeps (f : Fn) (w : Word) (s : State) (hk : Keeps W Q L s) : Keeps W Q L (lcWrite f w s) := by
  rw [lcWrite.eq_def]
  repeat' with_reducible (first | assumption | refine ite_keeps ?_ ?_ | refine State_setLc_keeps (hk := ?_) .. | refine lcResult_keeps (hk := ?_) .. | refine lcCommand_keeps (hk := ?_) .. | refine after_keeps (hk := ?_) .. | refine linkGone_keeps (hk := ?_) ..)

theorem faultWrite_keeps (b : Blk) (off : Nat) (w : Word) (s : State) (hk : Keeps W Q L s) : Keeps W Q L (faultWrite b off w s) := by
  rw [faultWrite.eq_def]
  repeat' with_reducible (first | assumption | refine State_updFlt_keeps (hk := ?_) ..)

theorem atWrite_keeps (t : TabId) (off : Nat) (w : Word) (s : State) (hk : Keeps W Q L s) : Keeps W Q L (atWrite t off w s) := by
  rw [atWrite.eq_def]
  repeat' with_reducible (first | assumption | refine State_updTab_keeps (hk := ?_) ..)

theorem puWrite_keeps (n : Nat) (off : Nat) (w : Word) (s : State) (hk : Keeps W Q L s) : Keeps W Q L (puWrite n off w s) := by
  rw [puWrite.eq_def]
  repeat' with_reducible (first | assumption | refine State_updPu_keeps (hk := ?_) ..)

theorem drainWrite_keeps (off : Nat) (w : Word) (s : State) (hk : Keeps W Q L s) : Keeps W Q L (drainWrite off w s) := by
  rw [drainWrite.eq_def]
  repeat' with_reducible (first | assumption | exact Keeps.of (by assumption) | refine ite_keeps ?_ ?_ | refine serveGrants_keeps (hk := ?_) .. | refine settled_keeps (hk := ?_) ..)

theorem ceWrite_keeps (n : Nat) (off : Nat) (w : Word) (s : State) (hk : Keeps W Q L s) : Keeps W Q L (ceWrite n off w s) := by
  rw [ceWrite.eq_def]
  repeat' with_reducible (first | assumption | refine ite_keeps ?_ ?_ | refine State_updCe_keeps (hk := ?_) .. | refine State_updLe_keeps (hk := ?_) ..)

theorem segAddDone_keeps (r : Nat) (s : State) (hk : Keeps W Q L s) : Keeps W Q L (segAddDone r s) := by
  rw [segAddDone.eq_def]
  repeat' with_reducible exact Keeps.of (by assumption)

theorem segAddPut_keeps (z i : Nat) (e : Word) (s : State) (hk : Keeps W Q L s) : Keeps W Q L (segAddPut z i e s) := by
  rw [segAddPut.eq_def]
  repeat' with_reducible (first | assumption | refine ite_keeps ?_ ?_ | refine State_updZone_keeps (hk := ?_) .. | refine State_wrThrough_keeps (hk := ?_) .. | refine loseOthers_keeps (hk := ?_) ..)

theorem segAddGo_keeps (w : Word) (s : State) (hk : Keeps W Q L s) : Keeps W Q L (segAddGo w s) := by
  rw [segAddGo.eq_def]
  repeat' with_reducible (first | assumption | refine ite_keeps ?_ ?_ | refine segAddDone_keeps (hk := ?_) .. | refine segAddPut_keeps (hk := ?_) ..)

theorem segAddWrite_keeps (w : Word) (s : State) (hk : Keeps W Q L s) : Keeps W Q L (segAddWrite w s) := by
  rw [segAddWrite.eq_def]
  repeat' with_reducible (first | exact Keeps.of (by assumption) | refine ite_keeps ?_ ?_ | refine segAddGo_keeps (hk := ?_) ..)

theorem zmWrite_keeps (off : Nat) (w : Word) (s : State) (hk : Keeps W Q L s) : Keeps W Q L (zmWrite off w s) := by
  rw [zmWrite.eq_def]
  repeat' with_reducible (first | assumption | refine ite_keeps ?_ ?_ | refine State_updZone_keeps (hk := ?_) .. | refine segAddWrite_keeps (hk := ?_) ..)

theorem sidtGo_keeps (z : Nat) (w : Word) (s : State) (hk : Keeps W Q L s) : Keeps W Q L (sidtGo z w s) := by
  rw [sidtGo.eq_def]
  repeat' with_reducible (first | assumption | refine ite_keeps ?_ ?_ | refine State_updZone_keeps (hk := ?_) .. | refine State_wrThrough_keeps (hk := ?_) .. | refine loseOthers_keeps (hk := ?_) ..)

theorem zmzWrite_keeps (z : Fin 16) (off : Nat) (w : Word) (s : State) (hk : Keeps W Q L s) : Keeps W Q L (zmzWrite z off w s) := by
  rw [zmzWrite.eq_def]
  repeat' with_reducible (first | assumption | refine ite_keeps ?_ ?_ | refine State_updZone_keeps (hk := ?_) .. | refine routeIrq_keeps (hk := ?_) .. | refine sidtGo_keeps (hk := ?_) ..)

theorem wdogExpire_keeps (n : Nat) (s : State) (hk : Keeps W Q L s) : Keeps W Q L (wdogExpire n s) := by
  rw [wdogExpire.eq_def]
  repeat' with_reducible (first | exact Keeps.of (by assumption) | refine ite_keeps ?_ ?_ | refine State_updIsland_keeps (hk := ?_) .. | refine closeGates_keeps (hk := ?_) .. | refine latch_keeps (hk := ?_) ..)

theorem wdogWrite_keeps (n : Nat) (a : Acc) (v : BitVec 8) (s : State) (hk : Keeps W Q L s) : Keeps W Q L (wdogWrite n a v s) := by
  rw [wdogWrite.eq_def]
  repeat' with_reducible (first | assumption | exact Keeps.of (by assumption) | refine ite_keeps ?_ ?_ | refine wdogExpire_keeps (hk := ?_) ..)

theorem snsWrite_keeps (off : Nat) (w : Word) (s : State) (hk : Keeps W Q L s) : Keeps W Q L (snsWrite off w s) := by
  rw [snsWrite.eq_def]
  repeat' with_reducible (first | assumption | exact Keeps.of (by assumption) | refine ite_keeps ?_ ?_ | refine rearm_keeps (hk := ?_) ..)

theorem ownWrite_keeps (a : Acc) (b : RegBlk) (off : Nat) (w : Word) (s : State) (hk : Keeps W Q L s) : Keeps W Q L (ownWrite a b off w s) := by
  rw [ownWrite.eq_def]
  repeat' (first | with_reducible (first | assumption | refine ite_keeps ?_ ?_ | refine State_updLink_keeps (hk := ?_) .. | refine mcWrite_keeps (hk := ?_) .. | refine puWrite_keeps (hk := ?_) .. | refine drainWrite_keeps (hk := ?_) .. | refine ceWrite_keeps (hk := ?_) .. | refine zmWrite_keeps (hk := ?_) .. | refine zmzWrite_keeps (hk := ?_) .. | refine wdogWrite_keeps (hk := ?_) .. | refine snsWrite_keeps (hk := ?_) ..) | split)

theorem regWrite_keeps (a : Acc) (b : RegBlk) (off : Nat) (w : Word) (s : State) (hk : Keeps W Q L s) : Keeps W Q L (regWrite a b off w s) := by
  rw [regWrite.eq_def]
  repeat' (first | with_reducible (first | assumption | refine ite_keeps ?_ ?_ | refine lcWrite_keeps (hk := ?_) .. | refine faultWrite_keeps (hk := ?_) .. | refine atWrite_keeps (hk := ?_) .. | refine ownWrite_keeps (hk := ?_) ..) | split)

theorem k3Join_keeps (i : K3Item) (s : State) (hk : Keeps W Q L s) : Keeps W Q L (k3Join i s) := by
  rw [k3Join.eq_def]
  repeat' with_reducible exact Keeps.of (by assumption)

theorem countRefusal_keeps (s : State) (hk : Keeps W Q L s) : Keeps W Q L (countRefusal s) := by
  rw [countRefusal.eq_def]
  repeat' with_reducible exact Keeps.of (by assumption)

theorem boxWrite_keeps (z : Fin 16) (off : Nat) (w : Word) (s : State) (hk : Keeps W Q L s) : Keeps W Q L (boxWrite z off w s) := by
  rw [boxWrite.eq_def]
  repeat' with_reducible (first | assumption | refine ite_keeps ?_ ?_ | refine State_updBox_keeps (hk := ?_) .. | refine k3Join_keeps (hk := ?_) .. | refine countRefusal_keeps (hk := ?_) ..)

theorem reach_keeps (a : Acc) (pa size : Nat) (write : Bool) (s : State) (hk : Keeps W Q L s) : Keeps W Q L (reach a pa size write s).2 := by
  rw [reach.eq_def]
  repeat' with_reducible (first | assumption | refine itep_keeps ?_ ?_ | refine deny_keeps (hk := ?_) .. | refine masterFault_keeps (hk := ?_) ..)

theorem devRead_keeps (a : Acc) (pa size : Nat) (s : State) (hk : Keeps W Q L s) : Keeps W Q L (devRead a pa size s).2 := by
  rw [devRead.eq_def]
  repeat' (first | with_reducible (first | assumption | refine regRead_keeps (hk := ?_) .. | refine pair_keeps (by assumption) (reach_keeps (hk := ?_) ..)) | split)

theorem devWrite_keeps (a : Acc) (pa size : Nat) (v : Word) (s : State) (hk : Keeps W Q L s) : Keeps W Q L (devWrite a pa size v s).2 := by
  rw [devWrite.eq_def]
  repeat' (first | with_reducible (first | assumption | refine regWrite_keeps (hk := ?_) .. | refine boxWrite_keeps (hk := ?_) .. | refine pair_keeps (by assumption) (reach_keeps (hk := ?_) ..) | refine pairThen_keeps (by assumption) (reach_keeps (hk := ?_) ..) (fun e => Keeps.of e)) | split)

theorem devSent_keeps (a : Acc) (pa : Nat) (r : Resp × State) (hk : Keeps W Q L r.2) : Keeps W Q L (devSent a pa r).2 := by
  rw [devSent.eq_def]
  repeat' with_reducible (first | assumption | refine itep_keeps ?_ ?_ | refine fencedSender_keeps (hk := ?_) ..)

theorem doWrite_keeps (a : Acc) (pa : Nat) (v : Word) (s : State) (hk : Keeps W Q L s) : Keeps W Q L (doWrite a pa v s) := by
  rw [doWrite.eq_def]
  repeat' with_reducible (first | assumption | refine devWrite_keeps (hk := ?_) .. | refine Keeps.of (devSent_keeps (hk := ?_) ..))

theorem transParts_keeps (n : Nat) (th : Bool) (u : Use) (w : Bool) (y0 : List (Word × Nat)) (y1 : State) (hk : Keeps W Q L y1) : Keeps W Q L (transParts n th u w y0 y1).2 := by
  revert hk
  fun_induction transParts n th u w y0 y1 <;> intro hk <;> (repeat' with_reducible (first | assumption | refine ‹Keeps _ _ _ _ → Keeps _ _ _ _› ?_ | refine pair_keeps (by assumption) (translate_keeps (hk := ?_) ..) | refine pair_keeps (by assumption) ?_))

theorem access_keeps (n : Nat) (th : Bool) (u : Use) (w : Bool) (l : List (Word × Nat)) (s : State) (hk : Keeps W Q L s) : Keeps W Q L (access n th u w l s).2 := by
  rw [access.eq_def]
  repeat' (first | with_reducible (first | assumption | refine itep_keeps ?_ ?_ | refine abortOwn_keeps (hk := ?_) .. | refine pair_keeps (by assumption) (transParts_keeps (hk := ?_) ..)) | split)

theorem loadAnswer_keeps (n : Nat) (th : Bool) (p : Part) (s : State) (hk : Keeps W Q L s) : Keeps W Q L (loadAnswer n th p s).2 := by
  rw [loadAnswer.eq_def]
  repeat' with_reducible (first | assumption | refine itep_keeps ?_ ?_ | refine homeAnswer_keeps (hk := ?_) .. | refine ownAnswer_keeps (hk := ?_) .. | refine answerExc_keeps (hk := ?_) ..)

theorem loadAnswers_keeps (n : Nat) (th : Bool) (y0 : List Part) (y1 : State) (hk : Keeps W Q L y1) : Keeps W Q L (loadAnswers n th y0 y1).2 := by
  revert hk
  fun_induction loadAnswers n th y0 y1 <;> intro hk <;> (repeat' with_reducible (first | assumption | refine ‹Keeps _ _ _ _ → Keeps _ _ _ _› ?_ | refine loadAnswer_keeps (hk := ?_) .. | refine pair_keeps (by assumption) (loadAnswer_keeps (hk := ?_) ..)))

theorem useData_keeps (n : Nat) (th : Bool) (l : Nat) (hit : Bool) (s : State) (hk : Keeps W Q L s) : Keeps W Q L (useData n th l hit s) := by
  rw [useData.eq_def]
  repeat' with_reducible (first | assumption | refine ite_keeps ?_ ?_ | refine State_updPu_keeps (hk := ?_) .. | refine useLine_keeps (hk := ?_) ..)

theorem loadHeld_keeps (n : Nat) (th : Bool) (ph : Phys) (va : Word) (k : Nat) (s : State) (hk : Keeps W Q L s) : Keeps W Q L (loadHeld n th ph va k s).st := by
  rw [loadHeld.eq_def]
  repeat' with_reducible (first | assumption | refine itep_keeps ?_ ?_ | refine iteg_keeps ?_ ?_ | refine State_updThr_keeps (hk := ?_) .. | refine abortOwn_keeps (hk := ?_) .. | refine obtainShared_keeps (hk := ?_) .. | refine obtainOwned_keeps (hk := ?_) .. | refine useData_keeps (hk := ?_) ..)

theorem loadLine_keeps (n : Nat) (th : Bool) (p : Part) (s : State) (hk : Keeps W Q L s) : Keeps W Q L (loadLine n th p s).st := by
  rw [loadLine.eq_def]
  repeat' with_reducible (first | assumption | refine iteg_keeps ?_ ?_ | refine abortOwn_keeps (hk := ?_) .. | refine loadHeld_keeps (hk := ?_) ..)

theorem latched_keeps (n : Nat) (th : Bool) (k : LatchKind) (put : Word → Word → State → State) (send : State → Res) (s : State) (hput : ∀ x0 x1 x2, Keeps W Q L x2 → Keeps W Q L (put x0 x1 x2)) (hsend : ∀ x0, Keeps W Q L x0 → Keeps W Q L (send x0).st) (hk : Keeps W Q L s) : Keeps W Q L (latched n th k put send s).st := by
  rw [latched.eq_def]
  repeat' (first | with_reducible (first | assumption | refine iter_keeps ?_ ?_ | refine State_setThr_keeps (hk := ?_) .. | refine hput _ _ _ ?_ | refine hsend _ ?_) | split | simp only [])

theorem addLatch_keeps (n : Nat) (th : Bool) (k : LatchKind) (hi lo : Word) (s : State) (hk : Keeps W Q L s) : Keeps W Q L (addLatch n th k hi lo s) := by
  rw [addLatch.eq_def]
  repeat' with_reducible (first | assumption | refine State_updThr_keeps (hk := ?_) ..)

theorem sendDevice_keeps (n : Nat) (th : Bool) (p : Part) (s : State) (hk : Keeps W Q L s) : Keeps W Q L (sendDevice n th p s).st := by
  rw [sendDevice.eq_def]
  repeat' (first | with_reducible (first | assumption | refine iteg_keeps ?_ ?_ | refine State_setThr_keeps (hk := ?_) .. | refine devRead_keeps (hk := ?_) .. | refine addLatch_keeps (hk := ?_) ..) | split | simp only [])

theorem loadDevice_keeps (n : Nat) (th : Bool) (p : Part) (s : State) (hk : Keeps W Q L s) : Keeps W Q L (loadDevice n th p s).st := by
  rw [loadDevice.eq_def]
  repeat' (first | with_reducible (first | assumption | refine State_setThr_keeps (hk := ?_) .. | refine sendDevice_keeps (hk := ?_) ..) | split | simp only [])

theorem loadParts_keeps (n : Nat) (th : Bool) (y0 : List Part) (y1 : List Byte) (y2 : State) (hk : Keeps W Q L y2) : Keeps W Q L (loadParts n th y0 y1 y2).st := by
  revert hk
  fun_induction loadParts n th y0 y1 y2 <;> intro hk <;> (repeat' with_reducible (first | assumption | refine iteg_keeps ?_ ?_ | refine ‹Keeps _ _ _ _ → Keeps _ _ _ _› ?_ | refine loadLine_keeps (hk := ?_) .. | refine loadDevice_keeps (hk := ?_) .. | refine got_keeps (by assumption) ?_))

theorem loadAll_keeps (n : Nat) (th : Bool) (l : List (Word × Nat)) (s : State) (hk : Keeps W Q L s) : Keeps W Q L (loadAll n th l s).st := by
  rw [loadAll.eq_def]
  repeat' (first | with_reducible (first | assumption | refine ite_keeps ?_ ?_ | refine State_updThr_keeps (hk := ?_) .. | refine pair_keeps (by assumption) (access_keeps (hk := ?_) ..) | refine pair_keeps (by assumption) (loadAnswers_keeps (hk := ?_) ..) | refine loadParts_keeps (hk := ?_) .. | refine gots_keeps (by assumption) (loadParts_keeps (hk := ?_) ..)) | split)

theorem load_keeps (n : Nat) (th : Bool) (va : Word) (k : Nat) (s : State) (hk : Keeps W Q L s) : Keeps W Q L (load n th va k s).st := by
  rw [load.eq_def]
  repeat' with_reducible (first | assumption | refine loadAll_keeps (hk := ?_) ..)

theorem pushStore_keeps (n : Nat) (th : Bool) (x : Part × List Byte) (s : State) (hk : Keeps W Q L s) : Keeps W Q L (pushStore n th x s) := by
  rw [pushStore.eq_def]
  repeat' with_reducible (first | assumption | refine State_updThr_keeps (hk := ?_) ..)

theorem pushAll_keeps (n : Nat) (th : Bool) (pc : Word) (y0 : List (Part × List Byte)) (y1 : State) (hk : Keeps W Q L y1) : Keeps W Q L (pushAll n th pc y0 y1).2 := by
  revert hk
  fun_induction pushAll n th pc y0 y1 <;> intro hk <;> (repeat' with_reducible (first | assumption | refine ‹Keeps _ _ _ _ → Keeps _ _ _ _› ?_ | refine abortOwn_keeps (hk := ?_) .. | refine pushStore_keeps (hk := ?_) ..))

theorem storeAll_keeps (n : Nat) (th : Bool) (l : List (Word × List Byte)) (s : State) (hk : Keeps W Q L s) : Keeps W Q L (storeAll n th l s).st := by
  rw [storeAll.eq_def]
  repeat' (first | with_reducible (first | assumption | refine iteg_keeps ?_ ?_ | refine pair_keeps (by assumption) (access_keeps (hk := ?_) ..) | refine pushAll_keeps (hk := ?_) ..) | split)

theorem loadBody_keeps (h : Hdr) (ea : Arch → Except Exc Ea) (size : Nat) (dst : Nat → Arch → Arch) (s : State) (hk : Keeps W Q L s) : Keeps W Q L (loadBody h ea size dst s).st := by
  rw [loadBody.eq_def]
  repeat' (first | with_reducible (first | assumption | refine State_updThr_keeps (hk := ?_) .. | refine got_keeps (by assumption) (load_keeps (hk := ?_) ..) | refine gote_keeps (by assumption) (load_keeps (hk := ?_) ..) | refine gots_keeps (by assumption) (load_keeps (hk := ?_) ..)) | split)

theorem runLoad_keeps (h : Hdr) (enc : Word) (dec : Dec) (ea : Arch → Except Exc Ea) (size : Nat) (dst : Nat → Arch → Arch) (s : State) (hk : Keeps W Q L s) : Keeps W Q L (runLoad h enc dec ea size dst s) := by
  rw [runLoad.eq_def]
  repeat' (first | with_reducible (first | assumption | refine runIns_keeps (hk := ?_) (hbody := ?_) .. | refine loadBody_keeps (hk := ?_) ..) | intro _)

theorem storeBody_keeps (h : Hdr) (ea : Arch → Except Exc Ea) (size : Nat) (src : Arch → Nat) (s : State) (hk : Keeps W Q L s) : Keeps W Q L (storeBody h ea size src s).st := by
  rw [storeBody.eq_def]
  repeat' (first | with_reducible (first | assumption | refine State_updThr_keeps (hk := ?_) .. | refine got_keeps (by assumption) (storeAll_keeps (hk := ?_) ..) | refine gote_keeps (by assumption) (storeAll_keeps (hk := ?_) ..) | refine gots_keeps (by assumption) (storeAll_keeps (hk := ?_) ..)) | split)

theorem runStore_keeps (h : Hdr) (enc : Word) (dec : Dec) (ea : Arch → Except Exc Ea) (size : Nat) (src : Arch → Nat) (s : State) (hk : Keeps W Q L s) : Keeps W Q L (runStore h enc dec ea size src s) := by
  rw [runStore.eq_def]
  repeat' (first | with_reducible (first | assumption | refine runIns_keeps (hk := ?_) (hbody := ?_) .. | refine storeBody_keeps (hk := ?_) ..) | intro _)

theorem callmBody_keeps (h : Hdr) (b : BitVec 5) (mask : BitVec 16) (s : State) (hk : Keeps W Q L s) : Keeps W Q L (callmBody h b mask s).st := by
  rw [callmBody.eq_def]
  repeat' (first | with_reducible (first | assumption | refine iter_keeps ?_ ?_ | refine State_updThr_keeps (hk := ?_) .. | refine got_keeps (by assumption) (storeAll_keeps (hk := ?_) ..) | refine gote_keeps (by assumption) (storeAll_keeps (hk := ?_) ..) | refine gots_keeps (by assumption) (storeAll_keeps (hk := ?_) ..)) | split)

theorem retmBody_keeps (h : Hdr) (mask : BitVec 16) (s : State) (hk : Keeps W Q L s) : Keeps W Q L (retmBody h mask s).st := by
  rw [retmBody.eq_def]
  repeat' (first | with_reducible (first | assumption | refine iter_keeps ?_ ?_ | refine State_updThr_keeps (hk := ?_) .. | refine pair_keeps (by assumption) (transParts_keeps (hk := ?_) ..) | refine got_keeps (by assumption) (loadAll_keeps (hk := ?_) ..) | refine gote_keeps (by assumption) (loadAll_keeps (hk := ?_) ..) | refine gots_keeps (by assumption) (loadAll_keeps (hk := ?_) ..) | refine got_keeps (by assumption) (load_keeps (hk := ?_) ..) | refine gote_keeps (by assumption) (load_keeps (hk := ?_) ..) | refine gots_keeps (by assumption) (load_keeps (hk := ?_) ..)) | split)

theorem putBytes_keeps (bytes : List (Nat × Byte)) (s : State) (hk : Keeps W Q L s) : Keeps W Q L (putBytes bytes s) := by
  rw [putBytes.eq_def]
  exact ⟨hk.1, hk.2, fun w => memPuts_wf _ _ (hk.3 w), hk.4⟩

theorem writeOwned_keeps (n l : Nat) (bytes : List (Nat × Byte)) (s : State) (hk : Keeps W Q L s) : Keeps W Q L (writeOwned n l bytes s) := by
  rw [writeOwned.eq_def]
  repeat' (first | with_reducible (first | assumption | refine ite_keeps ?_ ?_ | refine State_updPu_keeps (hk := ?_) .. | refine State_flushLine_keeps (hk := ?_) .. | refine State_clearPoison_keeps (hk := ?_) .. | refine updL3_keeps (hk := ?_) .. | refine putBytes_keeps (hk := ?_) ..) | split)

theorem commitReady_keeps (n : Nat) (th : Bool) (l : Nat) (s : State) (hk : Keeps W Q L s) : Keeps W Q L (commitReady n th l s).2 := by
  rw [commitReady.eq_def]
  repeat' (first | with_reducible (first | assumption | refine itep_keeps ?_ ?_ | refine pair_keeps (by assumption) (askGrant_keeps (hk := ?_) ..) | refine trackCommit_keeps (hk := ?_) ..) | split)

theorem zrstLoss_keeps (z : Fin 16) (k : Nat) (s : State) (hk : Keeps W Q L s) : Keeps W Q L (zrstLoss z k s) := by
  rw [zrstLoss.eq_def]
  repeat' with_reducible (first | assumption | refine ite_keeps ?_ ?_ | refine raiseC3_keeps (hk := ?_) .. | refine Keeps.of (State_updZone_keeps (hk := ?_) ..))

theorem storeGone_keeps (n : Nat) (th : Bool) (pa : Nat) (fenced : Bool) (s : State) (hk : Keeps W Q L s) : Keeps W Q L (storeGone n th pa fenced s) := by
  rw [storeGone.eq_def]
  repeat' (first | with_reducible (first | assumption | refine ite_keeps ?_ ?_ | refine raiseZone_keeps (hk := ?_) .. | refine zrstLoss_keeps (hk := ?_) ..) | split)

theorem cleanBefore_keeps (n : Nat) (th : Bool) (l : Nat) (s : State) (hk : Keeps W Q L s) : Keeps W Q L (cleanBefore n th l s).2 := by
  rw [cleanBefore.eq_def]
  repeat' with_reducible (first | assumption | refine itep_keeps ?_ ?_ | refine State_updPu_keeps (hk := ?_) .. | refine l3Insert_keeps (hk := ?_) .. | refine cleanTracked_keeps (hk := ?_) ..)

theorem drainTx_keeps (n : Nat) (th : Bool) (i : Nat) (e : SbEntry) (s : State) (hk : Keeps W Q L s) : Keeps W Q L (drainTx n th i e s) := by
  rw [drainTx.eq_def]
  repeat' (first | with_reducible (first | assumption | refine ite_keeps ?_ ?_ | refine itep_keeps ?_ ?_ | refine State_updPu_keeps (hk := ?_) .. | refine State_updThr_keeps (hk := ?_) .. | refine askGrant_keeps (hk := ?_) .. | refine abortOwn_keeps (hk := ?_) .. | refine pair_keeps (by assumption) (obtainOwned_keeps (hk := ?_) ..) | refine pair_keeps (by assumption) (cleanBefore_keeps (hk := ?_) ..)) | split)

theorem storeLine_keeps (n : Nat) (th : Bool) (i : Nat) (e : SbEntry) (s : State) (hk : Keeps W Q L s) : Keeps W Q L (storeLine n th i e s) := by
  rw [storeLine.eq_def]
  repeat' with_reducible (first | assumption | refine ite_keeps ?_ ?_ | refine State_updThr_keeps (hk := ?_) .. | refine State_flushLine_keeps (hk := ?_) .. | refine copiesClean_keeps (hk := ?_) .. | refine writeOwned_keeps (hk := ?_) ..)

theorem drainLine_keeps (n : Nat) (th : Bool) (i : Nat) (e : SbEntry) (s : State) (hk : Keeps W Q L s) : Keeps W Q L (drainLine n th i e s) := by
  rw [drainLine.eq_def]
  repeat' (first | with_reducible (first | assumption | refine State_updThr_keeps (hk := ?_) .. | refine pair_keeps (by assumption) (obtainOwned_keeps (hk := ?_) ..) | refine pair_keeps (by assumption) (ownAnswer_keeps (hk := ?_) ..) | refine pair_keeps (by assumption) (commitReady_keeps (hk := ?_) ..) | refine storeGone_keeps (hk := ?_) .. | refine drainTx_keeps (hk := ?_) .. | refine storeLine_keeps (hk := ?_) ..) | split | simp only [])

theorem drainDevice_keeps (n : Nat) (th : Bool) (i : Nat) (e : SbEntry) (s : State) (hk : Keeps W Q L s) : Keeps W Q L (drainDevice n th i e s) := by
  rw [drainDevice.eq_def]
  repeat' (first | with_reducible (first | assumption | refine State_updThr_keeps (hk := ?_) .. | refine fencedTarget_keeps (hk := ?_) .. | refine devWrite_keeps (hk := ?_) .. | refine zrstLoss_keeps (hk := ?_) ..) | split | simp only [])

end Sys2Proof.Machine
end

