-- ==== Sys2Proof/Laws/KeepsUse.lean ====
section
/-! SUPPORT. Keeps of the operations of atomics, arithmetic, branches, crypto units and the I/O adapter. -/

set_option Elab.async false

namespace Sys2Proof.Machine

variable {W : Prop} {Q : List Instr} {L : Limited → Prop}

theorem atomAccess_keeps (n : Nat) (th : Bool) (u : Use) (w : Bool) (va : Word) (k : Nat) (s : State) (hk : Keeps W Q L s) : Keeps W Q L (atomAccess n th u w va k s).2 := by
  rw [atomAccess.eq_def]
  repeat' (first | with_reducible (first | assumption | refine itep_keeps ?_ ?_ | refine pair_keeps (by assumption) (transParts_keeps (hk := ?_) ..)) | split)

theorem ownForLres_keeps (n : Nat) (th : Bool) (l : Nat) (s : State) (hk : Keeps W Q L s) : Keeps W Q L (ownForLres n th l s).2 := by
  rw [ownForLres.eq_def]
  repeat' (first | with_reducible (first | assumption | refine State_updPu_keeps (hk := ?_) .. | refine pair_keeps (by assumption) (obtainOwned_keeps (hk := ?_) ..)) | split)

theorem runLres_keeps (h : Hdr) (enc : Word) (k : Nat) (d a : BitVec 5) (s : State) (hk : Keeps W Q L s) : Keeps W Q L (runLres h enc k d a s) := by
  rw [runLres.eq_def]
  repeat' (first | with_reducible (first | assumption | refine iter_keeps ?_ ?_ | refine State_updThr_keeps (hk := ?_) .. | refine homeAnswer_keeps (hk := ?_) .. | refine pair_keeps (by assumption) (answerExc_keeps (hk := ?_) ..) | refine runIns_keeps (hk := ?_) (hbody := ?_) .. | refine got_keeps (by assumption) (loadLine_keeps (hk := ?_) ..) | refine gote_keeps (by assumption) (loadLine_keeps (hk := ?_) ..) | refine gots_keeps (by assumption) (loadLine_keeps (hk := ?_) ..) | refine pair_keeps (by assumption) (atomAccess_keeps (hk := ?_) ..) | refine pair_keeps (by assumption) (ownForLres_keeps (hk := ?_) ..)) | split | intro _ | simp only [])

theorem scondStore_keeps (n : Nat) (th : Bool) (pa : Nat) (bytes : List Byte) (put : Word → State → State) (s : State) (hput : ∀ x0 x1, Keeps W Q L x1 → Keeps W Q L (put x0 x1)) (hk : Keeps W Q L s) : Keeps W Q L (scondStore n th pa bytes put s).st := by
  rw [scondStore.eq_def]
  repeat' (first | with_reducible (first | assumption | refine iter_keeps ?_ ?_ | refine pair_keeps (by assumption) (obtainOwned_keeps (hk := ?_) ..) | refine addLatch_keeps (hk := ?_) .. | refine writeOwned_keeps (hk := ?_) .. | refine pair_keeps (by assumption) (commitReady_keeps (hk := ?_) ..) | refine hput _ _ ?_) | split | simp only [])

theorem runScond_keeps (h : Hdr) (enc : Word) (k : Nat) (d a b : BitVec 5) (s : State) (hk : Keeps W Q L s) : Keeps W Q L (runScond h enc k d a b s) := by
  rw [runScond.eq_def]
  repeat' (first | with_reducible (first | assumption | refine State_updThr_keeps (hk := ?_) .. | refine runIns_keeps (hk := ?_) (hbody := ?_) .. | refine latched_keeps (hk := ?_) (hput := ?_) (hsend := ?_) .. | refine addLatch_keeps (hk := ?_) .. | refine pair_keeps (by assumption) (atomAccess_keeps (hk := ?_) ..) | refine scondStore_keeps (hk := ?_) (hput := ?_) ..) | split | intro _ | simp only [])

theorem amoLocal_keeps (n : Nat) (pa : Nat) (op : AmoOp) (x y : Quad) (own : Option (Nat × Bool)) (s : State) (hk : Keeps W Q L s) : Keeps W Q L (amoLocal n pa op x y own s).2 := by
  rw [amoLocal.eq_def]
  repeat' (first | with_reducible (first | assumption | refine endReservations_keeps (hk := ?_) .. | refine conflicts_keeps (hk := ?_) .. | refine writeOwned_keeps (hk := ?_) ..) | split | simp only [])

theorem waitLine_keeps (n : Nat) (th : Bool) (l : Nat) (s : State) (hk : Keeps W Q L s) : Keeps W Q L (waitLine n th l s).st := by
  rw [waitLine.eq_def]
  repeat' with_reducible (first | assumption | refine standBy_keeps (hk := ?_) ..)

theorem amoPlace_keeps (n : Nat) (th : Bool) (pa : Nat) (va : Word) (op : AmoOp) (x y : Quad) (fin : Nat → State → State) (s : State) (hfin : ∀ x0 x1, Keeps W Q L x1 → Keeps W Q L (fin x0 x1)) (hk : Keeps W Q L s) : Keeps W Q L (amoPlace n th pa va op x y fin s).st := by
  rw [amoPlace.eq_def]
  repeat' (first | with_reducible (first | assumption | refine itep_keeps ?_ ?_ | refine iter_keeps ?_ ?_ | refine asked_keeps (hk := ?_) .. | refine lineOut_keeps (hk := ?_) .. | refine pair_keeps (by assumption) (pinsLet_keeps (hk := ?_) ..) | refine answerExc_keeps (hk := ?_) .. | refine pair3_keeps (by assumption) (amoHome_keeps (hk := ?_) ..) | refine amoLocal_keeps (hk := ?_) .. | refine waitLine_keeps (hk := ?_) .. | refine hfin _ _ ?_ | refine pair_keeps (by assumption) ?_) | split | simp only [])

theorem runAmo_keeps (h : Hdr) (enc : Word) (micro : Option Nat) (dec : Dec) (op : AmoOp) (a : BitVec 5) (x y : Arch → Quad) (dst : Word → Word → Arch → Arch) (s : State) (hk : Keeps W Q L s) : Keeps W Q L (runAmo h enc micro dec op a x y dst s) := by
  rw [runAmo.eq_def]
  repeat' (first | with_reducible (first | assumption | refine State_updThr_keeps (hk := ?_) .. | refine runIns_keeps (hk := ?_) (hbody := ?_) .. | refine latched_keeps (hk := ?_) (hput := ?_) (hsend := ?_) .. | refine addLatch_keeps (hk := ?_) .. | refine pair_keeps (by assumption) (atomAccess_keeps (hk := ?_) ..) | refine amoPlace_keeps (hk := ?_) (hfin := ?_) ..) | split | intro _ | simp only [])

theorem runAmo8_keeps (h : Hdr) (fn : Nat) (op : AmoOp) (d a b : BitVec 5) (s : State) (hk : Keeps W Q L s) : Keeps W Q L (runAmo8 h fn op d a b s) := by
  rw [runAmo8.eq_def]
  repeat' with_reducible (first | assumption | refine runAmo_keeps (hk := ?_) ..)

theorem runFence_keeps (h : Hdr) (fn : Nat) (sl ss : Bool) (s : State) (hk : Keeps W Q L s) : Keeps W Q L (runFence h fn sl ss s) := by
  rw [runFence.eq_def]
  repeat' (first | with_reducible (first | assumption | refine State_updThr_keeps (hk := ?_) .. | refine runIns_keeps (hk := ?_) (hbody := ?_) ..) | intro _)

theorem cleanAll_keeps (n : Nat) (th : Bool) (y0 : List Nat) (y1 : State) (hk : Keeps W Q L y1) : Keeps W Q L (cleanAll n th y0 y1).2 := by
  revert hk
  fun_induction cleanAll n th y0 y1 <;> intro hk <;> (repeat' with_reducible (first | assumption | refine ‹Keeps _ _ _ _ → Keeps _ _ _ _› ?_ | refine pair_keeps (by assumption) (cleanTracked_keeps (hk := ?_) ..)))

theorem txBegin_keeps (n : Nat) (th constrained : Bool) (d : BitVec 5) (s : State) (hk : Keeps W Q L s) : Keeps W Q L (txBegin n th constrained d s).st := by
  rw [txBegin.eq_def]
  repeat' with_reducible (first | assumption | refine iter_keeps ?_ ?_ | refine State_setThr_keeps (hk := ?_) ..)

theorem txOpen_keeps (h : Hdr) (fn : Nat) (constrained : Bool) (d : BitVec 5) (s : State) (hk : Keeps W Q L s) : Keeps W Q L (txOpen h fn constrained d s) := by
  rw [txOpen.eq_def]
  repeat' (first | with_reducible (first | assumption | refine iter_keeps ?_ ?_ | refine State_setThr_keeps (hk := ?_) .. | refine abortOwn_keeps (hk := ?_) .. | refine runIns_keeps (hk := ?_) (hbody := ?_) .. | refine txBegin_keeps (hk := ?_) ..) | split | intro _ | simp only [])

theorem trackAll_keeps (n : Nat) (th : Bool) (y0 : List Nat) (y1 : State) (hk : Keeps W Q L y1) : Keeps W Q L (trackAll n th y0 y1).2 := by
  revert hk
  fun_induction trackAll n th y0 y1 <;> intro hk <;> (repeat' with_reducible (first | assumption | refine ‹Keeps _ _ _ _ → Keeps _ _ _ _› ?_ | refine pair_keeps (by assumption) (commitReady_keeps (hk := ?_) ..)))

theorem txCommit_keeps (n : Nat) (th : Bool) (d : BitVec 5) (x : Tx) (s : State) (hk : Keeps W Q L s) : Keeps W Q L (txCommit n th d x s).st := by
  rw [txCommit.eq_def]
  repeat' (first | with_reducible (first | assumption | refine iter_keeps ?_ ?_ | refine State_updThr_keeps (hk := ?_) .. | refine endReservations_keeps (hk := ?_) .. | refine settled_keeps (hk := ?_) .. | refine writeOwned_keeps (hk := ?_) .. | refine storeGone_keeps (hk := ?_) .. | refine pair_keeps (by assumption) (trackAll_keeps (hk := ?_) ..) | refine foldl_keeps _ ?_ _ _ ?_ | refine Keeps.of (foldl_keeps _ ?_ _ _ ?_)) | (intro _ _ _ e _; subst e; (try simp only [])) | split)

theorem runD_keeps (h : Hdr) (fn : Nat) (d a b : BitVec 5) (f : Nat → Num → Num → NumRes) (s : State) (hk : Keeps W Q L s) : Keeps W Q L (runD h fn d a b f s) := by
  rw [runD.eq_def]
  repeat' with_reducible (first | assumption | refine runTrap_keeps (hk := ?_) ..)

theorem runS_keeps (h : Hdr) (fn : Nat) (d a b : BitVec 5) (f : Nat → Num → Num → NumRes) (s : State) (hk : Keeps W Q L s) : Keeps W Q L (runS h fn d a b f s) := by
  rw [runS.eq_def]
  repeat' with_reducible (first | assumption | refine runTrap_keeps (hk := ?_) ..)

theorem runFma_keeps (h : Hdr) (fn : Nat) (o : Q4) (subC negR : Bool) (s : State) (hk : Keeps W Q L s) : Keeps W Q L (runFma h fn o subC negR s) := by
  rw [runFma.eq_def]
  repeat' with_reducible (first | assumption | refine runTrap_keeps (hk := ?_) ..)

theorem updArch_keeps (h : Hdr) (f : Arch → Arch) (s : State) (hk : Keeps W Q L s) : Keeps W Q L (updArch h f s) := by
  rw [updArch.eq_def]
  repeat' with_reducible (first | assumption | refine State_updThr_keeps (hk := ?_) ..)

theorem runRel_keeps (h : Hdr) (enc : Word) (long link : Bool) (disp : Word) (s : State) (hk : Keeps W Q L s) : Keeps W Q L (runRel h enc long link disp s) := by
  rw [runRel.eq_def]
  repeat' (first | with_reducible (first | assumption | refine runBranch_keeps (hk := ?_) (hbody := ?_) .. | refine updArch_keeps (hk := ?_) ..) | split | intro _)

theorem runToReg_keeps (h : Hdr) (enc : Word) (b : BitVec 5) (link : Bool) (k : Word → BrKind) (s : State) (hk : Keeps W Q L s) : Keeps W Q L (runToReg h enc b link k s) := by
  rw [runToReg.eq_def]
  repeat' (first | with_reducible (first | assumption | refine iter_keeps ?_ ?_ | refine runBranch_keeps (hk := ?_) (hbody := ?_) .. | refine updArch_keeps (hk := ?_) ..) | split | intro _)

theorem runMnt_keeps (h : Hdr) (fn : Nat) (op : MntOp) (dec : Dec) (a : BitVec 5) (s : State) (hk : Keeps W Q L s) : Keeps W Q L (runMnt h fn op dec a s) := by
  rw [runMnt.eq_def]
  repeat' (first | with_reducible (first | assumption | refine iter_keeps ?_ ?_ | refine asked_keeps (hk := ?_) .. | refine lineOut_keeps (hk := ?_) .. | refine pair_keeps (by assumption) (pinsLet_keeps (hk := ?_) ..) | refine pair_keeps (by assumption) (answerExc_keeps (hk := ?_) ..) | refine pair_keeps (by assumption) (mntLine_keeps (hk := ?_) ..) | refine runIns_keeps (hk := ?_) (hbody := ?_) .. | refine pair_keeps (by assumption) (transParts_keeps (hk := ?_) ..) | refine waitLine_keeps (hk := ?_) ..) | split | intro _ | simp only [])

theorem zeroLine_keeps (n l : Nat) (s : State) (hk : Keeps W Q L s) : Keeps W Q L (zeroLine n l s) := by
  rw [zeroLine.eq_def]
  repeat' with_reducible (first | assumption | refine State_updPu_keeps (hk := ?_) .. | refine l3Remove_keeps (hk := ?_) .. | refine writeOwned_keeps (hk := ?_) ..)

theorem cmrAnswer_keeps (a : Acc) (z : Nat) (k : AccKind) (segs : List (Nat × Nat × Nat)) (s : State) (hk : Keeps W Q L s) : Keeps W Q L (cmrAnswer a z k segs s).2 := by
  rw [cmrAnswer.eq_def]
  repeat' (first | with_reducible (first | assumption | refine pair_keeps (by assumption) (dramAnswer_keeps (hk := ?_) ..) | refine foldl2_keeps _ ?_ _ _ ?_) | (intro _ _ _ e _; subst e; (try simp only [])) | split)

theorem mntLines_keeps (op : MntOp) (a : Acc) (own : Option (Nat × Bool)) (y0 : List Nat) (y1 : State) (hk : Keeps W Q L y1) : Keeps W Q L (mntLines op a own y0 y1).2 := by
  revert hk
  fun_induction mntLines op a own y0 y1 <;> intro hk <;> (repeat' with_reducible (first | assumption | refine ‹Keeps _ _ _ _ → Keeps _ _ _ _› ?_ | refine pair_keeps (by assumption) (pinsLet_keeps (hk := ?_) ..) | refine pair_keeps (by assumption) (mntLine_keeps (hk := ?_) ..)))

theorem runCmr_keeps (h : Hdr) (d : BitVec 5) (op : MntOp) (a b : BitVec 5) (s : State) (hk : Keeps W Q L s) : Keeps W Q L (runCmr h d op a b s) := by
  rw [runCmr.eq_def]
  repeat' (first | with_reducible (first | assumption | refine iter_keeps ?_ ?_ | refine standBy_keeps (hk := ?_) .. | refine arbOut_keeps (hk := ?_) .. | refine runIns_keeps (hk := ?_) (hbody := ?_) .. | refine pair_keeps (by assumption) (cmrAnswer_keeps (hk := ?_) ..) | refine pairThen_keeps (by assumption) (cmrAnswer_keeps (hk := ?_) ..) (fun e => Keeps.of e) | refine pair_keeps (by assumption) (mntLines_keeps (hk := ?_) ..)) | split | intro _ | simp only [])

theorem lockWay_keeps (n : Nat) (th : Bool) (p : Part) (s : State) (hk : Keeps W Q L s) : Keeps W Q L (lockWay n th p s).2 := by
  rw [lockWay.eq_def]
  repeat' (first | with_reducible (first | assumption | refine itep_keeps ?_ ?_ | refine State_updPu_keeps (hk := ?_) .. | refine pair_keeps (by assumption) (obtainShared_keeps (hk := ?_) ..) | refine homeAnswer_keeps (hk := ?_) .. | refine pair_keeps (by assumption) (answerExc_keeps (hk := ?_) ..)) | split | simp only [])

theorem unlockWay_keeps (n l : Nat) (s : State) (hk : Keeps W Q L s) : Keeps W Q L (unlockWay n l s).2 := by
  rw [unlockWay.eq_def]
  repeat' (first | with_reducible (first | assumption | refine itep_keeps ?_ ?_ | refine State_updPu_keeps (hk := ?_) ..) | split)

theorem unlockSet_keeps (n l : Nat) (s : State) (hk : Keeps W Q L s) : Keeps W Q L (unlockSet n l s).2 := by
  rw [unlockSet.eq_def]
  repeat' (first | with_reducible (first | assumption | refine State_updPu_keeps (hk := ?_) .. | refine foldl_keeps _ ?_ _ _ ?_) | (intro _ _ _ e _; subst e; (try simp only [])) | split)

theorem runLockw_keeps (h : Hdr) (d a b : BitVec 5) (s : State) (hk : Keeps W Q L s) : Keeps W Q L (runLockw h d a b s) := by
  rw [runLockw.eq_def]
  repeat' (first | with_reducible (first | assumption | refine iter_keeps ?_ ?_ | refine State_updThr_keeps (hk := ?_) .. | refine runIns_keeps (hk := ?_) (hbody := ?_) .. | refine pair_keeps (by assumption) (transParts_keeps (hk := ?_) ..) | refine pair_keeps (by assumption) (lockWay_keeps (hk := ?_) ..) | refine unlockWay_keeps (hk := ?_) .. | refine unlockSet_keeps (hk := ?_) ..) | split | intro _ | simp only [])

theorem runTlbi_keeps (h : Hdr) (op : TlbiOp) (code : Nat) (loc : Bool) (a b : BitVec 5) (s : State) (hk : Keeps W Q L s) : Keeps W Q L (runTlbi h op code loc a b s) := by
  rw [runTlbi.eq_def]
  repeat' (first | with_reducible (first | assumption | exact Keeps.of (by assumption) | refine iter_keeps ?_ ?_ | refine State_updPu_keeps (hk := ?_) .. | refine State_updThr_keeps (hk := ?_) .. | refine runIns_keeps (hk := ?_) (hbody := ?_) ..) | split | intro _)

theorem tlbiFinish_keeps (s : State) (hk : Keeps W Q L s) : Keeps W Q L (tlbiFinish s) := by
  rw [tlbiFinish.eq_def]
  repeat' (first | with_reducible (first | assumption | exact Keeps.of (by assumption) | refine State_updThr_keeps (hk := ?_) .. | refine retire_keeps (hk := ?_) .. | refine advance_keeps (hk := ?_) .. | refine foldl_keeps _ ?_ _ _ ?_) | (intro _ _ _ e _; subst e; (try simp only [])) | split)

def OpKeeps (W : Prop) (Q : List Instr) (L : Limited → Prop) {α : Type} (m : OpM α) : Prop :=
  ∀ s : State, Keeps W Q L s → Keeps W Q L (m.run s).2

theorem opRun_keeps {α : Type} {m : OpM α} {s : State} (h : OpKeeps W Q L m) (k : Keeps W Q L s) : Keeps W Q L (m.run s).2 := h s k

theorem opBind_keeps {α β : Type} {m : OpM α} {f : α → OpM β} (h : OpKeeps W Q L m) (g : ∀ a, OpKeeps W Q L (f a)) :
    OpKeeps W Q L (m >>= f) := by
  intro s k
  have e := h s k
  rw [ExceptT.run_bind]
  simp only [bind, StateT.bind]
  rcases hm : m.run s with ⟨r, t⟩
  rw [hm] at e
  cases r with
  | ok a => exact g a t e
  | error x => exact e

theorem opPure_keeps {α : Type} (a : α) : OpKeeps W Q L (pure a) := fun _ h => h

theorem opThrow_keeps {α : Type} (x : OpEnd) : OpKeeps W Q L (throw x : OpM α) := fun _ h => h

theorem opGet_keeps : OpKeeps W Q L (get : OpM State) := fun _ h => h

theorem opModify_keeps {f : State → State} (h : ∀ s, Keeps W Q L s → Keeps W Q L (f s)) : OpKeeps W Q L (modify f : OpM Unit) := fun s k => h s k

theorem opModifyGet_keeps {α : Type} {f : State → α × State} (h : ∀ s, Keeps W Q L s → Keeps W Q L (f s).2) :
    OpKeeps W Q L (modifyGet f : OpM α) := fun s k => h s k

theorem opFail_keeps  {α : Type} (code : Nat) : OpKeeps W Q L (opFail code : OpM α) := by
  rw [opFail.eq_def]
  repeat' with_reducible exact opThrow_keeps _

theorem opNeed_keeps (b : Bool) (code : Nat) : OpKeeps W Q L (opNeed b code) := by
  rw [opNeed.eq_def]
  repeat' (first | with_reducible (first | exact opPure_keeps _ | exact opFail_keeps ..) | split)

theorem opRead_keeps (comp : Bool) (z zpa n : Nat) : OpKeeps W Q L (opRead comp z zpa n) := by
  rw [opRead.eq_def]
  repeat' (first | with_reducible (first | exact opPure_keeps _ | refine accRead_keeps (hk := ?_) .. | exact opFail_keeps .. | refine opBind_keeps ?_ (fun _ => ?_) | refine opModifyGet_keeps (fun _ _ => ?_) | assumption) | split)

theorem opWrite_keeps (comp : Bool) (z zpa : Nat) (b : List Byte) : OpKeeps W Q L (opWrite comp z zpa b) := by
  rw [opWrite.eq_def]
  repeat' (first | with_reducible (first | exact opPure_keeps _ | exact opThrow_keeps _ | refine accWrite_keeps (hk := ?_) .. | exact opFail_keeps .. | refine opBind_keeps ?_ (fun _ => ?_) | refine opModifyGet_keeps (fun _ _ => ?_) | assumption) | split)

theorem drbgBytes_keeps (k : Nat) (predict : Bool) (n : Nat) (s : State) (hk : Keeps W Q L s) : Keeps W Q L (drbgBytes k predict n s).2 := by
  rw [drbgBytes.eq_def]
  repeat' with_reducible (first | exact Keeps.of (by assumption) | refine State_updSlice_keeps (hk := ?_) ..)

theorem opRandom_keeps (k : Nat) (predict : Bool) (n : Nat) : OpKeeps W Q L (opRandom k predict n) := by
  rw [opRandom.eq_def]
  repeat' with_reducible (first | exact opGet_keeps | exact opNeed_keeps .. | refine drbgBytes_keeps (hk := ?_) .. | refine opBind_keeps ?_ (fun _ => ?_) | refine opModifyGet_keeps (fun _ _ => ?_) | assumption)

theorem openToken_keeps (z zpa : Nat) : OpKeeps W Q L (openToken z zpa) := by
  rw [openToken.eq_def]
  repeat' (first | with_reducible (first | exact opPure_keeps _ | exact opGet_keeps | exact opFail_keeps .. | exact opNeed_keeps .. | exact opRead_keeps .. | refine opBind_keeps ?_ (fun _ => ?_)) | split)

theorem useToken_keeps (z zpa : Nat) (kinds bits : List Nat) : OpKeeps W Q L (useToken z zpa kinds bits) := by
  rw [useToken.eq_def]
  repeat' with_reducible (first | exact opPure_keeps _ | exact opNeed_keeps .. | exact openToken_keeps .. | refine opBind_keeps ?_ (fun _ => ?_))

theorem makeToken_keeps (k z zpa kind usage : Nat) (mat : List Byte) : OpKeeps W Q L (makeToken k z zpa kind usage mat) := by
  rw [makeToken.eq_def]
  repeat' (first | with_reducible (first | exact opGet_keeps | exact opFail_keeps .. | exact opWrite_keeps .. | exact opRandom_keeps .. | refine opBind_keeps ?_ (fun _ => ?_)) | split | simp only [])

theorem freeUsage_keeps   : OpKeeps W Q L (freeUsage ) := by
  rw [freeUsage.eq_def]
  repeat' with_reducible (first | exact opPure_keeps _ | refine State_draw_keeps (hk := ?_) .. | refine opBind_keeps ?_ (fun _ => ?_) | refine opModifyGet_keeps (fun _ _ => ?_) | assumption)

theorem writeCtx_keeps (comp : Bool) (z zpa : Nat) (r : Option CtxRec) : OpKeeps W Q L (writeCtx comp z zpa r) := by
  rw [writeCtx.eq_def]
  repeat' (first | with_reducible (first | exact opPure_keeps _ | exact opWrite_keeps .. | refine opBind_keeps ?_ (fun _ => ?_) | refine opModifyGet_keeps (fun _ _ => ?_) | refine opModify_keeps (fun _ _ => ?_) | exact Keeps.of (by assumption)) | split)

theorem startCtx_keeps (z : Nat) (d : Desc) : OpKeeps W Q L (startCtx z d) := by
  rw [startCtx.eq_def]
  repeat' (first | with_reducible (first | exact opPure_keeps _ | exact opGet_keeps | exact opFail_keeps .. | exact opNeed_keeps .. | exact opRead_keeps .. | refine opBind_keeps ?_ (fun _ => ?_)) | split)

theorem endCtx_keeps (z : Nat) (d : Desc) (r : CtxRec) : OpKeeps W Q L (endCtx z d r) := by
  rw [endCtx.eq_def]
  repeat' (first | with_reducible (first | exact opPure_keeps _ | exact opGet_keeps | exact opNeed_keeps .. | exact writeCtx_keeps .. | refine opBind_keeps ?_ (fun _ => ?_)) | split)

theorem setStage_keeps (comp : Bool) (k : Nat) (j : Job) (st : JobStage) (s : State) (hk : Keeps W Q L s) : Keeps W Q L (setStage comp k j st s) := by
  rw [setStage.eq_def]
  repeat' with_reducible (first | assumption | refine State_updSlice_keeps (hk := ?_) ..)

theorem startJob_keeps (comp : Bool) (k op : Nat) (f : Nat → Desc → OpM OpOut) (s : State) (hf : ∀ z d, OpKeeps W Q L (f z d)) (hk : Keeps W Q L s) : Keeps W Q L (startJob comp k op f s) := by
  rw [startJob.eq_def]
  repeat' (first | with_reducible (first | assumption | refine ite_keeps ?_ ?_ | refine setStage_keeps (hk := ?_) .. | exact opRun_keeps (hf _ _) hk | refine pair_keeps (by assumption) ?_) | split | simp only [])

theorem runJob_keeps (comp : Bool) (k op : Nat) (f : Nat → Desc → OpM OpOut) (s : State) (hf : ∀ z d, OpKeeps W Q L (f z d)) (hk : Keeps W Q L s) : Keeps W Q L (runJob comp k op f s) := by
  rw [runJob.eq_def]
  repeat' (first | with_reducible (first | assumption | refine ite_keeps ?_ ?_ | refine orWait_keeps (hk := ?_) (hf := ?_) .. | refine startJob_keeps (hk := ?_) (hf := ?_) ..) | intro _)

theorem runGcm_keeps (enc : Bool) (z : Nat) (d : Desc) : OpKeeps W Q L (runGcm enc z d) := by
  rw [runGcm.eq_def]
  repeat' (first | with_reducible (first | exact opPure_keeps _ | exact opFail_keeps .. | exact opNeed_keeps .. | exact opRead_keeps .. | exact opWrite_keeps .. | exact useToken_keeps .. | exact startCtx_keeps .. | exact endCtx_keeps .. | refine opBind_keeps ?_ (fun _ => ?_)) | split)

theorem runXts_keeps (enc : Bool) (z : Nat) (d : Desc) : OpKeeps W Q L (runXts enc z d) := by
  rw [runXts.eq_def]
  repeat' with_reducible (first | exact opPure_keeps _ | exact opNeed_keeps .. | exact opRead_keeps .. | exact opWrite_keeps .. | exact useToken_keeps .. | refine opBind_keeps ?_ (fun _ => ?_))

theorem runCmac_keeps (gen : Bool) (z : Nat) (d : Desc) : OpKeeps W Q L (runCmac gen z d) := by
  rw [runCmac.eq_def]
  repeat' (first | with_reducible (first | exact opPure_keeps _ | exact opNeed_keeps .. | exact opRead_keeps .. | exact useToken_keeps .. | exact startCtx_keeps .. | exact endCtx_keeps .. | refine opBind_keeps ?_ (fun _ => ?_)) | split)

theorem runHash_keeps (n : Nat) (z : Nat) (d : Desc) : OpKeeps W Q L (runHash n z d) := by
  rw [runHash.eq_def]
  repeat' (first | with_reducible (first | exact opPure_keeps _ | exact opNeed_keeps .. | exact opRead_keeps .. | exact opWrite_keeps .. | exact startCtx_keeps .. | exact endCtx_keeps .. | refine opBind_keeps ?_ (fun _ => ?_)) | split)

theorem runHmac_keeps (gen : Bool) (z : Nat) (d : Desc) : OpKeeps W Q L (runHmac gen z d) := by
  rw [runHmac.eq_def]
  repeat' (first | with_reducible (first | exact opPure_keeps _ | exact opNeed_keeps .. | exact opRead_keeps .. | exact opWrite_keeps .. | exact useToken_keeps .. | exact startCtx_keeps .. | exact endCtx_keeps .. | refine opBind_keeps ?_ (fun _ => ?_)) | split)

theorem opScalar_keeps (k n : Nat) : OpKeeps W Q L (opScalar k n) := by
  rw [opScalar.eq_def]
  repeat' with_reducible (first | exact opPure_keeps _ | exact opRandom_keeps .. | refine opBind_keeps ?_ (fun _ => ?_))

theorem ecInput_keeps (z : Nat) (d : Desc) : OpKeeps W Q L (ecInput z d) := by
  rw [ecInput.eq_def]
  repeat' with_reducible (first | exact opPure_keeps _ | exact opNeed_keeps .. | exact opRead_keeps .. | refine opBind_keeps ?_ (fun _ => ?_))

theorem opEcdsaSign_keeps (slice : Fin 16) (z : Nat) (d : Desc) : OpKeeps W Q L (opEcdsaSign slice z d) := by
  rw [opEcdsaSign.eq_def]
  repeat' with_reducible (first | exact opPure_keeps _ | exact opNeed_keeps .. | exact opWrite_keeps .. | exact useToken_keeps .. | exact opScalar_keeps .. | exact ecInput_keeps .. | refine opBind_keeps ?_ (fun _ => ?_))

theorem opEcdsaVerify_keeps (z : Nat) (d : Desc) : OpKeeps W Q L (opEcdsaVerify z d) := by
  rw [opEcdsaVerify.eq_def]
  repeat' with_reducible (first | exact opPure_keeps _ | exact opNeed_keeps .. | exact opRead_keeps .. | exact ecInput_keeps .. | refine opBind_keeps ?_ (fun _ => ?_))

theorem opMlDsaSign_keeps (slice : Fin 16) (z : Nat) (d : Desc) : OpKeeps W Q L (opMlDsaSign slice z d) := by
  rw [opMlDsaSign.eq_def]
  repeat' with_reducible (first | exact opPure_keeps _ | exact opNeed_keeps .. | exact opRead_keeps .. | exact opWrite_keeps .. | exact opRandom_keeps .. | exact useToken_keeps .. | refine opBind_keeps ?_ (fun _ => ?_))

theorem opMlDsaVerify_keeps (z : Nat) (d : Desc) : OpKeeps W Q L (opMlDsaVerify z d) := by
  rw [opMlDsaVerify.eq_def]
  repeat' with_reducible (first | exact opPure_keeps _ | exact opNeed_keeps .. | exact opRead_keeps .. | refine opBind_keeps ?_ (fun _ => ?_))

theorem opMlKemKeyGeneration_keeps (slice : Fin 16) (z : Nat) (d : Desc) : OpKeeps W Q L (opMlKemKeyGeneration slice z d) := by
  rw [opMlKemKeyGeneration.eq_def]
  repeat' with_reducible (first | exact opPure_keeps _ | exact opNeed_keeps .. | exact opWrite_keeps .. | exact opRandom_keeps .. | exact makeToken_keeps .. | exact freeUsage_keeps .. | refine opBind_keeps ?_ (fun _ => ?_))

theorem opMlKemEncapsulate_keeps (slice : Fin 16) (z : Nat) (d : Desc) : OpKeeps W Q L (opMlKemEncapsulate slice z d) := by
  rw [opMlKemEncapsulate.eq_def]
  repeat' with_reducible (first | exact opPure_keeps _ | exact opNeed_keeps .. | exact opRead_keeps .. | exact opWrite_keeps .. | exact opRandom_keeps .. | exact makeToken_keeps .. | exact freeUsage_keeps .. | refine opBind_keeps ?_ (fun _ => ?_))

theorem opMlKemDecapsulate_keeps (slice : Fin 16) (z : Nat) (d : Desc) : OpKeeps W Q L (opMlKemDecapsulate slice z d) := by
  rw [opMlKemDecapsulate.eq_def]
  repeat' with_reducible (first | exact opPure_keeps _ | exact opNeed_keeps .. | exact opRead_keeps .. | exact useToken_keeps .. | exact makeToken_keeps .. | exact freeUsage_keeps .. | refine opBind_keeps ?_ (fun _ => ?_))

theorem opEcdsaKeyGeneration_keeps (slice : Fin 16) (z : Nat) (d : Desc) : OpKeeps W Q L (opEcdsaKeyGeneration slice z d) := by
  rw [opEcdsaKeyGeneration.eq_def]
  repeat' with_reducible (first | exact opPure_keeps _ | exact opNeed_keeps .. | exact opWrite_keeps .. | exact makeToken_keeps .. | exact freeUsage_keeps .. | exact opScalar_keeps .. | refine opBind_keeps ?_ (fun _ => ?_))

theorem opMlDsaKeyGeneration_keeps (slice : Fin 16) (z : Nat) (d : Desc) : OpKeeps W Q L (opMlDsaKeyGeneration slice z d) := by
  rw [opMlDsaKeyGeneration.eq_def]
  repeat' with_reducible (first | exact opPure_keeps _ | exact opNeed_keeps .. | exact opWrite_keeps .. | exact opRandom_keeps .. | exact makeToken_keeps .. | exact freeUsage_keeps .. | refine opBind_keeps ?_ (fun _ => ?_))

theorem opPinBlockTranslation_keeps (slice : Fin 16) (z : Nat) (d : Desc) : OpKeeps W Q L (opPinBlockTranslation slice z d) := by
  rw [opPinBlockTranslation.eq_def]
  repeat' (first | with_reducible (first | exact opPure_keeps _ | exact opFail_keeps .. | exact opNeed_keeps .. | exact opRead_keeps .. | exact opWrite_keeps .. | exact opRandom_keeps .. | exact useToken_keeps .. | refine opBind_keeps ?_ (fun _ => ?_)) | split)

theorem genSize_keeps (kind : Nat) : OpKeeps W Q L (genSize kind) := by
  rw [genSize.eq_def]
  repeat' (first | with_reducible (first | exact opPure_keeps _ | refine State_draw_keeps (hk := ?_) .. | refine opBind_keeps ?_ (fun _ => ?_) | refine opModifyGet_keeps (fun _ _ => ?_) | assumption) | split)

theorem opGenerateKey_keeps (slice : Fin 16) (z : Nat) (d : Desc) : OpKeeps W Q L (opGenerateKey slice z d) := by
  rw [opGenerateKey.eq_def]
  repeat' with_reducible (first | exact opPure_keeps _ | exact opNeed_keeps .. | exact opRandom_keeps .. | exact makeToken_keeps .. | exact genSize_keeps .. | refine opBind_keeps ?_ (fun _ => ?_))

theorem opImportClearKey_keeps (slice : Fin 16) (z : Nat) (d : Desc) : OpKeeps W Q L (opImportClearKey slice z d) := by
  rw [opImportClearKey.eq_def]
  repeat' with_reducible (first | exact opPure_keeps _ | exact opNeed_keeps .. | exact opRead_keeps .. | exact makeToken_keeps .. | refine opBind_keeps ?_ (fun _ => ?_))

theorem opReWrap_keeps (slice : Fin 16) (z : Nat) (d : Desc) : OpKeeps W Q L (opReWrap slice z d) := by
  rw [opReWrap.eq_def]
  repeat' with_reducible (first | exact opPure_keeps _ | exact opNeed_keeps .. | exact openToken_keeps .. | exact makeToken_keeps .. | refine opBind_keeps ?_ (fun _ => ?_))

theorem opRandomBytes_keeps (slice : Fin 16) (z : Nat) (d : Desc) : OpKeeps W Q L (opRandomBytes slice z d) := by
  rw [opRandomBytes.eq_def]
  repeat' with_reducible (first | exact opPure_keeps _ | exact opNeed_keeps .. | exact opWrite_keeps .. | exact opRandom_keeps .. | refine opBind_keeps ?_ (fun _ => ?_))

theorem startStream_keeps (z : Nat) (d : Desc) : OpKeeps W Q L (startStream z d) := by
  rw [startStream.eq_def]
  repeat' (first | with_reducible (first | exact opPure_keeps _ | exact opGet_keeps | exact opFail_keeps .. | exact opNeed_keeps .. | exact opRead_keeps .. | refine opBind_keeps ?_ (fun _ => ?_)) | split)

theorem endStream_keeps (z : Nat) (d : Desc) (ended : Bool) (r : CtxRec) : OpKeeps W Q L (endStream z d ended r) := by
  rw [endStream.eq_def]
  repeat' (first | with_reducible (first | exact opPure_keeps _ | exact writeCtx_keeps ..) | split)

theorem freeUsed_keeps (lo hi : Nat) : OpKeeps W Q L (freeUsed lo hi) := by
  rw [freeUsed.eq_def]
  repeat' with_reducible (first | exact opPure_keeps _ | refine State_draw_keeps (hk := ?_) .. | refine opBind_keeps ?_ (fun _ => ?_) | refine opModifyGet_keeps (fun _ _ => ?_) | assumption)

theorem opCompress_keeps (z : Nat) (d : Desc) : OpKeeps W Q L (opCompress z d) := by
  rw [opCompress.eq_def]
  repeat' (first | with_reducible (first | exact opPure_keeps _ | exact opThrow_keeps _ | exact opRead_keeps .. | exact opWrite_keeps .. | exact startStream_keeps .. | exact endStream_keeps .. | exact freeUsed_keeps .. | refine opBind_keeps ?_ (fun _ => ?_)) | split | simp only [])

theorem opDecompress_keeps (z : Nat) (d : Desc) : OpKeeps W Q L (opDecompress z d) := by
  rw [opDecompress.eq_def]
  repeat' (first | with_reducible (first | exact opPure_keeps _ | exact opThrow_keeps _ | exact opRead_keeps .. | exact opWrite_keeps .. | exact startStream_keeps .. | exact endStream_keeps .. | exact freeUsed_keeps .. | refine opBind_keeps ?_ (fun _ => ?_)) | split | simp only [])

theorem reseedAll_keeps (s : State) (hk : Keeps W Q L s) : Keeps W Q L (reseedAll s) := by
  rw [reseedAll.eq_def]
  repeat' (first | with_reducible (first | assumption | exact Keeps.of (by assumption) | refine State_updSlice_keeps (hk := ?_) .. | refine foldl_keeps _ ?_ _ _ ?_) | (intro _ _ _ e _; subst e; (try simp only [])))

theorem stoppedBuffers_keeps (comp : Bool) (j : Job) (s : State) (hk : Keeps W Q L s) : Keeps W Q L (stoppedBuffers comp j s) := by
  rw [stoppedBuffers.eq_def]
  repeat' (first | with_reducible (first | assumption | exact Keeps.of (by assumption) | refine ite_keeps ?_ ?_ | refine accWrite_keeps (hk := ?_) .. | refine Keeps.of (ite_keeps ?_ ?_)) | split)

theorem runDec_keeps (h : Hdr) (fn : Nat) (d a b : BitVec 5) (f : Nat → Num → Num → NumRes) (s : State) (hk : Keeps W Q L s) : Keeps W Q L (runDec h fn d a b f s) := by
  rw [runDec.eq_def]
  repeat' with_reducible (first | assumption | refine runTrap_keeps (hk := ?_) ..)

theorem runDec64_keeps (h : Hdr) (fn : Nat) (d a b : BitVec 5) (f : Nat → Num → Num → NumRes) (s : State) (hk : Keeps W Q L s) : Keeps W Q L (runDec64 h fn d a b f s) := by
  rw [runDec64.eq_def]
  repeat' with_reducible (first | assumption | refine runTrap_keeps (hk := ?_) ..)

theorem runAlu3_keeps (h : Hdr) (fn : Nat) (o : T3) (f : Arch → Word → Word → Alu) (s : State) (hk : Keeps W Q L s) : Keeps W Q L (runAlu3 h fn o f s) := by
  rw [runAlu3.eq_def]
  repeat' with_reducible (first | assumption | refine runReg_keeps (hk := ?_) ..)

theorem runAlu2_keeps (h : Hdr) (fn : Nat) (o : T2) (f : Arch → Word → Alu) (s : State) (hk : Keeps W Q L s) : Keeps W Q L (runAlu2 h fn o f s) := by
  rw [runAlu2.eq_def]
  repeat' with_reducible (first | assumption | refine runReg_keeps (hk := ?_) ..)

theorem runWide_keeps (h : Hdr) (fn : Nat) (o : T3) (f : Word → Word → Nat) (s : State) (hk : Keeps W Q L s) : Keeps W Q L (runWide h fn o f s) := by
  rw [runWide.eq_def]
  repeat' with_reducible (first | assumption | refine runReg_keeps (hk := ?_) ..)

theorem runDiv_keeps (h : Hdr) (fn : Nat) (o : T3) (f : Word → Word → Alu) (s : State) (hk : Keeps W Q L s) : Keeps W Q L (runDiv h fn o f s) := by
  rw [runDiv.eq_def]
  repeat' with_reducible (first | assumption | refine runTrap_keeps (hk := ?_) ..)

theorem runImm_keeps (h : Hdr) (opc : Nat) (o : I12) (f : Word → Word) (s : State) (hk : Keeps W Q L s) : Keeps W Q L (runImm h opc o f s) := by
  rw [runImm.eq_def]
  repeat' with_reducible (first | assumption | refine runReg_keeps (hk := ?_) ..)

theorem runShi_keeps (h : Hdr) (kind : Nat) (k : Shift) (d a : BitVec 5) (n : BitVec 6) (s : State) (hk : Keeps W Q L s) : Keeps W Q L (runShi h kind k d a n s) := by
  rw [runShi.eq_def]
  repeat' with_reducible (first | assumption | refine runReg_keeps (hk := ?_) ..)

theorem runIoa_keeps (h : Hdr) (fn align : Nat) (d a b : BitVec 5) (send : Nat → Word → State → Res) (s : State) (hsend : ∀ x0 x1 x2, Keeps W Q L x2 → Keeps W Q L (send x0 x1 x2).st) (hk : Keeps W Q L s) : Keeps W Q L (runIoa h fn align d a b send s) := by
  rw [runIoa.eq_def]
  repeat' (first | with_reducible (first | assumption | refine iter_keeps ?_ ?_ | refine State_updThr_keeps (hk := ?_) .. | refine pair_keeps (by assumption) (translate_keeps (hk := ?_) ..) | refine runIns_keeps (hk := ?_) (hbody := ?_) .. | refine latched_keeps (hk := ?_) (hput := ?_) (hsend := ?_) .. | refine hsend _ _ _ ?_) | split | intro _)

theorem awaitIoa_keeps (n : Nat) (th : Bool) (d : BitVec 5) (r : Option Word) (s : State) (hk : Keeps W Q L s) : Keeps W Q L (awaitIoa n th d r s).st := by
  rw [awaitIoa.eq_def]
  repeat' with_reducible (first | assumption | refine State_updThr_keeps (hk := ?_) ..)

theorem sendXstart_keeps (h : Hdr) (d b : BitVec 5) (zpa : Nat) (va : Word) (s : State) (hk : Keeps W Q L s) : Keeps W Q L (sendXstart h d b zpa va s).st := by
  rw [sendXstart.eq_def]
  repeat' (first | with_reducible (first | assumption | refine iter_keeps ?_ ?_ | refine State_updLe_keeps (hk := ?_) .. | refine awaitIoa_keeps (hk := ?_) ..) | split | simp only [])

theorem sendRequest_keeps (comp : Bool) (h : Hdr) (d : BitVec 5) (zpa : Nat) (u4 : Word) (s : State) (hk : Keeps W Q L s) : Keeps W Q L (sendRequest comp h d zpa u4 s).st := by
  rw [sendRequest.eq_def]
  repeat' with_reducible (first | assumption | refine iter_keeps ?_ ?_ | refine standing_keeps (hk := ?_) .. | refine request_keeps (hk := ?_) .. | refine awaitIoa_keeps (hk := ?_) ..)

theorem runCra_keeps (h : Hdr) (fn : Nat) (d a b : BitVec 5) (f : Arch → Arch) (s : State) (hk : Keeps W Q L s) : Keeps W Q L (runCra h fn d a b f s) := by
  rw [runCra.eq_def]
  repeat' with_reducible (first | assumption | refine runReg_keeps (hk := ?_) ..)

end Sys2Proof.Machine
end

