-- ==== Sys2Proof/Laws/KeepsBoard.lean ====
section
/-! SUPPORT. Keeps of the operations of sparing, lifecycle rows, plant, recorder, dictionary, management and the tick. -/

set_option Elab.async false

namespace Sys2Proof.Machine

variable {W : Prop} {Q : List Instr} {L : Limited → Prop}

theorem rollTx_keeps (n : Nat) (th : Bool) (s : State) (hk : Keeps W Q L s) : Keeps W Q L (rollTx n th s) := by
  rw [rollTx.eq_def]
  repeat' (first | with_reducible (first | assumption | refine ite_keeps ?_ ?_ | refine State_updThr_keeps (hk := ?_) .. | refine dropTx_keeps (hk := ?_) .. | refine abortOwn_keeps (hk := ?_) ..) | split)

theorem rollBack_keeps (n : Nat) (th : Bool) (s : State) (hk : Keeps W Q L s) : Keeps W Q L (rollBack n th s) := by
  rw [rollBack.eq_def]
  repeat' with_reducible (first | assumption | refine State_updThr_keeps (hk := ?_) .. | refine cancelWaits_keeps (hk := ?_) .. | refine rollTx_keeps (hk := ?_) ..)

theorem mismatch_keeps (pu : Fin 48) (cause info : Nat) (lane : Option Nat) (s : State) (hk : Keeps W Q L s) : Keeps W Q L (mismatch pu cause info lane s) := by
  rw [mismatch.eq_def]
  repeat' with_reducible (first | assumption | refine ite_keeps ?_ ?_ | refine State_updPu_keeps (hk := ?_) .. | refine latch_keeps (hk := ?_) .. | refine declareFailed_keeps (hk := ?_) .. | refine rollBack_keeps (hk := ?_) ..)

theorem uncheckedError_keeps (pu : Fin 48) (s : State) (hk : Keeps W Q L s) : Keeps W Q L (uncheckedError pu s) := by
  rw [uncheckedError.eq_def]
  repeat' with_reducible (first | assumption | refine raiseZone_keeps (hk := ?_) ..)

theorem repairCopy_keeps (pu : Fin 48) (trail : Bool) (addr : BitVec 14) (w : BitVec 200) (s : State) (hk : Keeps W Q L s) : Keeps W Q L (repairCopy pu trail addr w s) := by
  rw [repairCopy.eq_def]
  repeat' with_reducible (first | assumption | refine State_updPu_keeps (hk := ?_) ..)

theorem storeParity_keeps (pu : Fin 48) (addr : BitVec 14) (trail both : Bool) (s : State) (hk : Keeps W Q L s) : Keeps W Q L (storeParity pu addr trail both s) := by
  rw [storeParity.eq_def]
  repeat' with_reducible (first | assumption | refine ite_keeps ?_ ?_ | refine State_updPu_keeps (hk := ?_) .. | refine latch_keeps (hk := ?_) .. | refine declareFailed_keeps (hk := ?_) .. | refine mismatch_keeps (hk := ?_) .. | refine repairCopy_keeps (hk := ?_) ..)

theorem arrayWord_keeps (pu : Fin 48) (th trail latchArray : Bool) (s : State) (hk : Keeps W Q L s) : Keeps W Q L (arrayWord pu th trail latchArray s) := by
  rw [arrayWord.eq_def]
  repeat' with_reducible (first | assumption | refine ite_keeps ?_ ?_ | refine State_updPu_keeps (hk := ?_) .. | refine State_updThr_keeps (hk := ?_) .. | refine declareFailed_keeps (hk := ?_) ..)

theorem updCallUp_keeps (n : Nat) (f : CallUp → CallUp) (s : State) (hk : Keeps W Q L s) : Keeps W Q L (updCallUp n f s) := by
  rw [updCallUp.eq_def]
  repeat' with_reducible exact Keeps.of (by assumption)

theorem provingTo_keeps (n k : Nat) (s : State) (hk : Keeps W Q L s) : Keeps W Q L (provingTo n k s) := by
  rw [provingTo.eq_def]
  repeat' with_reducible exact Keeps.of (by assumption)

theorem joinFailed_keeps (n : Nat) (s : State) (hk : Keeps W Q L s) : Keeps W Q L (joinFailed n s) := by
  rw [joinFailed.eq_def]
  repeat' with_reducible exact Keeps.of (by assumption)

theorem injected_keeps (n failLanes : Nat) (s : State) (hk : Keeps W Q L s) : Keeps W Q L (injected n failLanes s) := by
  rw [injected.eq_def]
  repeat' with_reducible (first | assumption | refine State_updPu_keeps (hk := ?_) ..)

theorem provingInjFails_keeps (n : Nat) (s : State) (hk : Keeps W Q L s) : Keeps W Q L (provingInjFails n s) := by
  rw [provingInjFails.eq_def]
  repeat' with_reducible (first | assumption | refine faultFn_keeps (hk := ?_) .. | refine joinFailed_keeps (hk := ?_) ..)

theorem loadStore_keeps (n : Nat) (s : State) (hk : Keeps W Q L s) : Keeps W Q L (loadStore n s) := by
  rw [loadStore.eq_def]
  repeat' with_reducible (first | assumption | refine State_updPu_keeps (hk := ?_) ..)

theorem spareDiag_keeps (n : Nat) (th : Bool) (x : Option Tx) (s : State) (hk : Keeps W Q L s) : Keeps W Q L (spareDiag n th x s) := by
  rw [spareDiag.eq_def]
  (repeat' split) <;> first
    | exact hk
    | exact latch_keeps (hk := diagAddr_keeps (.inl (by assumption)) hk) ..
    | exact diagAddr_keeps (.inr (by assumption)) hk
    | exact diagStore_keeps (hk := endReservations_keeps (hk := hk) ..) ..
    | exact diagStore_keeps (hk := endReservations_keeps (hk := conflicts_keeps (hk := hk) ..) ..) ..

theorem resumeSpare_keeps (c : CallUp) (n : Nat) (s : State) (hk : Keeps W Q L s) : Keeps W Q L (resumeSpare c n s) := by
  rw [resumeSpare.eq_def]
  repeat' (first | with_reducible (first | assumption | refine State_updPu_keeps (hk := ?_) .. | refine State_updZone_keeps (hk := ?_) .. | refine gapWait_keeps (hk := ?_) .. | refine lcGo_keeps (hk := ?_) .. | refine pendIn_keeps (hk := ?_) .. | refine moveRow_keeps (hk := ?_) .. | refine spareDiag_keeps (hk := ?_) .. | refine foldl_keeps _ ?_ _ _ ?_ | refine Keeps.of (lcGo_keeps (hk := ?_) ..) | refine Keeps.of (spareDiag_keeps (hk := ?_) ..) | refine Keeps.of (foldl_keeps _ ?_ _ _ ?_)) | (intro _ _ _ e _; subst e; (try simp only [])) | split)

theorem ceStarted_keeps (n : Fin 36) (s : State) (hk : Keeps W Q L s) : Keeps W Q L (ceStarted n s) := by
  rw [ceStarted.eq_def]
  repeat' (first | with_reducible (first | assumption | refine ite_keeps ?_ ?_ | refine State_updLink_keeps (hk := ?_) .. | refine State_updLe_keeps (hk := ?_) .. | refine gapWait_keeps (hk := ?_) .. | refine lcGo_keeps (hk := ?_) .. | refine faultFn_keeps (hk := ?_) .. | refine rebuildLe_keeps (hk := ?_) .. | refine foldl_keeps _ ?_ _ _ ?_ | refine Keeps.of (lcGo_keeps (hk := ?_) ..)) | (intro _ _ _ e _; subst e; (try simp only [])))

theorem provePu_keeps (n : Fin 48) (s : State) (hk : Keeps W Q L s) : Keeps W Q L (provePu n s).2 := by
  rw [provePu.eq_def]
  repeat' with_reducible (first | assumption | refine itep_keeps ?_ ?_ | refine lcGo_keeps (hk := ?_) .. | refine Keeps.of (State_updPu_keeps (hk := ?_) ..))

theorem proveCe_keeps (n : Fin 36) (s : State) (hk : Keeps W Q L s) : Keeps W Q L (proveCe n s).2 := by
  rw [proveCe.eq_def]
  repeat' with_reducible (first | assumption | refine itep_keeps ?_ ?_ | refine Keeps.of (lcGo_keeps (hk := ?_) ..))

theorem provingOff_keeps (f : Fn) (s : State) (hk : Keeps W Q L s) : Keeps W Q L (provingOff f s) := by
  rw [provingOff.eq_def]
  repeat' with_reducible (first | assumption | refine lcGo_keeps (hk := ?_) ..)

theorem haltTx_keeps (n : Nat) (th : Bool) (s : State) (hk : Keeps W Q L s) : Keeps W Q L (haltTx n th s) := by
  rw [haltTx.eq_def]
  repeat' with_reducible (first | assumption | refine ite_keeps ?_ ?_ | refine abortOwn_keeps (hk := ?_) ..)

theorem puStarted_keeps (n : Fin 48) (fail : Nat) (s : State) (hk : Keeps W Q L s) : Keeps W Q L (puStarted n fail s) := by
  rw [puStarted.eq_def]
  repeat' with_reducible (first | assumption | refine ite_keeps ?_ ?_ | refine lcGo_keeps (hk := ?_) .. | refine faultFn_keeps (hk := ?_) .. | refine injected_keeps (hk := ?_) .. | refine loadStore_keeps (hk := ?_) ..)

theorem startPassed_keeps (f : Fn) (s : State) (hk : Keeps W Q L s) : Keeps W Q L (startPassed f s) := by
  rw [startPassed.eq_def]
  repeat' (first | with_reducible (first | assumption | refine ite_keeps ?_ ?_ | refine State_updLink_keeps (hk := ?_) .. | refine lcGo_keeps (hk := ?_) .. | refine zoneOn_keeps (hk := ?_) .. | refine startRebuild_keeps (hk := ?_) .. | refine ceStarted_keeps (hk := ?_) .. | refine puStarted_keeps (hk := ?_) ..) | split)

theorem startDone_keeps (f : Fn) (fail : Nat) (s : State) (hk : Keeps W Q L s) : Keeps W Q L (startDone f fail s) := by
  rw [startDone.eq_def]
  repeat' (first | with_reducible (first | assumption | refine ite_keeps ?_ ?_ | refine faultFn_keeps (hk := ?_) .. | refine puStarted_keeps (hk := ?_) .. | refine startPassed_keeps (hk := ?_) ..) | split)

theorem discardStores_keeps (n : Fin 48) (th : Bool) (s : State) (hk : Keeps W Q L s) : Keeps W Q L (discardStores n th s) := by
  rw [discardStores.eq_def]
  repeat' (first | with_reducible (first | assumption | refine ite_keeps ?_ ?_ | refine State_updThr_keeps (hk := ?_) .. | refine raiseZone_keeps (hk := ?_) .. | refine foldl_keeps _ ?_ _ _ ?_) | (intro _ _ _ e _; subst e; (try simp only [])) | split)

theorem discardAll_keeps (f : Fn) (s : State) (hk : Keeps W Q L s) : Keeps W Q L (discardAll f s) := by
  rw [discardAll.eq_def]
  repeat' (first | with_reducible (first | assumption | refine discardStores_keeps (hk := ?_) ..) | split)

theorem timedOut_keeps (f : Fn) (s : State) (hk : Keeps W Q L s) : Keeps W Q L (timedOut f s) := by
  rw [timedOut.eq_def]
  repeat' with_reducible (first | assumption | refine ite_keeps ?_ ?_ | refine faultFn_keeps (hk := ?_) .. | refine after_keeps (hk := ?_) .. | refine discardAll_keeps (hk := ?_) ..)

theorem retune_keeps (n : Nat) (s : State) (hk : Keeps W Q L s) : Keeps W Q L (retune n s) := by
  rw [retune.eq_def]
  repeat' with_reducible (first | assumption | exact Keeps.of (by assumption) | refine ite_keeps ?_ ?_ | refine Keeps.of (State_updIsland_keeps (hk := ?_) ..))

theorem retuneAll_keeps (s : State) (hk : Keeps W Q L s) : Keeps W Q L (retuneAll s) := by
  rw [retuneAll.eq_def]
  repeat' (first | with_reducible (first | assumption | refine retune_keeps (hk := ?_) .. | refine foldl_keeps _ ?_ _ _ ?_) | (intro _ _ _ e _; subst e; (try simp only [])))

theorem relocked_keeps (i : Island) (s : State) (hk : Keeps W Q L s) : Keeps W Q L (relocked i s) := by
  rw [relocked.eq_def]
  repeat' (first | with_reducible (first | assumption | exact Keeps.of (by assumption) | refine ite_keeps ?_ ?_) | split)

theorem dropUnitJobs_keeps (s : State) (hk : Keeps W Q L s) : Keeps W Q L (dropUnitJobs s) := by
  rw [dropUnitJobs.eq_def]
  repeat' with_reducible (first | assumption | exact Keeps.of (by assumption) | refine ite_keeps ?_ ?_ | refine Keeps.of (ite_keeps ?_ ?_))

theorem answerFenced_keeps (s : State) (hk : Keeps W Q L s) : Keeps W Q L (answerFenced s) := by
  rw [answerFenced.eq_def]
  repeat' with_reducible (first | assumption | refine settled_keeps (hk := ?_) .. | refine Keeps.of (dropUnitJobs_keeps (hk := ?_) ..))

theorem limitPower_keeps (w : Nat) (s : State) (hk : Keeps W Q L s) : Keeps W Q L (limitPower w s) := by
  rw [limitPower.eq_def]
  repeat' (first | with_reducible (first | exact Keeps.of (by assumption) | refine ite_keeps ?_ ?_ | refine retune_keeps (hk := ?_) ..) | split)

theorem integrate_keeps (uv : Int) (v : Rat) (s : State) (hk : Keeps W Q L s) : Keeps W Q L (integrate uv v s) := by
  rw [integrate.eq_def]
  repeat' with_reducible (first | assumption | exact Keeps.of (by assumption) | refine ite_keeps ?_ ?_ | refine Keeps.of (State_draw_keeps (hk := ?_) ..))

theorem publish_keeps (s : State) (hk : Keeps W Q L s) : Keeps W Q L (publish s) := by
  rw [publish.eq_def]
  repeat' (first | with_reducible (first | exact Keeps.of (by assumption) | refine ite_keeps ?_ ?_ | refine latch_keeps (hk := ?_) .. | refine foldl_keeps _ ?_ _ _ ?_) | (intro _ _ _ e _; subst e; (try simp only [])))

theorem settleBudget_keeps (b : Nat) (s : State) (hk : Keeps W Q L s) : Keeps W Q L (settleBudget b s) := by
  rw [settleBudget.eq_def]
  repeat' (first | with_reducible (first | exact Keeps.of (by assumption) | refine ite_keeps ?_ ?_) | split)

theorem driveCharge_keeps (s : State) (hk : Keeps W Q L s) : Keeps W Q L (driveCharge s) := by
  rw [driveCharge.eq_def]
  repeat' with_reducible exact Keeps.of (by assumption)

theorem trnGo_keeps (mode : Nat) (mc : Fin 20) (a : Acc) (rank : Fin 4) (nibble : Fin 32) (start : BitVec 10) (s : State) (hk : Keeps W Q L s) : Keeps W Q L (trnGo mode mc a rank nibble start s) := by
  rw [trnGo.eq_def]
  repeat' with_reducible (first | assumption | refine doWrite_keeps (hk := ?_) ..)

theorem dwGo_keeps (z : Fin 16) (a : Acc) (index : BitVec 16) (sub : BitVec 8) (op len : Nat) (offset : BitVec 24) (s : State) (hk : Keeps W Q L s) : Keeps W Q L (dwGo z a index sub op len offset s) := by
  rw [dwGo.eq_def]
  repeat' with_reducible (first | assumption | refine doWrite_keeps (hk := ?_) ..)

theorem foldPlant_keeps (s : State) (hk : Keeps W Q L s) : Keeps W Q L (foldPlant s) := by
  rw [foldPlant.eq_def]
  repeat' (first | with_reducible (first | assumption | refine ite_keeps ?_ ?_ | refine histAdd_keeps (hk := ?_) .. | refine extAdd_keeps (hk := ?_) .. | refine foldl_keeps _ ?_ _ _ ?_) | (intro _ _ _ e _; subst e; (try simp only [])))

theorem readCounters_keeps (s : State) (hk : Keeps W Q L s) : Keeps W Q L (readCounters s) := by
  rw [readCounters.eq_def]
  repeat' (first | with_reducible (first | assumption | refine ite_keeps ?_ ?_ | refine foldl_keeps _ ?_ _ _ ?_ | refine Keeps.of (State_updMc_keeps (hk := ?_) ..) | refine Keeps.of (State_updLink_keeps (hk := ?_) ..)) | (intro _ _ _ e _; subst e; (try simp only [])))

theorem countSecond_keeps (s : State) (hk : Keeps W Q L s) : Keeps W Q L (countSecond s) := by
  rw [countSecond.eq_def]
  repeat' (first | with_reducible (first | assumption | exact Keeps.of (by assumption) | refine enckeFault_keeps (hk := ?_) .. | refine foldl_keeps _ ?_ _ _ ?_) | (intro _ _ _ e _; subst e; (try simp only [])))

theorem closeCounts_keeps (s : State) (hk : Keeps W Q L s) : Keeps W Q L (closeCounts s) := by
  rw [closeCounts.eq_def]
  repeat' (first | with_reducible (first | assumption | refine ite_keeps ?_ ?_ | refine histAdd_keeps (hk := ?_) .. | refine foldl_keeps _ ?_ _ _ ?_ | refine Keeps.of (foldl_keeps _ ?_ _ _ ?_)) | (intro _ _ _ e _; subst e; (try simp only [])))

theorem entryNum_keeps (e : DEntry) (s : State) (hk : Keeps W Q L s) : Keeps W Q L (entryNum e s).2 := by
  rw [entryNum.eq_def]
  repeat' (first | with_reducible (first | assumption | refine itep_keeps ?_ ?_ | refine State_draw_keeps (hk := ?_) ..) | split)

theorem entryRead_keeps (e : DEntry) (off : Nat) (s : State) (hk : Keeps W Q L s) : Keeps W Q L (entryRead e off s).2.2 := by
  rw [entryRead.eq_def]
  repeat' (first | with_reducible (first | assumption | refine entryNum_keeps (hk := ?_) ..) | split)

theorem setZc_keeps (v : Nat) (fused : Bool) (s : State) (hk : Keeps W Q (LimIf W) s) : Keeps W Q (LimIf W) (setZc v fused s).2 := by
  rw [setZc.eq_def]
  simp only []
  split
  · exact hk
  · rename_i hv
    split
    · exact hk
    · split
      · exact hk
      · split
        · exact hk
        · rename_i hz
          have l0 := hk.2
          split
          · refine ⟨hk.1, fun w => ?_, hk.3, hk.4⟩
            have l := l0 w
            simp only [LimOk] at l
            simp only [LimOk, List.length_append, List.length_cons, List.length_nil]
            simp at hv
            omega
          · refine ⟨hk.1, fun w => ?_, hk.3, hk.4⟩
            have l := l0 w
            simp only [LimOk] at l
            simp only [LimOk]
            omega

theorem setMaxCommit_keeps (v : Nat) (fused : Bool) (s : State) (hk : Keeps W Q (LimIf W) s) : Keeps W Q (LimIf W) (setMaxCommit v fused s).2 := by
  rw [setMaxCommit.eq_def]
  simp only []
  split
  · exact hk
  · split
    · exact hk
    · split
      · exact hk
      · split
        · exact hk
        · split
          · exact hk
          · have l0 := hk.2
            split
            · refine ⟨hk.1, fun w => ?_, hk.3, hk.4⟩
              have l := l0 w
              simp only [LimOk] at l
              simp only [LimOk, List.length_append, List.length_cons, List.length_nil]
              omega
            · refine ⟨hk.1, fun w => ?_, hk.3, hk.4⟩
              have l := l0 w
              simp only [LimOk] at l
              simp only [LimOk]
              omega

theorem setRoot_keeps (v : BitVec 384) (fused : Bool) (s : State) (hk : Keeps W Q (LimIf W) s) : Keeps W Q (LimIf W) (setRoot v fused s).2 := by
  rw [setRoot.eq_def]
  simp only []
  split
  · exact hk
  · split
    · exact hk
    · split
      · exact hk
      · have l0 := hk.2
        split
        · refine ⟨hk.1, fun w => ?_, hk.3, hk.4⟩
          have l := l0 w
          simp only [LimOk] at l
          simp only [LimOk]
          omega
        · refine ⟨hk.1, fun w => ?_, hk.3, hk.4⟩
          have l := l0 w
          simp only [LimOk] at l
          simp only [LimOk]
          omega

theorem enrolKey_keeps (z : Nat) (fused : Bool) (s : State) (hk : Keeps W Q (LimIf W) s) : Keeps W Q (LimIf W) (enrolKey z fused s).2 := by
  rw [enrolKey.eq_def]
  simp only []
  split
  · exact hk
  · split
    · exact hk
    · split
      · exact hk
      · split
        · exact hk
        · have h2 : Keeps W Q (LimIf W) { s with lim := { s.lim with enrolLeft := s.lim.enrolLeft - 1 } } := by
            have l0 := hk.2
            refine ⟨hk.1, fun w => ?_, hk.3, hk.4⟩
            have l := l0 w
            simp only [LimOk] at l
            simp only [LimOk]
            omega
          split
          · exact h2
          · exact ⟨h2.1, h2.2, h2.3, h2.4⟩

theorem storeEntry_keeps (key v : Nat) (s : State) (hk : Keeps W Q L s) : Keeps W Q L (storeEntry key v s) := by
  rw [storeEntry.eq_def]
  repeat' with_reducible (first | assumption | refine ite_keeps ?_ ?_ | refine State_setEntry_keeps (hk := ?_) .. | refine Keeps.of (State_setEntry_keeps (hk := ?_) ..))

theorem applyRates_keeps (s : State) (hk : Keeps W Q L s) : Keeps W Q L (applyRates s) := by
  rw [applyRates.eq_def]
  repeat' with_reducible exact Keeps.of (by assumption)

theorem proveOn_keeps (r : State → Bool × State) (s : State) (hr : ∀ x0, Keeps W Q L x0 → Keeps W Q L (r x0).2) (hk : Keeps W Q L s) : Keeps W Q L (proveOn r s).2 := by
  rw [proveOn.eq_def]
  repeat' (first | with_reducible (first | assumption | refine itep_keeps ?_ ?_ | refine pair_keeps (by assumption) (hr _ ?_)) | split)

theorem entryWrite_keeps (e : DEntry) (v : Nat) (s : State) (hk : Keeps W Q (LimIf W) s) : Keeps W Q (LimIf W) (entryWrite e v s).2 := by
  rw [entryWrite.eq_def]
  repeat' (first | with_reducible (first | assumption | exact Keeps.of (by assumption) | refine ite_keeps ?_ ?_ | refine itep_keeps ?_ ?_ | refine leaveProvision_keeps (hk := ?_) .. | refine takeRequest_keeps (hk := ?_) .. | refine abandonHeld_keeps (hk := ?_) .. | refine clearDoubt_keeps (hk := ?_) .. | refine provePu_keeps (hk := ?_) .. | refine proveCe_keeps (hk := ?_) .. | refine setZc_keeps (hk := ?_) .. | refine setMaxCommit_keeps (hk := ?_) .. | refine setRoot_keeps (hk := ?_) .. | refine enrolKey_keeps (hk := ?_) .. | refine storeEntry_keeps (hk := ?_) .. | refine applyRates_keeps (hk := ?_) .. | refine proveOn_keeps (hk := ?_) (hr := ?_) ..) | split | intro _)

theorem dictRequest_keeps (p : Principal) (r : DictReq) (i : Option K3Item) (s : State) (hk : Keeps W Q (LimIf W) s) : Keeps W Q (LimIf W) (dictRequest p r i s).2.2 := by
  rw [dictRequest.eq_def]
  repeat' (first | with_reducible (first | assumption | refine modeRequest_keeps (hk := ?_) .. | refine takeRequest_keeps (hk := ?_) .. | refine entryRead_keeps (hk := ?_) .. | refine entryWrite_keeps (hk := ?_) ..) | split)

theorem dictAnswered_keeps (p : Principal) (r : DictReq) (s : State) (hk : Keeps W Q (LimIf W) s) : Keeps W Q (LimIf W) (dictAnswered p r s) := by
  rw [dictAnswered.eq_def]
  repeat' (first | with_reducible (first | assumption | refine ite_keeps ?_ ?_ | refine orWait_keeps (hk := ?_) (hf := ?_) .. | refine pair3_keeps (by assumption) (dictRequest_keeps (hk := ?_) ..) | refine pair3Then_keeps (by assumption) (dictRequest_keeps (hk := ?_) ..) (fun e => Keeps.of e)) | split | intro _)

theorem faultNotice_keeps (z : Fin 16) (s : State) (hk : Keeps W Q L s) : Keeps W Q L (faultNotice z s) := by
  rw [faultNotice.eq_def]
  repeat' with_reducible (first | assumption | refine ite_keeps ?_ ?_ | refine routeIrq_keeps (hk := ?_) ..)

theorem serviceBlk_keeps (b : Blk) (s : State) (hk : Keeps W Q L s) : Keeps W Q L (serviceBlk b s) := by
  rw [serviceBlk.eq_def]
  repeat' (first | with_reducible (first | assumption | refine ite_keeps ?_ ?_ | refine notice_keeps (hk := ?_) .. | refine faultWrite_keeps (hk := ?_) .. | refine faultNotice_keeps (hk := ?_) .. | refine foldl_keeps _ ?_ _ _ ?_) | (intro _ _ _ e _; subst e; (try simp only [])))

theorem maskStorms_keeps (s : State) (hk : Keeps W Q L s) : Keeps W Q L (maskStorms s) := by
  rw [maskStorms.eq_def]
  repeat' (first | with_reducible (first | assumption | refine ite_keeps ?_ ?_ | refine foldl_keeps _ ?_ _ _ ?_ | refine Keeps.of (State_updFlt_keeps (hk := ?_) ..)) | (intro _ _ _ e _; subst e; (try simp only [])))

theorem kick_keeps (s : State) (hk : Keeps W Q L s) : Keeps W Q L (kick s) := by
  rw [kick.eq_def]
  repeat' with_reducible (first | assumption | exact Keeps.of (by assumption) | refine ite_keeps ?_ ?_ | refine Keeps.of (wdogWrite_keeps (hk := ?_) ..))

theorem serviceList_keeps (l : List Blk) (s : State) (hk : Keeps W Q L s) : Keeps W Q L (serviceList l s) := by
  rw [serviceList.eq_def]
  repeat' (first | with_reducible (first | assumption | refine serviceBlk_keeps (hk := ?_) .. | refine foldl_keeps _ ?_ _ _ ?_) | (intro _ _ _ e _; subst e; (try simp only [])))

theorem k0Counts_keeps (micros : Nat) (memError : Bool) (rest : List Blk) (s : State) (hk : Keeps W Q L s) : Keeps W Q L (k0Counts micros memError rest s) := by
  rw [k0Counts.eq_def]
  repeat' with_reducible exact Keeps.of (by assumption)

theorem discardK3_keeps (s : State) (hk : Keeps W Q L s) : Keeps W Q L (discardK3 s) := by
  rw [discardK3.eq_def]
  repeat' (first | with_reducible (first | assumption | refine State_updBox_keeps (hk := ?_) .. | refine countRefusal_keeps (hk := ?_) .. | refine Keeps.of (foldl_keeps _ ?_ _ _ ?_)) | (intro _ _ _ e _; subst e; (try simp only [])) | split)

theorem recheckImages_keeps (csHash ceHash : BitVec 384) (csAgain : Option (Bool × CsImage)) (ceAgain : Option (BitVec 384)) (s : State) (hk : Keeps W Q L s) : Keeps W Q L (recheckImages csHash ceHash csAgain ceAgain s) := by
  rw [recheckImages.eq_def]
  repeat' with_reducible (first | assumption | exact Keeps.of (by assumption) | refine ite_keeps ?_ ?_ | refine latch_keeps (hk := ?_) .. | refine Keeps.of (ite_keeps ?_ ?_))

theorem resumeK1_keeps (loopOk : Bool) (s : State) (hk : Keeps W Q L s) : Keeps W Q L (resumeK1 loopOk s) := by
  rw [resumeK1.eq_def]
  repeat' with_reducible (first | exact Keeps.of (by assumption) | refine ite_keeps ?_ ?_)

theorem setXfer_keeps (t : Transfer) (s : State) (hk : Keeps W Q L s) : Keeps W Q L (setXfer t s) := by
  rw [setXfer.eq_def]
  repeat' with_reducible (first | assumption | refine Keeps.of (dropXfer_keeps (hk := ?_) ..))

theorem readRsp_keeps (busB : Bool) (c : BitVec 7) (r : DictReq) (flags code : Nat) (len : Nat) (d : List Byte) (s : State) (hk : Keeps W Q L s) : Keeps W Q L (readRsp busB c r flags code len d s) := by
  rw [readRsp.eq_def]
  repeat' with_reducible (first | assumption | refine canSend_keeps (hk := ?_) ..)

theorem sendAbort_keeps (busB : Bool) (c : BitVec 7) (head : List Byte) (code : Nat) (s : State) (hk : Keeps W Q L s) : Keeps W Q L (sendAbort busB c head code s) := by
  rw [sendAbort.eq_def]
  repeat' with_reducible (first | assumption | refine canSend_keeps (hk := ?_) .. | refine dropXfer_keeps (hk := ?_) ..)

theorem answerItem_keeps (i : K3Item) (code : Nat) (d : List Byte) (s : State) (hk : Keeps W Q L s) : Keeps W Q L (answerItem i code d s) := by
  rw [answerItem.eq_def]
  repeat' (first | with_reducible (first | assumption | refine ite_keeps ?_ ?_ | refine State_updBox_keeps (hk := ?_) .. | refine answerWait_keeps (hk := ?_) .. | refine dropXfer_keeps (hk := ?_) .. | refine writeAnswer_keeps (hk := ?_) .. | refine setXfer_keeps (hk := ?_) .. | refine readRsp_keeps (hk := ?_) ..) | split)

theorem serveFirst_keeps (write : Bool) (s : State) (hk : Keeps W Q (LimIf W) s) : Keeps W Q (LimIf W) (serveFirst write s) := by
  rw [serveFirst.eq_def]
  repeat' (first | with_reducible (first | assumption | exact Keeps.of (by assumption) | refine ite_keeps ?_ ?_ | refine answerItem_keeps (hk := ?_) .. | refine Keeps.of (dictRequest_keeps (hk := ?_) ..)) | split | simp only [])

theorem serveK3_keeps (write : Bool) (s : State) (hk : Keeps W Q (LimIf W) s) : Keeps W Q (LimIf W) (serveK3 write s) := by
  rw [serveK3.eq_def]
  repeat' (first | with_reducible (first | assumption | refine orWait_keeps (hk := ?_) (hf := ?_) .. | refine serveFirst_keeps (hk := ?_) ..) | intro _)

theorem limWrite_keeps (p : Principal) (f : State → Nat × State) (s : State) (hf : ∀ x0, Keeps W Q L x0 → Keeps W Q L (f x0).2) (hk : Keeps W Q L s) : Keeps W Q L (limWrite p f s) := by
  rw [limWrite.eq_def]
  repeat' (first | with_reducible (first | assumption | refine ite_keeps ?_ ?_ | refine itep_keeps ?_ ?_ | refine hf _ ?_ | refine pairThen_keeps (by assumption) ?_ (fun e => Keeps.of e)) | split)

theorem queueXfer_keeps (f : CanFrame) (r : DictReq) (s : State) (hk : Keeps W Q L s) : Keeps W Q L (queueXfer f r s) := by
  rw [queueXfer.eq_def]
  repeat' with_reducible (first | assumption | refine k3Join_keeps (hk := ?_) .. | refine setXfer_keeps (hk := ?_) ..)

theorem finishWrite_keeps (t : Transfer) (s : State) (hk : Keeps W Q (LimIf W) s) : Keeps W Q (LimIf W) (finishWrite t s) := by
  rw [finishWrite.eq_def]
  repeat' (first | with_reducible (first | assumption | refine answerWait_keeps (hk := ?_) .. | refine writeRsp_keeps (hk := ?_) .. | refine Keeps.of (dictRequest_keeps (hk := ?_) ..)) | split | simp only [])

theorem loadTap_keeps (i : TapIns) (s : State) (hk : Keeps W Q L s) : Keeps W Q L (loadTap i s) := by
  rw [loadTap.eq_def]
  repeat' with_reducible (first | assumption | exact Keeps.of (by assumption) | refine ite_keeps ?_ ?_ | refine leaveProvision_keeps (hk := ?_) .. | refine takeRequest_keeps (hk := ?_) ..)

theorem tick_keeps (s : State) (hk : Keeps W Q L s) : Keeps W Q L (tick s) := by
  rw [tick.eq_def]
  repeat' with_reducible (first | assumption | exact Keeps.of (by assumption) | refine ite_keeps ?_ ?_)

end Sys2Proof.Machine
end

