-- ==== Sys2Proof/Laws/KeepsExecA.lean ====
section
/-! SUPPORT. Keeps of the meanings, first half of the families. -/

set_option Elab.async false

namespace Sys2Proof.Machine

variable {W : Prop} {Q : List Instr} {L : Limited → Prop}

theorem execDescriptorComplete_keeps (comp : Bool) (slice : Fin 16) (s : State) (hk : Keeps W Q L s) (r' : State) (e : execDescriptorComplete comp slice s = .next r') : Keeps W Q L r' := by
  rw [execDescriptorComplete.eq_def] at e
  injection e with e
  rw [← e]
  repeat' (first | with_reducible (first | assumption | refine ite_keeps ?_ ?_ | refine orWait_keeps (hk := ?_) (hf := ?_) .. | refine completeNext_keeps (hk := ?_) ..) | intro _)

theorem execRd_keeps (a : Acc) (line : Nat) (e : ArrayErr) (s : State) (hk : Keeps W Q L s) (r' : State) (e : execRd a line e s = .next r') : Keeps W Q L r' := by
  rw [execRd.eq_def] at e
  injection e with e
  rw [← e]
  repeat' with_reducible (first | assumption | refine homeEnter_keeps (hk := ?_) ..)

theorem execRdn_keeps (a : Acc) (line : Nat) (s : State) (hk : Keeps W Q L s) (r' : State) (e : execRdn a line s = .next r') : Keeps W Q L r' := by
  rw [execRdn.eq_def] at e
  injection e with e
  rw [← e]
  repeat' with_reducible (first | assumption | refine homeEnter_keeps (hk := ?_) ..)

theorem execRdx_keeps (a : Acc) (line : Nat) (stamp : Option Word) (s : State) (hk : Keeps W Q L s) (r' : State) (e : execRdx a line stamp s = .next r') : Keeps W Q L r' := by
  rw [execRdx.eq_def] at e
  injection e with e
  rw [← e]
  repeat' with_reducible (first | assumption | refine homeEnter_keeps (hk := ?_) ..)

theorem execUpg_keeps (a : Acc) (line : Nat) (stamp : Option Word) (s : State) (hk : Keeps W Q L s) (r' : State) (e : execUpg a line stamp s = .next r') : Keeps W Q L r' := by
  rw [execUpg.eq_def] at e
  injection e with e
  rw [← e]
  repeat' with_reducible (first | assumption | refine homeEnter_keeps (hk := ?_) ..)

theorem execPrefetchRead_keeps (pu : Fin 48) (th : Bool) (va : Word) (s : State) (hk : Keeps W Q L s) (r' : State) (e : execPrefetchRead pu th va s = .next r') : Keeps W Q L r' := by
  rw [execPrefetchRead.eq_def] at e
  injection e with e
  rw [← e]
  repeat' (first | with_reducible (first | assumption | refine homeEnter_keeps (hk := ?_) ..) | split)

theorem execAmo_keeps (a : Acc) (addr : BitVec 52) (op : AmoOp) (x y : Quad) (s : State) (hk : Keeps W Q L s) (r' : State) (e : execAmo a addr op x y s = .next r') : Keeps W Q L r' := by
  rw [execAmo.eq_def] at e
  injection e with e
  rw [← e]
  repeat' with_reducible (first | assumption | refine homeEnter_keeps (hk := ?_) ..)

theorem execMnt_keeps (a : Acc) (line : Nat) (op : MntOp) (s : State) (hk : Keeps W Q L s) (r' : State) (e : execMnt a line op s = .next r') : Keeps W Q L r' := by
  rw [execMnt.eq_def] at e
  injection e with e
  rw [← e]
  repeat' with_reducible (first | assumption | refine homeEnter_keeps (hk := ?_) ..)

theorem execWb_keeps (pu : Fin 84) (line : Nat) (s : State) (hk : Keeps W Q L s) (r' : State) (e : execWb pu line s = .next r') : Keeps W Q L r' := by
  rw [execWb.eq_def] at e
  injection e with e
  rw [← e]
  repeat' with_reducible (first | assumption | refine ite_keeps ?_ ?_ | refine evictLine_keeps (hk := ?_) .. | refine settled_keeps (hk := ?_) ..)

theorem execEvc_keeps (a : Acc) (line : Nat) (s : State) (hk : Keeps W Q L s) (r' : State) (e : execEvc a line s = .next r') : Keeps W Q L r' := by
  rw [execEvc.eq_def] at e
  injection e with e
  rw [← e]
  repeat' (first | with_reducible (first | assumption | refine ite_keeps ?_ ?_ | refine evictLine_keeps (hk := ?_) .. | refine settled_keeps (hk := ?_) ..) | split)

theorem execClnw_keeps (pu : Fin 84) (line : Nat) (s : State) (hk : Keeps W Q L s) (r' : State) (e : execClnw pu line s = .next r') : Keeps W Q L r' := by
  rw [execClnw.eq_def] at e
  injection e with e
  rw [← e]
  repeat' with_reducible (first | assumption | refine ite_keeps ?_ ?_ | refine cleanTracked_keeps (hk := ?_) ..)

theorem execPlw_keeps (ce : Fin 36) (z : Fin 16) (pu : Fin 48) (_th : Bool) (addr : BitVec 52) (bytes : List Byte) (s : State) (hk : Keeps W Q L s) (r' : State) (e : execPlw ce z pu _th addr bytes s = .next r') : Keeps W Q L r' := by
  rw [execPlw.eq_def] at e
  injection e with e
  rw [← e]
  repeat' (first | with_reducible (first | assumption | refine orWait_keeps (hk := ?_) (hf := ?_) .. | refine plw_keeps (hk := ?_) .. | refine answerWrite_keeps (hk := ?_) ..) | intro _)

theorem execIvw_keeps (a : Acc) (addr : BitVec 52) (bytes : List Byte) (s : State) (hk : Keeps W Q L s) (r' : State) (e : execIvw a addr bytes s = .next r') : Keeps W Q L r' := by
  rw [execIvw.eq_def] at e
  injection e with e
  rw [← e]
  repeat' (first | with_reducible (first | assumption | refine orWait_keeps (hk := ?_) (hf := ?_) .. | refine ivw_keeps (hk := ?_) .. | refine answerWrite_keeps (hk := ?_) ..) | intro _)

theorem execFwd_keeps (line : Nat) (s : State) (hk : Keeps W Q L s) (r' : State) (e : execFwd line s = .next r') : Keeps W Q L r' := by
  rw [execFwd.eq_def] at e
  injection e with e
  rw [← e]
  repeat' (first | with_reducible (first | assumption | refine ite_keeps ?_ ?_ | refine State_updPu_keeps (hk := ?_) .. | refine dirClear_keeps (hk := ?_) .. | refine writeBack_keeps (hk := ?_) .. | refine endReservations_keeps (hk := ?_) .. | refine conflicts_keeps (hk := ?_) .. | refine fencedCopy_keeps (hk := ?_) .. | refine loseCopy_keeps (hk := ?_) .. | refine settled_keeps (hk := ?_) .. | refine putBusy_keeps (hk := ?_) ..) | split)

theorem execRecall_keeps (line : Nat) (s : State) (hk : Keeps W Q L s) (r' : State) (e : execRecall line s = .next r') : Keeps W Q L r' := by
  rw [execRecall.eq_def] at e
  injection e with e
  rw [← e]
  repeat' (first | with_reducible (first | assumption | refine ite_keeps ?_ ?_ | refine putBusy_keeps (hk := ?_) .. | refine recallHolder_keeps (hk := ?_) ..) | split)

theorem execInv_keeps (line : Nat) (holder : Nat) (s : State) (hk : Keeps W Q L s) (r' : State) (e : execInv line holder s = .next r') : Keeps W Q L r' := by
  rw [execInv.eq_def] at e
  injection e with e
  rw [← e]
  repeat' (first | with_reducible (first | assumption | refine ite_keeps ?_ ?_ | refine endReservations_keeps (hk := ?_) .. | refine loseCopy_keeps (hk := ?_) .. | refine putBusy_keeps (hk := ?_) ..) | split)

theorem execData_keeps (line : Nat) (s : State) (hk : Keeps W Q L s) (r' : State) (e : execData line s = .next r') : Keeps W Q L r' := by
  rw [execData.eq_def] at e
  injection e with e
  rw [← e]
  repeat' (first | with_reducible (first | assumption | refine ite_keeps ?_ ?_ | refine settled_keeps (hk := ?_) .. | refine putBusy_keeps (hk := ?_) .. | refine pair_keeps (by assumption) (fillLine_keeps (hk := ?_) ..) | refine pairThen_keeps (by assumption) (fillLine_keeps (hk := ?_) ..) (fun e => Keeps.of e)) | split)

theorem execAck_keeps (line : Nat) (s : State) (hk : Keeps W Q L s) (r' : State) (e : execAck line s = .next r') : Keeps W Q L r' := by
  rw [execAck.eq_def] at e
  injection e with e
  rw [← e]
  repeat' (first | with_reducible (first | assumption | refine ite_keeps ?_ ?_ | refine settled_keeps (hk := ?_) .. | refine putBusy_keeps (hk := ?_) .. | refine pair_keeps (by assumption) (fillLine_keeps (hk := ?_) ..)) | split)

theorem execFencedCompletion_keeps (b : Blk) (_a : Acc) (addr : BitVec 52) (posted : Bool) (s : State) (hk : Keeps W Q L s) (r' : State) (e : execFencedCompletion b _a addr posted s = .next r') : Keeps W Q L r' := by
  rw [execFencedCompletion.eq_def] at e
  injection e with e
  rw [← e]
  repeat' with_reducible (first | assumption | exact Keeps.of (by assumption) | refine ite_keeps ?_ ?_ | refine latch_keeps (hk := ?_) ..)

theorem execOwnershipHoldExpiry_keeps (pu : Fin 48) (line : Nat) (s : State) (hk : Keeps W Q L s) (r' : State) (e : execOwnershipHoldExpiry pu line s = .next r') : Keeps W Q L r' := by
  rw [execOwnershipHoldExpiry.eq_def] at e
  injection e with e
  rw [← e]
  repeat' with_reducible (first | assumption | refine State_updPu_keeps (hk := ?_) ..)

theorem execSetRecall_keeps (q : Fin 4) (slice : Fin 12) (set : Nat) (s : State) (hk : Keeps W Q L s) (r' : State) (e : execSetRecall q slice set s = .next r') : Keeps W Q L r' := by
  rw [execSetRecall.eq_def] at e
  injection e with e
  rw [← e]
  repeat' with_reducible (first | assumption | refine ite_keeps ?_ ?_ | refine recallTurn_keeps (hk := ?_) .. | refine settled_keeps (hk := ?_) ..)

theorem execMcReadRequest_keeps (a : Acc) (line : Nat) (stripes : List Stripe) (s : State) (hk : Keeps W Q L s) (r' : State) (e : execMcReadRequest a line stripes s = .next r') : Keeps W Q L r' := by
  rw [execMcReadRequest.eq_def] at e
  injection e with e
  rw [← e]
  repeat' with_reducible (first | assumption | exact Keeps.of (by assumption) | refine ite_keeps ?_ ?_ | refine queueLine_keeps (hk := ?_) .. | refine readStripes_keeps (hk := ?_) .. | refine Keeps.of (ite_keeps ?_ ?_))

theorem execMcWriteRequest_keeps (a : Acc) (line : Nat) (bytes : List Byte) (retries : Nat) (s : State) (hk : Keeps W Q L s) (r' : State) (e : execMcWriteRequest a line bytes retries s = .next r') : Keeps W Q L r' := by
  rw [execMcWriteRequest.eq_def] at e
  injection e with e
  rw [← e]
  repeat' (first | with_reducible (first | assumption | exact Keeps.of (by assumption) | refine ite_keeps ?_ ?_ | refine latch_keeps (hk := ?_) .. | refine State_clearPoison_keeps (hk := ?_) .. | refine fenceFn_keeps (hk := ?_) .. | refine checkDegraded_keeps (hk := ?_) .. | refine eccLog_keeps (hk := ?_) .. | refine putDram_keeps (hk := ?_) .. | refine foldl_keeps _ ?_ _ _ ?_ | refine Keeps.of (queueLine_keeps (hk := ?_) ..)) | (intro _ _ _ e _; subst e; (try simp only [])) | split | simp only [])

theorem execRefreshDue_keeps (mc : Fin 20) (rank : Fin 4) (s : State) (hk : Keeps W Q L s) (r' : State) (e : execRefreshDue mc rank s = .next r') : Keeps W Q L r' := by
  rw [execRefreshDue.eq_def] at e
  injection e with e
  rw [← e]
  repeat' with_reducible (first | assumption | refine ite_keeps ?_ ?_ | refine State_updMc_keeps (hk := ?_) ..)

theorem execPowerDownEntry_keeps (mc : Fin 20) (rank : Fin 4) (s : State) (hk : Keeps W Q L s) (r' : State) (e : execPowerDownEntry mc rank s = .next r') : Keeps W Q L r' := by
  rw [execPowerDownEntry.eq_def] at e
  injection e with e
  rw [← e]
  repeat' with_reducible (first | assumption | refine ite_keeps ?_ ?_ | refine State_updMc_keeps (hk := ?_) ..)

theorem execUrgencyStep_keeps (mc : Fin 20) (i : Nat) (level : Fin 4) (s : State) (hk : Keeps W Q L s) (r' : State) (e : execUrgencyStep mc i level s = .next r') : Keeps W Q L r' := by
  rw [execUrgencyStep.eq_def] at e
  injection e with e
  rw [← e]
  repeat' with_reducible (first | assumption | refine State_updMc_keeps (hk := ?_) ..)

theorem execSelfRefreshEntry_keeps (mc : Fin 20) (rank : Fin 4) (s : State) (hk : Keeps W Q L s) (r' : State) (e : execSelfRefreshEntry mc rank s = .next r') : Keeps W Q L r' := by
  rw [execSelfRefreshEntry.eq_def] at e
  injection e with e
  rw [← e]
  repeat' (first | with_reducible (first | assumption | refine ite_keeps ?_ ?_ | refine State_updMc_keeps (hk := ?_) .. | refine targetedRefresh_keeps (hk := ?_) .. | refine foldl_keeps _ ?_ _ _ ?_) | (intro _ _ _ e _; subst e; (try simp only [])))

theorem execDramCommandSlot_keeps (mc : Fin 20) (ready : List Nat) (s : State) (hk : Keeps W Q L s) (r' : State) (e : execDramCommandSlot mc ready s = .next r') : Keeps W Q L r' := by
  rw [execDramCommandSlot.eq_def] at e
  injection e with e
  rw [← e]
  repeat' (first | with_reducible (first | assumption | refine ite_keeps ?_ ?_ | refine State_updMc_keeps (hk := ?_) .. | refine activate_keeps (hk := ?_) .. | refine targetedRefresh_keeps (hk := ?_) ..) | split | simp only [])

theorem execTrnRunComplete_keeps (mc : Fin 20) (res : Word) (noResponse fails : Bool) (s : State) (hk : Keeps W Q L s) (r' : State) (e : execTrnRunComplete mc res noResponse fails s = .next r') : Keeps W Q L r' := by
  rw [execTrnRunComplete.eq_def] at e
  injection e with e
  rw [← e]
  repeat' with_reducible (first | assumption | refine ite_keeps ?_ ?_ | refine State_updMc_keeps (hk := ?_) .. | refine trainFails_keeps (hk := ?_) ..)

theorem execDelayUpdate_keeps (mc : Fin 20) (rank : Fin 4) (osc : Nat) (centres : List (Option Nat)) (s : State) (hk : Keeps W Q L s) (r' : State) (e : execDelayUpdate mc rank osc centres s = .next r') : Keeps W Q L r' := by
  rw [execDelayUpdate.eq_def] at e
  injection e with e
  rw [← e]
  repeat' with_reducible (first | assumption | refine ite_keeps ?_ ?_ | refine State_updMc_keeps (hk := ?_) .. | refine trainFails_keeps (hk := ?_) ..)

theorem execScrubLine_keeps (g : Fin 4) (stripes : List Stripe) (s : State) (hk : Keeps W Q L s) (r' : State) (e : execScrubLine g stripes s = .next r') : Keeps W Q L r' := by
  rw [execScrubLine.eq_def] at e
  injection e with e
  rw [← e]
  repeat' with_reducible (first | assumption | refine ite_keeps ?_ ?_ | refine State_updGrp_keeps (hk := ?_) .. | refine latch_keeps (hk := ?_) .. | refine eccLog_keeps (hk := ?_) .. | refine queueLine_keeps (hk := ?_) .. | refine readStripes_keeps (hk := ?_) ..)

theorem execRebuildLine_keeps (g : Fin 4) (stripes : List Stripe) (s : State) (hk : Keeps W Q L s) (r' : State) (e : execRebuildLine g stripes s = .next r') : Keeps W Q L r' := by
  rw [execRebuildLine.eq_def] at e
  injection e with e
  rw [← e]
  repeat' (first | with_reducible (first | assumption | refine ite_keeps ?_ ?_ | refine State_updGrp_keeps (hk := ?_) .. | refine checkDegraded_keeps (hk := ?_) .. | refine queueLine_keeps (hk := ?_) .. | refine readStripes_keeps (hk := ?_) ..) | split)

theorem execVauxInTolerance_keeps (straps : BitVec 7) (s : State) (hk : Keeps W Q L s) (r' : State) (e : execVauxInTolerance straps s = .next r') : Keeps W Q L r' := by
  rw [execVauxInTolerance.eq_def] at e
  injection e with e
  rw [← e]
  repeat' (first | with_reducible (first | assumption | refine ite_keeps ?_ ?_ | refine State_updIsland_keeps (hk := ?_) .. | refine foldl_keeps _ ?_ _ _ ?_ | refine Keeps.of (idleValve_keeps (hk := ?_) ..)) | (intro _ _ _ e _; subst e; (try simp only [])))

theorem execVauxLoss_keeps (s : State) (hk : Keeps W Q L s) (r' : State) (e : execVauxLoss s = .next r') : Keeps W Q L r' := by
  rw [execVauxLoss.eq_def] at e
  injection e with e
  rw [← e]
  repeat' with_reducible (first | assumption | refine vauxReset_keeps (hk := ?_) ..)

theorem execBootImageCheck_keeps (slotB verifies : Bool) (ver : BitVec 32) (s : State) (hk : Keeps W Q L s) (r' : State) (e : execBootImageCheck slotB verifies ver s = .next r') : Keeps W Q L r' := by
  rw [execBootImageCheck.eq_def] at e
  injection e with e
  rw [← e]
  repeat' with_reducible (first | assumption | exact Keeps.of (by assumption) | refine ite_keeps ?_ ?_ | refine joinBuses_keeps (hk := ?_) .. | refine bootDone_keeps (hk := ?_) ..)

theorem execBootRecoveryImageWrite_keeps (verifies : Bool) (ver : BitVec 32) (s : State) (hk : Keeps W Q L s) (r' : State) (e : execBootRecoveryImageWrite verifies ver s = .next r') : Keeps W Q L r' := by
  rw [execBootRecoveryImageWrite.eq_def] at e
  injection e with e
  rw [← e]
  repeat' with_reducible (first | assumption | refine recoveryWrite_keeps (hk := ?_) ..)

theorem execModeRequestCold_keeps (p : Principal) (s : State) (hk : Keeps W Q L s) (r' : State) (e : execModeRequestCold p s = .next r') : Keeps W Q L r' := by
  rw [execModeRequestCold.eq_def] at e
  injection e with e
  rw [← e]
  repeat' with_reducible (first | assumption | refine modeCold_keeps (hk := ?_) ..)

theorem execModeRequestProvision_keeps (p : Principal) (s : State) (hk : Keeps W Q L s) (r' : State) (e : execModeRequestProvision p s = .next r') : Keeps W Q L r' := by
  rw [execModeRequestProvision.eq_def] at e
  injection e with e
  rw [← e]
  repeat' with_reducible (first | assumption | refine modeProvision_keeps (hk := ?_) ..)

theorem execModeRequestRun_keeps (p : Principal) (s : State) (hk : Keeps W Q L s) (r' : State) (e : execModeRequestRun p s = .next r') : Keeps W Q L r' := by
  rw [execModeRequestRun.eq_def] at e
  injection e with e
  rw [← e]
  repeat' with_reducible (first | assumption | refine modeRun_keeps (hk := ?_) .. | refine takeRequest_keeps (hk := ?_) ..)

theorem execModeRequestService_keeps (p : Principal) (s : State) (hk : Keeps W Q L s) (r' : State) (e : execModeRequestService p s = .next r') : Keeps W Q L r' := by
  rw [execModeRequestService.eq_def] at e
  injection e with e
  rw [← e]
  repeat' with_reducible (first | assumption | refine modeService_keeps (hk := ?_) ..)

theorem execModeRequestQuiesce_keeps (p : Principal) (s : State) (hk : Keeps W Q L s) (r' : State) (e : execModeRequestQuiesce p s = .next r') : Keeps W Q L r' := by
  rw [execModeRequestQuiesce.eq_def] at e
  injection e with e
  rw [← e]
  repeat' with_reducible (first | assumption | refine modeQuiesce_keeps (hk := ?_) .. | refine takeRequest_keeps (hk := ?_) ..)

theorem execRailSequenceTimeout_keeps (s : State) (hk : Keeps W Q L s) (r' : State) (e : execRailSequenceTimeout s = .next r') : Keeps W Q L r' := by
  rw [execRailSequenceTimeout.eq_def] at e
  injection e with e
  rw [← e]
  repeat' with_reducible (first | assumption | exact Keeps.of (by assumption) | refine ite_keeps ?_ ?_ | refine State_setEntry_keeps (hk := ?_) .. | refine cancelRequest_keeps (hk := ?_) ..)

theorem execMainPgRise_keeps (onB : List Island) (keysOk : Bool) (s : State) (hk : Keeps W Q L s) (r' : State) (e : execMainPgRise onB keysOk s = .next r') : Keeps W Q L r' := by
  rw [execMainPgRise.eq_def] at e
  injection e with e
  rw [← e]
  repeat' with_reducible (first | exact Keeps.of (by assumption) | refine ite_keeps ?_ ?_ | refine raiseC4_keeps (hk := ?_) .. | refine enterProvision_keeps (hk := ?_) .. | refine fenceMain_keeps (hk := ?_) .. | refine chooseRefs_keeps (hk := ?_) .. | refine reloadKeys_keeps (hk := ?_) ..)

theorem execMainPowerGoodLost_keeps (s : State) (hk : Keeps W Q L s) (r' : State) (e : execMainPowerGoodLost s = .next r') : Keeps W Q L r' := by
  rw [execMainPowerGoodLost.eq_def] at e
  injection e with e
  rw [← e]
  repeat' with_reducible (first | exact Keeps.of (by assumption) | refine powerFails_keeps (hk := ?_) ..)

theorem execPfwNLow_keeps (s : State) (hk : Keeps W Q L s) (r' : State) (e : execPfwNLow s = .next r') : Keeps W Q L r' := by
  rw [execPfwNLow.eq_def] at e
  injection e with e
  rw [← e]
  repeat' with_reducible exact Keeps.of (by assumption)

theorem execPfwNHigh_keeps (s : State) (hk : Keeps W Q L s) (r' : State) (e : execPfwNHigh s = .next r') : Keeps W Q L r' := by
  rw [execPfwNHigh.eq_def] at e
  injection e with e
  rw [← e]
  repeat' with_reducible (first | exact Keeps.of (by assumption) | refine ite_keeps ?_ ?_ | refine latch_keeps (hk := ?_) ..)

theorem execPfwNCountAsserted_keeps (s : State) (hk : Keeps W Q L s) (r' : State) (e : execPfwNCountAsserted s = .next r') : Keeps W Q L r' := by
  rw [execPfwNCountAsserted.eq_def] at e
  injection e with e
  rw [← e]
  repeat' with_reducible (first | assumption | exact Keeps.of (by assumption) | refine ite_keeps ?_ ?_ | refine powerFails_keeps (hk := ?_) ..)

theorem execDrainSnapshot_keeps (s : State) (hk : Keeps W Q L s) (r' : State) (e : execDrainSnapshot s = .next r') : Keeps W Q L r' := by
  rw [execDrainSnapshot.eq_def] at e
  injection e with e
  rw [← e]
  repeat' (first | with_reducible (first | assumption | refine ite_keeps ?_ ?_ | refine State_updMc_keeps (hk := ?_) .. | refine drainWbuf_keeps (hk := ?_) .. | refine drainStart_keeps (hk := ?_) .. | refine foldl_keeps _ ?_ _ _ ?_) | (intro _ _ _ e _; subst e; (try simp only [])))

theorem execDrainFinished_keeps (s : State) (hk : Keeps W Q L s) (r' : State) (e : execDrainFinished s = .next r') : Keeps W Q L r' := by
  rw [execDrainFinished.eq_def] at e
  injection e with e
  rw [← e]
  repeat' with_reducible (first | assumption | refine ite_keeps ?_ ?_ | refine drainFinish_keeps (hk := ?_) .. | refine enterCold_keeps (hk := ?_) ..)

theorem execBusBelowDrainThreshold_keeps (s : State) (hk : Keeps W Q L s) (r' : State) (e : execBusBelowDrainThreshold s = .next r') : Keeps W Q L r' := by
  rw [execBusBelowDrainThreshold.eq_def] at e
  injection e with e
  rw [← e]
  repeat' (first | with_reducible (first | assumption | refine writeIndex_keeps (hk := ?_) ..) | split)

theorem execHoldupRepowerHoldExpiry_keeps (s : State) (hk : Keeps W Q L s) (r' : State) (e : execHoldupRepowerHoldExpiry s = .next r') : Keeps W Q L r' := by
  rw [execHoldupRepowerHoldExpiry.eq_def] at e
  injection e with e
  rw [← e]
  repeat' with_reducible (first | assumption | exact Keeps.of (by assumption) | refine ite_keeps ?_ ?_ | refine leaveCold_keeps (hk := ?_) ..)

theorem execProvisioningComplete_keeps (p : Prov) (s : State) (hk : Keeps W Q L s) (r' : State) (e : execProvisioningComplete p s = .next r') : Keeps W Q L r' := by
  rw [execProvisioningComplete.eq_def] at e
  injection e with e
  rw [← e]
  repeat' with_reducible (first | assumption | refine ite_keeps ?_ ?_ | refine leaveProvision_keeps (hk := ?_) .. | refine takeRequest_keeps (hk := ?_) .. | refine provision_keeps (hk := ?_) ..)

theorem execM1TimeLimit_keeps (unfinished : List Fn) (p : Option Prov) (s : State) (hk : Keeps W Q L s) (r' : State) (e : execM1TimeLimit unfinished p s = .next r') : Keeps W Q L r' := by
  rw [execM1TimeLimit.eq_def] at e
  injection e with e
  rw [← e]
  repeat' (first | with_reducible (first | assumption | refine ite_keeps ?_ ?_ | refine leaveProvision_keeps (hk := ?_) .. | refine takeRequest_keeps (hk := ?_) .. | refine failInM1_keeps (hk := ?_) .. | refine provision_keeps (hk := ?_) .. | refine foldl_keeps _ ?_ _ _ ?_) | (intro _ _ _ e _; subst e; (try simp only [])))

theorem execDramInitComplete_keeps (s : State) (hk : Keeps W Q L s) (r' : State) (e : execDramInitComplete s = .next r') : Keeps W Q L r' := by
  rw [execDramInitComplete.eq_def] at e
  injection e with e
  rw [← e]
  repeat' with_reducible (first | assumption | exact Keeps.of (by assumption) | refine ite_keeps ?_ ?_ | refine leaveProvision_keeps (hk := ?_) .. | refine leaveRestore_keeps (hk := ?_) ..)

theorem execRestoreComplete_keeps (badBlocks badIndexes : List Nat) (s : State) (hk : Keeps W Q L s) (r' : State) (e : execRestoreComplete badBlocks badIndexes s = .next r') : Keeps W Q L r' := by
  rw [execRestoreComplete.eq_def] at e
  injection e with e
  rw [← e]
  repeat' with_reducible (first | assumption | refine ite_keeps ?_ ?_ | refine restore_keeps (hk := ?_) .. | refine enableCommit_keeps (hk := ?_) .. | refine leaveRestore_keeps (hk := ?_) ..)

theorem execServiceSessionTimeout_keeps (s : State) (hk : Keeps W Q L s) (r' : State) (e : execServiceSessionTimeout s = .next r') : Keeps W Q L r' := by
  rw [execServiceSessionTimeout.eq_def] at e
  injection e with e
  rw [← e]
  repeat' with_reducible (first | assumption | refine ite_keeps ?_ ?_ | refine leaveService_keeps (hk := ?_) .. | refine takeRequest_keeps (hk := ?_) ..)

theorem execCheckstopLineAsserted_keeps (b : Blk) (src : Fin 32) (inst : BitVec 8) (info : BitVec 32) (s : State) (hk : Keeps W Q L s) (r' : State) (e : execCheckstopLineAsserted b src inst info s = .next r') : Keeps W Q L r' := by
  rw [execCheckstopLineAsserted.eq_def] at e
  injection e with e
  rw [← e]
  repeat' with_reducible (first | assumption | refine ite_keeps ?_ ?_ | refine raiseC4_keeps (hk := ?_) ..)

theorem execSalvageDrainComplete_keeps (s : State) (hk : Keeps W Q L s) (r' : State) (e : execSalvageDrainComplete s = .next r') : Keeps W Q L r' := by
  rw [execSalvageDrainComplete.eq_def] at e
  injection e with e
  rw [← e]
  repeat' with_reducible (first | assumption | refine ite_keeps ?_ ?_ | refine drainStart_keeps (hk := ?_) .. | refine drainFinish_keeps (hk := ?_) .. | refine railsOff_keeps (hk := ?_) .. | refine writeChkRecord_keeps (hk := ?_) .. | refine takeRequest_keeps (hk := ?_) .. | refine fenceAll_keeps (hk := ?_) ..)

theorem execOrderlyDrainComplete_keeps (s : State) (hk : Keeps W Q L s) (r' : State) (e : execOrderlyDrainComplete s = .next r') : Keeps W Q L r' := by
  rw [execOrderlyDrainComplete.eq_def] at e
  injection e with e
  rw [← e]
  repeat' with_reducible (first | assumption | refine ite_keeps ?_ ?_ | refine drainFinish_keeps (hk := ?_) .. | refine enterCold_keeps (hk := ?_) ..)

theorem execRefclkLoss_keeps (b : Bool) (s : State) (hk : Keeps W Q L s) (r' : State) (e : execRefclkLoss b s = .next r') : Keeps W Q L r' := by
  rw [execRefclkLoss.eq_def] at e
  injection e with e
  rw [← e]
  repeat' with_reducible (first | exact Keeps.of (by assumption) | refine ite_keeps ?_ ?_ | refine latch_keeps (hk := ?_) .. | refine raiseC4_keeps (hk := ?_) .. | refine checkDegraded_keeps (hk := ?_) .. | refine fenceMain_keeps (hk := ?_) .. | refine switchRefs_keeps (hk := ?_) ..)

theorem execRefclkReturn_keeps (b : Bool) (s : State) (hk : Keeps W Q L s) (r' : State) (e : execRefclkReturn b s = .next r') : Keeps W Q L r' := by
  rw [execRefclkReturn.eq_def] at e
  injection e with e
  rw [← e]
  repeat' with_reducible (first | exact Keeps.of (by assumption) | refine checkDegraded_keeps (hk := ?_) ..)

theorem execCmdFrame_keeps (link : Fin 512) (f : Frame) (s : State) (hk : Keeps W Q L s) (r' : State) (e : execCmdFrame link f s = .next r') : Keeps W Q L r' := by
  rw [execCmdFrame.eq_def] at e
  injection e with e
  rw [← e]
  repeat' (first | with_reducible (first | assumption | refine engRun_keeps (hk := ?_) (hf := ?_) .. | refine receive_keeps (hk := ?_) ..) | intro _)

theorem execDataFrame_keeps (link : Fin 512) (f : Frame) (s : State) (hk : Keeps W Q L s) (r' : State) (e : execDataFrame link f s = .next r') : Keeps W Q L r' := by
  rw [execDataFrame.eq_def] at e
  injection e with e
  rw [← e]
  repeat' (first | with_reducible (first | assumption | refine engRun_keeps (hk := ?_) (hf := ?_) .. | refine receive_keeps (hk := ?_) ..) | intro _)

theorem execStatusFrame_keeps (link : Fin 512) (f : Frame) (s : State) (hk : Keeps W Q L s) (r' : State) (e : execStatusFrame link f s = .next r') : Keeps W Q L r' := by
  rw [execStatusFrame.eq_def] at e
  injection e with e
  rw [← e]
  repeat' (first | with_reducible (first | assumption | refine engRun_keeps (hk := ?_) (hf := ?_) .. | refine receive_keeps (hk := ?_) ..) | intro _)

theorem execAcceptFrame_keeps (link : Fin 512) (f : Frame) (s : State) (hk : Keeps W Q L s) (r' : State) (e : execAcceptFrame link f s = .next r') : Keeps W Q L r' := by
  rw [execAcceptFrame.eq_def] at e
  injection e with e
  rw [← e]
  repeat' (first | with_reducible (first | assumption | refine engRun_keeps (hk := ?_) (hf := ?_) .. | refine receive_keeps (hk := ?_) ..) | intro _)

theorem execRedriveFrame_keeps (link : Fin 512) (f : Frame) (s : State) (hk : Keeps W Q L s) (r' : State) (e : execRedriveFrame link f s = .next r') : Keeps W Q L r' := by
  rw [execRedriveFrame.eq_def] at e
  injection e with e
  rw [← e]
  repeat' (first | with_reducible (first | assumption | refine engRun_keeps (hk := ?_) (hf := ?_) .. | refine receive_keeps (hk := ?_) ..) | intro _)

theorem execIdleFrame_keeps (link : Fin 512) (f : Frame) (s : State) (hk : Keeps W Q L s) (r' : State) (e : execIdleFrame link f s = .next r') : Keeps W Q L r' := by
  rw [execIdleFrame.eq_def] at e
  injection e with e
  rw [← e]
  repeat' (first | with_reducible (first | assumption | refine engRun_keeps (hk := ?_) (hf := ?_) .. | refine receive_keeps (hk := ?_) ..) | intro _)

theorem execFrameForward_keeps (link : Fin 512) (f : Frame) (s : State) (hk : Keeps W Q L s) (r' : State) (e : execFrameForward link f s = .next r') : Keeps W Q L r' := by
  rw [execFrameForward.eq_def] at e
  injection e with e
  rw [← e]
  repeat' (first | with_reducible (first | assumption | refine engRun_keeps (hk := ?_) (hf := ?_) .. | refine forward_keeps (hk := ?_) ..) | split | intro _)

theorem execCeCommitWriteAck_keeps (entry : Nat) (s : State) (hk : Keeps W Q L s) (r' : State) (e : execCeCommitWriteAck entry s = .next r') : Keeps W Q L r' := by
  rw [execCeCommitWriteAck.eq_def] at e
  injection e with e
  rw [← e]
  repeat' (first | with_reducible (first | assumption | refine ite_keeps ?_ ?_ | refine itep_keeps ?_ ?_ | refine acceptWait_keeps (hk := ?_) .. | refine State_updVol_keeps (hk := ?_) .. | refine readEntry_keeps (hk := ?_) .. | refine pair_keeps (by assumption) (endpoint_keeps (hk := ?_) ..) | refine pair_keeps (by assumption) (nodeEp_keeps (hk := ?_) ..) | refine engRun_keeps (hk := ?_) (hf := ?_) .. | refine sendAnswer_keeps (hk := ?_) .. | refine writeCmd_keeps (hk := ?_) ..) | split | intro _)

theorem execXstartCmd_keeps (le : Fin 32) (s : State) (hk : Keeps W Q L s) (r' : State) (e : execXstartCmd le s = .next r') : Keeps W Q L r' := by
  rw [execXstartCmd.eq_def] at e
  injection e with e
  rw [← e]
  repeat' (first | with_reducible (first | assumption | refine engRun_keeps (hk := ?_) (hf := ?_) .. | refine serveXq_keeps (hk := ?_) ..) | intro _)

theorem execXstartResp_keeps (le : Fin 32) (s : State) (hk : Keeps W Q L s) (r' : State) (e : execXstartResp le s = .next r') : Keeps W Q L r' := by
  rw [execXstartResp.eq_def] at e
  injection e with e
  rw [← e]
  repeat' (first | with_reducible (first | assumption | refine engRun_keeps (hk := ?_) (hf := ?_) .. | refine serveXq_keeps (hk := ?_) ..) | intro _)

theorem execTAccExpiry_keeps (entry : Nat) (s : State) (hk : Keeps W Q L s) (r' : State) (e : execTAccExpiry entry s = .next r') : Keeps W Q L r' := by
  rw [execTAccExpiry.eq_def] at e
  injection e with e
  rw [← e]
  repeat' (first | with_reducible (first | assumption | refine ite_keeps ?_ ?_ | refine engRun_keeps (hk := ?_) (hf := ?_) .. | refine pump_keeps (hk := ?_) .. | refine nudge_keeps (hk := ?_) .. | refine applyOnce_keeps (hk := ?_) .. | refine pair_keeps (by assumption) (openEntry_keeps (hk := ?_) ..)) | split | intro _)

theorem execTStatExpiry_keeps (entry : Nat) (s : State) (hk : Keeps W Q L s) (r' : State) (e : execTStatExpiry entry s = .next r') : Keeps W Q L r' := by
  rw [execTStatExpiry.eq_def] at e
  injection e with e
  rw [← e]
  repeat' (first | with_reducible (first | assumption | refine engRun_keeps (hk := ?_) (hf := ?_) .. | refine endOut_keeps (hk := ?_) .. | refine pair_keeps (by assumption) (openEntry_keeps (hk := ?_) ..)) | split | intro _)

theorem execTLingerExpiry_keeps (entry : Nat) (s : State) (hk : Keeps W Q L s) (r' : State) (e : execTLingerExpiry entry s = .next r') : Keeps W Q L r' := by
  rw [execTLingerExpiry.eq_def] at e
  injection e with e
  rw [← e]
  repeat' (first | with_reducible (first | assumption | refine engRun_keeps (hk := ?_) (hf := ?_) .. | refine freeEntry_keeps (hk := ?_) .. | refine pair_keeps (by assumption) (openEntry_keeps (hk := ?_) ..)) | split | intro _)

theorem execTOrphanExpiry_keeps (entry : Nat) (s : State) (hk : Keeps W Q L s) (r' : State) (e : execTOrphanExpiry entry s = .next r') : Keeps W Q L r' := by
  rw [execTOrphanExpiry.eq_def] at e
  injection e with e
  rw [← e]
  repeat' (first | with_reducible (first | assumption | refine engRun_keeps (hk := ?_) (hf := ?_) .. | refine freeEntry_keeps (hk := ?_) .. | refine pair_keeps (by assumption) (openEntry_keeps (hk := ?_) ..)) | split | intro _)

theorem execTLiveExpiry_keeps (link : Fin 512) (s : State) (hk : Keeps W Q L s) (r' : State) (e : execTLiveExpiry link s = .next r') : Keeps W Q L r' := by
  rw [execTLiveExpiry.eq_def] at e
  injection e with e
  rw [← e]
  repeat' with_reducible (first | assumption | refine ite_keeps ?_ ?_ | refine State_updLink_keeps (hk := ?_) .. | refine pathDown_keeps (hk := ?_) ..)

theorem execIdleIntervalExpiry_keeps (link : Fin 512) (s : State) (hk : Keeps W Q L s) (r' : State) (e : execIdleIntervalExpiry link s = .next r') : Keeps W Q L r' := by
  rw [execIdleIntervalExpiry.eq_def] at e
  injection e with e
  rw [← e]
  repeat' with_reducible (first | assumption | refine ite_keeps ?_ ?_ | refine emit_keeps (hk := ?_) ..)

theorem execRingPoll_keeps (entry : Nat) (s : State) (hk : Keeps W Q L s) (r' : State) (e : execRingPoll entry s = .next r') : Keeps W Q L r' := by
  rw [execRingPoll.eq_def] at e
  injection e with e
  rw [← e]
  repeat' (first | with_reducible (first | assumption | refine ite_keeps ?_ ?_ | refine engRun_keeps (hk := ?_) (hf := ?_) .. | refine deliverEntry_keeps (hk := ?_) ..) | intro _)

theorem execCeZoneSlot_keeps (ce : Fin 36) (s : State) (hk : Keeps W Q L s) (r' : State) (e : execCeZoneSlot ce s = .next r') : Keeps W Q L r' := by
  rw [execCeZoneSlot.eq_def] at e
  injection e with e
  rw [← e]
  repeat' (first | with_reducible (first | assumption | refine ite_keeps ?_ ?_ | refine State_updCe_keeps (hk := ?_) .. | refine orWait_keeps (hk := ?_) (hf := ?_) .. | refine engRun_keeps (hk := ?_) (hf := ?_) .. | refine applyOnce_keeps (hk := ?_) .. | refine slotEntry_keeps (hk := ?_) .. | refine foldl_keeps _ ?_ _ _ ?_) | (intro _ _ _ e _; subst e; (try simp only [])) | intro _)

theorem execChannelQuiesce_keeps (z : Fin 16) (le : Fin 32) (s : State) (hk : Keeps W Q L s) (r' : State) (e : execChannelQuiesce z le s = .next r') : Keeps W Q L r' := by
  rw [execChannelQuiesce.eq_def] at e
  injection e with e
  rw [← e]
  repeat' (first | with_reducible (first | assumption | refine State_updZone_keeps (hk := ?_) .. | refine State_updLe_keeps (hk := ?_) .. | refine engRun_keeps (hk := ?_) (hf := ?_) .. | refine ioaReply_keeps (hk := ?_) .. | refine quiesceEntry_keeps (hk := ?_) .. | refine foldl_keeps _ ?_ _ _ ?_) | (intro _ _ _ e _; subst e; (try simp only [])) | split | intro _)

theorem execLinkTrainingComplete_keeps (link : Fin 512) (pre main post : BitVec 6) (s : State) (hk : Keeps W Q L s) (r' : State) (e : execLinkTrainingComplete link pre main post s = .next r') : Keeps W Q L r' := by
  rw [execLinkTrainingComplete.eq_def] at e
  injection e with e
  rw [← e]
  repeat' with_reducible (first | assumption | refine ite_keeps ?_ ?_ | refine State_updLink_keeps (hk := ?_) .. | refine latch_keeps (hk := ?_) .. | refine lcGo_keeps (hk := ?_) .. | refine after_keeps (hk := ?_) ..)

theorem execTrainingTimerExpiry_keeps (link : Fin 512) (s : State) (hk : Keeps W Q L s) (r' : State) (e : execTrainingTimerExpiry link s = .next r') : Keeps W Q L r' := by
  rw [execTrainingTimerExpiry.eq_def] at e
  injection e with e
  rw [← e]
  repeat' with_reducible (first | assumption | refine ite_keeps ?_ ?_ | refine State_updLink_keeps (hk := ?_) .. | refine linkTrainFail_keeps (hk := ?_) ..)

theorem execLinkLockLoss_keeps (link : Fin 512) (am : Bool) (s : State) (hk : Keeps W Q L s) (r' : State) (e : execLinkLockLoss link am s = .next r') : Keeps W Q L r' := by
  rw [execLinkLockLoss.eq_def] at e
  injection e with e
  rw [← e]
  repeat' with_reducible (first | assumption | refine linkLost_keeps (hk := ?_) ..)

theorem execHiBerTimeout_keeps (link : Fin 512) (s : State) (hk : Keeps W Q L s) (r' : State) (e : execHiBerTimeout link s = .next r') : Keeps W Q L r' := by
  rw [execHiBerTimeout.eq_def] at e
  injection e with e
  rw [← e]
  repeat' with_reducible (first | assumption | refine linkLost_keeps (hk := ?_) ..)

theorem execLinkLockRegained_keeps (link : Fin 512) (s : State) (hk : Keeps W Q L s) (r' : State) (e : execLinkLockRegained link s = .next r') : Keeps W Q L r' := by
  rw [execLinkLockRegained.eq_def] at e
  injection e with e
  rw [← e]
  repeat' with_reducible (first | assumption | refine ite_keeps ?_ ?_ | refine State_updLink_keeps (hk := ?_) ..)

theorem execSignalEnergyChange_keeps (link : Fin 512) (present : Bool) (s : State) (hk : Keeps W Q L s) (r' : State) (e : execSignalEnergyChange link present s = .next r') : Keeps W Q L r' := by
  rw [execSignalEnergyChange.eq_def] at e
  injection e with e
  rw [← e]
  repeat' with_reducible (first | assumption | refine State_updLink_keeps (hk := ?_) ..)

theorem execSignalDetectQualified_keeps (link : Fin 512) (s : State) (hk : Keeps W Q L s) (r' : State) (e : execSignalDetectQualified link s = .next r') : Keeps W Q L r' := by
  rw [execSignalDetectQualified.eq_def] at e
  injection e with e
  rw [← e]
  repeat' with_reducible (first | assumption | refine ite_keeps ?_ ?_ | refine lcCommand_keeps (hk := ?_) ..)

theorem execSdsclkLoss_keeps (g : Fin 8) (s : State) (hk : Keeps W Q L s) (r' : State) (e : execSdsclkLoss g s = .next r') : Keeps W Q L r' := by
  rw [execSdsclkLoss.eq_def] at e
  injection e with e
  rw [← e]
  repeat' (first | with_reducible (first | assumption | exact Keeps.of (by assumption) | refine ite_keeps ?_ ?_ | refine State_updIsland_keeps (hk := ?_) .. | refine closeGates_keeps (hk := ?_) .. | refine latch_keeps (hk := ?_) .. | refine linkLost_keeps (hk := ?_) .. | refine foldl_keeps _ ?_ _ _ ?_) | (intro _ _ _ e _; subst e; (try simp only [])))

theorem execSdsclkReturn_keeps (g : Fin 8) (s : State) (hk : Keeps W Q L s) (r' : State) (e : execSdsclkReturn g s = .next r') : Keeps W Q L r' := by
  rw [execSdsclkReturn.eq_def] at e
  injection e with e
  rw [← e]
  repeat' with_reducible (first | exact Keeps.of (by assumption) | refine State_updIsland_keeps (hk := ?_) ..)

theorem execLdB_keeps (h : Hdr) (o : MemD) (s : State) (hk : Keeps W Q L s) (r' : State) (e : execLdB h o s = .next r') : Keeps W Q L r' := by
  rw [execLdB.eq_def] at e
  injection e with e
  rw [← e]
  repeat' with_reducible (first | assumption | refine runLoad_keeps (hk := ?_) ..)

theorem execLdH_keeps (h : Hdr) (o : MemD) (s : State) (hk : Keeps W Q L s) (r' : State) (e : execLdH h o s = .next r') : Keeps W Q L r' := by
  rw [execLdH.eq_def] at e
  injection e with e
  rw [← e]
  repeat' with_reducible (first | assumption | refine runLoad_keeps (hk := ?_) ..)

theorem execLdW_keeps (h : Hdr) (o : MemD) (s : State) (hk : Keeps W Q L s) (r' : State) (e : execLdW h o s = .next r') : Keeps W Q L r' := by
  rw [execLdW.eq_def] at e
  injection e with e
  rw [← e]
  repeat' with_reducible (first | assumption | refine runLoad_keeps (hk := ?_) ..)

theorem execLdD_keeps (h : Hdr) (o : MemD) (s : State) (hk : Keeps W Q L s) (r' : State) (e : execLdD h o s = .next r') : Keeps W Q L r' := by
  rw [execLdD.eq_def] at e
  injection e with e
  rw [← e]
  repeat' with_reducible (first | assumption | refine runLoad_keeps (hk := ?_) ..)

theorem execLdsB_keeps (h : Hdr) (o : MemD) (s : State) (hk : Keeps W Q L s) (r' : State) (e : execLdsB h o s = .next r') : Keeps W Q L r' := by
  rw [execLdsB.eq_def] at e
  injection e with e
  rw [← e]
  repeat' with_reducible (first | assumption | refine runLoad_keeps (hk := ?_) ..)

theorem execLdsH_keeps (h : Hdr) (o : MemD) (s : State) (hk : Keeps W Q L s) (r' : State) (e : execLdsH h o s = .next r') : Keeps W Q L r' := by
  rw [execLdsH.eq_def] at e
  injection e with e
  rw [← e]
  repeat' with_reducible (first | assumption | refine runLoad_keeps (hk := ?_) ..)

theorem execLdsW_keeps (h : Hdr) (o : MemD) (s : State) (hk : Keeps W Q L s) (r' : State) (e : execLdsW h o s = .next r') : Keeps W Q L r' := by
  rw [execLdsW.eq_def] at e
  injection e with e
  rw [← e]
  repeat' with_reducible (first | assumption | refine runLoad_keeps (hk := ?_) ..)

theorem execStB_keeps (h : Hdr) (o : MemD) (s : State) (hk : Keeps W Q L s) (r' : State) (e : execStB h o s = .next r') : Keeps W Q L r' := by
  rw [execStB.eq_def] at e
  injection e with e
  rw [← e]
  repeat' with_reducible (first | assumption | refine runStore_keeps (hk := ?_) ..)

theorem execStH_keeps (h : Hdr) (o : MemD) (s : State) (hk : Keeps W Q L s) (r' : State) (e : execStH h o s = .next r') : Keeps W Q L r' := by
  rw [execStH.eq_def] at e
  injection e with e
  rw [← e]
  repeat' with_reducible (first | assumption | refine runStore_keeps (hk := ?_) ..)

theorem execStW_keeps (h : Hdr) (o : MemD) (s : State) (hk : Keeps W Q L s) (r' : State) (e : execStW h o s = .next r') : Keeps W Q L r' := by
  rw [execStW.eq_def] at e
  injection e with e
  rw [← e]
  repeat' with_reducible (first | assumption | refine runStore_keeps (hk := ?_) ..)

theorem execStD_keeps (h : Hdr) (o : MemD) (s : State) (hk : Keeps W Q L s) (r' : State) (e : execStD h o s = .next r') : Keeps W Q L r' := by
  rw [execStD.eq_def] at e
  injection e with e
  rw [← e]
  repeat' with_reducible (first | assumption | refine runStore_keeps (hk := ?_) ..)

theorem execLdx_keeps (h : Hdr) (o : MemX) (s : State) (hk : Keeps W Q L s) (r' : State) (e : execLdx h o s = .next r') : Keeps W Q L r' := by
  rw [execLdx.eq_def] at e
  injection e with e
  rw [← e]
  repeat' with_reducible (first | assumption | refine runLoad_keeps (hk := ?_) ..)

theorem execLdsx_keeps (h : Hdr) (o : MemX) (s : State) (hk : Keeps W Q L s) (r' : State) (e : execLdsx h o s = .next r') : Keeps W Q L r' := by
  rw [execLdsx.eq_def] at e
  injection e with e
  rw [← e]
  repeat' with_reducible (first | assumption | refine runLoad_keeps (hk := ?_) ..)

theorem execStx_keeps (h : Hdr) (o : MemX) (s : State) (hk : Keeps W Q L s) (r' : State) (e : execStx h o s = .next r') : Keeps W Q L r' := by
  rw [execStx.eq_def] at e
  injection e with e
  rw [← e]
  repeat' with_reducible (first | assumption | refine runStore_keeps (hk := ?_) ..)

theorem execLdfS_keeps (h : Hdr) (o : MemD) (s : State) (hk : Keeps W Q L s) (r' : State) (e : execLdfS h o s = .next r') : Keeps W Q L r' := by
  rw [execLdfS.eq_def] at e
  injection e with e
  rw [← e]
  repeat' with_reducible (first | assumption | refine runLoad_keeps (hk := ?_) ..)

theorem execLdfD_keeps (h : Hdr) (o : MemD) (s : State) (hk : Keeps W Q L s) (r' : State) (e : execLdfD h o s = .next r') : Keeps W Q L r' := by
  rw [execLdfD.eq_def] at e
  injection e with e
  rw [← e]
  repeat' with_reducible (first | assumption | refine runLoad_keeps (hk := ?_) ..)

theorem execLdfQ_keeps (h : Hdr) (o : MemD) (s : State) (hk : Keeps W Q L s) (r' : State) (e : execLdfQ h o s = .next r') : Keeps W Q L r' := by
  rw [execLdfQ.eq_def] at e
  injection e with e
  rw [← e]
  repeat' with_reducible (first | assumption | refine runLoad_keeps (hk := ?_) ..)

theorem execStfS_keeps (h : Hdr) (o : MemD) (s : State) (hk : Keeps W Q L s) (r' : State) (e : execStfS h o s = .next r') : Keeps W Q L r' := by
  rw [execStfS.eq_def] at e
  injection e with e
  rw [← e]
  repeat' with_reducible (first | assumption | refine runStore_keeps (hk := ?_) ..)

theorem execStfD_keeps (h : Hdr) (o : MemD) (s : State) (hk : Keeps W Q L s) (r' : State) (e : execStfD h o s = .next r') : Keeps W Q L r' := by
  rw [execStfD.eq_def] at e
  injection e with e
  rw [← e]
  repeat' with_reducible (first | assumption | refine runStore_keeps (hk := ?_) ..)

theorem execStfQ_keeps (h : Hdr) (o : MemD) (s : State) (hk : Keeps W Q L s) (r' : State) (e : execStfQ h o s = .next r') : Keeps W Q L r' := by
  rw [execStfQ.eq_def] at e
  injection e with e
  rw [← e]
  repeat' with_reducible (first | assumption | refine runStore_keeps (hk := ?_) ..)

theorem execLdfx_keeps (h : Hdr) (o : MemX) (s : State) (hk : Keeps W Q L s) (r' : State) (e : execLdfx h o s = .next r') : Keeps W Q L r' := by
  rw [execLdfx.eq_def] at e
  injection e with e
  rw [← e]
  repeat' with_reducible (first | assumption | refine runLoad_keeps (hk := ?_) ..)

theorem execStfx_keeps (h : Hdr) (o : MemX) (s : State) (hk : Keeps W Q L s) (r' : State) (e : execStfx h o s = .next r') : Keeps W Q L r' := by
  rw [execStfx.eq_def] at e
  injection e with e
  rw [← e]
  repeat' with_reducible (first | assumption | refine runStore_keeps (hk := ?_) ..)

theorem execCallm_keeps (h : Hdr) (b : BitVec 5) (mask : BitVec 16) (s : State) (hk : Keeps W Q L s) (r' : State) (e : execCallm h b mask s = .next r') : Keeps W Q L r' := by
  rw [execCallm.eq_def] at e
  injection e with e
  rw [← e]
  repeat' (first | with_reducible (first | assumption | refine runBranch_keeps (hk := ?_) (hbody := ?_) .. | refine callmBody_keeps (hk := ?_) ..) | intro _)

theorem execRetm_keeps (h : Hdr) (mask : BitVec 16) (s : State) (hk : Keeps W Q L s) (r' : State) (e : execRetm h mask s = .next r') : Keeps W Q L r' := by
  rw [execRetm.eq_def] at e
  injection e with e
  rw [← e]
  repeat' (first | with_reducible (first | assumption | refine runBranch_keeps (hk := ?_) (hbody := ?_) .. | refine retmBody_keeps (hk := ?_) ..) | intro _)

theorem execStoreBufferDrain_keeps (pu : Fin 84) (th : Bool) (i : Nat) (s : State) (hk : Keeps W Q L s) (r' : State) (e : execStoreBufferDrain pu th i s = .next r') : Keeps W Q L r' := by
  rw [execStoreBufferDrain.eq_def] at e
  injection e with e
  rw [← e]
  repeat' (first | with_reducible (first | assumption | refine ite_keeps ?_ ?_ | refine State_updThr_keeps (hk := ?_) .. | refine settled_keeps (hk := ?_) .. | refine after_keeps (hk := ?_) .. | refine drainLine_keeps (hk := ?_) .. | refine drainDevice_keeps (hk := ?_) ..) | split)

theorem execLresD_keeps (h : Hdr) (d a : BitVec 5) (s : State) (hk : Keeps W Q L s) (r' : State) (e : execLresD h d a s = .next r') : Keeps W Q L r' := by
  rw [execLresD.eq_def] at e
  injection e with e
  rw [← e]
  repeat' with_reducible (first | assumption | refine runLres_keeps (hk := ?_) ..)

theorem execScondD_keeps (h : Hdr) (d a b : BitVec 5) (s : State) (hk : Keeps W Q L s) (r' : State) (e : execScondD h d a b s = .next r') : Keeps W Q L r' := by
  rw [execScondD.eq_def] at e
  injection e with e
  rw [← e]
  repeat' with_reducible (first | assumption | refine runScond_keeps (hk := ?_) ..)

theorem execLresW_keeps (h : Hdr) (d a : BitVec 5) (s : State) (hk : Keeps W Q L s) (r' : State) (e : execLresW h d a s = .next r') : Keeps W Q L r' := by
  rw [execLresW.eq_def] at e
  injection e with e
  rw [← e]
  repeat' with_reducible (first | assumption | refine runLres_keeps (hk := ?_) ..)

theorem execScondW_keeps (h : Hdr) (d a b : BitVec 5) (s : State) (hk : Keeps W Q L s) (r' : State) (e : execScondW h d a b s = .next r') : Keeps W Q L r' := by
  rw [execScondW.eq_def] at e
  injection e with e
  rw [← e]
  repeat' with_reducible (first | assumption | refine runScond_keeps (hk := ?_) ..)

theorem execAmoSwp_keeps (h : Hdr) (d a b : BitVec 5) (s : State) (hk : Keeps W Q L s) (r' : State) (e : execAmoSwp h d a b s = .next r') : Keeps W Q L r' := by
  rw [execAmoSwp.eq_def] at e
  injection e with e
  rw [← e]
  repeat' with_reducible (first | assumption | refine runAmo8_keeps (hk := ?_) ..)

theorem execAmoAdd_keeps (h : Hdr) (d a b : BitVec 5) (s : State) (hk : Keeps W Q L s) (r' : State) (e : execAmoAdd h d a b s = .next r') : Keeps W Q L r' := by
  rw [execAmoAdd.eq_def] at e
  injection e with e
  rw [← e]
  repeat' with_reducible (first | assumption | refine runAmo8_keeps (hk := ?_) ..)

theorem execAmoAnd_keeps (h : Hdr) (d a b : BitVec 5) (s : State) (hk : Keeps W Q L s) (r' : State) (e : execAmoAnd h d a b s = .next r') : Keeps W Q L r' := by
  rw [execAmoAnd.eq_def] at e
  injection e with e
  rw [← e]
  repeat' with_reducible (first | assumption | refine runAmo8_keeps (hk := ?_) ..)

theorem execAmoOr_keeps (h : Hdr) (d a b : BitVec 5) (s : State) (hk : Keeps W Q L s) (r' : State) (e : execAmoOr h d a b s = .next r') : Keeps W Q L r' := by
  rw [execAmoOr.eq_def] at e
  injection e with e
  rw [← e]
  repeat' with_reducible (first | assumption | refine runAmo8_keeps (hk := ?_) ..)

theorem execAmoXor_keeps (h : Hdr) (d a b : BitVec 5) (s : State) (hk : Keeps W Q L s) (r' : State) (e : execAmoXor h d a b s = .next r') : Keeps W Q L r' := by
  rw [execAmoXor.eq_def] at e
  injection e with e
  rw [← e]
  repeat' with_reducible (first | assumption | refine runAmo8_keeps (hk := ?_) ..)

theorem execAmoMax_keeps (h : Hdr) (d a b : BitVec 5) (s : State) (hk : Keeps W Q L s) (r' : State) (e : execAmoMax h d a b s = .next r') : Keeps W Q L r' := by
  rw [execAmoMax.eq_def] at e
  injection e with e
  rw [← e]
  repeat' with_reducible (first | assumption | refine runAmo8_keeps (hk := ?_) ..)

theorem execAmoMin_keeps (h : Hdr) (d a b : BitVec 5) (s : State) (hk : Keeps W Q L s) (r' : State) (e : execAmoMin h d a b s = .next r') : Keeps W Q L r' := by
  rw [execAmoMin.eq_def] at e
  injection e with e
  rw [← e]
  repeat' with_reducible (first | assumption | refine runAmo8_keeps (hk := ?_) ..)

theorem execAmoMaxu_keeps (h : Hdr) (d a b : BitVec 5) (s : State) (hk : Keeps W Q L s) (r' : State) (e : execAmoMaxu h d a b s = .next r') : Keeps W Q L r' := by
  rw [execAmoMaxu.eq_def] at e
  injection e with e
  rw [← e]
  repeat' with_reducible (first | assumption | refine runAmo8_keeps (hk := ?_) ..)

theorem execAmoMinu_keeps (h : Hdr) (d a b : BitVec 5) (s : State) (hk : Keeps W Q L s) (r' : State) (e : execAmoMinu h d a b s = .next r') : Keeps W Q L r' := by
  rw [execAmoMinu.eq_def] at e
  injection e with e
  rw [← e]
  repeat' with_reducible (first | assumption | refine runAmo8_keeps (hk := ?_) ..)

theorem execCas_keeps (h : Hdr) (d a b : BitVec 5) (s : State) (hk : Keeps W Q L s) (r' : State) (e : execCas h d a b s = .next r') : Keeps W Q L r' := by
  rw [execCas.eq_def] at e
  injection e with e
  rw [← e]
  repeat' with_reducible (first | assumption | refine runAmo_keeps (hk := ?_) ..)

theorem execCas2_keeps (h : Hdr) (d a b : BitVec 5) (s : State) (hk : Keeps W Q L s) (r' : State) (e : execCas2 h d a b s = .next r') : Keeps W Q L r' := by
  rw [execCas2.eq_def] at e
  injection e with e
  rw [← e]
  repeat' with_reducible (first | assumption | refine runAmo_keeps (hk := ?_) ..)

theorem execFenceLL_keeps (h : Hdr) (s : State) (hk : Keeps W Q L s) (r' : State) (e : execFenceLL h s = .next r') : Keeps W Q L r' := by
  rw [execFenceLL.eq_def] at e
  injection e with e
  rw [← e]
  repeat' with_reducible (first | assumption | refine runFence_keeps (hk := ?_) ..)

theorem execFenceLS_keeps (h : Hdr) (s : State) (hk : Keeps W Q L s) (r' : State) (e : execFenceLS h s = .next r') : Keeps W Q L r' := by
  rw [execFenceLS.eq_def] at e
  injection e with e
  rw [← e]
  repeat' with_reducible (first | assumption | refine runFence_keeps (hk := ?_) ..)

theorem execFenceSL_keeps (h : Hdr) (s : State) (hk : Keeps W Q L s) (r' : State) (e : execFenceSL h s = .next r') : Keeps W Q L r' := by
  rw [execFenceSL.eq_def] at e
  injection e with e
  rw [← e]
  repeat' with_reducible (first | assumption | refine runFence_keeps (hk := ?_) ..)

theorem execFenceSS_keeps (h : Hdr) (s : State) (hk : Keeps W Q L s) (r' : State) (e : execFenceSS h s = .next r') : Keeps W Q L r' := by
  rw [execFenceSS.eq_def] at e
  injection e with e
  rw [← e]
  repeat' with_reducible (first | assumption | refine runFence_keeps (hk := ?_) ..)

theorem execFenceAll_keeps (h : Hdr) (s : State) (hk : Keeps W Q L s) (r' : State) (e : execFenceAll h s = .next r') : Keeps W Q L r' := by
  rw [execFenceAll.eq_def] at e
  injection e with e
  rw [← e]
  repeat' with_reducible (first | assumption | refine runFence_keeps (hk := ?_) ..)

theorem execSyncEp_keeps (h : Hdr) (s : State) (hk : Keeps W Q L s) (r' : State) (e : execSyncEp h s = .next r') : Keeps W Q L r' := by
  rw [execSyncEp.eq_def] at e
  injection e with e
  rw [← e]
  repeat' (first | with_reducible (first | assumption | refine State_updThr_keeps (hk := ?_) .. | refine runIns_keeps (hk := ?_) (hbody := ?_) ..) | split | intro _)

theorem execSyncEpComplete_keeps (pu : Fin 84) (th : Bool) (s : State) (hk : Keeps W Q L s) (r' : State) (e : execSyncEpComplete pu th s = .next r') : Keeps W Q L r' := by
  rw [execSyncEpComplete.eq_def] at e
  injection e with e
  rw [← e]
  repeat' (first | with_reducible (first | assumption | refine ite_keeps ?_ ?_ | refine State_updThr_keeps (hk := ?_) .. | refine State_setThr_keeps (hk := ?_) .. | refine drainWbuf_keeps (hk := ?_) .. | refine retire_keeps (hk := ?_) .. | refine advance_keeps (hk := ?_) .. | refine takeExc_keeps (hk := ?_) .. | refine pair_keeps (by assumption) (cleanAll_keeps (hk := ?_) ..)) | split)

theorem execTxopen_keeps (h : Hdr) (d : BitVec 5) (s : State) (hk : Keeps W Q L s) (r' : State) (e : execTxopen h d s = .next r') : Keeps W Q L r' := by
  rw [execTxopen.eq_def] at e
  injection e with e
  rw [← e]
  repeat' with_reducible (first | assumption | refine txOpen_keeps (hk := ?_) ..)

theorem execTxopenB_keeps (h : Hdr) (d : BitVec 5) (s : State) (hk : Keeps W Q L s) (r' : State) (e : execTxopenB h d s = .next r') : Keeps W Q L r' := by
  rw [execTxopenB.eq_def] at e
  injection e with e
  rw [← e]
  repeat' with_reducible (first | assumption | refine txOpen_keeps (hk := ?_) ..)

theorem execTxclose_keeps (h : Hdr) (d : BitVec 5) (s : State) (hk : Keeps W Q L s) (r' : State) (e : execTxclose h d s = .next r') : Keeps W Q L r' := by
  rw [execTxclose.eq_def] at e
  injection e with e
  rw [← e]
  repeat' (first | with_reducible (first | assumption | refine iter_keeps ?_ ?_ | refine State_setThr_keeps (hk := ?_) .. | refine runIns_keeps (hk := ?_) (hbody := ?_) .. | refine txCommit_keeps (hk := ?_) ..) | split | intro _ | simp only [])

theorem execTxdrop_keeps (h : Hdr) (a : BitVec 5) (s : State) (hk : Keeps W Q L s) (r' : State) (e : execTxdrop h a s = .next r') : Keeps W Q L r' := by
  rw [execTxdrop.eq_def] at e
  injection e with e
  rw [← e]
  repeat' (first | with_reducible (first | assumption | refine iter_keeps ?_ ?_ | refine abortOwn_keeps (hk := ?_) .. | refine runIns_keeps (hk := ?_) (hbody := ?_) ..) | intro _)

theorem execFaddD_keeps (h : Hdr) (d a b : BitVec 5) (s : State) (hk : Keeps W Q L s) (r' : State) (e : execFaddD h d a b s = .next r') : Keeps W Q L r' := by
  rw [execFaddD.eq_def] at e
  injection e with e
  rw [← e]
  repeat' with_reducible (first | assumption | refine runD_keeps (hk := ?_) ..)

theorem execFsubD_keeps (h : Hdr) (d a b : BitVec 5) (s : State) (hk : Keeps W Q L s) (r' : State) (e : execFsubD h d a b s = .next r') : Keeps W Q L r' := by
  rw [execFsubD.eq_def] at e
  injection e with e
  rw [← e]
  repeat' with_reducible (first | assumption | refine runD_keeps (hk := ?_) ..)

theorem execFmulD_keeps (h : Hdr) (d a b : BitVec 5) (s : State) (hk : Keeps W Q L s) (r' : State) (e : execFmulD h d a b s = .next r') : Keeps W Q L r' := by
  rw [execFmulD.eq_def] at e
  injection e with e
  rw [← e]
  repeat' with_reducible (first | assumption | refine runD_keeps (hk := ?_) ..)

theorem execFdivD_keeps (h : Hdr) (d a b : BitVec 5) (s : State) (hk : Keeps W Q L s) (r' : State) (e : execFdivD h d a b s = .next r') : Keeps W Q L r' := by
  rw [execFdivD.eq_def] at e
  injection e with e
  rw [← e]
  repeat' with_reducible (first | assumption | refine runD_keeps (hk := ?_) ..)

theorem execFsqrtD_keeps (h : Hdr) (d a : BitVec 5) (s : State) (hk : Keeps W Q L s) (r' : State) (e : execFsqrtD h d a s = .next r') : Keeps W Q L r' := by
  rw [execFsqrtD.eq_def] at e
  injection e with e
  rw [← e]
  repeat' with_reducible (first | assumption | refine runD_keeps (hk := ?_) ..)

theorem execFcmpD_keeps (h : Hdr) (a b : BitVec 5) (s : State) (hk : Keeps W Q L s) (r' : State) (e : execFcmpD h a b s = .next r') : Keeps W Q L r' := by
  rw [execFcmpD.eq_def] at e
  injection e with e
  rw [← e]
  repeat' with_reducible (first | assumption | refine runTrap_keeps (hk := ?_) ..)

theorem execFminD_keeps (h : Hdr) (d a b : BitVec 5) (s : State) (hk : Keeps W Q L s) (r' : State) (e : execFminD h d a b s = .next r') : Keeps W Q L r' := by
  rw [execFminD.eq_def] at e
  injection e with e
  rw [← e]
  repeat' with_reducible (first | assumption | refine runD_keeps (hk := ?_) ..)

theorem execFmaxD_keeps (h : Hdr) (d a b : BitVec 5) (s : State) (hk : Keeps W Q L s) (r' : State) (e : execFmaxD h d a b s = .next r') : Keeps W Q L r' := by
  rw [execFmaxD.eq_def] at e
  injection e with e
  rw [← e]
  repeat' with_reducible (first | assumption | refine runD_keeps (hk := ?_) ..)

theorem execFaddS_keeps (h : Hdr) (d a b : BitVec 5) (s : State) (hk : Keeps W Q L s) (r' : State) (e : execFaddS h d a b s = .next r') : Keeps W Q L r' := by
  rw [execFaddS.eq_def] at e
  injection e with e
  rw [← e]
  repeat' with_reducible (first | assumption | refine runS_keeps (hk := ?_) ..)

theorem execFsubS_keeps (h : Hdr) (d a b : BitVec 5) (s : State) (hk : Keeps W Q L s) (r' : State) (e : execFsubS h d a b s = .next r') : Keeps W Q L r' := by
  rw [execFsubS.eq_def] at e
  injection e with e
  rw [← e]
  repeat' with_reducible (first | assumption | refine runS_keeps (hk := ?_) ..)

theorem execFmulS_keeps (h : Hdr) (d a b : BitVec 5) (s : State) (hk : Keeps W Q L s) (r' : State) (e : execFmulS h d a b s = .next r') : Keeps W Q L r' := by
  rw [execFmulS.eq_def] at e
  injection e with e
  rw [← e]
  repeat' with_reducible (first | assumption | refine runS_keeps (hk := ?_) ..)

theorem execFdivS_keeps (h : Hdr) (d a b : BitVec 5) (s : State) (hk : Keeps W Q L s) (r' : State) (e : execFdivS h d a b s = .next r') : Keeps W Q L r' := by
  rw [execFdivS.eq_def] at e
  injection e with e
  rw [← e]
  repeat' with_reducible (first | assumption | refine runS_keeps (hk := ?_) ..)

theorem execFsqrtS_keeps (h : Hdr) (d a : BitVec 5) (s : State) (hk : Keeps W Q L s) (r' : State) (e : execFsqrtS h d a s = .next r') : Keeps W Q L r' := by
  rw [execFsqrtS.eq_def] at e
  injection e with e
  rw [← e]
  repeat' with_reducible (first | assumption | refine runS_keeps (hk := ?_) ..)

theorem execFcmpS_keeps (h : Hdr) (a b : BitVec 5) (s : State) (hk : Keeps W Q L s) (r' : State) (e : execFcmpS h a b s = .next r') : Keeps W Q L r' := by
  rw [execFcmpS.eq_def] at e
  injection e with e
  rw [← e]
  repeat' with_reducible (first | assumption | refine runTrap_keeps (hk := ?_) ..)

theorem execFminS_keeps (h : Hdr) (d a b : BitVec 5) (s : State) (hk : Keeps W Q L s) (r' : State) (e : execFminS h d a b s = .next r') : Keeps W Q L r' := by
  rw [execFminS.eq_def] at e
  injection e with e
  rw [← e]
  repeat' with_reducible (first | assumption | refine runS_keeps (hk := ?_) ..)

theorem execFmaxS_keeps (h : Hdr) (d a b : BitVec 5) (s : State) (hk : Keeps W Q L s) (r' : State) (e : execFmaxS h d a b s = .next r') : Keeps W Q L r' := by
  rw [execFmaxS.eq_def] at e
  injection e with e
  rw [← e]
  repeat' with_reducible (first | assumption | refine runS_keeps (hk := ?_) ..)

theorem execFcvtSD_keeps (h : Hdr) (d a : BitVec 5) (s : State) (hk : Keeps W Q L s) (r' : State) (e : execFcvtSD h d a s = .next r') : Keeps W Q L r' := by
  rw [execFcvtSD.eq_def] at e
  injection e with e
  rw [← e]
  repeat' with_reducible (first | assumption | refine runTrap_keeps (hk := ?_) ..)

theorem execFcvtDS_keeps (h : Hdr) (d a : BitVec 5) (s : State) (hk : Keeps W Q L s) (r' : State) (e : execFcvtDS h d a s = .next r') : Keeps W Q L r' := by
  rw [execFcvtDS.eq_def] at e
  injection e with e
  rw [← e]
  repeat' with_reducible (first | assumption | refine runTrap_keeps (hk := ?_) ..)

theorem execFcvtGD_keeps (h : Hdr) (d a : BitVec 5) (s : State) (hk : Keeps W Q L s) (r' : State) (e : execFcvtGD h d a s = .next r') : Keeps W Q L r' := by
  rw [execFcvtGD.eq_def] at e
  injection e with e
  rw [← e]
  repeat' with_reducible (first | assumption | refine runTrap_keeps (hk := ?_) ..)

theorem execFcvtDG_keeps (h : Hdr) (d a : BitVec 5) (s : State) (hk : Keeps W Q L s) (r' : State) (e : execFcvtDG h d a s = .next r') : Keeps W Q L r' := by
  rw [execFcvtDG.eq_def] at e
  injection e with e
  rw [← e]
  repeat' with_reducible (first | assumption | refine runTrap_keeps (hk := ?_) ..)

theorem execFmov_keeps (h : Hdr) (d a : BitVec 5) (s : State) (hk : Keeps W Q L s) (r' : State) (e : execFmov h d a s = .next r') : Keeps W Q L r' := by
  rw [execFmov.eq_def] at e
  injection e with e
  rw [← e]
  repeat' with_reducible (first | assumption | refine runReg_keeps (hk := ?_) ..)

theorem execFneg_keeps (h : Hdr) (d a : BitVec 5) (s : State) (hk : Keeps W Q L s) (r' : State) (e : execFneg h d a s = .next r') : Keeps W Q L r' := by
  rw [execFneg.eq_def] at e
  injection e with e
  rw [← e]
  repeat' with_reducible (first | assumption | refine runReg_keeps (hk := ?_) ..)

theorem execFabs_keeps (h : Hdr) (d a : BitVec 5) (s : State) (hk : Keeps W Q L s) (r' : State) (e : execFabs h d a s = .next r') : Keeps W Q L r' := by
  rw [execFabs.eq_def] at e
  injection e with e
  rw [← e]
  repeat' with_reducible (first | assumption | refine runReg_keeps (hk := ?_) ..)

theorem execFmvGF_keeps (h : Hdr) (d a : BitVec 5) (s : State) (hk : Keeps W Q L s) (r' : State) (e : execFmvGF h d a s = .next r') : Keeps W Q L r' := by
  rw [execFmvGF.eq_def] at e
  injection e with e
  rw [← e]
  repeat' with_reducible (first | assumption | refine runReg_keeps (hk := ?_) ..)

theorem execFmvFG_keeps (h : Hdr) (d a : BitVec 5) (s : State) (hk : Keeps W Q L s) (r' : State) (e : execFmvFG h d a s = .next r') : Keeps W Q L r' := by
  rw [execFmvFG.eq_def] at e
  injection e with e
  rw [← e]
  repeat' with_reducible (first | assumption | refine runReg_keeps (hk := ?_) ..)

theorem execFmaddD_keeps (h : Hdr) (o : Q4) (s : State) (hk : Keeps W Q L s) (r' : State) (e : execFmaddD h o s = .next r') : Keeps W Q L r' := by
  rw [execFmaddD.eq_def] at e
  injection e with e
  rw [← e]
  repeat' with_reducible (first | assumption | refine runFma_keeps (hk := ?_) ..)

theorem execFmsubD_keeps (h : Hdr) (o : Q4) (s : State) (hk : Keeps W Q L s) (r' : State) (e : execFmsubD h o s = .next r') : Keeps W Q L r' := by
  rw [execFmsubD.eq_def] at e
  injection e with e
  rw [← e]
  repeat' with_reducible (first | assumption | refine runFma_keeps (hk := ?_) ..)

theorem execFnmaddD_keeps (h : Hdr) (o : Q4) (s : State) (hk : Keeps W Q L s) (r' : State) (e : execFnmaddD h o s = .next r') : Keeps W Q L r' := by
  rw [execFnmaddD.eq_def] at e
  injection e with e
  rw [← e]
  repeat' with_reducible (first | assumption | refine runFma_keeps (hk := ?_) ..)

theorem execFnmsubD_keeps (h : Hdr) (o : Q4) (s : State) (hk : Keeps W Q L s) (r' : State) (e : execFnmsubD h o s = .next r') : Keeps W Q L r' := by
  rw [execFnmsubD.eq_def] at e
  injection e with e
  rw [← e]
  repeat' with_reducible (first | assumption | refine runFma_keeps (hk := ?_) ..)

theorem execB_keeps (h : Hdr) (disp : BitVec 22) (s : State) (hk : Keeps W Q L s) (r' : State) (e : execB h disp s = .next r') : Keeps W Q L r' := by
  rw [execB.eq_def] at e
  injection e with e
  rw [← e]
  repeat' with_reducible (first | assumption | refine runRel_keeps (hk := ?_) ..)

theorem execBl_keeps (h : Hdr) (disp : BitVec 22) (s : State) (hk : Keeps W Q L s) (r' : State) (e : execBl h disp s = .next r') : Keeps W Q L r' := by
  rw [execBl.eq_def] at e
  injection e with e
  rw [← e]
  repeat' with_reducible (first | assumption | refine runRel_keeps (hk := ?_) ..)

theorem execBW_keeps (h : Hdr) (imm : BitVec 32) (s : State) (hk : Keeps W Q L s) (r' : State) (e : execBW h imm s = .next r') : Keeps W Q L r' := by
  rw [execBW.eq_def] at e
  injection e with e
  rw [← e]
  repeat' with_reducible (first | assumption | refine runRel_keeps (hk := ?_) ..)

theorem execBlW_keeps (h : Hdr) (imm : BitVec 32) (s : State) (hk : Keeps W Q L s) (r' : State) (e : execBlW h imm s = .next r') : Keeps W Q L r' := by
  rw [execBlW.eq_def] at e
  injection e with e
  rw [← e]
  repeat' with_reducible (first | assumption | refine runRel_keeps (hk := ?_) ..)

theorem execBr_keeps (h : Hdr) (b : BitVec 5) (s : State) (hk : Keeps W Q L s) (r' : State) (e : execBr h b s = .next r') : Keeps W Q L r' := by
  rw [execBr.eq_def] at e
  injection e with e
  rw [← e]
  repeat' with_reducible (first | assumption | refine runToReg_keeps (hk := ?_) ..)

theorem execBlr_keeps (h : Hdr) (b : BitVec 5) (s : State) (hk : Keeps W Q L s) (r' : State) (e : execBlr h b s = .next r') : Keeps W Q L r' := by
  rw [execBlr.eq_def] at e
  injection e with e
  rw [← e]
  repeat' with_reducible (first | assumption | refine runToReg_keeps (hk := ?_) ..)

theorem execRet_keeps (h : Hdr) (s : State) (hk : Keeps W Q L s) (r' : State) (e : execRet h s = .next r') : Keeps W Q L r' := by
  rw [execRet.eq_def] at e
  injection e with e
  rw [← e]
  repeat' with_reducible (first | assumption | refine runToReg_keeps (hk := ?_) ..)

theorem execMfs_keeps (h : Hdr) (g : BitVec 5) (sn : BitVec 12) (s : State) (hk : Keeps W Q L s) (r' : State) (e : execMfs h g sn s = .next r') : Keeps W Q L r' := by
  rw [execMfs.eq_def] at e
  injection e with e
  rw [← e]
  repeat' (first | with_reducible (first | assumption | refine runIns_keeps (hk := ?_) (hbody := ?_) .. | refine updArch_keeps (hk := ?_) ..) | intro _)

theorem execMts_keeps (h : Hdr) (g : BitVec 5) (sn : BitVec 12) (s : State) (hk : Keeps W Q L s) (r' : State) (e : execMts h g sn s = .next r') : Keeps W Q L r' := by
  rw [execMts.eq_def] at e
  injection e with e
  rw [← e]
  repeat' (first | with_reducible (first | assumption | refine State_updThr_keeps (hk := ?_) .. | refine runIns_keeps (hk := ?_) (hbody := ?_) ..) | split | intro _)

theorem execEret_keeps (h : Hdr) (s : State) (hk : Keeps W Q L s) (r' : State) (e : execEret h s = .next r') : Keeps W Q L r' := by
  rw [execEret.eq_def] at e
  injection e with e
  rw [← e]
  repeat' (first | with_reducible (first | assumption | refine iter_keeps ?_ ?_ | refine State_updThr_keeps (hk := ?_) .. | refine runIns_keeps (hk := ?_) (hbody := ?_) ..) | intro _)

theorem execSvc_keeps (h : Hdr) (a b : BitVec 5) (s : State) (hk : Keeps W Q L s) (r' : State) (e : execSvc h a b s = .next r') : Keeps W Q L r' := by
  rw [execSvc.eq_def] at e
  injection e with e
  rw [← e]
  repeat' (first | with_reducible (first | assumption | refine runIns_keeps (hk := ?_) (hbody := ?_) ..) | intro _)

theorem execBrk_keeps (h : Hdr) (s : State) (hk : Keeps W Q L s) (r' : State) (e : execBrk h s = .next r') : Keeps W Q L r' := by
  rw [execBrk.eq_def] at e
  injection e with e
  rw [← e]
  repeat' (first | with_reducible (first | assumption | refine runIns_keeps (hk := ?_) (hbody := ?_) ..) | intro _)

theorem execNop_keeps (h : Hdr) (s : State) (hk : Keeps W Q L s) (r' : State) (e : execNop h s = .next r') : Keeps W Q L r' := by
  rw [execNop.eq_def] at e
  injection e with e
  rw [← e]
  repeat' with_reducible (first | assumption | refine runReg_keeps (hk := ?_) ..)

theorem execWait_keeps (h : Hdr) (s : State) (hk : Keeps W Q L s) (r' : State) (e : execWait h s = .next r') : Keeps W Q L r' := by
  rw [execWait.eq_def] at e
  injection e with e
  rw [← e]
  repeat' (first | with_reducible (first | assumption | refine State_updThr_keeps (hk := ?_) .. | refine runIns_keeps (hk := ?_) (hbody := ?_) ..) | intro _)

theorem execWaitWake_keeps (pu : Fin 84) (th : Bool) (s : State) (hk : Keeps W Q L s) (r' : State) (e : execWaitWake pu th s = .next r') : Keeps W Q L r' := by
  rw [execWaitWake.eq_def] at e
  injection e with e
  rw [← e]
  repeat' (first | with_reducible (first | assumption | refine ite_keeps ?_ ?_ | refine State_updThr_keeps (hk := ?_) .. | refine enterDue_keeps (hk := ?_) ..) | split)

theorem execInterruptTaken_keeps (pu : Fin 84) (th : Bool) (s : State) (hk : Keeps W Q L s) (r' : State) (e : execInterruptTaken pu th s = .next r') : Keeps W Q L r' := by
  rw [execInterruptTaken.eq_def] at e
  injection e with e
  rw [← e]
  repeat' (first | with_reducible (first | assumption | refine ite_keeps ?_ ?_ | refine enterDue_keeps (hk := ?_) ..) | split)

theorem execReservedEncoding_keeps (pu : Fin 84) (th : Bool) (w1 w2 : BitVec 32) (s : State) (hk : Keeps W Q L s) (r' : State) (e : execReservedEncoding pu th w1 w2 s = .next r') : Keeps W Q L r' := by
  rw [execReservedEncoding.eq_def] at e
  injection e with e
  rw [← e]
  repeat' (first | with_reducible (first | assumption | refine runIns_keeps (hk := ?_) (hbody := ?_) ..) | split | intro _)

theorem execClnL_keeps (h : Hdr) (a : BitVec 5) (s : State) (hk : Keeps W Q L s) (r' : State) (e : execClnL h a s = .next r') : Keeps W Q L r' := by
  rw [execClnL.eq_def] at e
  injection e with e
  rw [← e]
  repeat' with_reducible (first | assumption | refine runMnt_keeps (hk := ?_) ..)

theorem execInvL_keeps (h : Hdr) (a : BitVec 5) (s : State) (hk : Keeps W Q L s) (r' : State) (e : execInvL h a s = .next r') : Keeps W Q L r' := by
  rw [execInvL.eq_def] at e
  injection e with e
  rw [← e]
  repeat' with_reducible (first | assumption | refine runMnt_keeps (hk := ?_) ..)

theorem execCliL_keeps (h : Hdr) (a : BitVec 5) (s : State) (hk : Keeps W Q L s) (r' : State) (e : execCliL h a s = .next r') : Keeps W Q L r' := by
  rw [execCliL.eq_def] at e
  injection e with e
  rw [← e]
  repeat' with_reducible (first | assumption | refine runMnt_keeps (hk := ?_) ..)

theorem execDzl_keeps (h : Hdr) (a : BitVec 5) (s : State) (hk : Keeps W Q L s) (r' : State) (e : execDzl h a s = .next r') : Keeps W Q L r' := by
  rw [execDzl.eq_def] at e
  injection e with e
  rw [← e]
  repeat' (first | with_reducible (first | assumption | refine iter_keeps ?_ ?_ | refine pair_keeps (by assumption) (obtainOwned_keeps (hk := ?_) ..) | refine ownAnswer_keeps (hk := ?_) .. | refine pair_keeps (by assumption) (answerExc_keeps (hk := ?_) ..) | refine runIns_keeps (hk := ?_) (hbody := ?_) .. | refine pair_keeps (by assumption) (transParts_keeps (hk := ?_) ..) | refine pair_keeps (by assumption) (commitReady_keeps (hk := ?_) ..) | refine zeroLine_keeps (hk := ?_) ..) | split | intro _ | simp only [])

theorem execCmrCln_keeps (h : Hdr) (a b : BitVec 5) (s : State) (hk : Keeps W Q L s) (r' : State) (e : execCmrCln h a b s = .next r') : Keeps W Q L r' := by
  rw [execCmrCln.eq_def] at e
  injection e with e
  rw [← e]
  repeat' with_reducible (first | assumption | refine runCmr_keeps (hk := ?_) ..)

theorem execCmrCli_keeps (h : Hdr) (a b : BitVec 5) (s : State) (hk : Keeps W Q L s) (r' : State) (e : execCmrCli h a b s = .next r') : Keeps W Q L r' := by
  rw [execCmrCli.eq_def] at e
  injection e with e
  rw [← e]
  repeat' with_reducible (first | assumption | refine runCmr_keeps (hk := ?_) ..)

theorem execCmrInv_keeps (h : Hdr) (a b : BitVec 5) (s : State) (hk : Keeps W Q L s) (r' : State) (e : execCmrInv h a b s = .next r') : Keeps W Q L r' := by
  rw [execCmrInv.eq_def] at e
  injection e with e
  rw [← e]
  repeat' with_reducible (first | assumption | refine runCmr_keeps (hk := ?_) ..)

theorem execLockwLock_keeps (h : Hdr) (d a b : BitVec 5) (s : State) (hk : Keeps W Q L s) (r' : State) (e : execLockwLock h d a b s = .next r') : Keeps W Q L r' := by
  rw [execLockwLock.eq_def] at e
  injection e with e
  rw [← e]
  repeat' with_reducible (first | assumption | refine runLockw_keeps (hk := ?_) ..)

theorem execLockwUnlock_keeps (h : Hdr) (d a b : BitVec 5) (s : State) (hk : Keeps W Q L s) (r' : State) (e : execLockwUnlock h d a b s = .next r') : Keeps W Q L r' := by
  rw [execLockwUnlock.eq_def] at e
  injection e with e
  rw [← e]
  repeat' with_reducible (first | assumption | refine runLockw_keeps (hk := ?_) ..)

theorem execLockwUnlockSet_keeps (h : Hdr) (d a b : BitVec 5) (s : State) (hk : Keeps W Q L s) (r' : State) (e : execLockwUnlockSet h d a b s = .next r') : Keeps W Q L r' := by
  rw [execLockwUnlockSet.eq_def] at e
  injection e with e
  rw [← e]
  repeat' with_reducible (first | assumption | refine runLockw_keeps (hk := ?_) ..)

theorem execTlbiAddr_keeps (h : Hdr) (loc : Bool) (a b : BitVec 5) (s : State) (hk : Keeps W Q L s) (r' : State) (e : execTlbiAddr h loc a b s = .next r') : Keeps W Q L r' := by
  rw [execTlbiAddr.eq_def] at e
  injection e with e
  rw [← e]
  repeat' with_reducible (first | assumption | refine runTlbi_keeps (hk := ?_) ..)

theorem execTlbiAddrAll_keeps (h : Hdr) (loc : Bool) (a b : BitVec 5) (s : State) (hk : Keeps W Q L s) (r' : State) (e : execTlbiAddrAll h loc a b s = .next r') : Keeps W Q L r' := by
  rw [execTlbiAddrAll.eq_def] at e
  injection e with e
  rw [← e]
  repeat' with_reducible (first | assumption | refine runTlbi_keeps (hk := ?_) ..)

theorem execTlbiCtx_keeps (h : Hdr) (loc : Bool) (a b : BitVec 5) (s : State) (hk : Keeps W Q L s) (r' : State) (e : execTlbiCtx h loc a b s = .next r') : Keeps W Q L r' := by
  rw [execTlbiCtx.eq_def] at e
  injection e with e
  rw [← e]
  repeat' with_reducible (first | assumption | refine runTlbi_keeps (hk := ?_) ..)

theorem execTlbiAll_keeps (h : Hdr) (loc : Bool) (a b : BitVec 5) (s : State) (hk : Keeps W Q L s) (r' : State) (e : execTlbiAll h loc a b s = .next r') : Keeps W Q L r' := by
  rw [execTlbiAll.eq_def] at e
  injection e with e
  rw [← e]
  repeat' with_reducible (first | assumption | refine runTlbi_keeps (hk := ?_) ..)

theorem execTlbiDelivery_keeps (pu : Fin 48) (s : State) (hk : Keeps W Q L s) (r' : State) (e : execTlbiDelivery pu s = .next r') : Keeps W Q L r' := by
  rw [execTlbiDelivery.eq_def] at e
  injection e with e
  rw [← e]
  repeat' (first | with_reducible (first | assumption | refine ite_keeps ?_ ?_ | refine tlbiFinish_keeps (hk := ?_) .. | refine Keeps.of (State_updPu_keeps (hk := ?_) ..)) | split)

theorem execTlbiTimeout_keeps (pu : Fin 48) (s : State) (hk : Keeps W Q L s) (r' : State) (e : execTlbiTimeout pu s = .next r') : Keeps W Q L r' := by
  rw [execTlbiTimeout.eq_def] at e
  injection e with e
  rw [← e]
  repeat' with_reducible (first | assumption | exact Keeps.of (by assumption) | refine ite_keeps ?_ ?_ | refine declareFailed_keeps (hk := ?_) .. | refine after_keeps (hk := ?_) .. | refine tlbiFinish_keeps (hk := ?_) ..)

end Sys2Proof.Machine
end

