-- ==== Sys2Proof/Laws/KeepsExecB.lean ====
section
/-! SUPPORT. Keeps of the meanings, the other families. -/

set_option Elab.async false

namespace Sys2Proof.Machine

variable {W : Prop} {Q : List Instr} {L : Limited → Prop}

theorem crypto_keeps (k : Fin 16) (op : Nat) (f : Nat → Desc → OpM OpOut) (s : State) (hf : ∀ z d, OpKeeps W Q L (f z d)) (hk : Keeps W Q L s) (t : State) (e : crypto k op f s = .next t) : Keeps W Q L t := by
  cases e; exact runJob_keeps _ _ _ _ _ hf hk

theorem execAesGcmEncrypt_keeps (slice : Fin 16) (s : State) (hk : Keeps W Q L s) (r' : State) (e : execAesGcmEncrypt slice s = .next r') : Keeps W Q L r' := by
  rw [execAesGcmEncrypt.eq_def] at e
  exact crypto_keeps _ _ _ _ (fun _ _ => by with_reducible (first | exact runGcm_keeps ..)) hk _ e

theorem execAesGcmDecrypt_keeps (slice : Fin 16) (s : State) (hk : Keeps W Q L s) (r' : State) (e : execAesGcmDecrypt slice s = .next r') : Keeps W Q L r' := by
  rw [execAesGcmDecrypt.eq_def] at e
  exact crypto_keeps _ _ _ _ (fun _ _ => by with_reducible (first | exact runGcm_keeps ..)) hk _ e

theorem execAesXtsEncrypt_keeps (slice : Fin 16) (s : State) (hk : Keeps W Q L s) (r' : State) (e : execAesXtsEncrypt slice s = .next r') : Keeps W Q L r' := by
  rw [execAesXtsEncrypt.eq_def] at e
  exact crypto_keeps _ _ _ _ (fun _ _ => by with_reducible (first | exact runXts_keeps ..)) hk _ e

theorem execAesXtsDecrypt_keeps (slice : Fin 16) (s : State) (hk : Keeps W Q L s) (r' : State) (e : execAesXtsDecrypt slice s = .next r') : Keeps W Q L r' := by
  rw [execAesXtsDecrypt.eq_def] at e
  exact crypto_keeps _ _ _ _ (fun _ _ => by with_reducible (first | exact runXts_keeps ..)) hk _ e

theorem execAesCmacGenerate_keeps (slice : Fin 16) (s : State) (hk : Keeps W Q L s) (r' : State) (e : execAesCmacGenerate slice s = .next r') : Keeps W Q L r' := by
  rw [execAesCmacGenerate.eq_def] at e
  exact crypto_keeps _ _ _ _ (fun _ _ => by with_reducible (first | exact runCmac_keeps ..)) hk _ e

theorem execAesCmacVerify_keeps (slice : Fin 16) (s : State) (hk : Keeps W Q L s) (r' : State) (e : execAesCmacVerify slice s = .next r') : Keeps W Q L r' := by
  rw [execAesCmacVerify.eq_def] at e
  exact crypto_keeps _ _ _ _ (fun _ _ => by with_reducible (first | exact runCmac_keeps ..)) hk _ e

theorem execSha256_keeps (slice : Fin 16) (s : State) (hk : Keeps W Q L s) (r' : State) (e : execSha256 slice s = .next r') : Keeps W Q L r' := by
  rw [execSha256.eq_def] at e
  exact crypto_keeps _ _ _ _ (fun _ _ => by with_reducible (first | exact runHash_keeps ..)) hk _ e

theorem execSha384_keeps (slice : Fin 16) (s : State) (hk : Keeps W Q L s) (r' : State) (e : execSha384 slice s = .next r') : Keeps W Q L r' := by
  rw [execSha384.eq_def] at e
  exact crypto_keeps _ _ _ _ (fun _ _ => by with_reducible (first | exact runHash_keeps ..)) hk _ e

theorem execSha512_keeps (slice : Fin 16) (s : State) (hk : Keeps W Q L s) (r' : State) (e : execSha512 slice s = .next r') : Keeps W Q L r' := by
  rw [execSha512.eq_def] at e
  exact crypto_keeps _ _ _ _ (fun _ _ => by with_reducible (first | exact runHash_keeps ..)) hk _ e

theorem execSha3256_keeps (slice : Fin 16) (s : State) (hk : Keeps W Q L s) (r' : State) (e : execSha3256 slice s = .next r') : Keeps W Q L r' := by
  rw [execSha3256.eq_def] at e
  exact crypto_keeps _ _ _ _ (fun _ _ => by with_reducible (first | exact runHash_keeps ..)) hk _ e

theorem execSha3384_keeps (slice : Fin 16) (s : State) (hk : Keeps W Q L s) (r' : State) (e : execSha3384 slice s = .next r') : Keeps W Q L r' := by
  rw [execSha3384.eq_def] at e
  exact crypto_keeps _ _ _ _ (fun _ _ => by with_reducible (first | exact runHash_keeps ..)) hk _ e

theorem execSha3512_keeps (slice : Fin 16) (s : State) (hk : Keeps W Q L s) (r' : State) (e : execSha3512 slice s = .next r') : Keeps W Q L r' := by
  rw [execSha3512.eq_def] at e
  exact crypto_keeps _ _ _ _ (fun _ _ => by with_reducible (first | exact runHash_keeps ..)) hk _ e

theorem execHmacGenerate_keeps (slice : Fin 16) (s : State) (hk : Keeps W Q L s) (r' : State) (e : execHmacGenerate slice s = .next r') : Keeps W Q L r' := by
  rw [execHmacGenerate.eq_def] at e
  exact crypto_keeps _ _ _ _ (fun _ _ => by with_reducible (first | exact runHmac_keeps ..)) hk _ e

theorem execHmacVerify_keeps (slice : Fin 16) (s : State) (hk : Keeps W Q L s) (r' : State) (e : execHmacVerify slice s = .next r') : Keeps W Q L r' := by
  rw [execHmacVerify.eq_def] at e
  exact crypto_keeps _ _ _ _ (fun _ _ => by with_reducible (first | exact runHmac_keeps ..)) hk _ e

theorem execEcdsaSign_keeps (slice : Fin 16) (s : State) (hk : Keeps W Q L s) (r' : State) (e : execEcdsaSign slice s = .next r') : Keeps W Q L r' := by
  rw [execEcdsaSign.eq_def] at e
  exact crypto_keeps _ _ _ _ (fun _ _ => by with_reducible (first | exact opEcdsaSign_keeps ..)) hk _ e

theorem execEcdsaVerify_keeps (slice : Fin 16) (s : State) (hk : Keeps W Q L s) (r' : State) (e : execEcdsaVerify slice s = .next r') : Keeps W Q L r' := by
  rw [execEcdsaVerify.eq_def] at e
  exact crypto_keeps _ _ _ _ (fun _ _ => by with_reducible (first | exact opEcdsaVerify_keeps ..)) hk _ e

theorem execMlDsaSign_keeps (slice : Fin 16) (s : State) (hk : Keeps W Q L s) (r' : State) (e : execMlDsaSign slice s = .next r') : Keeps W Q L r' := by
  rw [execMlDsaSign.eq_def] at e
  exact crypto_keeps _ _ _ _ (fun _ _ => by with_reducible (first | exact opMlDsaSign_keeps ..)) hk _ e

theorem execMlDsaVerify_keeps (slice : Fin 16) (s : State) (hk : Keeps W Q L s) (r' : State) (e : execMlDsaVerify slice s = .next r') : Keeps W Q L r' := by
  rw [execMlDsaVerify.eq_def] at e
  exact crypto_keeps _ _ _ _ (fun _ _ => by with_reducible (first | exact opMlDsaVerify_keeps ..)) hk _ e

theorem execMlKemKeyGeneration_keeps (slice : Fin 16) (s : State) (hk : Keeps W Q L s) (r' : State) (e : execMlKemKeyGeneration slice s = .next r') : Keeps W Q L r' := by
  rw [execMlKemKeyGeneration.eq_def] at e
  exact crypto_keeps _ _ _ _ (fun _ _ => by with_reducible (first | exact opMlKemKeyGeneration_keeps ..)) hk _ e

theorem execMlKemEncapsulate_keeps (slice : Fin 16) (s : State) (hk : Keeps W Q L s) (r' : State) (e : execMlKemEncapsulate slice s = .next r') : Keeps W Q L r' := by
  rw [execMlKemEncapsulate.eq_def] at e
  exact crypto_keeps _ _ _ _ (fun _ _ => by with_reducible (first | exact opMlKemEncapsulate_keeps ..)) hk _ e

theorem execMlKemDecapsulate_keeps (slice : Fin 16) (s : State) (hk : Keeps W Q L s) (r' : State) (e : execMlKemDecapsulate slice s = .next r') : Keeps W Q L r' := by
  rw [execMlKemDecapsulate.eq_def] at e
  exact crypto_keeps _ _ _ _ (fun _ _ => by with_reducible (first | exact opMlKemDecapsulate_keeps ..)) hk _ e

theorem execEcdsaKeyGeneration_keeps (slice : Fin 16) (s : State) (hk : Keeps W Q L s) (r' : State) (e : execEcdsaKeyGeneration slice s = .next r') : Keeps W Q L r' := by
  rw [execEcdsaKeyGeneration.eq_def] at e
  exact crypto_keeps _ _ _ _ (fun _ _ => by with_reducible (first | exact opEcdsaKeyGeneration_keeps ..)) hk _ e

theorem execMlDsaKeyGeneration_keeps (slice : Fin 16) (s : State) (hk : Keeps W Q L s) (r' : State) (e : execMlDsaKeyGeneration slice s = .next r') : Keeps W Q L r' := by
  rw [execMlDsaKeyGeneration.eq_def] at e
  exact crypto_keeps _ _ _ _ (fun _ _ => by with_reducible (first | exact opMlDsaKeyGeneration_keeps ..)) hk _ e

theorem execPinBlockTranslation_keeps (slice : Fin 16) (s : State) (hk : Keeps W Q L s) (r' : State) (e : execPinBlockTranslation slice s = .next r') : Keeps W Q L r' := by
  rw [execPinBlockTranslation.eq_def] at e
  exact crypto_keeps _ _ _ _ (fun _ _ => by with_reducible (first | exact opPinBlockTranslation_keeps ..)) hk _ e

theorem execGenerateKey_keeps (slice : Fin 16) (s : State) (hk : Keeps W Q L s) (r' : State) (e : execGenerateKey slice s = .next r') : Keeps W Q L r' := by
  rw [execGenerateKey.eq_def] at e
  exact crypto_keeps _ _ _ _ (fun _ _ => by with_reducible (first | exact opGenerateKey_keeps ..)) hk _ e

theorem execImportClearKey_keeps (slice : Fin 16) (s : State) (hk : Keeps W Q L s) (r' : State) (e : execImportClearKey slice s = .next r') : Keeps W Q L r' := by
  rw [execImportClearKey.eq_def] at e
  exact crypto_keeps _ _ _ _ (fun _ _ => by with_reducible (first | exact opImportClearKey_keeps ..)) hk _ e

theorem execReWrap_keeps (slice : Fin 16) (s : State) (hk : Keeps W Q L s) (r' : State) (e : execReWrap slice s = .next r') : Keeps W Q L r' := by
  rw [execReWrap.eq_def] at e
  exact crypto_keeps _ _ _ _ (fun _ _ => by with_reducible (first | exact opReWrap_keeps ..)) hk _ e

theorem execRandomBytes_keeps (slice : Fin 16) (s : State) (hk : Keeps W Q L s) (r' : State) (e : execRandomBytes slice s = .next r') : Keeps W Q L r' := by
  rw [execRandomBytes.eq_def] at e
  exact crypto_keeps _ _ _ _ (fun _ _ => by with_reducible (first | exact opRandomBytes_keeps ..)) hk _ e

theorem execCompress_keeps (slice : Fin 16) (s : State) (hk : Keeps W Q L s) (r' : State) (e : execCompress slice s = .next r') : Keeps W Q L r' := by
  rw [execCompress.eq_def] at e
  injection e with e
  rw [← e]
  repeat' (first | with_reducible (first | assumption | refine runJob_keeps (hk := ?_) (hf := ?_) .. | exact opCompress_keeps ..) | intro _)

theorem execDecompress_keeps (slice : Fin 16) (s : State) (hk : Keeps W Q L s) (r' : State) (e : execDecompress slice s = .next r') : Keeps W Q L r' := by
  rw [execDecompress.eq_def] at e
  injection e with e
  rw [← e]
  repeat' (first | with_reducible (first | assumption | refine runJob_keeps (hk := ?_) (hf := ?_) .. | exact opDecompress_keeps ..) | intro _)

theorem execChainFailureHold_keeps (slice : Fin 16) (s : State) (hk : Keeps W Q L s) (r' : State) (e : execChainFailureHold slice s = .next r') : Keeps W Q L r' := by
  rw [execChainFailureHold.eq_def] at e
  injection e with e
  rw [← e]
  repeat' (first | with_reducible (first | assumption | refine State_updSlice_keeps (hk := ?_) ..) | split)

theorem execEntropyHealthFail_keeps (s : State) (hk : Keeps W Q L s) (r' : State) (e : execEntropyHealthFail s = .next r') : Keeps W Q L r' := by
  rw [execEntropyHealthFail.eq_def] at e
  injection e with e
  rw [← e]
  repeat' with_reducible (first | assumption | exact Keeps.of (by assumption) | refine ite_keeps ?_ ?_ | refine latch_keeps (hk := ?_) ..)

theorem execEntropyRetest_keeps (pass : Bool) (s : State) (hk : Keeps W Q L s) (r' : State) (e : execEntropyRetest pass s = .next r') : Keeps W Q L r' := by
  rw [execEntropyRetest.eq_def] at e
  injection e with e
  rw [← e]
  repeat' with_reducible (first | assumption | exact Keeps.of (by assumption) | refine ite_keeps ?_ ?_ | refine reseedAll_keeps (hk := ?_) ..)

theorem execDrbgReseed_keeps (slice : Option (Fin 16)) (s : State) (hk : Keeps W Q L s) (r' : State) (e : execDrbgReseed slice s = .next r') : Keeps W Q L r' := by
  rw [execDrbgReseed.eq_def] at e
  injection e with e
  rw [← e]
  repeat' (first | with_reducible (first | assumption | exact Keeps.of (by assumption) | refine ite_keeps ?_ ?_ | refine State_updSlice_keeps (hk := ?_) ..) | split)

theorem execAccelQuiesce_keeps (z : Fin 16) (comp : Bool) (s : State) (hk : Keeps W Q L s) (r' : State) (e : execAccelQuiesce z comp s = .next r') : Keeps W Q L r' := by
  rw [execAccelQuiesce.eq_def] at e
  injection e with e
  rw [← e]
  repeat' (first | with_reducible (first | assumption | refine State_updZone_keeps (hk := ?_) .. | refine State_updSlice_keeps (hk := ?_) .. | refine orWait_keeps (hk := ?_) (hf := ?_) .. | refine stoppedBuffers_keeps (hk := ?_) .. | refine foldl_keeps _ ?_ _ _ ?_) | (intro _ _ _ e _; subst e; (try simp only [])) | split | intro _)

theorem execDadd_keeps (h : Hdr) (d a b : BitVec 5) (s : State) (hk : Keeps W Q L s) (r' : State) (e : execDadd h d a b s = .next r') : Keeps W Q L r' := by
  rw [execDadd.eq_def] at e
  injection e with e
  rw [← e]
  repeat' with_reducible (first | assumption | refine runDec_keeps (hk := ?_) ..)

theorem execDsub_keeps (h : Hdr) (d a b : BitVec 5) (s : State) (hk : Keeps W Q L s) (r' : State) (e : execDsub h d a b s = .next r') : Keeps W Q L r' := by
  rw [execDsub.eq_def] at e
  injection e with e
  rw [← e]
  repeat' with_reducible (first | assumption | refine runDec_keeps (hk := ?_) ..)

theorem execDmul_keeps (h : Hdr) (d a b : BitVec 5) (s : State) (hk : Keeps W Q L s) (r' : State) (e : execDmul h d a b s = .next r') : Keeps W Q L r' := by
  rw [execDmul.eq_def] at e
  injection e with e
  rw [← e]
  repeat' with_reducible (first | assumption | refine runDec_keeps (hk := ?_) ..)

theorem execDdiv_keeps (h : Hdr) (d a b : BitVec 5) (s : State) (hk : Keeps W Q L s) (r' : State) (e : execDdiv h d a b s = .next r') : Keeps W Q L r' := by
  rw [execDdiv.eq_def] at e
  injection e with e
  rw [← e]
  repeat' with_reducible (first | assumption | refine runDec_keeps (hk := ?_) ..)

theorem execDqua_keeps (h : Hdr) (d a b : BitVec 5) (s : State) (hk : Keeps W Q L s) (r' : State) (e : execDqua h d a b s = .next r') : Keeps W Q L r' := by
  rw [execDqua.eq_def] at e
  injection e with e
  rw [← e]
  repeat' with_reducible (first | assumption | refine runDec_keeps (hk := ?_) ..)

theorem execDcmp_keeps (h : Hdr) (a b : BitVec 5) (s : State) (hk : Keeps W Q L s) (r' : State) (e : execDcmp h a b s = .next r') : Keeps W Q L r' := by
  rw [execDcmp.eq_def] at e
  injection e with e
  rw [← e]
  repeat' with_reducible (first | assumption | refine runTrap_keeps (hk := ?_) ..)

theorem execD2s_keeps (h : Hdr) (d a b : BitVec 5) (s : State) (hk : Keeps W Q L s) (r' : State) (e : execD2s h d a b s = .next r') : Keeps W Q L r' := by
  rw [execD2s.eq_def] at e
  injection e with e
  rw [← e]
  repeat' with_reducible (first | assumption | refine runTrap_keeps (hk := ?_) ..)

theorem execS2d_keeps (h : Hdr) (d a b : BitVec 5) (s : State) (hk : Keeps W Q L s) (r' : State) (e : execS2d h d a b s = .next r') : Keeps W Q L r' := by
  rw [execS2d.eq_def] at e
  injection e with e
  rw [← e]
  repeat' with_reducible (first | assumption | refine runTrap_keeps (hk := ?_) ..)

theorem execDcvt12864_keeps (h : Hdr) (d a : BitVec 5) (s : State) (hk : Keeps W Q L s) (r' : State) (e : execDcvt12864 h d a s = .next r') : Keeps W Q L r' := by
  rw [execDcvt12864.eq_def] at e
  injection e with e
  rw [← e]
  repeat' with_reducible (first | assumption | refine runTrap_keeps (hk := ?_) ..)

theorem execDcvt64128_keeps (h : Hdr) (d a : BitVec 5) (s : State) (hk : Keeps W Q L s) (r' : State) (e : execDcvt64128 h d a s = .next r') : Keeps W Q L r' := by
  rw [execDcvt64128.eq_def] at e
  injection e with e
  rw [← e]
  repeat' with_reducible (first | assumption | refine runTrap_keeps (hk := ?_) ..)

theorem execDadd64_keeps (h : Hdr) (d a b : BitVec 5) (s : State) (hk : Keeps W Q L s) (r' : State) (e : execDadd64 h d a b s = .next r') : Keeps W Q L r' := by
  rw [execDadd64.eq_def] at e
  injection e with e
  rw [← e]
  repeat' with_reducible (first | assumption | refine runDec64_keeps (hk := ?_) ..)

theorem execDsub64_keeps (h : Hdr) (d a b : BitVec 5) (s : State) (hk : Keeps W Q L s) (r' : State) (e : execDsub64 h d a b s = .next r') : Keeps W Q L r' := by
  rw [execDsub64.eq_def] at e
  injection e with e
  rw [← e]
  repeat' with_reducible (first | assumption | refine runDec64_keeps (hk := ?_) ..)

theorem execDmul64_keeps (h : Hdr) (d a b : BitVec 5) (s : State) (hk : Keeps W Q L s) (r' : State) (e : execDmul64 h d a b s = .next r') : Keeps W Q L r' := by
  rw [execDmul64.eq_def] at e
  injection e with e
  rw [← e]
  repeat' with_reducible (first | assumption | refine runDec64_keeps (hk := ?_) ..)

theorem execDdiv64_keeps (h : Hdr) (d a b : BitVec 5) (s : State) (hk : Keeps W Q L s) (r' : State) (e : execDdiv64 h d a b s = .next r') : Keeps W Q L r' := by
  rw [execDdiv64.eq_def] at e
  injection e with e
  rw [← e]
  repeat' with_reducible (first | assumption | refine runDec64_keeps (hk := ?_) ..)

theorem execDqua64_keeps (h : Hdr) (d a b : BitVec 5) (s : State) (hk : Keeps W Q L s) (r' : State) (e : execDqua64 h d a b s = .next r') : Keeps W Q L r' := by
  rw [execDqua64.eq_def] at e
  injection e with e
  rw [← e]
  repeat' with_reducible (first | assumption | refine runDec64_keeps (hk := ?_) ..)

theorem execDcmp64_keeps (h : Hdr) (a b : BitVec 5) (s : State) (hk : Keeps W Q L s) (r' : State) (e : execDcmp64 h a b s = .next r') : Keeps W Q L r' := by
  rw [execDcmp64.eq_def] at e
  injection e with e
  rw [← e]
  repeat' with_reducible (first | assumption | refine runTrap_keeps (hk := ?_) ..)

theorem execAdd_keeps (h : Hdr) (o : T3) (s : State) (hk : Keeps W Q L s) (r' : State) (e : execAdd h o s = .next r') : Keeps W Q L r' := by
  rw [execAdd.eq_def] at e
  injection e with e
  rw [← e]
  repeat' with_reducible (first | assumption | refine runAlu3_keeps (hk := ?_) ..)

theorem execSub_keeps (h : Hdr) (o : T3) (s : State) (hk : Keeps W Q L s) (r' : State) (e : execSub h o s = .next r') : Keeps W Q L r' := by
  rw [execSub.eq_def] at e
  injection e with e
  rw [← e]
  repeat' with_reducible (first | assumption | refine runAlu3_keeps (hk := ?_) ..)

theorem execAdc_keeps (h : Hdr) (o : T3) (s : State) (hk : Keeps W Q L s) (r' : State) (e : execAdc h o s = .next r') : Keeps W Q L r' := by
  rw [execAdc.eq_def] at e
  injection e with e
  rw [← e]
  repeat' with_reducible (first | assumption | refine runAlu3_keeps (hk := ?_) ..)

theorem execSbc_keeps (h : Hdr) (o : T3) (s : State) (hk : Keeps W Q L s) (r' : State) (e : execSbc h o s = .next r') : Keeps W Q L r' := by
  rw [execSbc.eq_def] at e
  injection e with e
  rw [← e]
  repeat' with_reducible (first | assumption | refine runAlu3_keeps (hk := ?_) ..)

theorem execAnd_keeps (h : Hdr) (o : T3) (s : State) (hk : Keeps W Q L s) (r' : State) (e : execAnd h o s = .next r') : Keeps W Q L r' := by
  rw [execAnd.eq_def] at e
  injection e with e
  rw [← e]
  repeat' with_reducible (first | assumption | refine runAlu3_keeps (hk := ?_) ..)

theorem execOr_keeps (h : Hdr) (o : T3) (s : State) (hk : Keeps W Q L s) (r' : State) (e : execOr h o s = .next r') : Keeps W Q L r' := by
  rw [execOr.eq_def] at e
  injection e with e
  rw [← e]
  repeat' with_reducible (first | assumption | refine runAlu3_keeps (hk := ?_) ..)

theorem execXor_keeps (h : Hdr) (o : T3) (s : State) (hk : Keeps W Q L s) (r' : State) (e : execXor h o s = .next r') : Keeps W Q L r' := by
  rw [execXor.eq_def] at e
  injection e with e
  rw [← e]
  repeat' with_reducible (first | assumption | refine runAlu3_keeps (hk := ?_) ..)

theorem execAndn_keeps (h : Hdr) (o : T3) (s : State) (hk : Keeps W Q L s) (r' : State) (e : execAndn h o s = .next r') : Keeps W Q L r' := by
  rw [execAndn.eq_def] at e
  injection e with e
  rw [← e]
  repeat' with_reducible (first | assumption | refine runAlu3_keeps (hk := ?_) ..)

theorem execShl_keeps (h : Hdr) (o : T3) (s : State) (hk : Keeps W Q L s) (r' : State) (e : execShl h o s = .next r') : Keeps W Q L r' := by
  rw [execShl.eq_def] at e
  injection e with e
  rw [← e]
  repeat' with_reducible (first | assumption | refine runAlu3_keeps (hk := ?_) ..)

theorem execShr_keeps (h : Hdr) (o : T3) (s : State) (hk : Keeps W Q L s) (r' : State) (e : execShr h o s = .next r') : Keeps W Q L r' := by
  rw [execShr.eq_def] at e
  injection e with e
  rw [← e]
  repeat' with_reducible (first | assumption | refine runAlu3_keeps (hk := ?_) ..)

theorem execSar_keeps (h : Hdr) (o : T3) (s : State) (hk : Keeps W Q L s) (r' : State) (e : execSar h o s = .next r') : Keeps W Q L r' := by
  rw [execSar.eq_def] at e
  injection e with e
  rw [← e]
  repeat' with_reducible (first | assumption | refine runAlu3_keeps (hk := ?_) ..)

theorem execRol_keeps (h : Hdr) (o : T3) (s : State) (hk : Keeps W Q L s) (r' : State) (e : execRol h o s = .next r') : Keeps W Q L r' := by
  rw [execRol.eq_def] at e
  injection e with e
  rw [← e]
  repeat' with_reducible (first | assumption | refine runAlu3_keeps (hk := ?_) ..)

theorem execRor_keeps (h : Hdr) (o : T3) (s : State) (hk : Keeps W Q L s) (r' : State) (e : execRor h o s = .next r') : Keeps W Q L r' := by
  rw [execRor.eq_def] at e
  injection e with e
  rw [← e]
  repeat' with_reducible (first | assumption | refine runAlu3_keeps (hk := ?_) ..)

theorem execCmp_keeps (h : Hdr) (a b : BitVec 5) (sb : Bool) (s : State) (hk : Keeps W Q L s) (r' : State) (e : execCmp h a b sb s = .next r') : Keeps W Q L r' := by
  rw [execCmp.eq_def] at e
  injection e with e
  rw [← e]
  repeat' with_reducible (first | assumption | refine runReg_keeps (hk := ?_) ..)

theorem execCmpu_keeps (h : Hdr) (a b : BitVec 5) (sb : Bool) (s : State) (hk : Keeps W Q L s) (r' : State) (e : execCmpu h a b sb s = .next r') : Keeps W Q L r' := by
  rw [execCmpu.eq_def] at e
  injection e with e
  rw [← e]
  repeat' with_reducible (first | assumption | refine runReg_keeps (hk := ?_) ..)

theorem execMov_keeps (h : Hdr) (o : T2) (s : State) (hk : Keeps W Q L s) (r' : State) (e : execMov h o s = .next r') : Keeps W Q L r' := by
  rw [execMov.eq_def] at e
  injection e with e
  rw [← e]
  repeat' with_reducible (first | assumption | refine runAlu2_keeps (hk := ?_) ..)

theorem execMin_keeps (h : Hdr) (o : T3) (s : State) (hk : Keeps W Q L s) (r' : State) (e : execMin h o s = .next r') : Keeps W Q L r' := by
  rw [execMin.eq_def] at e
  injection e with e
  rw [← e]
  repeat' with_reducible (first | assumption | refine runAlu3_keeps (hk := ?_) ..)

theorem execMax_keeps (h : Hdr) (o : T3) (s : State) (hk : Keeps W Q L s) (r' : State) (e : execMax h o s = .next r') : Keeps W Q L r' := by
  rw [execMax.eq_def] at e
  injection e with e
  rw [← e]
  repeat' with_reducible (first | assumption | refine runAlu3_keeps (hk := ?_) ..)

theorem execMinu_keeps (h : Hdr) (o : T3) (s : State) (hk : Keeps W Q L s) (r' : State) (e : execMinu h o s = .next r') : Keeps W Q L r' := by
  rw [execMinu.eq_def] at e
  injection e with e
  rw [← e]
  repeat' with_reducible (first | assumption | refine runAlu3_keeps (hk := ?_) ..)

theorem execMaxu_keeps (h : Hdr) (o : T3) (s : State) (hk : Keeps W Q L s) (r' : State) (e : execMaxu h o s = .next r') : Keeps W Q L r' := by
  rw [execMaxu.eq_def] at e
  injection e with e
  rw [← e]
  repeat' with_reducible (first | assumption | refine runAlu3_keeps (hk := ?_) ..)

theorem execClz_keeps (h : Hdr) (o : T2) (s : State) (hk : Keeps W Q L s) (r' : State) (e : execClz h o s = .next r') : Keeps W Q L r' := by
  rw [execClz.eq_def] at e
  injection e with e
  rw [← e]
  repeat' with_reducible (first | assumption | refine runAlu2_keeps (hk := ?_) ..)

theorem execCtz_keeps (h : Hdr) (o : T2) (s : State) (hk : Keeps W Q L s) (r' : State) (e : execCtz h o s = .next r') : Keeps W Q L r' := by
  rw [execCtz.eq_def] at e
  injection e with e
  rw [← e]
  repeat' with_reducible (first | assumption | refine runAlu2_keeps (hk := ?_) ..)

theorem execPopc_keeps (h : Hdr) (o : T2) (s : State) (hk : Keeps W Q L s) (r' : State) (e : execPopc h o s = .next r') : Keeps W Q L r' := by
  rw [execPopc.eq_def] at e
  injection e with e
  rw [← e]
  repeat' with_reducible (first | assumption | refine runAlu2_keeps (hk := ?_) ..)

theorem execBswap_keeps (h : Hdr) (o : T2) (s : State) (hk : Keeps W Q L s) (r' : State) (e : execBswap h o s = .next r') : Keeps W Q L r' := by
  rw [execBswap.eq_def] at e
  injection e with e
  rw [← e]
  repeat' with_reducible (first | assumption | refine runAlu2_keeps (hk := ?_) ..)

theorem execSextB_keeps (h : Hdr) (o : T2) (s : State) (hk : Keeps W Q L s) (r' : State) (e : execSextB h o s = .next r') : Keeps W Q L r' := by
  rw [execSextB.eq_def] at e
  injection e with e
  rw [← e]
  repeat' with_reducible (first | assumption | refine runAlu2_keeps (hk := ?_) ..)

theorem execSextH_keeps (h : Hdr) (o : T2) (s : State) (hk : Keeps W Q L s) (r' : State) (e : execSextH h o s = .next r') : Keeps W Q L r' := by
  rw [execSextH.eq_def] at e
  injection e with e
  rw [← e]
  repeat' with_reducible (first | assumption | refine runAlu2_keeps (hk := ?_) ..)

theorem execSextW_keeps (h : Hdr) (o : T2) (s : State) (hk : Keeps W Q L s) (r' : State) (e : execSextW h o s = .next r') : Keeps W Q L r' := by
  rw [execSextW.eq_def] at e
  injection e with e
  rw [← e]
  repeat' with_reducible (first | assumption | refine runAlu2_keeps (hk := ?_) ..)

theorem execZextW_keeps (h : Hdr) (o : T2) (s : State) (hk : Keeps W Q L s) (r' : State) (e : execZextW h o s = .next r') : Keeps W Q L r' := by
  rw [execZextW.eq_def] at e
  injection e with e
  rw [← e]
  repeat' with_reducible (first | assumption | refine runAlu2_keeps (hk := ?_) ..)

theorem execMul_keeps (h : Hdr) (o : T3) (s : State) (hk : Keeps W Q L s) (r' : State) (e : execMul h o s = .next r') : Keeps W Q L r' := by
  rw [execMul.eq_def] at e
  injection e with e
  rw [← e]
  repeat' with_reducible (first | assumption | refine runReg_keeps (hk := ?_) ..)

theorem execMulw_keeps (h : Hdr) (o : T3) (s : State) (hk : Keeps W Q L s) (r' : State) (e : execMulw h o s = .next r') : Keeps W Q L r' := by
  rw [execMulw.eq_def] at e
  injection e with e
  rw [← e]
  repeat' with_reducible (first | assumption | refine runWide_keeps (hk := ?_) ..)

theorem execMulwu_keeps (h : Hdr) (o : T3) (s : State) (hk : Keeps W Q L s) (r' : State) (e : execMulwu h o s = .next r') : Keeps W Q L r' := by
  rw [execMulwu.eq_def] at e
  injection e with e
  rw [← e]
  repeat' with_reducible (first | assumption | refine runWide_keeps (hk := ?_) ..)

theorem execSdiv_keeps (h : Hdr) (o : T3) (s : State) (hk : Keeps W Q L s) (r' : State) (e : execSdiv h o s = .next r') : Keeps W Q L r' := by
  rw [execSdiv.eq_def] at e
  injection e with e
  rw [← e]
  repeat' with_reducible (first | assumption | refine runDiv_keeps (hk := ?_) ..)

theorem execUdiv_keeps (h : Hdr) (o : T3) (s : State) (hk : Keeps W Q L s) (r' : State) (e : execUdiv h o s = .next r') : Keeps W Q L r' := by
  rw [execUdiv.eq_def] at e
  injection e with e
  rw [← e]
  repeat' with_reducible (first | assumption | refine runDiv_keeps (hk := ?_) ..)

theorem execSrem_keeps (h : Hdr) (o : T3) (s : State) (hk : Keeps W Q L s) (r' : State) (e : execSrem h o s = .next r') : Keeps W Q L r' := by
  rw [execSrem.eq_def] at e
  injection e with e
  rw [← e]
  repeat' with_reducible (first | assumption | refine runDiv_keeps (hk := ?_) ..)

theorem execUrem_keeps (h : Hdr) (o : T3) (s : State) (hk : Keeps W Q L s) (r' : State) (e : execUrem h o s = .next r') : Keeps W Q L r' := by
  rw [execUrem.eq_def] at e
  injection e with e
  rw [← e]
  repeat' with_reducible (first | assumption | refine runDiv_keeps (hk := ?_) ..)

theorem execAddi_keeps (h : Hdr) (o : I12) (s : State) (hk : Keeps W Q L s) (r' : State) (e : execAddi h o s = .next r') : Keeps W Q L r' := by
  rw [execAddi.eq_def] at e
  injection e with e
  rw [← e]
  repeat' with_reducible (first | assumption | refine runImm_keeps (hk := ?_) ..)

theorem execAndi_keeps (h : Hdr) (o : I12) (s : State) (hk : Keeps W Q L s) (r' : State) (e : execAndi h o s = .next r') : Keeps W Q L r' := by
  rw [execAndi.eq_def] at e
  injection e with e
  rw [← e]
  repeat' with_reducible (first | assumption | refine runImm_keeps (hk := ?_) ..)

theorem execOri_keeps (h : Hdr) (o : I12) (s : State) (hk : Keeps W Q L s) (r' : State) (e : execOri h o s = .next r') : Keeps W Q L r' := by
  rw [execOri.eq_def] at e
  injection e with e
  rw [← e]
  repeat' with_reducible (first | assumption | refine runImm_keeps (hk := ?_) ..)

theorem execXori_keeps (h : Hdr) (o : I12) (s : State) (hk : Keeps W Q L s) (r' : State) (e : execXori h o s = .next r') : Keeps W Q L r' := by
  rw [execXori.eq_def] at e
  injection e with e
  rw [← e]
  repeat' with_reducible (first | assumption | refine runImm_keeps (hk := ?_) ..)

theorem execCmpi_keeps (h : Hdr) (a : BitVec 5) (imm : BitVec 12) (s : State) (hk : Keeps W Q L s) (r' : State) (e : execCmpi h a imm s = .next r') : Keeps W Q L r' := by
  rw [execCmpi.eq_def] at e
  injection e with e
  rw [← e]
  repeat' with_reducible (first | assumption | refine runReg_keeps (hk := ?_) ..)

theorem execCmpui_keeps (h : Hdr) (a : BitVec 5) (imm : BitVec 12) (s : State) (hk : Keeps W Q L s) (r' : State) (e : execCmpui h a imm s = .next r') : Keeps W Q L r' := by
  rw [execCmpui.eq_def] at e
  injection e with e
  rw [← e]
  repeat' with_reducible (first | assumption | refine runReg_keeps (hk := ?_) ..)

theorem execShiShl_keeps (h : Hdr) (d a : BitVec 5) (n : BitVec 6) (s : State) (hk : Keeps W Q L s) (r' : State) (e : execShiShl h d a n s = .next r') : Keeps W Q L r' := by
  rw [execShiShl.eq_def] at e
  injection e with e
  rw [← e]
  repeat' with_reducible (first | assumption | refine runShi_keeps (hk := ?_) ..)

theorem execShiShr_keeps (h : Hdr) (d a : BitVec 5) (n : BitVec 6) (s : State) (hk : Keeps W Q L s) (r' : State) (e : execShiShr h d a n s = .next r') : Keeps W Q L r' := by
  rw [execShiShr.eq_def] at e
  injection e with e
  rw [← e]
  repeat' with_reducible (first | assumption | refine runShi_keeps (hk := ?_) ..)

theorem execShiSar_keeps (h : Hdr) (d a : BitVec 5) (n : BitVec 6) (s : State) (hk : Keeps W Q L s) (r' : State) (e : execShiSar h d a n s = .next r') : Keeps W Q L r' := by
  rw [execShiSar.eq_def] at e
  injection e with e
  rw [← e]
  repeat' with_reducible (first | assumption | refine runShi_keeps (hk := ?_) ..)

theorem execShiRol_keeps (h : Hdr) (d a : BitVec 5) (n : BitVec 6) (s : State) (hk : Keeps W Q L s) (r' : State) (e : execShiRol h d a n s = .next r') : Keeps W Q L r' := by
  rw [execShiRol.eq_def] at e
  injection e with e
  rw [← e]
  repeat' with_reducible (first | assumption | refine runShi_keeps (hk := ?_) ..)

theorem execMovi_keeps (h : Hdr) (d : BitVec 5) (imm : BitVec 17) (s : State) (hk : Keeps W Q L s) (r' : State) (e : execMovi h d imm s = .next r') : Keeps W Q L r' := by
  rw [execMovi.eq_def] at e
  injection e with e
  rw [← e]
  repeat' with_reducible (first | assumption | refine runReg_keeps (hk := ?_) ..)

theorem execLiL_keeps (h : Hdr) (d : BitVec 5) (imm : BitVec 32) (s : State) (hk : Keeps W Q L s) (r' : State) (e : execLiL h d imm s = .next r') : Keeps W Q L r' := by
  rw [execLiL.eq_def] at e
  injection e with e
  rw [← e]
  repeat' with_reducible (first | assumption | refine runLong_keeps (hk := ?_) ..)

theorem execLiH_keeps (h : Hdr) (d : BitVec 5) (imm : BitVec 32) (s : State) (hk : Keeps W Q L s) (r' : State) (e : execLiH h d imm s = .next r') : Keeps W Q L r' := by
  rw [execLiH.eq_def] at e
  injection e with e
  rw [← e]
  repeat' with_reducible (first | assumption | refine runLong_keeps (hk := ?_) ..)

theorem execAddiW_keeps (h : Hdr) (o : X32) (s : State) (hk : Keeps W Q L s) (r' : State) (e : execAddiW h o s = .next r') : Keeps W Q L r' := by
  rw [execAddiW.eq_def] at e
  injection e with e
  rw [← e]
  repeat' with_reducible (first | assumption | refine runLong_keeps (hk := ?_) ..)

theorem execAndiW_keeps (h : Hdr) (o : X32) (s : State) (hk : Keeps W Q L s) (r' : State) (e : execAndiW h o s = .next r') : Keeps W Q L r' := by
  rw [execAndiW.eq_def] at e
  injection e with e
  rw [← e]
  repeat' with_reducible (first | assumption | refine runLong_keeps (hk := ?_) ..)

theorem execOriW_keeps (h : Hdr) (o : X32) (s : State) (hk : Keeps W Q L s) (r' : State) (e : execOriW h o s = .next r') : Keeps W Q L r' := by
  rw [execOriW.eq_def] at e
  injection e with e
  rw [← e]
  repeat' with_reducible (first | assumption | refine runLong_keeps (hk := ?_) ..)

theorem execXoriW_keeps (h : Hdr) (o : X32) (s : State) (hk : Keeps W Q L s) (r' : State) (e : execXoriW h o s = .next r') : Keeps W Q L r' := by
  rw [execXoriW.eq_def] at e
  injection e with e
  rw [← e]
  repeat' with_reducible (first | assumption | refine runLong_keeps (hk := ?_) ..)

theorem execCmpiW_keeps (h : Hdr) (a : BitVec 5) (imm : BitVec 32) (s : State) (hk : Keeps W Q L s) (r' : State) (e : execCmpiW h a imm s = .next r') : Keeps W Q L r' := by
  rw [execCmpiW.eq_def] at e
  injection e with e
  rw [← e]
  repeat' with_reducible (first | assumption | refine runLong_keeps (hk := ?_) ..)

theorem execCmpuiW_keeps (h : Hdr) (a : BitVec 5) (imm : BitVec 32) (s : State) (hk : Keeps W Q L s) (r' : State) (e : execCmpuiW h a imm s = .next r') : Keeps W Q L r' := by
  rw [execCmpuiW.eq_def] at e
  injection e with e
  rw [← e]
  repeat' with_reducible (first | assumption | refine runLong_keeps (hk := ?_) ..)

theorem execXstart_keeps (h : Hdr) (d a b : BitVec 5) (s : State) (hk : Keeps W Q L s) (r' : State) (e : execXstart h d a b s = .next r') : Keeps W Q L r' := by
  rw [execXstart.eq_def] at e
  injection e with e
  rw [← e]
  repeat' (first | with_reducible (first | assumption | refine runIoa_keeps (hk := ?_) (hsend := ?_) .. | refine sendXstart_keeps (hk := ?_) ..) | intro _)

theorem execCrq_keeps (h : Hdr) (d a : BitVec 5) (s : State) (hk : Keeps W Q L s) (r' : State) (e : execCrq h d a s = .next r') : Keeps W Q L r' := by
  rw [execCrq.eq_def] at e
  injection e with e
  rw [← e]
  repeat' (first | with_reducible (first | assumption | refine runIoa_keeps (hk := ?_) (hsend := ?_) .. | refine sendRequest_keeps (hk := ?_) ..) | intro _)

theorem execDfq_keeps (h : Hdr) (d a : BitVec 5) (s : State) (hk : Keeps W Q L s) (r' : State) (e : execDfq h d a s = .next r') : Keeps W Q L r' := by
  rw [execDfq.eq_def] at e
  injection e with e
  rw [← e]
  repeat' (first | with_reducible (first | assumption | refine runIoa_keeps (hk := ?_) (hsend := ?_) .. | refine sendRequest_keeps (hk := ?_) ..) | intro _)

theorem execIoaAcknowledge_keeps (pu : Fin 48) (th : Bool) (s : State) (hk : Keeps W Q L s) (r' : State) (e : execIoaAcknowledge pu th s = .next r') : Keeps W Q L r' := by
  rw [execIoaAcknowledge.eq_def] at e
  injection e with e
  rw [← e]
  repeat' (first | with_reducible (first | assumption | refine ite_keeps ?_ ?_ | refine State_updThr_keeps (hk := ?_) .. | refine retire_keeps (hk := ?_) .. | refine advance_keeps (hk := ?_) .. | refine addLatch_keeps (hk := ?_) ..) | split)

theorem execAese_keeps (h : Hdr) (d a b : BitVec 5) (s : State) (hk : Keeps W Q L s) (r' : State) (e : execAese h d a b s = .next r') : Keeps W Q L r' := by
  rw [execAese.eq_def] at e
  injection e with e
  rw [← e]
  repeat' with_reducible (first | assumption | refine runCra_keeps (hk := ?_) ..)

theorem execAesd_keeps (h : Hdr) (d a b : BitVec 5) (s : State) (hk : Keeps W Q L s) (r' : State) (e : execAesd h d a b s = .next r') : Keeps W Q L r' := by
  rw [execAesd.eq_def] at e
  injection e with e
  rw [← e]
  repeat' with_reducible (first | assumption | refine runCra_keeps (hk := ?_) ..)

theorem execAesmc_keeps (h : Hdr) (d a b : BitVec 5) (s : State) (hk : Keeps W Q L s) (r' : State) (e : execAesmc h d a b s = .next r') : Keeps W Q L r' := by
  rw [execAesmc.eq_def] at e
  injection e with e
  rw [← e]
  repeat' with_reducible (first | assumption | refine runCra_keeps (hk := ?_) ..)

theorem execAesimc_keeps (h : Hdr) (d a b : BitVec 5) (s : State) (hk : Keeps W Q L s) (r' : State) (e : execAesimc h d a b s = .next r') : Keeps W Q L r' := by
  rw [execAesimc.eq_def] at e
  injection e with e
  rw [← e]
  repeat' with_reducible (first | assumption | refine runCra_keeps (hk := ?_) ..)

theorem execClmul_keeps (h : Hdr) (d a b : BitVec 5) (s : State) (hk : Keeps W Q L s) (r' : State) (e : execClmul h d a b s = .next r') : Keeps W Q L r' := by
  rw [execClmul.eq_def] at e
  injection e with e
  rw [← e]
  repeat' with_reducible (first | assumption | refine runCra_keeps (hk := ?_) ..)

theorem execClmulh_keeps (h : Hdr) (d a b : BitVec 5) (s : State) (hk : Keeps W Q L s) (r' : State) (e : execClmulh h d a b s = .next r') : Keeps W Q L r' := by
  rw [execClmulh.eq_def] at e
  injection e with e
  rw [← e]
  repeat' with_reducible (first | assumption | refine runCra_keeps (hk := ?_) ..)

theorem execSha256r_keeps (h : Hdr) (d a b : BitVec 5) (s : State) (hk : Keeps W Q L s) (r' : State) (e : execSha256r h d a b s = .next r') : Keeps W Q L r' := by
  rw [execSha256r.eq_def] at e
  injection e with e
  rw [← e]
  repeat' with_reducible (first | assumption | refine runCra_keeps (hk := ?_) ..)

theorem execSha512r_keeps (h : Hdr) (d a b : BitVec 5) (s : State) (hk : Keeps W Q L s) (r' : State) (e : execSha512r h d a b s = .next r') : Keeps W Q L r' := by
  rw [execSha512r.eq_def] at e
  injection e with e
  rw [← e]
  repeat' with_reducible (first | assumption | refine runCra_keeps (hk := ?_) ..)

theorem execCompareRetire_keeps (pu : Fin 48) (c : Compare) (s : State) (hk : Keeps W Q L s) (r' : State) (e : execCompareRetire pu c s = .next r') : Keeps W Q L r' := by
  rw [execCompareRetire.eq_def] at e
  injection e with e
  rw [← e]
  repeat' (first | with_reducible (first | assumption | refine ite_keeps ?_ ?_ | refine State_updPu_keeps (hk := ?_) .. | refine latch_keeps (hk := ?_) .. | refine after_keeps (hk := ?_) .. | refine mismatch_keeps (hk := ?_) .. | refine uncheckedError_keeps (hk := ?_) .. | refine repairCopy_keeps (hk := ?_) .. | refine storeParity_keeps (hk := ?_) .. | refine arrayWord_keeps (hk := ?_) ..) | split)

theorem execRetryRestart_keeps (pu : Fin 48) (s : State) (hk : Keeps W Q L s) (r' : State) (e : execRetryRestart pu s = .next r') : Keeps W Q L r' := by
  rw [execRetryRestart.eq_def] at e
  injection e with e
  rw [← e]
  repeat' with_reducible (first | assumption | exact Keeps.of (by assumption) | refine ite_keeps ?_ ?_ | refine State_updPu_keeps (hk := ?_) ..)

theorem execRetryTimeout_keeps (pu : Fin 48) (s : State) (hk : Keeps W Q L s) (r' : State) (e : execRetryTimeout pu s = .next r') : Keeps W Q L r' := by
  rw [execRetryTimeout.eq_def] at e
  injection e with e
  rw [← e]
  repeat' with_reducible (first | assumption | refine ite_keeps ?_ ?_ | refine declareFailed_keeps (hk := ?_) .. | refine after_keeps (hk := ?_) ..)

theorem execRetryWindowClose_keeps (pu : Fin 48) (s : State) (hk : Keeps W Q L s) (r' : State) (e : execRetryWindowClose pu s = .next r') : Keeps W Q L r' := by
  rw [execRetryWindowClose.eq_def] at e
  injection e with e
  rw [← e]
  repeat' with_reducible (first | assumption | refine State_updPu_keeps (hk := ?_) ..)

theorem execCallupDrainDeadline_keeps (missing0 missing1 : Bool) (s : State) (hk : Keeps W Q L s) (r' : State) (e : execCallupDrainDeadline missing0 missing1 s = .next r') : Keeps W Q L r' := by
  rw [execCallupDrainDeadline.eq_def] at e
  injection e with e
  rw [← e]
  repeat' (first | with_reducible (first | assumption | exact Keeps.of (by assumption) | refine ite_keeps ?_ ?_ | refine State_updPu_keeps (hk := ?_) .. | refine State_updIsland_keeps (hk := ?_) .. | refine losePu_keeps (hk := ?_) .. | refine threadLost_keeps (hk := ?_) .. | refine raiseZone_keeps (hk := ?_) .. | refine settled_keeps (hk := ?_) .. | refine after_keeps (hk := ?_) .. | refine updCallUp_keeps (hk := ?_) .. | refine Keeps.of (ite_keeps ?_ ?_)) | split)

theorem execPresenceClear_keeps (pu : Fin 48) (s : State) (hk : Keeps W Q L s) (r' : State) (e : execPresenceClear pu s = .next r') : Keeps W Q L r' := by
  rw [execPresenceClear.eq_def] at e
  injection e with e
  rw [← e]
  repeat' with_reducible (first | assumption | refine ite_keeps ?_ ?_ | refine losePu_keeps (hk := ?_) .. | refine settled_keeps (hk := ?_) ..)

theorem execCallupInjectionTestComplete_keeps (failLanes : Nat) (s : State) (hk : Keeps W Q L s) (r' : State) (e : execCallupInjectionTestComplete failLanes s = .next r') : Keeps W Q L r' := by
  rw [execCallupInjectionTestComplete.eq_def] at e
  injection e with e
  rw [← e]
  repeat' (first | with_reducible (first | assumption | refine ite_keeps ?_ ?_ | refine latch_keeps (hk := ?_) .. | refine spareFails_keeps (hk := ?_) .. | refine after_keeps (hk := ?_) .. | refine provingTo_keeps (hk := ?_) .. | refine injected_keeps (hk := ?_) .. | refine provingInjFails_keeps (hk := ?_) .. | refine Keeps.of (injected_keeps (hk := ?_) ..)) | split)

theorem execControlStoreLoadComplete_keeps (ok : Bool) (s : State) (hk : Keeps W Q L s) (r' : State) (e : execControlStoreLoadComplete ok s = .next r') : Keeps W Q L r' := by
  rw [execControlStoreLoadComplete.eq_def] at e
  injection e with e
  rw [← e]
  repeat' (first | with_reducible (first | assumption | refine ite_keeps ?_ ?_ | refine latch_keeps (hk := ?_) .. | refine spareFails_keeps (hk := ?_) .. | refine faultFn_keeps (hk := ?_) .. | refine after_keeps (hk := ?_) .. | refine provingTo_keeps (hk := ?_) .. | refine joinFailed_keeps (hk := ?_) .. | refine loadStore_keeps (hk := ?_) .. | refine Keeps.of (loadStore_keeps (hk := ?_) ..)) | split)

theorem execCallupStateLoadComplete_keeps (ok : Bool) (s : State) (hk : Keeps W Q L s) (r' : State) (e : execCallupStateLoadComplete ok s = .next r') : Keeps W Q L r' := by
  rw [execCallupStateLoadComplete.eq_def] at e
  injection e with e
  rw [← e]
  repeat' (first | with_reducible (first | assumption | refine ite_keeps ?_ ?_ | refine latch_keeps (hk := ?_) .. | refine settleSpc_keeps (hk := ?_) .. | refine spareFails_keeps (hk := ?_) .. | refine after_keeps (hk := ?_) .. | refine resumeSpare_keeps (hk := ?_) ..) | split)

theorem execCeWatchdogExpiry_keeps (ce : Fin 36) (s : State) (hk : Keeps W Q L s) (r' : State) (e : execCeWatchdogExpiry ce s = .next r') : Keeps W Q L r' := by
  rw [execCeWatchdogExpiry.eq_def] at e
  injection e with e
  rw [← e]
  repeat' (first | with_reducible (first | assumption | refine faultFn_keeps (hk := ?_) .. | refine after_keeps (hk := ?_) ..) | split)

theorem execProvingRunComplete_keeps (ce : Bool) (n : Nat) (failLanes : Nat) (pass : Bool) (s : State) (hk : Keeps W Q L s) (r' : State) (e : execProvingRunComplete ce n failLanes pass s = .next r') : Keeps W Q L r' := by
  rw [execProvingRunComplete.eq_def] at e
  injection e with e
  rw [← e]
  repeat' with_reducible (first | assumption | exact Keeps.of (by assumption) | refine ite_keeps ?_ ?_ | refine latch_keeps (hk := ?_) .. | refine after_keeps (hk := ?_) .. | refine injected_keeps (hk := ?_) .. | refine provingInjFails_keeps (hk := ?_) .. | refine loadStore_keeps (hk := ?_) .. | refine provingOff_keeps (hk := ?_) .. | refine Keeps.of (State_updPu_keeps (hk := ?_) ..) | refine Keeps.of (latch_keeps (hk := ?_) ..) | refine Keeps.of (ite_keeps ?_ ?_))

theorem execStandbyProve_keeps (pass : Bool) (s : State) (hk : Keeps W Q L s) (r' : State) (e : execStandbyProve pass s = .next r') : Keeps W Q L r' := by
  rw [execStandbyProve.eq_def] at e
  injection e with e
  rw [← e]
  repeat' with_reducible (first | exact Keeps.of (by assumption) | refine ite_keeps ?_ ?_ | refine latch_keeps (hk := ?_) .. | refine checkDegraded_keeps (hk := ?_) ..)

theorem execDebugAttach_keeps (pu : Fin 48) (s : State) (hk : Keeps W Q L s) (r' : State) (e : execDebugAttach pu s = .next r') : Keeps W Q L r' := by
  rw [execDebugAttach.eq_def] at e
  injection e with e
  rw [← e]
  repeat' with_reducible (first | assumption | refine ite_keeps ?_ ?_ | refine haltTx_keeps (hk := ?_) .. | refine Keeps.of (State_updPu_keeps (hk := ?_) ..))

theorem execResyncComplete_keeps (pu : Fin 48) (failLanes : Nat) (s : State) (hk : Keeps W Q L s) (r' : State) (e : execResyncComplete pu failLanes s = .next r') : Keeps W Q L r' := by
  rw [execResyncComplete.eq_def] at e
  injection e with e
  rw [← e]
  repeat' with_reducible (first | assumption | refine ite_keeps ?_ ?_ | refine State_updPu_keeps (hk := ?_) .. | refine declareFailed_keeps (hk := ?_) .. | refine finishService_keeps (hk := ?_) .. | refine after_keeps (hk := ?_) .. | refine takeRequest_keeps (hk := ?_) .. | refine injected_keeps (hk := ?_) .. | refine Keeps.of (lockstepWait_keeps (hk := ?_) ..))

theorem execLcStartComplete_keeps (f : Fn) (fail : Nat) (s : State) (hk : Keeps W Q L s) (r' : State) (e : execLcStartComplete f fail s = .next r') : Keeps W Q L r' := by
  rw [execLcStartComplete.eq_def] at e
  injection e with e
  rw [← e]
  repeat' with_reducible (first | assumption | refine ite_keeps ?_ ?_ | refine closeGates_keeps (hk := ?_) .. | refine after_keeps (hk := ?_) .. | refine startDone_keeps (hk := ?_) ..)

theorem execLcStopComplete_keeps (f : Fn) (s : State) (hk : Keeps W Q L s) (r' : State) (e : execLcStopComplete f s = .next r') : Keeps W Q L r' := by
  rw [execLcStopComplete.eq_def] at e
  injection e with e
  rw [← e]
  repeat' with_reducible (first | assumption | refine lcStopDone_keeps (hk := ?_) .. | refine after_keeps (hk := ?_) ..)

theorem execLcTimeout_keeps (f : Fn) (s : State) (hk : Keeps W Q L s) (r' : State) (e : execLcTimeout f s = .next r') : Keeps W Q L r' := by
  rw [execLcTimeout.eq_def] at e
  injection e with e
  rw [← e]
  repeat' with_reducible (first | assumption | refine timedOut_keeps (hk := ?_) ..)

theorem execRegulatorAcknowledgement_keeps (q : Fin 4) (s : State) (hk : Keeps W Q L s) (r' : State) (e : execRegulatorAcknowledgement q s = .next r') : Keeps W Q L r' := by
  rw [execRegulatorAcknowledgement.eq_def] at e
  injection e with e
  rw [← e]
  repeat' (first | with_reducible (first | assumption | refine State_updIsland_keeps (hk := ?_) .. | refine Keeps.of (foldl_keeps _ ?_ _ _ ?_)) | (intro _ _ _ e _; subst e; (try simp only [])))

theorem execIslandFrequencySet_keeps (i : Island) (mhz : Nat) (s : State) (hk : Keeps W Q L s) (r' : State) (e : execIslandFrequencySet i mhz s = .next r') : Keeps W Q L r' := by
  rw [execIslandFrequencySet.eq_def] at e
  injection e with e
  rw [← e]
  repeat' (first | with_reducible (first | assumption | refine ite_keeps ?_ ?_ | refine State_updIsland_keeps (hk := ?_) .. | refine retune_keeps (hk := ?_) ..) | split)

theorem execClockRelockComplete_keeps (i : Island) (s : State) (hk : Keeps W Q L s) (r' : State) (e : execClockRelockComplete i s = .next r') : Keeps W Q L r' := by
  rw [execClockRelockComplete.eq_def] at e
  injection e with e
  rw [← e]
  repeat' with_reducible (first | assumption | refine State_updIsland_keeps (hk := ?_) .. | refine settled_keeps (hk := ?_) .. | refine relocked_keeps (hk := ?_) ..)

theorem execIslandFence_keeps (i : Island) (s : State) (hk : Keeps W Q L s) (r' : State) (e : execIslandFence i s = .next r') : Keeps W Q L r' := by
  rw [execIslandFence.eq_def] at e
  injection e with e
  rw [← e]
  repeat' with_reducible (first | assumption | refine State_updIsland_keeps (hk := ?_) .. | refine closeGates_keeps (hk := ?_) .. | refine answerFenced_keeps (hk := ?_) ..)

theorem execIslandUnfence_keeps (i : Island) (s : State) (hk : Keeps W Q L s) (r' : State) (e : execIslandUnfence i s = .next r') : Keeps W Q L r' := by
  rw [execIslandUnfence.eq_def] at e
  injection e with e
  rw [← e]
  repeat' with_reducible (first | assumption | refine State_updIsland_keeps (hk := ?_) ..)

theorem execIslandPowerSwitch_keeps (i : Island) (on : Bool) (s : State) (hk : Keeps W Q L s) (r' : State) (e : execIslandPowerSwitch i on s = .next r') : Keeps W Q L r' := by
  rw [execIslandPowerSwitch.eq_def] at e
  injection e with e
  rw [← e]
  repeat' (first | with_reducible (first | assumption | refine ite_keeps ?_ ?_ | refine State_updPu_keeps (hk := ?_) .. | refine State_updIsland_keeps (hk := ?_) .. | refine closeGates_keeps (hk := ?_) .. | refine losePu_keeps (hk := ?_) .. | refine stopPosition_keeps (hk := ?_) .. | refine answerFenced_keeps (hk := ?_) ..) | split)

theorem execK1ThermalIteration_keeps (hottest : Int) (s : State) (hk : Keeps W Q L s) (r' : State) (e : execK1ThermalIteration hottest s = .next r') : Keeps W Q L r' := by
  rw [execK1ThermalIteration.eq_def] at e
  injection e with e
  rw [← e]
  repeat' with_reducible (first | assumption | exact Keeps.of (by assumption) | refine ite_keeps ?_ ?_ | refine idleValve_keeps (hk := ?_) ..)

theorem execThermalCeilingStep_keeps (lower : Bool) (s : State) (hk : Keeps W Q L s) (r' : State) (e : execThermalCeilingStep lower s = .next r') : Keeps W Q L r' := by
  rw [execThermalCeilingStep.eq_def] at e
  injection e with e
  rw [← e]
  repeat' with_reducible (first | assumption | exact Keeps.of (by assumption) | refine ite_keeps ?_ ?_ | refine retuneAll_keeps (hk := ?_) ..)

theorem execValveDeviation_keeps (s : State) (hk : Keeps W Q L s) (r' : State) (e : execValveDeviation s = .next r') : Keeps W Q L r' := by
  rw [execValveDeviation.eq_def] at e
  injection e with e
  rw [← e]
  repeat' with_reducible (first | assumption | exact Keeps.of (by assumption) | refine ite_keeps ?_ ?_ | refine notice_keeps (hk := ?_) ..)

theorem execPowerLimitRestore_keeps (s : State) (hk : Keeps W Q L s) (r' : State) (e : execPowerLimitRestore s = .next r') : Keeps W Q L r' := by
  rw [execPowerLimitRestore.eq_def] at e
  injection e with e
  rw [← e]
  repeat' (first | with_reducible (first | assumption | exact Keeps.of (by assumption) | refine ite_keeps ?_ ?_ | refine retune_keeps (hk := ?_) ..) | split | simp only [])

theorem execAdcSample_keeps (uv : List Int) (powerW : Nat) (fault : Bool) (s : State) (hk : Keeps W Q L s) (r' : State) (e : execAdcSample uv powerW fault s = .next r') : Keeps W Q L r' := by
  rw [execAdcSample.eq_def] at e
  injection e with e
  rw [← e]
  repeat' with_reducible (first | assumption | refine ite_keeps ?_ ?_ | refine latch_keeps (hk := ?_) .. | refine limitPower_keeps (hk := ?_) .. | refine publish_keeps (hk := ?_) .. | refine Keeps.of (limitPower_keeps (hk := ?_) ..) | refine Keeps.of (integrate_keeps (hk := ?_) ..) | refine Keeps.of (ite_keeps ?_ ?_))

theorem execCommitBudgetUpdate_keeps (s : State) (hk : Keeps W Q L s) (r' : State) (e : execCommitBudgetUpdate s = .next r') : Keeps W Q L r' := by
  rw [execCommitBudgetUpdate.eq_def] at e
  injection e with e
  rw [← e]
  repeat' with_reducible (first | assumption | exact Keeps.of (by assumption) | refine ite_keeps ?_ ?_ | refine serveGrants_keeps (hk := ?_) .. | refine drainWbuf_keeps (hk := ?_) .. | refine checkDegraded_keeps (hk := ?_) .. | refine settleBudget_keeps (hk := ?_) .. | refine Keeps.of (settleBudget_keeps (hk := ?_) ..))

theorem execStoreRechargeTest_keeps (s : State) (hk : Keeps W Q L s) (r' : State) (e : execStoreRechargeTest s = .next r') : Keeps W Q L r' := by
  rw [execStoreRechargeTest.eq_def] at e
  injection e with e
  rw [← e]
  repeat' with_reducible (first | assumption | exact Keeps.of (by assumption) | refine ite_keeps ?_ ?_ | refine driveCharge_keeps (hk := ?_) ..)

theorem execStoreRechargeTestEnd_keeps (s : State) (hk : Keeps W Q L s) (r' : State) (e : execStoreRechargeTestEnd s = .next r') : Keeps W Q L r' := by
  rw [execStoreRechargeTestEnd.eq_def] at e
  injection e with e
  rw [← e]
  repeat' (first | with_reducible (first | assumption | exact Keeps.of (by assumption) | refine ite_keeps ?_ ?_ | refine driveCharge_keeps (hk := ?_) .. | refine Keeps.of (latch_keeps (hk := ?_) ..)) | split)

theorem execStoreFltNAssert_keeps (s : State) (hk : Keeps W Q L s) (r' : State) (e : execStoreFltNAssert s = .next r') : Keeps W Q L r' := by
  rw [execStoreFltNAssert.eq_def] at e
  injection e with e
  rw [← e]
  repeat' with_reducible (first | exact Keeps.of (by assumption) | refine ite_keeps ?_ ?_ | refine latch_keeps (hk := ?_) .. | refine driveCharge_keeps (hk := ?_) .. | refine Keeps.of (driveCharge_keeps (hk := ?_) ..))

theorem execStoreFltNNegate_keeps (s : State) (hk : Keeps W Q L s) (r' : State) (e : execStoreFltNNegate s = .next r') : Keeps W Q L r' := by
  rw [execStoreFltNNegate.eq_def] at e
  injection e with e
  rw [← e]
  repeat' with_reducible (first | exact Keeps.of (by assumption) | refine driveCharge_keeps (hk := ?_) ..)

theorem execCommitGrantRequest_keeps (a : Acc) (block : Nat) (s : State) (hk : Keeps W Q L s) (r' : State) (e : execCommitGrantRequest a block s = .next r') : Keeps W Q L r' := by
  rw [execCommitGrantRequest.eq_def] at e
  injection e with e
  rw [← e]
  repeat' with_reducible (first | assumption | exact Keeps.of (by assumption) | refine ite_keeps ?_ ?_ | refine Keeps.of (askGrant_keeps (hk := ?_) ..))

theorem execOpenRecordWritten_keeps (s : State) (hk : Keeps W Q L s) (r' : State) (e : execOpenRecordWritten s = .next r') : Keeps W Q L r' := by
  rw [execOpenRecordWritten.eq_def] at e
  injection e with e
  rw [← e]
  repeat' with_reducible (first | assumption | refine ite_keeps ?_ ?_ | refine serveGrants_keeps (hk := ?_) .. | refine grantAll_keeps (hk := ?_) .. | refine drainWbuf_keeps (hk := ?_) .. | refine writeOpenRec_keeps (hk := ?_) ..)

theorem execBlockRecordWritten_keeps (s : State) (hk : Keeps W Q L s) (r' : State) (e : execBlockRecordWritten s = .next r') : Keeps W Q L r' := by
  rw [execBlockRecordWritten.eq_def] at e
  injection e with e
  rw [← e]
  repeat' (first | with_reducible (first | assumption | refine ite_keeps ?_ ?_ | refine serveGrants_keeps (hk := ?_) .. | refine drainWbuf_keeps (hk := ?_) .. | refine drainNext_keeps (hk := ?_) .. | refine Keeps.of (writeBlockRec_keeps (hk := ?_) ..)) | split)

theorem execFlashChannelFailure_keeps (ch : Fin 16) (s : State) (hk : Keeps W Q L s) (r' : State) (e : execFlashChannelFailure ch s = .next r') : Keeps W Q L r' := by
  rw [execFlashChannelFailure.eq_def] at e
  injection e with e
  rw [← e]
  repeat' with_reducible (first | assumption | exact Keeps.of (by assumption) | refine ite_keeps ?_ ?_ | refine closeGates_keeps (hk := ?_) .. | refine latch_keeps (hk := ?_) ..)

theorem execRegisterWrite_keeps (a : Acc) (addr : BitVec 52) (size : Nat) (v : Word) (s : State) (hk : Keeps W Q L s) (r' : State) (e : execRegisterWrite a addr size v s = .next r') : Keeps W Q L r' := by
  rw [execRegisterWrite.eq_def] at e
  injection e with e
  rw [← e]
  repeat' with_reducible (first | assumption | refine devWrite_keeps (hk := ?_) .. | refine Keeps.of (devSent_keeps (hk := ?_) ..))

theorem execRcRead_keeps (a : Acc) (addr : BitVec 52) (size : Nat) (s : State) (hk : Keeps W Q L s) (r' : State) (e : execRcRead a addr size s = .next r') : Keeps W Q L r' := by
  rw [execRcRead.eq_def] at e
  injection e with e
  rw [← e]
  repeat' with_reducible (first | assumption | refine Keeps.of (devRead_keeps (hk := ?_) ..))

theorem execLcEnable_keeps (f : Fn) (a : Acc) (w : Word) (s : State) (hk : Keeps W Q L s) (r' : State) (e : execLcEnable f a w s = .next r') : Keeps W Q L r' := by
  rw [execLcEnable.eq_def] at e
  injection e with e
  rw [← e]
  repeat' with_reducible (first | assumption | refine doWrite_keeps (hk := ?_) ..)

theorem execLcDisable_keeps (f : Fn) (a : Acc) (w : Word) (s : State) (hk : Keeps W Q L s) (r' : State) (e : execLcDisable f a w s = .next r') : Keeps W Q L r' := by
  rw [execLcDisable.eq_def] at e
  injection e with e
  rw [← e]
  repeat' with_reducible (first | assumption | refine doWrite_keeps (hk := ?_) ..)

theorem execLcUnfence_keeps (f : Fn) (a : Acc) (w : Word) (s : State) (hk : Keeps W Q L s) (r' : State) (e : execLcUnfence f a w s = .next r') : Keeps W Q L r' := by
  rw [execLcUnfence.eq_def] at e
  injection e with e
  rw [← e]
  repeat' with_reducible (first | assumption | refine doWrite_keeps (hk := ?_) ..)

theorem execFstatClear_keeps (b : Blk) (a : Acc) (s : State) (hk : Keeps W Q L s) (r' : State) (e : execFstatClear b a s = .next r') : Keeps W Q L r' := by
  rw [execFstatClear.eq_def] at e
  injection e with e
  rw [← e]
  repeat' with_reducible (first | assumption | refine doWrite_keeps (hk := ?_) ..)

theorem execFovfClear_keeps (b : Blk) (a : Acc) (s : State) (hk : Keeps W Q L s) (r' : State) (e : execFovfClear b a s = .next r') : Keeps W Q L r' := by
  rw [execFovfClear.eq_def] at e
  injection e with e
  rw [← e]
  repeat' with_reducible (first | assumption | refine doWrite_keeps (hk := ?_) ..)

theorem execAtLockSet_keeps (t : TabId) (a : Acc) (s : State) (hk : Keeps W Q L s) (r' : State) (e : execAtLockSet t a s = .next r') : Keeps W Q L r' := by
  rw [execAtLockSet.eq_def] at e
  injection e with e
  rw [← e]
  repeat' with_reducible (first | assumption | refine doWrite_keeps (hk := ?_) ..)

theorem execAtLogClear_keeps (t : TabId) (a : Acc) (s : State) (hk : Keeps W Q L s) (r' : State) (e : execAtLogClear t a s = .next r') : Keeps W Q L r' := by
  rw [execAtLogClear.eq_def] at e
  injection e with e
  rw [← e]
  repeat' with_reducible (first | assumption | refine doWrite_keeps (hk := ?_) ..)

theorem execAliveRearm_keeps (a : Acc) (mask : BitVec 20) (s : State) (hk : Keeps W Q L s) (r' : State) (e : execAliveRearm a mask s = .next r') : Keeps W Q L r' := by
  rw [execAliveRearm.eq_def] at e
  injection e with e
  rw [← e]
  repeat' with_reducible (first | assumption | refine doWrite_keeps (hk := ?_) ..)

theorem execAliveRejClear_keeps (a : Acc) (mask : BitVec 20) (s : State) (hk : Keeps W Q L s) (r' : State) (e : execAliveRejClear a mask s = .next r') : Keeps W Q L r' := by
  rw [execAliveRejClear.eq_def] at e
  injection e with e
  rw [← e]
  repeat' with_reducible (first | assumption | refine doWrite_keeps (hk := ?_) ..)

theorem execHoldupTest_keeps (a : Acc) (s : State) (hk : Keeps W Q L s) (r' : State) (e : execHoldupTest a s = .next r') : Keeps W Q L r' := by
  rw [execHoldupTest.eq_def] at e
  injection e with e
  rw [← e]
  repeat' with_reducible (first | assumption | refine doWrite_keeps (hk := ?_) ..)

theorem execChkstopTest_keeps (a : Acc) (s : State) (hk : Keeps W Q L s) (r' : State) (e : execChkstopTest a s = .next r') : Keeps W Q L r' := by
  rw [execChkstopTest.eq_def] at e
  injection e with e
  rw [← e]
  repeat' with_reducible (first | assumption | refine doWrite_keeps (hk := ?_) ..)

theorem execPrivPulseEnd_keeps (holdup : Bool) (s : State) (hk : Keeps W Q L s) (r' : State) (e : execPrivPulseEnd holdup s = .next r') : Keeps W Q L r' := by
  rw [execPrivPulseEnd.eq_def] at e
  injection e with e
  rw [← e]
  repeat' with_reducible exact Keeps.of (by assumption)

theorem execWdogKick_keeps (n : Fin 2) (a : Acc) (v : BitVec 8) (s : State) (hk : Keeps W Q L s) (r' : State) (e : execWdogKick n a v s = .next r') : Keeps W Q L r' := by
  rw [execWdogKick.eq_def] at e
  injection e with e
  rw [← e]
  repeat' with_reducible (first | assumption | refine doWrite_keeps (hk := ?_) ..)

theorem execFrozenClear_keeps (a : Acc) (s : State) (hk : Keeps W Q L s) (r' : State) (e : execFrozenClear a s = .next r') : Keeps W Q L r' := by
  rw [execFrozenClear.eq_def] at e
  injection e with e
  rw [← e]
  repeat' with_reducible (first | assumption | refine doWrite_keeps (hk := ?_) ..)

theorem execSegAdd_keeps (a : Acc) (w : Word) (s : State) (hk : Keeps W Q L s) (r' : State) (e : execSegAdd a w s = .next r') : Keeps W Q L r' := by
  rw [execSegAdd.eq_def] at e
  injection e with e
  rw [← e]
  repeat' with_reducible (first | assumption | refine doWrite_keeps (hk := ?_) ..)

theorem execSidtSet_keeps (z : Fin 16) (a : Acc) (w : Word) (s : State) (hk : Keeps W Q L s) (r' : State) (e : execSidtSet z a w s = .next r') : Keeps W Q L r' := by
  rw [execSidtSet.eq_def] at e
  injection e with e
  rw [← e]
  repeat' with_reducible (first | assumption | refine doWrite_keeps (hk := ?_) ..)

theorem execIrqSend_keeps (z : Fin 16) (a : Acc) (thread : BitVec 7) (vector : BitVec 10) (prio : BitVec 4) (s : State) (hk : Keeps W Q L s) (r' : State) (e : execIrqSend z a thread vector prio s = .next r') : Keeps W Q L r' := by
  rw [execIrqSend.eq_def] at e
  injection e with e
  rw [← e]
  repeat' with_reducible (first | assumption | refine doWrite_keeps (hk := ?_) ..)

theorem execInterruptArrival_keeps (z : Fin 16) (thread : BitVec 7) (vector : BitVec 10) (prio : BitVec 4) (s : State) (hk : Keeps W Q L s) (r' : State) (e : execInterruptArrival z thread vector prio s = .next r') : Keeps W Q L r' := by
  rw [execInterruptArrival.eq_def] at e
  injection e with e
  rw [← e]
  repeat' with_reducible (first | assumption | refine routeIrq_keeps (hk := ?_) ..)

theorem execReloadEp_keeps (ce : Fin 36) (a : Acc) (ep : BitVec 16) (s : State) (hk : Keeps W Q L s) (r' : State) (e : execReloadEp ce a ep s = .next r') : Keeps W Q L r' := by
  rw [execReloadEp.eq_def] at e
  injection e with e
  rw [← e]
  repeat' with_reducible (first | assumption | refine doWrite_keeps (hk := ?_) ..)

theorem execReloadDisp_keeps (ce : Fin 36) (a : Acc) (z : Fin 16) (s : State) (hk : Keeps W Q L s) (r' : State) (e : execReloadDisp ce a z s = .next r') : Keeps W Q L r' := by
  rw [execReloadDisp.eq_def] at e
  injection e with e
  rw [← e]
  repeat' with_reducible (first | assumption | refine doWrite_keeps (hk := ?_) ..)

theorem execTrnWriteLevelling_keeps (mc : Fin 20) (a : Acc) (rank : Fin 4) (nibble : Fin 32) (start : BitVec 10) (s : State) (hk : Keeps W Q L s) (r' : State) (e : execTrnWriteLevelling mc a rank nibble start s = .next r') : Keeps W Q L r' := by
  rw [execTrnWriteLevelling.eq_def] at e
  injection e with e
  rw [← e]
  repeat' with_reducible (first | assumption | refine trnGo_keeps (hk := ?_) ..)

theorem execTrnReceiveEnable_keeps (mc : Fin 20) (a : Acc) (rank : Fin 4) (nibble : Fin 32) (start : BitVec 10) (s : State) (hk : Keeps W Q L s) (r' : State) (e : execTrnReceiveEnable mc a rank nibble start s = .next r') : Keeps W Q L r' := by
  rw [execTrnReceiveEnable.eq_def] at e
  injection e with e
  rw [← e]
  repeat' with_reducible (first | assumption | refine trnGo_keeps (hk := ?_) ..)

theorem execTrnReadEye_keeps (mc : Fin 20) (a : Acc) (rank : Fin 4) (nibble : Fin 32) (start : BitVec 10) (s : State) (hk : Keeps W Q L s) (r' : State) (e : execTrnReadEye mc a rank nibble start s = .next r') : Keeps W Q L r' := by
  rw [execTrnReadEye.eq_def] at e
  injection e with e
  rw [← e]
  repeat' with_reducible (first | assumption | refine trnGo_keeps (hk := ?_) ..)

theorem execTrnWriteEye_keeps (mc : Fin 20) (a : Acc) (rank : Fin 4) (nibble : Fin 32) (start : BitVec 10) (s : State) (hk : Keeps W Q L s) (r' : State) (e : execTrnWriteEye mc a rank nibble start s = .next r') : Keeps W Q L r' := by
  rw [execTrnWriteEye.eq_def] at e
  injection e with e
  rw [← e]
  repeat' with_reducible (first | assumption | refine trnGo_keeps (hk := ?_) ..)

theorem execTrnDqsOscillator_keeps (mc : Fin 20) (a : Acc) (rank : Fin 4) (nibble : Fin 32) (start : BitVec 10) (s : State) (hk : Keeps W Q L s) (r' : State) (e : execTrnDqsOscillator mc a rank nibble start s = .next r') : Keeps W Q L r' := by
  rw [execTrnDqsOscillator.eq_def] at e
  injection e with e
  rw [← e]
  repeat' with_reducible (first | assumption | refine trnGo_keeps (hk := ?_) ..)

theorem execTrnCaTraining_keeps (mc : Fin 20) (a : Acc) (rank : Fin 4) (nibble : Fin 32) (start : BitVec 10) (s : State) (hk : Keeps W Q L s) (r' : State) (e : execTrnCaTraining mc a rank nibble start s = .next r') : Keeps W Q L r' := by
  rw [execTrnCaTraining.eq_def] at e
  injection e with e
  rw [← e]
  repeat' with_reducible (first | assumption | refine trnGo_keeps (hk := ?_) ..)

theorem execTrnApply_keeps (mc : Fin 20) (a : Acc) (s : State) (hk : Keeps W Q L s) (r' : State) (e : execTrnApply mc a s = .next r') : Keeps W Q L r' := by
  rw [execTrnApply.eq_def] at e
  injection e with e
  rw [← e]
  repeat' with_reducible (first | assumption | refine doWrite_keeps (hk := ?_) ..)

theorem execDwGoRead_keeps (z : Fin 16) (a : Acc) (index : BitVec 16) (sub : BitVec 8) (offset : BitVec 24) (s : State) (hk : Keeps W Q L s) (r' : State) (e : execDwGoRead z a index sub offset s = .next r') : Keeps W Q L r' := by
  rw [execDwGoRead.eq_def] at e
  injection e with e
  rw [← e]
  repeat' with_reducible (first | assumption | refine dwGo_keeps (hk := ?_) ..)

theorem execDwGoWrite_keeps (z : Fin 16) (a : Acc) (index : BitVec 16) (sub : BitVec 8) (len : BitVec 13) (offset : BitVec 24) (s : State) (hk : Keeps W Q L s) (r' : State) (e : execDwGoWrite z a index sub len offset s = .next r') : Keeps W Q L r' := by
  rw [execDwGoWrite.eq_def] at e
  injection e with e
  rw [← e]
  repeat' with_reducible (first | assumption | refine dwGo_keeps (hk := ?_) ..)

theorem execWatchdogExpiry_keeps (s : State) (hk : Keeps W Q L s) (r' : State) (e : execWatchdogExpiry s = .next r') : Keeps W Q L r' := by
  rw [execWatchdogExpiry.eq_def] at e
  injection e with e
  rw [← e]
  repeat' with_reducible (first | assumption | refine ite_keeps ?_ ?_ | refine after_keeps (hk := ?_) .. | refine wdogExpire_keeps (hk := ?_) ..)

theorem execDebugPortRequest_keeps (a : Acc) (addr : BitVec 52) (s : State) (hk : Keeps W Q L s) (r' : State) (e : execDebugPortRequest a addr s = .next r') : Keeps W Q L r' := by
  rw [execDebugPortRequest.eq_def] at e
  injection e with e
  rw [← e]
  repeat' (first | with_reducible (first | assumption | exact Keeps.of (by assumption) | refine ite_keeps ?_ ?_ | refine orWait_keeps (hk := ?_) (hf := ?_) .. | refine pairThen_keeps (by assumption) (readBytes_keeps (hk := ?_) ..) (fun e => Keeps.of e) | refine Keeps.of (devRead_keeps (hk := ?_) ..)) | split | intro _)

theorem execK4Period_keeps (s : State) (hk : Keeps W Q L s) (r' : State) (e : execK4Period s = .next r') : Keeps W Q L r' := by
  rw [execK4Period.eq_def] at e
  injection e with e
  rw [← e]
  repeat' with_reducible (first | assumption | refine ite_keeps ?_ ?_ | refine foldPlant_keeps (hk := ?_) .. | refine readCounters_keeps (hk := ?_) .. | refine countSecond_keeps (hk := ?_) ..)

theorem execEnckeIntervalClose_keeps (s : State) (hk : Keeps W Q L s) (r' : State) (e : execEnckeIntervalClose s = .next r') : Keeps W Q L r' := by
  rw [execEnckeIntervalClose.eq_def] at e
  injection e with e
  rw [← e]
  repeat' with_reducible (first | assumption | exact Keeps.of (by assumption) | refine ite_keeps ?_ ?_ | refine Keeps.of (closeCounts_keeps (hk := ?_) ..))

theorem execEnckeRecordWrite_keeps (s : State) (hk : Keeps W Q L s) (r' : State) (e : execEnckeRecordWrite s = .next r') : Keeps W Q L r' := by
  rw [execEnckeRecordWrite.eq_def] at e
  injection e with e
  rw [← e]
  repeat' (first | with_reducible (first | assumption | exact Keeps.of (by assumption) | refine ite_keeps ?_ ?_) | split)

theorem execK0Cycle_keeps (micros : Nat) (memError : Bool) (s : State) (hk : Keeps W Q L s) (r' : State) (e : execK0Cycle micros memError s = .next r') : Keeps W Q L r' := by
  rw [execK0Cycle.eq_def] at e
  injection e with e
  rw [← e]
  repeat' with_reducible (first | assumption | refine ite_keeps ?_ ?_ | refine histAdd_keeps (hk := ?_) .. | refine extAdd_keeps (hk := ?_) .. | refine after_keeps (hk := ?_) .. | refine maskStorms_keeps (hk := ?_) .. | refine kick_keeps (hk := ?_) .. | refine serviceList_keeps (hk := ?_) .. | refine k0Counts_keeps (hk := ?_) ..)

theorem execFaultStormUnmask_keeps (b : Blk) (src : Fin 32) (s : State) (hk : Keeps W Q L s) (r' : State) (e : execFaultStormUnmask b src s = .next r') : Keeps W Q L r' := by
  rw [execFaultStormUnmask.eq_def] at e
  injection e with e
  rw [← e]
  repeat' with_reducible (first | assumption | refine ite_keeps ?_ ?_ | refine Keeps.of (State_updFlt_keeps (hk := ?_) ..))

theorem execStandbyTakeover_keeps (csHash ceHash : BitVec 384) (csAgain : Option (Bool × CsImage)) (ceAgain : Option (BitVec 384)) (loopOk : Bool) (s : State) (hk : Keeps W Q L s) (r' : State) (e : execStandbyTakeover csHash ceHash csAgain ceAgain loopOk s = .next r') : Keeps W Q L r' := by
  rw [execStandbyTakeover.eq_def] at e
  injection e with e
  rw [← e]
  repeat' (first | with_reducible (first | assumption | refine ite_keeps ?_ ?_ | refine rearm_keeps (hk := ?_) .. | refine enterCold_keeps (hk := ?_) .. | refine after_keeps (hk := ?_) .. | refine serviceBlk_keeps (hk := ?_) .. | refine discardK3_keeps (hk := ?_) .. | refine recheckImages_keeps (hk := ?_) .. | refine resumeK1_keeps (hk := ?_) .. | refine foldl_keeps _ ?_ _ _ ?_ | refine Keeps.of (State_updIsland_keeps (hk := ?_) ..)) | (intro _ _ _ e _; subst e; (try simp only [])))

theorem execDictRead_keeps (loc : Option (Principal × DictReq)) (s : State) (hk : Keeps W Q (LimIf W) s) (r' : State) (e : execDictRead loc s = .next r') : Keeps W Q (LimIf W) r' := by
  rw [execDictRead.eq_def] at e
  injection e with e
  rw [← e]
  repeat' (first | with_reducible (first | assumption | refine dictAnswered_keeps (hk := ?_) .. | refine serveK3_keeps (hk := ?_) ..) | split)

theorem execDictWrite_keeps (loc : Option (Principal × DictReq)) (s : State) (hk : Keeps W Q (LimIf W) s) (r' : State) (e : execDictWrite loc s = .next r') : Keeps W Q (LimIf W) r' := by
  rw [execDictWrite.eq_def] at e
  injection e with e
  rw [← e]
  repeat' (first | with_reducible (first | assumption | refine dictAnswered_keeps (hk := ?_) .. | refine serveK3_keeps (hk := ?_) ..) | split)

theorem execProvingRunPu_keeps (p : Principal) (n : BitVec 8) (s : State) (hk : Keeps W Q (LimIf W) s) (r' : State) (e : execProvingRunPu p n s = .next r') : Keeps W Q (LimIf W) r' := by
  rw [execProvingRunPu.eq_def] at e
  injection e with e
  rw [← e]
  repeat' with_reducible (first | assumption | refine dictAnswered_keeps (hk := ?_) ..)

theorem execProvingRunCe_keeps (p : Principal) (n : BitVec 8) (s : State) (hk : Keeps W Q (LimIf W) s) (r' : State) (e : execProvingRunCe p n s = .next r') : Keeps W Q (LimIf W) r' := by
  rw [execProvingRunCe.eq_def] at e
  injection e with e
  rw [← e]
  repeat' with_reducible (first | assumption | refine dictAnswered_keeps (hk := ?_) ..)

theorem execProvingRunDeimos_keeps (p : Principal) (v : BitVec 8) (s : State) (hk : Keeps W Q (LimIf W) s) (r' : State) (e : execProvingRunDeimos p v s = .next r') : Keeps W Q (LimIf W) r' := by
  rw [execProvingRunDeimos.eq_def] at e
  injection e with e
  rw [← e]
  repeat' with_reducible (first | assumption | refine dictAnswered_keeps (hk := ?_) ..)

theorem execApplyBusRates_keeps (p : Principal) (v : BitVec 8) (s : State) (hk : Keeps W Q (LimIf W) s) (r' : State) (e : execApplyBusRates p v s = .next r') : Keeps W Q (LimIf W) r' := by
  rw [execApplyBusRates.eq_def] at e
  injection e with e
  rw [← e]
  repeat' with_reducible (first | assumption | refine dictAnswered_keeps (hk := ?_) ..)

theorem execAbandonHeldExchanges_keeps (p : Principal) (z : BitVec 8) (s : State) (hk : Keeps W Q (LimIf W) s) (r' : State) (e : execAbandonHeldExchanges p z s = .next r') : Keeps W Q (LimIf W) r' := by
  rw [execAbandonHeldExchanges.eq_def] at e
  injection e with e
  rw [← e]
  repeat' with_reducible (first | assumption | refine dictAnswered_keeps (hk := ?_) ..)

theorem execClearInDoubt_keeps (p : Principal) (v : BitVec 8) (s : State) (hk : Keeps W Q (LimIf W) s) (r' : State) (e : execClearInDoubt p v s = .next r') : Keeps W Q (LimIf W) r' := by
  rw [execClearInDoubt.eq_def] at e
  injection e with e
  rw [← e]
  repeat' with_reducible (first | assumption | refine dictAnswered_keeps (hk := ?_) ..)

theorem execMasterKeyEnrolment_keeps (p : Principal) (z : BitVec 8) (fused : Bool) (s : State) (hk : Keeps W Q (LimIf W) s) (r' : State) (e : execMasterKeyEnrolment p z fused s = .next r') : Keeps W Q (LimIf W) r' := by
  rw [execMasterKeyEnrolment.eq_def] at e
  injection e with e
  rw [← e]
  repeat' (first | with_reducible (first | assumption | refine enrolKey_keeps (hk := ?_) .. | refine limWrite_keeps (hk := ?_) (hf := ?_) ..) | intro _)

theorem execZoneCountChange_keeps (p : Principal) (v : BitVec 8) (fused : Bool) (s : State) (hk : Keeps W Q (LimIf W) s) (r' : State) (e : execZoneCountChange p v fused s = .next r') : Keeps W Q (LimIf W) r' := by
  rw [execZoneCountChange.eq_def] at e
  injection e with e
  rw [← e]
  repeat' (first | with_reducible (first | assumption | refine setZc_keeps (hk := ?_) .. | refine limWrite_keeps (hk := ?_) (hf := ?_) ..) | intro _)

theorem execMaxCommitSizeChange_keeps (p : Principal) (v : BitVec 8) (fused : Bool) (s : State) (hk : Keeps W Q (LimIf W) s) (r' : State) (e : execMaxCommitSizeChange p v fused s = .next r') : Keeps W Q (LimIf W) r' := by
  rw [execMaxCommitSizeChange.eq_def] at e
  injection e with e
  rw [← e]
  repeat' (first | with_reducible (first | assumption | refine setMaxCommit_keeps (hk := ?_) .. | refine limWrite_keeps (hk := ?_) (hf := ?_) ..) | intro _)

theorem execSigningRootChange_keeps (p : Principal) (root : BitVec 384) (fused : Bool) (s : State) (hk : Keeps W Q (LimIf W) s) (r' : State) (e : execSigningRootChange p root fused s = .next r') : Keeps W Q (LimIf W) r' := by
  rw [execSigningRootChange.eq_def] at e
  injection e with e
  rw [← e]
  repeat' (first | with_reducible (first | assumption | refine setRoot_keeps (hk := ?_) .. | refine limWrite_keeps (hk := ?_) (hf := ?_) ..) | intro _)

theorem execDiscover_keeps (f : CanFrame) (s : State) (hk : Keeps W Q L s) (r' : State) (e : execDiscover f s = .next r') : Keeps W Q L r' := by
  rw [execDiscover.eq_def] at e
  injection e with e
  rw [← e]
  repeat' with_reducible (first | assumption | exact Keeps.of (by assumption) | refine ite_keeps ?_ ?_)

theorem execReadReq_keeps (f : CanFrame) (s : State) (hk : Keeps W Q L s) (r' : State) (e : execReadReq f s = .next r') : Keeps W Q L r' := by
  rw [execReadReq.eq_def] at e
  injection e with e
  rw [← e]
  repeat' with_reducible (first | assumption | refine ite_keeps ?_ ?_ | refine dropXfer_keeps (hk := ?_) .. | refine countRefusal_keeps (hk := ?_) .. | refine readRsp_keeps (hk := ?_) .. | refine queueXfer_keeps (hk := ?_) ..)

theorem execWriteReq_keeps (f : CanFrame) (s : State) (hk : Keeps W Q L s) (r' : State) (e : execWriteReq f s = .next r') : Keeps W Q L r' := by
  rw [execWriteReq.eq_def] at e
  injection e with e
  rw [← e]
  repeat' with_reducible (first | assumption | refine ite_keeps ?_ ?_ | refine dropXfer_keeps (hk := ?_) .. | refine writeRsp_keeps (hk := ?_) .. | refine countRefusal_keeps (hk := ?_) .. | refine setXfer_keeps (hk := ?_) .. | refine queueXfer_keeps (hk := ?_) ..)

theorem execSegReq_keeps (f : CanFrame) (s : State) (hk : Keeps W Q L s) (r' : State) (e : execSegReq f s = .next r') : Keeps W Q L r' := by
  rw [execSegReq.eq_def] at e
  injection e with e
  rw [← e]
  repeat' (first | with_reducible (first | assumption | refine ite_keeps ?_ ?_ | refine canSend_keeps (hk := ?_) .. | refine dropXfer_keeps (hk := ?_) .. | refine setXfer_keeps (hk := ?_) .. | refine sendAbort_keeps (hk := ?_) ..) | split)

theorem execWriteSeg_keeps (f : CanFrame) (s : State) (hk : Keeps W Q (LimIf W) s) (r' : State) (e : execWriteSeg f s = .next r') : Keeps W Q (LimIf W) r' := by
  rw [execWriteSeg.eq_def] at e
  injection e with e
  rw [← e]
  repeat' (first | with_reducible (first | assumption | refine ite_keeps ?_ ?_ | refine canSend_keeps (hk := ?_) .. | refine dropXfer_keeps (hk := ?_) .. | refine writeRsp_keeps (hk := ?_) .. | refine setXfer_keeps (hk := ?_) .. | refine sendAbort_keeps (hk := ?_) .. | refine finishWrite_keeps (hk := ?_) ..) | split)

theorem execAbort_keeps (f : CanFrame) (s : State) (hk : Keeps W Q L s) (r' : State) (e : execAbort f s = .next r') : Keeps W Q L r' := by
  rw [execAbort.eq_def] at e
  injection e with e
  rw [← e]
  repeat' with_reducible (first | assumption | refine ite_keeps ?_ ?_ | refine dropXfer_keeps (hk := ?_) ..)

theorem execTransferTimeout_keeps (busB : Bool) (client : BitVec 7) (s : State) (hk : Keeps W Q L s) (r' : State) (e : execTransferTimeout busB client s = .next r') : Keeps W Q L r' := by
  rw [execTransferTimeout.eq_def] at e
  injection e with e
  rw [← e]
  repeat' (first | with_reducible (first | assumption | refine ite_keeps ?_ ?_ | refine sendAbort_keeps (hk := ?_) ..) | split)

theorem execHeartbeat_keeps (s : State) (hk : Keeps W Q L s) (r' : State) (e : execHeartbeat s = .next r') : Keeps W Q L r' := by
  rw [execHeartbeat.eq_def] at e
  injection e with e
  rw [← e]
  repeat' with_reducible (first | assumption | exact Keeps.of (by assumption) | refine ite_keeps ?_ ?_ | refine canBroadcast_keeps (hk := ?_) ..)

theorem execTime_keeps (f : CanFrame) (s : State) (hk : Keeps W Q L s) (r' : State) (e : execTime f s = .next r') : Keeps W Q L r' := by
  rw [execTime.eq_def] at e
  injection e with e
  rw [← e]
  repeat' with_reducible (first | assumption | exact Keeps.of (by assumption) | refine ite_keeps ?_ ?_)

theorem execBusOffRecovery_keeps (busB : Bool) (s : State) (hk : Keeps W Q L s) (r' : State) (e : execBusOffRecovery busB s = .next r') : Keeps W Q L r' := by
  rw [execBusOffRecovery.eq_def] at e
  injection e with e
  rw [← e]
  repeat' with_reducible (first | assumption | exact Keeps.of (by assumption) | refine ite_keeps ?_ ?_)

theorem execTimeRefLoss_keeps (s : State) (hk : Keeps W Q L s) (r' : State) (e : execTimeRefLoss s = .next r') : Keeps W Q L r' := by
  rw [execTimeRefLoss.eq_def] at e
  injection e with e
  rw [← e]
  repeat' with_reducible (first | assumption | exact Keeps.of (by assumption) | refine ite_keeps ?_ ?_ | refine latch_keeps (hk := ?_) ..)

theorem execTimeRefReturn_keeps (s : State) (hk : Keeps W Q L s) (r' : State) (e : execTimeRefReturn s = .next r') : Keeps W Q L r' := by
  rw [execTimeRefReturn.eq_def] at e
  injection e with e
  rw [← e]
  repeat' with_reducible (first | assumption | exact Keeps.of (by assumption) | refine ite_keeps ?_ ?_)

theorem execTapBypass_keeps (s : State) (hk : Keeps W Q L s) (r' : State) (e : execTapBypass s = .next r') : Keeps W Q L r' := by
  rw [execTapBypass.eq_def] at e
  injection e with e
  rw [← e]
  repeat' with_reducible (first | assumption | refine loadTap_keeps (hk := ?_) ..)

theorem execTapIdcode_keeps (s : State) (hk : Keeps W Q L s) (r' : State) (e : execTapIdcode s = .next r') : Keeps W Q L r' := by
  rw [execTapIdcode.eq_def] at e
  injection e with e
  rw [← e]
  repeat' with_reducible (first | assumption | refine ite_keeps ?_ ?_ | refine Keeps.of (loadTap_keeps (hk := ?_) ..))

theorem execTapSamplePreload_keeps (s : State) (hk : Keeps W Q L s) (r' : State) (e : execTapSamplePreload s = .next r') : Keeps W Q L r' := by
  rw [execTapSamplePreload.eq_def] at e
  injection e with e
  rw [← e]
  repeat' with_reducible (first | assumption | refine loadTap_keeps (hk := ?_) ..)

theorem execTapExtest_keeps (s : State) (hk : Keeps W Q L s) (r' : State) (e : execTapExtest s = .next r') : Keeps W Q L r' := by
  rw [execTapExtest.eq_def] at e
  injection e with e
  rw [← e]
  repeat' with_reducible (first | assumption | refine loadTap_keeps (hk := ?_) ..)

theorem execTapClamp_keeps (s : State) (hk : Keeps W Q L s) (r' : State) (e : execTapClamp s = .next r') : Keeps W Q L r' := by
  rw [execTapClamp.eq_def] at e
  injection e with e
  rw [← e]
  repeat' with_reducible (first | assumption | refine loadTap_keeps (hk := ?_) ..)

theorem execZrstDrainLimit_keeps (z : Fin 16) (s : State) (hk : Keeps W Q L s) (r' : State) (e : execZrstDrainLimit z s = .next r') : Keeps W Q L r' := by
  rw [execZrstDrainLimit.eq_def] at e
  injection e with e
  rw [← e]
  repeat' (first | with_reducible (first | assumption | refine ite_keeps ?_ ?_ | refine State_updPu_keeps (hk := ?_) .. | refine State_updZone_keeps (hk := ?_) .. | refine lcCommand_keeps (hk := ?_) .. | refine after_keeps (hk := ?_) .. | refine zrstLoss_keeps (hk := ?_) .. | refine foldl_keeps _ ?_ _ _ ?_) | (intro _ _ _ e _; subst e; (try simp only [])))

theorem execZoneQuiesce_keeps (z : Fin 16) (s : State) (hk : Keeps W Q L s) (r' : State) (e : execZoneQuiesce z s = .next r') : Keeps W Q L r' := by
  rw [execZoneQuiesce.eq_def] at e
  injection e with e
  rw [← e]
  repeat' with_reducible (first | assumption | refine ite_keeps ?_ ?_ | refine State_updZone_keeps (hk := ?_) .. | refine standBy_keeps (hk := ?_) .. | refine Keeps.of (arbOut_keeps (hk := ?_) ..))

end Sys2Proof.Machine
end

