-- ==== Sys2Proof/Laws/KeepsStep.lean ====
section
/-! SUPPORT. Keeps of exec and of step. -/

set_option Elab.async false

namespace Sys2Proof.Machine

variable {W : Prop} {Q : List Instr} {L : Limited → Prop}

/-- Whatever a command does, it keeps the queue's rest as it was, the limited-change record legal and both memories canonical. -/

theorem exec_keeps (i : Instr) (s : State) (hk : Keeps W Q (LimIf W) s) (r' : State) (he : exec i s = .next r') : Keeps W Q (LimIf W) r' := by
  match i, he with
  | .add h o, he => exact execAdd_keeps h o s hk r' he
  | .sub h o, he => exact execSub_keeps h o s hk r' he
  | .adc h o, he => exact execAdc_keeps h o s hk r' he
  | .sbc h o, he => exact execSbc_keeps h o s hk r' he
  | .and h o, he => exact execAnd_keeps h o s hk r' he
  | .or h o, he => exact execOr_keeps h o s hk r' he
  | .xor h o, he => exact execXor_keeps h o s hk r' he
  | .andn h o, he => exact execAndn_keeps h o s hk r' he
  | .shl h o, he => exact execShl_keeps h o s hk r' he
  | .shr h o, he => exact execShr_keeps h o s hk r' he
  | .sar h o, he => exact execSar_keeps h o s hk r' he
  | .rol h o, he => exact execRol_keeps h o s hk r' he
  | .ror h o, he => exact execRor_keeps h o s hk r' he
  | .cmp h a b q, he => exact execCmp_keeps h a b q s hk r' he
  | .cmpu h a b q, he => exact execCmpu_keeps h a b q s hk r' he
  | .mov h o, he => exact execMov_keeps h o s hk r' he
  | .min h o, he => exact execMin_keeps h o s hk r' he
  | .max h o, he => exact execMax_keeps h o s hk r' he
  | .minu h o, he => exact execMinu_keeps h o s hk r' he
  | .maxu h o, he => exact execMaxu_keeps h o s hk r' he
  | .clz h o, he => exact execClz_keeps h o s hk r' he
  | .ctz h o, he => exact execCtz_keeps h o s hk r' he
  | .popc h o, he => exact execPopc_keeps h o s hk r' he
  | .bswap h o, he => exact execBswap_keeps h o s hk r' he
  | .sextB h o, he => exact execSextB_keeps h o s hk r' he
  | .sextH h o, he => exact execSextH_keeps h o s hk r' he
  | .sextW h o, he => exact execSextW_keeps h o s hk r' he
  | .zextW h o, he => exact execZextW_keeps h o s hk r' he
  | .mul h o, he => exact execMul_keeps h o s hk r' he
  | .mulw h o, he => exact execMulw_keeps h o s hk r' he
  | .mulwu h o, he => exact execMulwu_keeps h o s hk r' he
  | .sdiv h o, he => exact execSdiv_keeps h o s hk r' he
  | .udiv h o, he => exact execUdiv_keeps h o s hk r' he
  | .srem h o, he => exact execSrem_keeps h o s hk r' he
  | .urem h o, he => exact execUrem_keeps h o s hk r' he
  | .addi h o, he => exact execAddi_keeps h o s hk r' he
  | .andi h o, he => exact execAndi_keeps h o s hk r' he
  | .ori h o, he => exact execOri_keeps h o s hk r' he
  | .xori h o, he => exact execXori_keeps h o s hk r' he
  | .cmpi h a imm, he => exact execCmpi_keeps h a imm s hk r' he
  | .cmpui h a imm, he => exact execCmpui_keeps h a imm s hk r' he
  | .shiShl h d a n, he => exact execShiShl_keeps h d a n s hk r' he
  | .shiShr h d a n, he => exact execShiShr_keeps h d a n s hk r' he
  | .shiSar h d a n, he => exact execShiSar_keeps h d a n s hk r' he
  | .shiRol h d a n, he => exact execShiRol_keeps h d a n s hk r' he
  | .movi h d imm, he => exact execMovi_keeps h d imm s hk r' he
  | .ldB h o, he => exact execLdB_keeps h o s hk r' he
  | .ldH h o, he => exact execLdH_keeps h o s hk r' he
  | .ldW h o, he => exact execLdW_keeps h o s hk r' he
  | .ldD h o, he => exact execLdD_keeps h o s hk r' he
  | .ldsB h o, he => exact execLdsB_keeps h o s hk r' he
  | .ldsH h o, he => exact execLdsH_keeps h o s hk r' he
  | .ldsW h o, he => exact execLdsW_keeps h o s hk r' he
  | .stB h o, he => exact execStB_keeps h o s hk r' he
  | .stH h o, he => exact execStH_keeps h o s hk r' he
  | .stW h o, he => exact execStW_keeps h o s hk r' he
  | .stD h o, he => exact execStD_keeps h o s hk r' he
  | .ldx h o, he => exact execLdx_keeps h o s hk r' he
  | .ldsx h o, he => exact execLdsx_keeps h o s hk r' he
  | .stx h o, he => exact execStx_keeps h o s hk r' he
  | .ldfS h o, he => exact execLdfS_keeps h o s hk r' he
  | .ldfD h o, he => exact execLdfD_keeps h o s hk r' he
  | .ldfQ h o, he => exact execLdfQ_keeps h o s hk r' he
  | .stfS h o, he => exact execStfS_keeps h o s hk r' he
  | .stfD h o, he => exact execStfD_keeps h o s hk r' he
  | .stfQ h o, he => exact execStfQ_keeps h o s hk r' he
  | .ldfx h o, he => exact execLdfx_keeps h o s hk r' he
  | .stfx h o, he => exact execStfx_keeps h o s hk r' he
  | .b h disp, he => exact execB_keeps h disp s hk r' he
  | .bl h disp, he => exact execBl_keeps h disp s hk r' he
  | .br h b, he => exact execBr_keeps h b s hk r' he
  | .blr h b, he => exact execBlr_keeps h b s hk r' he
  | .ret h, he => exact execRet_keeps h s hk r' he
  | .callm h b mask, he => exact execCallm_keeps h b mask s hk r' he
  | .retm h mask, he => exact execRetm_keeps h mask s hk r' he
  | .mfs h g sn, he => exact execMfs_keeps h g sn s hk r' he
  | .mts h g sn, he => exact execMts_keeps h g sn s hk r' he
  | .faddD h d a b, he => exact execFaddD_keeps h d a b s hk r' he
  | .fsubD h d a b, he => exact execFsubD_keeps h d a b s hk r' he
  | .fmulD h d a b, he => exact execFmulD_keeps h d a b s hk r' he
  | .fdivD h d a b, he => exact execFdivD_keeps h d a b s hk r' he
  | .fsqrtD h d a, he => exact execFsqrtD_keeps h d a s hk r' he
  | .fcmpD h a b, he => exact execFcmpD_keeps h a b s hk r' he
  | .fminD h d a b, he => exact execFminD_keeps h d a b s hk r' he
  | .fmaxD h d a b, he => exact execFmaxD_keeps h d a b s hk r' he
  | .faddS h d a b, he => exact execFaddS_keeps h d a b s hk r' he
  | .fsubS h d a b, he => exact execFsubS_keeps h d a b s hk r' he
  | .fmulS h d a b, he => exact execFmulS_keeps h d a b s hk r' he
  | .fdivS h d a b, he => exact execFdivS_keeps h d a b s hk r' he
  | .fsqrtS h d a, he => exact execFsqrtS_keeps h d a s hk r' he
  | .fcmpS h a b, he => exact execFcmpS_keeps h a b s hk r' he
  | .fminS h d a b, he => exact execFminS_keeps h d a b s hk r' he
  | .fmaxS h d a b, he => exact execFmaxS_keeps h d a b s hk r' he
  | .fcvtSD h d a, he => exact execFcvtSD_keeps h d a s hk r' he
  | .fcvtDS h d a, he => exact execFcvtDS_keeps h d a s hk r' he
  | .fcvtGD h d a, he => exact execFcvtGD_keeps h d a s hk r' he
  | .fcvtDG h d a, he => exact execFcvtDG_keeps h d a s hk r' he
  | .fmov h d a, he => exact execFmov_keeps h d a s hk r' he
  | .fneg h d a, he => exact execFneg_keeps h d a s hk r' he
  | .fabs h d a, he => exact execFabs_keeps h d a s hk r' he
  | .fmvGF h d a, he => exact execFmvGF_keeps h d a s hk r' he
  | .fmvFG h d a, he => exact execFmvFG_keeps h d a s hk r' he
  | .fmaddD h o, he => exact execFmaddD_keeps h o s hk r' he
  | .fmsubD h o, he => exact execFmsubD_keeps h o s hk r' he
  | .fnmaddD h o, he => exact execFnmaddD_keeps h o s hk r' he
  | .fnmsubD h o, he => exact execFnmsubD_keeps h o s hk r' he
  | .dadd h d a b, he => exact execDadd_keeps h d a b s hk r' he
  | .dsub h d a b, he => exact execDsub_keeps h d a b s hk r' he
  | .dmul h d a b, he => exact execDmul_keeps h d a b s hk r' he
  | .ddiv h d a b, he => exact execDdiv_keeps h d a b s hk r' he
  | .dqua h d a b, he => exact execDqua_keeps h d a b s hk r' he
  | .dcmp h a b, he => exact execDcmp_keeps h a b s hk r' he
  | .d2s h d a b, he => exact execD2s_keeps h d a b s hk r' he
  | .s2d h d a b, he => exact execS2d_keeps h d a b s hk r' he
  | .dcvt12864 h d a, he => exact execDcvt12864_keeps h d a s hk r' he
  | .dcvt64128 h d a, he => exact execDcvt64128_keeps h d a s hk r' he
  | .dadd64 h d a b, he => exact execDadd64_keeps h d a b s hk r' he
  | .dsub64 h d a b, he => exact execDsub64_keeps h d a b s hk r' he
  | .dmul64 h d a b, he => exact execDmul64_keeps h d a b s hk r' he
  | .ddiv64 h d a b, he => exact execDdiv64_keeps h d a b s hk r' he
  | .dqua64 h d a b, he => exact execDqua64_keeps h d a b s hk r' he
  | .dcmp64 h a b, he => exact execDcmp64_keeps h a b s hk r' he
  | .lresD h d a, he => exact execLresD_keeps h d a s hk r' he
  | .scondD h d a b, he => exact execScondD_keeps h d a b s hk r' he
  | .lresW h d a, he => exact execLresW_keeps h d a s hk r' he
  | .scondW h d a b, he => exact execScondW_keeps h d a b s hk r' he
  | .amoSwp h d a b, he => exact execAmoSwp_keeps h d a b s hk r' he
  | .amoAdd h d a b, he => exact execAmoAdd_keeps h d a b s hk r' he
  | .amoAnd h d a b, he => exact execAmoAnd_keeps h d a b s hk r' he
  | .amoOr h d a b, he => exact execAmoOr_keeps h d a b s hk r' he
  | .amoXor h d a b, he => exact execAmoXor_keeps h d a b s hk r' he
  | .amoMax h d a b, he => exact execAmoMax_keeps h d a b s hk r' he
  | .amoMin h d a b, he => exact execAmoMin_keeps h d a b s hk r' he
  | .amoMaxu h d a b, he => exact execAmoMaxu_keeps h d a b s hk r' he
  | .amoMinu h d a b, he => exact execAmoMinu_keeps h d a b s hk r' he
  | .cas h d a b, he => exact execCas_keeps h d a b s hk r' he
  | .cas2 h d a b, he => exact execCas2_keeps h d a b s hk r' he
  | .fenceLL h, he => exact execFenceLL_keeps h s hk r' he
  | .fenceLS h, he => exact execFenceLS_keeps h s hk r' he
  | .fenceSL h, he => exact execFenceSL_keeps h s hk r' he
  | .fenceSS h, he => exact execFenceSS_keeps h s hk r' he
  | .fenceAll h, he => exact execFenceAll_keeps h s hk r' he
  | .syncEp h, he => exact execSyncEp_keeps h s hk r' he
  | .syncEpComplete pu th, he => exact execSyncEpComplete_keeps pu th s hk r' he
  | .clnL h a, he => exact execClnL_keeps h a s hk r' he
  | .invL h a, he => exact execInvL_keeps h a s hk r' he
  | .cliL h a, he => exact execCliL_keeps h a s hk r' he
  | .dzl h a, he => exact execDzl_keeps h a s hk r' he
  | .cmrCln h a b, he => exact execCmrCln_keeps h a b s hk r' he
  | .cmrCli h a b, he => exact execCmrCli_keeps h a b s hk r' he
  | .cmrInv h a b, he => exact execCmrInv_keeps h a b s hk r' he
  | .lockwLock h d a b, he => exact execLockwLock_keeps h d a b s hk r' he
  | .lockwUnlock h d a b, he => exact execLockwUnlock_keeps h d a b s hk r' he
  | .lockwUnlockSet h d a b, he => exact execLockwUnlockSet_keeps h d a b s hk r' he
  | .tlbiAddr h loc a b, he => exact execTlbiAddr_keeps h loc a b s hk r' he
  | .tlbiAddrAll h loc a b, he => exact execTlbiAddrAll_keeps h loc a b s hk r' he
  | .tlbiCtx h loc a b, he => exact execTlbiCtx_keeps h loc a b s hk r' he
  | .tlbiAll h loc a b, he => exact execTlbiAll_keeps h loc a b s hk r' he
  | .tlbiDelivery pu, he => exact execTlbiDelivery_keeps pu s hk r' he
  | .tlbiTimeout pu, he => exact execTlbiTimeout_keeps pu s hk r' he
  | .txopen h d, he => exact execTxopen_keeps h d s hk r' he
  | .txopenB h d, he => exact execTxopenB_keeps h d s hk r' he
  | .txclose h d, he => exact execTxclose_keeps h d s hk r' he
  | .txdrop h a, he => exact execTxdrop_keeps h a s hk r' he
  | .eret h, he => exact execEret_keeps h s hk r' he
  | .svc h a b, he => exact execSvc_keeps h a b s hk r' he
  | .wait h, he => exact execWait_keeps h s hk r' he
  | .waitWake pu th, he => exact execWaitWake_keeps pu th s hk r' he
  | .brk h, he => exact execBrk_keeps h s hk r' he
  | .nop h, he => exact execNop_keeps h s hk r' he
  | .xstart h d a b, he => exact execXstart_keeps h d a b s hk r' he
  | .crq h d a, he => exact execCrq_keeps h d a s hk r' he
  | .dfq h d a, he => exact execDfq_keeps h d a s hk r' he
  | .ioaAcknowledge pu th, he => exact execIoaAcknowledge_keeps pu th s hk r' he
  | .aese h d a b, he => exact execAese_keeps h d a b s hk r' he
  | .aesd h d a b, he => exact execAesd_keeps h d a b s hk r' he
  | .aesmc h d a b, he => exact execAesmc_keeps h d a b s hk r' he
  | .aesimc h d a b, he => exact execAesimc_keeps h d a b s hk r' he
  | .clmul h d a b, he => exact execClmul_keeps h d a b s hk r' he
  | .clmulh h d a b, he => exact execClmulh_keeps h d a b s hk r' he
  | .sha256r h d a b, he => exact execSha256r_keeps h d a b s hk r' he
  | .sha512r h d a b, he => exact execSha512r_keeps h d a b s hk r' he
  | .liL h d imm, he => exact execLiL_keeps h d imm s hk r' he
  | .liH h d imm, he => exact execLiH_keeps h d imm s hk r' he
  | .addiW h o, he => exact execAddiW_keeps h o s hk r' he
  | .andiW h o, he => exact execAndiW_keeps h o s hk r' he
  | .oriW h o, he => exact execOriW_keeps h o s hk r' he
  | .xoriW h o, he => exact execXoriW_keeps h o s hk r' he
  | .cmpiW h a imm, he => exact execCmpiW_keeps h a imm s hk r' he
  | .cmpuiW h a imm, he => exact execCmpuiW_keeps h a imm s hk r' he
  | .bW h imm, he => exact execBW_keeps h imm s hk r' he
  | .blW h imm, he => exact execBlW_keeps h imm s hk r' he
  | .vauxInTolerance straps, he => exact execVauxInTolerance_keeps straps s hk r' he
  | .vauxLoss, he => exact execVauxLoss_keeps s hk r' he
  | .bootImageCheck slotB verifies ver, he => exact execBootImageCheck_keeps slotB verifies ver s hk r' he
  | .bootRecoveryImageWrite verifies ver, he => exact execBootRecoveryImageWrite_keeps verifies ver s hk r' he
  | .modeRequestCold p, he => exact execModeRequestCold_keeps p s hk r' he
  | .modeRequestProvision p, he => exact execModeRequestProvision_keeps p s hk r' he
  | .modeRequestRun p, he => exact execModeRequestRun_keeps p s hk r' he
  | .modeRequestService p, he => exact execModeRequestService_keeps p s hk r' he
  | .modeRequestQuiesce p, he => exact execModeRequestQuiesce_keeps p s hk r' he
  | .railSequenceTimeout, he => exact execRailSequenceTimeout_keeps s hk r' he
  | .mainPgRise onB keysOk, he => exact execMainPgRise_keeps onB keysOk s hk r' he
  | .mainPowerGoodLost, he => exact execMainPowerGoodLost_keeps s hk r' he
  | .pfwNLow, he => exact execPfwNLow_keeps s hk r' he
  | .pfwNHigh, he => exact execPfwNHigh_keeps s hk r' he
  | .pfwNCountAsserted, he => exact execPfwNCountAsserted_keeps s hk r' he
  | .drainSnapshot, he => exact execDrainSnapshot_keeps s hk r' he
  | .drainFinished, he => exact execDrainFinished_keeps s hk r' he
  | .busBelowDrainThreshold, he => exact execBusBelowDrainThreshold_keeps s hk r' he
  | .holdupRepowerHoldExpiry, he => exact execHoldupRepowerHoldExpiry_keeps s hk r' he
  | .provisioningComplete p, he => exact execProvisioningComplete_keeps p s hk r' he
  | .m1TimeLimit unfinished p, he => exact execM1TimeLimit_keeps unfinished p s hk r' he
  | .dramInitComplete, he => exact execDramInitComplete_keeps s hk r' he
  | .restoreComplete badBlocks badIndexes, he => exact execRestoreComplete_keeps badBlocks badIndexes s hk r' he
  | .serviceSessionTimeout, he => exact execServiceSessionTimeout_keeps s hk r' he
  | .checkstopLineAsserted b src inst info, he => exact execCheckstopLineAsserted_keeps b src inst info s hk r' he
  | .salvageDrainComplete, he => exact execSalvageDrainComplete_keeps s hk r' he
  | .orderlyDrainComplete, he => exact execOrderlyDrainComplete_keeps s hk r' he
  | .refclkLoss b, he => exact execRefclkLoss_keeps b s hk r' he
  | .lcEnable f a w, he => exact execLcEnable_keeps f a w s hk r' he
  | .lcDisable f a w, he => exact execLcDisable_keeps f a w s hk r' he
  | .lcUnfence f a w, he => exact execLcUnfence_keeps f a w s hk r' he
  | .lcStartComplete f fail, he => exact execLcStartComplete_keeps f fail s hk r' he
  | .lcStopComplete f, he => exact execLcStopComplete_keeps f s hk r' he
  | .lcTimeout f, he => exact execLcTimeout_keeps f s hk r' he
  | .registerWrite a addr size v, he => exact execRegisterWrite_keeps a addr size v s hk r' he
  | .rcRead a addr size, he => exact execRcRead_keeps a addr size s hk r' he
  | .fstatClear b a, he => exact execFstatClear_keeps b a s hk r' he
  | .fovfClear b a, he => exact execFovfClear_keeps b a s hk r' he
  | .atLockSet t a, he => exact execAtLockSet_keeps t a s hk r' he
  | .atLogClear t a, he => exact execAtLogClear_keeps t a s hk r' he
  | .aliveRearm a mask, he => exact execAliveRearm_keeps a mask s hk r' he
  | .aliveRejClear a mask, he => exact execAliveRejClear_keeps a mask s hk r' he
  | .holdupTest a, he => exact execHoldupTest_keeps a s hk r' he
  | .chkstopTest a, he => exact execChkstopTest_keeps a s hk r' he
  | .privPulseEnd holdup, he => exact execPrivPulseEnd_keeps holdup s hk r' he
  | .wdogKick n a v, he => exact execWdogKick_keeps n a v s hk r' he
  | .watchdogExpiry, he => exact execWatchdogExpiry_keeps s hk r' he
  | .standbyTakeover csHash ceHash csAgain ceAgain loopOk, he => exact execStandbyTakeover_keeps csHash ceHash csAgain ceAgain loopOk s hk r' he
  | .k0Cycle micros memError, he => exact execK0Cycle_keeps micros memError s hk r' he
  | .faultStormUnmask b src, he => exact execFaultStormUnmask_keeps b src s hk r' he
  | .k1ThermalIteration hottest, he => exact execK1ThermalIteration_keeps hottest s hk r' he
  | .thermalCeilingStep lower, he => exact execThermalCeilingStep_keeps lower s hk r' he
  | .valveDeviation, he => exact execValveDeviation_keeps s hk r' he
  | .adcSample uv powerW fault, he => exact execAdcSample_keeps uv powerW fault s hk r' he
  | .powerLimitRestore, he => exact execPowerLimitRestore_keeps s hk r' he
  | .commitBudgetUpdate, he => exact execCommitBudgetUpdate_keeps s hk r' he
  | .storeRechargeTest, he => exact execStoreRechargeTest_keeps s hk r' he
  | .storeRechargeTestEnd, he => exact execStoreRechargeTestEnd_keeps s hk r' he
  | .storeFltNAssert, he => exact execStoreFltNAssert_keeps s hk r' he
  | .storeFltNNegate, he => exact execStoreFltNNegate_keeps s hk r' he
  | .frozenClear a, he => exact execFrozenClear_keeps a s hk r' he
  | .commitGrantRequest a block, he => exact execCommitGrantRequest_keeps a block s hk r' he
  | .openRecordWritten, he => exact execOpenRecordWritten_keeps s hk r' he
  | .blockRecordWritten, he => exact execBlockRecordWritten_keeps s hk r' he
  | .flashChannelFailure ch, he => exact execFlashChannelFailure_keeps ch s hk r' he
  | .enckeIntervalClose, he => exact execEnckeIntervalClose_keeps s hk r' he
  | .enckeRecordWrite, he => exact execEnckeRecordWrite_keeps s hk r' he
  | .heartbeat, he => exact execHeartbeat_keeps s hk r' he
  | .dictRead loc, he => exact execDictRead_keeps loc s hk r' he
  | .dictWrite loc, he => exact execDictWrite_keeps loc s hk r' he
  | .dwGoRead z a index sub offset, he => exact execDwGoRead_keeps z a index sub offset s hk r' he
  | .dwGoWrite z a index sub len offset, he => exact execDwGoWrite_keeps z a index sub len offset s hk r' he
  | .provingRunPu p n, he => exact execProvingRunPu_keeps p n s hk r' he
  | .provingRunCe p n, he => exact execProvingRunCe_keeps p n s hk r' he
  | .provingRunDeimos p v, he => exact execProvingRunDeimos_keeps p v s hk r' he
  | .provingRunComplete ce n failLanes pass, he => exact execProvingRunComplete_keeps ce n failLanes pass s hk r' he
  | .applyBusRates p v, he => exact execApplyBusRates_keeps p v s hk r' he
  | .abandonHeldExchanges p z, he => exact execAbandonHeldExchanges_keeps p z s hk r' he
  | .clearInDoubt p v, he => exact execClearInDoubt_keeps p v s hk r' he
  | .masterKeyEnrolment p z fused, he => exact execMasterKeyEnrolment_keeps p z fused s hk r' he
  | .zoneCountChange p v fused, he => exact execZoneCountChange_keeps p v fused s hk r' he
  | .maxCommitSizeChange p v fused, he => exact execMaxCommitSizeChange_keeps p v fused s hk r' he
  | .signingRootChange p root fused, he => exact execSigningRootChange_keeps p root fused s hk r' he
  | .discover f, he => exact execDiscover_keeps f s hk r' he
  | .readReq f, he => exact execReadReq_keeps f s hk r' he
  | .writeReq f, he => exact execWriteReq_keeps f s hk r' he
  | .segReq f, he => exact execSegReq_keeps f s hk r' he
  | .writeSeg f, he => exact execWriteSeg_keeps f s hk r' he
  | .abort f, he => exact execAbort_keeps f s hk r' he
  | .transferTimeout busB client, he => exact execTransferTimeout_keeps busB client s hk r' he
  | .time f, he => exact execTime_keeps f s hk r' he
  | .busOffRecovery busB, he => exact execBusOffRecovery_keeps busB s hk r' he
  | .timeRefLoss, he => exact execTimeRefLoss_keeps s hk r' he
  | .timeRefReturn, he => exact execTimeRefReturn_keeps s hk r' he
  | .debugAttach pu, he => exact execDebugAttach_keeps pu s hk r' he
  | .debugPortRequest a addr, he => exact execDebugPortRequest_keeps a addr s hk r' he
  | .resyncComplete pu failLanes, he => exact execResyncComplete_keeps pu failLanes s hk r' he
  | .tapBypass, he => exact execTapBypass_keeps s hk r' he
  | .tapIdcode, he => exact execTapIdcode_keeps s hk r' he
  | .tapSamplePreload, he => exact execTapSamplePreload_keeps s hk r' he
  | .tapExtest, he => exact execTapExtest_keeps s hk r' he
  | .tapClamp, he => exact execTapClamp_keeps s hk r' he
  | .compareRetire pu c, he => exact execCompareRetire_keeps pu c s hk r' he
  | .retryRestart pu, he => exact execRetryRestart_keeps pu s hk r' he
  | .retryTimeout pu, he => exact execRetryTimeout_keeps pu s hk r' he
  | .retryWindowClose pu, he => exact execRetryWindowClose_keeps pu s hk r' he
  | .callupDrainDeadline missing0 missing1, he => exact execCallupDrainDeadline_keeps missing0 missing1 s hk r' he
  | .callupInjectionTestComplete failLanes, he => exact execCallupInjectionTestComplete_keeps failLanes s hk r' he
  | .controlStoreLoadComplete ok, he => exact execControlStoreLoadComplete_keeps ok s hk r' he
  | .callupStateLoadComplete ok, he => exact execCallupStateLoadComplete_keeps ok s hk r' he
  | .presenceClear pu, he => exact execPresenceClear_keeps pu s hk r' he
  | .ceWatchdogExpiry ce, he => exact execCeWatchdogExpiry_keeps ce s hk r' he
  | .standbyProve pass, he => exact execStandbyProve_keeps pass s hk r' he
  | .interruptTaken pu th, he => exact execInterruptTaken_keeps pu th s hk r' he
  | .storeBufferDrain pu th k, he => exact execStoreBufferDrain_keeps pu th k s hk r' he
  | .rd a line e, he => exact execRd_keeps a line e s hk r' he
  | .rdn a line, he => exact execRdn_keeps a line s hk r' he
  | .rdx a line stamp, he => exact execRdx_keeps a line stamp s hk r' he
  | .upg a line stamp, he => exact execUpg_keeps a line stamp s hk r' he
  | .wb pu line, he => exact execWb_keeps pu line s hk r' he
  | .evc a line, he => exact execEvc_keeps a line s hk r' he
  | .clnw pu line, he => exact execClnw_keeps pu line s hk r' he
  | .amo a addr op x y, he => exact execAmo_keeps a addr op x y s hk r' he
  | .mnt a line op, he => exact execMnt_keeps a line op s hk r' he
  | .prefetchRead pu th va, he => exact execPrefetchRead_keeps pu th va s hk r' he
  | .plw ce z pu th addr bytes, he => exact execPlw_keeps ce z pu th addr bytes s hk r' he
  | .ivw a addr bytes, he => exact execIvw_keeps a addr bytes s hk r' he
  | .fwd line, he => exact execFwd_keeps line s hk r' he
  | .recall line, he => exact execRecall_keeps line s hk r' he
  | .inv line holder, he => exact execInv_keeps line holder s hk r' he
  | .data line, he => exact execData_keeps line s hk r' he
  | .ack line, he => exact execAck_keeps line s hk r' he
  | .fencedCompletion b a addr posted, he => exact execFencedCompletion_keeps b a addr posted s hk r' he
  | .ownershipHoldExpiry pu line, he => exact execOwnershipHoldExpiry_keeps pu line s hk r' he
  | .setRecall q slice set, he => exact execSetRecall_keeps q slice set s hk r' he
  | .zoneQuiesce z, he => exact execZoneQuiesce_keeps z s hk r' he
  | .zrstDrainLimit z, he => exact execZrstDrainLimit_keeps z s hk r' he
  | .channelQuiesce z le, he => exact execChannelQuiesce_keeps z le s hk r' he
  | .accelQuiesce z comp, he => exact execAccelQuiesce_keeps z comp s hk r' he
  | .segAdd a w, he => exact execSegAdd_keeps a w s hk r' he
  | .sidtSet z a w, he => exact execSidtSet_keeps z a w s hk r' he
  | .irqSend z a thread vector prio, he => exact execIrqSend_keeps z a thread vector prio s hk r' he
  | .interruptArrival z thread vector prio, he => exact execInterruptArrival_keeps z thread vector prio s hk r' he
  | .reloadEp ce a ep, he => exact execReloadEp_keeps ce a ep s hk r' he
  | .reloadDisp ce a z, he => exact execReloadDisp_keeps ce a z s hk r' he
  | .cmdFrame link f, he => exact execCmdFrame_keeps link f s hk r' he
  | .dataFrame link f, he => exact execDataFrame_keeps link f s hk r' he
  | .statusFrame link f, he => exact execStatusFrame_keeps link f s hk r' he
  | .acceptFrame link f, he => exact execAcceptFrame_keeps link f s hk r' he
  | .redriveFrame link f, he => exact execRedriveFrame_keeps link f s hk r' he
  | .idleFrame link f, he => exact execIdleFrame_keeps link f s hk r' he
  | .frameForward link f, he => exact execFrameForward_keeps link f s hk r' he
  | .ceCommitWriteAck entry, he => exact execCeCommitWriteAck_keeps entry s hk r' he
  | .xstartCmd le, he => exact execXstartCmd_keeps le s hk r' he
  | .xstartResp le, he => exact execXstartResp_keeps le s hk r' he
  | .tAccExpiry entry, he => exact execTAccExpiry_keeps entry s hk r' he
  | .tStatExpiry entry, he => exact execTStatExpiry_keeps entry s hk r' he
  | .tLingerExpiry entry, he => exact execTLingerExpiry_keeps entry s hk r' he
  | .tOrphanExpiry entry, he => exact execTOrphanExpiry_keeps entry s hk r' he
  | .tLiveExpiry link, he => exact execTLiveExpiry_keeps link s hk r' he
  | .idleIntervalExpiry link, he => exact execIdleIntervalExpiry_keeps link s hk r' he
  | .ringPoll entry, he => exact execRingPoll_keeps entry s hk r' he
  | .signalDetectQualified link, he => exact execSignalDetectQualified_keeps link s hk r' he
  | .linkTrainingComplete link pre main post, he => exact execLinkTrainingComplete_keeps link pre main post s hk r' he
  | .trainingTimerExpiry link, he => exact execTrainingTimerExpiry_keeps link s hk r' he
  | .linkLockLoss link am, he => exact execLinkLockLoss_keeps link am s hk r' he
  | .hiBerTimeout link, he => exact execHiBerTimeout_keeps link s hk r' he
  | .linkLockRegained link, he => exact execLinkLockRegained_keeps link s hk r' he
  | .sdsclkLoss g, he => exact execSdsclkLoss_keeps g s hk r' he
  | .aesGcmEncrypt slice, he => exact execAesGcmEncrypt_keeps slice s hk r' he
  | .aesGcmDecrypt slice, he => exact execAesGcmDecrypt_keeps slice s hk r' he
  | .aesXtsEncrypt slice, he => exact execAesXtsEncrypt_keeps slice s hk r' he
  | .aesXtsDecrypt slice, he => exact execAesXtsDecrypt_keeps slice s hk r' he
  | .aesCmacGenerate slice, he => exact execAesCmacGenerate_keeps slice s hk r' he
  | .aesCmacVerify slice, he => exact execAesCmacVerify_keeps slice s hk r' he
  | .sha256 slice, he => exact execSha256_keeps slice s hk r' he
  | .sha384 slice, he => exact execSha384_keeps slice s hk r' he
  | .sha512 slice, he => exact execSha512_keeps slice s hk r' he
  | .sha3256 slice, he => exact execSha3256_keeps slice s hk r' he
  | .sha3384 slice, he => exact execSha3384_keeps slice s hk r' he
  | .sha3512 slice, he => exact execSha3512_keeps slice s hk r' he
  | .hmacGenerate slice, he => exact execHmacGenerate_keeps slice s hk r' he
  | .hmacVerify slice, he => exact execHmacVerify_keeps slice s hk r' he
  | .ecdsaSign slice, he => exact execEcdsaSign_keeps slice s hk r' he
  | .ecdsaVerify slice, he => exact execEcdsaVerify_keeps slice s hk r' he
  | .mlDsaSign slice, he => exact execMlDsaSign_keeps slice s hk r' he
  | .mlDsaVerify slice, he => exact execMlDsaVerify_keeps slice s hk r' he
  | .mlKemKeyGeneration slice, he => exact execMlKemKeyGeneration_keeps slice s hk r' he
  | .mlKemEncapsulate slice, he => exact execMlKemEncapsulate_keeps slice s hk r' he
  | .mlKemDecapsulate slice, he => exact execMlKemDecapsulate_keeps slice s hk r' he
  | .ecdsaKeyGeneration slice, he => exact execEcdsaKeyGeneration_keeps slice s hk r' he
  | .mlDsaKeyGeneration slice, he => exact execMlDsaKeyGeneration_keeps slice s hk r' he
  | .pinBlockTranslation slice, he => exact execPinBlockTranslation_keeps slice s hk r' he
  | .generateKey slice, he => exact execGenerateKey_keeps slice s hk r' he
  | .importClearKey slice, he => exact execImportClearKey_keeps slice s hk r' he
  | .reWrap slice, he => exact execReWrap_keeps slice s hk r' he
  | .randomBytes slice, he => exact execRandomBytes_keeps slice s hk r' he
  | .compress slice, he => exact execCompress_keeps slice s hk r' he
  | .decompress slice, he => exact execDecompress_keeps slice s hk r' he
  | .descriptorComplete comp slice, he => exact execDescriptorComplete_keeps comp slice s hk r' he
  | .chainFailureHold slice, he => exact execChainFailureHold_keeps slice s hk r' he
  | .entropyHealthFail, he => exact execEntropyHealthFail_keeps s hk r' he
  | .entropyRetest pass, he => exact execEntropyRetest_keeps pass s hk r' he
  | .drbgReseed slice, he => exact execDrbgReseed_keeps slice s hk r' he
  | .mcReadRequest a line stripes, he => exact execMcReadRequest_keeps a line stripes s hk r' he
  | .mcWriteRequest a line bytes retries, he => exact execMcWriteRequest_keeps a line bytes retries s hk r' he
  | .refreshDue mc rank, he => exact execRefreshDue_keeps mc rank s hk r' he
  | .powerDownEntry mc rank, he => exact execPowerDownEntry_keeps mc rank s hk r' he
  | .selfRefreshEntry mc rank, he => exact execSelfRefreshEntry_keeps mc rank s hk r' he
  | .urgencyStep mc k level, he => exact execUrgencyStep_keeps mc k level s hk r' he
  | .trnWriteLevelling mc a rank nibble start, he => exact execTrnWriteLevelling_keeps mc a rank nibble start s hk r' he
  | .trnReceiveEnable mc a rank nibble start, he => exact execTrnReceiveEnable_keeps mc a rank nibble start s hk r' he
  | .trnReadEye mc a rank nibble start, he => exact execTrnReadEye_keeps mc a rank nibble start s hk r' he
  | .trnWriteEye mc a rank nibble start, he => exact execTrnWriteEye_keeps mc a rank nibble start s hk r' he
  | .trnDqsOscillator mc a rank nibble start, he => exact execTrnDqsOscillator_keeps mc a rank nibble start s hk r' he
  | .trnCaTraining mc a rank nibble start, he => exact execTrnCaTraining_keeps mc a rank nibble start s hk r' he
  | .trnRunComplete mc res noResponse fails, he => exact execTrnRunComplete_keeps mc res noResponse fails s hk r' he
  | .trnApply mc a, he => exact execTrnApply_keeps mc a s hk r' he
  | .delayUpdate mc rank osc centres, he => exact execDelayUpdate_keeps mc rank osc centres s hk r' he
  | .scrubLine g stripes, he => exact execScrubLine_keeps g stripes s hk r' he
  | .rebuildLine g stripes, he => exact execRebuildLine_keeps g stripes s hk r' he
  | .reservedEncoding pu th w1 w2, he => exact execReservedEncoding_keeps pu th w1 w2 s hk r' he
  | .refclkReturn b, he => exact execRefclkReturn_keeps b s hk r' he
  | .sdsclkReturn g, he => exact execSdsclkReturn_keeps g s hk r' he
  | .islandFrequencySet k mhz, he => exact execIslandFrequencySet_keeps k mhz s hk r' he
  | .clockRelockComplete k, he => exact execClockRelockComplete_keeps k s hk r' he
  | .islandFence k, he => exact execIslandFence_keeps k s hk r' he
  | .islandUnfence k, he => exact execIslandUnfence_keeps k s hk r' he
  | .islandPowerSwitch k on, he => exact execIslandPowerSwitch_keeps k on s hk r' he
  | .regulatorAcknowledgement q, he => exact execRegulatorAcknowledgement_keeps q s hk r' he
  | .dramCommandSlot mc ready, he => exact execDramCommandSlot_keeps mc ready s hk r' he
  | .ceZoneSlot ce, he => exact execCeZoneSlot_keeps ce s hk r' he
  | .signalEnergyChange link present, he => exact execSignalEnergyChange_keeps link present s hk r' he
  | .k4Period, he => exact execK4Period_keeps s hk r' he

theorem step_keeps (s : State) (hk : Keeps W s.pending (LimIf W) s) (r' : State) (he : step s = .next r') :
    Keeps W s.pending.tail (LimIf W) r' := by
  unfold step at he
  split at he
  · rename_i hp
    injection he with he
    have k := tick_keeps (hk := hk)
    rw [← he]
    rw [hp] at k ⊢
    exact k
  · rename_i c rest hp
    rw [hp]
    exact exec_keeps c { s with pending := rest } ⟨rfl, hk.2, hk.3, hk.4⟩ r' he

end Sys2Proof.Machine
end

