-- ==== Sys2Proof/Laws/Mem.lean ====
section
/-! SUPPORT. What a load or store instruction leaves once its access is known; accesses where no transaction is open. -/

namespace Sys2Proof.Machine

variable {h : Hdr} {enc : Word} {dec : Dec} {s t u : State} {ea : Arch → Except Exc Ea} {e : Ea} {size : Nat}
  {dst : Nat → Arch → Arch} {src : Arch → Nat} {l : List Byte} {x : Exc}

/-- A load whose bytes are obtained retires with them in its target. -/
theorem runLoad_finish (hf : Fetched h false s t) (hd : dec (archOf h t) = none) (hx : storeLacks t h.pu.val enc none = false)
    (hp : Passes h none false t)
    (he : ea (archOf h t) = .ok e) (hl : load h.pu.val h.th e.1 size t = .bytes l u) :
    runLoad h enc dec ea size dst s = finish h 4 (fun b => putEa e (dst (ofBe l) b)) u := by
  rw [runLoad.eq_def]
  refine runIns_done (u := u.updThr h.pu.val h.th (fun y => { y with arch := putEa e (dst (ofBe l) y.arch) })) hf hd hx hp ?_
  simp only [archOf] at he
  simp only [loadBody, he, hl]

/-- A load whose access ends with an exception takes it. -/
theorem runLoad_exc (hf : Fetched h false s t) (hd : dec (archOf h t) = none) (hx : storeLacks t h.pu.val enc none = false)
    (hp : Passes h none false t)
    (he : ea (archOf h t) = .ok e) (hl : load h.pu.val h.th e.1 size t = .exc x u) :
    runLoad h enc dec ea size dst s = endExc h.pu.val h.th enc false x u := by
  rw [runLoad.eq_def]
  refine runIns_exc (u := u) hf hd hx hp ?_
  simp only [archOf] at he
  simp only [loadBody, he, hl]

/-- A load whose addressing mode fails takes that exception. -/
theorem runLoad_ea (hf : Fetched h false s t) (hd : dec (archOf h t) = none) (hx : storeLacks t h.pu.val enc none = false)
    (hp : Passes h none false t)
    (he : ea (archOf h t) = .error x) : runLoad h enc dec ea size dst s = endExc h.pu.val h.th enc false x t := by
  rw [runLoad.eq_def]
  refine runIns_exc (u := t) hf hd hx hp ?_
  simp only [archOf] at he
  simp only [loadBody, he]

/-- A store whose bytes enter the store buffer retires. -/
theorem runStore_finish (hf : Fetched h false s t) (hd : dec (archOf h t) = none) (hx : storeLacks t h.pu.val enc none = false)
    (hp : Passes h none false t)
    (he : ea (archOf h t) = .ok e) (hl : storeAll h.pu.val h.th [(e.1, toBe size (src (archOf h t)))] t = .bytes l u) :
    runStore h enc dec ea size src s = finish h 4 (putEa e) u := by
  rw [runStore.eq_def]
  refine runIns_done (u := u.updThr h.pu.val h.th (fun y => { y with arch := putEa e y.arch })) hf hd hx hp ?_
  simp only [archOf] at he hl
  simp only [storeBody, he, hl]

/-- A store whose access ends with an exception takes it. -/
theorem runStore_exc (hf : Fetched h false s t) (hd : dec (archOf h t) = none) (hx : storeLacks t h.pu.val enc none = false)
    (hp : Passes h none false t)
    (he : ea (archOf h t) = .ok e) (hl : storeAll h.pu.val h.th [(e.1, toBe size (src (archOf h t)))] t = .exc x u) :
    runStore h enc dec ea size src s = endExc h.pu.val h.th enc false x u := by
  rw [runStore.eq_def]
  refine runIns_exc (u := u) hf hd hx hp ?_
  simp only [archOf] at he hl
  simp only [storeBody, he, hl]

/-- A store whose addressing mode fails takes that exception as a store. -/
theorem runStore_ea (hf : Fetched h false s t) (hd : dec (archOf h t) = none) (hx : storeLacks t h.pu.val enc none = false)
    (hp : Passes h none false t)
    (he : ea (archOf h t) = .error x) :
    runStore h enc dec ea size src s = endExc h.pu.val h.th enc false { x with w := true } t := by
  rw [runStore.eq_def]
  refine runIns_exc (e := { x with w := true }) (u := t) hf hd hx hp ?_
  simp only [archOf] at he
  simp only [storeBody, he]

/-- Requests meet no footprint where no transaction is open. -/
theorem conflicts_noTx (line : Nat) (stores : Bool) (code : Option Nat) (req : Nat) (own : Option (Nat × Bool))
    (hx : ∀ m y, (s.thr m y).tx = none) : conflicts line stores code req own s = s := by
  rw [conflicts.eq_def]
  generalize s.threads = l
  induction l with
  | nil => rfl
  | cons a l ih =>
    simp only [List.foldl_cons, hx, ite_self]
    exact ih

end Sys2Proof.Machine
end

