-- ==== Sys2Proof/WellFormed.lean ====
section
/-! DEFINITION. Well-formed commands: operands that the command's own row can carry. What the spec answers (a malformed
frame, a reserved value, an address that does not exist) is well formed: the machine gives it its meaning. -/

namespace Sys2Proof

/-- Sizes of a single access in bytes. -/
def sizeWf (n : Nat) : Bool := n == 1 || n == 2 || n == 4 || n == 8 || n == 16

/-- A line number of the 52-bit physical address space (R5). -/
def lineWf (l : Nat) : Bool := decide (l < 2 ^ 44)

/-- An exchange-table index: 32 partitions of 8,192 entries (R351). -/
def entryWf (i : Nat) : Bool := decide (i < 262144)

/-- Bytes of a placement or invalidating write: some, within one line (R230, R231). -/
def lineBytesWf (a : BitVec 52) (l : List Byte) : Bool := l != [] && decide (a.toNat % 256 + l.length ≤ 256)

/-- A channel frame of the row's kind, with the payload that LEN announces (Tables 13.8 and 13.9). -/
def frameWf (k : BitVec 4) (f : Frame) : Bool := f.kind == k && f.len == f.payload.length

/-- A CAN frame: at most 8 B in classic format, 64 B in CAN FD (Table 18.8). -/
def canWf (f : CanFrame) : Bool := decide (f.data.length ≤ if f.classic then 8 else 64)

/-- Is a command well formed? -/
def Instr.wf (i : Instr) : Bool :=
  match i with
  | .add _ _ => true
  | .sub _ _ => true
  | .adc _ _ => true
  | .sbc _ _ => true
  | .and _ _ => true
  | .or _ _ => true
  | .xor _ _ => true
  | .andn _ _ => true
  | .shl _ _ => true
  | .shr _ _ => true
  | .sar _ _ => true
  | .rol _ _ => true
  | .ror _ _ => true
  | .cmp _ _ _ _ => true
  | .cmpu _ _ _ _ => true
  | .mov _ _ => true
  | .min _ _ => true
  | .max _ _ => true
  | .minu _ _ => true
  | .maxu _ _ => true
  | .clz _ _ => true
  | .ctz _ _ => true
  | .popc _ _ => true
  | .bswap _ _ => true
  | .sextB _ _ => true
  | .sextH _ _ => true
  | .sextW _ _ => true
  | .zextW _ _ => true
  | .mul _ _ => true
  | .mulw _ _ => true
  | .mulwu _ _ => true
  | .sdiv _ _ => true
  | .udiv _ _ => true
  | .srem _ _ => true
  | .urem _ _ => true
  | .addi _ _ => true
  | .andi _ _ => true
  | .ori _ _ => true
  | .xori _ _ => true
  | .cmpi _ _ _ => true
  | .cmpui _ _ _ => true
  | .shiShl _ _ _ _ => true
  | .shiShr _ _ _ _ => true
  | .shiSar _ _ _ _ => true
  | .shiRol _ _ _ _ => true
  | .movi _ _ _ => true
  | .ldB _ _ => true
  | .ldH _ _ => true
  | .ldW _ _ => true
  | .ldD _ _ => true
  | .ldsB _ _ => true
  | .ldsH _ _ => true
  | .ldsW _ _ => true
  | .stB _ _ => true
  | .stH _ _ => true
  | .stW _ _ => true
  | .stD _ _ => true
  | .ldx _ _ => true
  | .ldsx _ _ => true
  | .stx _ _ => true
  | .ldfS _ _ => true
  | .ldfD _ _ => true
  | .ldfQ _ _ => true
  | .stfS _ _ => true
  | .stfD _ _ => true
  | .stfQ _ _ => true
  | .ldfx _ _ => true
  | .stfx _ _ => true
  | .b _ _ => true
  | .bl _ _ => true
  | .br _ _ => true
  | .blr _ _ => true
  | .ret _ => true
  | .callm _ _ _ => true
  | .retm _ _ => true
  | .mfs _ _ _ => true
  | .mts _ _ _ => true
  | .faddD _ _ _ _ => true
  | .fsubD _ _ _ _ => true
  | .fmulD _ _ _ _ => true
  | .fdivD _ _ _ _ => true
  | .fsqrtD _ _ _ => true
  | .fcmpD _ _ _ => true
  | .fminD _ _ _ _ => true
  | .fmaxD _ _ _ _ => true
  | .faddS _ _ _ _ => true
  | .fsubS _ _ _ _ => true
  | .fmulS _ _ _ _ => true
  | .fdivS _ _ _ _ => true
  | .fsqrtS _ _ _ => true
  | .fcmpS _ _ _ => true
  | .fminS _ _ _ _ => true
  | .fmaxS _ _ _ _ => true
  | .fcvtSD _ _ _ => true
  | .fcvtDS _ _ _ => true
  | .fcvtGD _ _ _ => true
  | .fcvtDG _ _ _ => true
  | .fmov _ _ _ => true
  | .fneg _ _ _ => true
  | .fabs _ _ _ => true
  | .fmvGF _ _ _ => true
  | .fmvFG _ _ _ => true
  | .fmaddD _ _ => true
  | .fmsubD _ _ => true
  | .fnmaddD _ _ => true
  | .fnmsubD _ _ => true
  | .dadd _ _ _ _ => true
  | .dsub _ _ _ _ => true
  | .dmul _ _ _ _ => true
  | .ddiv _ _ _ _ => true
  | .dqua _ _ _ _ => true
  | .dcmp _ _ _ => true
  | .d2s _ _ _ _ => true
  | .s2d _ _ _ _ => true
  | .dcvt12864 _ _ _ => true
  | .dcvt64128 _ _ _ => true
  | .dadd64 _ _ _ _ => true
  | .dsub64 _ _ _ _ => true
  | .dmul64 _ _ _ _ => true
  | .ddiv64 _ _ _ _ => true
  | .dqua64 _ _ _ _ => true
  | .dcmp64 _ _ _ => true
  | .lresD _ _ _ => true
  | .scondD _ _ _ _ => true
  | .lresW _ _ _ => true
  | .scondW _ _ _ _ => true
  | .amoSwp _ _ _ _ => true
  | .amoAdd _ _ _ _ => true
  | .amoAnd _ _ _ _ => true
  | .amoOr _ _ _ _ => true
  | .amoXor _ _ _ _ => true
  | .amoMax _ _ _ _ => true
  | .amoMin _ _ _ _ => true
  | .amoMaxu _ _ _ _ => true
  | .amoMinu _ _ _ _ => true
  | .cas _ _ _ _ => true
  | .cas2 _ _ _ _ => true
  | .fenceLL _ => true
  | .fenceLS _ => true
  | .fenceSL _ => true
  | .fenceSS _ => true
  | .fenceAll _ => true
  | .syncEp _ => true
  | .syncEpComplete _ _ => true
  | .clnL _ _ => true
  | .invL _ _ => true
  | .cliL _ _ => true
  | .dzl _ _ => true
  | .cmrCln _ _ _ => true
  | .cmrCli _ _ _ => true
  | .cmrInv _ _ _ => true
  | .lockwLock _ _ _ _ => true
  | .lockwUnlock _ _ _ _ => true
  | .lockwUnlockSet _ _ _ _ => true
  | .tlbiAddr _ _ _ _ => true
  | .tlbiAddrAll _ _ _ _ => true
  | .tlbiCtx _ _ _ _ => true
  | .tlbiAll _ _ _ _ => true
  | .tlbiDelivery _ => true
  | .tlbiTimeout _ => true
  | .txopen _ _ => true
  | .txopenB _ _ => true
  | .txclose _ _ => true
  | .txdrop _ _ => true
  | .eret _ => true
  | .svc _ _ _ => true
  | .wait _ => true
  | .waitWake _ _ => true
  | .brk _ => true
  | .nop _ => true
  | .xstart _ _ _ _ => true
  | .crq _ _ _ => true
  | .dfq _ _ _ => true
  | .ioaAcknowledge _ _ => true
  | .aese _ _ _ _ => true
  | .aesd _ _ _ _ => true
  | .aesmc _ _ _ _ => true
  | .aesimc _ _ _ _ => true
  | .clmul _ _ _ _ => true
  | .clmulh _ _ _ _ => true
  | .sha256r _ _ _ _ => true
  | .sha512r _ _ _ _ => true
  | .liL _ _ _ => true
  | .liH _ _ _ => true
  | .addiW _ _ => true
  | .andiW _ _ => true
  | .oriW _ _ => true
  | .xoriW _ _ => true
  | .cmpiW _ _ _ => true
  | .cmpuiW _ _ _ => true
  | .bW _ _ => true
  | .blW _ _ => true
  | .vauxInTolerance _ => true
  | .vauxLoss => true
  | .bootImageCheck _ _ _ => true
  | .bootRecoveryImageWrite _ _ => true
  | .modeRequestCold _ => true
  | .modeRequestProvision _ => true
  | .modeRequestRun _ => true
  | .modeRequestService _ => true
  | .modeRequestQuiesce _ => true
  | .railSequenceTimeout => true
  | .mainPgRise _ _ => true
  | .mainPowerGoodLost => true
  | .pfwNLow => true
  | .pfwNHigh => true
  | .pfwNCountAsserted => true
  | .drainSnapshot => true
  | .drainFinished => true
  | .busBelowDrainThreshold => true
  | .holdupRepowerHoldExpiry => true
  | .provisioningComplete _ => true
  | .m1TimeLimit _ _ => true
  | .dramInitComplete => true
  | .restoreComplete badBlocks _ => badBlocks.all (fun b => decide (b < 262144))
  | .serviceSessionTimeout => true
  | .checkstopLineAsserted _ _ _ _ => true
  | .salvageDrainComplete => true
  | .orderlyDrainComplete => true
  | .refclkLoss _ => true
  | .lcEnable _ _ _ => true
  | .lcDisable _ _ _ => true
  | .lcUnfence _ _ _ => true
  | .lcStartComplete _ fail => decide (fail ≤ 128)
  | .lcStopComplete _ => true
  | .lcTimeout _ => true
  | .registerWrite _ _ size _ => sizeWf size
  | .rcRead _ _ size => sizeWf size
  | .fstatClear _ _ => true
  | .fovfClear _ _ => true
  | .atLockSet _ _ => true
  | .atLogClear _ _ => true
  | .aliveRearm _ _ => true
  | .aliveRejClear _ _ => true
  | .holdupTest _ => true
  | .chkstopTest _ => true
  | .privPulseEnd _ => true
  | .wdogKick _ _ _ => true
  | .watchdogExpiry => true
  | .standbyTakeover _ _ _ _ _ => true
  | .k0Cycle _ _ => true
  | .faultStormUnmask _ _ => true
  | .k1ThermalIteration _ => true
  | .thermalCeilingStep _ => true
  | .valveDeviation => true
  | .adcSample uv _ _ => uv.length == 16
  | .powerLimitRestore => true
  | .commitBudgetUpdate => true
  | .storeRechargeTest => true
  | .storeRechargeTestEnd => true
  | .storeFltNAssert => true
  | .storeFltNNegate => true
  | .frozenClear _ => true
  | .commitGrantRequest _ _ => true
  | .openRecordWritten => true
  | .blockRecordWritten => true
  | .flashChannelFailure _ => true
  | .enckeIntervalClose => true
  | .enckeRecordWrite => true
  | .heartbeat => true
  | .dictRead loc => (match loc with | some (_, r) => !r.write && decide (r.data = []) | none => true)
  | .dictWrite loc => (match loc with | some (_, r) => r.write && decide (r.data.length ≤ 4096) | none => true)
  | .dwGoRead _ _ _ _ _ => true
  | .dwGoWrite _ _ _ _ _ _ => true
  | .provingRunPu _ _ => true
  | .provingRunCe _ _ => true
  | .provingRunDeimos _ _ => true
  | .provingRunComplete ce n failLanes _ => decide (n < if ce then 36 else 48) && decide (failLanes ≤ 128)
  | .applyBusRates _ _ => true
  | .abandonHeldExchanges _ _ => true
  | .clearInDoubt _ _ => true
  | .masterKeyEnrolment _ _ _ => true
  | .zoneCountChange _ _ _ => true
  | .maxCommitSizeChange _ _ _ => true
  | .signingRootChange _ _ _ => true
  | .discover f => canWf f
  | .readReq f => canWf f
  | .writeReq f => canWf f
  | .segReq f => canWf f
  | .writeSeg f => canWf f
  | .abort f => canWf f
  | .transferTimeout _ _ => true
  | .time f => canWf f
  | .busOffRecovery _ => true
  | .timeRefLoss => true
  | .timeRefReturn => true
  | .debugAttach _ => true
  | .debugPortRequest _ _ => true
  | .resyncComplete _ failLanes => decide (failLanes ≤ 128)
  | .tapBypass => true
  | .tapIdcode => true
  | .tapSamplePreload => true
  | .tapExtest => true
  | .tapClamp => true
  | .compareRetire _ _ => true
  | .retryRestart _ => true
  | .retryTimeout _ => true
  | .retryWindowClose _ => true
  | .callupDrainDeadline _ _ => true
  | .callupInjectionTestComplete failLanes => decide (failLanes ≤ 128)
  | .controlStoreLoadComplete _ => true
  | .callupStateLoadComplete _ => true
  | .presenceClear _ => true
  | .ceWatchdogExpiry _ => true
  | .standbyProve _ => true
  | .interruptTaken _ _ => true
  | .storeBufferDrain _ _ i => decide (i < 128)
  | .rd _ line _ => lineWf line
  | .rdn _ line => lineWf line
  | .rdx _ line _ => lineWf line
  | .upg _ line _ => lineWf line
  | .wb _ line => lineWf line
  | .evc _ line => lineWf line
  | .clnw _ line => lineWf line
  | .amo _ _ _ _ _ => true
  | .mnt _ line _ => lineWf line
  | .prefetchRead _ _ _ => true
  | .plw _ _ _ _ addr bytes => lineBytesWf addr bytes
  | .ivw _ addr bytes => lineBytesWf addr bytes
  | .fwd line => lineWf line
  | .recall line => lineWf line
  | .inv line holder => lineWf line && decide (holder < 86)
  | .data line => lineWf line
  | .ack line => lineWf line
  | .fencedCompletion _ _ _ _ => true
  | .ownershipHoldExpiry _ line => lineWf line
  | .setRecall _ _ set => decide (set < 2560)
  | .zoneQuiesce _ => true
  | .zrstDrainLimit _ => true
  | .channelQuiesce _ _ => true
  | .accelQuiesce _ _ => true
  | .segAdd _ _ => true
  | .sidtSet _ _ _ => true
  | .irqSend _ _ _ _ _ => true
  | .interruptArrival _ _ _ _ => true
  | .reloadEp _ _ _ => true
  | .reloadDisp _ _ _ => true
  | .cmdFrame _ f => frameWf 1 f
  | .dataFrame _ f => frameWf 2 f
  | .statusFrame _ f => frameWf 3 f
  | .acceptFrame _ f => frameWf 4 f
  | .redriveFrame _ f => frameWf 5 f
  | .idleFrame _ f => frameWf 6 f
  | .frameForward _ f => f.len == f.payload.length
  | .ceCommitWriteAck entry => entryWf entry
  | .xstartCmd _ => true
  | .xstartResp _ => true
  | .tAccExpiry entry => entryWf entry
  | .tStatExpiry entry => entryWf entry
  | .tLingerExpiry entry => entryWf entry
  | .tOrphanExpiry entry => entryWf entry
  | .tLiveExpiry _ => true
  | .idleIntervalExpiry _ => true
  | .ringPoll entry => entryWf entry
  | .signalDetectQualified _ => true
  | .linkTrainingComplete _ _ _ _ => true
  | .trainingTimerExpiry _ => true
  | .linkLockLoss _ _ => true
  | .hiBerTimeout _ => true
  | .linkLockRegained _ => true
  | .sdsclkLoss _ => true
  | .aesGcmEncrypt _ => true
  | .aesGcmDecrypt _ => true
  | .aesXtsEncrypt _ => true
  | .aesXtsDecrypt _ => true
  | .aesCmacGenerate _ => true
  | .aesCmacVerify _ => true
  | .sha256 _ => true
  | .sha384 _ => true
  | .sha512 _ => true
  | .sha3256 _ => true
  | .sha3384 _ => true
  | .sha3512 _ => true
  | .hmacGenerate _ => true
  | .hmacVerify _ => true
  | .ecdsaSign _ => true
  | .ecdsaVerify _ => true
  | .mlDsaSign _ => true
  | .mlDsaVerify _ => true
  | .mlKemKeyGeneration _ => true
  | .mlKemEncapsulate _ => true
  | .mlKemDecapsulate _ => true
  | .ecdsaKeyGeneration _ => true
  | .mlDsaKeyGeneration _ => true
  | .pinBlockTranslation _ => true
  | .generateKey _ => true
  | .importClearKey _ => true
  | .reWrap _ => true
  | .randomBytes _ => true
  | .compress _ => true
  | .decompress _ => true
  | .descriptorComplete _ _ => true
  | .chainFailureHold _ => true
  | .entropyHealthFail => true
  | .entropyRetest _ => true
  | .drbgReseed _ => true
  | .mcReadRequest _ line stripes => lineWf line && decide (stripes.length ≤ 5)
  | .mcWriteRequest _ line bytes _ => lineWf line && bytes.length == 256
  | .refreshDue _ _ => true
  | .powerDownEntry _ _ => true
  | .selfRefreshEntry _ _ => true
  | .urgencyStep _ i _ => decide (i < 64)
  | .trnWriteLevelling _ _ _ _ _ => true
  | .trnReceiveEnable _ _ _ _ _ => true
  | .trnReadEye _ _ _ _ _ => true
  | .trnWriteEye _ _ _ _ _ => true
  | .trnDqsOscillator _ _ _ _ _ => true
  | .trnCaTraining _ _ _ _ _ => true
  | .trnRunComplete _ _ _ _ => true
  | .trnApply _ _ => true
  | .delayUpdate _ _ _ centres => centres.length == 20
  | .scrubLine _ stripes => decide (stripes.length ≤ 5)
  | .rebuildLine _ stripes => decide (stripes.length ≤ 5)
  | .reservedEncoding _ _ _ _ => true
  | .refclkReturn _ => true
  | .sdsclkReturn _ => true
  | .islandFrequencySet _ _ => true
  | .clockRelockComplete _ => true
  | .islandFence _ => true
  | .islandUnfence _ => true
  | .islandPowerSwitch _ _ => true
  | .regulatorAcknowledgement _ => true
  | .dramCommandSlot _ ready => decide ready.Nodup
  | .ceZoneSlot _ => true
  | .signalEnergyChange _ _ => true
  | .k4Period => true

end Sys2Proof
end

