-- ==== Sys2Proof/Tests/Slice0.lean ====
section
/-! SUPPORT. Small tests: terms that WellFormed refuses, worked examples of the spec, and for every statement with
hypotheses a concrete state and operands that meet them (names that begin with witness_). -/

set_option Elab.async false

open Sys2Proof Sys2Proof.Machine

namespace Sys2Proof.Tests

/-- Registers of a thread whose G registers hold l, with its pc at 0x1000 and its vectors at 0x100000. -/
def regsOf (l : List (Nat × Nat)) : Arch :=
  { g := l.map (fun e => (e.1, BitVec.ofNat 64 e.2)), pc := 0x1000, vbar := 0x100000 }

/-- The fetch latch of a thread without translation for the page 0x1000. -/
def latch1 : Bool × TlbEntry :=
  (false, { va := 0x1000, zpa := 0x1000, pa := 0x1000, bits := 12, mt := .normal, r := true, w := true, x := true, u := true,
            g := true, ctx := 0 })

/-- A thread that runs with these registers and whose fetches of the page 0x1000 have been translated. -/
def threadOf (a : Arch) : Thread := { running := true, arch := a, ckpt := a, fetchLatch := some latch1 }

/-- A PU with the line of 0x1000 in its L1I, and line 0x20 in its L2 in M. -/
def puOf (t : Thread) : Pu :=
  { t0 := t, l1i := [(128, { line := some 16 })], l2 := [(512, { line := some 32, st := .m })] }

/-- Zone 0 is ON with PU0; its first GiB maps to DRAM from address 0, its second to a DEVICE. -/
def stateOf (a : Arch) : State :=
  State.setLc { islands := [(0, { power := true })], pus := [(0, puOf (threadOf a))]
                coh := { dir := [(16 * dirSet 32, { line := some 32, owned := true, pres := 1 })] }
                zones := [(0, { pus := 1, segHeld := true, seg := [(0, 0x8000000000000000), (1, 0x8000000000800001)] })] } (.zone 0) { state := .on }

def hdr : Hdr := { pu := 0, th := false, cond := 0 }

/-- The state after the fetch of an instruction by thread 0 of PU0. -/
def fetched (long : Bool) (s : State) : State := match fetchIns 0 false long s with | .done t => t | _ => s

/-- The next state of a command. -/
def nextOf (r : Host.Outcome State Fault Refusal) : State := match r with | .next t => t | _ => State.reset

def g (k : BitVec 5) (s : State) : Word := (s.thr 0 false).arch.rg k

def f (k : BitVec 5) (s : State) : Quad := (s.thr 0 false).arch.rf k

/-- An empty control store omits no instruction. -/
theorem omits_none {t : State} {n : Nat} (h : (t.pu n).cs = []) (k : Nat) : storeOmits t n k = false := by
  simp only [storeOmits, uwAt, h, tget]; rfl

theorem passes_of (h : Hdr) (m : Option Nat) (r : Bool) (t : State) (h1 : (t.pu h.pu.val).cs = [])
    (h2 : condTrue h.cond (archOf h t) = true) (h3 : (t.thr h.pu.val h.th).tx = none) : Passes h m r t :=
  ⟨fun _ k _ => omits_none h1 k, h2, fun x e => by rw [h3] at e; cases e⟩

/-- Facts that say a table has some property at every key follow from one pass over its entries. -/
theorem tget_all {α : Type} (p : α → Prop) (d : α) (t : Tbl α) (h0 : p d) (h : ∀ e ∈ t, p e.2) (k : Nat) :
    p (tget d t k) := by
  induction t with
  | nil => exact h0
  | cons e t ih =>
    rw [tget]
    split
    · exact h e (by simp)
    · exact ih (fun x hx => h x (by simp [hx]))

def noTx (s : State) : Bool := s.pus.all (fun e => e.2.t0.tx.isNone && e.2.t1.tx.isNone)

theorem noTx_spec {s : State} (h : noTx s = true) : ∀ m y, (s.thr m y).tx = none := by
  intro m y
  have hp : (s.pu m).t0.tx = none ∧ (s.pu m).t1.tx = none := by
    refine tget_all (fun p : Pu => p.t0.tx = none ∧ p.t1.tx = none) {} s.pus ⟨rfl, rfl⟩ ?_ m
    intro e he
    simpa [noTx] using (List.all_eq_true.mp h) e he
  cases y
  · exact hp.1
  · exact hp.2

/-- G1 = 5, G2 = 7, G3 = 0x2000, G4 = 2^63; G5 = 0x100, G10 = 2 and G7 and G8 at the second and third GiB. -/
def S1 : State := stateOf (regsOf [(1, 5), (2, 7), (3, 0x2000), (4, 2 ^ 63), (5, 0x100), (7, 0x40000000), (8, 0x80000000), (10, 2)])

def T1 : State := fetched false S1

theorem witness_Fetched : Fetched hdr false S1 T1 := ⟨by decide +kernel, by decide +kernel, by decide +kernel⟩

theorem witness_Fetched_long : Fetched hdr true S1 (fetched true S1) :=
  ⟨by decide +kernel, by decide +kernel, by decide +kernel⟩

theorem witness_Passes : Passes hdr none false T1 := passes_of _ _ _ _ (by decide +kernel) (by decide +kernel) (by decide +kernel)

theorem witness_Passes_micro (m : Nat) (r : Bool) : Passes hdr (some m) r T1 :=
  passes_of _ _ _ _ (by decide +kernel) (by decide +kernel) (by decide +kernel)

theorem noTx_T1 : ∀ m y, (T1.thr m y).tx = none := noTx_spec (by decide +kernel)

/-- The same with memory behind it: the homes, the controllers and rank 0 are on, and the group tables take PU0, CE0 and the accelerators. -/
def withDram (s : State) : State :=
  let s := { s with islands := s.islands ++ [(0x48, { power := true }), (0xE0, { power := true })] ++ (List.range 4).map (fun i => (0x40 + i, ({ power := true } : IslandSt))) ++
              (List.range 20).map (fun i => (0x50 + i, ({ power := true } : IslandSt))) }
  let s := (List.finRange 20).foldl (fun s m => s.setLc (.rank m 0) { state := .on }) s
  (List.finRange 4).foldl (fun s i => s.updTab (.group i) (fun x => { x with rows := [(0, 0xE), (64, 0xE), (112, 0xE), (113, 0xE)] })) s

def S2 : State := withDram S1

def T2 : State := fetched false S2

theorem ok_of {ε α : Type} {x : Except ε α} {a : α} (h : x.toOption = some a) : x = .ok a := by
  cases x with
  | error e => cases h
  | ok b => cases h; rfl

def errOf {ε α : Type} : Except ε α → Option ε
  | .error e => some e
  | .ok _ => none

theorem error_of {ε α : Type} {x : Except ε α} {e : ε} (h : errOf x = some e) : x = .error e := by
  cases x with
  | error e => cases h; rfl
  | ok b => cases h

theorem pair_of {α β : Type} {x : α × β} {a : α} {b : β} (h : x.1 = a) (h2 : x.2 = b) : x = (a, b) := by
  cases x; cases h; cases h2; rfl

theorem noStore_spec {l : List SbItem} (h : l.all (fun i => decide (i = .marker)) = true) : ∀ e, SbItem.store e ∉ l := by
  intro e he
  have := List.all_eq_true.mp h _ he
  simp at this

/-- The module in M3 with everything else as at reset, and the management processor Phobos. -/
def S0 : State := { vaux := true, pins := { railsOn := true }, md := { mode := some .run } }

def phobos : Acc := { master := 0x78, th := false, zone := none }

def pu0 : Acc := { master := 0, th := false, zone := some 0 }

/- Instructions on registers. -/

/-- IntegerMultiplyAndDivide: the same state with an even and an odd destination, and divisors that are and are not 0. -/
theorem witness_MultiplyAndDivide : (archOf hdr T1).rg 2 ≠ 0 ∧ (archOf hdr T1).rg 9 = 0 ∧
    (6 : BitVec 5).getLsbD 0 = false ∧ (7 : BitVec 5).getLsbD 0 = true := by decide +kernel

/-- BinaryArithmetic and BinaryCompareConvertMove: 1 + 2 with no exception enabled. -/
theorem witness_BinaryArithmetic : statusOf (archOf hdr T1).fs
    (addNum f64 0 (binDec 11 52 (-1074) 0x3FF0000000000000) (binDec 11 52 (-1074) 0x8000000000000000)).2 = .ok 0 :=
  ok_of (by decide +kernel)

/-- DecimalInstructions: a division by zero with no exception enabled makes its flag sticky. -/
theorem witness_DecimalInstructions : statusOf 0 (divNum d128 0 (Num.fin false 1 0) (Num.fin false 0 0)).2 = .ok 8 :=
  ok_of (by decide +kernel)

/-- OperandTraps: G1 = 5 is a multiple of none of 4, 8 and 16, and register 1 is odd. -/
theorem witness_OperandTraps_alignment : ((archOf hdr T1).rg 1).toNat % 4 ≠ 0 ∧ ((archOf hdr T1).rg 1).toNat % 8 ≠ 0 ∧
    ((archOf hdr T1).rg 1).toNat % 16 ≠ 0 ∧ (6 : BitVec 5).toNat % 2 = 0 ∧ (1 : BitVec 5).toNat % 2 = 1 := by
  decide +kernel

/-- OperandTraps: RET with LK misaligned. -/
def S3 : State := stateOf (regsOf [(30, 0x1002)])

theorem witness_OperandTraps_return : rLK = 30 ∧ Fetched hdr false S3 (fetched false S3) ∧
    ((archOf hdr (fetched false S3)).rg rLK).toNat % 4 ≠ 0 :=
  ⟨by decide +kernel, ⟨by decide +kernel, by decide +kernel, by decide +kernel⟩, by decide +kernel⟩

/-- OperandTraps: an overflow in FMUL with O enabled, and a decimal division by zero with Z enabled. -/
theorem witness_OperandTraps_floating :
    statusOf 0x400 (mulNum f64 0 (binDec 11 52 (-1074) 0x7FE0000000000000) (binDec 11 52 (-1074) 0x7FE0000000000000)).2 = .error 3 ∧
    statusOf 0x800 (divNum d128 0 (Num.fin false 1 0) (Num.fin false 0 0)).2 = .error 2 :=
  ⟨error_of (by decide +kernel), error_of (by decide +kernel)⟩

/-- OperandTraps: a thread in problem state, and S.SID, a register that is not open to it. -/
def S4 : State := stateOf { regsOf [] with sw := 0x80000 }

theorem witness_OperandTraps_privilege : Fetched hdr false S4 (fetched false S4) ∧
    (archOf hdr (fetched false S4)).problem = true ∧ sregKnown 0x10 = true ∧ sregProblem 0x10 = false :=
  ⟨⟨by decide +kernel, by decide +kernel, by decide +kernel⟩, by decide +kernel, by decide +kernel, by decide +kernel⟩

/-- SystemRegisterMovesAndWrites: supervisor state takes every listed register, problem state S.BRV. -/
theorem witness_SystemRegisterMoves : sregKnown 0x10 = true ∧ (archOf hdr T1).problem = false ∧ sregKnown 0x24 = true ∧
    sregProblem 0x24 = true ∧ Passes hdr (mtsMicro 0x10) (mtsRestricted (archOf hdr S1) 0x10 5) T1 ∧
    Passes hdr (mtsMicro 0) (mtsRestricted (archOf hdr S1) 0 0) T1 :=
  ⟨by decide +kernel, by decide +kernel, by decide +kernel, by decide +kernel,
    passes_of _ _ _ _ (by decide +kernel) (by decide +kernel) (by decide +kernel),
    passes_of _ _ _ _ (by decide +kernel) (by decide +kernel) (by decide +kernel)⟩

/-- ExceptionsAndReturn: no transaction is open, the thread is in supervisor state and S.EPC is aligned. -/
theorem witness_ExceptionsAndReturn : (T1.thr hdr.pu.val hdr.th).tx = none ∧ (archOf hdr T1).problem = false ∧
    (archOf hdr T1).epc.toNat % 4 = 0 ∧ ({ vec := 0x0B, detail := 0 } : Exc).words = 2 := by decide +kernel

/-- BranchesAndCallFrames: G3 and LK are aligned; CALLM and RETM with an aligned SP in the L2's line. -/
def S5 : State := stateOf (regsOf [(12, 0x3000), (14, 0x11), (30, 0x4444), (31, 0x2080)])

def callWords : List (Word × List Byte) :=
  [(0x2060, toBe 8 1), (0x2068, toBe 8 0x4444), (0x2070, toBe 8 0x11), (0x2078, toBe 8 0)]

theorem witness_BranchesAndCallFrames : Fetched hdr false S5 (fetched false S5) ∧ frameSize 1 = 32 ∧
    ((archOf hdr (fetched false S5)).rg rSP).toNat % 16 = 0 ∧ ((archOf hdr (fetched false S5)).rg 12).toNat % 4 = 0 ∧
    ((archOf hdr (fetched false S5)).rg rLK).toNat % 4 = 0 ∧
    callWords = (([1, 0x4444, 0x11, 0].zipIdx).map (fun x => ((0x2060 : Word) + BitVec.ofNat 64 (8 * x.2), toBe 8 x.1))) ∧
    (∃ v, storeAll 0 false callWords (fetched false S5) = .bytes [] v) :=
  ⟨⟨by decide +kernel, by decide +kernel, by decide +kernel⟩, by decide +kernel, by decide +kernel, by decide +kernel,
    by decide +kernel, by decide +kernel,
    ⟨(match storeAll 0 false callWords (fetched false S5) with | .bytes _ v => v | _ => S5), by decide +kernel⟩⟩

/-- BranchesAndCallFrames: memory at SP holds the header of mask 1. -/
def S6 : State := { S5 with mem := [(0x2087, 1)] }

def T6 : State := fetched false S6

def V6 : State := match load 0 false 0x2080 8 T6 with | .bytes _ v => v | _ => T6

/-- BranchesAndCallFrames: the header is the mask 1, and is not the mask 3; LK and one register follow it. -/
theorem witness_RETM : load 0 false 0x2080 8 T6 = .bytes [0, 0, 0, 0, 0, 0, 0, 1] V6 ∧ (archOf hdr T6).rg rSP = 0x2080 ∧
    (maskRegs 1).length = 1 ∧ BitVec.ofNat 64 (ofBe [0, 0, 0, 0, 0, 0, 0, 1]) = (1 : BitVec 16).setWidth 64 ∧
    (1 : Word) ≠ (3 : BitVec 16).setWidth 64 ∧
    ∃ w, loadAll 0 false [(0x2088, 8), (0x2090, 8)] V6 = .bytes (List.replicate 16 0) w :=
  ⟨by decide +kernel, by decide +kernel, by decide +kernel, by decide +kernel, by decide +kernel,
    (match loadAll 0 false [(0x2088, 8), (0x2090, 8)] V6 with | .bytes _ w => w | _ => T6), by decide +kernel⟩

/-- WaitAndInterrupts: a thread that waits with an interrupt of its priority pending, with IE at 0 and at 1. -/
def S7 (sw : Word) : State :=
  S1.updThr 0 false (fun t => { t with wait := .interrupt, pend := [(9, some 3)], arch := { t.arch with sw := sw } })

theorem witness_WaitAndInterrupts : canRun S1 0 false = true ∧ wakes ((S7 0x3000).thr 0 false) = true ∧
    dueEvent (S7 0x3000) 0 false = none ∧ dueEvent (S7 0x43000) 0 false = some (.irq 9 3) ∧
    ((S7 0x43000).thr 0 false).running = true ∧ ((S7 0x43000).thr 0 false).halted = false ∧
    ((S7 0x43000).pu 0).retrying = false ∧ ((S7 0x43000).thr 0 false).wait = .interrupt ∧
    ((S7 0x43000).thr 0 false).tx = none := by decide +kernel

/- Loads, stores and the store buffer. -/

/-- LoadsAndAddressingModes and StoresEnterTheBufferAlone: a load of the line in the L2 gives bytes, a load of an address
that no segment maps an exception; a store of 256 bytes' last 8 within a line enters the buffer, one that no segment
maps does not. -/
theorem witness_LoadsAndStores :
    (∃ u, load 0 false 0x2000 8 T1 = .bytes [0, 0, 0, 0, 0, 0, 0, 0] u) ∧
    (∃ e u, load 0 false 0x80000000 8 T1 = .exc e u) ∧
    (∃ u, storeAll 0 false [(0x20F8, toBe 8 5)] T1 = .bytes [] u) ∧ 8 + (0x20F8 : Word).toNat % 256 ≤ 256 ∧
    (∃ e u, storeAll 0 false [(0x80000000, toBe 8 5)] T1 = .exc e u) :=
  ⟨⟨(match load 0 false 0x2000 8 T1 with | .bytes _ u => u | _ => T1), by decide +kernel⟩,
    ⟨{ vec := 5, detail := 0x30, eaddr := 0x80000000 }, (match load 0 false 0x80000000 8 T1 with | .exc _ u => u | _ => T1),
      by decide +kernel⟩,
    ⟨(match storeAll 0 false [(0x20F8, toBe 8 5)] T1 with | .bytes _ u => u | _ => T1), by decide +kernel⟩, by decide +kernel,
    ⟨{ vec := 5, detail := 0x30, eaddr := 0x80000000, w := true },
      (match storeAll 0 false [(0x80000000, toBe 8 5)] T1 with | .exc _ u => u | _ => T1), by decide +kernel⟩⟩

/-- StoresEnterTheBufferAlone: a thread that translates, with its page in the DTLB, and in problem state without the right. -/
def tlb1 (u : Bool) : TlbEntry :=
  { va := 0x2000, zpa := 0x2000, pa := 0x2000, bits := 12, mt := .normal, r := true, w := true, x := false, u := u, g := true, ctx := 0 }

def S8t (u : Bool) : State :=
  (S1.updThr 0 false (fun t => { t with arch := { t.arch with ttb := 1, sw := 0x80000 } })).updPu 0
    (fun p => { p with tlb := [tlb1 u] })

theorem witness_Tlb : ∀ u : Bool, ((S8t u).puZone 0).isSome = true ∧ ttbOn ((S8t u).thr 0 false).arch = true ∧
    tlbLookup ((S8t u).pu 0) .store 0x2008 (ttbCtx ((S8t u).thr 0 false).arch) = some (tlb1 u) ∧
    rightsOk (tlb1 u) .store ((S8t u).thr 0 false).arch.problem = u := by decide +kernel

/-- LoadsAndAddressingModes: an indexed access whose fields are legal, one whose mode is reserved, one whose target is
its base; a modulo access that passes, and ones that trap with each detail; bit-reversal with a legal bit count. -/
theorem witness_AddressingModes :
    let o : MemX := { am := 0, sz := 3, a := 3, t := 5, x := 6, sm := 0 }
    let m : MemX := { am := 4, sz := 3, a := 1, t := 5, x := 2, sm := 0 }
    let mods : Nat → Arch := fun d => { regsOf [(1, 56), (2, 8)] with mods := [(0, BitVec.ofNat 64 d)] }
    (decN false true o (archOf hdr T1) = none ∧ decN true true o (archOf hdr T1) = none ∧
      decN false false o (archOf hdr T1) = none ∧ decN true false o (archOf hdr T1) = none) ∧
    decN false true { o with am := 3 } (archOf hdr T1) = some (0x0C, 5) ∧
    decN true true { o with am := 6 } (archOf hdr T1) = some (0x0C, 5) ∧
    decN false false { o with am := 7 } (archOf hdr T1) = some (0x0C, 5) ∧
    decN true false { o with am := 2, sm := 1 } (archOf hdr T1) = some (0x0C, 5) ∧
    decN false true { o with am := 1, t := 3 } (archOf hdr T1) = some (0x0C, 4) ∧
    (eaN (mods 0x1000000000000) m 8).toOption = some (56, some (1, 0)) ∧
    modLen (0x1000000000000 : Word) = some 64 ∧ modLen (0 : Word) = none ∧
    (eaN (mods 0) m 8).toOption = none ∧
    (64 : Nat) < 57 + 8 ∧ (archOf hdr T1).brv.toNat < 32 := by decide +kernel

/-- MemoryThroughLoadsAndDrains: the load above translates to a line of type NORMAL that the L2 holds. -/
theorem witness_LoadFromL2 : (translate 0 false 0x2000 .load T1).1.toOption = some { pa := 0x2000, mt := .normal } ∧
    8 + (0x2000 : Word).toNat % 256 ≤ 256 ∧ ((translate 0 false 0x2000 .load T1).2.thr 0 false).sb = [] ∧
    (l2State ((translate 0 false 0x2000 .load T1).2.pu 0) (0x2000 / 256)).isSome = true ∧
    (translate 0 false 0x2000 .load T1).2.poisoned (0x2000 / 256) = false ∧
    noTx (translate 0 false 0x2000 .load T1).2 = true ∧
    tget none (translate 0 false 0x2000 .load T1).2.coh.pins (0x2000 / 256) = none := by decide +kernel

/-- MemoryThroughLoadsAndDrains: a released store at the front, into the line held in M. -/
def entry0 : SbEntry := { line := 32, mt := .normal, bytes := [(255, some 0xAB)], size := 1, va := 0x20FF, released := true }

def S8 : State := S1.updThr 0 false (fun t => { t with sb := [.store entry0] })

theorem witness_Drain : (S8.thr 0 false).sb[0]? = some (.store entry0) ∧ mayDrain 0 (S8.thr 0 false).sb 0 entry0 = true ∧
    clocked S8 0 = true ∧ entry0.mt ≠ .device ∧ entry0.tx = false ∧ isCommit S8 entry0.line = false ∧
    l2State (S8.pu 0) entry0.line = some .m ∧ holders S8 entry0.line = [0] ∧ homeHeld S8 entry0.line = false ∧
    tget none S8.coh.busy entry0.line = none ∧ tget none S8.coh.pins entry0.line = none ∧ noTx S8 = true ∧
    (entry0.bytes.map (fun x => x.1)).Nodup := by decide +kernel

/-- ReserveStoreAndAtomics: the state after the translation of an access to the line held in M. -/
def part0 : Part := ({ pa := 0x2000, mt := .normal }, 0x2000, 8)

def U1 (u : Use) (w : Bool) : State := (atomAccess 0 false u w 0x2000 8 T1).2

theorem atom_U1 (u : Use) (w : Bool) (h : (atomAccess 0 false u w 0x2000 8 T1).1.toOption = some part0) :
    atomAccess 0 false u w 0x2000 8 T1 = (.ok part0, U1 u w) := pair_of (ok_of h) rfl

theorem witness_LRES : atomAccess 0 false .load false 0x2000 8 T1 = (.ok part0, U1 .load false) ∧
    fencesHold ((U1 .load false).thr 0 false) = false ∧
    homeAnswer 0 false part0.1.pa .read 0 (U1 .load false) = (none, U1 .load false) ∧
    (∃ b v, loadLine 0 false part0 (U1 .load false) = .bytes b v ∧ ownForLres 0 false (part0.1.pa / 256) v = (true, v) ∧
      l2State (v.pu 0) (part0.1.pa / 256) = some .m) :=
  ⟨atom_U1 _ _ (by decide +kernel), by decide +kernel, by decide +kernel, List.replicate 8 0,
    (match loadLine 0 false part0 (U1 .load false) with | .bytes _ v => v | _ => T1), by decide +kernel, by decide +kernel,
    by decide +kernel⟩

theorem witness_SCOND_and_atomics : atomAccess 0 false .store true 0x2000 8 T1 = (.ok part0, U1 .store true) ∧
    atomAccess 0 false .rmw true 0x2000 8 T1 = (.ok part0, U1 .rmw true) ∧
    (∀ s ∈ [U1 .store true, U1 .rmw true], (s.thr 0 false).replay = [] ∧ latchRoom (s.thr 0 false) = true ∧
      comparedAll s 0 false = true ∧ (s.thr 0 false).resv ≠ some 32 ∧ (s.thr 0 false).sb = [] ∧ heldM s 0 32 = true ∧
      lineTurn (s.puAcc 0 false) 32 s = true ∧ homeBusy s 32 = false ∧ isCommit s 32 = false ∧
      s.poisoned 32 = false ∧ tget none s.coh.pins 32 = none ∧ noTx s = true) :=
  ⟨atom_U1 _ _ (by decide +kernel), atom_U1 _ _ (by decide +kernel), by decide +kernel⟩

/-- ReserveStoreAndAtomics: with the reservation held. -/
def S9 : State := S1.updThr 0 false (fun t => { t with resv := some 32 })

theorem witness_SCOND_reserved : Fetched hdr false S9 (fetched false S9) ∧
    (atomAccess 0 false .store true 0x2000 8 (fetched false S9)).1.toOption = some part0 ∧
    (let u := (atomAccess 0 false .store true 0x2000 8 (fetched false S9)).2
     (u.thr 0 false).resv = some (part0.1.pa / 256) ∧ comparedAll u 0 false = true ∧ (u.thr 0 false).sb = [] ∧
     isCommit u 32 = false ∧ l2State (u.pu 0) 32 = some .m ∧ holders u 32 = [0] ∧ homeHeld u 32 = false ∧
     tget none u.coh.busy 32 = none ∧ tget none u.coh.pins 32 = none) :=
  ⟨⟨by decide +kernel, by decide +kernel, by decide +kernel⟩, by decide +kernel, by decide +kernel⟩

/-- FencesAndSynchronization: a thread that waits in SYNC.EP with nothing buffered, and one whose DEVICE store failed. -/
def S10 (df : Option (Word × Nat)) : State := S1.updThr 0 false (fun t => { t with wait := .sync 0, sb := [.marker], devFail := df })

theorem witness_SyncEp : comparedAll T1 0 false = true ∧ ∀ df ∈ [none, some ((0x2000 : Word), 3)],
    clocked (S10 df) 0 = true ∧ ((S10 df).thr 0 false).wait = .sync 0 ∧ (∀ e, SbItem.store e ∉ ((S10 df).thr 0 false).sb) ∧
    ((S10 df).thr 0 false).running = true ∧ ((S10 df).pu 0).retrying = false ∧ ((S10 df).thr 0 false).devFail = df ∧
    ((S10 df).pu 0).tracker = [] ∧ (S10 df).coh.wbuf = [] := by
  refine ⟨by decide +kernel, ?_⟩
  intro df h
  simp only [List.mem_cons, List.not_mem_nil, or_false] at h
  rcases h with rfl | rfl
  · exact ⟨by decide +kernel, by decide +kernel, noStore_spec (by decide +kernel), by decide +kernel⟩
  · exact ⟨by decide +kernel, by decide +kernel, noStore_spec (by decide +kernel), by decide +kernel⟩

/-- FencesAndSynchronization: a fence with a store buffered. -/
theorem witness_Fences : Fetched hdr false S8 (fetched false S8) ∧ ((fetched false S8).thr 0 false).tx = none ∧
    SbItem.store entry0 ∈ ((fetched false S8).thr 0 false).sb :=
  ⟨⟨by decide +kernel, by decide +kernel, by decide +kernel⟩, by decide +kernel, by decide +kernel⟩

/- Transactions. -/

def txOf (depth : Nat) (constrained : Bool) (data : List (Nat × Option Byte)) (writes : List Nat) : Tx :=
  { constrained := constrained, depth := depth, saved := regsOf [], openPc := 0xFFC, d := 9, stamp := 1, retired := 0,
    reads := [], writes := writes, data := data }

def S11 (x : Tx) : State := S1.updThr 0 false (fun t => { t with tx := some x })

theorem passes_tx (x : Tx) (m : Option Nat) (t : State) (h1 : (t.pu hdr.pu.val).cs = [])
    (h2 : condTrue hdr.cond (archOf hdr t) = true) (h3 : (t.thr hdr.pu.val hdr.th).tx = some x)
    (h4 : x.constrained = false ∨ x.retired < 32) : Passes hdr m false t :=
  ⟨fun _ k _ => omits_none h1 k, h2, fun y e => by rw [h3] at e; cases e; exact ⟨rfl, h4⟩⟩

/-- Transactions: outside one, with nothing buffered. -/
theorem witness_Transactions_outside : (T1.thr 0 false).tx = none ∧ (∀ e, SbItem.store e ∉ (T1.thr 0 false).sb) :=
  ⟨by decide +kernel, noStore_spec (by decide +kernel)⟩

theorem inside : ∀ k ∈ [1, 2, 31],
    let x := txOf k false [(0x2001, some 7)] [32]
    let t := fetched false (S11 x)
    canRun (S11 x) hdr.pu.val hdr.th = true ∧ dueEvent (S11 x) hdr.pu.val hdr.th = none ∧
      fetchIns hdr.pu.val hdr.th false (S11 x) = .done t ∧ (t.thr hdr.pu.val hdr.th).tx = some x ∧ (t.pu hdr.pu.val).cs = [] ∧
      condTrue hdr.cond (archOf hdr t) = true := by decide +kernel

/-- Transactions: inside one of depth 1, 2 and 31, with one byte written. -/
theorem witness_Transactions_inside : ∀ k ∈ [1, 2, 31],
    let x := txOf k false [(0x2001, some 7)] [32]
    let t := fetched false (S11 x)
    Fetched hdr false (S11 x) t ∧ (t.thr 0 false).tx = some x ∧
      (∀ m < 4, Passes hdr (some (0x35 * 64 + m)) false t) := by
  intro k hk
  obtain ⟨a, b, c, d, e, f⟩ := inside k hk
  exact ⟨⟨a, b, c⟩, d, fun m _ => passes_tx _ _ _ e f d (.inl rfl)⟩

theorem witness_TXCLOSE :
    let x := txOf 1 false [(0x2001, some 7)] [32]
    let t := fetched false (S11 x)
    (∀ e, SbItem.store e ∉ (t.thr 0 false).sb) ∧ comparedAll t 0 false = true ∧ x.lost = [] ∧
      (∀ l ∈ x.writes, isCommit t l = false) ∧ t.coh.waits = [] ∧ t.coh.wbuf = [] ∧ x.writes.Nodup ∧
      (x.data.map (fun e => e.1)).Nodup ∧ ∀ e ∈ x.data, e.1 / 256 ∈ x.writes :=
  ⟨noStore_spec (by decide +kernel), by decide +kernel⟩

/-- Transactions: the abort of a transaction of each kind. -/
theorem witness_Abort : ((S11 (txOf 2 false [] [])).thr 0 false).tx = some (txOf 2 false [] []) ∧
    ((S11 (txOf 1 true [] [])).thr 0 false).tx = some (txOf 1 true [] []) ∧ (txOf 1 true [] []).constrained = true := by
  decide +kernel

/- Cache maintenance, locking, translation and requests. -/

def part1 : Part := ({ pa := 0x2000, mt := .normal }, 0x2000, 1)

def partDev : Part := ({ pa := 0x40000000, mt := .device }, 0x40000000, 1)

def trans (u : Use) (w : Bool) (va : Word) (s : State) : State := (transParts 0 false u w [(va, 1)] s).2

theorem trans_spec {u : Use} {w : Bool} {va : Word} {s : State} {p : Part}
    (h : (transParts 0 false u w [(va, 1)] s).1.toOption = some [p]) :
    transParts 0 false u w [(va, 1)] s = (.ok [p], trans u w va s) := pair_of (ok_of h) rfl

theorem witness_S2 : Fetched hdr false S2 T2 ∧ ∀ m r, Passes hdr m r T2 :=
  ⟨⟨by decide +kernel, by decide +kernel, by decide +kernel⟩, fun m r => passes_of _ _ _ _ (by decide +kernel) (by decide +kernel) (by decide +kernel)⟩

/-- CacheMaintenance: CLN.L and the others on a line of DRAM that the homes let have the operation, and on a DEVICE. -/
theorem witness_LineMaintenance : (archOf hdr T2).rg 3 = 0x2000 ∧ (archOf hdr T2).rg 7 = 0x40000000 ∧
    (archOf hdr T2).problem = false ∧
    transParts 0 false .clean false [(0x2000, 1)] T2 = (.ok [part1], trans .clean false 0x2000 T2) ∧
    transParts 0 false .inval true [(0x2000, 1)] T2 = (.ok [part1], trans .inval true 0x2000 T2) ∧
    transParts 0 false .clean false [(0x40000000, 1)] T2 = (.ok [partDev], trans .clean false 0x40000000 T2) ∧
    transParts 0 false .inval true [(0x40000000, 1)] T2 = (.ok [partDev], trans .inval true 0x40000000 T2) ∧
    ∀ op ∈ [MntOp.clean, .inval, .cleanInval],
      let u := trans (if op = .inval then .inval else .clean) (decide (op = .inval)) 0x2000 T2
      let v := (asked (u.puAcc 0 false) 0x2000 (mntKind op) 5 u)
      let w := pinsLet (u.puAcc 0 false) none 32 v.2
      mntWaits u 0 false [32] = false ∧ v.1 = none ∧ lineTurn (u.puAcc 0 false) 32 v.2 = true ∧ homeBusy v.2 32 = false ∧
      w.1 = true ∧ (mntLine op (u.puAcc 0 false) 32 (some (0, false)) w.2).1 = true :=
  ⟨by decide +kernel, by decide +kernel, by decide +kernel, trans_spec (by decide +kernel), trans_spec (by decide +kernel),
    trans_spec (by decide +kernel), trans_spec (by decide +kernel), by decide +kernel⟩

/-- CacheMaintenance: DZL on the line held in M, and on a DEVICE. -/
theorem witness_DZL : transParts 0 false .store true [(0x2000, 1)] T2 = (.ok [part1], trans .store true 0x2000 T2) ∧
    transParts 0 false .store true [(0x40000000, 1)] T2 = (.ok [partDev], trans .store true 0x40000000 T2) ∧
    (let u := trans .store true 0x2000 T2
     mntWaits u 0 false [32] = false ∧ isCommit u 32 = false ∧ l2State (u.pu 0) 32 = some .m ∧ holders u 32 = [0] ∧
     homeHeld u 32 = false ∧ tget none u.coh.busy 32 = none ∧ tget none u.coh.pins 32 = none ∧ noTx u = true) :=
  ⟨trans_spec (by decide +kernel), trans_spec (by decide +kernel), by decide +kernel⟩

/-- CacheMaintenance: what each operation makes of the line that PU0 holds in M. -/
theorem witness_mntLine : noTx S2 = true ∧ isCommit S2 32 = false ∧ anyDirty S2 32 = true ∧
    (∀ n ∈ holders S2 32, agentUp S2 n = true) ∧ (∀ n, n < 86 → heldM S2 n 32 = true → lockedWay S2 n 32 = false) ∧
    ∀ op ∈ [MntOp.clean, .inval, .cleanInval], (mntLine op pu0 32 (some (0, false)) S2).1 = true := by decide +kernel

/-- CacheMaintenance: a CMR range of no line, one of the line that is held, one of a DEVICE and one of no segment. -/
theorem witness_CMR : ((archOf hdr T2).rg 1).toNat / 256 * 256 = 0 ∧ ((archOf hdr T2).rg 5).toNat / 256 * 256 = 256 ∧
    T2.puZone 0 = some 0 ∧ (T2.thr 0 false).sb = [] ∧ 0x80000000 + 256 ≤ 2 ^ 42 ∧
    cmrRefused T2 0 (rangeSegs 0x40000000 256) = some (0x31, 0x40000000) ∧
    cmrRefused T2 0 (rangeSegs 0x80000000 256) = some (0x30, 0x80000000) ∧
    cmrRefused T2 0 (rangeSegs 0x2000 256) = none ∧
    ∀ op ∈ [MntOp.clean, .cleanInval, .inval],
      let r := cmrAnswer (T2.puAcc 0 false) 0 (mntKind op) (rangeSegs 0x2000 256) T2
      r.1 = none ∧ (cachedLines r.2).filter (fun l => (rangeSegs 0x2000 256).any (fun g =>
            decide (2 ^ 30 * segPseg (r.2.segEntry 0 g.1) + g.2.1 ≤ 256 * l) &&
              decide (256 * l < 2 ^ 30 * segPseg (r.2.segEntry 0 g.1) + g.2.2))) = [32] ∧
        mntWaits r.2 0 false [32] = false ∧ arbTurn (.cmr 0 false) r.2 = true ∧
        (mntLines op (r.2.puAcc 0 false) (some (0, false)) [32] r.2).1 = true := by decide +kernel

/-- LockingTlbAndIoa: LOCKW with each selector, on a line that is held and not locked, and on one that is locked. -/
def S12 : State := S2.updPu 0 (fun p => { p with l2 := [(512, { line := some 32, st := .m, locked := true })] })

theorem witness_LOCKW : (∀ s ∈ [S2, S12], let t := fetched false s
      ((archOf hdr t).rg 9).toNat % 4 = 0 ∧ ((archOf hdr t).rg 1).toNat % 4 = 1 ∧ ((archOf hdr t).rg 10).toNat % 4 = 2 ∧
      ((archOf hdr t).rg 2).toNat % 4 = 3 ∧ (archOf hdr t).problem = false ∧
      (transParts 0 false .clean false [(0x2000, 1)] t).1.toOption = some [part1] ∧
      mntWaits (trans .clean false 0x2000 t) 0 false [] = false ∧
      (transParts 0 false .clean false [(0x40000000, 1)] t).1.toOption = some [partDev]) ∧
    (let u := trans .clean false 0x2000 T2
     l2Find (u.pu 0) 32 = some 0 ∧ lockedWay u 0 32 = false ∧ setWays (u.pu 0) 32 (fun x => x.locked) = [] ∧
       (lockWay 0 false part1 u).1.toOption = some (some 0)) ∧
    (let u := trans .clean false 0x2000 (fetched false S12)
     l2Find (u.pu 0) 32 = some 0 ∧ lockedWay u 0 32 = true ∧ setWays (u.pu 0) 32 (fun x => x.locked) = [0]) := by
  decide +kernel

/-- LockingTlbAndIoa: TLBI with nothing buffered, a delivery to the PU that is the last and to one that is not, and a
deadline. -/
def tlbiState (todo : List Nat) : State :=
  { S1.updThr 0 false (fun t => { t with wait := .tlbi }) with
    coh := { arb := [{ pu := 0, th := false, op := .all, va := 0, ctx := 0, todo := todo }] } }

theorem witness_TLBI : (T1.thr 0 false).sb = [] ∧ comparedAll T1 0 false = true ∧ (archOf hdr T1).problem = false ∧
    (∀ op ∈ [TlbiOp.addr, .addrAll, .ctx, .all], tlbiHeld op 5 7 (T1.pu 0) = false) ∧
    T1.coh.arb.length + T1.coh.arbHome.length < 32 ∧ T1.puZone 0 = some 0 ∧
    ∀ todo ∈ [[0], [0, 1]], let s := tlbiState todo
      clocked s 0 = true ∧
      s.coh.arb.findIdx? (fun y => y.todo.contains 0) = some 0 ∧ (s.coh.arb[0]?).isSome = true ∧
      tlbiHeld .all 0 0 (s.pu 0) = false ∧ (∀ y ∈ s.coh.arb, y.todo ≠ []) ∧ (s.thr 0 false).wait = .tlbi ∧
      s.coh.arb.any (fun x => x.todo.contains 0) = true := by decide +kernel

/-- LockingTlbAndIoa: an endpoint record of node 1 with one path and home engine 0, which no CE serves, or CE0 does. -/
def epRec : List Host.Cell :=
  [(0x2000000, 0x80), (0x2000003, 1), (0x2000004, 1), (0x2000005, 8), (0x2000020, 0x80)]

def S13 (on : Bool) : State := { S1 with mem := epRec }.setLc (.ce 0) { state := if on then .on else .off }

theorem witness_IOA : (5 : Nat) % 64 ≠ 0 ∧ (0x2000 : Word).toNat % 128 = 0 ∧
    (translate 0 false 0x2000 .load T1).1.toOption = some { pa := 0x2000, mt := .normal } ∧
    (let u := (translate 0 false 0x2000 .load T1).2
     replayOf (u.thr 0 false) .ioa = none ∧ latchRoom (u.thr 0 false) = true ∧ (u.thr 0 false).sb = [] ∧
     comparedAll u 0 false = true ∧ unitHeld u false = false ∧ unitHeld u true = false ∧
     (request false 0 0 (zonePhys 0x2000 { pa := 0x2000, mt := .normal }) u).2.coh.blocked = [] ∧
     (request true 0 0 (zonePhys 0x2000 { pa := 0x2000, mt := .normal }) u).2.coh.blocked = [] ∧
     ∃ w, sendXstart hdr 6 9 0x2000 0x2000 u = .wait w) ∧
    (let u := (translate 0 false 0x2000 .load (fetched false (S13 false))).2
     ∃ e w, e.vec ≠ 0 ∧ sendXstart hdr 6 9 0x2000 0x2000 u = .exc e w) :=
  ⟨by decide, by decide, by decide +kernel,
    ⟨by decide +kernel, by decide +kernel, by decide +kernel, by decide +kernel, by decide +kernel, by decide +kernel,
      by decide +kernel, by decide +kernel,
      (match sendXstart hdr 6 9 0x2000 0x2000 (translate 0 false 0x2000 .load T1).2 with
        | .wait w => w | _ => T1), by decide +kernel⟩,
    { vec := 7, detail := 3, eaddr := 0x2000 },
      (match sendXstart hdr 6 9 0x2000 0x2000 (translate 0 false 0x2000 .load (fetched false (S13 false))).2 with
        | .exc _ w => w | _ => T1), by decide, by decide +kernel⟩

/-- LockingTlbAndIoa: with CE0 ON the exchange is accepted. -/
theorem witness_XSTART_accepted : let x := fetched false (S13 true)
    x.poisoned (0x2000000 / 256) = false ∧ ((x.thr 0 false).arch.rg 9).toNat % 65536 = 0 ∧
    (epOf x (x.rd 0x2000000 256)).map (fun e => e.home) = some 0 ∧ (x.le 0).gap = false ∧ (x.le 0).xq.length < 256 ∧
    x.lcs (.zone (Fin.ofNat 16 ((zoneNum x 0).getD 0))) = .on ∧ (engineOf x 0).isSome = true := by decide +kernel

def ioaEntry : LatchEntry := { kind := .ioa, pc := 0x1000, hi := 0, lo := 3 }

/-- LockingTlbAndIoa: a restarted XSTART finds its result, and an acknowledgement of one that waits. -/
def S14 : State := S1.updThr 0 false (fun t => { t with wait := .ioa 6 (some 42), replay := [ioaEntry] })

theorem witness_IOA_acknowledge : (S14.thr 0 false).wait = .ioa 6 (some 42) ∧ (S14.thr 0 false).running = true ∧
    (S14.pu 0).retrying = false ∧ (S14.pu 0).unchecked = false ∧ clocked S14 0 = true ∧
    replayOf (S14.thr 0 false) .ioa = some ioaEntry := by decide +kernel

/-- RegisterInstructionFrames: a long and a short instruction that give a next state. -/
theorem witness_Frames : (T1.thr hdr.pu.val hdr.th).tx = none ∧
    (∃ u, exec (.add hdr { d := 6, a := 1, b := 2, s := true }) S1 = .next u) ∧ (∃ u, exec (.liL hdr 6 7) S1 = .next u) :=
  ⟨by decide +kernel, ⟨_, rfl⟩, ⟨_, rfl⟩⟩

/- Homes and coherence. -/

/-- HomeRequestsAndLineWrites: PU0's requests for a line that no cache holds, and UPG for one that it shares. -/
def S15 : State := { S2 with coh := { dir := [(16 * dirSet 32, { line := some 32, pres := 1 })] } }

theorem witness_HomeRequests : noTx S2 = true ∧ S2.coh.waits = [] ∧ tget none S2.coh.busy 48 = none ∧
    tget none S2.coh.pins 48 = none ∧ agentOf pu0 = some 0 ∧ (dirWay S2 (dirSet 48 * 16 + 0)).line = none ∧
    dramAnswer pu0 (256 * 48) .read 0 S2 = (none, S2) ∧ S2.poisoned 48 = false ∧ dramAnswer pu0 (256 * 48) .write 1 S2 = (none, S2) ∧
    dramAnswer pu0 0x30F0 .atomic 4 S2 = (none, S2) ∧ (0x30F0 : BitVec 52).toNat / 256 = 48 ∧ isCommit S2 48 = false ∧
    heldByOther ((ownThread pu0).map (fun o => o.1)) 48 S2 = false ∧
    (∀ op ∈ [MntOp.clean, .inval, .cleanInval], dramAnswer pu0 (256 * 48) (mntKind op) 5 S2 = (none, S2) ∧
      (mntLine op pu0 48 (ownThread pu0) S2).1 = true) ∧
    dramAnswer (S2.puAcc 0 false) (256 * 48) .read 6 S2 = (none, S2) ∧ isOwned S2 48 = false ∧ l2State (S2.pu 0) 48 = none ∧
    48 ∉ (S2.pu 0).side ∧ homeHeld S2 48 = false ∧ (∀ n ∈ holders S2 48, agentUp S2 n = true) ∧
    prefetchLine 0 false 0x3000 S2 = some 48 ∧ prefetchLine 0 false 0x80000000 S2 = none := by decide +kernel

theorem witness_UPG : noTx S15 = true ∧ S15.coh.waits = [] ∧ (dirWay S15 (dirSet 32 * 16 + 0)).line = some 32 ∧
    dramAnswer pu0 (256 * 32) .write 1 S15 = (none, S15) ∧ pinnedInSet S15 32 < 4 ∧ tget none S15.coh.busy 32 = none ∧
    tget none S15.coh.pins 32 = none ∧ homeHeld S15 32 = false ∧ holders S15 32 = [0] ∧ agentUp S15 0 = true ∧
    (l2State (S15.pu 0) 32).isSome = true := by decide +kernel

/-- HomeRequestsAndLineWrites: a line of DRAM held in M, one of the commit region in an open block, a holder that holds
it no more in M, and a writer that is no PU. -/
def S16 : State := { S2 with commit := { size := 1, dirty := [0] } }

def S17 : State := { S15 with pus := [(0, { l2 := [(512, { line := some 32, st := .e })] })] }

def ce0 : Acc := { master := 64, th := false, zone := some 0 }

theorem witness_LineWrites : heldM S2 0 32 = true ∧ isCommit S2 32 = false ∧ heldM S16 0 32 = true ∧ isCommit S16 32 = true ∧
    blockOpen S16 (lineBlock 32) = true ∧ agentOf pu0 = some 0 ∧ heldM S17 0 32 = false ∧ 0 ∈ holders S17 32 ∧
    agentOf ce0 = some 48 ∧ noTx S2 = true ∧ noTx S17 = true ∧ homeBusy S2 48 = false ∧ S2.coh.blocked = [] ∧
    lineTurn ce0 48 S2 = true ∧ tget none S2.coh.pins 48 = none ∧ (∀ n ∈ holders S2 48, agentUp S2 n = true) ∧
    (dirWay S2 (dirSet 48 * 16 + 0)).line = none ∧ isCommit S2 48 = false ∧
    (0x30FF : BitVec 52).toNat % 256 + [(1 : Byte)].length ≤ 256 ∧ dramAnswer ce0 0x30FF .write 1 S2 = (none, S2) := by
  decide +kernel

/-- CoherenceMessagesAndEvents: a busy line with each message to send. -/
def S18 (req : ReqKind) (todo : List Msg) : State := { S15 with
  coh := { S15.coh with busy := [(32, some { req := { acc := pu0, kind := req, line := 32 }, todo := todo })] } }

theorem witness_Messages :
    (∀ m ∈ [Msg.fwd 0, .callBack 0, .inv 0], let s := S18 .rd [m, .data false false, .ack]
      noTx s = true ∧ s.coh.waits = [] ∧ (busyOf s 32).isSome = true ∧ keepsHold s 0 32 = false ∧
      agentUp s 0 = true ∧ (l2State (s.pu 0) 32).isSome = true) ∧
    (let s := S18 .rdx [.data true true, .ack]
     32 ∉ s.coh.wbuf ∧ s.poisoned 32 = false ∧ pu0.master.toNat < 48 ∧ agentUp s pu0.master.toNat = true ∧ (l2State (s.pu pu0.master.toNat) 32).isSome = true) ∧
    (busyOf (S18 .rd [.ack]) 32).isSome = true ∧ (busyOf (S18 .upg [.ack]) 32).isSome = true := by decide +kernel

theorem witness_CoherenceEvents : (S0.flt .zm).valid = false ∧ (S0.flt .zm).mask = 0 ∧ l2Find (S1.pu 0) 32 = some 0 ∧
    dirSet 32 = 2560 * (0 * 12 + 8) + 8 ∧ S15.coh.waits = [] ∧ S15.coh.wbuf = [] ∧ noTx S15 = true ∧ (S15.flt (.home 0)).mask = 0 ∧
    arbTurn (.recall (2560 * (0 * 12 + 8) + 8)) S15 = true ∧ S15.poisoned 32 = false ∧ (∀ n ∈ holders S15 32, agentUp S15 n = true) ∧
    ∀ w, w < 16 → ∀ l, (dirWay S15 (dirSet 32 * 16 + w)).line = some l →
      dirSet l = dirSet 32 ∧ dirFind S15 l = some w ∧ isCommit S15 l = false := by
  refine ⟨by decide +kernel, by decide +kernel, by decide +kernel, by decide +kernel, by decide +kernel, by decide +kernel,
    by decide +kernel, by decide +kernel, by decide +kernel, by decide +kernel, by decide +kernel, ?_⟩
  have h : ∀ w, w < 16 → (dirWay S15 (dirSet 32 * 16 + w)).line = none ∨
      ((dirWay S15 (dirSet 32 * 16 + w)).line = some 32 ∧ dirFind S15 32 = some w ∧ isCommit S15 32 = false) := by
    decide +kernel
  intro w hw l hl
  rcases h w hw with h | h
  · rw [h] at hl; cases hl
  · rw [h.1] at hl; cases hl; exact ⟨rfl, h.2⟩

/- Zones. -/

/-- ZoneManagerAndReset: a zone that is ON, with thread 0 of PU0 as its thread 0, and its copies held. -/
def S19 (st : LcState) : State := State.setLc { S0 with
  islands := [(0xE0, { power := true })]
  zones := [(0, { pus := 1, segHeld := true, tmap := [{ pu := 0, th := false, valid := true }] })] } (.zone 0) { state := st }

theorem witness_ZoneManager :
    reach phobos (regAddr 0xE0 0x500) 8 true (S19 .on) = (none, S19 .on) ∧ noTx (S19 .on) = true ∧
    segAddResult (putBit 45 true 0x1000) { S19 .on with segAdd := mix segAddMask 0 (putBit 45 true 0x1000) } ≠ 0 ∧
    segAddResult (putBit 45 true 64) { S19 .on with segAdd := mix segAddMask 0 (putBit 45 true 64) } = 0 ∧
    (S19 .on).zc ≤ 15 ∧ reach phobos (regAddr 0xF0 0x200) 8 true (S19 .on) = (none, S19 .on) ∧ ownsSlice (S19 .on) 0 15 = true ∧
    reach phobos (regAddr 0xF0 0x208) 8 true (S19 .on) = (none, S19 .on) ∧
    (mapEntry (S19 .on) 0 0).map (fun e => e.valid) = some true ∧ inCallup (S19 .on) 0 = false ∧ mapEntry (S19 .on) 0 1 = none ∧
    (S19 .starting).lcs (.zone 0) = .starting ∧ ((S19 .starting).zone 0).hold.length < 256 ∧
    (S19 .fenced).lcs (.zone 0) = .fenced ∧
    (∀ o ∈ [none, some (2 : BitVec 4)], tget none (((S19 .on).updThr 0 false (fun t => { t with pend := [(9, o)] })).thr 0 false).pend 9 = o) := by
  decide +kernel

/-- ZoneManagerAndReset: the steps of a reset that is under way. -/
theorem witness_ZoneReset :
    (let s := { S0 with islands := [(0xE0, { power := true })], zones := [(0, { resetBusy := true, homeDue := true })] }
     zoneResetReady s 0 = true ∧ (s.zone 0).homeDue = true ∧ islandUp s .zm = true ∧ arbTurn (.quiesce 0) s = true) ∧
    (let s := { S0 with islands := [(0xE0, { power := true })], zones := [(0, { resetBusy := true, drainDue := true, chanTodo := [3], accTodo := [true] })] }
     (s.zone 0).resetBusy = true ∧ (s.zone 0).drainDue = true ∧ islandUp s .zm = true ∧ engHeld s 3 = false ∧ s.coh.blocked = [] ∧
      openEntries s 3 = [] ∧ (3 : Fin 32).val ∈ (s.zone 0).chanTodo ∧
      true ∈ (s.zone 0).accTodo ∧ ∀ k, k < 16 → (s.slice true k).jobs = []) := by decide +kernel

/- Channels and links. -/

/-- Endpoint 0 of node 1: zone 0, home engine 0, one path on link 0, 4 KiB entries, payloads of at most 64 B. -/
def epRec0 : List Host.Cell :=
  [(0x2000000, 0x80), (0x2000003, 1), (0x2000004, 1), (0x2000005, 8), (0x200000B, 64), (0x2000020, 0x80)]

/-- A channel in M3: CE0 is ON and serves engine 0, link 0 is up with node 1 behind it, zone 0 and the commit region are
ON; the blocks of the exchange table are dirty and open, and memory holds the cells of m. -/
def chanOf (m n : List Host.Cell) : State :=
  let s := { S0 with
    chan := { applied := true }, links := [(0, { blockLock := true, amLock := true, live := true, peer := 1 })]
    ces := [(0, { le := 0 })], mem := m ++ epRec0 ++ n
    commit := { size := 1, dirty := [0, 1, 2, 3], openDone := true, allow := 64 }
    zones := [(0, { pus := 1, segHeld := true, seg := [(0, 0x8000000000000001)] })], plant := { budget := 64 } }
  let s := (((s.setLc (.zone 0) { state := .on }).setLc (.ce 0) { state := .on }).setLc (.link 0) { state := .on }).setLc .commit
    { state := .on }
  withDram { s with islands := [(0x69, { power := true })] }

def frame (kind : BitVec 4) (flags : BitVec 8) (key : Nat) (route code : BitVec 16) : Frame :=
  { version := 1, kind := kind, flags := flags, len := 0, src := 1, dst := 0, key := BitVec.ofNat 64 key, seq := 0, route := route,
    code := code, payload := [], crcOk := true, pcsOk := true }

def ep0 : Ep :=
  { en := true, zone := 0, home := 0, node := 1, paths := [(true, 0)], es := 8, mask := 0, base := 0, maxP := 64, rcb := 0 }

def seen (f : Frame) (s : State) : State := (countFec 0 f s).updLink 0 (fun k => { k with peer := f.src, live := true })

def found (f : Frame) (s : State) : State := (frameEp 0 f (seen f s)).2

/-- FrameReception: a link that is down, a frame that fails in the PCS, one of a wrong version, an IDLE, and a frame on
its way between engines. -/
theorem witness_FrameReception :
    let f := frame 6 0 0 0 0
    let s := chanOf [] []
    linkUp S0 0 = false ∧ linkUp s 0 = true ∧ { f with pcsOk := false }.pcsOk = false ∧ f.len = f.payload.length ∧
    s.coh.blocked = [] ∧ engHeld s 0 = false ∧
    s.inMode [.provision] = false ∧ (s.le (0 / 16)).gap = false ∧ frameOk s 0 6 { f with version := 2 } = false ∧
    frameOk s 0 6 f = true ∧ f.kind.toNat = 6 ∧
    fwdTurn 0 f s = none ∧
    (let c := frame 1 0 5 0 0
     let t := { s with chan := { s.chan with fwd := [(0, 0, c)] } }
     let x := { t with chan := { t.chan with fwd := t.chan.fwd.erase (0, 0, c) } }
     let w := (frameEp 0 c x).2
     let v := (endpoint ep0.home 0 w).2
     fwdTurn 0 c t = some 0 ∧ engHeld t 0 = false ∧ frameEp 0 c x = (some (0, ep0), w) ∧ t.coh.blocked = [] ∧
     engineOf w ep0.home = some 0 ∧ endpoint ep0.home 0 w = (some ep0, v) ∧
     (homeFrame 0 0 ep0 0 c v).coh.blocked = []) := by decide +kernel

/-- FrameReception: the same in M1, in M2 and in the sparing gap of the engine. -/
theorem witness_FrameReception_lost :
    let s := chanOf [] []
    (∀ m ∈ [Mode.provision, .restore], let t := { s with md := { s.md with mode := some m } }
      linkUp t 0 = true ∧ t.inMode [m] = true ∧ (t.le 0).gap = false) ∧
    (let t := s.updLe 0 (fun e => { e with gap := true })
     linkUp t 0 = true ∧ t.inMode [.provision] = false ∧ (t.le 0).gap = true ∧ (frame 1 0 5 0 0).kind ≠ 6) := by decide +kernel

/-- ExchangeFrames: what holds of a frame of a kind that arrives at CE0. -/
def arrives (kind : Nat) (f : Frame) (s : State) : Bool :=
  linkUp s 0 && s.inMode [.run, .degraded, .service, .quiesced, .holdup] && !engHeld s 0 && !(s.le 0).gap &&
    frameOk s 0 kind f && engineOf (seen f s) 0 == some 0 && decide (frameEp 0 f (seen f s) = (some (0, ep0), found f s)) &&
    (found f s).chan.applied && (found f s).coh.blocked.isEmpty

theorem arrives_spec {kind : Nat} {f : Frame} {s : State} (h : arrives kind f s = true) (h1 : f.pcsOk = true)
    (h2 : f.len = f.payload.length) (h3 : kind ≠ 6) :
    Arrives kind 0 f 0 0 ep0 s (found f s) ∧ (found f s).coh.blocked = [] := by
  simp only [arrives, Bool.and_eq_true, Bool.not_eq_true', beq_iff_eq, decide_eq_true_eq, List.isEmpty_iff] at h
  obtain ⟨⟨⟨⟨⟨⟨⟨⟨a, b⟩, c⟩, d⟩, e⟩, f'⟩, g⟩, i⟩, j⟩ := h
  exact ⟨⟨a, h1, h2, b, c, d, e, h3, ⟨f', g⟩, rfl, i⟩, j⟩

/-- A new CMD that may be taken, and one that finds the commit store frozen. -/
theorem witness_CMD : ∀ fr ∈ [false, true],
    let f := frame 1 0 5 0 0
    let s := let c := chanOf [] []; { c with commit := { c.commit with frozen := fr } }
    let w := found f s
    let v := (findIn 0 0 0 5 w).2.2
    arrives 1 f s = true ∧ chanHolds w = false ∧
    findIn 0 0 0 5 w = (none, some 952, v) ∧ inDoubt v (8 * bucketOf 0 5) = false ∧ v.coh.blocked = [] ∧
    (writeCmd 0 952 0 ep0 f v).2.coh.blocked = [] ∧
    cmdRefusal v ep0 (some 952) f = (if fr then some 3 else none) ∧ pathUp v ep0 (true, 0) = true := by decide +kernel

/-- A CMD in M6. -/
theorem witness_CMD_held :
    let f := frame 1 0 5 0 0
    let s := let c := chanOf [] []; { c with md := { c.md with mode := some .quiesced } }
    arrives 1 f s = true ∧ chanHolds (found f s) = true := by decide +kernel

/- The CRC of an exchange entry, computed step by step so that the kernel evaluates it. -/

def crcRun : List Byte → Nat → Nat
  | [], c => c
  | b :: l, c =>
    match (crcByte 0x82F63B78 (BitVec.ofNat 32 c) b).toNat with
    | 0 => crcRun l 0
    | k + 1 => crcRun l (k + 1)

theorem crcRun_spec (l : List Byte) (c : BitVec 32) : crcRun l c.toNat = (l.foldl (crcByte 0x82F63B78) c).toNat := by
  induction l generalizing c with
  | nil => rfl
  | cons b l ih =>
    have e : crcRun (b :: l) c.toNat = crcRun l (crcByte 0x82F63B78 (BitVec.ofNat 32 c.toNat) b).toNat := by
      rw [crcRun]
      split <;> rename_i h <;> rw [h]
    rw [e, ih, BitVec.ofNat_toNat, BitVec.setWidth_eq, List.foldl_cons]

def crcOf (l : List Byte) : Nat := 0xFFFFFFFF - crcRun l 0xFFFFFFFF

theorem crcOf_spec (l : List Byte) : crc32c l = crcOf l := by
  have h := crcRun_spec l 0xFFFFFFFF
  rw [crcOf, show (0xFFFFFFFF : Nat) = (0xFFFFFFFF : BitVec 32).toNat from rfl, h, crc32c, BitVec.toNat_not]
  rfl

/-- What readEntry looks at, in memory m. -/
def holds (m : List Host.Cell) (i : Nat) (x : Xe) : Bool :=
  let b := (List.range 128).map (fun k => tget 0 m (128 * i + k))
  !b.all (· == 0) && crcOf (b.take 124) == beAt b 124 4 && xeOf b == x

theorem readEntry_of {n i : Nat} {s : State} {m : List Host.Cell} {x : Xe} (h : holds m i x = true) (hm : s.mem = m)
    (hp : s.poison = []) : readEntry n i s = (some x, s) := by
  subst hm
  simp only [holds, Bool.and_eq_true, Bool.not_eq_true', beq_iff_eq] at h
  obtain ⟨⟨h2, h3⟩, h4⟩ := h
  have hb : s.poisoned (i / 2) = false := by rw [State.poisoned, hp]; rfl
  have hr : s.rd (128 * i) 128 = (List.range 128).map (fun k => tget 0 s.mem (128 * i + k)) := rfl
  simp only [readEntry, hb, hr, h2, crcOf_spec, h3, h4, ne_eq, not_true, if_false, Bool.false_eq_true]

theorem findOut_of {n e key i : Nat} {s : State} {x : Xe} (h : readEntry n i s = (some x, s))
    (hi : key % 2 ^ 18 = i ∧ entryLe i = e ∧ 6144 ≤ i % 8192 ∧ x.key = key) : findOut n e key s = (some (i, x), s) := by
  obtain ⟨rfl, rfl, h1, rfl⟩ := hi
  simp only [findOut, h]
  rw [if_neg (by rintro (h | h) <;> omega)]
  simp

theorem openEntry_of {n i : Nat} {s v : State} {x : Xe} {ep : Ep} (h : readEntry n i s = (some x, s))
    (he : engineOf s (entryLe i) = some n) (hp : endpoint (entryLe i) x.ep s = (some ep, v)) :
    openEntry i s = (some (n, x, ep), v) := by
  rw [openEntry, he]
  simp only [h, hp]

/-- An outbound exchange in a state, with the descriptor of a CMD program at 0. -/
def xe (st recv : Nat) : Xe := { key := 6144, state := st, recvSeq := recv }

/-- The entry x at i as memory cells, with the bytes of its key, its RECV_SEQ and its CRC written out. -/
def xeCells (i : Nat) (key recv crc : List Byte) (st : Byte) : List Host.Cell :=
  let put := fun (o : Nat) (l : List Byte) => l.zipIdx.map (fun b => (128 * i + o + b.2, b.1))
  put 6 key ++ [(128 * i + 8, st)] ++ put 0x14 recv ++ put 124 crc

def crcBytes (st recv : Nat) : List Byte :=
  match st with
  | 1 => [158, 161, 138, 210]
  | 8 => [60, 150, 109, 212]
  | 9 => if recv = 0 then [80, 81, 233, 20] else [42, 2, 31, 98]
  | 10 => [17, 190, 136, 184]
  | _ => [75, 239, 66, 96]

def entryCells (st recv : Nat) : List Host.Cell :=
  xeCells 6144 [24] (if recv = 0 then [] else [255, 255, 255, 255]) (crcBytes st recv) (BitVec.ofNat 8 st)

def memOf (st recv : Nat) : List Host.Cell :=
  entryCells st recv ++ epRec0 ++ [(0x40000000, 1), (0x40000027, 1)]

def outOf (st recv : Nat) : State := chanOf (entryCells st recv) [(0x40000000, 1), (0x40000027, 1)]

theorem holds_out : ∀ p ∈ [((1 : Nat), noSeq), (8, noSeq), (9, 0), (9, noSeq), (10, noSeq), (14, noSeq)],
    holds (memOf p.1 p.2) 6144 (xe p.1 p.2) = true := by decide +kernel

/-- DATA and STATUS of an exchange in state 9: repeated, and next in order; STATUS of one that has ended. -/
theorem data_facts : ∀ p ∈ [((2 : Nat), (9 : Nat), (0 : Nat)), (2, 9, noSeq), (3, 9, noSeq), (3, 14, noSeq)],
    let f := frame (BitVec.ofNat 4 p.1) 1 6144 0 0
    let s := outOf p.2.1 p.2.2
    let v := found f s
    let x := xe p.2.1 p.2.2
    arrives p.1 f s = true ∧ p.1 ≠ 6 ∧
    f.flags.getLsbD 0 = true ∧ inDoubt v (6144 % 2 ^ 18) = false ∧
    abandoned x = false ∧ seqSeen x f.seq.toNat = decide (p.2.2 = 0) ∧ (p.2.2 ≠ 0 → f.seq.toNat = seqNext x) ∧
    v.mem = memOf p.2.1 p.2.2 ∧ v.poison = [] ∧
    (let v1 := (program 0 0 0 v).2
     let d := ((program 0 0 0 v).1.getD (cpdOf [], [])).1
     program 0 0 0 v = (some (d, []), v1) ∧ (v1.vol 6144).restored = false ∧
     putPieces 0 0 f.payload (inPieces [] (v1.vol 6144).dataIn 0 f.len) v1 = (.done, v1) ∧
     entryOpen 0 6144 0 v1 = (true, v1) ∧ (putEntry 0 6144 0 { x with recvSeq := f.seq.toNat } v1).2.coh.blocked = [] ∧
     entryOpen 0 6144 0 v = (true, v) ∧ readCpd 0 0 0 v = (some d, (readCpd 0 0 0 v).2) ∧
     ((readCpd 0 0 0 v).2.vol 6144).restored = false ∧
     zoneWriteN 0 0 d.status f.payload (readCpd 0 0 0 v).2 = (.done, (readCpd 0 0 0 v).2) ∧
     (putEntry 0 6144 0 { x with state := 14, status := f.code.toNat, recvSeq := f.seq.toNat }
       (complete 0 6144 ep0.zone x 1 (if f.flags.getLsbD 2 then 1 else 0) f.code.toNat f.len (readCpd 0 0 0 v).2)).2.coh.blocked = []) := by
  decide +kernel

theorem witness_DATA : ∀ p ∈ [((2 : Nat), (9 : Nat), (0 : Nat)), (2, 9, noSeq), (3, 9, noSeq), (3, 14, noSeq)],
    let f := frame (BitVec.ofNat 4 p.1) 1 6144 0 0
    Arrives p.1 0 f 0 0 ep0 (outOf p.2.1 p.2.2) (found f (outOf p.2.1 p.2.2)) ∧
    (found f (outOf p.2.1 p.2.2)).coh.blocked = [] ∧
    findOut 0 0 6144 (found f (outOf p.2.1 p.2.2)) = (some (6144, xe p.2.1 p.2.2), found f (outOf p.2.1 p.2.2)) := by
  intro p hp
  obtain ⟨a, b, _, _, _, _, _, r, q, _⟩ := data_facts p hp
  obtain ⟨c, d⟩ := arrives_spec a rfl rfl b
  refine ⟨c, d, findOut_of (readEntry_of (holds_out (p.2.1, p.2.2) ?_) r q) ⟨by decide, by decide, by decide, rfl⟩⟩
  simp only [List.mem_cons, List.not_mem_nil, or_false] at hp
  rcases hp with rfl | rfl | rfl | rfl <;> decide

/-- ACCEPT with each kind of code of an exchange in state 8 whose CMD is awaited. -/
theorem accept_facts : ∀ code ∈ [(0 : Nat), 3, 6, 7],
    let f := frame 4 1 6144 1 (BitVec.ofNat 16 code)
    let s := (outOf 8 noSeq).updVol 6144 (fun y => { y with sent := [{ ep := 0, link := 0, frame := frame 1 0 6144 0 0 }] })
    let v := found f s
    let x := xe 8 noSeq
    let fresh := v.updVol 6144 (fun y => { y with redrives := 0 })
    arrives 4 f s = true ∧ v.mem = memOf 8 noSeq ∧ v.poison = [] ∧ f.flags.getLsbD 0 = true ∧
    inDoubt v (6144 % 2 ^ 18) = false ∧ f.route.toNat % 16 = 1 ∧ awaits v 6144 1 f.seq.toNat = true ∧
    entryOpen 0 6144 0 fresh = (true, fresh) ∧
    (endOut 0 6144 x ep0 14 3 code fresh).coh.blocked = [] ∧ (endOut 0 6144 x ep0 10 2 0 fresh).coh.blocked = [] := by
  decide +kernel

theorem witness_ACCEPT : ∀ code ∈ [(0 : Nat), 3, 6, 7],
    let f := frame 4 1 6144 1 (BitVec.ofNat 16 code)
    let s := (outOf 8 noSeq).updVol 6144 (fun y => { y with sent := [{ ep := 0, link := 0, frame := frame 1 0 6144 0 0 }] })
    Arrives 4 0 f 0 0 ep0 s (found f s) ∧ (found f s).coh.blocked = [] ∧
      findOut 0 0 6144 (found f s) = (some (6144, xe 8 noSeq), found f s) := by
  intro code hc
  obtain ⟨a, r, q, _⟩ := accept_facts code hc
  obtain ⟨c, d⟩ := arrives_spec a rfl rfl (by decide)
  exact ⟨c, d, findOut_of (readEntry_of (holds_out (8, noSeq) (by decide)) r q) ⟨by decide, by decide, by decide, rfl⟩⟩

/-- The exchange that is accepted, without data to send, waits for nothing. -/
theorem witness_ACCEPT_pump :
    let f := frame 4 1 6144 1 0
    let s := (outOf 8 noSeq).updVol 6144 (fun y => { y with sent := [{ ep := 0, link := 0, frame := frame 1 0 6144 0 0 }] })
    let fresh := (found f s).updVol 6144 (fun y => { y with redrives := 0 })
    (pump 0 6144 { xe 8 noSeq with state := 9 } ep0
      (answered 6144 1 f.seq.toNat (putEntry 0 6144 0 { xe 8 noSeq with state := 9 } fresh).2)).coh.blocked = [] := by
  intro f s fresh
  simp only [putEntry, xeBytes, crcOf_spec]
  decide +kernel

/-- REDRIVE of an exchange that the engine does not hold. -/
theorem witness_REDRIVE :
    let f := frame 5 0 5 1 0
    let s := chanOf [] []
    let v := (findIn 0 0 0 5 (found f s)).2.2
    arrives 5 f s = true ∧ s.inMode [.holdup] = false ∧ f.flags.getLsbD 0 = false ∧ v.coh.blocked = [] ∧
    findIn 0 0 0 5 (found f s) = (none, some 952, v) ∧ inDoubt v (8 * bucketOf 0 5) = false := by decide +kernel

/-- EngineWork: the acknowledged CMD of an entry, and an entry in each state that a timer looks at. -/
def ackState : State := (outOf 1 noSeq).updVol 6144 (fun y => { y with pendingAck := some (0, frame 1 0 6144 0 0) })

/-- The ACCEPT of a CMD whose writes are acknowledged. -/
def acceptedAt (i : Nat) (f : Frame) (v : State) : State :=
  sendAnswer 0 0 ep0 0 false f 0 1 (acceptWait 0 (v.updVol i (fun z => { z with pendingAck := none })))

theorem witness_CommitWriteAck :
    let v1 := (nodeEp 0 1 ackState).2
    let v2 := (endpoint 0 0 v1).2
    (ackState.vol 6144).pendingAck = some (0, frame 1 0 6144 0 0) ∧ engineOf ackState (entryLe 6144) = some 0 ∧
    engHeld ackState (entryLe 6144) = false ∧ (ackState.vol 6144).cmdAt = 0 ∧
    nodeEp 0 1 ackState = (some 0, v1) ∧ endpoint 0 0 v1 = (some ep0, v2) ∧
    readEntry 0 6144 v2 = (some (xe 1 noSeq), v2) ∧
    (acceptedAt 6144 (frame 1 0 6144 0 0) v2).coh.blocked = [] :=
  ⟨by decide +kernel, by decide +kernel, by decide +kernel, by decide +kernel, by decide +kernel, by decide +kernel,
    readEntry_of (holds_out (1, noSeq) (by decide)) (by decide +kernel) (by decide +kernel), by decide +kernel⟩

/-- EngineWork: the same of a CMD that has to be written yet. -/
def newState : State :=
  let c := (chanOf [] []).updVol 952 (fun y => { y with pendingAck := some (0, frame 1 0 5 0 0) })
  { c with commit := { c.commit with dirty := [0, 1, 2, 3, 263] } }

theorem witness_CommitWriteAck_new :
    let v2 := (endpoint 0 0 (nodeEp 0 1 newState).2).2
    let v4 := (writeCmd 0 952 0 ep0 (frame 1 0 5 0 0) v2).2
    engineOf newState (entryLe 952) = some 0 ∧ engHeld newState (entryLe 952) = false ∧ readEntry 0 952 v2 = (none, v2) ∧
    (writeCmd 0 952 0 ep0 (frame 1 0 5 0 0) v2).1 = true ∧
    (acceptedAt 952 (frame 1 0 5 0 0) v4).coh.blocked = [] := by decide +kernel

def timerState (st link : Nat) : State :=
  (outOf st noSeq).updVol 6144 (fun y => { y with
    redrives := 3, waiting := true, sent := [{ ep := 0, link := link, frame := frame 1 0 6144 0 0 }] })

theorem timer_facts : ∀ p ∈ [((1 : Nat), (0 : Nat)), (8, 0), (8, 512), (9, 0), (10, 0), (14, 0)],
    let s := timerState p.1 p.2
    let v := (endpoint 0 0 s).2
    s.mem = memOf p.1 noSeq ∧ s.poison = [] ∧
    engineOf s (entryLe 6144) = some 0 ∧ engHeld s (entryLe 6144) = false ∧ endpoint (entryLe 6144) 0 s = (some ep0, v) ∧
    3 ≤ (v.vol 6144).redrives ∧ (s.vol 6144).waiting = true ∧ (v.vol 6144).pendingAck = none ∧
    chanWorks s = true ∧ s.chan.applied = true ∧ v.coh.blocked = [] := by decide +kernel

theorem witness_Timers_paths : ∀ p ∈ [((1 : Nat), (0 : Nat)), (8, 0), (8, 512), (9, 0), (10, 0), (14, 0)],
    let v := (endpoint 0 0 (timerState p.1 p.2)).2
    choosePath v 0 ep0 = some (0, 0) ∧
    choosePath (v.updVol 6144 (fun y => { y with sent := [] })) 0 ep0 = some (0, 0) ∧
    (freeEntry 0 6144 0 0 v).coh.blocked = [] := by decide +kernel

theorem witness_Timers_end : ∀ st ∈ [(8 : Nat), 9],
    (endOut 0 6144 (xe st noSeq) ep0 10 2 0 (endpoint 0 0 (timerState st 0)).2).coh.blocked = [] := by decide +kernel

theorem witness_RingPoll : (deliver 0 6144 (xe 1 noSeq) ep0 (endpoint 0 0 (timerState 1 0)).2).coh.blocked = [] := by
  decide +kernel

theorem witness_Timers : ∀ p ∈ [((1 : Nat), (0 : Nat)), (8, 0), (8, 512), (9, 0), (10, 0), (14, 0)],
    openEntry 6144 (timerState p.1 p.2) = (some (0, xe p.1 noSeq, ep0), (endpoint 0 0 (timerState p.1 p.2)).2) := by
  intro p h
  obtain ⟨a, q, b, _, c, _⟩ := timer_facts p h
  refine openEntry_of (readEntry_of (holds_out (p.1, noSeq) ?_) a q) b c
  simp only [List.mem_cons, List.not_mem_nil, or_false] at h
  rcases h with rfl | rfl | rfl | rfl | rfl | rfl <;> decide

/-- EngineWork: a path that goes down, an IDLE, and a zone slot, in M6; a zone slot with one entry that is not FREE. -/
theorem witness_EngineWork_paths :
    (let s := let c := chanOf [] []; { c with md := { c.md with mode := some .quiesced } }
     (s.link 0).live = true ∧ chanWorks s = false ∧ linkUp s 0 = true ∧
     (s.link 0).idleOnly = false ∧ s.inMode [.restore, .run, .degraded, .service, .quiesced, .holdup] = true ∧
     (s.ce 0).le.toNat = 0 ∧ engineOf s 0 = some 0 ∧ s.coh.blocked = [] ∧ s.chan.applied = true) ∧
    (let s := outOf 8 noSeq
     engineOf s 0 = some 0 ∧ (s.ce 0).le.toNat = 0 ∧ s.coh.blocked = [] ∧ chanWorks s = true ∧
     openEntries s 0 = [6144]) := by decide +kernel

/-- EngineWork: a program of kind 1 that is started. -/
def queued (s : State) : State :=
  s.updLe 0 (fun e => { e with xq := [{ pu := 0, th := false, zone := 0, desc := 0, ep := 0 }] })

theorem witness_XstartCmd :
    let s := queued (chanOf [] [(0x40000000, 1), (0x40000027, 1)])
    let v := (endpoint 0 0 s).2
    let v1 := (program 0 0 0 v).2
    let d := ((program 0 0 0 v).1.getD (cpdOf [], [])).1
    engineOf s 0 = some 0 ∧ engHeld s 0 = false ∧ (s.le 0).xq = { pu := 0, th := false, zone := 0, desc := 0, ep := 0 } :: [] ∧
    s.chan.applied = true ∧ endpoint 0 0 s = (some ep0, v) ∧ v.lcs (.zone 0) = .on ∧ program 0 0 0 v = (some (d, []), v1) ∧
    d.kind = 1 ∧ freeOut v1 0 = some 6144 ∧ zoneReadN 0 0 0 d.buf d.len v1 = (some [], v1) ∧
    entryOpen 0 6144 0 v1 = (true, v1) ∧ v.coh.blocked = [] ∧
    (cmdStart 0 0 6144 { pu := 0, th := false, zone := 0, desc := 0, ep := 0 } ep0 d [] v1).coh.blocked = [] := by decide +kernel

/-- EngineWork: a program of kind 2 that answers the inbound exchange of key 0, which is in state 1. -/
def inXe : Xe := { state := 1, recvSeq := noSeq }

def respMem : List Host.Cell := xeCells 2904 [] [255, 255, 255, 255] [187, 220, 87, 164] 1 ++ epRec0 ++ [(0x40000000, 2)]

theorem holds_resp : holds respMem 2904 inXe = true := by decide +kernel

def respState : State := queued (chanOf (xeCells 2904 [] [255, 255, 255, 255] [187, 220, 87, 164] 1) [(0x40000000, 2)])

theorem witness_XstartResp :
    let v := (endpoint 0 0 respState).2
    let v1 := (program 0 0 0 v).2
    let d := ((program 0 0 0 v).1.getD (cpdOf [], [])).1
    endpoint 0 0 respState = (some ep0, v) ∧ program 0 0 0 v = (some (d, []), v1) ∧ d.kind = 2 ∧ d.key = 0 ∧
    8 * bucketOf 0 0 = 2904 ∧ readEntry 0 2904 v1 = (some inXe, v1) ∧ (v1.vol 2904).pendingAck = none ∧
    zoneReadN 0 0 0 d.buf d.len v1 = (some [], v1) ∧ entryOpen 0 2904 0 v1 = (true, v1) ∧ engHeld respState 0 = false :=
  ⟨by decide +kernel, by decide +kernel, by decide +kernel, by decide +kernel, by decide +kernel,
    readEntry_of holds_resp (by decide +kernel) (by decide +kernel),
    by decide +kernel, by decide +kernel, by decide +kernel, by decide +kernel⟩

/-- readEntry with the CRC that the kernel evaluates. -/
def readRun (n i : Nat) (s : State) : Option Xe × State :=
  if s.poisoned (i / 2) then readEntry n i s
  else
    let b := s.rd (128 * i) 128
    if b.all (· == 0) then (none, s)
    else if crcOf (b.take 124) ≠ beAt b 124 4 then readEntry n i s
    else (some (xeOf b), s)

theorem readRun_spec : @readEntry = readRun := by
  funext n i s
  by_cases hp : s.poisoned (i / 2) = true
  · rw [readRun, if_pos hp]
  · by_cases hb : (s.rd (128 * i) 128).all (· == 0) = true
    · simp only [readRun, readEntry, hp, hb, if_true, if_false, Bool.false_eq_true]
    · by_cases hc : crcOf ((s.rd (128 * i) 128).take 124) = beAt (s.rd (128 * i) 128) 124 4
      · simp only [readRun, readEntry, hp, hb, crcOf_spec, hc, ne_eq, not_true, if_false, Bool.false_eq_true]
      · simp only [readRun, hp, hb, hc, ne_eq, not_false_eq_true, if_true, if_false, Bool.false_eq_true]

/-- findIn finds the entry in the first way of its bucket. -/
theorem witness_XstartResp_findIn :
    let v1 := (program 0 0 0 (endpoint 0 0 respState).2).2
    findIn 0 0 0 0 v1 = (some (2904, inXe), some 2905, v1) := by
  intro v1
  unfold findIn
  rw [readRun_spec]
  decide +kernel

/-- EngineWork: the control register of CE0 takes a write. -/
theorem witness_Reload : reach phobos (regAddr 0x80 0x200) 8 true (chanOf [] []) = (none, chanOf [] []) ∧
    ((chanOf [] []).ce 0).le.toNat < 32 := by decide +kernel

/-- LinkEvents: link 0 in the states that its clauses name. -/
def linkOf (st : LcState) (k : Link) : State := State.setLc { S0 with links := [(0, k)] } (.link 0) { state := st }

theorem witness_LinkEvents :
    (linkOf .starting {}).lcs (.link 0) = .starting ∧ linkClock S0 0 = true ∧
    (bit 4 (0x14 : Word) = true ∧ bit 2 (0x14 : Word) = true ∧ bit 0 (0x14 : Word) = false) ∧
    ((linkOf .starting { used := 0x14 }).link 0).second = false ∧ ((linkOf .starting { used := 0x14, second := true }).link 0).second = true ∧
    linkConnected (linkOf .on { blockLock := true, amLock := true }) 0 = true ∧ bit 3 (0 : Word) = false ∧
    linkConnected (linkOf .off {}) 0 = false ∧ (linkOf .starting {}).inMode [.checkstop] = false ∧
    (linkOf .on {}).lcs (.link 0) = .on ∧ linkClock (linkOf .on {}) 0 = true ∧ linkClock (linkOf .starting {}) 0 = true ∧
    ((linkOf .off { cfg := 8, sigDet := true }).mainOn = true ∧ (linkOf .off { cfg := 8, sigDet := true }).lcs (.link 0) = .off ∧
      bit 3 ((linkOf .off { cfg := 8, sigDet := true }).link 0).cfg = true ∧
      linkClock (linkOf .off { cfg := 8, sigDet := true }) 0 = true ∧
      (linkOf .off { cfg := 8, sigDet := true }).inMode [.holdup, .checkstop] = false) ∧
    State.reset.pins.sdsLost.getLsbD 0 = false ∧ State.reset.mainOn = false ∧
    (let s := { S0 with links := (List.range 64).map (fun i => (i, { sigDet := true })) }
     s.pins.sdsLost.getLsbD 0 = false ∧ s.mainOn = true ∧ s.chan.vol = [] ∧ ∀ i, i < 64 → bit 3 (s.link (64 * 0 + i)).cfg = false) := by decide +kernel

/- Registers, lifecycles and management. -/

/-- LifecycleCommands: the register of the commit region, of a PU of no zone and of one of a zone; a rejected command, one
without effect, and the transitions that are stated whole. -/
def lcState (f : Fn) (st : LcState) : State := S0.setLc f { state := st }

def zoned : State := State.setLc { S0 with zones := [(0, { pus := 1 })] } (.zone 0) { state := .on }

theorem witness_LifecycleCommands : reach phobos (lcAddr .commit) 8 true S0 = (none, S0) ∧
    reach phobos (lcAddr (.pu 0)) 8 true S0 = (none, S0) ∧ S0.puZone 0 = none ∧
    reach phobos (lcAddr (.pu 0)) 8 true zoned = (none, zoned) ∧ zoned.puZone 0 ≠ none ∧
    (bit 0 (0x10000 : Word) = false ∧ bit 1 (0x10000 : Word) = false ∧ bit 2 (0x10000 : Word) = false) ∧
    (S0.mgmt.imgHeld = false ∧ S0.mgmt.ceFwHeld = false) ∧ lcAllowed S0 (.pu 0) .enable = false ∧ lcTable (S0.lcs .commit) .unfence = .rejected ∧
    (lcAllowed S0 .commit .disable = true ∧ lcTable (S0.lcs .commit) .disable = .noEffect) ∧
    ((lcState (.link 0) .fenced).lcs (.link 0) = .fenced ∧ lcAllowed (lcState (.link 0) .fenced) (.link 0) .unfence = true) ∧
    ((lcState (.link 0) .stopping).lcs (.link 0) = .stopping ∧ lcAllowed (lcState (.link 0) .stopping) (.link 0) .enable = true) ∧
    ((lcState (.link 0) .stoppingArmed).lcs (.link 0) = .stoppingArmed ∧
      lcAllowed (lcState (.link 0) .stoppingArmed) (.link 0) .disable = true) := by decide +kernel

/-- LifecycleEnds: a function in each state, whose stop is done. -/
theorem witness_LifecycleEnds : (lcState (.cslice 3) .starting).lcs (.cslice 3) = .starting ∧
    stopReady (lcState (.link 0) .stopping) (.link 0) = true ∧ (lcState (.link 0) .stopping).lcs (.link 0) = .stopping ∧
    stopReady (lcState (.link 0) .stoppingArmed) (.link 0) = true ∧
    (lcState (.link 0) .stoppingArmed).lcs (.link 0) = .stoppingArmed ∧
    (let s := { S0 with zones := [(0, { resetBusy := true })] }
     zoneResetReady s 0 = true ∧ (s.zone 0).homeDue = false) := by decide +kernel

/-- RegisterAccesses: a register, management memory, and an address of neither, which is answered with an error. -/
theorem witness_RegisterAccesses :
    (∀ w ∈ [true, false], (reach phobos 0x8000000480008 8 w S0).1 = none ∧
      reach phobos 0x8000000480008 8 w S0 = (none, S0) ∧ reach phobos 0x80E0000000010 4 w S0 = (none, S0) ∧
      (reach phobos 0x8000000480004 8 w S0).1 = some .error ∧ (reach phobos 0 8 w State.reset).1 = some .error ∧
      reach phobos 0x8000000480000 8 w S0 = (none, S0)) ∧
    target 0x8000000480008 = .reg (.unit .fab) 8 ∧ target 0x8000000480000 = .reg (.unit .fab) 0 ∧
    target 0x80E0000000010 = .mgmt 0x10 := by decide +kernel

/-- RegisterAccesses: a PU that the table of the fabric's registers lets write, and its island behind a fence. -/
theorem witness_RegisterAccesses_granted :
    let s := S0.updTab (.blk .fab) (fun x => { x with rows := [(0, 0xC)] })
    target 0x8000000480008 = .reg (.unit .fab) 8 ∧ pu0.master ≠ 0x7E ∧ tagOk pu0 (.reg (.unit .fab) 8) = true ∧ s.vaux = true ∧
    s.mainOn = true ∧ granted s (regTable (.unit .fab)) pu0 0x8000000480008 .write = true ∧ regTable (.unit .fab) ≠ .blk .sns ∧
    regFenced (s.updIsland .fab (fun x => { x with power := true })) (.unit .fab) = false ∧
    (reach phobos 0x8000000480008 8 true (S0.updIsland .fab (fun x => { x with swFence := true }))).1 = some .fenced := by
  decide +kernel

/-- RegisterAccesses: the mailbox of zone 2, and a link's configuration and error counters. -/
theorem witness_RegisterAccesses_windows :
    target 0x80F0000020000 = .box 2 0 ∧ target (regAddr (0x200) 0x200) ≠ .nowhere := by decide +kernel

/-- FaultAndOutputRegisters: Phobos reaches each register that its clauses name. -/
theorem witness_FaultAndOutputRegisters :
    reach phobos (regAddr (blkNum .fab) 0x100) 8 true S0 = (none, S0) ∧
    reach phobos (regAddr (blkNum .fab) 0x108) 8 true S0 = (none, S0) ∧
    (∀ t ∈ [TabId.blk .fab, .dwin, .mgmtMem, .group 3], reach phobos (tabAddr t) 8 true S0 = (none, S0) ∧
      reach phobos (tabAddr t + 8) 8 true S0 = (none, S0)) ∧
    reach phobos (regAddr 0x101 0x200) 8 true S0 = (none, S0) ∧ reach phobos (regAddr 0x101 0x208) 8 true S0 = (none, S0) := by
  decide +kernel

/-- FaultAndOutputRegisters: a gate that REARM opens, one that is open, and one that it may not open. -/
theorem witness_Rearm :
    (let s := { S0 with tb := { tod := BitVec.ofNat 64 (msUnits 20) } }
     s.outs.gate.getLsbD 0 = false ∧ s.outs.gate.getLsbD 19 = true ∧ msUnits 20 + (tget 0 s.outs.closedAt 0).toNat ≤ s.now ∧
     modeToggles s 0 = true ∧ corePresent s 0 = true ∧ (rearmOne 0 s).outs.gate.getLsbD 0 = true) ∧
    ¬ msUnits 20 + (tget 0 S0.outs.closedAt 0).toNat ≤ S0.now := by decide +kernel

/-- ManagementRegisters: the watchdog of Phobos, kicked by it and by Deimos; the drain engine's register; the debug port
in and out of service; a mailbox with room at K3 and without. -/
def deimos : Acc := { master := 0x79, th := false, zone := none }

def service : State := withDram { S0 with md := { mode := some .service, dbgPort := true } }

def debugger : State := service.updTab (.group 0) (fun x => { x with rows := [(0x7E, 0xE)] })

/-- PU0 of zone 2, which the table of the dictionary windows lets read and write. -/
def pu2 : Acc := { master := 0, th := false, zone := some 2 }

def window : State := S0.updTab .dwin (fun x => { x with rows := [(0, 0xC)] })

def fullK3 : State := { window with mgmt := { k3 := List.replicate 64 {
  src := .window 1, who := .Z, req := { index := 0, sub := 0, offset := 0, write := false, data := [] } } } }

theorem witness_ManagementRegisters :
    (reach phobos (regAddr 0x100 0x200) 8 true S0 = (none, S0) ∧ reach deimos (regAddr 0x100 0x200) 8 true S0 = (none, S0) ∧
      phobos.master.toNat = 0x78 + (0 : Fin 2).val ∧ deimos.master.toNat ≠ 0x78 + (0 : Fin 2).val ∧ S0.mgmt.wdog0.expired = false ∧
      nextKick S0.mgmt.wdog0 = 0x5A) ∧
    reach phobos (regAddr 0x68 0x208) 8 true S0 = (none, S0) ∧
    (S0.inMode [.service] = false ∧ debugger.inMode [.service] = true ∧ debugger.md.dbgPort = true ∧ target 0x2008 = .nowhere ∧
      dramAnswer { phobos with master := 0x7E } 0x2008 .read 0 debugger = (none, debugger) ∧
      readBytes { phobos with master := 0x7E } 0 0x2008 8 debugger = (some (List.replicate 8 0), debugger) ∧
      debugger.coh.blocked = [] ∧ (dramAnswer { phobos with master := 0x7E } 0x2008 .read 0
        { debugger with islands := [] }).1 = some 3 ∧
      target 0x8000000480008 ≠ .nowhere) ∧
    (reach pu2 (0x80F0000000000 + 65536 * 2) 8 true window = (none, window) ∧ (window.box 2).busy = false ∧ k3Full window = false ∧
      reach pu2 (0x80F0000000000 + 65536 * 2) 8 true fullK3 = (none, fullK3) ∧ (fullK3.box 2).busy = false ∧
      k3Full fullK3 = true) := by decide +kernel

/-- ClocksAndIslands: frequencies that are allowed and not, of a fabric and of a PU, upward and downward; the regulator's
acknowledgement; the loss of one reference and of the second. -/
theorem witness_ClocksAndIslands :
    mhzAllowed S0 .fab 1599 = false ∧ mhzAllowed S0 .fab 1600 = true ∧ S0.mainOn = true ∧ mhzAllowed S0 (.pu 0) 5400 = true ∧
    ((∀ n : Fin 48, Island.fab ≠ .pu n) ∧ ∀ g : Fin 8, Island.fab ≠ .lg g) ∧
    (let s := { S0 with islands := [(0, { power := true, mhz := 3000 })] }
     Nat.min 1200 (Nat.min (tget 5400 s.plant.thermCeil 0) (tget 5400 s.plant.powerCeil 0)) < puMhz s 0 ∧
     puMhz s 0 < Nat.min 5400 (Nat.min (tget 5400 s.plant.thermCeil 0) (tget 5400 s.plant.powerCeil 0))) ∧
    (let s := { S0 with plant := { vcoreDue := [(13, 4000)] } }
     s.plant.vcoreDue = [((13 : Fin 48).val, 4000)] ∧ (13 : Fin 48).val / 12 = (1 : Fin 4).val) ∧
    (S0.pins.refA = true ∧ S0.pins.refB = true ∧ Island.fab ∈ mainIslands ∧ ∀ i ∈ mainIslands, (S0.island i).useB = false) ∧
    (let s := { S0 with pins := { railsOn := true, refA := false } }
     s.mainOn = true ∧ (if false then s.pins.refA else s.pins.refB) = true ∧ (if true then s.pins.refA else s.pins.refB) = false ∧
     s.inMode [.run, .degraded, .service] = true) := by decide +kernel

/-- PlantLoops: each clause's condition at or beside its limit. -/
theorem witness_PlantLoops :
    S0.md.mode.isSome = true ∧ loopRuns S0 = true ∧
    (let s := { S0 with plant := { u := 100, hottest := 7700 } }
     s.plant.u = 100 ∧ 2 ≤ loopError s) ∧
    ({ S0 with plant := { u := 85 } }.plant.u ≤ 85 ∧ 10 < valveGap { S0 with plant := { u := 85 } }) ∧
    (S0.plant.adcBad = false ∧ { S0 with plant := { adcN := 48 } }.plant.adcN < 49 ∧ (1019 : Nat) < 1020) ∧
    (let s := State.setLc { S0 with islands := [(0, { power := true, mhz := 3000 })] } (.pu 0) { state := .on }
     fastest s = some 0) ∧
    (let s := { S0 with plant := { power := 949, powerCeil := [(0, 3000)] } }
     s.plant.power < 950 ∧ s.plant.powerCeil = [(0, 3000)]) ∧
    (let s := { S0 with pins := {}, plant := { recharge := some 20 } }
     s.md.mode.isSome = true ∧ s.mainOn = false ∧ computedBudget s ≤ s.plant.budget ∧ s.plant.recharge = some 20 ∧
     s.entry 0x3105 0 0 = 0 ∧ 1 / 2 ≤ 20 - storeVolts s) := by decide +kernel

/- Accelerators, memory controllers, the commit store. -/

/-- Zone 0 is ON, its segment 0 is DRAM at 2 GiB and its segment 1 lies in the commit region; slice 3 of both accelerators
is ON and holds the job j. -/
def accState (j : List Job) : State :=
  let s := { S0 with
    zones := [(0, { segHeld := true, seg := [(0, 0x8000000000000002), (1, 0x8000000000400001)] })], commit := { size := 2 }
    cslices := [(3, { jobs := j })], dslices := [(3, { jobs := j })] }
  let s := (((s.setLc (.zone 0) { state := .on }).setLc .commit { state := .on }).setLc (.cslice 3) { state := .on }).setLc
    (.dslice 3) { state := .on }
  withDram { s with islands := [(0xD0, { power := true }), (0xD1, { power := true })] }

/-- RANDOM_BYTES of len bytes to address 0 of a segment, with a completion area at 0x400 of segment 0. -/
def rndDesc (len seg : Byte) : List Byte :=
  [0x30, 0, 0, 0, 0, 0, 0, len] ++ List.replicate 8 0 ++ [0, 0, 0, 0, seg * 64, 0, 0, 0] ++ [0, 0, 0, len] ++
    List.replicate 64 0 ++ [0, 0, 4, 0] ++ List.replicate 32 0

/-- The same with its completion area at 0x400 of segment seg. -/
def rndDescAt (hi : Byte) : List Byte :=
  [0x30, 0, 0, 0, 0, 0, 0, 0] ++ List.replicate 20 0 ++ List.replicate 64 0 ++ [hi, 0, 4, 0] ++ List.replicate 32 0

def jobOf (d : List Byte) (st : JobStage) (held : Bool) : Job :=
  { desc := d, zone := 0, job := 1, chain := 0, pos := 0, last := true, stage := st, held := held }

/-- AcceleratorOperations: a queued RANDOM_BYTES on a slice that is ready and on one that is off. -/
theorem witness_AcceleratorJob : let j := jobOf (rndDesc 0 0) .queued false
    let s := accState [j]
    (s.slice false 3).jobs.find? (fun i => i.stage == .queued) = some j ∧ (descOf j.desc).op = 0x30 ∧
    s.lcs (.zone (Fin.ofNat 16 j.zone)) = .on ∧
    (s.lcs (sliceFn false 3) = .on ∧ unitWorks s false = true ∧ unitHeld s false = false ∧ chanHolds s = false ∧
      inProgress (s.slice false 3) < 8 ∧ s.coh.blocked = []) ∧
    (s.setLc (.cslice 3) {}).lcs (sliceFn false 3) ≠ .on := by decide +kernel

/-- AcceleratorOperations: it succeeds, fails while the entropy source has stopped, and waits for a grant. -/
theorem witness_AcceleratorRuns :
    (let j := jobOf (rndDesc 0 0) .queued false
     let r := (opRandomBytes 3 0 (descOf j.desc)).run (accState [j])
     r.1.toOption = some { outLen := 0 } ∧ r.2.coh.blocked = [] ∧ j ∈ (r.2.slice false 3).jobs) ∧
    (let j := jobOf (rndDesc 0 0) .queued false
     let s := { accState [j] with crypto := { entropy := false } }
     let r := (opRandomBytes 3 0 (descOf j.desc)).run s
     errOf r.1 = some (.fail 10 0 0 0) ∧ r.2.coh.blocked = [] ∧ j ∈ (r.2.slice false 3).jobs) ∧
    (let j := jobOf (rndDesc 1 1) .queued false
     errOf ((opRandomBytes 3 0 (descOf j.desc)).run (accState [j])).1 = some .waits ∧
     ((opRandomBytes 3 0 (descOf j.desc)).run (accState [j])).2.coh.blocked ≠ []) := by decide +kernel

/-- AcceleratorOperations: SHA-256 of nothing in one descriptor, a part of the wrong length, a P-256 signature to verify,
and no random data. -/
theorem witness_AcceleratorResults : let s := accState []
    (let d : Desc := { descOf [] with flags := 12 }
     d.param = 0 ∧ d.first = true ∧ d.final = true ∧ d.ctx = 0 ∧ (accRead false 0 0 d.inp d.len1 s).1.toOption = some [] ∧
     (accWrite false 0 d.out (List.replicate 32 7) s).1 = .done) ∧
    (let d : Desc := { descOf [] with flags := 4, len1 := 255, ctx := 0x400 }
     d.param = 0 ∧ d.final = false ∧ d.len1 % 256 ≠ 0 ∧ d.ctx ≠ 0) ∧
    (let d : Desc := { descOf [] with param := 257, len1 := 32, len2 := 129, aux := 0x800 }
     ecParamOk d.param = true ∧ d.len2 = 4 * (curveOf (d.param % 16)).size + 1 ∧
     (accRead false 0 0 d.aux d.len2 s).1.toOption = some (List.replicate 129 0) ∧
     ((ecInput 0 d).run (accRead false 0 0 d.aux d.len2 s).2).1.toOption = some (List.replicate 32 0)) ∧
    (let d : Desc := { descOf [] with param := 1, len1 := 65536, outCap := 65536 }
     s.crypto.entropy = true ∧ { s with crypto := { entropy := false } }.crypto.entropy = false ∧ d.param < 2 ∧ d.len1 ≤ 65536 ∧
     d.len1 ≤ d.outCap) ∧
    (drbgBytes 3 true 0 s).1 = [] ∧ (accWrite false 0 0 [] (drbgBytes 3 true 0 s).2).1 = .done := by decide +kernel

/-- CompletionsAndEntropy: a finished job whose entry can be written, one whose completion area waits for a grant, a held
one, and an accelerator without power. -/
theorem witness_Completions :
    (let j := jobOf (rndDesc 0 0) (.ran 0 0 0 0 false) false
     let s := accState [j]
     unitWorks s true = true ∧ unitHeld s true = false ∧ readyJob (s.slice true 3).jobs = some j ∧
     complArea j (chainAfter j (s.slice true 3).jobs) = some 0x400 ∧ chainAfter j (s.slice true 3).jobs = [] ∧
     (let r := accWrite true 0 0x400 (complEntry j 0 0 0 0 false s.now) s
      r.1 = .done ∧ r.2.coh.blocked = [])) ∧
    (let j := jobOf (rndDescAt 64) (.ran 0 0 0 0 false) false
     let s := accState [j]
     readyJob (s.slice true 3).jobs = some j ∧ complArea j (chainAfter j (s.slice true 3).jobs) = some 0x40000400 ∧
     (let r := accWrite true 0 0x40000400 (complEntry j 0 0 0 0 false s.now) s
      r.1 = .waits ∧ r.2.coh.blocked ≠ [])) ∧
    (unitWorks S0 true = false ∧ unitHeld S0 true = false ∧ S0.coh.blocked = []) ∧
    (let j := jobOf (rndDesc 0 0) (.ran 0 0 0 0 false) true
     ((accState [j]).slice false 3).jobs.find? (fun i => i.held) = some j) ∧
    ((accState []).crypto.entropy = true ∧ unitWorks (accState []) false = true ∧
      unitWorks { accState [] with crypto := { entropy := false } } false = true) := by decide +kernel

/-- DramRequests: the first line beyond DRAM, a line of ranks that are off, and one that the controllers answer. -/
theorem witness_DramRequests : isDram S2 (2 ^ 34) = false ∧ isDram S2 (2 ^ 34 - 1) = true ∧
    (isDram S0 5 = true ∧ lineAnswers S0 5 = false) ∧
    (isDram S2 5 = true ∧ lineAnswers S2 5 = true ∧ (S2.grp (lineGroup 5).val).failed = none ∧ inWriteQueue S2 5 = false ∧
      queueRoom S2 5 = true) ∧
    (∀ j, j < 5 → j ≠ 4 → [Stripe.good, .good, .good, .good, .bad].getD j .good = .good) ∧
    ([Stripe.bad, .good, .good, .good, .bad].getD 0 .good = .bad ∧ [Stripe.bad, .good, .good, .good, .bad].getD 4 .good = .bad) := by
  decide +kernel

/-- DramScheduling: a rank that is ON with nothing queued for it, a due targeted refresh, and two requests of which one
is more urgent. -/
def mcState (c : Mc) : State := { S2 with mcs := [(0, c)] }

theorem witness_DramScheduling :
    (let s := S2
     s.lcs (.rank 0 0) = .on ∧ tget RankPower.up (s.mc 0).power 0 = .up ∧ rankIdle s 0 0 = true ∧ (s.mc 0).pdIdle ≠ 0 ∧
     (s.mc 0).srIdle ≠ 0) ∧
    (let a : McReq := { line := 5, write := false, port := 0, urgency := 2 }
     let b : McReq := { line := 9, write := true, port := 4 }
     let s := mcState { queue := [b, a] }
     rankIdle s 0 0 = false ∧ (s.mc 0).queue[1]? = some a ∧ a.urgency < (3 : Fin 4).val ∧ (s.mc 0).trDue = [] ∧
     ∀ j, j ∈ [0, 1] → j ≠ 1 → ∀ r, (s.mc 0).queue[j]? = some r → r.urgency < a.urgency) ∧
    (mcState { trDue := [(0, 3, 7)] }).mcs = [(0, { trDue := (0, 3, 7) :: [] })] := by
  refine ⟨by decide +kernel, ⟨by decide +kernel, by decide +kernel, by decide +kernel, by decide +kernel, ?_⟩, by decide +kernel⟩
  intro j hj hne r hr
  simp only [List.mem_cons, List.not_mem_nil, or_false] at hj
  rcases hj with rfl | rfl
  · rw [show ((mcState { queue := [{ line := 9, write := true, port := 4 }, { line := 5, write := false, port := 0, urgency := 2 }] }).mc 0).queue[0]? =
      some { line := 9, write := true, port := 4 } by decide +kernel] at hr
    cases hr
    decide
  · exact absurd rfl hne

/-- DramTrainingScrubAndRebuild: the training register takes a write; a run is under way; delays whose update is in reach
and out of reach; a scrub that is off and one that runs; a rebuild before and at its last line. -/
theorem witness_DramTraining :
    reach phobos (trnAddr 19) 8 true S0 = (none, S0) ∧ ((mcState { trnBusy := true }).mc 0).trnBusy = true ∧
    (let c := (S2.mc 0)
     S2.lcs (.rank 0 0) = .on ∧ ∀ k, k < 20 →
       ((List.replicate 20 (some 16)).getD k none = some 16 ∧ ((16 : Int) - ((fld 25 16 (tget 0 c.shadow (20 * 0 + k)) : Nat) : Int)).natAbs ≤ 16 ∧
        ((tget 0 c.wrRef (20 * 0 + k) : Nat) : Int) = 0 ∧ fld 9 0 (tget 0 c.shadow (20 * 0 + k)) = 0 ∧ S2.entry 0x7011 0 0 = 0)) ∧
    ([] : List (Option Nat)).getD 3 none ≠ some 0 := by decide +kernel

theorem witness_ScrubAndRebuild :
    { S2 with mgmt := { dict := [(0x702000, some 0)] } }.entry 0x7020 0 24 = 0 ∧
    (let s := { S2 with md := { initDone := true } }
     s.entry 0x7020 0 24 ≠ 0 ∧ s.md.initDone = true ∧ (s.grp 3).lost = false) ∧
    (let s := { S2 with groups := [(3, { rebuild := some 5 })] }
     (s.grp 3).rebuild = some 5 ∧ 5 + 1 < groupLines s) ∧
    (let s := { S2 with groups := [(3, { rebuild := some (2 ^ 32 - 1) })] }
     (s.grp 3).rebuild = some (2 ^ 32 - 1) ∧ groupLines s ≤ 2 ^ 32 - 1 + 1) := by decide +kernel

/-- CommitGrants: a region of 1 GiB. -/
def region (c : Commit) : State :=
  { S0.setLc .commit { state := .on } with commit := { c with size := 1 }, islands := [(0x68, { power := true })] }

theorem witness_CommitGrants : regionBlocks (region {}) ≤ 4096 ∧ 4095 < regionBlocks (region {}) ∧ S0.lcs .commit ≠ .on ∧
    (region {}).lcs .commit = .on ∧ blockOpen (region { dirty := [4095] }) 4095 = true ∧
    (let s := region { openDone := true, allow := 5 }
     blockOpen s 4095 = false ∧ canGrant s = true ∧ s.commit.queue = [] ∧ s.inMode [.holdup] = false) ∧
    canGrant (region {}) = false ∧ blockOpen (region {}) 0 = false ∧ (region {}).commit.openDone = false ∧
    (takesStores (region {}) = true ∧ (let s := { region { openDone := true } with md := { mode := some .holdup } }
     blockOpen s 0 = false ∧ s.inMode [.holdup] = true ∧ s.commit.openDone = true ∧ s.commit.frozenMap = none)) ∧
    (region { frozenMap := some [7] }).commit.frozenMap = some (7 :: []) ∧
    ((region { openDue := true }).commit.openDue = true ∧ flashFailed (region { chanFail := 0x3FFF }) = 14) ∧
    (region { cleaning := some 7, dirty := [7] }).commit.cleaning = some 7 ∧
    (region {}).commit.chanFail.getLsbD 15 = false := by decide +kernel

/-- DrainAndIndex: the stop phase is done in M7; a drain in each mode; below the bus threshold; at rest after M7. -/
theorem witness_DrainAndIndex :
    (let s := { region { phase := 1, dirty := [3] } with md := { mode := some .holdup } }
     drainWbuf s = s ∧ s.inMode [.holdup] = true ∧ s.commit.phase = 1 ∧ stopPhaseDone s = true) ∧
    (let c : Commit := { frozenMap := some [3, 7], openDone := true, dirty := [3, 7] }
     (region c).commit.frozenMap = some [3, 7] ∧ (region c).commit.openDone = true ∧ flashFailed (region c) ≤ 14 ∧
     { region c with md := { mode := some .holdup } }.inMode [.holdup] = true ∧
     (let s := { region c with md := { mode := some .quiesced, leaving := some 0 } }
      s.inMode [.quiesced] = true ∧ s.md.leaving.isSome = true) ∧
     (let s := { region c with md := { mode := some .checkstop } }
      s.inMode [.checkstop] = true ∧ s.pins.railsOn = true ∧ s.commit.phase ≠ 6 ∧ s.commit.phase ≠ 7 ∧ s.md.requests = [])) ∧
    (let s := { S0 with md := { mode := some .cold, awaitRepower := true } }
     s.inMode [.cold] = true ∧ s.md.awaitRepower = true) := by decide +kernel

/-- RestoreLoadsTheImage: a log with one complete index, whose block verifies or not, and an image larger than the region. -/
def image : List Host.Cell := [(5 * 262144, 0xAB)]

def restoring (size : Nat) : State :=
  { region { log := [.opened 4 0, .block 5 4 0 image, .index 4 true size [(5, 2)]] } with
    md := { mode := some .restore }, crypto := { drainKey := some 7 } }

theorem witness_Restore : ∀ size ∈ [1, 2],
    let s := restoring size
    s.inMode [.restore] = true ∧ s.md.restored = none ∧
    restoreChain (s.commit.log.filter (fun r => match r with
      | .index h _ _ _ => !([] : List Nat).contains h
      | _ => true)) = [(4, true, size, [(5, 2)])] ∧ twf 0 [(5, 2)] = true ∧
    5 < regionBlocks s := by
  intro size h
  simp only [List.mem_cons, List.not_mem_nil, or_false] at h
  rcases h with rfl | rfl <;> decide +kernel

theorem witness_Restore_block : ∀ size ∈ [1, 2],
    let names : Tbl Nat := [(5, 2)]
    let s := restoring size
    recordAt s.commit.log 2 = some image ∧ Memory.wf image = true ∧ (∀ c ∈ image, c.1 / 262144 = 5) ∧
    (s.commit.size.toNat < size ↔ 1 < size) ∧
    (5 : Nat) ∈ [5] ∧ s.crypto.drainKey ≠ none ∧ tget 0 names 5 ≠ 0 ∧ tget 0 names 4 = 0 := by decide +kernel

/- Modes, power, the dictionary, the field network, sparing. -/

def modeState (m : Mode) : State := { S0 with md := { mode := some m } }

/-- ModeRequests: a state for each clause. -/
theorem witness_ModeRequests :
    ((modeState .run).inMode [.quiesced, .checkstop] = false ∧ (modeState .checkstop).inMode [.checkstop] = true ∧
      (modeState .run).inMode [.cold] = false ∧ (modeState .quiesced).inMode [.run, .degraded, .service] = false) ∧
    ((modeState .quiesced).inMode [.quiesced] = true ∧ (modeState .quiesced).md.leaving = none) ∧
    { modeState .quiesced with md := { mode := some .quiesced, leaving := some 0 } }.md.leaving ≠ none ∧
    { modeState .checkstop with pins := {} }.pins.railsOn = false ∧
    (let s := { modeState .cold with pins := {} }
     s.inMode [.cold] = true ∧ s.md.requests = [] ∧ s.md.awaitRepower = false ∧ s.pins.seqBusy = false ∧ s.pins.railsOn = false ∧
     s.pins.pfwCounted = false) ∧
    (let s := { S0 with md := { mode := some .service, m5From := .quiesced } }
     s.md.requests = [] ∧ s.inMode [.service] = true ∧ s.md.m5From = .quiesced ∧ s.md.leaving = none ∧ s.md.unchecked = 0) ∧
    (let s := { S0 with
      md := { mode := some .provision, provisioned := true }, commit := { log := [.opened 1 0] }, mgmt := { imgHeld := true } }
     s.inMode [.provision] = true ∧ s.md.provisioned = true ∧ s.md.held = false ∧ m1Blocked s = false ∧
     logHasImage s.commit.log = true ∧ s.md.requests = []) ∧
    (let s := modeState .service
     s.inMode [.service] = true ∧ s.md.m5From ≠ .quiesced ∧ s.md.leaving = none ∧ s.md.unchecked = 0 ∧ s.md.requests = []) ∧
    (let s := { S0 with mgmt := { dict := [(0x203000, some 1)] } }
     Principal.F ≠ .P ∧ s.entry 0x2030 0 0 = 1 ∧ s.inMode [.run, .degraded, .quiesced] = true ∧ s.inMode [.run, .degraded] = true ∧
     s.md.leaving = none) ∧
    S0.entry 0x2030 0 0 ≠ 1 := by decide +kernel

/-- PowerEvents: before VAUX; the boot checks of both slots and the recovery, with its image written and not; the rail
sequence with a reference and without; PFW_N. -/
theorem witness_PowerEvents : State.reset.vaux = false ∧
    (∀ a ∈ [true, false], let s := { State.reset with vaux := true, md := { booting := true, bootA := a } }
      s.md.booting = true ∧ s.md.recovery = false ∧ s.md.bootA = a) ∧
    (let s := { State.reset with vaux := true, md := { recovery := true } }
     (s.md.recovery && s.mgmt.transfers.any (fun t => t.req.index == 0x1F00 && t.next == 0)) = false) ∧
    (let t : Transfer := {
       busB := false, client := 5, total := 0, data := [], served := true, next := 0
       req := { index := 0x1F00, sub := 0, offset := 0, write := true, data := [] } }
     let s := { State.reset with vaux := true, md := { recovery := true }, mgmt := { transfers := [t] } }
     (s.md.recovery && s.mgmt.transfers.any (fun t => t.req.index == 0x1F00 && t.next == 0)) = true) ∧
    (∀ r ∈ [true, false], let s := { modeState .cold with pins := { seqBusy := true, refA := r, refB := false } }
     s.inMode [.cold] = true ∧ s.pins.seqBusy = true ∧ s.pins.pfwCounted = false ∧ s.pins.refA = r ∧ s.pins.refB = false) ∧
    (S0.inMode [.run, .degraded, .service, .quiesced] = true ∧ (modeState .provision).inMode [.provision, .restore] = true) ∧
    (let s := { S0 with pins := { pfwLow := true }, commit := { openDone := true } }
     s.pins.pfwLow = true ∧ s.pins.pfwCounted = false ∧ s.commit.openDone = true) := by decide +kernel

/-- StartupAndCheckstop: M1 with no request, a PU that can be loaded, the end of service from M3 and from M6, and a source
of class C4 and one that is not. -/
theorem witness_StartupAndCheckstop :
    (let s := modeState .provision
     let p := nothingFound s
     s.inMode [.provision] = true ∧ tapHolds s = false ∧ s.md.requests = [] ∧ s.lcs (.pu 0) ≠ .fenced ∧
     s.spc.failedSet.getLsbD 0 = false ∧ s.spc.current = none ∧
     ((p.csA || p.csB) && p.image.b1) = false ∧
     (let q := { p with csA := true, image := { p.image with b1 := true }, lanes := [], failed := [] }
      ((q.csA || q.csB) && q.image.b1) = true ∧ q.lanes = [] ∧ q.failed = [])) ∧
    (∀ m ∈ [Mode.run, .quiesced], let s := { S0 with md := { mode := some .service, m5From := m } }
      s.inMode [.service] = true ∧ s.md.leaving = none ∧ s.md.unchecked = 0 ∧ s.md.requests = []) ∧
    srcClass (blkKind .fab) 8 = some 4 ∧ srcClass (blkKind .fab) 9 ≠ some 4 ∧ S0.chk.valid = false := by decide +kernel

/-- ManagementLoops: a line to service, a storm mask, both processors down, a heartbeat on both buses, and records that
wait. -/
theorem witness_ManagementLoops :
    (let s := { S0 with faults := [(blkNum .fab, { valid := true, cls := 1 })] }
     dictUp s = true ∧ .fab ∈ (serviceOrder s).take 48) ∧
    (Blk.fab, (8 : Fin 32).val) ∈ { S0 with mgmt := { stormMask := [(Blk.fab, 8)] } }.mgmt.stormMask ∧
    (S0.mgmt.bothDown = false ∧ S0.md.mode = some .run) ∧
    (let s := { S0 with mgmt := { bothDown := true } }
     s.mgmt.bothDown = true ∧ islandFenced s (.mgmt (if s.mgmt.active then 0 else 1)) = false ∧ s.inMode [.holdup] = false) ∧
    (let s := { S0 with mgmt := { bothDown := true, imgHeld := true, ceFwHeld := true } }
     s.mgmt.imgHeld = true ∧ s.mgmt.ceFwHeld = true ∧ (0 : BitVec 384) = s.mgmt.imgHash ∧ (1 : BitVec 384) ≠ s.mgmt.imgHash ∧
     (1 : BitVec 384) ≠ s.mgmt.ceFwHash) ∧
    (let s := { S0 with mgmt := { straps := 5, joinedA := true, joinedB := true } }
     dictUp s = true ∧ s.entry 0x1010 0 100 ≠ 0 ∧ s.mgmt.straps ≠ 0 ∧ s.mgmt.joinedA = true ∧ s.mgmt.joinedB = true) ∧
    (S0.encke.waiting.length < 2 ∧ { S0 with encke := { waiting := [{}, {}] } }.encke.waiting.length = 2) ∧
    (let s := { S0 with encke := { waiting := [{}] }, islands := [(0x69, { power := true })] }
     s.encke.waiting = {} :: [] ∧ s.mgmt.bothDown = false ∧ islandUp s .flash = true) := by decide +kernel

/-- DictionaryRequests: an index out of range, one and a subindex that do not exist, and an entry of each right. -/
theorem witness_DictionaryRequests : dictUp S0 = true ∧ S0.coh.blocked = [] ∧ 0xF000 ≤ 0xF000 ∧ indexExists 0xEFFF = false ∧
    indexExists 0x1001 = true ∧ entryOf (256 * 0x1001 + 9) = none ∧
    (∃ e, entryOf (256 * 0x1001 + 2) = some e ∧ e.right = .rw ∧ .F ∈ e.who ∧ .Z ∉ e.who ∧ e.key ≠ 0x203000 ∧
      e.ty.size = some [(0x07 : Byte), 0xD0].length ∧ inRange S0 e (ofBe [(0x07 : Byte), 0xD0]) = true ∧
      inRange S0 e (ofBe [(0x03 : Byte), 0xE7]) = false ∧ e.ty.size ≠ some [(1 : Byte)].length) ∧
    (∃ e, entryOf (256 * 0x1001 + 3) = some e ∧ e.right = .wo ∧ .F ∈ e.who) ∧
    (∃ e, entryOf 0xA00201 = some e ∧ e.right = .ro ∧ .F ∈ e.who) :=
  ⟨by decide +kernel, by decide +kernel, by decide +kernel, by decide +kernel, by decide +kernel, by decide +kernel,
    ⟨{ key := 0x100102, ty := .u 2, right := .rw, who := [.F, .P], dflt := 2000, lo := 1000, hi := 5000 }, by decide +kernel⟩,
    ⟨(entryOf (256 * 0x1001 + 3)).getD { key := 0, ty := .bool, right := .rw, who := [] }, by decide +kernel⟩,
    ⟨(entryOf 0xA00201).getD { key := 0, ty := .bool, right := .rw, who := [] }, by decide +kernel⟩⟩

/-- DictionaryRequests: an item of the window of zone 0 at the front of K3's queue. -/
def k3State : State := { S0 with mgmt := { k3 := [{
  src := .window 0, who := .Z, req := { index := 0x1001, sub := 2, offset := 0, write := false, data := [] } }] } }

theorem witness_K3 : dictUp k3State = true ∧ k3State.mgmt.k3.length = 1 ∧ (k3State.mgmt.k3.map (fun i => i.src)) = [.window 0] ∧
    (k3State.mgmt.k3.all (fun i =>
      let r := dictRequest i.who i.req (some i) { k3State with mgmt := { k3State.mgmt with
        k3 := [], k3At := k3State.tb.tod, k3Log := k3Recent k3State ++ [(k3State.tb.tod, k3State.now - k3State.mgmt.k3At.toNat)] } }
      r.1.isSome && r.2.2.coh.blocked.isEmpty)) = true := by decide +kernel

/-- DictionaryActionsAndLimitedChanges: proving runs of units that are off and free, and limited changes in M1 that
remain and that are spent, with and without an image of 8 GiB. -/
theorem witness_DictionaryActions :
    (S0.inMode [.run, .degraded, .service] = true ∧ S0.lcs (.pu 0) = .off ∧ (∀ z, z < 16 → (S0.zone z).pus.getLsbD 0 = false) ∧
      S0.spc.current = none ∧ S0.spc.proving = [] ∧ S0.lcs (.ce 35) = .off ∧ (S0.ce 35).le = 0x3F ∧ S0.spc.ceCalls = []) ∧
    ((modeState .cold).inMode [.run, .degraded, .service] = false ∧ dictUp (modeState .cold) = true) ∧
    ({ S0 with pins := {} }.mainOn = false ∧ S0.mainOn = true ∧ S0.coh.blocked = [] ∧ (clearDoubt S0).coh.blocked = [] ∧
      (abandonHeld 3 S0).coh.blocked = []) := by decide +kernel

theorem witness_LimitedChanges : let s := modeState .provision
    dictUp s = true ∧ s.inMode [.provision] = true ∧ ((16 : BitVec 8) ∈ ([1, 2, 4, 8, 16] : List (BitVec 8))) ∧
    (3 : BitVec 8) ∉ ([1, 2, 4, 8, 16] : List (BitVec 8)) ∧ (1 : BitVec 8).toNat = s.lim.zc ∧ (16 : BitVec 8).toNat ≠ s.lim.zc ∧
    s.lim.zcLeft ≠ 0 ∧ { s with lim := { zcLeft := 0 } }.lim.zcLeft = 0 := by decide +kernel

theorem witness_LimitedChanges_others : let s := modeState .provision
    (64 : BitVec 8).toNat = s.lim.maxCommit ∧
    (63 : BitVec 8).toNat ≠ s.lim.maxCommit ∧ s.lim.mcLeft ≠ 0 ∧ restoreChain s.commit.log = [] ∧
    restoreChain [.index 1 true 8 []] = [(1, true, 8, [])] ∧ (7 : BitVec 8).toNat < 8 ∧ (1 : BitVec 384) ≠ s.lim.root ∧
    s.lim.rootLeft ≠ 0 ∧ (15 : BitVec 8).toNat < 16 ∧ s.lim.enrolLeft ≠ 0 ∧ s.inMode [.run] = false ∧
    s.crypto.entropy = true ∧ islandUp s .crypto = false ∧
    islandUp { s with islands := [(0xD0, { power := true })] } .crypto = true := by decide +kernel

/-- FieldNetworkTimeAndTap: module 5 on both buses; frames for it, of another module, and of the bus format of each
service; transfers under way. -/
def bus : State := { S0 with mgmt := { straps := 5, joinedA := true, joinedB := true }, pins := { railsOn := true, timeRef := true } }

def can (data : List Byte) (tgl : Bool) : CanFrame :=
  { busB := false, classic := false, src := 9, dst := 5, tgl := tgl, low := 0, data := data }

def xfer (write : Bool) (n : Nat) : Transfer :=
  { busB := false, client := 9, req := { index := 0x1F00, sub := 1, offset := 0, write := write, data := [] }, total := 61,
    data := List.replicate n 0xAA, next := 1, served := true }

theorem witness_FieldNetwork :
    heard bus { can [] false with dst := 6 } true = false ∧ heardFd bus { can [] false with classic := true } = false ∧
    heard bus { can [] false with dst := 0 } true = true ∧ heardFd bus (can [] false) = true ∧ bus.md.recovery = false ∧
    k3Full (dropXfer false 9 bus) = false ∧
    k3Full (dropXfer false 9 { bus with mgmt := { bus.mgmt with k3 := List.replicate 64 {
      src := .window 1, who := .Z, req := { index := 0, sub := 0, offset := 0, write := false, data := [] } } } }) = true ∧
    (let f := can [0x10, 0x01, 2, 2, 0, 0, 0, 61] false
     isDomain bus (xferReq f true 0 []) = false ∧ xferFlag f 1 = true ∧
     xferFlag (can [0x10, 0x01, 2, 0, 0, 0, 0, 2] false) 1 = false) ∧
    openXfer bus false 9 = none ∧
    (let s := { bus with md := { bus.md with recovery := true } }
     heardFd s (can [] false) = true ∧ s.md.recovery = true ∧
     (let f := can [0x1F, 0x00, 0, 2, 0, 0, 0, 61] false
      beAt f.data 0 2 = 0x1F00 ∧ beAt f.data 2 1 = 0 ∧ xferFlag f 1 = true)) := by decide +kernel

theorem witness_Segments :
    (∀ n ∈ [60, 61], let t := xfer false n
      let s := { bus with mgmt := { bus.mgmt with transfers := [t] } }
      openXfer s false 9 = some t ∧ t.served = true ∧ t.req.write = false ∧ t.next ≠ 0 ∧
      beAt (can [0, 0, 0, 0, 0, 0, 0, 1] false).data 4 4 = t.next ∧ (can [0, 0, 0, 0, 0, 0, 0, 1] false).tgl = segToggle t.next ∧
      beAt (can [0, 0, 0, 0, 0, 0, 0, 2] false).data 4 4 ≠ t.next ∧ onBus s false = true) ∧
    (let t := xfer true 1
     let s := { bus with mgmt := { bus.mgmt with transfers := [t] } }
     openXfer s false 9 = some t ∧ t.req.write = true ∧ t.next ≠ 0 ∧ (can [] true).tgl ≠ segToggle t.next ∧
     (can ([0, 0, 0, 1] ++ List.replicate 60 1) false).tgl = segToggle t.next ∧
     xferFlag (can ([0, 0, 0, 1] ++ List.replicate 59 1) false) 0 = true ∧
     (t.data ++ (((can ([0, 0, 0, 1] ++ List.replicate 59 1) false).data.drop 4).take 60).take (t.total - t.data.length)).length ≠ t.total ∧
     xferFlag (can ([0, 0, 0, 0] ++ List.replicate 60 1) false) 0 = false) := by decide +kernel

theorem witness_TimeAndTap : bus.vaux = true ∧ bus.pins.timeRef = true ∧
    (let s := { bus with mgmt := { bus.mgmt with dict := [(0x103000, some 9)] } }
     heard s (can [] false) true = true ∧ (can [] false).classic = false ∧ (can [] false).src.toNat = s.entry 0x1030 0 0) ∧
    { bus with pins := { railsOn := true } }.pins.timeRef = false ∧ bus.inMode [.provision] = false ∧ bus.md.requests = [] ∧
    (let s := { modeState .provision with mgmt := { dict := [(0x203000, some 1)] } }
     s.vaux = true ∧ s.inMode [.provision] = true ∧ s.entry 0x2030 0 0 = 1 ∧ s.md.requests = []) ∧
    State.reset.vaux = false := by decide +kernel

/-- CompareAndRetry: a PU that is ON, one in its restart, one with two rollbacks in its window, one out of lock-step, and
one with a word that one copy cannot read; one of no zone; one in a proving run. -/
def compared (p : Pu) : State := State.setLc { S0 with pus := [(0, p)] } (.pu 0) { state := .on }

theorem witness_CompareAndRetry : copiesRun S0 0 = false ∧ copiesRun (compared {}) 0 = true ∧
    (copiesRun { S0.setLc (.pu 0) { state := .starting } with spc := { proving := [{ ce := false, n := 0, stage := 0 }] } } 0 = true) ∧
    (((compared {}).pu 0).retrying = false ∧ ((compared {}).pu 0).unchecked = false ∧ ((compared {}).thr 0 false).tx = none ∧
      ((compared {}).thr 0 true).tx = none ∧ ((compared {}).flt (.pu 0)).valid = false ∧
      ((compared {}).flt (.pu 0)).mask.getLsbD 8 = false) ∧
    ((compared { windowCnt := 1, windowOpen := true }).pu 0).windowCnt < 2 ∧
    2 ≤ ((compared { windowCnt := 2, windowOpen := true }).pu 0).windowCnt ∧
    ((compared { retrying := true }).pu 0).retrying = true ∧ ((compared { unchecked := true }).pu 0).unchecked = true ∧
    (((compared {}).thr 0 false).ckBad = (false, false) ∧ ((compared {}).thr 0 false).latBad = (false, false) ∧
      ((compared { t0 := { ckBad := (false, true), latBad := (true, false) } }).thr 0 false).ckBad = (false, true) ∧
      ((compared { t0 := { ckBad := (false, true), latBad := (true, false) } }).thr 0 false).latBad = (true, false)) ∧
    ((compared { windowOpen := true }).pu 0).windowOpen = true ∧
    (compared {}).puZone 0 = none ∧ (compared {}).lcs (.pu 0) = .on := by decide +kernel

/-- CallUpOfSpares: the call-up of PU1 for PU0 at each of its steps, and a drain with a line that cannot be written. -/
def call : CallUp :=
  { failed := 0, zone := some 0, arch0 := some {}, arch1 := some {}, latch0 := [], latch1 := [], run0 := true, run1 := false }

def calling (step : Nat) (drains : List (Nat × Option Nat)) : State :=
  { S0 with
    spc := { current := some call, spare := 1, step := step, drains := drains }, mgmt := { imgHeld := true }
    zones := [(0, { pus := 1 })] }

theorem witness_CallUp : (calling 6 []).spc.drains = [] ∧
    (let s := calling 2 [(0, some 0)]
     s.spc.drains = (0, some (0 : Fin 16).val) :: [] ∧ (s.pu 0).t0.sb = [] ∧ (s.pu 0).t1.sb = [] ∧ dirtyLines s 0 = [] ∧
     (s.pu 0).t0.wait = .none ∧ (s.pu 0).t1.wait = .none ∧ s.spc.current = some call ∧ call.failed = 0) ∧
    (let s := { calling 2 [(0, some 0)] with pus := [(0, puOf {})] }
     dirtyLines s 0 ≠ [] ∧ (s.pu 0).t0.wait = .none ∧ (s.pu 0).t1.wait = .none) ∧
    ((S0.setLc (.pu 3) { state := .fenced }).lcs (.pu 3) = .fenced ∧ S0.spc.drains = [] ∧ S0.lcs (.pu 3) ≠ .fenced) ∧
    (∀ st ∈ [4, 5, 6], (calling st []).spc.current = some call ∧ atStep (calling st []) st = true) ∧
    atStep S0 6 = false ∧ (calling 5 []).mgmt.imgHeld = true ∧
    ((calling 6 []).spc.spare = (1 : Fin 48).val ∧ call.failed = (0 : Fin 48).val ∧ call.zone = some (0 : Fin 16).val ∧
      call.arch0 = some {} ∧ call.arch1 = some {} ∧ call.txCode0 = none ∧ call.txCode1 = none) ∧
    (S0.lcs (.ce 3) = .off ∧ (S0.setLc (.ce 3) { state := .on }).lcs (.ce 3) = .on) := by decide +kernel

/-- ProvingAndDebug: a proving run of a PU and of an engine; the debugger in service and the end of its session. -/
def proved (st : Nat) : State :=
  { S0.setLc (.pu 7) { state := .starting } with
    spc := { proving := [{ ce := false, n := 7, stage := st }], failedSet := 0x80 }, mgmt := { imgHeld := true } }

theorem witness_ProvingAndDebug :
    (∀ st ∈ [0, 1], let s := proved st
      s.spc.proving = [{ ce := false, n := (7 : Fin 48).val, stage := st }] ∧ provingAt s st = some (7 : Fin 48).val ∧
      atStep s 4 = false ∧ atStep s 5 = false ∧ s.mgmt.imgHeld = true ∧ s.lcs (.pu 7) = .starting ∧ s.spc.current = none ∧
      s.spc.failedSet.getLsbD 7 = true ∧ ∀ p ∈ s.spc.proving, ¬ (p.ce = true ∧ p.n = 7)) ∧
    { S0 with spc := { proving := [{ ce := false, n := 7, stage := 0 }] } }.lcs (.pu 7) ≠ .starting ∧
    (let s := { S0.setLc (.ce 35) { state := .starting } with spc := { proving := [{ ce := true, n := 35, stage := 0 }] } }
     s.spc.proving = [{ ce := true, n := (35 : Fin 36).val, stage := 0 }] ∧ s.lcs (.ce 35) = .starting) ∧
    (S0.mgmt.active = false ∧ islandFenced S0 (.mgmt 1) = false) ∧
    (let s := { compared {} with md := { mode := some .service, dbgPort := true } }
     s.inMode [.service] = true ∧ s.md.dbgPort = true ∧ s.md.leaving = none ∧ s.lcs (.pu 0) = .on ∧ (s.pu 0).retrying = false ∧
     ∀ th, holdsEvents (s.thr 0 th) = false ∧ (s.thr 0 th).tx = none) ∧
    holdsEvents ((compared { t0 := { stamp := some 1 } }).thr 0 false) = true ∧
    (let s := { compared { unchecked := true } with md := { mode := some .service, leaving := some 5 } }
     (s.pu 0).unchecked = true ∧ s.md.leaving.isSome = true ∧ (s.pu 0).t0.sb = [] ∧ (s.pu 0).t1.sb = []) := by decide +kernel

/-! Terms that WellFormed refuses, one for each check it makes. -/

def frameOf (kind : BitVec 4) (len : Nat) (l : List Byte) : Frame :=
  { version := 1, kind := kind, flags := 0, len := len, src := 0, dst := 0, key := 0, seq := 0, route := 0, code := 0,
    payload := l, crcOk := true, pcsOk := true }

def canOf (classic : Bool) (n : Nat) : CanFrame :=
  { busB := false, classic := classic, src := 0, dst := 0, tgl := false, low := 0, data := List.replicate n 0 }

theorem bad_size : (Instr.registerWrite phobos 0 3 0).wf = false ∧ (Instr.rcRead phobos 0 0).wf = false ∧ (Instr.rcRead phobos 0 8).wf = true := by
  decide +kernel

theorem bad_line : (Instr.rdn pu0 (2 ^ 44)).wf = false ∧ (Instr.rdn pu0 (2 ^ 44 - 1)).wf = true := by decide +kernel

theorem bad_entry : (Instr.ringPoll 262144).wf = false ∧ (Instr.ringPoll 262143).wf = true := by decide +kernel

theorem bad_line_bytes : (Instr.ivw phobos 0 []).wf = false ∧ (Instr.ivw phobos 255 [1, 2]).wf = false ∧ (Instr.ivw phobos 255 [1]).wf = true := by
  decide +kernel

theorem bad_frame : (Instr.cmdFrame 0 (frameOf 2 0 [])).wf = false ∧ (Instr.cmdFrame 0 (frameOf 1 2 [7])).wf = false ∧
    (Instr.cmdFrame 0 (frameOf 1 1 [7])).wf = true ∧ (Instr.frameForward 0 (frameOf 4 1 [])).wf = false := by decide +kernel

theorem bad_can : (Instr.discover (canOf true 9)).wf = false ∧ (Instr.discover (canOf false 65)).wf = false ∧
    (Instr.discover (canOf false 64)).wf = true := by decide +kernel

theorem bad_counts : (Instr.restoreComplete [262144] []).wf = false ∧ (Instr.callupInjectionTestComplete 129).wf = false ∧
    (Instr.storeBufferDrain 0 false 128).wf = false ∧ (Instr.inv 0 86).wf = false ∧ (Instr.setRecall 0 0 2560).wf = false ∧
    (Instr.urgencyStep 0 64 0).wf = false ∧ (Instr.provingRunComplete true 36 0 true).wf = false ∧ (Instr.resyncComplete 0 129).wf = false ∧ (Instr.adcSample [] 0 false).wf = false := by
  decide +kernel

theorem bad_memory : (Instr.mcWriteRequest phobos 0 (List.replicate 255 0) 0).wf = false ∧ (Instr.delayUpdate 0 0 0 (List.replicate 19 none)).wf = false ∧
    (Instr.dramCommandSlot 0 [1, 1]).wf = false ∧ (Instr.dramCommandSlot 0 [1, 0]).wf = true := by decide +kernel

/-! Worked examples of the spec; each names its place. -/

/-- R11's example: PU number 28, thread 1, class 3. -/
theorem test_requester_id : requesterId { master := 0x1C, th := true, zone := none } 3 = 0x1CB := by decide +kernel

/-- 03, two encodings: 0x200642C0 and 0x04CFF018, which S.EIW holds in its upper half. -/
theorem test_encodings : encT3 { pu := 0, th := false, cond := 2 } 0 0 { d := 3, a := 4, b := 5, s := true } = 0x200642C000000000 ∧
    encM { pu := 0, th := false, cond := 0 } 0x13 { t := 7, a := 31, disp := 0x18 } = 0x04CFF01800000000 := by decide +kernel

/-- WordsDecodeToTheirInstruction: one word of each major family, put together from the fields of Table 3.3, the opcodes of
Table 3.4 and the codes of Tables 3.5 and 3.12; a long form has its constant in the second word. -/
theorem test_words :
    (decodeIns 0 false 0x200642C0 0).toOption = some (.add { pu := 0, th := false, cond := 2 } { d := 3, a := 4, b := 5, s := true }) ∧
    (decodeIns 0 false 0x004C1101 0).toOption = some (.mulw hdr { d := 6, a := 1, b := 2, s := false }) ∧
    (decodeIns 0 false 0x008A6FFF 0).toOption = some (.addi hdr { d := 5, a := 6, imm := 0xFFF }) ∧
    (decodeIns 0 false 0x020A683F 0).toOption = some (.shiSar hdr 5 6 63) ∧
    (decodeIns 0 false 0x024FFFFF 0).toOption = some (.movi hdr 7 0x1FFFF) ∧
    (decodeIns 0 false 0x04CFF018 0).toOption = some (.ldD hdr { t := 7, a := 31, disp := 0x18 }) ∧
    (decodeIns 0 false 0x071484C7 0).toOption = some (.ldx hdr { t := 10, a := 8, x := 9, am := 4, sm := 1, sz := 3 }) ∧
    (decodeIns 0 false 0x1A3FFFFF 0).toOption = some (.b { pu := 0, th := false, cond := 1 } 0x3FFFFF) ∧
    (decodeIns 0 false 0x0AD80025 0).toOption = some (.callm hdr 12 0x25) ∧
    (decodeIns 0 false 0x0B480024 0).toOption = some (.mfs hdr 4 0x24) ∧
    (decodeIns 0 false 0x0A800002 0).toOption = some (.ret hdr) ∧
    (decodeIns 0 false 0x0C022188 0).toOption = some (.faddS hdr 1 2 3) ∧
    (decodeIns 0 false 0x0C422193 0).toOption = some (.fnmsubD hdr { d := 1, a := 2, b := 3, c := 4 }) ∧
    (decodeIns 0 false 0x0C844314 0).toOption = some (.dqua64 hdr 2 4 6) ∧
    (decodeIns 0 false 0x0CC43219 0).toOption = some (.cas2 hdr 2 3 4) ∧
    (decodeIns 0 false 0x0D000004 0).toOption = some (.fenceAll hdr) ∧
    (decodeIns 0 false 0x0D520000 0).toOption = some (.txopen hdr 9) ∧
    (decodeIns 0 false 0x0D800000 0).toOption = some (.eret hdr) ∧
    (decodeIns 0 false 0x0DC22180 0).toOption = some (.xstart hdr 1 2 3) ∧
    (decodeIns 0 false 0x0E022187 0).toOption = some (.sha512r hdr 1 2 3) ∧
    (decodeIns 0 false 0x0FC03000 7).toOption = some (.liL hdr 6 7) :=
  ⟨rfl, rfl, rfl, rfl, rfl, rfl, rfl, rfl, rfl, rfl, rfl, rfl, rfl, rfl, rfl, rfl, rfl, rfl, rfl, rfl, rfl⟩

/-- Words that no instruction takes: a reserved major opcode, a reserved function code, an odd pair, a reserved address
mode, a reserved long operation. -/
theorem test_reserved_words : errOf (decodeIns 0 false 0x02800000 0) = some 1 ∧ errOf (decodeIns 0 false 0x00400003 0) = some 2 ∧
    errOf (decodeIns 0 false 0x004E1101 0) = some 4 ∧ errOf (decodeIns 0 false 0x071484B3 0) = some 5 ∧
    errOf (decodeIns 0 false 0x0FFF3000 0) = some 2 := ⟨rfl, rfl, rfl, rfl, rfl⟩

/-- WordsDecodeToTheirInstruction: an instruction of each outcome. -/
theorem witness_WordsDecode : (Instr.mulw hdr { d := 6, a := 1, b := 2, s := false }).hdr = some hdr ∧
    (Instr.mulw hdr { d := 7, a := 1, b := 2, s := false }).hdr = some hdr ∧
    (Instr.stx hdr { t := 1, a := 2, x := 3, am := 3, sm := 0, sz := 0 }).hdr = some hdr ∧
    nReserved false { t := 1, a := 2, x := 3, am := 3, sm := 0, sz := 0 } = true ∧
    nReserved false { t := 1, a := 2, x := 3, am := 0, sm := 0, sz := 0 } = false := ⟨rfl, rfl, rfl, rfl, rfl⟩

def ringArch (off : Nat) : Arch := { regsOf [(8, off), (9, 64)] with mods := [(1, 0x0005000040000C40)] }

def ringAccess (off : Nat) : Option Ea :=
  (eaN (ringArch off) { t := 10, a := 8, x := 9, am := 4, sm := 1, sz := 3 } 8).toOption

/-- 03, a completion ring. -/
theorem test_ring : ringAccess 256 = some (0x40000D40, some (8, 0)) ∧ ringAccess 0 = some (0x40000C40, some (8, 64)) ∧
    ringAccess 64 = some (0x40000C80, some (8, 128)) ∧ ringAccess 320 = none := by decide +kernel

/-- 03, the CALLM example: G14, G16 and G19 in a frame of 48 bytes. -/
theorem test_callm_frame : frameSize 0x25 = 48 ∧ maskRegs 0x25 = [14, 16, 19] := by decide +kernel

/-- 04, rounding to cents: 12.345 to exponent −2 in RNE and RTZ is 12.34. -/
theorem test_quantize : quaNum d128 0 (.fin false 12345 (-3)) (.fin false 0 (-2)) = (.fin false 1234 (-2), { x := true }) ∧
    quaNum d128 1 (.fin false 12345 (-3)) (.fin false 0 (-2)) = (.fin false 1234 (-2), { x := true }) := by decide +kernel

/-- 05, index formation. -/
theorem test_predictor_indexes : atIndex 0x40001A3C 0x5A3C = 0x5CB3 ∧ htIndex 0x40001A3C 0x02F1 0x5A3C = 0x1E42 ∧
    chIndex 0x40001A3C 0x5A3C = 0x32C ∧ tbSet 0x40001A3C 0x5A3C = 0x4B3 := by decide +kernel

/-- 08, the home of one line: slice 2 of quadrant 2, L3 set 0x9E2, directory set 1,506. -/
theorem test_home : homeSlice 0x1E8C5678A = 2 * 12 + 2 ∧ l3Set 0x1E8C5678A % 4096 = 0x9E2 ∧ dirSet 0x1E8C5678A % 2560 = 1506 := by
  decide +kernel

/-- 11, one line in DRAM: rank 1, row 0x1D18A, bank group 3, bank 2, subchannel 0. -/
theorem test_device_location : devLoc { u := 4096, k := 2, r := 17, c := 7 } 0x7A31598A =
    { sc := 0, bank := 3 * 4 + 2, row := 0x1D18A, rank := 1 } := by decide +kernel

/-- 17, two faults in one cycle and one more: FOVF with OVF 1, HIGHER 1, MAXCLASS 3, COUNT 2. -/
theorem test_fovf : fovfWord { ovf := true, higher := true, maxCls := 3, count := 2 } = 0xC300000000000002 := by decide +kernel

/-- Table 3.7: ADD, and the carry chain's wrap. -/
theorem test_add : g 3 (nextOf (exec (.add hdr { d := 3, a := 1, b := 2, s := false }) S1)) = 12 ∧
    g 3 (nextOf (exec (.add hdr { d := 3, a := 4, b := 4, s := false }) S1)) = 0 := by decide +kernel

/-- SUB takes b from a. -/
theorem test_sub : g 3 (nextOf (exec (.sub hdr { d := 3, a := 2, b := 1, s := false }) S1)) = 2 := by decide +kernel

end Sys2Proof.Tests
end

/-! SUPPORT. The register path (R5 to R8, R17): what a request that reaches its target does there, and O37. -/

namespace Sys2Proof.Machine

/- The commands REGISTER_WRITE and RC_READ, by the answer of the register path. -/

theorem exec_registerWrite (a : Acc) (addr : BitVec 52) (size : Nat) (v : Word) (s : State) :
    exec (.registerWrite a addr size v) s = execRegisterWrite a addr size v s := rfl

theorem exec_rcRead (a : Acc) (addr : BitVec 52) (size : Nat) (s : State) :
    exec (.rcRead a addr size) s = execRcRead a addr size s := rfl

section
variable {a : Acc} {addr : BitVec 52} {pa size : Nat} {v : Word} {s u : State} {r : Resp}

theorem exec_registerWrite_of_devWrite (h : devWrite a addr.toNat size v s = (r, u)) (hr : r ≠ .fenced) :
    exec (.registerWrite a addr size v) s = .next { u with resp := r } := by
  rw [exec_registerWrite, execRegisterWrite, h, devSent, if_neg hr]

/-- The write that is discarded as FENCED is recorded at its sender (R17). -/
theorem exec_registerWrite_of_devWrite_fenced (h : devWrite a addr.toNat size v s = (.fenced, u)) :
    exec (.registerWrite a addr size v) s = .next { fencedSender a addr.toNat u with resp := .fenced } := by
  rw [exec_registerWrite, execRegisterWrite, h, devSent, if_pos rfl]

theorem exec_rcRead_of_devRead (h : devRead a addr.toNat size s = (r, u)) :
    exec (.rcRead a addr size) s = .next { u with resp := r } := by
  rw [exec_rcRead, execRcRead, h]

/- The register path, by what reach answers and by the target. -/

theorem devWrite_of_answered (h : reach a pa size true s = (some r, u)) : devWrite a pa size v s = (r, u) := by
  rw [devWrite, h]

theorem devRead_of_answered (h : reach a pa size false s = (some r, u)) : devRead a pa size s = (r, u) := by
  rw [devRead, h]

theorem devWrite_reg {b : RegBlk} {off : Nat} (h : reach a pa size true s = (none, s)) (ht : target pa = .reg b off) :
    devWrite a pa size v s = (.ok 0, regWrite a b off v s) := by
  simp only [devWrite, h, ht]

theorem devRead_reg {b : RegBlk} {off : Nat} (h : reach a pa size false s = (none, s)) (ht : target pa = .reg b off) :
    devRead a pa size s = (.ok (regRead b off s).1, (regRead b off s).2) := by
  simp only [devRead, h, ht]

theorem devWrite_box {z : Fin 16} {off : Nat} (h : reach a pa size true s = (none, s)) (ht : target pa = .box z off) :
    devWrite a pa size v s = (.ok 0, boxWrite z off v s) := by
  simp only [devWrite, h, ht]

theorem devRead_box {z : Fin 16} {off : Nat} (h : reach a pa size false s = (none, s)) (ht : target pa = .box z off) :
    devRead a pa size s = (.ok (boxRead (s.box z) off), s) := by
  simp only [devRead, h, ht]

theorem devWrite_mgmt {off : Nat} (h : reach a pa size true s = (none, s)) (ht : target pa = .mgmt off) :
    devWrite a pa size v s =
      (.ok 0, { s with mgmt := { s.mgmt with mgmtMem := memPut s.mgmt.mgmtMem off (toBe size v.toNat) } }) := by
  simp only [devWrite, h, ht]

theorem devRead_mgmt {off : Nat} (h : reach a pa size false s = (none, s)) (ht : target pa = .mgmt off) :
    devRead a pa size s =
      (.ok (BitVec.ofNat 64 (ofBe ((List.range size).map (fun i => tget 0 s.mgmt.mgmtMem (off + i))))), s) := by
  simp only [devRead, h, ht]

/- Commands whose target is a register. -/

theorem exec_registerWrite_reg {b : RegBlk} {off : Nat} (h : reach a addr.toNat size true s = (none, s))
    (ht : target addr.toNat = .reg b off) :
    exec (.registerWrite a addr size v) s = .next { regWrite a b off v s with resp := .ok 0 } :=
  exec_registerWrite_of_devWrite (devWrite_reg h ht) nofun

theorem exec_rcRead_reg {b : RegBlk} {off : Nat} (h : reach a addr.toNat size false s = (none, s))
    (ht : target addr.toNat = .reg b off) :
    exec (.rcRead a addr size) s = .next { (regRead b off s).2 with resp := .ok (regRead b off s).1 } :=
  exec_rcRead_of_devRead (devRead_reg h ht)

/-- Every check of reach passes for an aligned request of 8 bytes that the block's table grants, while the block's island
is up; only the management pair writes the blocks that the table of SNS governs (R5, R476, R512, R517). -/
theorem reach_reg_of_granted {b : RegBlk} {off : Nat} {w : Bool} (ht : target pa = .reg b off) (hsize : size = 8)
    (halign : pa % 8 = 0) (hdbg : a.master ≠ 0x7E) (htag : tagOk a (.reg b off) = true) (hvaux : s.vaux = true)
    (hmain : regVaux b = true ∨ s.mainOn = true) (hup : regFenced s b = false)
    (hgrant : granted s (regTable b) a pa (if w then .write else .read) = true)
    (hsns : regTable b = .blk .sns → w = true → isMgmt a = true) : reach a pa size w s = (none, s) := by
  have hport : ¬ a.master = 126#8 := hdbg
  have hpower : (!regVaux b && !s.mainOn) = false := by rcases hmain with h | h <;> simp [h]
  have hpair : (decide (regTable b = .blk .sns) && w && !isMgmt a) = false := by
    refine Bool.eq_false_iff.mpr fun h => ?_
    simp only [Bool.and_eq_true, decide_eq_true_eq, Bool.not_eq_true'] at h
    obtain ⟨⟨hb, hw⟩, hother⟩ := h
    exact absurd (hsns hb hw) (by simp [hother])
  simp [reach, ht, hport, htag, sizeOk, hsize, halign, hpower, hvaux, hup, targetTable, hgrant, hpair]

end

/- Registers by block and offset. -/

/-- unit.ID takes no write (R515). -/
@[simp] theorem regWrite_id (a : Acc) (b : RegBlk) (v : Word) (s : State) : regWrite a b 0 v s = s := by
  rw [regWrite.eq_def, if_pos rfl]

@[simp] theorem regRead_id (b : RegBlk) (s : State) : regRead b 0 s = (idWord (regKind b).1 (regKind b).2, s) := by
  rw [regRead.eq_def, if_pos rfl]

/-- An offset of a link block below the tables that is neither unit.ID nor the lifecycle register is the link's own. -/
theorem regRead_link_own (n : Fin 512) {off : Nat} (h0 : off ≠ 0) (h8 : off ≠ 8) (ht : off < 0x8000) (s : State) :
    regRead (.link n) off s = linkRead n off s := by
  simp [regRead, regFn, ownRead, h0, h8, Nat.not_le.mpr ht]

/-- An offset of the zone manager's block above the lifecycle and fault registers and below the tables is its own. -/
theorem regRead_zm_own {off : Nat} (hl : 0x280 ≤ off) (ht : off < 0x8000) (s : State) :
    regRead (.unit .zm) off s = zmRead off s := by
  have hfn : regFn (.unit .zm) off = none := if_neg (by omega)
  have h0 : off ≠ 0 := by omega
  have hfault : off ≠ 0x100 ∧ off ≠ 0x108 ∧ off ≠ 0x110 ∧ off ≠ 0x118 ∧ off ≠ 0x120 := by omega
  simp [regRead, hfn, ownRead, h0, hfault, Nat.not_le.mpr ht]

/-- LINKnnn.CFG takes its writable bits (Table 14.2). -/
theorem regWrite_linkCfg (a : Acc) (n : Fin 512) (v : Word) (s : State) :
    regWrite a (.link n) 0x200 v s = s.updLink n (fun k => { k with cfg := v &&& linkCfgMask }) := by
  simp [regWrite, regFn, ownWrite]

theorem regRead_linkErr0 (n : Fin 512) (s : State) : regRead (.link n) 0x210 s =
    (linkErr0 (s.link n), s.updLink n (fun k => { k with fecCorr := 0, fecUncorr := 0, berCnt := 0 })) := by
  simp [regRead_link_own, linkRead]

theorem regRead_linkErr1 (n : Fin 512) (s : State) : regRead (.link n) 0x218 s =
    (linkErr1 (s.link n), s.updLink n (fun k => { k with crcErr := 0, gapDisc := 0, lockLoss := 0, fallbacks := 0 })) := by
  simp [regRead_link_own, linkRead]

theorem regRead_zoneStat (z : Fin 16) (s : State) : regRead (.unit .zm) (0x480 + 8 * z.val) s =
    (zoneStatWord (s.zone z), s.updZone z (fun x => { x with lost := 0, irqDisc := 0, irqMerged := 0 })) := by
  have hz := z.isLt
  have hzone : (0x480 + 8 * z.val) % 0x80 / 8 = z := by omega
  rw [regRead_zm_own (by omega) (by omega), zmRead]
  rw [if_neg (by omega), if_neg (by omega), if_neg (by omega), if_neg (by omega), if_pos (by omega), hzone]

theorem regRead_zrstLost (s : State) :
    regRead (.unit .zm) 0x518 s = (BitVec.ofNat 64 s.zrstLost, { s with zrstLost := 0 }) := by
  simp [regRead_zm_own, zmRead]

/- Management memory. -/

@[simp] theorem length_toBe (n v : Nat) : (toBe n v).length = n := by
  induction n with
  | zero => rfl
  | succ n ih => rw [toBe, List.length_cons, ih]

/-- A byte of memory after a store: of the bytes stored where it lies among them, and as it was elsewhere. -/
theorem tget_memPut (m : List Host.Cell) (o : Nat) (l : List Byte) (k : Nat) :
    tget 0 (memPut m o l) k = if o ≤ k ∧ k < o + l.length then l.getD (k - o) 0 else tget 0 m k := by
  split
  case isTrue h =>
    obtain ⟨i, rfl⟩ := Nat.exists_eq_add_of_le h.1
    rw [tget_memPut_in m o l (by omega), Nat.add_sub_cancel_left]
  case isFalse h =>
    rcases Nat.lt_or_ge k o with hk | hk
    · exact tget_memPut_of_lt m o l hk
    · exact tget_memPut_of_ge m o l (by omega)

/-- Management memory holds what is written: a store's bytes where it reaches, every other byte as before (R484). -/
theorem exec_registerWrite_mgmt {a : Acc} {addr : BitVec 52} {size off : Nat} {v : Word} {s : State}
    (h : reach a addr.toNat size true s = (none, s)) (ht : target addr.toNat = .mgmt off) :
    ∃ u, exec (.registerWrite a addr size v) s = .next u ∧ u.resp = .ok 0 ∧
      ∀ k, tget 0 u.mgmt.mgmtMem k = if off ≤ k ∧ k < off + size then (toBe size v.toNat).getD (k - off) 0
        else tget 0 s.mgmt.mgmtMem k := by
  refine ⟨_, exec_registerWrite_of_devWrite (devWrite_mgmt h ht) nofun, rfl, fun k => ?_⟩
  simpa only [length_toBe] using tget_memPut s.mgmt.mgmtMem off (toBe size v.toNat) k

/-- Settles O37: the commands answer what devWrite and devRead answer, and these what reach and the target's own register
rule give. -/
theorem registerAccesses : Obligations.RegisterAccesses := by
  unfold Obligations.RegisterAccesses
  refine ⟨fun a addr size v s => ⟨?_, ?_, ?_, ?_, ?_, ?_⟩, fun s => ⟨fun z => ?_, ?_, fun n => ?_⟩⟩
  · intro b off w ht hsize halign hdbg htag hvaux hmain hup hgrant hsns
    exact reach_reg_of_granted ht hsize halign hdbg htag hvaux hmain hup hgrant hsns
  · exact fun r u h hr => exec_registerWrite_of_devWrite (devWrite_of_answered h) hr
  · exact fun u h => exec_registerWrite_of_devWrite_fenced (devWrite_of_answered h)
  · exact fun r u h => exec_rcRead_of_devRead (devRead_of_answered h)
  · intro h
    refine ⟨fun b off ht => ⟨exec_registerWrite_reg h ht, ?_⟩, fun n ht => ?_, fun z off ht => ?_, fun off ht => ?_⟩
    · rintro rfl
      rw [exec_registerWrite_reg h ht, regWrite_id]
    · rw [exec_registerWrite_reg h ht, regWrite_linkCfg, linkCfgMask]
    · exact exec_registerWrite_of_devWrite (devWrite_box h ht) nofun
    · exact exec_registerWrite_mgmt h ht
  · intro h
    refine ⟨fun b off ht => ⟨exec_rcRead_reg h ht, ?_⟩, fun n ht => ?_, fun n ht => ?_, fun z off ht => ?_, fun off ht => ?_⟩
    · rintro rfl
      rw [exec_rcRead_reg h ht, regRead_id]
    · rw [exec_rcRead_reg h ht, regRead_linkErr1]
    · rw [exec_rcRead_reg h ht, regRead_linkErr0]
    · exact exec_rcRead_of_devRead (devRead_box h ht)
    · exact exec_rcRead_of_devRead (devRead_mgmt h ht)
  · simp [regRead_zoneStat]
  · simp [regRead_zrstLost]
  · simp [regRead_linkErr1]

end Sys2Proof.Machine
